-- ==== Sys2Proof/Word.lean ====
section
/-! DEFINITION. The word types of the Vorsum VS-960 and their plainest arithmetic (R6, R7, R13). -/

namespace Sys2Proof

/-- A byte (R6). -/
abbrev Byte := BitVec 8

/-- A 64-bit scalar, slot word or header (R16, R108). -/
abbrev Word := BitVec 64

/-- A 6-bit register field (R131). -/
abbrev Reg := BitVec 6

/-- A 32-bit immediate field (R130). -/
abbrev Imm := BitVec 32

/-- A 20-bit immediate field of formats E and V (R130). -/
abbrev Imm20 := BitVec 20

/-- One row of a tile register: 512 bytes, byte 0 in the low bits (R6, R26). -/
abbrev Row := BitVec 4096

/-- `ceil(a / b)` on exact integers (R14). -/
def ceilDiv (a b : Nat) : Nat := (a + b - 1) / b

end Sys2Proof
end

