-- ==== Sys2Proof/Machine/Num.lean ====
section
/-! DEFINITION. Exact values and the rounding of the number formats (R67 to R107). -/

namespace Sys2Proof.Machine

/-- An exact value: NaN, an infinity, or a signed number of magnitude `m * 2^e`. With `sticky` the magnitude lies
strictly between `m * 2^e` and `(m + 1) * 2^e`; zero is `m = 0` without it. -/
inductive Val where
  | nan
  | inf (neg : Bool)
  | num (neg : Bool) (m : Nat) (e : Int) (sticky : Bool)
deriving DecidableEq, Repr

def Val.zero (neg : Bool) : Val := .num neg 0 0 false

def Val.isZero : Val → Bool
  | .num _ m _ st => m == 0 && !st
  | _ => false

def Val.isNan : Val → Bool
  | .nan => true
  | _ => false

def Val.neg : Val → Bool
  | .nan => false
  | .inf n => n
  | .num n _ _ _ => n

/-- An integer as an exact value; zero is +0. -/
def Val.ofInt (i : Int) : Val := .num (i < 0) i.natAbs 0 false

/-- The value with its sign flipped. -/
def Val.negate : Val → Val
  | .nan => .nan
  | .inf n => .inf (!n)
  | .num n m e st => .num (!n) m e st

/-! ### The formats by tag (R27, R67, R72, R74) -/

/-- Element bits of a tag (R27). -/
def elemBits (tag : Nat) : Nat :=
  match tag with
  | 1 | 8 => 32
  | 2 | 3 => 16
  | 4 | 5 | 9 | 11 => 8
  | 6 | 7 | 10 => 4
  | _ => 8

/-- Elements in a 512-byte row (R27). -/
def elemsPerRow (tag : Nat) : Nat := 4096 / elemBits tag

/-- Blocks of 64 elements in a row (R27). -/
def blocksPerRow (tag : Nat) : Nat := elemsPerRow tag / 64

/-- Block and superblock scales apply (R27). -/
def isScaled (tag : Nat) : Bool := tag == 4 || tag == 5 || tag == 6 || tag == 7 || tag == 9 || tag == 10

/-- Integer formats (R72). -/
def isIntTag (tag : Nat) : Bool := tag == 8 || tag == 9 || tag == 10

/-- Floating-point parameters of R67: exponent bits, mantissa bits, largest finite magnitude code, infinities. -/
structure FloatFmt where
  ebits : Nat
  mbits : Nat
  bias : Nat
  maxCode : Nat        -- magnitude bits of the largest finite value
  infCode : Option Nat -- magnitude bits of infinity
  nanCode : Nat        -- canonical NaN (R91)
deriving DecidableEq, Repr

def floatFmt (tag : Nat) : FloatFmt :=
  match tag with
  | 1 => ⟨8, 23, 127, 0x7F7FFFFF, some 0x7F800000, 0x7FC00000⟩
  | 2 => ⟨8, 7, 127, 0x7F7F, some 0x7F80, 0x7FC0⟩
  | 3 => ⟨5, 10, 15, 0x7BFF, some 0x7C00, 0x7E00⟩
  | 4 => ⟨4, 3, 7, 0x7E, none, 0x7F⟩
  | 5 => ⟨5, 2, 15, 0x7B, some 0x7C, 0x7E⟩
  | 6 => ⟨2, 1, 1, 0x7, none, 0x0⟩
  | _ => ⟨4, 3, 7, 0x7E, none, 0x7F⟩

/-- Least normal exponent (R67). -/
def FloatFmt.emin (f : FloatFmt) : Int := 1 - (f.bias : Int)

/-- The value of a floating-point magnitude code with its sign (R67 to R70). -/
def floatValue (f : FloatFmt) (neg : Bool) (code : Nat) : Val :=
  if code ≤ f.maxCode then
    let e := code / 2 ^ f.mbits
    let m := code % 2 ^ f.mbits
    if e = 0 then .num neg m (f.emin - f.mbits) false
    else .num neg (m + 2 ^ f.mbits) ((e : Int) - f.bias - f.mbits) false
  else if f.infCode = some code then .inf neg
  else .nan

/-- Levels of QL16 in 64ths (R74). -/
def ql16Level (c : Nat) : Int :=
  match c with
  | 0 => -64 | 1 => -45 | 2 => -34 | 3 => -26 | 4 => -19 | 5 => -13 | 6 => -7 | 7 => 0
  | 8 => 6 | 9 => 12 | 10 => 18 | 11 => 25 | 12 => 33 | 13 => 42 | 14 => 53 | _ => 64

/-- Two's complement reading of the low `w` bits. -/
def signedOf (w bits : Nat) : Int := (BitVec.ofNat w bits).toInt

/-- `ElementValue`: the value of an encoding before any scale (R67, R69, R70, R72, R74). -/
def elementValue (tag bits : Nat) : Val :=
  match tag with
  | 7 =>
    let k := ql16Level (bits % 16)
    .num (k < 0) k.natAbs (-6) false
  | 8 => Val.ofInt (signedOf 32 bits)
  | 9 => Val.ofInt (signedOf 8 bits)
  | 10 => Val.ofInt (signedOf 4 bits)
  | 11 => if bits % 256 < 128 then floatValue (floatFmt 11) false (bits % 256) else .nan
  | _ =>
    let w := elemBits tag
    floatValue (floatFmt tag) (2 ^ (w - 1) ≤ bits % 2 ^ w) (bits % 2 ^ (w - 1))

/-- `Product` of two factors (R78). -/
def Val.mul (a b : Val) : Val :=
  match a, b with
  | .nan, _ => .nan
  | _, .nan => .nan
  | .inf n, .inf k => .inf (n != k)
  | .inf n, .num k m _ st => if m = 0 ∧ st = false then .nan else .inf (n != k)
  | .num k m _ st, .inf n => if m = 0 ∧ st = false then .nan else .inf (n != k)
  | .num n m e st, .num k m' e' st' => .num (n != k) (m * m') (e + e') (st || st')

/-- `Decode` under a block and a superblock scale (R77). A scale byte with bit 7 set is the caller's trap. -/
def decodeScaled (tag bits bs ss : Nat) : Val :=
  ((elementValue tag bits).mul (elementValue 11 bs)).mul (elementValue 1 ss)

/-! ### Exact sums (R95, R96) -/

/-- The sum of exact finite terms as an integer multiple of `2^e`, with `e` the least exponent seen. -/
def addDyadic (a : Int × Int) (b : Int × Int) : Int × Int :=
  if a.2 ≤ b.2 then (a.1 + b.1 * 2 ^ (b.2 - a.2).toNat, a.2)
  else (a.1 * 2 ^ (a.2 - b.2).toNat + b.1, b.2)

/-- Running state of an exact sum: NaN, +Inf and −Inf seen; whether every term was −0; the finite sum. -/
structure Acc where
  nan : Bool
  pinf : Bool
  ninf : Bool
  allNegZero : Bool
  sum : Int × Int
deriving DecidableEq, Repr

def Acc.empty : Acc := ⟨false, false, false, true, (0, 0)⟩

/-- Add one exact term. -/
def Acc.add (a : Acc) (v : Val) : Acc :=
  match v with
  | .nan => { a with nan := true, allNegZero := false }
  | .inf false => { a with pinf := true, allNegZero := false }
  | .inf true => { a with ninf := true, allNegZero := false }
  | .num n m e _ =>
    if m = 0 then { a with allNegZero := a.allNegZero && n }
    else { a with allNegZero := false, sum := addDyadic a.sum (if n then -(m : Int) else (m : Int), e) }

/-- The exact sum (R95, R96). -/
def Acc.value (a : Acc) : Val :=
  if a.nan || (a.pinf && a.ninf) then .nan
  else if a.pinf then .inf false
  else if a.ninf then .inf true
  else if a.sum.1 = 0 then Val.zero a.allNegZero
  else .num (a.sum.1 < 0) a.sum.1.natAbs a.sum.2 false

/-- `Σ` of a list of terms (R95, R96). -/
def exactSum (l : List Val) : Val := (l.foldl Acc.add Acc.empty).value

/-- Sum of two terms. -/
def Val.add (a b : Val) : Val := ((Acc.empty.add a).add b).value

/-- Whether the finite or infinite value `a` is below `b`; −0 counts as below +0 (R99, R166). NaN is the caller's. -/
def Val.lt (a b : Val) : Bool :=
  match a, b with
  | .nan, _ => false
  | _, .nan => false
  | .inf n, .inf k => n && !k
  | .inf n, .num .. => n
  | .num .., .inf n => !n
  | .num n m e _, .num k m' e' _ =>
    let d := addDyadic (if n then -(m : Int) else (m : Int), e) (if k then (m' : Int) else -(m' : Int), e')
    d.1 < 0 || (d.1 = 0 && m = 0 && m' = 0 && n && !k)

/-- Numeric equality; +0 equals −0, and NaN equals nothing (R167). -/
def Val.eqv (a b : Val) : Bool :=
  match a, b with
  | .inf n, .inf k => n == k
  | .num n m e _, .num k m' e' _ =>
    let d := addDyadic (if n then -(m : Int) else (m : Int), e) (if k then (m' : Int) else -(m' : Int), e')
    d.1 = 0
  | _, _ => false

/-- The smaller and the larger operand; NaN if either is NaN (R166, R99). -/
def Val.min (a b : Val) : Val := if a.isNan || b.isNan then .nan else if b.lt a then b else a
def Val.max (a b : Val) : Val := if a.isNan || b.isNan then .nan else if a.lt b then b else a

/-! ### Exact quotients -/

/-- `a / b` for exact finite values with `b` non-zero, to 256 bits below the leading one, with a sticky rest. -/
def Val.quot (a b : Val) : Val :=
  match a, b with
  | .num n m e _, .num k m' e' _ =>
    let sh := 256 + Nat.log2 m'
    .num (n != k) (m * 2 ^ sh / m') (e - e' - sh) (m * 2 ^ sh % m' != 0)
  | _, _ => .nan

/-! ### Rounding (R79 to R89) -/

/-- A resolved rounding choice: mode 0 to 5, saturation, and the generator state after the step, for SR (R80, R82). -/
structure RMode where
  mode : Nat
  sat : Bool
  w : Nat
deriving DecidableEq, Repr

/-- One step of the stochastic generator (R82). -/
def stepSeed (s : BitVec 32) : BitVec 32 :=
  let t := s >>> 1
  if s.getLsbD 0 then t ^^^ 0x80200003 else t

/-- Whether the discarded part, `rem / 2^sh` of a quantum with a sticky rest, moves the result up to `n + 1` (R79). -/
def roundUp (r : RMode) (neg : Bool) (n rem sh : Nat) (sticky : Bool) : Bool :=
  if rem = 0 ∧ sticky = false then false
  else
    match r.mode with
    | 0 => 2 ^ sh < 2 * rem || (2 * rem = 2 ^ sh && (sticky || n % 2 = 1))
    | 1 => false
    | 2 => !neg
    | 3 => neg
    | 4 => n % 2 = 0
    | _ => 2 ^ 32 ≤ rem * 2 ^ 32 / 2 ^ sh + r.w

/-- Split a magnitude `m * 2^e` at quantum `2^q`: the whole quanta, the rest and the width of the rest. -/
def splitAt (m : Nat) (e q : Int) : Nat × Nat × Nat :=
  if q ≤ e then (m * 2 ^ (e - q).toNat, 0, 0)
  else
    let sh := (q - e).toNat
    (m / 2 ^ sh, m % 2 ^ sh, sh)

/-- Magnitude code of an infinite result: infinity, or the canonical NaN where the format has none (R87). -/
def infMagnitude (f : FloatFmt) : Nat := f.infCode.getD f.nanCode

/-- Magnitude code of an overflowing result (R86). -/
def overflowMagnitude (f : FloatFmt) (neg : Bool) (r : RMode) : Nat :=
  if r.sat then f.maxCode
  else match r.mode with
    | 0 => infMagnitude f
    | 1 => f.maxCode
    | 2 => if neg then f.maxCode else infMagnitude f
    | 3 => if neg then infMagnitude f else f.maxCode
    | 4 => f.maxCode
    | _ => infMagnitude f

/-- Sign and magnitude code put together; a NaN code carries no sign (R91). -/
def withSign (tag : Nat) (neg : Bool) (code : Nat) : Nat :=
  let f := floatFmt tag
  if tag = 6 then code + (if neg then 8 else 0)
  else if code = f.nanCode then code
  else code + (if neg then 2 ^ (elemBits tag - 1) else 0)

/-- `Round` to a floating-point target (R85 to R87). -/
def roundFloat (tag : Nat) (r : RMode) (v : Val) : Nat :=
  let f := floatFmt tag
  match v with
  | .nan => f.nanCode
  | .inf neg =>
    if tag = 11 ∧ neg then f.nanCode
    else if tag = 6 then withSign 6 neg f.maxCode
    else withSign tag neg (if r.sat then f.maxCode else infMagnitude f)
  | .num neg m e st =>
    if m = 0 ∧ st = false then (if tag = 11 then 0 else withSign tag neg 0)
    else if tag = 11 ∧ neg then f.nanCode
    else
      let ex := max (e + (Nat.log2 m : Int)) f.emin
      let (n, rem, sh) := splitAt m e (ex - f.mbits)
      let n := if roundUp r neg n rem sh st then n + 1 else n
      let code := (ex - f.emin).toNat * 2 ^ f.mbits + n
      if code ≤ f.maxCode then withSign tag neg code
      else if tag = 6 then withSign 6 neg f.maxCode
      else withSign tag neg (overflowMagnitude f neg r)

/-- `Round` to an integer target of `w` bits, as an integer (R88). -/
def roundInt (w : Nat) (r : RMode) (v : Val) : Int :=
  let hi : Int := 2 ^ (w - 1) - 1
  let lo : Int := -(2 ^ (w - 1))
  match v with
  | .nan => 0
  | .inf neg => if neg then lo else hi
  | .num neg m e st =>
    let (n, rem, sh) := splitAt m e 0
    let n := if roundUp r neg n rem sh st then n + 1 else n
    let i : Int := if neg then -(n : Int) else (n : Int)
    if hi < i then hi else if i < lo then lo else i

/-- Whether the level of code `c` is at most `v`, and whether it equals `v`, for a finite `v` (R89). -/
def ql16AtMost (v : Val) (c : Nat) : Bool :=
  match v with
  | .num neg m e st =>
    let k := ql16Level c
    let d := addDyadic (if neg then -(m : Int) else (m : Int), e) (-k, -6)
    if neg then (if st then 0 < d.1 else 0 ≤ d.1) else 0 ≤ d.1
  | _ => false

def ql16Equal (v : Val) (c : Nat) : Bool :=
  match v with
  | .num neg m e st =>
    let d := addDyadic (if neg then -(m : Int) else (m : Int), e) (-(ql16Level c), -6)
    d.1 = 0 && !st
  | _ => false

/-- Distance of `v` above the level of `c` in units of `2^-p`, rounded down, and whether a rest is left. -/
def ql16Above (v : Val) (c p : Nat) : Nat × Bool :=
  match v with
  | .num neg m e st =>
    let k := ql16Level c
    let d := addDyadic (if neg then -(m : Int) else (m : Int), e) (-k, -6)
    -- d.1 * 2^d.2 above the level; a sticky rest adds for positive and subtracts for negative values
    let num := if neg && st then d.1 - 1 else d.1
    let s := d.2 + (p : Int)
    if 0 ≤ s then ((num * 2 ^ s.toNat).toNat, st) else ((num / 2 ^ (-s).toNat).toNat, st || num % 2 ^ (-s).toNat != 0)
  | _ => (0, false)

/-- The code chosen between `c` and `c + 1` for a value strictly between their levels (R89). -/
def ql16Choose (r : RMode) (v : Val) (c : Nat) : Nat :=
  let gap := (ql16Level (c + 1) - ql16Level c).toNat
  match r.mode with
  | 0 =>
    let (d, rest) := ql16Above v c 7   -- in 128ths; the midpoint lies at `gap`
    if d < gap then c
    else if gap < d || rest then c + 1
    else if c % 2 = 0 then c else c + 1
  | 1 => if v.neg then c + 1 else c
  | 2 => c + 1
  | 3 => c
  | 4 => if c % 2 = 1 then c else c + 1
  | _ => if 2 ^ 32 ≤ (ql16Above v c 38).1 / gap + r.w then c + 1 else c

/-- `Round` to QL16 of the already-scaled value (R89). The caller gives NaN where the scale product is zero or NaN. -/
def roundQl16 (r : RMode) (v : Val) : Nat :=
  match v with
  | .nan => 7
  | .inf neg => if neg then 0 else 15
  | .num .. =>
    if ql16AtMost v 15 then 15
    else if !ql16AtMost v 0 || ql16Equal v 0 then 0
    else
      let c := ((List.range 15).filter (ql16AtMost v)).getLastD 0
      if ql16Equal v c then c else ql16Choose r v c

/-- `Round` to a tag's format, as element bits (R85 to R89). -/
def roundTo (tag : Nat) (r : RMode) (v : Val) : Nat :=
  match tag with
  | 7 => roundQl16 r v
  | 8 => (BitVec.ofInt 32 (roundInt 32 r v)).toNat
  | 9 => (BitVec.ofInt 8 (roundInt 8 r v)).toNat
  | 10 => (BitVec.ofInt 4 (roundInt 4 r v)).toNat
  | _ => roundFloat tag r v

/-- Round to nearest even with IEEE overflow, the mode of the matrix and network sums (R97, R101). -/
def rne : RMode := ⟨0, false, 0⟩

/-- Round to odd with IEEE overflow, the mode of intermediate narrowings (R93). -/
def rto : RMode := ⟨4, false, 0⟩

/-- FP32 bits of an exact value rounded to nearest even. -/
def toFp32 (v : Val) : Nat := roundFloat 1 rne v

/-- The value of FP32 bits. -/
def ofFp32 (b : Nat) : Val := elementValue 1 b

end Sys2Proof.Machine
end

