-- ==== Sys2Proof/Config.lean ====
section
/-! DEFINITION. What the manual fixes for the part, and the free values it leaves open. A free value has no body:
nothing evaluates it and no proof can see what it is. -/

namespace Sys2Proof.Config

/-- Cores of the device (R1). -/
def numCores : Nat := 128

/-- Bytes of one core's scratchpad: offsets 0x0 to 0x2F_FFFF (R57). -/
def spmBytes : Nat := 0x300000

/-- Physical address of core 0's aperture, and the distance between apertures (R364). -/
def apertureBase : Nat := 0x10000000000
def apertureStride : Nat := 0x400000

/-- Bytes of HBM of one die, and the first address of each die's region (R364). -/
def hbmBytes : Nat := 0x324A9A7000
def hbmBase (die : Nat) : Nat := if die = 0 then 0 else 0x8000000000

/-- First addresses of the RoCEv2 windows and of the domain region, and the end of the physical space (R364). -/
def roceBase : Nat := 0x400000000000
def domainBase : Nat := 0x800000000000
def physEnd : Nat := 0x1000000000000

/-- Bytes that parties outside the device answer to reads of their memory, one fresh value per index: FREE
(R334, R364). Assumption 4. -/
opaque externalByte : Nat → Byte

/-- Old values that an atomic to memory outside the device returns: FREE (R239). Assumption 4. -/
opaque externalWord : Nat → Word

/-- Bytes the manual calls unspecified, one fresh value per index: FREE (R65, R211, R230, R306). Assumption 5. -/
opaque unspecifiedByte : Nat → Byte

/-- The secret that is fused into the part, the same at every power-on: FREE (R531). Assumption 130. -/
opaque fusedSecret : BitVec 256

/-- A tenant admission record as MEAS3 measures it, a function of what it holds: its fields (ASID, queue, ring and doorbell
addresses, ring size, directory capacity and base) and its ranges. Its layout is not stated: FREE (R532). Assumption 131. -/
opaque admissionRecord : List Nat → List (BitVec 256) → List Byte

/-- The widest scope, by R60's code, at which a direct access of device memory counts as performed before it has performed at its
home, one value per access: FREE (R335, R342). Assumption 108. -/
opaque earlyScope : Nat → Nat

/-- Token counts the manual does not state, one fresh value per index: FREE (R236). Assumption 9. -/
opaque unstatedCount : Nat → BitVec 32

/-- The share of a refill that a cluster receives when the floor and every depth are zero, one fresh value per index: FREE
(R426). Assumption 13. -/
opaque unstatedShare : Nat → Nat

/-- The 32 bytes of randomness of a signature, one fresh value per index, which the standard lets a signer choose: FREE
(R533). Assumption 6. -/
opaque signatureRandom : Nat → BitVec 256

/-- Magnitude, in units of the grid of Machine/Special.lean, of a transcendental value that lies within the second
number of the first, both in the working units; used only where that distance leaves two neighbouring grid points
possible: FREE (R261, R293). Assumption 7. -/
opaque transcendentalFloor : Int → Nat → Nat

/-- Which of a queue pair's bytes performed before a failed request, one fresh value per index: FREE (R494). -/
opaque partlyPerformed : Nat → Bool

/-- Whether a fetch returns a doubleword as the context fetched it earlier, one fresh value per index: FREE (R350).
Assumption 21. -/
opaque staleFetch : Nat → Bool

/-- Whether a context fetches the doubleword with a physical number ahead at some time, one fresh value per index and
number: FREE (R350). Assumption 21. -/
opaque prefetched : Nat → Nat → Bool

/-- Whether a context reads a core or device register as it stood before another context's write of the last 16 cycles,
one fresh value per index: FREE (R41). Assumption 18. -/
opaque earlierRegister : Nat → Bool

/-- Engine status words of trap records, one fresh value per index: the manual names the field and not its bits: FREE
(R501). Assumption 86. -/
opaque engineStatus : Nat → BitVec 32

/-- The hash of SRC, DST and TAG by which a fabric edge spreads packets over its ports, which the manual names without
defining it: FREE (R488). Assumption 91. -/
opaque portHash : BitVec 16 → BitVec 16 → BitVec 16 → Nat

/-- The certificate of the identity key held in module flash (R531): fixed per part, not given by the manual. -/
opaque identityCertificate : List Byte

end Sys2Proof.Config
end

