-- ==== Sys2Proof/Syntax.lean ====
section
/-! DEFINITION. The instructions and events of spec/opcode_table.json: one constructor of `Instr` per row.
A slot instruction carries the fields of its format that it uses (R130); an event carries what identifies it
and what an outside party supplies. -/

namespace Sys2Proof

/-- The six slots of a bundle in slot order (R108). -/
inductive Slot where
  | s0 | s1 | mem | vec | mtx | ctl
deriving DecidableEq, Repr

/-- Slack class, eviction priority and no-allocate of formats M and E (R133). -/
structure Hint where
  sl : BitVec 4
  evp : BitVec 2
  na : Bool
deriving DecidableEq, Repr

/-- The rounding field and saturation bit (R80). -/
structure Rnd where
  rm : BitVec 3
  sat : Bool
deriving DecidableEq, Repr

/-- The header flit of a packet, field by field (R464). -/
structure Packet where
  typ : BitVec 8        -- TYPE (R465)
  vc : BitVec 2         -- 0 request, 1 response, 2 outrider
  ndata : BitVec 4      -- data flits
  slack : BitVec 10     -- in units of 16 ticks
  late : Bool
  exact : Bool          -- the data flits carry exact partials (R482)
  qres : BitVec 4       -- queued ticks modulo 16
  cookie : BitVec 64    -- LCOOKIE (R564)
  src : BitVec 16       -- source endpoint (R462)
  srcDev : BitVec 10
  dst : BitVec 16       -- destination endpoint
  dstDev : BitVec 10
  srcCtx : BitVec 3     -- issuing context, 7 when none
  scope : BitVec 3      -- scope of the access (R60)
  tag : BitVec 16       -- transaction tag
  pa : BitVec 48        -- physical address of the first byte
  aux : BitVec 32
  atw : BitVec 64       -- arrival target word (R242)
  beFirst : BitVec 64   -- byte enables of the first data flit
  beLast : BitVec 64    -- byte enables of the last data flit
deriving DecidableEq, Repr

/-- Where an arriving packet comes from: the network, under its number, or a replayed log. -/
inductive PacketSource where
  | own (id : Nat)
  | logged
deriving DecidableEq, Repr

/-- A point of arbitration of the network, or a place where a packet rests: the injection of a router's attached units, a
router, a memory port, the ports of a fabric edge outwards and inwards, the send and receive queue of a neighbour link,
the send queue of a host edge (R470, R477, R496), a unit that a packet has reached, and a link on which a request has
left for another device. -/
inductive NetPoint where
  | attach (x y : Nat)
  | router (x y : Nat)
  | memPort (slice : Nat)
  | fabricEdge (edge : Nat)
  | fabricIn (edge : Nat)
  | linkQueue (cluster dir : Nat)
  | linkIn (cluster dir : Nat)
  | hostQueue (edge : Nat)
  | unit (endpoint : Nat)
  | away
deriving DecidableEq, Repr

/-- A unit with a corrected-error counter (R392). -/
inductive ErrorUnit where
  | slice (n : Nat)
  | tagArray (core : Nat)
  | scratchpad (core : Nat)
  | rangeTable (core : Nat)
deriving DecidableEq, Repr

/-- What a memory port or memory unit grants (R472): the packet of a request, of this device or of another one of the
domain; the next step of one chunk of an engine command; the next inbound write or atomic of a replayed log; the link's
acknowledgement of the reply to an atomic (R358); and what a soft error makes of one (R392): a request whose data is
unreadable, a command or stream that meets one in a scratchpad, a scratchpad bank that a context could not read, a
corrected error of a unit, and a range table entry that is lost. -/
inductive PortGrant where
  | request (id : Nat)
  | chunk (core ctx seq k : Nat)
  | logged
  | replyAcknowledged (source tag : Nat)
  | softError (id : Nat)
  | commandError (core ctx seq off : Nat)
  | bankError (core ctx off : Nat)
  | corrected (u : ErrorUnit)
  | tableError (core i : Nat)
  | inbound (k : Nat)
deriving DecidableEq, Repr

/-- An inbound RDMA request of a queue pair (R492, R494): `psn` numbers it, so that a retransmission is known (R358); `ecn`
says that its packets carry a congestion mark; `unreadable` that it meets an uncorrectable error at its target. -/
structure RoceRequest where
  qp : Nat
  rkey : BitVec 32
  va : BitVec 64
  psn : Nat
  ecn : Bool
  unreadable : Bool
deriving DecidableEq, Repr

/-- What a RoCEv2 packet of a peer names, a queue pair or a piece of outstanding work, and whether it carries a congestion
mark (R492). -/
structure PeerPacket where
  n : Nat
  ecn : Bool
deriving DecidableEq, Repr

/-- An inbound RDMA atomic (R492): fetch-and-add, or compare-and-swap with its expected value. -/
inductive RoceAtomic where
  | fetchAdd (v : BitVec 64)
  | cmpSwap (expected new : BitVec 64)
deriving DecidableEq, Repr

/-- The management registers of R379, R390, R475, R509 and R536 that REGRD and REGWR name (R534), and what else the
manual says the management processor sets or reads: HYST, AGE and TRCCTL (R10), DRTB (R367), the fabric timeout (R491),
the device index (R488), NETSLK and the late events of a host edge or another unit by its endpoint (R468, R474, R494), the
enable of priority flow control (R492), and the counters of R387, R392, R465, R490 and R492. -/
inductive MgmtReg where
  | devid | serial | dstat
  | trapva | hvec | prewait | rlogb | rlogl | rplctl | hyst | ftimeout
  | wpa (core n : Nat) | wpc (core n : Nat) | trcpost (core : Nat) | trgval (core : Nat)
  | spg (core : Nat) | slwg (slice : Nat)
  | latecntCore (core : Nat) | latecntPort (slice : Nat)
  | netslkCore (core : Nat) | netslkPort (slice : Nat)
  | age (core : Nat) | trcctl (core : Nat)
  | pwrctl (die : Nat) | pwrstat (die : Nat) | tollbal (core : Nat)
  | netslkUnit (endpoint : Nat) | lateUnits | pfc
  | drtb | device | dropped
  | pinOver (slice : Nat) | corrected (u : ErrorUnit) | discards (edge : Nat) | retrans (port : Nat)
deriving DecidableEq, Repr

/-- A packet as a Lanmiend port receives it: its header flit, its data flits, and of a reply the cause of its request's
failure, 0 for none (R373, R464). -/
structure LinkPacket where
  header : BitVec 512
  flits : List (BitVec 512)
  cause : Byte
deriving DecidableEq, Repr

/-- The path on which a management request arrives and is answered (R526). -/
inductive MgmtPath where
  | smbus       -- the management port
  | ethernet    -- the Ethernet management channel
deriving DecidableEq, Repr

/-- What a PREEMPT request names (R510, R534). -/
inductive PreemptRequest where
  | cores (l : List Nat)
  | launch (cookie : BitVec 64)
  | release (l : List Nat)
deriving DecidableEq, Repr

/-- The readings a clock epoch takes from its sensors and estimators (R427, R535, R537). -/
structure EpochReadings where
  clusterTemp : List Nat    -- degrees Celsius per cluster 8 * die + cluster
  die0Power : List Nat      -- die 0's estimate in W, first the present one, then that after each step its clocks are lowered
  die1Power : List Nat      -- die 1's likewise
  hbmPower : Nat            -- what the module's estimate adds for HBM, in W
  serdesPower : Nat         -- and for serdes
deriving DecidableEq, Repr

/-- What can fail at power-on (R529): the boot ROM's self-test, a fuse read, the training of an HBM stack. -/
inductive PowerOnFailure where
  | selfTest
  | fuseRead
  | training
deriving DecidableEq, Repr

/-- What the power-on measurements find (R527, R529, R532). -/
structure PowerOnFindings where
  failure : Option PowerOnFailure
  step : BitVec 16          -- fused DEVID.STEP
  serial : BitVec 64        -- fused SERIAL
  svn : BitVec 8            -- fused minimum security version
  rom : List Byte           -- boot ROM image
  fuses : BitVec 4096       -- fuse configuration, 512 bytes
  vendorKeyHash : BitVec 256
deriving DecidableEq, Repr

/-- A tenant admission record (R393, R534). -/
structure AdmitRecord where
  asid : BitVec 16
  queue : Nat
  ringVa : BitVec 56
  dbVa : BitVec 56
  log2s : Nat
  cap : Nat
  arrayBase : Nat           -- physical address of the descriptor array
  ranges : List (BitVec 256)
deriving DecidableEq, Repr

/-- One constructor per row of the opcode table. -/
inductive Instr where
  -- events: issue and stops
  | bundleIssue (core ctx : Nat)
  | pendingStop (core ctx : Nat)
  -- S0 and S1, format S (R161)
  | add (d a b : Reg) (imm : Imm)
  | sub (d a b : Reg) (imm : Imm)
  | mul (d a b : Reg) (imm : Imm)
  | mulh (d a b : Reg) (imm : Imm)
  | mulhu (d a b : Reg) (imm : Imm)
  | div (d a b : Reg) (imm : Imm)
  | divu (d a b : Reg) (imm : Imm)
  | rem (d a b : Reg) (imm : Imm)
  | remu (d a b : Reg) (imm : Imm)
  | and (d a b : Reg) (imm : Imm)
  | or (d a b : Reg) (imm : Imm)
  | xor (d a b : Reg) (imm : Imm)
  | andn (d a b : Reg) (imm : Imm)
  | shl (d a b : Reg) (imm : Imm)
  | shr (d a b : Reg) (imm : Imm)
  | sra (d a b : Reg) (imm : Imm)
  | rotl (d a b : Reg) (imm : Imm)
  | min (d a b : Reg) (imm : Imm)
  | max (d a b : Reg) (imm : Imm)
  | minu (d a b : Reg) (imm : Imm)
  | maxu (d a b : Reg) (imm : Imm)
  | cmp (d a b : Reg) (cond : BitVec 6) (imm : Imm)
  | sel (d a b c : Reg) (imm : Imm)
  | clz (d a : Reg)
  | ctz (d a : Reg)
  | popc (d a : Reg)
  | ext (d a : Reg) (sgn : Bool) (width : BitVec 7) (lsb : BitVec 6)
  | ins (d a c : Reg) (width : BitVec 7) (lsb : BitVec 6)
  | li (d : Reg) (imm : Imm)
  | lih (d a : Reg) (imm : Imm)
  | addi (d a : Reg) (imm : Imm)
  | mov (d a : Reg)
  | lea (d a b : Reg) (sh : BitVec 3) (imm : Imm)
  -- format F (R166)
  | fadd (d a b : Reg) (r : Rnd)
  | fsub (d a b : Reg) (r : Rnd)
  | fmul (d a b : Reg) (r : Rnd)
  | fma (d a b c : Reg) (r : Rnd)
  | fmin (d a b : Reg)
  | fmax (d a b : Reg)
  | fcmp (d a b : Reg) (cnd : BitVec 4)
  | fcvt (d a : Reg) (ft fs : BitVec 4) (r : Rnd)
  -- CTL, format C (R169)
  | br (a : Reg) (cond : BitVec 3) (off : Imm)
  | jmp (off : Imm)
  | jr (a : Reg) (disp : Imm)
  | call (a : Reg) (off : Imm)
  | callI (a b : Reg) (disp : Imm)
  | ret (a : Reg)
  | loop (a : Reg) (n : BitVec 2) (cnt : BitVec 12) (off : Imm)
  | loopLv (n : BitVec 2) (off : Imm)
  | yld (cycles : BitVec 16)
  | done
  | taskComplete (core ctx : Nat)
  | halt (code : BitVec 16)
  | bar (scope level : BitVec 3) (id : BitVec 4)
  | barArr (scope level : BitVec 3) (id : BitVec 4)
  | barWt (level : BitVec 3) (id : BitVec 4)
  | flagSet (mask : Byte)
  | flagSetCore (a : Reg) (mask : Byte)
  | flagSetRmt (a : Reg) (sl : BitVec 4) (mask : Byte)
  | flagClr (mask : BitVec 16)
  | ctlRd (a : Reg) (crn : Byte)
  | ctlWr (a : Reg) (crn : Byte)
  | prePt (off : Imm)
  | trap (code : BitVec 16)
  | rte (a : Reg)
  | ifence
  | toll (a : Reg) (amount : BitVec 24)
  | trcMk (payload : BitVec 16)
  | nop
  -- MEM (R200 to R252)
  | ld (d a : Reg) (h : Hint) (sp sx : Bool) (sz : BitVec 2) (off : Imm)
  | loadDataReturn (core ctx seq : Nat)
  | st (d a : Reg) (h : Hint) (sp : Bool) (sz : BitVec 2) (off : Imm)
  | ldX (d a : Reg) (h : Hint) (sp sc : Bool) (pat : BitVec 3) (off : Imm)
  | stX (d a : Reg) (h : Hint) (sp sc : Bool) (off : Imm)
  | ldXg (d a : Reg) (pat : BitVec 3) (off : Imm)
  | xpSet (slot : BitVec 3) (a : Reg) (off : Imm)
  | spmCarve (t : Reg) (n : BitVec 4)
  | carveComplete (core : Nat)
  | tagLk (d a : Reg) (off : Imm)
  | tagFl (t a b : Reg) (h : Hint)
  | tagFillDone (core slot : Nat)
  | tagEv (t a : Reg) (sl : BitVec 4)
  | tagEvWb (t a : Reg) (sl : BitVec 4)
  | tagInv (a : Reg) (off : Imm)
  | tdMk (t a b : Reg) (sp : Bool) (h : Hint)
  | tdRel (a : Reg) (off : Imm)
  | qBind (t a b : Reg) (c : BitVec 3) (dir win : Bool) (len : BitVec 13) (h : Hint)
  | streamRowFetch (core ctx q : Nat)
  | streamRowWrite (core ctx q : Nat)
  | qAdv (q : BitVec 3) (a : Reg) (off : Imm)
  | qAdvRp (q : BitVec 3) (a : Reg) (off : Imm)
  | qWait (q : BitVec 3) (a : Reg) (off : Imm)
  | qDrain (t : Reg) (c : BitVec 3)
  | cp (t a b c : Reg) (ds ss : Bool) (len : Imm20) (h : Hint)
  | cpKvchk (t a b c : Reg) (ds ss : Bool) (len : Imm20) (h : Hint)
  | cpG (t a b c : Reg) (ds ss clamp : Bool) (rsz : BitVec 6) (cnt : BitVec 14) (h : Hint)
  | cpS (t a b c : Reg) (ds ss clamp : Bool) (rsz : BitVec 6) (cnt : BitVec 14) (h : Hint)
  | copyComplete (core ctx seq : Nat)
  | commandSuspend (core ctx seq : Nat)
  | pfT (t a : Reg) (scl : Bool) (sl : BitVec 4) (evp : BitVec 2)
  | pin (t a b c : Reg) (w : BitVec 3)
  | unpin (t : Reg) (w : BitVec 3)
  | am (t a b c : Reg) (aop : BitVec 3) (ty : BitVec 2) (scope : BitVec 3) (ord : BitVec 2) (disp : BitVec 12) (h : Hint)
  | red (t a b : Reg) (aop : BitVec 3) (ty : BitVec 2) (scope : BitVec 3) (ord : BitVec 2) (disp : BitVec 12) (h : Hint)
  | drain (scope : BitVec 3)
  | put (t a b c : Reg) (ss : Bool) (rows : BitVec 7) (sl : BitVec 4)
  | get (t a b c : Reg) (ds : Bool) (rows : BitVec 7) (sl : BitVec 4)
  | mcast (t a b c : Reg) (len : Imm20) (sl : BitVec 4)
  | acSet (t a : Reg) (watch : Bool) (ctr : BitVec 4)
  | acAdd (t a : Reg) (sl : BitVec 4)
  | acWait (ctr : BitVec 4)
  | kvChk (t a b : Reg) (watch : Bool) (cnt : BitVec 16) (sl : BitVec 4)
  | rngIns (t a b : Reg) (sl : BitVec 4)
  | rngDel (t a b : Reg) (sl : BitVec 4)
  | rngSplit (t a b : Reg) (sl : BitVec 4)
  | rngMerge (t a b : Reg) (sl : BitVec 4)
  | rngInv (t a b c : Reg) (all : Bool) (sl : BitVec 4)
  | rngReloc (t a b c : Reg) (sl : BitVec 4)
  | relocChunkMove (core ctx seq : Nat)
  | rngResOr (t a b c : Reg) (sl : BitVec 4)
  | rngResAndn (t a b c : Reg) (sl : BitVec 4)
  | rngResWr (t a b c : Reg) (sl : BitVec 4)
  | rngRd (t a b c : Reg) (sl : BitVec 4)
  | rangeCmdComplete (core ctx seq : Nat)
  -- VEC (R259 to R293)
  | vadd (d a b : Reg) (pm : BitVec 3) (r : Rnd) (bs : Bool) (dt : BitVec 4)
  | vsub (d a b : Reg) (pm : BitVec 3) (r : Rnd) (bs : Bool) (dt : BitVec 4)
  | vmul (d a b : Reg) (pm : BitVec 3) (r : Rnd) (bs : Bool) (dt : BitVec 4)
  | vfma (d a b c : Reg) (pm : BitVec 3) (r : Rnd) (bs : Bool) (dt : BitVec 4)
  | vmin (d a b : Reg) (pm : BitVec 3) (r : Rnd) (bs : Bool) (dt : BitVec 4)
  | vmax (d a b : Reg) (pm : BitVec 3) (r : Rnd) (bs : Bool) (dt : BitVec 4)
  | vabs (d a : Reg) (pm : BitVec 3) (r : Rnd) (dt : BitVec 4)
  | vneg (d a : Reg) (pm : BitVec 3) (r : Rnd) (dt : BitVec 4)
  | vexp2 (d a : Reg) (pm : BitVec 3) (r : Rnd) (dt : BitVec 4)
  | vlog2 (d a : Reg) (pm : BitVec 3) (r : Rnd) (dt : BitVec 4)
  | vrcp (d a : Reg) (pm : BitVec 3) (r : Rnd) (dt : BitVec 4)
  | vrsq (d a : Reg) (pm : BitVec 3) (r : Rnd) (dt : BitVec 4)
  | vtanh (d a : Reg) (pm : BitVec 3) (r : Rnd) (dt : BitVec 4)
  | vsig (d a : Reg) (pm : BitVec 3) (r : Rnd) (dt : BitVec 4)
  | vsin (d a : Reg) (pm : BitVec 3) (r : Rnd) (dt : BitVec 4)
  | vcmp (d a b : Reg) (pm : BitVec 3) (bs : Bool) (cond : BitVec 3)
  | vsel (d a b c : Reg) (pm : BitVec 3)
  | vcvt (d a : Reg) (pm : BitVec 3) (r : Rnd) (dt : BitVec 4)
  | cvtPk (d a : Reg) (pm : BitVec 3) (r : Rnd) (dt : BitVec 4) (part : BitVec 3)
  | cvtUp (d a : Reg) (pm : BitVec 3) (r : Rnd) (dt : BitVec 4) (part : BitVec 3)
  | vq (d a b : Reg) (pm : BitVec 3) (r : Rnd) (dt : BitVec 4) (part : BitVec 3)
  | vdq (d a : Reg) (pm : BitVec 3) (r : Rnd) (nosc : Bool) (dt : BitVec 4) (part : BitVec 3)
  | vred (d a : Reg) (pm : BitVec 3) (r : Rnd) (dt : BitVec 4) (op : BitVec 2) (e : BitVec 11)
  | vcred (d a : Reg) (pm : BitVec 3) (r : Rnd) (dt : BitVec 4) (op : BitVec 2) (row : BitVec 6)
  | vbcastRow (d a : Reg) (pm : BitVec 3) (k : BitVec 6)
  | vbcastEl (d a : Reg) (pm : BitVec 3) (e : BitVec 11)
  | vtr (d a : Reg) (c : BitVec 3)
  | vsh (d a b : Reg) (pm : BitVec 3) (rot : Bool) (imm : Imm20)
  | vshRows (d a b : Reg) (pm : BitVec 3) (rot : Bool) (imm : Imm20)
  | vperm (d a b : Reg) (pm : BitVec 3)
  | vmov (d a : Reg) (pm : BitVec 3)
  | vzero (d : Reg) (pm : BitVec 3) (tag : BitVec 4)
  | viadd (d a b : Reg) (pm : BitVec 3) (bs sati : Bool)
  | vimul (d a b : Reg) (pm : BitVec 3) (bs sati : Bool)
  | vand (d a b : Reg) (pm : BitVec 3) (bs : Bool)
  | vor (d a b : Reg) (pm : BitVec 3) (bs : Bool)
  | vxor (d a b : Reg) (pm : BitVec 3) (bs : Bool)
  | vshl (d a b : Reg) (pm : BitVec 3) (bs : Bool)
  | vshr (d a b : Reg) (pm : BitVec 3) (bs arith : Bool)
  | vidot (d a b c : Reg) (pm : BitVec 3) (brow : Bool) (k : BitVec 4)
  | vsmMerge (d a : Reg) (pm : BitVec 3) (r : Rnd)
  | chain (t a : Reg)
  | chainComplete (core ctx seq : Nat)
  | shp (fromReg : Bool) (a : Reg) (rows : BitVec 7) (cols : BitVec 11)
  | fmtTag (d : Reg) (tag : BitVec 4)
  | rcwSet (d a : Reg) (pm : BitVec 3)
  | rcwSetSt (d : Reg) (pm : BitVec 3) (state : BitVec 3)
  | rcwSetCp (d a : Reg) (pm : BitVec 3)
  | rcwUpd (d a : Reg) (pm : BitVec 3) (rule : BitVec 3) (mode : BitVec 2) (col : BitVec 10)
  | rcwCnt (d a : Reg) (pm : BitVec 3) (acc : Bool) (n : BitVec 6)
  | rcwMask (d : BitVec 3) (a : Reg) (set : Byte)
  | ruleSet (a : Reg) (n : BitVec 3)
  | cmxPack (t a b c : Reg) (sp : Bool) (nt : BitVec 5) (set : Byte)
  | cmxRest (t a b c : Reg) (sp : Bool) (nt : BitVec 5)
  | cmxStart (cluster : Nat)
  | cmxComplete (cluster : Nat)
  | kvSv (t a b c : Reg) (h : Hint)
  | ntfX (t a : Reg) (b : BitVec 3) (c : Reg) (set : Byte) (sl : BitVec 4)
  | moeRoute (t a b : Reg) (k : BitVec 4) (norm renorm : Bool) (h : Hint)
  | routePassStart (die : Nat)
  | routePassComplete (die : Nat)
  -- MTX, format X (R300)
  | mmIp (cd xa xb t : Reg) (bs ag : Bool) (bf : BitVec 4) (kh scb noswap : Bool) (off : BitVec 16)
  | mmOp (cd xa xb t : Reg) (bs ag : Bool) (bf : BitVec 4) (kh scb noswap : Bool) (off : BitVec 16)
  | mmRw (xa xb t : Reg) (bs ag : Bool) (bf : BitVec 4) (kh scb noswap : Bool) (off : BitVec 16)
  | mmZIp (cd xa xb t : Reg) (bs ag : Bool) (bf : BitVec 4) (kh scb noswap : Bool) (off : BitVec 16)
  | mmZRw (xa xb t : Reg) (bs ag : Bool) (bf : BitVec 4) (kh scb noswap : Bool) (off : BitVec 16)
  | mmMerge (cd xb t : Reg) (np : BitVec 4) (zc : Bool) (off : BitVec 16)
  | mmOut (q : BitVec 3) (t : Reg)
  | bmpMk (xa xb t : Reg) (kh bmode : Bool) (off : BitVec 16)
  | bmpCnt (xb t : Reg) (wide : Bool) (off : BitVec 16)
  | spzPack (cd xa t : Reg) (kh : Bool)
  | spzPackB (xa xb t : Reg) (kh : Bool) (off : BitVec 16)
  | spzUnpk (cd xa t : Reg) (kh : Bool)
  | mtxComplete (core : Nat)
  -- events: memory system and network
  | memoryPortGrant (g : PortGrant)
  | rangeWalk (core ctx : Nat) (asid : BitVec 16) (vp : Nat)
  | routerGrant (p : NetPoint) (out : Nat)
  | slackDecrement (id : Nat)
  | flagPacketArrive (p : PacketSource)
  | noticeArrive (p : PacketSource)
  | acaddArrive (p : PacketSource)
  | contribCombine (group a b : Nat)
  | reductionComplete (group : Nat)
  -- events: launches and scheduling
  | launchValidate (queue : Nat)
  | launchStart (queue : Nat)
  | phaseStart (launch : Nat)
  | taskBind (launch : Nat)
  | raggedClaim (launch cluster : Nat)
  | computeStepClose (launch : Nat)
  | commStepClose (launch : Nat)
  | launchComplete (launch : Nat)
  | launchEnd (launch : Nat)
  | launchSuspend (launch : Nat)
  | launchResume (launch : Nat)
  | tollRefill
  | thermalTrip
  | powerOnReset
  | powerOnComplete (f : PowerOnFindings)
  | firmwareAuth
  -- events: traps, pre-emption, fills
  | handlerStart (core : Nat)
  | prewaitExpiry (core ctx : Nat)
  | saveSequence (core ctx : Nat)
  | restore (core ctx : Nat)
  | fillDispatch (die : Nat)
  | fillSettle (core : Nat)
  | fillFail (core : Nat)
  -- events: power gating and trace
  | spmUnitGate (core u : Nat)
  | spmUnitWake (core u : Nat)
  | wayGate (slice k : Nat)
  | wayPowerUp (slice k : Nat)
  | traceFreeze (core : Nat)
  -- events: completions of direct accesses and commands
  | atomicReply (core ctx seq : Nat)
  | fabricCommandComplete (core ctx seq : Nat)
  | exitSaveComplete (core ctx seq : Nat)
  | streamBindComplete (core ctx seq : Nat)
  | peerAcknowledgement (qp : PeerPacket)
  | fabricTimeout (id : Nat)
  -- events: what comes from outside the device
  | fabricDiscard (port : Nat) (p : LinkPacket)
  | flitRetransmit (port : Nat)
  | portFailure (port : Nat)
  | roceInboundWrite (r : RoceRequest) (data : List Byte)
  | roceInboundRead (r : RoceRequest) (len : Nat)
  | roceInboundAtomic (r : RoceRequest) (op : RoceAtomic)
  | roceUnsupportedOp (qp : PeerPacket) (opcode : Byte)
  | roceNakReceived (id : PeerPacket)
  | qpError (qp : Nat)
  | congestionNotificationReceipt (qp : Nat)
  | doorbellWrite (queue : Nat)
  | clockEpoch (r : EpochReadings)
  | admitReq (r : AdmitRecord)
  | retire (asid : BitVec 16)
  | abort (cookie : BitVec 64)
  | preempt (r : PreemptRequest)
  | qpset (i : Nat) (e : BitVec 256)
  | winset (i : Nat) (e : BitVec 256)
  | rgset (i : Nat) (e : BitVec 384)
  | regrd (r : MgmtReg)
  | regwr (r : MgmtReg) (v : BitVec 64)
  | spgWrite (core : Nat) (v : BitVec 64)
  | slwgWrite (slice : Nat) (v : BitVec 64)
  | latecntClear (port : Bool) (n : Nat) (v : BitVec 64)
  | pwrctlWrite (die : Nat) (v : BitVec 64)
  | trippedClear (v : BitVec 64)
  | trcrd (core : Nat)
  | fusesvn
  | attest (nonce : BitVec 256)
  | loadfw (image : List Byte)
deriving DecidableEq, Repr

end Sys2Proof
end

