-- ==== Sys2Proof/WellFormed.lean ====
section
/-! DEFINITION. Which instructions the encoding tables allow: reserved values and fields an instruction does not
use (R131, R132, R158 and the rule of each instruction). An event has no encoding and is always well formed. -/

namespace Sys2Proof

/-- EVP 3 is reserved (R132). -/
def Hint.ok (h : Hint) : Bool := h.evp != 3

/-- Every hint field is zero, as a scratchpad form requires (R193). -/
def Hint.isZero (h : Hint) : Bool := h.sl == 0 && h.evp == 0 && !h.na

/-- Hints are free in a virtual form and reserved in a scratchpad form (R193). -/
def Hint.okFor (h : Hint) (sp : Bool) : Bool := h.ok && (!sp || h.isZero)

/-- RM 7 is reserved (R80, R132). -/
def Rnd.ok (r : Rnd) : Bool := r.rm != 7

/-- With B a register the immediate is reserved (R158). -/
def immOk {n : Nat} (b : Reg) (imm : BitVec n) : Bool := b == 0 || imm == 0

/-- A bit field lies inside the 64-bit scalar (R164). -/
def bitFieldOk (width : BitVec 7) (lsb : BitVec 6) : Bool :=
  1 ≤ width.toNat && width.toNat ≤ 64 && lsb.toNat + width.toNat ≤ 64

/-- The unscaled floating tags FP32, BF16 and FP16. -/
def isWideTag (t : BitVec 4) : Bool := t == 1 || t == 2 || t == 3

/-- Tags that `vcvt`, `cvt.pk` and `cvt.up` name (R264), and that `fcvt` adds nothing to. -/
def isCvtTag (t : BitVec 4) : Bool :=
  t == 1 || t == 2 || t == 3 || t == 4 || t == 5 || t == 6 || t == 8 || t == 9 || t == 10 || t == 11

/-- Scaled tags (R27). -/
def isScaledTag (t : BitVec 4) : Bool := t == 4 || t == 5 || t == 6 || t == 7 || t == 9 || t == 10

/-- Tags a B operand's BF field may hold: the matrix element formats and BSP (R294, R300). -/
def isBfTag (t : BitVec 4) : Bool :=
  t == 2 || t == 3 || t == 4 || t == 5 || t == 6 || t == 7 || t == 9 || t == 10 || t == 12

/-- Classes in which SCB has a meaning: Float 8 and Float 4 (R296). -/
def scbOk (bf : BitVec 4) (scb : Bool) : Bool := !scb || bf == 4 || bf == 5 || bf == 6 || bf == 7

/-- The B operand fields of `mm` and `mm.z` (R297, R300, R319): a stream takes no offset and only q0 to q7, and a
block-sparse B comes from scratchpad in the outer product. -/
def mmOk (xb : Reg) (bs : Bool) (bf : BitVec 4) (scb op : Bool) (off : BitVec 16) : Bool :=
  isBfTag bf && scbOk bf scb && (!bs || (xb.toNat < 8 && off == 0)) && (bf != 12 || (op && !bs))

/-- The encodings the manual allows. -/
def WellFormed : Instr → Bool
  | .add _ _ b imm | .sub _ _ b imm | .mul _ _ b imm | .mulh _ _ b imm | .mulhu _ _ b imm
  | .div _ _ b imm | .divu _ _ b imm | .rem _ _ b imm | .remu _ _ b imm
  | .and _ _ b imm | .or _ _ b imm | .xor _ _ b imm | .andn _ _ b imm
  | .shl _ _ b imm | .shr _ _ b imm | .sra _ _ b imm | .rotl _ _ b imm
  | .min _ _ b imm | .max _ _ b imm | .minu _ _ b imm | .maxu _ _ b imm
  | .sel _ _ b _ imm | .lea _ _ b _ imm => immOk b imm
  | .cmp _ _ b cond imm => immOk b imm && cond.toNat < 6
  | .ext _ _ _ width lsb | .ins _ _ _ width lsb => bitFieldOk width lsb
  | .fadd _ _ _ r | .fsub _ _ _ r | .fmul _ _ _ r | .fma _ _ _ _ r => r.ok
  | .fcmp _ _ _ cnd => cnd.toNat < 6
  | .fcvt _ _ ft fs r => isCvtTag ft && isCvtTag fs && r.ok
  | .br a cond _ => cond.toNat < 6 && (cond.toNat < 2 || a.toNat < 8)
  | .loop a _ cnt _ => a == 0 || cnt == 0
  | .bar scope _ _ | .barArr scope _ _ => scope != 7
  | .flagClr mask => !mask.getLsbD 12
  | .toll a amount => a == 0 || amount == 0
  | .ld _ _ h sp _ _ _ | .st _ _ h sp _ _ | .ldX _ _ h sp _ _ _ | .stX _ _ h sp _ _ => h.okFor sp
  | .spmCarve _ n => n.toNat ≤ 12
  | .tagFl _ _ _ h => h.ok
  | .tdMk _ _ _ sp h => h.okFor sp
  | .qBind _ _ _ _ _ _ _ h => h.ok
  | .cp _ _ _ c ds ss len h => h.okFor (ds && ss) && (c == 0 || len == 0)
  | .cpKvchk _ _ _ _ ds ss _ h => h.okFor (ds && ss)
  | .cpG _ _ _ _ ds ss _ _ _ h | .cpS _ _ _ _ ds ss _ _ _ h => h.okFor (ds && ss)
  | .pfT _ _ _ _ evp => evp != 3
  | .am _ _ _ _ aop ty scope _ _ h =>
      h.ok && scope != 7 && ty != 3 && (ty != 2 || aop.toNat < 3)
  | .red _ _ _ aop ty scope ord _ h =>
      h.ok && scope != 7 && ty != 3 && (ty != 2 || aop.toNat < 3) && aop.toNat < 6 && (ord == 0 || ord == 2)
  | .drain scope => scope != 7
  | .put _ _ _ _ _ rows _ | .get _ _ _ _ _ rows _ => rows.toNat ≤ 64
  | .vadd _ _ _ _ r _ dt | .vsub _ _ _ _ r _ dt | .vmul _ _ _ _ r _ dt | .vmin _ _ _ _ r _ dt
  | .vmax _ _ _ _ r _ dt | .vfma _ _ _ _ _ r _ dt | .vabs _ _ _ r dt | .vneg _ _ _ r dt
  | .vexp2 _ _ _ r dt | .vlog2 _ _ _ r dt | .vrcp _ _ _ r dt | .vrsq _ _ _ r dt
  | .vtanh _ _ _ r dt | .vsig _ _ _ r dt | .vsin _ _ _ r dt | .vdq _ _ _ r _ dt _ => r.ok && isWideTag dt
  | .vcmp _ _ _ _ _ cond => cond.toNat < 6
  | .vcvt _ _ _ r dt | .cvtPk _ _ _ r dt _ | .cvtUp _ _ _ r dt _ => r.ok && isCvtTag dt
  | .vq _ _ _ _ r dt _ => r.ok && isScaledTag dt
  | .vred _ _ _ r dt _ _ | .vcred _ _ _ r dt _ _ => r.ok && (isWideTag dt || dt == 8)
  | .vsh _ _ b _ _ imm | .vshRows _ _ b _ _ imm => immOk b imm
  | .vzero _ _ tag => 1 ≤ tag.toNat && tag.toNat ≤ 11
  | .vidot _ _ _ _ _ _ k => k.toNat ≤ 8
  | .vsmMerge _ _ _ r => r.ok
  | .shp fromReg a rows cols => if fromReg then rows == 0 && cols == 0 else a == 0
  | .fmtTag _ tag => 1 ≤ tag.toNat && tag.toNat ≤ 12
  | .rcwUpd _ _ _ _ mode _ => mode != 3
  | .cmxPack _ _ _ _ _ nt _ | .cmxRest _ _ _ _ _ nt => 1 ≤ nt.toNat && nt.toNat ≤ 16
  | .kvSv _ _ _ _ h => h.ok
  | .moeRoute _ _ _ k _ _ h => h.ok && 1 ≤ k.toNat && k.toNat ≤ 8
  | .mmIp _ _ xb _ bs _ bf _ scb _ off | .mmZIp _ _ xb _ bs _ bf _ scb _ off
  | .mmRw _ xb _ bs _ bf _ scb _ off | .mmZRw _ xb _ bs _ bf _ scb _ off => mmOk xb bs bf scb false off
  | .mmOp _ _ xb _ bs _ bf _ scb _ off => mmOk xb bs bf scb true off
  | .bundleIssue .. | .pendingStop .. | .clz .. | .ctz .. | .popc .. | .li .. | .lih .. | .addi .. | .mov ..
  | .fmin .. | .fmax .. | .jmp .. | .jr .. | .call .. | .callI .. | .ret .. | .loopLv .. | .yld .. | .done ..
  | .taskComplete .. | .halt .. | .barWt .. | .flagSet .. | .flagSetCore .. | .flagSetRmt .. | .ctlRd ..
  | .ctlWr .. | .prePt .. | .trap .. | .rte .. | .ifence .. | .trcMk .. | .nop .. | .loadDataReturn ..
  | .ldXg .. | .xpSet .. | .carveComplete .. | .tagLk .. | .tagFillDone .. | .tagEv .. | .tagEvWb ..
  | .tagInv .. | .tdRel .. | .streamRowFetch .. | .streamRowWrite .. | .qAdv .. | .qAdvRp .. | .qWait ..
  | .qDrain .. | .copyComplete .. | .commandSuspend .. | .pin .. | .unpin .. | .mcast .. | .acSet ..
  | .acAdd .. | .acWait .. | .kvChk .. | .rngIns .. | .rngDel .. | .rngSplit .. | .rngMerge .. | .rngInv ..
  | .rngReloc .. | .relocChunkMove .. | .rngResOr .. | .rngResAndn .. | .rngResWr .. | .rngRd ..
  | .rangeCmdComplete .. | .vsel .. | .vbcastRow .. | .vbcastEl .. | .vtr .. | .vperm .. | .vmov ..
  | .viadd .. | .vimul .. | .vand .. | .vor .. | .vxor .. | .vshl .. | .vshr .. | .chain ..
  | .chainComplete .. | .rcwSet .. | .rcwSetSt .. | .rcwSetCp .. | .rcwCnt .. | .rcwMask .. | .ruleSet ..
  | .cmxStart .. | .cmxComplete .. | .ntfX .. | .routePassStart .. | .routePassComplete .. | .mmMerge ..
  | .mmOut .. | .bmpMk .. | .bmpCnt .. | .spzPack .. | .spzPackB .. | .spzUnpk .. | .mtxComplete ..
  | .memoryPortGrant .. | .rangeWalk .. | .routerGrant .. | .slackDecrement .. | .flagPacketArrive ..
  | .noticeArrive .. | .acaddArrive .. | .contribCombine .. | .reductionComplete .. | .fabricTimeout ..
  | .fabricDiscard .. | .flitRetransmit .. | .portFailure .. | .roceInboundWrite .. | .roceInboundRead ..
  | .roceInboundAtomic .. | .roceUnsupportedOp .. | .roceNakReceived .. | .qpError .. | .doorbellWrite ..
  | .launchValidate .. | .launchStart .. | .phaseStart .. | .taskBind .. | .raggedClaim ..
  | .computeStepClose .. | .commStepClose .. | .launchComplete .. | .launchEnd .. | .launchSuspend ..
  | .launchResume .. | .tollRefill .. | .clockEpoch .. | .thermalTrip .. | .powerOnReset ..
  | .powerOnComplete .. | .firmwareAuth .. | .handlerStart .. | .prewaitExpiry .. | .saveSequence ..
  | .restore .. | .fillDispatch .. | .fillSettle .. | .fillFail .. | .spmUnitGate .. | .spmUnitWake ..
  | .wayGate .. | .wayPowerUp .. | .traceFreeze .. | .admitReq .. | .retire .. | .abort .. | .preempt ..
  | .qpset .. | .winset .. | .rgset .. | .regrd .. | .regwr .. | .spgWrite .. | .slwgWrite ..
  | .latecntClear .. | .pwrctlWrite .. | .trippedClear .. | .trcrd .. | .fusesvn .. | .attest .. | .loadfw ..
  | .atomicReply .. | .fabricCommandComplete .. | .exitSaveComplete .. | .streamBindComplete ..
  | .peerAcknowledgement .. | .congestionNotificationReceipt .. => true

end Sys2Proof
end

