-- ==== Sys2Proof/Decode.lean ====
section
/-! DEFINITION. The decoder and the encoder of slot words and bundle headers (R108 to R139). A slot word is read in
two steps: the opcode map names a candidate (R134 to R138), which is accepted when encoding it gives the word back
(every reserved bit zero, R131) and when its fields hold no reserved value (R132, `WellFormed`). -/

namespace Sys2Proof

/-- The seven slot word formats (R130). -/
inductive Format where
  | s | f | m | e | v | c | x
deriving DecidableEq, Repr

/-- Why a slot word is not an instruction: each traps ILLEGAL_BUNDLE (R131, R132, R139). -/
inductive DecodeError where
  | reservedOpcode
  | reservedField
  | reservedValue
deriving DecidableEq, Repr

/-! ### The formats, fields from the opcode down (R130) -/

def fmtS (op : Byte) (d : BitVec 6) (a : BitVec 6) (b : BitVec 6) (c : BitVec 6) (imm : BitVec 32) : Word :=
  op ++ d ++ a ++ b ++ c ++ imm

def fmtF (op : Byte) (d : BitVec 6) (a : BitVec 6) (b : BitVec 6) (c : BitVec 6) (ft : BitVec 4) (fs : BitVec 4) (cnd : BitVec 4) (sat : Bool) (rm : BitVec 3) : Word :=
  op ++ d ++ a ++ b ++ c ++ 0#16 ++ ft ++ fs ++ cnd ++ BitVec.ofBool sat ++ rm

def fmtM (op : Byte) (d : BitVec 6) (a : BitVec 6) (sl : BitVec 4) (evp : BitVec 2) (na : Bool) (md : BitVec 5) (off : BitVec 32) : Word :=
  op ++ d ++ a ++ sl ++ evp ++ BitVec.ofBool na ++ md ++ off

def fmtE (op : Byte) (t : BitVec 6) (a : BitVec 6) (b : BitVec 6) (c : BitVec 6) (sl : BitVec 4) (evp : BitVec 2) (na : Bool) (md : BitVec 5) (imm : BitVec 20) : Word :=
  op ++ t ++ a ++ b ++ c ++ sl ++ evp ++ BitVec.ofBool na ++ md ++ imm

def fmtV (op : Byte) (d : BitVec 6) (a : BitVec 6) (b : BitVec 6) (c : BitVec 6) (pm : BitVec 3) (rm : BitVec 3) (sat : Bool) (fn : BitVec 5) (imm : BitVec 20) : Word :=
  op ++ d ++ a ++ b ++ c ++ pm ++ rm ++ BitVec.ofBool sat ++ fn ++ imm

def fmtC (op : Byte) (a : BitVec 6) (b : BitVec 6) (sub : BitVec 12) (imm : BitVec 32) : Word :=
  op ++ a ++ b ++ sub ++ imm

def fmtX (op : Byte) (cd : BitVec 6) (xa : BitVec 6) (xb : BitVec 6) (t : BitVec 6) (df : BitVec 2) (bs : Bool) (ag : Bool) (bf : BitVec 4) (fn : BitVec 8) (off : BitVec 16) : Word :=
  op ++ cd ++ xa ++ xb ++ t ++ df ++ BitVec.ofBool bs ++ BitVec.ofBool ag ++ bf ++ fn ++ off

/-! ### The encoder -/

/-- The slot word of an instruction; an event has none. PM of `rcw.mask` is a reserved field: the manual's text has it take
PM, its field list and its `spas` form give it none (DESIGN CHOICE, Assumption 102). -/
def encode : Instr → Option Word
  | .add d a b imm => some (fmtS 0x01 d a b 0 imm)
  | .sub d a b imm => some (fmtS 0x02 d a b 0 imm)
  | .mul d a b imm => some (fmtS 0x03 d a b 0 imm)
  | .mulh d a b imm => some (fmtS 0x04 d a b 0 imm)
  | .mulhu d a b imm => some (fmtS 0x05 d a b 0 imm)
  | .div d a b imm => some (fmtS 0x06 d a b 0 imm)
  | .divu d a b imm => some (fmtS 0x07 d a b 0 imm)
  | .rem d a b imm => some (fmtS 0x08 d a b 0 imm)
  | .remu d a b imm => some (fmtS 0x09 d a b 0 imm)
  | .and d a b imm => some (fmtS 0x0A d a b 0 imm)
  | .or d a b imm => some (fmtS 0x0B d a b 0 imm)
  | .xor d a b imm => some (fmtS 0x0C d a b 0 imm)
  | .andn d a b imm => some (fmtS 0x0D d a b 0 imm)
  | .shl d a b imm => some (fmtS 0x0E d a b 0 imm)
  | .shr d a b imm => some (fmtS 0x0F d a b 0 imm)
  | .sra d a b imm => some (fmtS 0x10 d a b 0 imm)
  | .rotl d a b imm => some (fmtS 0x11 d a b 0 imm)
  | .min d a b imm => some (fmtS 0x12 d a b 0 imm)
  | .max d a b imm => some (fmtS 0x13 d a b 0 imm)
  | .minu d a b imm => some (fmtS 0x14 d a b 0 imm)
  | .maxu d a b imm => some (fmtS 0x15 d a b 0 imm)
  | .cmp d a b cond imm => some (fmtS 0x16 d a b cond imm)
  | .sel d a b c imm => some (fmtS 0x17 d a b c imm)
  | .clz d a => some (fmtS 0x18 d a 0 0 0)
  | .ctz d a => some (fmtS 0x19 d a 0 0 0)
  | .popc d a => some (fmtS 0x1A d a 0 0 0)
  | .ext d a sgn width lsb => some (fmtS 0x1B d a 0 0 (0#18 ++ BitVec.ofBool sgn ++ width ++ lsb))
  | .ins d a c width lsb => some (fmtS 0x1C d a 0 c (0#19 ++ width ++ lsb))
  | .li d imm => some (fmtS 0x1D d 0 0 0 imm)
  | .lih d a imm => some (fmtS 0x1E d a 0 0 imm)
  | .addi d a imm => some (fmtS 0x1F d a 0 0 imm)
  | .mov d a => some (fmtS 0x20 d a 0 0 0)
  | .lea d a b sh imm => some (fmtS 0x21 d a b (0#3 ++ sh) imm)
  | .fadd d a b r => some (fmtF 0x30 d a b 0 0 0 0 r.sat r.rm)
  | .fsub d a b r => some (fmtF 0x31 d a b 0 0 0 0 r.sat r.rm)
  | .fmul d a b r => some (fmtF 0x32 d a b 0 0 0 0 r.sat r.rm)
  | .fma d a b c r => some (fmtF 0x33 d a b c 0 0 0 r.sat r.rm)
  | .fmin d a b => some (fmtF 0x34 d a b 0 0 0 0 false 0)
  | .fmax d a b => some (fmtF 0x35 d a b 0 0 0 0 false 0)
  | .fcmp d a b cnd => some (fmtF 0x36 d a b 0 0 0 cnd false 0)
  | .fcvt d a ft fs r => some (fmtF 0x37 d a 0 0 ft fs 0 r.sat r.rm)
  | .br a cond off => some (fmtC 0x01 a 0 (0#9 ++ cond) off)
  | .jmp off => some (fmtC 0x02 0 0 0 off)
  | .jr a disp => some (fmtC 0x03 a 0 0 disp)
  | .call a off => some (fmtC 0x04 a 0 0 off)
  | .callI a b disp => some (fmtC 0x04 a b (0#11 ++ 1#1) disp)
  | .ret a => some (fmtC 0x05 a 0 0 0)
  | .loop a n cnt off => some (fmtC 0x06 a (0#4 ++ n) cnt off)
  | .loopLv n off => some (fmtC 0x07 0 (0#4 ++ n) 0 off)
  | .yld cycles => some (fmtC 0x08 0 0 0 (0#16 ++ cycles))
  | .done => some (fmtC 0x09 0 0 0 0)
  | .halt code => some (fmtC 0x0A 0 0 0 (0#16 ++ code))
  | .bar scope level id => some (fmtC 0x10 0 0 (0#6 ++ level ++ scope) (0#28 ++ id))
  | .barArr scope level id => some (fmtC 0x11 0 0 (0#6 ++ level ++ scope) (0#28 ++ id))
  | .barWt level id => some (fmtC 0x12 0 0 (0#6 ++ level ++ 0#3) (0#28 ++ id))
  | .flagSet mask => some (fmtC 0x13 0 0 0 (0#24 ++ mask))
  | .flagSetCore a mask => some (fmtC 0x13 a 0 (0#10 ++ 1#2) (0#24 ++ mask))
  | .flagSetRmt a sl mask => some (fmtC 0x13 a 0 (0#4 ++ sl ++ 2#4) (0#24 ++ mask))
  | .flagClr mask => some (fmtC 0x14 0 0 0 (0#16 ++ mask))
  | .ctlRd a crn => some (fmtC 0x18 a 0 0 (0#24 ++ crn))
  | .ctlWr a crn => some (fmtC 0x19 a 0 0 (0#24 ++ crn))
  | .prePt off => some (fmtC 0x20 0 0 0 off)
  | .trap code => some (fmtC 0x21 0 0 0 (0#16 ++ code))
  | .rte a => some (fmtC 0x22 a 0 0 0)
  | .ifence => some (fmtC 0x28 0 0 0 0)
  | .toll a amount => some (fmtC 0x29 a 0 0 (0#8 ++ amount))
  | .trcMk payload => some (fmtC 0x2A 0 0 0 (0#16 ++ payload))
  | .nop => some (fmtC 0x2B 0 0 0 0)
  | .ld d a h sp sx sz off => some (fmtM 0x01 d a h.sl h.evp h.na (BitVec.ofBool sp ++ BitVec.ofBool sx ++ sz ++ 0#1) off)
  | .st d a h sp sz off => some (fmtM 0x02 d a h.sl h.evp h.na (BitVec.ofBool sp ++ 0#1 ++ sz ++ 0#1) off)
  | .ldX d a h sp sc pat off => some (fmtM 0x03 d a h.sl h.evp h.na (BitVec.ofBool sp ++ BitVec.ofBool sc ++ pat) off)
  | .stX d a h sp sc off => some (fmtM 0x04 d a h.sl h.evp h.na (BitVec.ofBool sp ++ BitVec.ofBool sc ++ 0#3) off)
  | .ldXg d a pat off => some (fmtM 0x05 d a 0 0 false (2#2 ++ pat) off)
  | .xpSet slot a off => some (fmtM 0x06 (0#3 ++ slot) a 0 0 false 0 off)
  | .tagLk d a off => some (fmtM 0x08 d a 0 0 false 0 off)
  | .tagFl t a b h => some (fmtE 0x09 t a b 0 h.sl h.evp h.na 0 0)
  | .tagEv t a sl => some (fmtE 0x0A t a 0 0 sl 0 false 0 0)
  | .tagEvWb t a sl => some (fmtE 0x0A t a 0 0 sl 0 false (1#5) 0)
  | .tagInv a off => some (fmtM 0x0B 0 a 0 0 false 0 off)
  | .spmCarve t n => some (fmtE 0x0C t 0 0 0 0 0 false 0 (0#16 ++ n))
  | .qBind t a b c dir win len h => some (fmtE 0x10 t a b (0#3 ++ c) h.sl h.evp h.na (BitVec.ofBool dir ++ BitVec.ofBool win ++ 0#3) (0#7 ++ len))
  | .qAdv q a off => some (fmtM 0x11 (0#3 ++ q) a 0 0 false 0 off)
  | .qAdvRp q a off => some (fmtM 0x11 (0#3 ++ q) a 0 0 false (1#5) off)
  | .qWait q a off => some (fmtM 0x12 (0#3 ++ q) a 0 0 false 0 off)
  | .qDrain t c => some (fmtE 0x13 t 0 0 (0#3 ++ c) 0 0 false 0 0)
  | .cp t a b c ds ss len h => some (fmtE 0x18 t a b c h.sl h.evp h.na (BitVec.ofBool ds ++ BitVec.ofBool ss ++ 0#3) len)
  | .cpKvchk t a b c ds ss len h => some (fmtE 0x18 t a b c h.sl h.evp h.na (BitVec.ofBool ds ++ BitVec.ofBool ss ++ 4#3) len)
  | .cpG t a b c ds ss clamp rsz cnt h => some (fmtE 0x19 t a b c h.sl h.evp h.na (BitVec.ofBool ds ++ BitVec.ofBool ss ++ BitVec.ofBool clamp ++ 0#2) (rsz ++ cnt))
  | .cpS t a b c ds ss clamp rsz cnt h => some (fmtE 0x1A t a b c h.sl h.evp h.na (BitVec.ofBool ds ++ BitVec.ofBool ss ++ BitVec.ofBool clamp ++ 0#2) (rsz ++ cnt))
  | .pfT t a scl sl evp => some (fmtE 0x1B t a 0 0 sl evp false (0#4 ++ BitVec.ofBool scl) 0)
  | .pin t a b c w => some (fmtE 0x1C t a b c 0 0 false 0 (0#17 ++ w))
  | .unpin t w => some (fmtE 0x1D t 0 0 0 0 0 false 0 (0#17 ++ w))
  | .tdMk t a b sp h => some (fmtE 0x20 t a b 0 h.sl h.evp h.na (BitVec.ofBool sp ++ 0#4) 0)
  | .tdRel a off => some (fmtM 0x21 0 a 0 0 false (16#5) off)
  | .am t a b c aop ty scope ord disp h => some (fmtE 0x28 t a b c h.sl h.evp h.na (aop ++ ty) (scope ++ ord ++ 0#3 ++ disp))
  | .red t a b aop ty scope ord disp h => some (fmtE 0x29 t a b 0 h.sl h.evp h.na (aop ++ ty) (scope ++ ord ++ 0#3 ++ disp))
  | .drain scope => some (fmtM 0x2C 0 0 0 0 false (0#2 ++ scope) 0)
  | .put t a b c ss rows sl => some (fmtE 0x30 t a b c sl 0 false (BitVec.ofBool ss ++ 0#4) (0#13 ++ rows))
  | .get t a b c ds rows sl => some (fmtE 0x31 t a b c sl 0 false (BitVec.ofBool ds ++ 0#4) (0#13 ++ rows))
  | .mcast t a b c len sl => some (fmtE 0x32 t a b c sl 0 false 0 len)
  | .acSet t a watch ctr => some (fmtE 0x33 t a 0 0 0 0 false (0#4 ++ BitVec.ofBool watch) (0#16 ++ ctr))
  | .acAdd t a sl => some (fmtE 0x34 t a 0 0 sl 0 false 0 0)
  | .acWait ctr => some (fmtM 0x35 0 0 0 0 false 0 (0#28 ++ ctr))
  | .kvChk t a b watch cnt sl => some (fmtE 0x38 t a b 0 sl 0 false (0#4 ++ BitVec.ofBool watch) (0#4 ++ cnt))
  | .rngIns t a b sl => some (fmtE 0x40 t a b 0 sl 0 false 0 0)
  | .rngDel t a b sl => some (fmtE 0x41 t a b 0 sl 0 false 0 0)
  | .rngSplit t a b sl => some (fmtE 0x42 t a b 0 sl 0 false 0 0)
  | .rngMerge t a b sl => some (fmtE 0x43 t a b 0 sl 0 false 0 0)
  | .rngInv t a b c all sl => some (fmtE 0x44 t a b c sl 0 false (0#4 ++ BitVec.ofBool all) 0)
  | .rngReloc t a b c sl => some (fmtE 0x45 t a b c sl 0 false 0 0)
  | .rngResOr t a b c sl => some (fmtE 0x46 t a b c sl 0 false (0#3 ++ 0#2) 0)
  | .rngResAndn t a b c sl => some (fmtE 0x46 t a b c sl 0 false (0#3 ++ 1#2) 0)
  | .rngResWr t a b c sl => some (fmtE 0x46 t a b c sl 0 false (0#3 ++ 2#2) 0)
  | .rngRd t a b c sl => some (fmtE 0x47 t a b c sl 0 false 0 0)
  | .vadd d a b pm r bs dt => some (fmtV 0x01 d a b 0 pm r.rm r.sat (BitVec.ofBool bs ++ dt) 0)
  | .vsub d a b pm r bs dt => some (fmtV 0x02 d a b 0 pm r.rm r.sat (BitVec.ofBool bs ++ dt) 0)
  | .vmul d a b pm r bs dt => some (fmtV 0x03 d a b 0 pm r.rm r.sat (BitVec.ofBool bs ++ dt) 0)
  | .vfma d a b c pm r bs dt => some (fmtV 0x04 d a b c pm r.rm r.sat (BitVec.ofBool bs ++ dt) 0)
  | .vmin d a b pm r bs dt => some (fmtV 0x05 d a b 0 pm r.rm r.sat (BitVec.ofBool bs ++ dt) 0)
  | .vmax d a b pm r bs dt => some (fmtV 0x06 d a b 0 pm r.rm r.sat (BitVec.ofBool bs ++ dt) 0)
  | .vabs d a pm r dt => some (fmtV 0x07 d a 0 0 pm r.rm r.sat (0#1 ++ dt) 0)
  | .vneg d a pm r dt => some (fmtV 0x08 d a 0 0 pm r.rm r.sat (0#1 ++ dt) 0)
  | .vexp2 d a pm r dt => some (fmtV 0x10 d a 0 0 pm r.rm r.sat (0#1 ++ dt) 0)
  | .vlog2 d a pm r dt => some (fmtV 0x11 d a 0 0 pm r.rm r.sat (0#1 ++ dt) 0)
  | .vrcp d a pm r dt => some (fmtV 0x12 d a 0 0 pm r.rm r.sat (0#1 ++ dt) 0)
  | .vrsq d a pm r dt => some (fmtV 0x13 d a 0 0 pm r.rm r.sat (0#1 ++ dt) 0)
  | .vtanh d a pm r dt => some (fmtV 0x14 d a 0 0 pm r.rm r.sat (0#1 ++ dt) 0)
  | .vsig d a pm r dt => some (fmtV 0x15 d a 0 0 pm r.rm r.sat (0#1 ++ dt) 0)
  | .vsin d a pm r dt => some (fmtV 0x16 d a 0 0 pm r.rm r.sat (0#1 ++ dt) 0)
  | .vcmp d a b pm bs cond => some (fmtV 0x18 d a b 0 pm 0 false (BitVec.ofBool bs ++ 0#1 ++ cond) 0)
  | .vsel d a b c pm => some (fmtV 0x19 d a b c pm 0 false 0 0)
  | .vcvt d a pm r dt => some (fmtV 0x1A d a 0 0 pm r.rm r.sat (0#1 ++ dt) 0)
  | .cvtPk d a pm r dt part => some (fmtV 0x1B d a 0 0 pm r.rm r.sat (0#1 ++ dt) (0#17 ++ part))
  | .cvtUp d a pm r dt part => some (fmtV 0x1C d a 0 0 pm r.rm r.sat (0#1 ++ dt) (0#17 ++ part))
  | .vq d a b pm r dt part => some (fmtV 0x1D d a b 0 pm r.rm r.sat (0#1 ++ dt) (0#17 ++ part))
  | .vdq d a pm r nosc dt part => some (fmtV 0x1E d a 0 0 pm r.rm r.sat (BitVec.ofBool nosc ++ dt) (0#17 ++ part))
  | .vred d a pm r dt op e => some (fmtV 0x20 d a 0 0 pm r.rm r.sat (0#1 ++ dt) (0#7 ++ e ++ op))
  | .vcred d a pm r dt op row => some (fmtV 0x21 d a 0 0 pm r.rm r.sat (0#1 ++ dt) (0#12 ++ row ++ op))
  | .vbcastRow d a pm k => some (fmtV 0x22 d a 0 0 pm 0 false 0 (0#14 ++ k))
  | .vbcastEl d a pm e => some (fmtV 0x22 d a 0 0 pm 0 false (1#5) (0#9 ++ e))
  | .vtr d a c => some (fmtV 0x23 d a 0 0 0 0 false 0 (0#17 ++ c))
  | .vsh d a b pm rot imm => some (fmtV 0x24 d a b 0 pm 0 false (0#4 ++ BitVec.ofBool rot) imm)
  | .vshRows d a b pm rot imm => some (fmtV 0x24 d a b 0 pm 0 false (1#4 ++ BitVec.ofBool rot) imm)
  | .vperm d a b pm => some (fmtV 0x25 d a b 0 pm 0 false 0 0)
  | .vmov d a pm => some (fmtV 0x26 d a 0 0 pm 0 false 0 0)
  | .vzero d pm tag => some (fmtV 0x27 d 0 0 0 pm 0 false (0#1 ++ tag) 0)
  | .viadd d a b pm bs sati => some (fmtV 0x28 d a b 0 pm 0 false (BitVec.ofBool bs ++ 0#3 ++ BitVec.ofBool sati) 0)
  | .vimul d a b pm bs sati => some (fmtV 0x29 d a b 0 pm 0 false (BitVec.ofBool bs ++ 0#3 ++ BitVec.ofBool sati) 0)
  | .vand d a b pm bs => some (fmtV 0x2A d a b 0 pm 0 false (BitVec.ofBool bs ++ 0#4) 0)
  | .vor d a b pm bs => some (fmtV 0x2B d a b 0 pm 0 false (BitVec.ofBool bs ++ 0#4) 0)
  | .vxor d a b pm bs => some (fmtV 0x2C d a b 0 pm 0 false (BitVec.ofBool bs ++ 0#4) 0)
  | .vshl d a b pm bs => some (fmtV 0x2D d a b 0 pm 0 false (BitVec.ofBool bs ++ 0#4) 0)
  | .vshr d a b pm bs arith => some (fmtV 0x2E d a b 0 pm 0 false (BitVec.ofBool bs ++ 0#2 ++ BitVec.ofBool arith ++ 0#1) 0)
  | .vidot d a b c pm brow k => some (fmtV 0x2F d a b c pm 0 false (BitVec.ofBool brow ++ k) 0)
  | .vsmMerge d a pm r => some (fmtV 0x30 d a 0 0 pm r.rm r.sat 0 0)
  | .chain t a => some (fmtE 0x31 t a 0 0 0 0 false 0 0)
  | .shp fromReg a rows cols => some (fmtV 0x32 0 a 0 0 0 0 false (0#4 ++ BitVec.ofBool fromReg) (0#2 ++ cols ++ rows))
  | .fmtTag d tag => some (fmtV 0x33 d 0 0 0 0 0 false (0#1 ++ tag) 0)
  | .rcwSet d a pm => some (fmtV 0x38 d a 0 0 pm 0 false 0 0)
  | .rcwSetSt d pm state => some (fmtV 0x38 d 0 0 0 pm 0 false (1#5) (0#17 ++ state))
  | .rcwSetCp d a pm => some (fmtV 0x38 d a 0 0 pm 0 false (2#5) 0)
  | .rcwUpd d a pm rule mode col => some (fmtV 0x39 d a 0 0 pm 0 false (mode ++ rule) (0#10 ++ col))
  | .rcwCnt d a pm acc n => some (fmtV 0x3A d a 0 0 pm 0 false (0#4 ++ BitVec.ofBool acc) (0#14 ++ n))
  | .rcwMask d a set => some (fmtV 0x3B (0#3 ++ d) a 0 0 0 0 false 0 (0#12 ++ set))
  | .ruleSet a n => some (fmtV 0x3C 0 a 0 0 0 0 false 0 (0#17 ++ n))
  | .cmxPack t a b c sp nt set => some (fmtE 0x40 t a b c 0 0 false (BitVec.ofBool sp ++ 0#4) (0#4 ++ set ++ 0#3 ++ nt))
  | .cmxRest t a b c sp nt => some (fmtE 0x41 t a b c 0 0 false (BitVec.ofBool sp ++ 0#4) (0#15 ++ nt))
  | .kvSv t a b c h => some (fmtE 0x42 t a b c h.sl h.evp h.na 0 0)
  | .ntfX t a b c set sl => some (fmtE 0x43 t a (0#3 ++ b) c sl 0 false 0 (0#12 ++ set))
  | .moeRoute t a b k norm renorm h => some (fmtE 0x44 t a b 0 h.sl h.evp h.na 0 (0#14 ++ BitVec.ofBool renorm ++ BitVec.ofBool norm ++ k))
  | .mmIp cd xa xb t bs ag bf kh scb noswap off => some (fmtX 0x01 cd xa xb t 0 bs ag bf (0#5 ++ BitVec.ofBool noswap ++ BitVec.ofBool scb ++ BitVec.ofBool kh) off)
  | .mmOp cd xa xb t bs ag bf kh scb noswap off => some (fmtX 0x01 cd xa xb t 1 bs ag bf (0#5 ++ BitVec.ofBool noswap ++ BitVec.ofBool scb ++ BitVec.ofBool kh) off)
  | .mmRw xa xb t bs ag bf kh scb noswap off => some (fmtX 0x01 0 xa xb t 2 bs ag bf (0#5 ++ BitVec.ofBool noswap ++ BitVec.ofBool scb ++ BitVec.ofBool kh) off)
  | .mmZIp cd xa xb t bs ag bf kh scb noswap off => some (fmtX 0x02 cd xa xb t 0 bs ag bf (0#5 ++ BitVec.ofBool noswap ++ BitVec.ofBool scb ++ BitVec.ofBool kh) off)
  | .mmZRw xa xb t bs ag bf kh scb noswap off => some (fmtX 0x02 0 xa xb t 2 bs ag bf (0#5 ++ BitVec.ofBool noswap ++ BitVec.ofBool scb ++ BitVec.ofBool kh) off)
  | .mmMerge cd xb t np zc off => some (fmtX 0x03 cd 0 xb t 0 false false 0 (0#3 ++ BitVec.ofBool zc ++ np) off)
  | .mmOut q t => some (fmtX 0x04 0 0 (0#3 ++ q) t 0 false false 0 0 0)
  | .bmpMk xa xb t kh bmode off => some (fmtX 0x08 0 xa xb t 0 false false 0 (0#6 ++ BitVec.ofBool bmode ++ BitVec.ofBool kh) off)
  | .bmpCnt xb t wide off => some (fmtX 0x09 0 0 xb t 0 false false 0 (0#7 ++ BitVec.ofBool wide) off)
  | .spzPack cd xa t kh => some (fmtX 0x0A cd xa 0 t 0 false false 0 (0#7 ++ BitVec.ofBool kh) 0)
  | .spzPackB xa xb t kh off => some (fmtX 0x0A 0 xa xb t 0 false false 0 (0#6 ++ 1#1 ++ BitVec.ofBool kh) off)
  | .spzUnpk cd xa t kh => some (fmtX 0x0B cd xa 0 t 0 false false 0 (0#7 ++ BitVec.ofBool kh) 0)
  | .bundleIssue .. | .pendingStop .. | .taskComplete .. | .loadDataReturn .. | .carveComplete ..
  | .tagFillDone .. | .streamRowFetch .. | .streamRowWrite .. | .copyComplete .. | .commandSuspend ..
  | .relocChunkMove .. | .rangeCmdComplete .. | .chainComplete .. | .cmxStart .. | .cmxComplete ..
  | .routePassStart .. | .routePassComplete .. | .mtxComplete .. | .memoryPortGrant .. | .rangeWalk ..
  | .routerGrant .. | .slackDecrement .. | .flagPacketArrive .. | .noticeArrive .. | .acaddArrive ..
  | .contribCombine .. | .reductionComplete .. | .fabricTimeout .. | .fabricDiscard .. | .flitRetransmit ..
  | .portFailure .. | .roceInboundWrite .. | .roceInboundRead .. | .roceInboundAtomic ..
  | .roceUnsupportedOp .. | .roceNakReceived .. | .qpError .. | .doorbellWrite .. | .launchValidate ..
  | .launchStart .. | .phaseStart .. | .taskBind .. | .raggedClaim .. | .computeStepClose ..
  | .commStepClose .. | .launchComplete .. | .launchEnd .. | .launchSuspend .. | .launchResume ..
  | .tollRefill .. | .clockEpoch .. | .thermalTrip .. | .powerOnReset .. | .powerOnComplete ..
  | .firmwareAuth .. | .handlerStart .. | .prewaitExpiry .. | .saveSequence .. | .restore ..
  | .fillDispatch .. | .fillSettle .. | .fillFail .. | .spmUnitGate .. | .spmUnitWake .. | .wayGate ..
  | .wayPowerUp .. | .traceFreeze .. | .admitReq .. | .retire .. | .abort .. | .preempt .. | .qpset ..
  | .winset .. | .rgset .. | .regrd .. | .regwr .. | .spgWrite .. | .slwgWrite .. | .latecntClear ..
  | .pwrctlWrite .. | .trippedClear .. | .trcrd .. | .fusesvn .. | .attest .. | .loadfw .. | .atomicReply ..
  | .fabricCommandComplete .. | .exitSaveComplete .. | .streamBindComplete .. | .peerAcknowledgement ..
  | .congestionNotificationReceipt .. => none

/-! Each candidate carries the fields of the word; none for an opcode the map does not list (R139) or a modifier
value that names no instruction. -/

/-- The map of S0 and S1 (R134). -/
def candidateS (w : Word) : Option Instr :=
  match (w.extractLsb' 56 8).toNat with
  | 0x01 => some (.add (w.extractLsb' 50 6) (w.extractLsb' 44 6) (w.extractLsb' 38 6) (w.extractLsb' 0 32))
  | 0x02 => some (.sub (w.extractLsb' 50 6) (w.extractLsb' 44 6) (w.extractLsb' 38 6) (w.extractLsb' 0 32))
  | 0x03 => some (.mul (w.extractLsb' 50 6) (w.extractLsb' 44 6) (w.extractLsb' 38 6) (w.extractLsb' 0 32))
  | 0x04 => some (.mulh (w.extractLsb' 50 6) (w.extractLsb' 44 6) (w.extractLsb' 38 6) (w.extractLsb' 0 32))
  | 0x05 => some (.mulhu (w.extractLsb' 50 6) (w.extractLsb' 44 6) (w.extractLsb' 38 6) (w.extractLsb' 0 32))
  | 0x06 => some (.div (w.extractLsb' 50 6) (w.extractLsb' 44 6) (w.extractLsb' 38 6) (w.extractLsb' 0 32))
  | 0x07 => some (.divu (w.extractLsb' 50 6) (w.extractLsb' 44 6) (w.extractLsb' 38 6) (w.extractLsb' 0 32))
  | 0x08 => some (.rem (w.extractLsb' 50 6) (w.extractLsb' 44 6) (w.extractLsb' 38 6) (w.extractLsb' 0 32))
  | 0x09 => some (.remu (w.extractLsb' 50 6) (w.extractLsb' 44 6) (w.extractLsb' 38 6) (w.extractLsb' 0 32))
  | 0x0A => some (.and (w.extractLsb' 50 6) (w.extractLsb' 44 6) (w.extractLsb' 38 6) (w.extractLsb' 0 32))
  | 0x0B => some (.or (w.extractLsb' 50 6) (w.extractLsb' 44 6) (w.extractLsb' 38 6) (w.extractLsb' 0 32))
  | 0x0C => some (.xor (w.extractLsb' 50 6) (w.extractLsb' 44 6) (w.extractLsb' 38 6) (w.extractLsb' 0 32))
  | 0x0D => some (.andn (w.extractLsb' 50 6) (w.extractLsb' 44 6) (w.extractLsb' 38 6) (w.extractLsb' 0 32))
  | 0x0E => some (.shl (w.extractLsb' 50 6) (w.extractLsb' 44 6) (w.extractLsb' 38 6) (w.extractLsb' 0 32))
  | 0x0F => some (.shr (w.extractLsb' 50 6) (w.extractLsb' 44 6) (w.extractLsb' 38 6) (w.extractLsb' 0 32))
  | 0x10 => some (.sra (w.extractLsb' 50 6) (w.extractLsb' 44 6) (w.extractLsb' 38 6) (w.extractLsb' 0 32))
  | 0x11 => some (.rotl (w.extractLsb' 50 6) (w.extractLsb' 44 6) (w.extractLsb' 38 6) (w.extractLsb' 0 32))
  | 0x12 => some (.min (w.extractLsb' 50 6) (w.extractLsb' 44 6) (w.extractLsb' 38 6) (w.extractLsb' 0 32))
  | 0x13 => some (.max (w.extractLsb' 50 6) (w.extractLsb' 44 6) (w.extractLsb' 38 6) (w.extractLsb' 0 32))
  | 0x14 => some (.minu (w.extractLsb' 50 6) (w.extractLsb' 44 6) (w.extractLsb' 38 6) (w.extractLsb' 0 32))
  | 0x15 => some (.maxu (w.extractLsb' 50 6) (w.extractLsb' 44 6) (w.extractLsb' 38 6) (w.extractLsb' 0 32))
  | 0x16 => some (.cmp (w.extractLsb' 50 6) (w.extractLsb' 44 6) (w.extractLsb' 38 6) (w.extractLsb' 32 6) (w.extractLsb' 0 32))
  | 0x17 => some (.sel (w.extractLsb' 50 6) (w.extractLsb' 44 6) (w.extractLsb' 38 6) (w.extractLsb' 32 6) (w.extractLsb' 0 32))
  | 0x18 => some (.clz (w.extractLsb' 50 6) (w.extractLsb' 44 6))
  | 0x19 => some (.ctz (w.extractLsb' 50 6) (w.extractLsb' 44 6))
  | 0x1A => some (.popc (w.extractLsb' 50 6) (w.extractLsb' 44 6))
  | 0x1B => some (.ext (w.extractLsb' 50 6) (w.extractLsb' 44 6) (w.getLsbD 13) (w.extractLsb' 6 7) (w.extractLsb' 0 6))
  | 0x1C => some (.ins (w.extractLsb' 50 6) (w.extractLsb' 44 6) (w.extractLsb' 32 6) (w.extractLsb' 6 7) (w.extractLsb' 0 6))
  | 0x1D => some (.li (w.extractLsb' 50 6) (w.extractLsb' 0 32))
  | 0x1E => some (.lih (w.extractLsb' 50 6) (w.extractLsb' 44 6) (w.extractLsb' 0 32))
  | 0x1F => some (.addi (w.extractLsb' 50 6) (w.extractLsb' 44 6) (w.extractLsb' 0 32))
  | 0x20 => some (.mov (w.extractLsb' 50 6) (w.extractLsb' 44 6))
  | 0x21 => some (.lea (w.extractLsb' 50 6) (w.extractLsb' 44 6) (w.extractLsb' 38 6) (w.extractLsb' 32 3) (w.extractLsb' 0 32))
  | 0x30 => some (.fadd (w.extractLsb' 50 6) (w.extractLsb' 44 6) (w.extractLsb' 38 6) ⟨w.extractLsb' 0 3, w.getLsbD 3⟩)
  | 0x31 => some (.fsub (w.extractLsb' 50 6) (w.extractLsb' 44 6) (w.extractLsb' 38 6) ⟨w.extractLsb' 0 3, w.getLsbD 3⟩)
  | 0x32 => some (.fmul (w.extractLsb' 50 6) (w.extractLsb' 44 6) (w.extractLsb' 38 6) ⟨w.extractLsb' 0 3, w.getLsbD 3⟩)
  | 0x33 => some (.fma (w.extractLsb' 50 6) (w.extractLsb' 44 6) (w.extractLsb' 38 6) (w.extractLsb' 32 6) ⟨w.extractLsb' 0 3, w.getLsbD 3⟩)
  | 0x34 => some (.fmin (w.extractLsb' 50 6) (w.extractLsb' 44 6) (w.extractLsb' 38 6))
  | 0x35 => some (.fmax (w.extractLsb' 50 6) (w.extractLsb' 44 6) (w.extractLsb' 38 6))
  | 0x36 => some (.fcmp (w.extractLsb' 50 6) (w.extractLsb' 44 6) (w.extractLsb' 38 6) (w.extractLsb' 4 4))
  | 0x37 => some (.fcvt (w.extractLsb' 50 6) (w.extractLsb' 44 6) (w.extractLsb' 12 4) (w.extractLsb' 8 4) ⟨w.extractLsb' 0 3, w.getLsbD 3⟩)
  | _ => none

/-- The MEM map (R136). -/
def candidateMem (w : Word) : Option Instr :=
  match (w.extractLsb' 56 8).toNat with
  | 0x01 => some (.ld (w.extractLsb' 50 6) (w.extractLsb' 44 6) ⟨w.extractLsb' 40 4, w.extractLsb' 38 2, w.getLsbD 37⟩ (w.getLsbD 36) (w.getLsbD 35) (w.extractLsb' 33 2) (w.extractLsb' 0 32))
  | 0x02 => some (.st (w.extractLsb' 50 6) (w.extractLsb' 44 6) ⟨w.extractLsb' 40 4, w.extractLsb' 38 2, w.getLsbD 37⟩ (w.getLsbD 36) (w.extractLsb' 33 2) (w.extractLsb' 0 32))
  | 0x03 => some (.ldX (w.extractLsb' 50 6) (w.extractLsb' 44 6) ⟨w.extractLsb' 40 4, w.extractLsb' 38 2, w.getLsbD 37⟩ (w.getLsbD 36) (w.getLsbD 35) (w.extractLsb' 32 3) (w.extractLsb' 0 32))
  | 0x04 => some (.stX (w.extractLsb' 50 6) (w.extractLsb' 44 6) ⟨w.extractLsb' 40 4, w.extractLsb' 38 2, w.getLsbD 37⟩ (w.getLsbD 36) (w.getLsbD 35) (w.extractLsb' 0 32))
  | 0x05 => some (.ldXg (w.extractLsb' 50 6) (w.extractLsb' 44 6) (w.extractLsb' 32 3) (w.extractLsb' 0 32))
  | 0x06 => some (.xpSet (w.extractLsb' 50 3) (w.extractLsb' 44 6) (w.extractLsb' 0 32))
  | 0x08 => some (.tagLk (w.extractLsb' 50 6) (w.extractLsb' 44 6) (w.extractLsb' 0 32))
  | 0x09 => some (.tagFl (w.extractLsb' 50 6) (w.extractLsb' 44 6) (w.extractLsb' 38 6) ⟨w.extractLsb' 28 4, w.extractLsb' 26 2, w.getLsbD 25⟩)
  | 0x0A =>
    if w.getLsbD 20 then some (.tagEvWb (w.extractLsb' 50 6) (w.extractLsb' 44 6) (w.extractLsb' 28 4))
    else some (.tagEv (w.extractLsb' 50 6) (w.extractLsb' 44 6) (w.extractLsb' 28 4))
  | 0x0B => some (.tagInv (w.extractLsb' 44 6) (w.extractLsb' 0 32))
  | 0x0C => some (.spmCarve (w.extractLsb' 50 6) (w.extractLsb' 0 4))
  | 0x10 => some (.qBind (w.extractLsb' 50 6) (w.extractLsb' 44 6) (w.extractLsb' 38 6) (w.extractLsb' 32 3) (w.getLsbD 24) (w.getLsbD 23) (w.extractLsb' 0 13) ⟨w.extractLsb' 28 4, w.extractLsb' 26 2, w.getLsbD 25⟩)
  | 0x11 =>
    if w.getLsbD 32 then some (.qAdvRp (w.extractLsb' 50 3) (w.extractLsb' 44 6) (w.extractLsb' 0 32))
    else some (.qAdv (w.extractLsb' 50 3) (w.extractLsb' 44 6) (w.extractLsb' 0 32))
  | 0x12 => some (.qWait (w.extractLsb' 50 3) (w.extractLsb' 44 6) (w.extractLsb' 0 32))
  | 0x13 => some (.qDrain (w.extractLsb' 50 6) (w.extractLsb' 32 3))
  | 0x18 =>
    if w.getLsbD 22 then some (.cpKvchk (w.extractLsb' 50 6) (w.extractLsb' 44 6) (w.extractLsb' 38 6) (w.extractLsb' 32 6) (w.getLsbD 24) (w.getLsbD 23) (w.extractLsb' 0 20) ⟨w.extractLsb' 28 4, w.extractLsb' 26 2, w.getLsbD 25⟩)
    else some (.cp (w.extractLsb' 50 6) (w.extractLsb' 44 6) (w.extractLsb' 38 6) (w.extractLsb' 32 6) (w.getLsbD 24) (w.getLsbD 23) (w.extractLsb' 0 20) ⟨w.extractLsb' 28 4, w.extractLsb' 26 2, w.getLsbD 25⟩)
  | 0x19 => some (.cpG (w.extractLsb' 50 6) (w.extractLsb' 44 6) (w.extractLsb' 38 6) (w.extractLsb' 32 6) (w.getLsbD 24) (w.getLsbD 23) (w.getLsbD 22) (w.extractLsb' 14 6) (w.extractLsb' 0 14) ⟨w.extractLsb' 28 4, w.extractLsb' 26 2, w.getLsbD 25⟩)
  | 0x1A => some (.cpS (w.extractLsb' 50 6) (w.extractLsb' 44 6) (w.extractLsb' 38 6) (w.extractLsb' 32 6) (w.getLsbD 24) (w.getLsbD 23) (w.getLsbD 22) (w.extractLsb' 14 6) (w.extractLsb' 0 14) ⟨w.extractLsb' 28 4, w.extractLsb' 26 2, w.getLsbD 25⟩)
  | 0x1B => some (.pfT (w.extractLsb' 50 6) (w.extractLsb' 44 6) (w.getLsbD 20) (w.extractLsb' 28 4) (w.extractLsb' 26 2))
  | 0x1C => some (.pin (w.extractLsb' 50 6) (w.extractLsb' 44 6) (w.extractLsb' 38 6) (w.extractLsb' 32 6) (w.extractLsb' 0 3))
  | 0x1D => some (.unpin (w.extractLsb' 50 6) (w.extractLsb' 0 3))
  | 0x20 => some (.tdMk (w.extractLsb' 50 6) (w.extractLsb' 44 6) (w.extractLsb' 38 6) (w.getLsbD 24) ⟨w.extractLsb' 28 4, w.extractLsb' 26 2, w.getLsbD 25⟩)
  | 0x21 => some (.tdRel (w.extractLsb' 44 6) (w.extractLsb' 0 32))
  | 0x28 => some (.am (w.extractLsb' 50 6) (w.extractLsb' 44 6) (w.extractLsb' 38 6) (w.extractLsb' 32 6) (w.extractLsb' 22 3) (w.extractLsb' 20 2) (w.extractLsb' 17 3) (w.extractLsb' 15 2) (w.extractLsb' 0 12) ⟨w.extractLsb' 28 4, w.extractLsb' 26 2, w.getLsbD 25⟩)
  | 0x29 => some (.red (w.extractLsb' 50 6) (w.extractLsb' 44 6) (w.extractLsb' 38 6) (w.extractLsb' 22 3) (w.extractLsb' 20 2) (w.extractLsb' 17 3) (w.extractLsb' 15 2) (w.extractLsb' 0 12) ⟨w.extractLsb' 28 4, w.extractLsb' 26 2, w.getLsbD 25⟩)
  | 0x2C => some (.drain (w.extractLsb' 32 3))
  | 0x30 => some (.put (w.extractLsb' 50 6) (w.extractLsb' 44 6) (w.extractLsb' 38 6) (w.extractLsb' 32 6) (w.getLsbD 24) (w.extractLsb' 0 7) (w.extractLsb' 28 4))
  | 0x31 => some (.get (w.extractLsb' 50 6) (w.extractLsb' 44 6) (w.extractLsb' 38 6) (w.extractLsb' 32 6) (w.getLsbD 24) (w.extractLsb' 0 7) (w.extractLsb' 28 4))
  | 0x32 => some (.mcast (w.extractLsb' 50 6) (w.extractLsb' 44 6) (w.extractLsb' 38 6) (w.extractLsb' 32 6) (w.extractLsb' 0 20) (w.extractLsb' 28 4))
  | 0x33 => some (.acSet (w.extractLsb' 50 6) (w.extractLsb' 44 6) (w.getLsbD 20) (w.extractLsb' 0 4))
  | 0x34 => some (.acAdd (w.extractLsb' 50 6) (w.extractLsb' 44 6) (w.extractLsb' 28 4))
  | 0x35 => some (.acWait (w.extractLsb' 0 4))
  | 0x38 => some (.kvChk (w.extractLsb' 50 6) (w.extractLsb' 44 6) (w.extractLsb' 38 6) (w.getLsbD 20) (w.extractLsb' 0 16) (w.extractLsb' 28 4))
  | 0x40 => some (.rngIns (w.extractLsb' 50 6) (w.extractLsb' 44 6) (w.extractLsb' 38 6) (w.extractLsb' 28 4))
  | 0x41 => some (.rngDel (w.extractLsb' 50 6) (w.extractLsb' 44 6) (w.extractLsb' 38 6) (w.extractLsb' 28 4))
  | 0x42 => some (.rngSplit (w.extractLsb' 50 6) (w.extractLsb' 44 6) (w.extractLsb' 38 6) (w.extractLsb' 28 4))
  | 0x43 => some (.rngMerge (w.extractLsb' 50 6) (w.extractLsb' 44 6) (w.extractLsb' 38 6) (w.extractLsb' 28 4))
  | 0x44 => some (.rngInv (w.extractLsb' 50 6) (w.extractLsb' 44 6) (w.extractLsb' 38 6) (w.extractLsb' 32 6) (w.getLsbD 20) (w.extractLsb' 28 4))
  | 0x45 => some (.rngReloc (w.extractLsb' 50 6) (w.extractLsb' 44 6) (w.extractLsb' 38 6) (w.extractLsb' 32 6) (w.extractLsb' 28 4))
  | 0x46 =>
    match (w.extractLsb' 20 2).toNat with
    | 0 => some (.rngResOr (w.extractLsb' 50 6) (w.extractLsb' 44 6) (w.extractLsb' 38 6) (w.extractLsb' 32 6) (w.extractLsb' 28 4))
    | 1 => some (.rngResAndn (w.extractLsb' 50 6) (w.extractLsb' 44 6) (w.extractLsb' 38 6) (w.extractLsb' 32 6) (w.extractLsb' 28 4))
    | 2 => some (.rngResWr (w.extractLsb' 50 6) (w.extractLsb' 44 6) (w.extractLsb' 38 6) (w.extractLsb' 32 6) (w.extractLsb' 28 4))
    | _ => none
  | 0x47 => some (.rngRd (w.extractLsb' 50 6) (w.extractLsb' 44 6) (w.extractLsb' 38 6) (w.extractLsb' 32 6) (w.extractLsb' 28 4))
  | _ => none

/-- The VEC map (R137). -/
def candidateVec (w : Word) : Option Instr :=
  match (w.extractLsb' 56 8).toNat with
  | 0x01 => some (.vadd (w.extractLsb' 50 6) (w.extractLsb' 44 6) (w.extractLsb' 38 6) (w.extractLsb' 29 3) ⟨w.extractLsb' 26 3, w.getLsbD 25⟩ (w.getLsbD 24) (w.extractLsb' 20 4))
  | 0x02 => some (.vsub (w.extractLsb' 50 6) (w.extractLsb' 44 6) (w.extractLsb' 38 6) (w.extractLsb' 29 3) ⟨w.extractLsb' 26 3, w.getLsbD 25⟩ (w.getLsbD 24) (w.extractLsb' 20 4))
  | 0x03 => some (.vmul (w.extractLsb' 50 6) (w.extractLsb' 44 6) (w.extractLsb' 38 6) (w.extractLsb' 29 3) ⟨w.extractLsb' 26 3, w.getLsbD 25⟩ (w.getLsbD 24) (w.extractLsb' 20 4))
  | 0x04 => some (.vfma (w.extractLsb' 50 6) (w.extractLsb' 44 6) (w.extractLsb' 38 6) (w.extractLsb' 32 6) (w.extractLsb' 29 3) ⟨w.extractLsb' 26 3, w.getLsbD 25⟩ (w.getLsbD 24) (w.extractLsb' 20 4))
  | 0x05 => some (.vmin (w.extractLsb' 50 6) (w.extractLsb' 44 6) (w.extractLsb' 38 6) (w.extractLsb' 29 3) ⟨w.extractLsb' 26 3, w.getLsbD 25⟩ (w.getLsbD 24) (w.extractLsb' 20 4))
  | 0x06 => some (.vmax (w.extractLsb' 50 6) (w.extractLsb' 44 6) (w.extractLsb' 38 6) (w.extractLsb' 29 3) ⟨w.extractLsb' 26 3, w.getLsbD 25⟩ (w.getLsbD 24) (w.extractLsb' 20 4))
  | 0x07 => some (.vabs (w.extractLsb' 50 6) (w.extractLsb' 44 6) (w.extractLsb' 29 3) ⟨w.extractLsb' 26 3, w.getLsbD 25⟩ (w.extractLsb' 20 4))
  | 0x08 => some (.vneg (w.extractLsb' 50 6) (w.extractLsb' 44 6) (w.extractLsb' 29 3) ⟨w.extractLsb' 26 3, w.getLsbD 25⟩ (w.extractLsb' 20 4))
  | 0x10 => some (.vexp2 (w.extractLsb' 50 6) (w.extractLsb' 44 6) (w.extractLsb' 29 3) ⟨w.extractLsb' 26 3, w.getLsbD 25⟩ (w.extractLsb' 20 4))
  | 0x11 => some (.vlog2 (w.extractLsb' 50 6) (w.extractLsb' 44 6) (w.extractLsb' 29 3) ⟨w.extractLsb' 26 3, w.getLsbD 25⟩ (w.extractLsb' 20 4))
  | 0x12 => some (.vrcp (w.extractLsb' 50 6) (w.extractLsb' 44 6) (w.extractLsb' 29 3) ⟨w.extractLsb' 26 3, w.getLsbD 25⟩ (w.extractLsb' 20 4))
  | 0x13 => some (.vrsq (w.extractLsb' 50 6) (w.extractLsb' 44 6) (w.extractLsb' 29 3) ⟨w.extractLsb' 26 3, w.getLsbD 25⟩ (w.extractLsb' 20 4))
  | 0x14 => some (.vtanh (w.extractLsb' 50 6) (w.extractLsb' 44 6) (w.extractLsb' 29 3) ⟨w.extractLsb' 26 3, w.getLsbD 25⟩ (w.extractLsb' 20 4))
  | 0x15 => some (.vsig (w.extractLsb' 50 6) (w.extractLsb' 44 6) (w.extractLsb' 29 3) ⟨w.extractLsb' 26 3, w.getLsbD 25⟩ (w.extractLsb' 20 4))
  | 0x16 => some (.vsin (w.extractLsb' 50 6) (w.extractLsb' 44 6) (w.extractLsb' 29 3) ⟨w.extractLsb' 26 3, w.getLsbD 25⟩ (w.extractLsb' 20 4))
  | 0x18 => some (.vcmp (w.extractLsb' 50 6) (w.extractLsb' 44 6) (w.extractLsb' 38 6) (w.extractLsb' 29 3) (w.getLsbD 24) (w.extractLsb' 20 3))
  | 0x19 => some (.vsel (w.extractLsb' 50 6) (w.extractLsb' 44 6) (w.extractLsb' 38 6) (w.extractLsb' 32 6) (w.extractLsb' 29 3))
  | 0x1A => some (.vcvt (w.extractLsb' 50 6) (w.extractLsb' 44 6) (w.extractLsb' 29 3) ⟨w.extractLsb' 26 3, w.getLsbD 25⟩ (w.extractLsb' 20 4))
  | 0x1B => some (.cvtPk (w.extractLsb' 50 6) (w.extractLsb' 44 6) (w.extractLsb' 29 3) ⟨w.extractLsb' 26 3, w.getLsbD 25⟩ (w.extractLsb' 20 4) (w.extractLsb' 0 3))
  | 0x1C => some (.cvtUp (w.extractLsb' 50 6) (w.extractLsb' 44 6) (w.extractLsb' 29 3) ⟨w.extractLsb' 26 3, w.getLsbD 25⟩ (w.extractLsb' 20 4) (w.extractLsb' 0 3))
  | 0x1D => some (.vq (w.extractLsb' 50 6) (w.extractLsb' 44 6) (w.extractLsb' 38 6) (w.extractLsb' 29 3) ⟨w.extractLsb' 26 3, w.getLsbD 25⟩ (w.extractLsb' 20 4) (w.extractLsb' 0 3))
  | 0x1E => some (.vdq (w.extractLsb' 50 6) (w.extractLsb' 44 6) (w.extractLsb' 29 3) ⟨w.extractLsb' 26 3, w.getLsbD 25⟩ (w.getLsbD 24) (w.extractLsb' 20 4) (w.extractLsb' 0 3))
  | 0x20 => some (.vred (w.extractLsb' 50 6) (w.extractLsb' 44 6) (w.extractLsb' 29 3) ⟨w.extractLsb' 26 3, w.getLsbD 25⟩ (w.extractLsb' 20 4) (w.extractLsb' 0 2) (w.extractLsb' 2 11))
  | 0x21 => some (.vcred (w.extractLsb' 50 6) (w.extractLsb' 44 6) (w.extractLsb' 29 3) ⟨w.extractLsb' 26 3, w.getLsbD 25⟩ (w.extractLsb' 20 4) (w.extractLsb' 0 2) (w.extractLsb' 2 6))
  | 0x22 =>
    if w.getLsbD 20 then some (.vbcastEl (w.extractLsb' 50 6) (w.extractLsb' 44 6) (w.extractLsb' 29 3) (w.extractLsb' 0 11))
    else some (.vbcastRow (w.extractLsb' 50 6) (w.extractLsb' 44 6) (w.extractLsb' 29 3) (w.extractLsb' 0 6))
  | 0x23 => some (.vtr (w.extractLsb' 50 6) (w.extractLsb' 44 6) (w.extractLsb' 0 3))
  | 0x24 =>
    if w.getLsbD 21 then some (.vshRows (w.extractLsb' 50 6) (w.extractLsb' 44 6) (w.extractLsb' 38 6) (w.extractLsb' 29 3) (w.getLsbD 20) (w.extractLsb' 0 20))
    else some (.vsh (w.extractLsb' 50 6) (w.extractLsb' 44 6) (w.extractLsb' 38 6) (w.extractLsb' 29 3) (w.getLsbD 20) (w.extractLsb' 0 20))
  | 0x25 => some (.vperm (w.extractLsb' 50 6) (w.extractLsb' 44 6) (w.extractLsb' 38 6) (w.extractLsb' 29 3))
  | 0x26 => some (.vmov (w.extractLsb' 50 6) (w.extractLsb' 44 6) (w.extractLsb' 29 3))
  | 0x27 => some (.vzero (w.extractLsb' 50 6) (w.extractLsb' 29 3) (w.extractLsb' 20 4))
  | 0x28 => some (.viadd (w.extractLsb' 50 6) (w.extractLsb' 44 6) (w.extractLsb' 38 6) (w.extractLsb' 29 3) (w.getLsbD 24) (w.getLsbD 20))
  | 0x29 => some (.vimul (w.extractLsb' 50 6) (w.extractLsb' 44 6) (w.extractLsb' 38 6) (w.extractLsb' 29 3) (w.getLsbD 24) (w.getLsbD 20))
  | 0x2A => some (.vand (w.extractLsb' 50 6) (w.extractLsb' 44 6) (w.extractLsb' 38 6) (w.extractLsb' 29 3) (w.getLsbD 24))
  | 0x2B => some (.vor (w.extractLsb' 50 6) (w.extractLsb' 44 6) (w.extractLsb' 38 6) (w.extractLsb' 29 3) (w.getLsbD 24))
  | 0x2C => some (.vxor (w.extractLsb' 50 6) (w.extractLsb' 44 6) (w.extractLsb' 38 6) (w.extractLsb' 29 3) (w.getLsbD 24))
  | 0x2D => some (.vshl (w.extractLsb' 50 6) (w.extractLsb' 44 6) (w.extractLsb' 38 6) (w.extractLsb' 29 3) (w.getLsbD 24))
  | 0x2E => some (.vshr (w.extractLsb' 50 6) (w.extractLsb' 44 6) (w.extractLsb' 38 6) (w.extractLsb' 29 3) (w.getLsbD 24) (w.getLsbD 21))
  | 0x2F => some (.vidot (w.extractLsb' 50 6) (w.extractLsb' 44 6) (w.extractLsb' 38 6) (w.extractLsb' 32 6) (w.extractLsb' 29 3) (w.getLsbD 24) (w.extractLsb' 20 4))
  | 0x30 => some (.vsmMerge (w.extractLsb' 50 6) (w.extractLsb' 44 6) (w.extractLsb' 29 3) ⟨w.extractLsb' 26 3, w.getLsbD 25⟩)
  | 0x31 => some (.chain (w.extractLsb' 50 6) (w.extractLsb' 44 6))
  | 0x32 => some (.shp (w.getLsbD 20) (w.extractLsb' 44 6) (w.extractLsb' 0 7) (w.extractLsb' 7 11))
  | 0x33 => some (.fmtTag (w.extractLsb' 50 6) (w.extractLsb' 20 4))
  | 0x38 =>
    match (w.extractLsb' 20 2).toNat with
    | 0 => some (.rcwSet (w.extractLsb' 50 6) (w.extractLsb' 44 6) (w.extractLsb' 29 3))
    | 1 => some (.rcwSetSt (w.extractLsb' 50 6) (w.extractLsb' 29 3) (w.extractLsb' 0 3))
    | 2 => some (.rcwSetCp (w.extractLsb' 50 6) (w.extractLsb' 44 6) (w.extractLsb' 29 3))
    | _ => none
  | 0x39 => some (.rcwUpd (w.extractLsb' 50 6) (w.extractLsb' 44 6) (w.extractLsb' 29 3) (w.extractLsb' 20 3) (w.extractLsb' 23 2) (w.extractLsb' 0 10))
  | 0x3A => some (.rcwCnt (w.extractLsb' 50 6) (w.extractLsb' 44 6) (w.extractLsb' 29 3) (w.getLsbD 20) (w.extractLsb' 0 6))
  | 0x3B => some (.rcwMask (w.extractLsb' 50 3) (w.extractLsb' 44 6) (w.extractLsb' 0 8))
  | 0x3C => some (.ruleSet (w.extractLsb' 44 6) (w.extractLsb' 0 3))
  | 0x40 => some (.cmxPack (w.extractLsb' 50 6) (w.extractLsb' 44 6) (w.extractLsb' 38 6) (w.extractLsb' 32 6) (w.getLsbD 24) (w.extractLsb' 0 5) (w.extractLsb' 8 8))
  | 0x41 => some (.cmxRest (w.extractLsb' 50 6) (w.extractLsb' 44 6) (w.extractLsb' 38 6) (w.extractLsb' 32 6) (w.getLsbD 24) (w.extractLsb' 0 5))
  | 0x42 => some (.kvSv (w.extractLsb' 50 6) (w.extractLsb' 44 6) (w.extractLsb' 38 6) (w.extractLsb' 32 6) ⟨w.extractLsb' 28 4, w.extractLsb' 26 2, w.getLsbD 25⟩)
  | 0x43 => some (.ntfX (w.extractLsb' 50 6) (w.extractLsb' 44 6) (w.extractLsb' 38 3) (w.extractLsb' 32 6) (w.extractLsb' 0 8) (w.extractLsb' 28 4))
  | 0x44 => some (.moeRoute (w.extractLsb' 50 6) (w.extractLsb' 44 6) (w.extractLsb' 38 6) (w.extractLsb' 0 4) (w.getLsbD 4) (w.getLsbD 5) ⟨w.extractLsb' 28 4, w.extractLsb' 26 2, w.getLsbD 25⟩)
  | _ => none

/-- The MTX map (R138). -/
def candidateMtx (w : Word) : Option Instr :=
  match (w.extractLsb' 56 8).toNat with
  | 0x01 =>
    match (w.extractLsb' 30 2).toNat with
    | 0 => some (.mmIp (w.extractLsb' 50 6) (w.extractLsb' 44 6) (w.extractLsb' 38 6) (w.extractLsb' 32 6) (w.getLsbD 29) (w.getLsbD 28) (w.extractLsb' 24 4) (w.getLsbD 16) (w.getLsbD 17) (w.getLsbD 18) (w.extractLsb' 0 16))
    | 1 => some (.mmOp (w.extractLsb' 50 6) (w.extractLsb' 44 6) (w.extractLsb' 38 6) (w.extractLsb' 32 6) (w.getLsbD 29) (w.getLsbD 28) (w.extractLsb' 24 4) (w.getLsbD 16) (w.getLsbD 17) (w.getLsbD 18) (w.extractLsb' 0 16))
    | 2 => some (.mmRw (w.extractLsb' 44 6) (w.extractLsb' 38 6) (w.extractLsb' 32 6) (w.getLsbD 29) (w.getLsbD 28) (w.extractLsb' 24 4) (w.getLsbD 16) (w.getLsbD 17) (w.getLsbD 18) (w.extractLsb' 0 16))
    | _ => none
  | 0x02 =>
    match (w.extractLsb' 30 2).toNat with
    | 0 => some (.mmZIp (w.extractLsb' 50 6) (w.extractLsb' 44 6) (w.extractLsb' 38 6) (w.extractLsb' 32 6) (w.getLsbD 29) (w.getLsbD 28) (w.extractLsb' 24 4) (w.getLsbD 16) (w.getLsbD 17) (w.getLsbD 18) (w.extractLsb' 0 16))
    | 2 => some (.mmZRw (w.extractLsb' 44 6) (w.extractLsb' 38 6) (w.extractLsb' 32 6) (w.getLsbD 29) (w.getLsbD 28) (w.extractLsb' 24 4) (w.getLsbD 16) (w.getLsbD 17) (w.getLsbD 18) (w.extractLsb' 0 16))
    | _ => none
  | 0x03 => some (.mmMerge (w.extractLsb' 50 6) (w.extractLsb' 38 6) (w.extractLsb' 32 6) (w.extractLsb' 16 4) (w.getLsbD 20) (w.extractLsb' 0 16))
  | 0x04 => some (.mmOut (w.extractLsb' 38 3) (w.extractLsb' 32 6))
  | 0x08 => some (.bmpMk (w.extractLsb' 44 6) (w.extractLsb' 38 6) (w.extractLsb' 32 6) (w.getLsbD 16) (w.getLsbD 17) (w.extractLsb' 0 16))
  | 0x09 => some (.bmpCnt (w.extractLsb' 38 6) (w.extractLsb' 32 6) (w.getLsbD 16) (w.extractLsb' 0 16))
  | 0x0A =>
    if w.getLsbD 17 then some (.spzPackB (w.extractLsb' 44 6) (w.extractLsb' 38 6) (w.extractLsb' 32 6) (w.getLsbD 16) (w.extractLsb' 0 16))
    else some (.spzPack (w.extractLsb' 50 6) (w.extractLsb' 44 6) (w.extractLsb' 32 6) (w.getLsbD 16))
  | 0x0B => some (.spzUnpk (w.extractLsb' 50 6) (w.extractLsb' 44 6) (w.extractLsb' 32 6) (w.getLsbD 16))
  | _ => none

/-- The CTL map (R135). -/
def candidateCtl (w : Word) : Option Instr :=
  match (w.extractLsb' 56 8).toNat with
  | 0x01 => some (.br (w.extractLsb' 50 6) (w.extractLsb' 32 3) (w.extractLsb' 0 32))
  | 0x02 => some (.jmp (w.extractLsb' 0 32))
  | 0x03 => some (.jr (w.extractLsb' 50 6) (w.extractLsb' 0 32))
  | 0x04 =>
    if w.getLsbD 32 then some (.callI (w.extractLsb' 50 6) (w.extractLsb' 44 6) (w.extractLsb' 0 32))
    else some (.call (w.extractLsb' 50 6) (w.extractLsb' 0 32))
  | 0x05 => some (.ret (w.extractLsb' 50 6))
  | 0x06 => some (.loop (w.extractLsb' 50 6) (w.extractLsb' 44 2) (w.extractLsb' 32 12) (w.extractLsb' 0 32))
  | 0x07 => some (.loopLv (w.extractLsb' 44 2) (w.extractLsb' 0 32))
  | 0x08 => some (.yld (w.extractLsb' 0 16))
  | 0x09 => some .done
  | 0x0A => some (.halt (w.extractLsb' 0 16))
  | 0x10 => some (.bar (w.extractLsb' 32 3) (w.extractLsb' 35 3) (w.extractLsb' 0 4))
  | 0x11 => some (.barArr (w.extractLsb' 32 3) (w.extractLsb' 35 3) (w.extractLsb' 0 4))
  | 0x12 => some (.barWt (w.extractLsb' 35 3) (w.extractLsb' 0 4))
  | 0x13 =>
    match (w.extractLsb' 32 2).toNat with
    | 0 => some (.flagSet (w.extractLsb' 0 8))
    | 1 => some (.flagSetCore (w.extractLsb' 50 6) (w.extractLsb' 0 8))
    | 2 => some (.flagSetRmt (w.extractLsb' 50 6) (w.extractLsb' 36 4) (w.extractLsb' 0 8))
    | _ => none
  | 0x14 => some (.flagClr (w.extractLsb' 0 16))
  | 0x18 => some (.ctlRd (w.extractLsb' 50 6) (w.extractLsb' 0 8))
  | 0x19 => some (.ctlWr (w.extractLsb' 50 6) (w.extractLsb' 0 8))
  | 0x20 => some (.prePt (w.extractLsb' 0 32))
  | 0x21 => some (.trap (w.extractLsb' 0 16))
  | 0x22 => some (.rte (w.extractLsb' 50 6))
  | 0x28 => some .ifence
  | 0x29 => some (.toll (w.extractLsb' 50 6) (w.extractLsb' 0 24))
  | 0x2A => some (.trcMk (w.extractLsb' 0 16))
  | 0x2B => some .nop
  | _ => none

/-- Whether S0 lacks the opcode: the divider is in S1 only (R134). -/
def s1Only : Instr → Bool
  | .div .. | .divu .. | .rem .. | .remu .. => true
  | _ => false

/-- The candidate of a slot (R134 to R138). -/
def candidate (sl : Slot) (w : Word) : Option Instr :=
  match sl with
  | .s0 => match candidateS w with
    | some i => if s1Only i then none else some i
    | none => none
  | .s1 => candidateS w
  | .mem => candidateMem w
  | .vec => candidateVec w
  | .mtx => candidateMtx w
  | .ctl => candidateCtl w

/-- The decoder of one slot word (R130 to R139). -/
def decodeSlot (sl : Slot) (w : Word) : Except DecodeError Instr :=
  match candidate sl w with
  | none => .error .reservedOpcode
  | some i =>
    if encode i ≠ some w then .error .reservedField
    else if WellFormed i then .ok i
    else .error .reservedValue

/-- The slots whose map lists an instruction; none for an event (R134 to R138). -/
def slotsOf (i : Instr) : List Slot :=
  match i with
  | .add .. | .sub .. | .mul .. | .mulh .. | .mulhu .. | .and .. | .or .. | .xor .. | .andn .. | .shl ..
  | .shr .. | .sra .. | .rotl .. | .min .. | .max .. | .minu .. | .maxu .. | .cmp .. | .sel .. | .clz ..
  | .ctz .. | .popc .. | .ext .. | .ins .. | .li .. | .lih .. | .addi .. | .mov .. | .lea .. | .fadd ..
  | .fsub .. | .fmul .. | .fma .. | .fmin .. | .fmax .. | .fcmp .. | .fcvt .. => [.s0, .s1]
  | .div .. | .divu .. | .rem .. | .remu .. => [.s1]
  | .ld .. | .st .. | .ldX .. | .stX .. | .ldXg .. | .xpSet .. | .tagLk .. | .tagFl .. | .tagEv ..
  | .tagEvWb .. | .tagInv .. | .spmCarve .. | .qBind .. | .qAdv .. | .qAdvRp .. | .qWait .. | .qDrain ..
  | .cp .. | .cpKvchk .. | .cpG .. | .cpS .. | .pfT .. | .pin .. | .unpin .. | .tdMk .. | .tdRel .. | .am ..
  | .red .. | .drain .. | .put .. | .get .. | .mcast .. | .acSet .. | .acAdd .. | .acWait .. | .kvChk ..
  | .rngIns .. | .rngDel .. | .rngSplit .. | .rngMerge .. | .rngInv .. | .rngReloc .. | .rngResOr ..
  | .rngResAndn .. | .rngResWr .. | .rngRd .. => [.mem]
  | .vadd .. | .vsub .. | .vmul .. | .vfma .. | .vmin .. | .vmax .. | .vabs .. | .vneg .. | .vexp2 ..
  | .vlog2 .. | .vrcp .. | .vrsq .. | .vtanh .. | .vsig .. | .vsin .. | .vcmp .. | .vsel .. | .vcvt ..
  | .cvtPk .. | .cvtUp .. | .vq .. | .vdq .. | .vred .. | .vcred .. | .vbcastRow .. | .vbcastEl .. | .vtr ..
  | .vsh .. | .vshRows .. | .vperm .. | .vmov .. | .vzero .. | .viadd .. | .vimul .. | .vand .. | .vor ..
  | .vxor .. | .vshl .. | .vshr .. | .vidot .. | .vsmMerge .. | .chain .. | .shp .. | .fmtTag .. | .rcwSet ..
  | .rcwSetSt .. | .rcwSetCp .. | .rcwUpd .. | .rcwCnt .. | .rcwMask .. | .ruleSet .. | .cmxPack ..
  | .cmxRest .. | .kvSv .. | .ntfX .. | .moeRoute .. => [.vec]
  | .mmIp .. | .mmOp .. | .mmRw .. | .mmZIp .. | .mmZRw .. | .mmMerge .. | .mmOut .. | .bmpMk .. | .bmpCnt ..
  | .spzPack .. | .spzPackB .. | .spzUnpk .. => [.mtx]
  | .br .. | .jmp .. | .jr .. | .call .. | .callI .. | .ret .. | .loop .. | .loopLv .. | .yld .. | .done ..
  | .halt .. | .bar .. | .barArr .. | .barWt .. | .flagSet .. | .flagSetCore .. | .flagSetRmt ..
  | .flagClr .. | .ctlRd .. | .ctlWr .. | .prePt .. | .trap .. | .rte .. | .ifence .. | .toll .. | .trcMk ..
  | .nop .. => [.ctl]
  | .bundleIssue .. | .pendingStop .. | .taskComplete .. | .loadDataReturn .. | .carveComplete ..
  | .tagFillDone .. | .streamRowFetch .. | .streamRowWrite .. | .copyComplete .. | .commandSuspend ..
  | .relocChunkMove .. | .rangeCmdComplete .. | .chainComplete .. | .cmxStart .. | .cmxComplete ..
  | .routePassStart .. | .routePassComplete .. | .mtxComplete .. | .memoryPortGrant .. | .rangeWalk ..
  | .routerGrant .. | .slackDecrement .. | .flagPacketArrive .. | .noticeArrive .. | .acaddArrive ..
  | .contribCombine .. | .reductionComplete .. | .fabricTimeout .. | .fabricDiscard .. | .flitRetransmit ..
  | .portFailure .. | .roceInboundWrite .. | .roceInboundRead .. | .roceInboundAtomic ..
  | .roceUnsupportedOp .. | .roceNakReceived .. | .qpError .. | .doorbellWrite .. | .launchValidate ..
  | .launchStart .. | .phaseStart .. | .taskBind .. | .raggedClaim .. | .computeStepClose ..
  | .commStepClose .. | .launchComplete .. | .launchEnd .. | .launchSuspend .. | .launchResume ..
  | .tollRefill .. | .clockEpoch .. | .thermalTrip .. | .powerOnReset .. | .powerOnComplete ..
  | .firmwareAuth .. | .handlerStart .. | .prewaitExpiry .. | .saveSequence .. | .restore ..
  | .fillDispatch .. | .fillSettle .. | .fillFail .. | .spmUnitGate .. | .spmUnitWake .. | .wayGate ..
  | .wayPowerUp .. | .traceFreeze .. | .admitReq .. | .retire .. | .abort .. | .preempt .. | .qpset ..
  | .winset .. | .rgset .. | .regrd .. | .regwr .. | .spgWrite .. | .slwgWrite .. | .latecntClear ..
  | .pwrctlWrite .. | .trippedClear .. | .trcrd .. | .fusesvn .. | .attest .. | .loadfw .. | .atomicReply ..
  | .fabricCommandComplete .. | .exitSaveComplete .. | .streamBindComplete .. | .peerAcknowledgement ..
  | .congestionNotificationReceipt .. => []

/-! ### Formats by opcode, for the address field of code 11 (R116, R130) -/

/-- MEM opcodes of format M; the map's others are of format E (R136). -/
def memFormatM : List Nat :=
  [0x01, 0x02, 0x03, 0x04, 0x05, 0x06, 0x08, 0x0B, 0x11, 0x12, 0x21, 0x2C, 0x35]

/-- VEC opcodes of format E; the map's others are of format V (R137). -/
def vecFormatE : List Nat := [0x31, 0x40, 0x41, 0x42, 0x43, 0x44]

/-- The format of a slot word by its opcode (R134 to R138). -/
def formatOf (sl : Slot) (w : Word) : Format :=
  let op := (w.extractLsb' 56 8).toNat
  match sl with
  | .s0 | .s1 => if 0x30 ≤ op && op ≤ 0x37 then .f else .s
  | .mem => if memFormatM.contains op then .m else .e
  | .vec => if vecFormatE.contains op then .e else .v
  | .mtx => .x
  | .ctl => .c

/-- Width of a format's address field; format F has none (R130). -/
def addressFieldWidth : Format → Nat
  | .f => 0
  | .s | .m | .c => 32
  | .e | .v => 20
  | .x => 16

/-- The word that code 11 executes: the address field advanced modulo its width, every other bit kept (R116). -/
def deltaWord (sl : Slot) (w dlt : Word) : Option Word :=
  match formatOf sl w with
  | .f => none
  | .s | .m | .c => some (w.extractLsb' 32 32 ++ (w.extractLsb' 0 32 + dlt.extractLsb' 0 32))
  | .e | .v => some (w.extractLsb' 20 44 ++ (w.extractLsb' 0 20 + dlt.extractLsb' 0 20))
  | .x => some (w.extractLsb' 16 48 ++ (w.extractLsb' 0 16 + dlt.extractLsb' 0 16))

/-! ### The header -/

/-- The fields of a bundle header (R110); `pres` lists the presence codes in slot order. -/
structure Header where
  pres : List (BitVec 2)
  sync : BitVec 16
  cons : Bool
  gap : BitVec 3
  sw : Bool
  land : Bool
  trc : Bool
deriving DecidableEq, Repr

/-- The check byte of a header's low seven bytes (R111). -/
def checkByte (w : Word) : Byte :=
  ~~~ (w.extractLsb' 0 8 ^^^ w.extractLsb' 8 8 ^^^ w.extractLsb' 16 8 ^^^ w.extractLsb' 24 8 ^^^
    w.extractLsb' 32 8 ^^^ w.extractLsb' 40 8 ^^^ w.extractLsb' 48 8)

/-- CHK satisfies R111. -/
def chkOk (w : Word) : Bool := w.extractLsb' 56 8 == checkByte w

/-- A header is valid when CHK holds, RSV is zero and the mask does not name f12 (R112). -/
def headerValid (w : Word) : Bool := chkOk w && w.extractLsb' 0 21 == 0 && !w.getLsbD 40

/-- The pool guard (R112). -/
def isPoolGuard (w : Word) : Bool := chkOk w && w.extractLsb' 0 21 == 0x1FFFFF && w.extractLsb' 44 12 == 0

/-- The fields of a header (R110). -/
def headerOf (w : Word) : Header :=
  { pres := [w.extractLsb' 54 2, w.extractLsb' 52 2, w.extractLsb' 50 2, w.extractLsb' 48 2,
      w.extractLsb' 46 2, w.extractLsb' 44 2]
    sync := w.extractLsb' 28 16
    cons := w.getLsbD 27
    gap := w.extractLsb' 24 3
    sw := w.getLsbD 23
    land := w.getLsbD 22
    trc := w.getLsbD 21 }

/-- The slots in slot order (R108). -/
def allSlots : List Slot := [.s0, .s1, .mem, .vec, .mtx, .ctl]

/-- The number of a slot (R108). -/
def Slot.idx : Slot → Nat
  | .s0 => 0 | .s1 => 1 | .mem => 2 | .vec => 3 | .mtx => 4 | .ctl => 5

/-- How many slot words follow a header (R108). -/
def Header.words (h : Header) : Nat := (h.pres.filter (· == 1)).length

/-- The header with presence codes in slot order and its check byte (R110, R111). -/
def encodeHeader (p0 p1 pm pv px pc : BitVec 2) (sync : BitVec 16) (cons : Bool) (gap : BitVec 3)
    (sw land trc : Bool) : Word :=
  let low : BitVec 56 := p0 ++ p1 ++ pm ++ pv ++ px ++ pc ++ sync ++ BitVec.ofBool cons ++ gap ++ BitVec.ofBool sw ++
    BitVec.ofBool land ++ BitVec.ofBool trc ++ 0#21
  checkByte (low.setWidth 64) ++ low

/-- Doubleword `k` of a number whose bit 0 is the first doubleword's least significant bit. -/
def dwordOf (w k : Nat) : Word := BitVec.ofNat 64 (w >>> (64 * k))

/-- The slot of the first new word of a header. -/
def firstNewSlot (h : Header) : Option Slot :=
  ((allSlots.zip h.pres).find? (fun p => p.2 == 1)).map (·.1)

/-- The instruction the decoder reads from a bundle whose bits are `w`: its first new slot word. Bits above `nbits`
are zero. -/
def decodeTableWord (nbits w : Nat) : Option Instr :=
  let b := w % 2 ^ nbits
  let hw := dwordOf b 0
  if headerValid hw then
    match firstNewSlot (headerOf hw) with
    | none => none
    | some sl => match decodeSlot sl (dwordOf b 1) with
      | .ok i => some i
      | .error _ => none
  else none

end Sys2Proof
end

