-- ==== Sys2Proof/Machine/State.lean ====
section
/-! DEFINITION. The state of the device as plain data, the reasons a step stops, and the state after power-on reset.
A table `Tbl` lists what differs from a default; every item of R15 and of the chapters on translation, launches,
engines, fabric, traps and the module stands here. -/

namespace Sys2Proof.Machine

/-- A finite table by number; a number it does not list holds the default its reader names. -/
abbrev Tbl (α : Type) := List (Nat × α)

/-- Why the model stops where the manual gives no effect. -/
inductive Fault where
  /-- A physical access at an address that does not exist: in no populated part of a region (R364), or in the RoCEv2
  region under no valid window (R495). The manual states no outcome. `rng.ins` refuses descriptors of such units (R366),
  so that only a table, log or window that management places or takes away leads there. Raised by every access to
  physical memory; safe. -/
  | unpopulated (pa : Nat)
deriving DecidableEq, Repr

/-- Instructions and requests whose meaning is not given. -/
inductive Refusal where
  /-- Raised by the dispatcher for an instruction that has no meaning yet; safe. -/
  | notModelled (mnemonic : String)
deriving DecidableEq, Repr

/-! ### Registers of a context -/

/-- A loop counter (R21, R173). -/
structure LoopCtr where
  count : BitVec 32
  start : BitVec 56
  stop : BitVec 56
  active : Bool
deriving DecidableEq, Repr

/-- A previous slot word and its valid bit (R114). -/
structure Psw where
  word : Word
  valid : Bool
deriving DecidableEq, Repr

/-- One field of an extraction pattern (R203). -/
structure PatField where
  tfmt : Nat
  lane : Nat
  sgn : Bool
  width : Nat
  offset : Nat
deriving DecidableEq, Repr

/-- An extraction pattern and its VALID bit (R55, R203). -/
structure Pattern where
  valid : Bool
  period : Nat
  fields : List PatField
deriving DecidableEq, Repr

/-- A bound stream register (R22, R222 to R228). Row counters run over the whole stream: `fetched` rows have
landed or, in an out-stream, been appended; `rp` is the next row read; `freed` rows have left the buffer. -/
structure Stream where
  out : Bool
  win : Bool
  base : Nat
  len : Nat
  total : Nat
  fetched : Nat
  rp : Nat
  freed : Nat
  consumed : Nat          -- rows consumed or written, for the token of q.drain
  desc : BitVec 512
  slk : BitVec 10
  evp : BitVec 2
  na : Bool
  seq : Nat               -- command sequence number of the q.bind
  drain : Option Nat      -- command sequence number of the q.drain, once unbound
  susp : Bool             -- its unit met a translation fault whose stop is not handled (R198)
  dead : Bool             -- its unit met another fault, which ended its transfers (R198)
deriving DecidableEq, Repr

/-- A fixed-latency write in flight. A tile register counts part by part (R142). -/
inductive Write where
  | scalar (r : Nat) (v : Word)
  | mask (p : Nat) (v : Word)
  | count (n : Nat) (v : BitVec 32)
  | loopSet (n : Nat) (start stop : BitVec 56) (active : Bool)
  | ctl (crn : Nat) (v : Word)
  | tileRow (x i : Nat) (data : Row) (sc : BitVec 128)
  | tileRcw (x i : Nat) (w : BitVec 32)
  | tileTag (x : Nat) (t : BitVec 4)
  | tileSsc (x : Nat) (v : BitVec 128)
  | pattern (n : Nat) (p : Pattern)
  | rules (n : Nat) (r : List (BitVec 64))
  | advance (q : Nat) (rp : Bool) (n : Int)
  | tagInvalid (slot : Nat)
  | tdInvalid (off : Nat)
  | unbind (q : Nat)
deriving DecidableEq, Repr

/-- A write and the issue count from which it is visible (R141). -/
structure Pending where
  due : Nat
  w : Write
deriving DecidableEq, Repr

/-- What a trap record says of a stop, before its place in the program is added (R500, R501). -/
structure TrapInfo where
  cause : Nat
  addr : Word
  detail : Word
  index : BitVec 32
  engine : Nat
  slot : Nat
  cseq : BitVec 32
  estat : BitVec 32
  walk : List (Nat × Nat × BitVec 10) := []  -- virtual bytes that the failing access searched the directory for, with its slack (R371)
deriving DecidableEq, Repr

/-- Why a slot's effect does not come about: a trap at issue (R129), a hold (R144), or a stop of the model. -/
inductive Stop where
  | trap (t : TrapInfo)
  | hold
  | wake (core unit : Nat)   -- a hold that wakes a gated scratchpad unit (R380)
  | fault (f : Fault)
deriving DecidableEq, Repr

/-- A waiting instruction's condition (R144). -/
inductive Wait where
  | drain (scope before : Nat)  -- requests numbered below `before`
  | barrier (level id : Nat)
  | arrivals (ctr : Nat)
  | stream (q n : Nat)
  | acquire (req : Nat)         -- an atomic with ORD acq (R240)
deriving DecidableEq, Repr

/-- Which target checks a transfer applies (R126): LAND required, LAND not required, or a zero-trip loop's end. -/
inductive TargetKind where
  | land
  | plain
  | zeroTrip
deriving DecidableEq, Repr

/-- What a context is doing. -/
inductive CtxStatus where
  | free                       -- no task, no service work
  | running
  | frozen                     -- stopped by a trap, waiting for its handler (R503)
  | finishing                  -- after `done`, until the conditions of R177 hold
  | halted (code : BitVec 16)  -- after `halt` (R178)
  | returning (k : Nat)        -- after `rte`, until the handler's direct accesses have performed (R189, R360)
  | stopped                    -- stopped by the end of its launch (R418)
  | saving                     -- stopped for the save engine (R515)
deriving DecidableEq, Repr

/-- The task a context holds: its launch and its number among the phase's tasks. -/
structure TaskRef where
  launch : Nat
  task : Nat
deriving DecidableEq, Repr

/-- What the service context runs, with the context or request it serves (R503). -/
inductive Service where
  | handler (ctx : Nat)
  | save (ctx : Nat)
  | restore (ctx : Nat)
  | fill (req : Nat)
deriving DecidableEq, Repr

/-- The state of one context (R15). -/
structure Ctx where
  status : CtxStatus
  task : Option TaskRef
  asid : BitVec 16
  scalars : Tbl Word                 -- s1 to s63 (R16)
  masks : Tbl Word                   -- p0 to p7 (R19)
  loops : Tbl LoopCtr                -- lc0 to lc3 (R21)
  streams : Tbl Stream               -- bound stream registers (R22)
  flags : BitVec 16                  -- f0 to f15 (R23)
  pc : BitVec 56
  psw : Tbl Psw                      -- by slot (R114)
  shape : Word                       -- CRN 0x00 (R42)
  live : Word                        -- CRN 0x01 (R44)
  seed : BitVec 32                   -- RND.SEED (R45, R82)
  rndMode : BitVec 3                 -- RND.MODE
  swapth : Word                      -- CRN 0x03 (R44)
  pinCap : BitVec 16                 -- PINCAP.CAP (R52)
  pinUsed : BitVec 16                -- PINCAP.USED
  ten : Word                         -- CRN 0x08 (R51)
  ctxid : Word                       -- CRN 0x09 (R50)
  dlt : Tbl (BitVec 32)              -- DLT0 to DLT5 (R48)
  tc : Tbl Word                      -- TC0 to TC7 (R49)
  slkt : Tbl (BitVec 10)             -- SLKT0 to SLKT15 (R47)
  patterns : Tbl Pattern             -- XPAT0 to XPAT7 and the pattern store (R55, R205)
  rules : Tbl (List (BitVec 64))     -- rule tables (R282)
  wbase : Nat                        -- tile window (R33)
  wsize : Nat
  icount : Nat                       -- issue count (R140)
  cseq : BitVec 32                   -- the command sequence number last taken (R507)
  pend : List Pending                -- fixed-latency writes in flight, oldest first
  named : List Nat                   -- scalars named as tokens since entry (R64)
  waits : List Wait                  -- waiting instructions that hold the next bundle
  arrivals : List (Nat × Nat × Nat)  -- barrier arrivals not yet counted: level, id, requests to wait for (R180)
  ended : Bool                       -- has executed `done` (R177)
  quiet : Nat                        -- no issue before this cycle: gap, yld (R120, R176)
  lastBundle : BitVec 56             -- the last bundle executed
  target : Option TargetKind         -- the pc is a taken transfer's target, still to be checked (R126)
  fromTransfer : Bool                -- by a transfer, not at task entry
  after : List TrapInfo              -- a stop after execution kept by a save at the same bundle (R514)
  stops : List TrapInfo              -- pending engine faults, by sequence number (R499)
  unc : List TrapInfo                -- pending UNCORRECTABLE stops
  late : List TrapInfo               -- pending LATE stops
  record : Option (BitVec 512)       -- the trap record of a frozen context
  resume : BitVec 56                 -- where rte resumes
  asked : Nat                        -- when it asked for the service context: its freeze or the start of its save (R503)
  liveRec : Option Word              -- remembered liveness record (R512)
  preempt : Option Nat               -- while f15 is set: time of escalation; while frozen, the ticks left (R510)
  toSave : Option (Option Word)      -- a save to take, with the record it names; none inside for a full save
  ibuf : List Host.Cell              -- memory as of the last ifence, bind or restore: what a fetch may still see (R350)
  tollWant : Nat                     -- outstanding toll request (R191)
  tollHave : Nat                     -- reservation
  tollAge : Nat                      -- order of the request
  role : Nat                         -- role in role mode (R423)
  waitCount : Nat                    -- wait count (R423)
  lastIssue : Option Nat             -- cycle of the last issue since the launch started on the core
  swLast : Bool                      -- ranks last in the next cycle (R423)
  openedWindow : Option Nat          -- time the communication window opened, for a communication task (R417)
  window : Nat                       -- its WINDOW in ticks
deriving DecidableEq, Repr

/-! ### State of a core -/

/-- A tile register (R26). Its busy bit (R31) is set while an operation of `State.ops` lists it under `busy`. -/
structure Tile where
  rows : Tbl Row
  rcw : Tbl (BitVec 32)
  tag : BitVec 4
  bsc : Tbl (BitVec 128)
  ssc : BitVec 128
deriving DecidableEq, Repr

/-- A range table entry: a descriptor copy, its ASID and where it came from (R369). -/
structure RtEntry where
  asid : BitVec 16
  desc : BitVec 256
  pos : Nat              -- physical address of the descriptor
  used : Nat             -- time of last use
deriving DecidableEq, Repr

/-- A tag table entry (R212, R381). -/
structure TagEntry where
  pend : Bool
  asid : BitVec 16
  vtag : BitVec 45
  fill : Option (Nat × Nat)  -- the fill's context and sequence number
deriving DecidableEq, Repr

/-- An arrival counter (R243). -/
structure Arrival where
  expect : BitVec 32
  count : BitVec 32
  bitmap : BitVec 1024
  watch : Option Nat
deriving DecidableEq, Repr

/-- A carve in progress: the context and sequence number of the command and its new TU (R211). -/
structure Carve where
  ctx : Nat
  seq : Nat
  tu : Nat
deriving DecidableEq, Repr

/-- A trace record (R516). -/
structure TraceRec where
  time : BitVec 48
  cls : BitVec 4
  ctx : BitVec 3
  sub : BitVec 9
  pay : Word
deriving DecidableEq, Repr

/-- The 16 bytes of a trace record, as one number (R516). -/
def TraceRec.bits (r : TraceRec) : BitVec 128 := r.time ++ r.cls ++ r.ctx ++ r.sub ++ r.pay

/-- The row merge buffer (R316, R317): its owner while it holds a row, and the row's FP32 or INT32 words. -/
structure MergeBuf where
  owner : Option Nat
  isInt : Bool
  words : Tbl (BitVec 32)
deriving DecidableEq, Repr

/-- The state of one core. -/
structure CoreSt where
  ctxs : Tbl Ctx
  tiles : Tbl Tile
  rtask : List RtEntry       -- range table entries 0 to 43 (R369)
  rserv : List RtEntry       -- entries 44 to 47
  tags : Tbl TagEntry        -- valid tag table entries (R212)
  tu : Nat                   -- TU (R210)
  carve : Option Carve
  ctrs : Tbl Arrival         -- arrival counters (R243)
  merge : MergeBuf
  age : BitVec 16            -- AGE (R53)
  trcctl : Word              -- TRCCTL (R54)
  spgGate : BitVec 12        -- SPG.GATE (R379)
  spgAwake : BitVec 12       -- SPG.AWAKE
  spgWake : Tbl Nat          -- units waking, with the cycle at which the wake ends (R380)
  wpa : Tbl Word             -- WPA0 to WPA3 (R509)
  wpc : Tbl Word             -- WPC0 to WPC3
  trcpost : BitVec 12
  trgval : BitVec 16
  trace : List TraceRec      -- newest first, at most 4,096 (R516)
  postLeft : Option Nat      -- records left before freezing (R518)
  balance : Nat              -- toll balance (R425)
  latecnt : BitVec 64        -- LATECNT of the core (R475)
  netslk : BitVec 64         -- NETSLK of the core (R475)
  owner : Nat                -- native mode owner (R422)
  passing : Bool             -- ownership passes to the next context that is ready (R422)
  svcReady : Nat             -- cycles the service context has been ready without issuing
  units : Tbl Nat            -- cycle from which each unit accepts its next word (R145)
  service : Option Service   -- what the service context runs (R503)
  work : List Service        -- work waiting for it, oldest first
  held : Bool                -- named by a standing PREEMPT request (R510)
deriving DecidableEq, Repr

/-! ### Asynchronous operations and requests -/

/-- An asynchronous operation of a context that has not completed (R197): an engine command, a virtual-form `ld` or
`ld.x`, an `am` or `red`, an MTX instruction or an E-format VEC command, with what it captured at issue. -/
structure Op where
  core : Nat
  ctx : Nat
  seq : Nat
  instr : Instr
  tok : Nat                  -- completion token scalar; 0 for none
  data : Nat                 -- scalar that receives data (ld, am); 0 for none
  asid : BitVec 16
  cookie : BitVec 64
  a : Word
  b : Word
  c : Word
  t : Word                   -- a further captured scalar
  pas : List Nat             -- physical address of each byte of a direct access, translated at issue (R352)
  slk : BitVec 10
  tiles : List (Nat × Tile)  -- tile registers captured at issue
  rows : Nat                 -- SHAPE.ROWS at issue
  cols : Nat                 -- SHAPE.COLS at issue
  nums : List Nat            -- further values captured at issue
  bytes : List Byte          -- scratchpad bytes read at issue
  parts : Tbl (List Byte)    -- atomic units read since, by number (R347)
  pattern : Pattern          -- extraction pattern captured at issue
  rm : Nat                   -- rounding mode resolved at issue
  seeds : List (BitVec 32)   -- generator states drawn at issue, for SR (R83)
  busy : List (Nat × Nat)    -- tile registers whose busy bit the operation holds (core, tile)
  done : List Nat            -- chunks already performed
  count : Nat                -- count so far
  started : Bool             -- started by its engine (compaction network, routing engine)
  susp : Option TrapInfo     -- suspended on a translation fault (R198)
  orphan : Bool              -- what issued it has ended: a fault of it stops nothing any more (R178, R198, R418)
  waits : List Nat           -- presence pairs the command waits for (R445)
  issued : Nat               -- time of its issue
  chunk : Nat                -- the chunk being performed, under which its accesses are known
  ending : Option (Word × Option TrapInfo) -- the token and stop it ends with, once its accesses have performed (R345)
deriving DecidableEq, Repr

/-- What an access still has to do (R194, R338). An engine's access carries the command or stream that made it, the tag
of the chunk that it belongs to, and its virtual address, under which a later run of the chunk finds it. -/
inductive ReqKind where
  | store (cells : List Host.Cell)             -- a virtual-form st or st.x
  | load (seq : Nat)                           -- the read of an ld or ld.x
  | atomic (seq : Nat) (acq : Bool)            -- an am or red, and whether later accesses wait for it (R240)
  | flag (target : Word) (mask : Byte)         -- a remote flag packet (R183)
  | read (seq tag va : Nat)                    -- an engine's read
  | write (seq tag va : Nat) (cells : List Host.Cell) -- an engine's write
  | code (seq tag key old new : Nat)           -- a change of a presence code (R439)
  | swap (seq tag key : Nat) (expected new : Word) -- one attempt at such a change outside the device (R439, R442)
deriving DecidableEq, Repr

/-- The hints of an access to a cache slice: its effective priority and no-allocate, and no-allocate as the instruction
gave it, which alone counts for a pinned line (R387, R389). -/
structure CacheHint where
  evp : BitVec 2
  na : Bool
  own : Bool
deriving DecidableEq, Repr

/-- A direct access, remote flag packet or engine access that has not been used up. -/
structure Req where
  id : Nat
  core : Nat
  ctx : Nat
  kind : ReqKind
  asid : BitVec 16           -- address space it was translated under (R353)
  pas : List Nat             -- bytes it touches
  cookie : BitVec 64
  slk : BitVec 10
  after : List Nat           -- requests that must perform first (R338, R240)
  value : List Byte          -- data read, once performed
  performed : Bool
  hint : CacheHint
  orphan : Bool              -- what issued it has ended: a fault of it stops nothing any more (R418)
  icnt : Nat                 -- issue count of its context when it was issued (R521, type 6)
deriving DecidableEq, Repr

/-! ### Shared hardware -/

/-- A pin window (R386). -/
structure PinWin where
  owner : Option (Nat × Nat)  -- core and context
  launch : Nat
  task : Nat                  -- the task that holds it (R65)
  asid : BitVec 16
  base : Nat
  len : Nat
  mask : BitVec 64
  usedMib : Nat
deriving DecidableEq, Repr

/-- A cached line of a slice: its number, way, priority (3 pinned) and dirtiness (R385). A slice lists its lines in order
of last use, the least recent first. -/
structure Line where
  line : Nat
  way : Nat
  prio : Nat
  dirty : Bool
deriving DecidableEq, Repr

/-- A cache slice and its memory port (R382 to R391, R475). Lines hold no data: the home port's memory does (R331). -/
structure Slice where
  lines : List Line
  gate : BitVec 12           -- SLWG.GATE
  awake : BitVec 12          -- SLWG.AWAKE
  pinOver : Nat              -- pin overflow counter (R387)
  latecnt : BitVec 64
  netslk : BitVec 64
  replay : List (Nat × Nat × Word) -- replay cache: source, tag, result (R358)
deriving DecidableEq, Repr

/-- A packet in the network, with the place where it stands (R464, R469, R470). Its number is its request's, where it
has one. -/
structure NetPacket where
  id : Nat
  pkt : Packet
  data : List Byte           -- the bytes that its data flits carry
  place : NetPoint           -- the queue it stands in
  input : Nat                -- input of that point
  lateAt : Option Nat        -- when it became late
  sent : Nat                 -- time of its first send
  owed : Nat                 -- wraps of QRES whose decrease of SLACK is still due (R469)
  op : Option (Nat × Nat × Nat)  -- the engine command that sent it
  givers : List (Nat × Nat × Nat) -- of a CONTRIB packet: rank, device and core of each contribution in it (R484)
  acc : Bool                 -- it stands in the accumulators of its place (R482)
  cause : Byte               -- of a reply: the cause of its request's failure, 0 for none (R373)
  note : Option (Nat × Nat × BitVec 256) -- the completion record that it carries: queue, entry, record (R398)
  touch : Option CacheHint   -- hints of the access to a line that its grant is, where it has no request (R371, R384)
deriving DecidableEq, Repr

/-- A compaction command accepted by a cluster's network (R428). -/
structure CmxCmd where
  core : Nat
  ctx : Nat
  seq : Nat
deriving DecidableEq, Repr

/-- A cluster's compaction network (R428, R431, R433). -/
structure Cluster where
  queue : List CmxCmd
  running : Bool             -- the head has started
  manifest : Tbl (BitVec 32)
  used : Bool                -- compaction-used bit
  clock : Nat                -- cluster clock in MHz (R427)
  throttled : Bool           -- CLKMAP bit (R537)
deriving DecidableEq, Repr

/-- A fill request of a die's fill engine (R446). -/
structure FillReq where
  id : Nat
  key : Nat                  -- physical address of the presence byte, times 4, plus the pair's place
  descVa : Word
  desc : BitVec 512
  layer : Nat
  slot : Nat
  asid : BitVec 16
  launch : Nat
  core : Nat                 -- core that raised it
  waiters : List ((Nat × Nat × Nat) × Nat) -- commands, each with the layer and slot of its own pair (R445)
  running : Option Nat       -- core whose service context runs it
deriving DecidableEq, Repr

/-- A die: its fill engine, routing engine and power controller (R444, R456, R536). -/
structure Die where
  fills : List FillReq
  routes : List CmxCmd
  routing : Bool
  floor : BitVec 16
  budget : BitVec 16
  dlim : BitVec 16
  tmax : BitVec 8
  hot : BitVec 4
  modpwr : BitVec 16
  diepwr : BitVec 16
deriving DecidableEq, Repr

/-- A partial of a reduction group at the root: the elements from `first` on, as exact partials (R103) or FP32 nodes,
the ranks it covers, and the device and core of each contributor (R481 to R484). -/
structure Contribution where
  first : Nat
  vals : List (BitVec 384)
  givers : List (Nat × Nat × Nat)
deriving DecidableEq, Repr

/-- A reduction group: its table entry, and the partials of its open generation that have reached the root (R479,
R481). -/
structure RGroup where
  entry : BitVec 384
  parts : List Contribution
deriving DecidableEq, Repr

/-- What travels to a RoCEv2 peer (R492, R496). -/
inductive RdmaKind where
  | write (b : List Byte)
  | read (n : Nat)
  | fetchAdd (v : Word)
  | cmpSwap (expected new : Word)
deriving DecidableEq, Repr

/-- An RDMA request sent to a RoCEv2 peer and not yet acknowledged: its queue pair, the peer's address and key, and the
request it serves (R363, R495, R496). `note` names the completion record that it carries (R398). -/
structure Outbound where
  qp : Nat
  va : Word
  rkey : BitVec 32
  kind : RdmaKind
  req : Option Nat
  note : Option (Nat × Nat × BitVec 256)
deriving DecidableEq, Repr

/-- An inbound request of a RoCEv2 peer (R492, R494). -/
inductive Inbound where
  | write (r : RoceRequest) (data : List Byte)
  | read (r : RoceRequest) (len : Nat)
  | atomic (r : RoceRequest) (op : RoceAtomic)
deriving DecidableEq, Repr

/-- A fabric edge or port and its counters (R465, R490, R491). -/
structure Port where
  retrans : Nat
  failed : Bool
deriving DecidableEq, Repr

/-- Protocol events of the management log (R246, R392, R395, R398, R466, R491 to R496). -/
inductive MgmtEvent where
  | rowDup (launch : BitVec 64) (core ctr row : Nat)
  | badResolution (atw : Word)
  | badFlag (target : Word)
  | badProducer (queue : Nat)
  | doorbellFailed (queue : Nat)
  | slotUnreadable (queue entry : Nat)
  | completionFailed (queue entry : Nat) (record : BitVec 256)
  | uncorrectable (pa : Nat)
  | discarded (edge : Nat)
  | portFailed (port : Nat)
  | roceRefused (qp : Nat)
  | roceFailed (qp : Nat)
  | qpFailed (qp : Nat)
deriving DecidableEq, Repr

/-- What the management processor answers a request with (R527, R533, R534). -/
inductive Reply where
  | ok
  | notReady
  | busy
  | refused
  | value (v : Word)
  | trace (t : List (BitVec 128))               -- records of 16 bytes, oldest first (R516, R518)
  | attestation (b : List Byte)
deriving DecidableEq, Repr

/-- What has left the device as an answer: of the management processor, on the path on which its request arrived (R526), of
the host engine (R492, R494), or on a Lanmiend port. -/
inductive Answer where
  | mgmt (via : MgmtPath) (r : Reply)
  | nakAccess (qp : Nat)
  | nakInvalid (qp : Nat)
  | ack (qp : Nat) (data : List Byte)
  | congestion (qp : Nat)                       -- a congestion notification packet (R492)
  | packet (port : Nat) (header : BitVec 512) (flits : List (BitVec 512)) (cause : Byte) -- on a Lanmiend port (R373, R488)
deriving DecidableEq, Repr

/-! ### Launches -/

/-- A task's place in its life. -/
inductive TaskStatus where
  | unbound
  | bound (core ctx : Nat)
  | saved (core ctx : Nat)
  | finished
deriving DecidableEq, Repr

/-- A saved task (R64, R65): the context as saved, its window's tiles, its scratchpad ranges and its merge buffer. -/
structure Image where
  ctx : Ctx
  full : Bool
  tiles : List (Nat × Tile)
  spm : List (Nat × List Byte)
  merge : Option MergeBuf
deriving DecidableEq, Repr

/-- A task of the current phase (R404 to R407, R412 to R416). -/
structure Task where
  core : Nat                 -- core it is dealt to; unused while unclaimed
  group : Nat                -- tasks of one CONTEXT-level or SEQ group share it (R407)
  grouped : Bool             -- such a group exists
  onCtx : Option Nat         -- the context the group took
  tc : List (BitVec 32)
  ext : List (BitVec 32)
  tileRec : Option (BitVec 128)  -- tile record of a ragged phase
  rgroup : Nat               -- ragged group, or the cluster unit of a static task
  claimed : Option Nat       -- cluster that claimed it
  comm : Bool                -- communication task
  status : TaskStatus
  arrived : List ((Nat × Nat) × Nat)  -- arrivals per barrier (level, id) (R180)
  image : Option Image
  home : Bool                -- restored only on the core where it was saved, after a suspension (R420)
deriving DecidableEq, Repr

/-- Measurements and choice of the selector for one phase (R408 to R410). -/
structure SelEntry where
  meas : Tbl (Nat × Nat)     -- cluster: tasks done, ticks
  ovr : Nat
  mv : Bool
  cur : Nat
deriving DecidableEq, Repr

/-- Where a phase execution stands (R416). -/
inductive Stage where
  | idle                     -- between executions
  | compute                  -- steps 2 and 3
  | communicate              -- steps 5 and 6
deriving DecidableEq, Repr

/-- How a launch ends: STATUS, CODE and CAUSE of its completion record (R398). -/
structure Ending where
  status : BitVec 8
  code : BitVec 16
  cause : BitVec 8
deriving DecidableEq, Repr

/-- A launch's life (R397, R418, R420). -/
inductive LaunchStatus where
  | valid                    -- waits for its partition
  | running
  | suspending
  | suspended
  | ending (e : Ending)
  | ended
deriving DecidableEq, Repr

/-- Cluster and scheduler state kept over a suspension (R420). -/
structure Suspended where
  clusters : Tbl Cluster
  ctrs : Tbl (Tbl Arrival)
  tus : Tbl Nat
  pins : Tbl PinWin
deriving DecidableEq, Repr

/-- A launch (R396 to R420). -/
structure Launch where
  queue : Nat
  index : Nat                -- entry number in its queue
  entry : BitVec 256         -- queue entry (R396)
  asid : BitVec 16
  header : BitVec 512        -- launch record header (R399)
  levels : List Word         -- level table (R400)
  phases : List (BitVec 1024)
  status : LaunchStatus
  pass : Nat                 -- passes of the loop phases already completed
  phase : Nat
  execs : Nat                -- phase executions completed
  stage : Stage
  tasks : List Task
  started : Bool             -- it has started on its partition
  tsStart : Nat              -- tick of the start of the launch
  bound : Bool               -- some task of this execution has been bound
  tsStep : Nat               -- tick of the start of the compute or communication step
  computeTicks : Tbl Nat     -- cluster: ticks to its last completion
  doneTasks : Tbl Nat        -- cluster: tasks completed
  sched : Nat                -- active schedule
  sel : Tbl SelEntry
  ovr : Nat                  -- overruns during the launch
  susp : Option Suspended
  endedBy : Option (Nat × Nat) -- when a task's halt or fault decided the end, and that task's CTXID place (R418)
  bindSeq : Nat              -- bind order (R521)
deriving DecidableEq, Repr

/-- A launch queue: its descriptor and how far it has been read (R393 to R395). -/
structure Queue where
  desc : BitVec 192
  consumer : Nat
  producer : Nat
  taken : Nat                -- entries read from the ring
deriving DecidableEq, Repr

/-- An access at a chunk as the log names it: its party, endpoint and context, and its sequence there (R521, type 6). -/
structure Accessor where
  party : Nat
  unit : Nat
  ctx : Nat
  seq : Nat
deriving DecidableEq, Repr

/-- The replay log of a recording launch (R519 to R522). -/
structure RLog where
  launch : Nat
  start : Nat
  gen : BitVec 32
  used : Nat
  nrec : Nat
  ovf : Bool
  ended : Bool
  dispatches : Nat
  grants : Tbl Nat           -- inbound writes and atomics logged, by home, and flag packets, by core (R521, type 4)
  unsent : List (Nat × Nat × Nat) -- unit, address and length of writes to the log whose packets have still to set out
  last : Tbl (Option Accessor × List Accessor) -- of each 64-byte chunk: the last writer, and who has read since (R521, type 6)
deriving DecidableEq, Repr

/-- A record of a replay log (R520). -/
structure LogRec where
  typ : Nat
  unit : Nat
  ctx : Nat
  icnt : Nat
  seq : Nat
  aux : Nat
  key : Word
  payload : List Byte
deriving DecidableEq, Repr

/-- A launch in replay mode: the records it has still to follow, and who has accessed each chunk so far: endpoint with
context, and sequence (R523). -/
structure Replay where
  launch : Nat
  recs : List LogRec
  last : Tbl (List (Nat × Nat))
deriving DecidableEq, Repr

/-- Bring-up states (R527). -/
inductive Bringup where
  | powerOn | identity | auth | operational
deriving DecidableEq, Repr

/-- What the slots of a bundle see of its context from before it (R123): the operations outstanding in the device, the
pending writes, the next request and the generator state. -/
structure Before where
  ops : List Op
  pend : List Pending
  nreq : Nat
  seed : BitVec 32
deriving DecidableEq, Repr

/-- The bundle being executed: what its slots have decided, to take effect when all have (R123). -/
structure Fly where
  pre : Option Before                  -- none outside a bundle
  ba : BitVec 56                       -- address of the bundle
  nx : BitVec 56                       -- address of the next sequential bundle
  target : Option (Word × TargetKind)  -- taken transfer (R126)
  sends : List (Word × Byte)           -- flag sets on contexts of this core (R183)
  noBackEdge : Bool                    -- loop, loop.lv, done, halt, rte or a taken transfer (R174)
  clr : BitVec 16                      -- flags cleared (R25)
  set : BitVec 16                      -- flags set
  stores : List (Nat × Byte)           -- scratchpad bytes stored (R123)
  stop : Option TrapInfo               -- TRAP_INSN or WATCH (R498)
  save : Option Word                   -- liveness record named by a pre.pt with f15 set (R187)
  ended : Option (Option (BitVec 16))  -- done, or halt with its code
  rte : Option Nat
  quiet : Nat                          -- cycles of yld
  yields : Bool                        -- ownership passes (R422)
  marks : List (Nat × Word)            -- trace marks: SUB, payload word (R517)
  accesses : List (Nat × Nat × Bool)   -- virtual bytes touched: first, length, write; for watch points (R508)
  fence : Bool                         -- ifence (R190)
deriving DecidableEq, Repr

/-- A write of AGE, TRCCTL or HYST that other contexts may not see yet: its core and context, the register, the value
it replaced and the time until which a reader may still get that value (R41). -/
structure CtlChange where
  core : Nat
  ctx : Nat
  crn : Nat
  old : Word
  till : Nat
deriving DecidableEq, Repr

/-- Something that the outside world or the schedule brings; `via` is the path of a management request, and says nothing
of any other event (R526). -/
structure Incoming where
  via : MgmtPath
  event : Instr
deriving DecidableEq, Repr

/-- The state of the device. -/
structure State where
  time : Nat                 -- device time base in ticks (R398)
  refills : Nat              -- periods of 64 ticks whose toll refill is done (R425)
  epochs : Nat               -- periods of 65,536 ticks whose clock epoch is done (R427)
  mem : List Host.Cell       -- memory in canonical form, by physical address
  cur : Nat × Nat            -- core and context whose bundle is executing
  fly : Fly
  agenda : List Incoming     -- what the outside world and the schedule bring next
  via : MgmtPath             -- path of the management request being served (R526)
  fresh : Nat                -- free values drawn so far
  cores : Tbl CoreSt
  ops : List Op              -- oldest first
  reqs : List Req
  nextReq : Nat
  clusters : Tbl Cluster
  dies : Tbl Die
  slices : Tbl Slice
  packets : List NetPacket
  grants : List (NetPoint × Nat × Nat) -- per output, grants since the late class had one (R470)
  groups : Tbl RGroup
  pins : Tbl PinWin
  outbound : List Outbound
  inbox : List Inbound       -- inbound requests of peers that wait at their ports, in order of arrival (R358, R363, R472)
  edgeSlk : Tbl (BitVec 64)  -- NETSLK of the host edges and of the units without a rule of their own (R468, R494)
  mgmtLate : Nat             -- late packets of those units (R474)
  corrected : List (ErrorUnit × Nat) -- corrected-error counters (R392)
  edges : Tbl Nat            -- discard counters of the fabric edges (R465)
  ports : Tbl Port           -- Lanmiend ports
  qps : Tbl (BitVec 256)     -- queue pair table (R493)
  qpRate : Tbl Nat           -- congestion notifications received per queue pair (R492)
  windows : Tbl (BitVec 256) -- window table (R495)
  dropped : Nat              -- dropped transports (R492)
  pfc : Bool                 -- priority flow control is enabled (R492)
  gen : BitVec 32            -- device generation number (R374)
  relocs : List (BitVec 16 × Nat × BitVec 45 × Nat) -- ASID, VBASE, new offset, chunks moved, of moving ranges (R254)
  drtb : Word                -- DRTB (R367)
  launches : Tbl Launch
  nextLaunch : Nat
  queues : Tbl Queue
  rr : Nat                   -- queue the round-robin considers next (R397)
  fills : Nat                -- next fill request number
  hyst : BitVec 10           -- HYST (R53)
  shared : List CtlChange    -- writes of core and device registers that other contexts may not see yet (R41)
  trapva : Word
  hvec : Word
  prewait : BitVec 32
  rlogb : Word
  rlogl : Word
  replay : Bool              -- RPLCTL.REPLAY
  ftimeout : Nat             -- fabric timeout in microseconds (R491)
  rlog : Option RLog
  rplay : Option Replay
  device : BitVec 10         -- index in the Lanmiend domain (R488)
  bringup : Bringup
  failCode : BitVec 8        -- DSTAT.CODE
  svn : BitVec 8             -- DSTAT.SVN
  runSvn : BitVec 8          -- SVN of the running image
  tripped : Bool             -- DSTAT.TRIPPED
  step : BitVec 16           -- DEVID.STEP
  serial : Word
  vendorKeyHash : BitVec 256
  meas : Tbl (List Byte)     -- MEAS0 to MEAS3 (R532)
  image : List Byte          -- firmware image received (R530)
  powered : Bool             -- die power is on (R538)
  mlog : List MgmtEvent      -- management log, newest first
  answers : List Answer      -- answers given, newest first
deriving DecidableEq, Repr

/-! ### Reset -/

/-- A context that nothing is bound to, its registers at their Reset values (R11, R20, R23, R40). -/
def Ctx.init : Ctx :=
  { status := .free, task := none, asid := 0, scalars := [], masks := [(0, 0xFFFFFFFFFFFFFFFF)], loops := [],
    streams := [], flags := 0, pc := 0, psw := [], shape := 0x40, live := 0, seed := 1, rndMode := 0, swapth := 16,
    pinCap := 0, pinUsed := 0, ten := 0, ctxid := 0, dlt := [], tc := [], slkt := [], patterns := [], rules := [],
    wbase := 0, wsize := 0, icount := 0, cseq := 0, pend := [], named := [], waits := [], arrivals := [], ended := false, quiet := 0,
    lastBundle := 0, target := none, fromTransfer := false, after := [], stops := [], unc := [], late := [], record := none,
    resume := 0, asked := 0, liveRec := none, preempt := none, toSave := none, ibuf := [], tollWant := 0, tollHave := 0,
    tollAge := 0, role := 0, waitCount := 0, lastIssue := none, swLast := false, openedWindow := none, window := 0 }

/-- A tile register as at bind (R36). -/
def Tile.init : Tile :=
  { rows := [], rcw := [], tag := 0, bsc := [], ssc := 0x3F8000003F8000003F8000003F800000 }

/-- A free row merge buffer (R59). -/
def MergeBuf.init : MergeBuf := { owner := none, isInt := false, words := [] }

/-- A core after power-on reset (R40, R54, R59, R210, R243, R379, R475, R509, R536). -/
def CoreSt.init : CoreSt :=
  { ctxs := [], tiles := [], rtask := [], rserv := [], tags := [], tu := 0, carve := none, ctrs := [],
    merge := MergeBuf.init, age := 256, trcctl := 0, spgGate := 0, spgAwake := 0xFFF, spgWake := [],
    wpa := [], wpc := [], trcpost := 2048, trgval := 0, trace := [], postLeft := none, balance := 4096, latecnt := 0,
    netslk := 0x3FF, owner := 0, passing := false, svcReady := 0, units := [], service := none, work := [], held := false }

/-- A cache slice after power-on reset (R390, R475). -/
def Slice.init : Slice :=
  { lines := [], gate := 0, awake := 0xFFF, pinOver := 0, latecnt := 0, netslk := 0x3FF, replay := [] }

/-- A cluster after power-on reset; its clock is the nominal 1.9 GHz (R2, R431, R433). -/
def Cluster.init : Cluster :=
  { queue := [], running := false, manifest := [], used := false, clock := 1900, throttled := false }

/-- A die after power-on reset (R536). -/
def Die.init : Die :=
  { fills := [], routes := [], routing := false, floor := 4, budget := 16384, dlim := 850, tmax := 0, hot := 0,
    modpwr := 0, diepwr := 0 }

/-- No pin window is held (R386). -/
def PinWin.init : PinWin := { owner := none, launch := 0, task := 0, asid := 0, base := 0, len := 0, mask := 0, usedMib := 0 }

/-- A reduction group table entry not in use (R479). -/
def RGroup.init : RGroup := { entry := 0, parts := [] }

/-- A launch queue not in use (R393). -/
def Queue.init : Queue := { desc := 0, consumer := 0, producer := 0, taken := 0 }

/-- An arrival counter at zero (R243). -/
def Arrival.init : Arrival := { expect := 0, count := 0, bitmap := 0, watch := none }

/-- A Lanmiend port in service (R488). -/
def Port.init : Port := { retrans := 0, failed := false }

/-- An unset loop counter (R21). -/
def LoopCtr.init : LoopCtr := { count := 0, start := 0, stop := 0, active := false }

/-- An invalid previous slot word (R117). -/
def Psw.init : Psw := { word := 0, valid := false }

/-- An empty pattern slot (R55). -/
def Pattern.init : Pattern := { valid := false, period := 0, fields := [] }

/-- A phase without measurements (R410). -/
def SelEntry.init : SelEntry := { meas := [], ovr := 0, mv := false, cur := 0 }

/-- No bundle in flight. -/
def Fly.init : Fly :=
  { pre := none, ba := 0, nx := 0, target := none, sends := [], noBackEdge := false, clr := 0, set := 0, stores := [], stop := none, save := none,
    ended := none, rte := none, quiet := 0, yields := false, marks := [], accesses := [], fence := false }

/-- The device right after power-on reset (R11, R527): state POWER_ON, nothing bound, memory as unlisted. -/
def State.reset : State :=
  { time := 0, refills := 0, epochs := 0, mem := [], cur := (0, 0), fly := Fly.init, agenda := [], via := .smbus, fresh := 0, cores := [], ops := [],
    reqs := [], nextReq := 0, clusters := [], dies := [], slices := [], packets := [], grants := [],
    groups := [], pins := [], outbound := [], inbox := [], edgeSlk := [], mgmtLate := 0, corrected := [], edges := [], ports := [], qps := [], qpRate := [], windows := [],
    dropped := 0, pfc := false, gen := 0, relocs := [], drtb := 0, launches := [], nextLaunch := 0, queues := [],
    rr := 0, fills := 0, hyst := 50, shared := [], trapva := 0, hvec := 0, prewait := 0x100000, rlogb := 0, rlogl := 0,
    replay := false, ftimeout := 10000, rlog := none, rplay := none, device := 0, bringup := .powerOn, failCode := 0,
    svn := 0, runSvn := 0, tripped := false, step := 0, serial := 0, vendorKeyHash := 0, meas := [],
    image := [], powered := true, mlog := [], answers := [] }

end Sys2Proof.Machine
end

