-- ==== Sys2Proof/Machine/Base.lean ====
section
/-! DEFINITION. The named operations over tables, memory and registers, trace records, range descriptors and translation
(R15 to R57, R142, R143, R364 to R372, R500, R516 to R518). -/

namespace Sys2Proof.Machine

/-! ### Tables -/

/-- Entry `k`, or the default. -/
def Tbl.look {α : Type} (d : α) : Tbl α → Nat → α
  | [], _ => d
  | (j, v) :: t, k => if j = k then v else Tbl.look d t k

/-- Entry `k`, if listed. -/
def Tbl.find {α : Type} : Tbl α → Nat → Option α
  | [], _ => none
  | (j, v) :: t, k => if j = k then some v else Tbl.find t k

/-- Replace or add entry `k`, keeping keys ascending. -/
def Tbl.put {α : Type} : Tbl α → Nat → α → Tbl α
  | [], k, v => [(k, v)]
  | (j, w) :: t, k, v => if j = k then (k, v) :: t else if k < j then (k, v) :: (j, w) :: t else (j, w) :: Tbl.put t k v

/-- Remove entry `k`. -/
def Tbl.del {α : Type} : Tbl α → Nat → Tbl α
  | [], _ => []
  | (j, w) :: t, k => if j = k then t else (j, w) :: Tbl.del t k

/-! ### Bytes and words, little-endian (R6) -/

/-- The number a byte list stands for, lowest byte first. -/
def ofBytes : List Byte → Nat
  | [] => 0
  | b :: t => b.toNat + 256 * ofBytes t

/-- The low `n` bytes of a number, lowest first. -/
def toBytes : Nat → Nat → List Byte
  | 0, _ => []
  | n + 1, v => BitVec.ofNat 8 v :: toBytes n (v / 256)

/-- Sign-extension of the low `w` bits of `v` to a 64-bit word. -/
def sextTo64 (w v : Nat) : Word := (BitVec.ofNat w v).signExtend 64

/-! ### Memory -/

/-- What an unlisted address reads as: zero (R59 for scratchpad; Assumption 1 for HBM). -/
def unlisted : Byte := 0

/-- The byte at an address. -/
def memByte : List Host.Cell → Nat → Byte
  | [], _ => unlisted
  | (b, v) :: m, a => if b = a then v else memByte m a

/-- Store one byte, keeping the canonical form. -/
def memPut : List Host.Cell → Nat → Byte → List Host.Cell
  | [], a, v => if v = unlisted then [] else [(a, v)]
  | (b, w) :: m, a, v =>
    if a < b then (if v = unlisted then (b, w) :: m else (a, v) :: (b, w) :: m)
    else if a = b then (if v = unlisted then m else (a, v) :: m)
    else (b, w) :: memPut m a v

/-- Store several bytes in order. -/
def memPuts (m : List Host.Cell) : List Host.Cell → List Host.Cell
  | [] => m
  | (a, v) :: t => memPuts (memPut m a v) t

/-- Bytes `a` to `a + n − 1`. -/
def memBytes (m : List Host.Cell) (a : Nat) : Nat → List Byte
  | 0 => []
  | n + 1 => memByte m a :: memBytes m (a + 1) n

/-- Every address of the list is above `lo`, addresses rise strictly, and no entry holds the unlisted value. -/
def memWfFrom : Nat → List Host.Cell → Bool
  | _, [] => true
  | lo, (a, v) :: m => decide (lo ≤ a) && v != unlisted && memWfFrom (a + 1) m

/-- The canonical form of memory. -/
def Memory.wf (m : List Host.Cell) : Bool := memWfFrom 0 m

/-- Set the bytes of `[a, a + n)` to zero. -/
def memClear (m : List Host.Cell) (a n : Nat) : List Host.Cell :=
  m.filter (fun c => !(decide (a ≤ c.1) && decide (c.1 < a + n)))

/-- Pair a byte list with the addresses from `a` on. -/
def cellsAt (a : Nat) : List Byte → List Host.Cell
  | [] => []
  | b :: t => (a, b) :: cellsAt (a + 1) t

/-- What stands at a physical address (R364). -/
inductive Region where
  | hbm (die : Nat)
  | spm (core off : Nat)
  | roce
  | domain
  | unpopulated
deriving DecidableEq, Repr

/-- The region of a physical address (R364). -/
def regionOf (pa : Nat) : Region :=
  if pa < Config.hbmBytes then .hbm 0
  else if Config.hbmBase 1 ≤ pa ∧ pa < Config.hbmBase 1 + Config.hbmBytes then .hbm 1
  else if Config.apertureBase ≤ pa ∧ pa < Config.apertureBase + Config.apertureStride * Config.numCores then
    let d := pa - Config.apertureBase
    if d % Config.apertureStride < Config.spmBytes then .spm (d / Config.apertureStride) (d % Config.apertureStride)
    else .unpopulated
  else if Config.roceBase ≤ pa ∧ pa < Config.domainBase then .roce
  else if Config.domainBase ≤ pa ∧ pa < Config.physEnd then .domain
  else .unpopulated

/-- Physical address of a scratchpad offset of a core (R364). -/
def spmAddr (core off : Nat) : Nat := Config.apertureBase + Config.apertureStride * core + off

/-- Bytes of a core's scratchpad. -/
def spmRead (s : State) (core off n : Nat) : List Byte := memBytes s.mem (spmAddr core off) n

/-- Store bytes into a core's scratchpad. -/
def spmWrite (s : State) (core off : Nat) (b : List Byte) : State :=
  { s with mem := memPuts s.mem (cellsAt (spmAddr core off) b) }

/-- Store bytes at physical addresses of this device. -/
def physWrite (s : State) (cells : List Host.Cell) : State := { s with mem := memPuts s.mem cells }

/-- Bytes at a physical address of this device. -/
def physRead (s : State) (pa n : Nat) : List Byte := memBytes s.mem pa n

/-! ### Cores and contexts -/

def coreOf (s : State) (n : Nat) : CoreSt := Tbl.look CoreSt.init s.cores n

def setCore (s : State) (n : Nat) (c : CoreSt) : State := { s with cores := Tbl.put s.cores n c }

def ctxOf (s : State) (n k : Nat) : Ctx := Tbl.look Ctx.init (coreOf s n).ctxs k

def setCtx (s : State) (n k : Nat) (x : Ctx) : State :=
  let c := coreOf s n
  setCore s n { c with ctxs := Tbl.put c.ctxs k x }

/-- The context whose bundle is executing, and its core. -/
def me (s : State) : Ctx := ctxOf s s.cur.1 s.cur.2

def here (s : State) : CoreSt := coreOf s s.cur.1

def withMe (s : State) (f : Ctx → Ctx) : State := setCtx s s.cur.1 s.cur.2 (f (me s))

def withHere (s : State) (f : CoreSt → CoreSt) : State := setCore s s.cur.1 (f (here s))

def withCtx (s : State) (n k : Nat) (f : Ctx → Ctx) : State := setCtx s n k (f (ctxOf s n k))

def withCore (s : State) (n : Nat) (f : CoreSt → CoreSt) : State := setCore s n (f (coreOf s n))

/-- Cores of a cluster (R364). -/
def coresOfCluster (cl : Nat) : List Nat := (List.range 8).map (fun k => 8 * cl + k)

def clusterOf (core : Nat) : Nat := core / 8

def dieOf (core : Nat) : Nat := core / 64

/-- CTXID of a context without its ASID and device (R50). -/
def ctxidPlace (core ctx : Nat) : Nat := (core / 64) * 512 + (core / 8 % 8) * 64 + (core % 8) * 8 + ctx

/-- CTXID (R50). -/
def ctxidOf (device : BitVec 10) (asid : BitVec 16) (core ctx : Nat) : Word :=
  BitVec.ofNat 64 (device.toNat * 2 ^ 32 + asid.toNat * 2 ^ 16 + ctxidPlace core ctx)

/-- The core index a CTXID value names (R50, R364). -/
def ctxidCore (w : Word) : Nat := 64 * (w.extractLsb' 9 1).toNat + (w.extractLsb' 3 6).toNat

/-! ### Tile registers -/

def tileOf (c : CoreSt) (x : Nat) : Tile := Tbl.look Tile.init c.tiles x

/-- Block scales of a row (R26, R36). -/
def Tile.scales (t : Tile) (i : Nat) : BitVec 128 := Tbl.look 0x38383838383838383838383838383838 t.bsc i

def Tile.row (t : Tile) (i : Nat) : Row := Tbl.look 0 t.rows i

def Tile.word (t : Tile) (i : Nat) : BitVec 32 := Tbl.look 0 t.rcw i

/-- Superblock scale `k` (R26). -/
def Tile.super (t : Tile) (k : Nat) : BitVec 32 := t.ssc.extractLsb' (32 * k) 32

/-- Whether an operation of the list holds a tile register's busy bit (R31). -/
def busyIn (l : List Op) (core x : Nat) : Bool := l.any (fun o => o.busy.contains (core, x))

/-- Operations issued before the executing bundle (R123). -/
def opsBefore (s : State) : List Op :=
  match s.fly.pre with
  | none => s.ops
  | some b => b.ops

/-- Pending writes of the executing context from earlier bundles (R123). -/
def pendBefore (s : State) : List Pending :=
  match s.fly.pre with
  | none => (me s).pend
  | some b => b.pend

/-- Generator state as the executing bundle reads it (R123). -/
def seedBefore (s : State) : BitVec 32 :=
  match s.fly.pre with
  | none => (me s).seed
  | some b => b.seed

/-- Requests numbered below this were issued before the executing bundle. -/
def reqBefore (s : State) : Nat :=
  match s.fly.pre with
  | none => s.nextReq
  | some b => b.nreq

/-! ### Fixed-latency writes (R141 to R143) -/

/-- The part a write writes: its kind and two numbers (R142). -/
def Write.part : Write → Nat × Nat × Nat
  | .scalar r _ => (0, r, 0)
  | .mask p _ => (1, p, 0)
  | .count n _ => (2, n, 0)
  | .loopSet n _ _ _ => (3, n, 0)
  | .ctl c _ => (4, c, 0)
  | .tileRow x i _ _ => (5, x, i)
  | .tileRcw x i _ => (6, x, i)
  | .tileTag x _ => (7, x, 0)
  | .tileSsc x _ => (8, x, 0)
  | .pattern n _ => (9, n, 0)
  | .rules n _ => (10, n, 0)
  | .advance q rp _ => (11, q, if rp then 1 else 0)
  | .tagInvalid k => (12, k, 0)
  | .tdInvalid o => (13, o, 0)
  | .unbind q => (14, q, 0)

/-- Add a write that is visible from issue count `due`, superseding earlier pending writes of its part (R142). -/
def pushWrite (l : List Pending) (due : Nat) (w : Write) : List Pending :=
  l.filter (fun p => p.w.part ≠ w.part) ++ [{ due := due, w := w }]

/-- A result of the executing bundle with latency `lat`. A write to s0 is discarded (R16). -/
def result (s : State) (lat : Nat) (w : Write) : State :=
  match w with
  | .scalar 0 _ => s
  | _ => withMe s (fun c => { c with pend := pushWrite c.pend (c.icount + lat) w })

/-- Several results of one latency. -/
def results (s : State) (lat : Nat) : List Write → State
  | [] => s
  | w :: t => results (result s lat w) lat t

/-- A named control register's new value, with the fields the register keeps (R42 to R55). -/
def ctlStore (core : Nat) (s : State) (c : Ctx) (crn : Nat) (v : Word) : State × Ctx :=
  if crn = 0x00 then (s, { c with shape := v &&& 0x7FF007F })
  else if crn = 0x01 then (s, { c with live := v &&& 0xFFFFFFFF })
  else if crn = 0x02 then
    (s, { c with seed := if v.extractLsb' 32 32 = 0 then 1 else v.extractLsb' 32 32
                 rndMode := if (v.extractLsb' 0 3).toNat < 6 then v.extractLsb' 0 3 else c.rndMode })
  else if crn = 0x03 then (s, { c with swapth := v &&& 0x7F })
  else if crn = 0x04 then
    (withCore s core (fun k => { k with age := if v.extractLsb' 0 16 = 0 then 1 else v.extractLsb' 0 16 }), c)
  else if crn = 0x05 then
    (withCore s core (fun k =>
      let frozen := k.trcctl.getLsbD 2 && !v.getLsbD 2
      { k with trcctl := (v &&& 0xFFFF03) ||| (if frozen then 4 else 0)
               postLeft := if k.trcctl.getLsbD 2 && v.getLsbD 2 then none else k.postLeft }), c)
  else if crn = 0x06 then ({ s with hyst := v.extractLsb' 0 10 }, c)
  else if crn = 0x07 then (s, { c with pinCap := v.extractLsb' 0 16 })
  else if crn = 0x08 then (s, { c with ten := v &&& 3 })
  else if 0x10 ≤ crn ∧ crn ≤ 0x15 then (s, { c with dlt := Tbl.put c.dlt (crn - 0x10) (v.extractLsb' 0 32) })
  else if 0x20 ≤ crn ∧ crn ≤ 0x2F then (s, { c with slkt := Tbl.put c.slkt (crn - 0x20) (v.extractLsb' 0 10) })
  else (s, c)

/-- A core or device register before a write of it (R40). -/
def sharedValue (s : State) (core crn : Nat) : Word :=
  if crn = 0x04 then (coreOf s core).age.setWidth 64
  else if crn = 0x05 then (coreOf s core).trcctl
  else s.hyst.setWidth 64

/-- Note a write of a core or device register: for 16 cycles other contexts may still read what it replaces (R41). -/
def noteShared (s : State) (core ctx crn : Nat) : State :=
  if 0x04 ≤ crn ∧ crn ≤ 0x06 then
    { s with shared := s.shared.filter (fun e => s.time < e.till) ++
               [{ core := core, ctx := ctx, crn := crn, old := sharedValue s core crn, till := s.time + 16 }] }
  else s

/-- Change one tile register of a core. -/
def withTile (s : State) (core x : Nat) (f : Tile → Tile) : State :=
  withCore s core (fun k => { k with tiles := Tbl.put k.tiles x (f (tileOf k x)) })

/-- A tile register with one pending write applied. -/
def applyTile (x : Nat) (t : Tile) (w : Write) : Tile :=
  match w with
  | .tileRow y i d sc => if y = x then { t with rows := Tbl.put t.rows i d, bsc := Tbl.put t.bsc i sc } else t
  | .tileRcw y i v => if y = x then { t with rcw := Tbl.put t.rcw i v } else t
  | .tileTag y v => if y = x then { t with tag := v } else t
  | .tileSsc y v => if y = x then { t with ssc := v } else t
  | _ => t

/-- Rows a stream's read pointer and free pointer take under an advance (R225). In window mode the rows that `q.drain` counts
as consumed are the freed ones, not the ones read: the manual does not say which (DESIGN CHOICE, Assumption 101). -/
def Stream.advance (q : Stream) (rp : Bool) (n : Int) : Stream :=
  if rp then { q with rp := (q.rp + n).toNat }
  else if q.win then { q with freed := (q.freed + n).toNat, consumed := (q.consumed + n).toNat }
  else { q with rp := (q.rp + n).toNat, freed := (q.freed + n).toNat, consumed := (q.consumed + n).toNat }

/-- Make one write visible in a context of a core. -/
def applyWrite (s : State) (core ctx : Nat) (w : Write) : State :=
  match w with
  | .scalar r v => withCtx s core ctx (fun c => { c with scalars := Tbl.put c.scalars r v })
  | .mask p v => withCtx s core ctx (fun c => { c with masks := Tbl.put c.masks p v })
  | .count n v => withCtx s core ctx (fun c =>
      { c with loops := Tbl.put c.loops n { Tbl.look LoopCtr.init c.loops n with count := v } })
  | .loopSet n a b act => withCtx s core ctx (fun c =>
      { c with loops := Tbl.put c.loops n { Tbl.look LoopCtr.init c.loops n with start := a, stop := b, active := act } })
  | .ctl crn v =>
      let r := ctlStore core (noteShared s core ctx crn) (ctxOf s core ctx) crn v
      setCtx r.1 core ctx r.2
  | .tileRow x _ _ _ | .tileRcw x _ _ | .tileTag x _ | .tileSsc x _ => withTile s core x (fun t => applyTile x t w)
  | .pattern n p => withCtx s core ctx (fun c => { c with patterns := Tbl.put c.patterns n p })
  | .rules n r => withCtx s core ctx (fun c => { c with rules := Tbl.put c.rules n r })
  | .advance q rp n => withCtx s core ctx (fun c =>
      match Tbl.find c.streams q with
      | some st => { c with streams := Tbl.put c.streams q (st.advance rp n) }
      | none => c)
  | .tagInvalid k => withCore s core (fun c => { c with tags := Tbl.del c.tags k })
  | .tdInvalid o => spmWrite s core (o + 7) [((spmRead s core (o + 7) 1).headD 0) &&& 0x7F]
  | .unbind q => withCtx s core ctx (fun c => { c with streams := Tbl.del c.streams q })

def applyWrites (s : State) (core ctx : Nat) : List Write → State
  | [] => s
  | w :: t => applyWrites (applyWrite s core ctx w) core ctx t

/-- Make visible every write due by the context's issue count (R141). -/
def promote (s : State) (core ctx : Nat) : State :=
  let c := ctxOf s core ctx
  let due := c.pend.filter (fun p => p.due ≤ c.icount)
  applyWrites (setCtx s core ctx { c with pend := c.pend.filter (fun p => ¬ p.due ≤ c.icount) }) core ctx (due.map (·.w))

/-- A stop makes every pending write visible (R143). -/
def flush (s : State) (core ctx : Nat) : State :=
  let c := ctxOf s core ctx
  applyWrites (setCtx s core ctx { c with pend := [] }) core ctx (c.pend.map (·.w))

/-- Writes of an asynchronous operation: they count as issued with its bundle, so pending writes of earlier bundles to
the same parts never become visible (R142). -/
def commitNow (s : State) (core ctx : Nat) (ws : List Write) : State :=
  let s := withCtx s core ctx (fun c =>
    { c with pend := c.pend.filter (fun p => !(ws.any (fun w => w.part = p.w.part))) })
  applyWrites s core ctx ws

/-- A tile register as parties other than the context's own bundles see it: with the fixed-latency writes in flight
of every context of the core (R144, R337). -/
def tileNow (s : State) (core x : Nat) : Tile :=
  let k := coreOf s core
  (k.ctxs.flatMap (fun c => c.2.pend.map (·.w))).foldl (applyTile x) (tileOf k x)

/-- The same for an operation that the executing bundle issues: writes of earlier bundles only (R123, R144). -/
def tileCapture (s : State) (x : Nat) : Tile :=
  ((pendBefore s).map (·.w)).foldl (applyTile x) (tileOf (here s) x)

/-! ### Scalars and operands -/

/-- A scalar as the executing bundle sees it; s0 reads zero (R16). -/
def scalarOf (c : Ctx) (r : Reg) : Word := if r = 0 then 0 else Tbl.look 0 c.scalars r.toNat

/-- Whether a scalar awaits a token or data (R17). -/
def isPending (s : State) (r : Nat) : Bool :=
  r ≠ 0 && (opsBefore s).any (fun o => o.core = s.cur.1 && o.ctx = s.cur.2 && (o.tok = r || o.data = r))

/-- Read a scalar; a pending one holds the bundle (R17, R144). -/
def readS (s : State) (r : Reg) : Except Stop Word :=
  if isPending s r.toNat then .error .hold else .ok (scalarOf (me s) r)

/-- Second operand of format S: the register, or the sign-extended immediate when B is 0 (R158). -/
def readB (s : State) (b : Reg) (imm : Imm) : Except Stop Word :=
  if b = 0 then .ok (imm.signExtend 64) else readS s b

/-- A trap found at issue by a slot's own check (R129, step 7). -/
def trapping {α : Type} (cause engine slot : Nat) (addr detail : Word := 0) (index : BitVec 32 := 0) : Except Stop α :=
  .error (.trap { cause := cause, addr := addr, detail := detail, index := index, engine := engine, slot := slot,
                  cseq := 0, estat := 0 })

/-- Check `c`, else stop with `e`. -/
def check (c : Bool) (e : Except Stop Unit) : Except Stop Unit := if c then .ok () else e

/-- A row mask as the executing bundle sees it (R19). -/
def maskOf (c : Ctx) (p : Nat) : Word := Tbl.look (if p = 0 then 0xFFFFFFFFFFFFFFFF else 0) c.masks p

/-- Rows named by SHAPE (R42). -/
def rowsOf (c : Ctx) : Nat := (c.shape.extractLsb' 0 7).toNat

/-- COLS of SHAPE (R42). -/
def colsOf (c : Ctx) : Nat := (c.shape.extractLsb' 16 11).toNat

/-- Slack of a packet that a context sends now: what is left of the communication window of a communication task whose f9 is
set, else the slack that its instruction gives it (R417, R468). -/
def windowSlack (s : State) (c : Ctx) (slk : BitVec 10) : BitVec 10 :=
  match c.openedWindow with
  | some t0 => if c.flags.getLsbD 9 then BitVec.ofNat 10 (min 1023 (ceilDiv (c.window - (s.time - t0)) 16)) else slk
  | none => slk

/-- Slack of class SL: the context's table entry (R47, R133), or the window's (R417). -/
def slackOf (s : State) (sl : BitVec 4) : BitVec 10 := windowSlack s (me s) (Tbl.look 0x3FF (me s).slkt sl.toNat)

/-- COOKIE of the launch a context works for (R564). -/
def cookieOf (s : State) (core ctx : Nat) : BitVec 64 :=
  match (ctxOf s core ctx).task with
  | none => 0
  | some t => match Tbl.find s.launches t.launch with
    | none => 0
    | some l => l.entry.extractLsb' 0 64

/-! ### Trace (R516 to R518) -/

/-- A trace record of an event now (R516). -/
def traceRec (s : State) (cls ctx sub : Nat) (pay : Word) : TraceRec :=
  { time := BitVec.ofNat 48 s.time, cls := BitVec.ofNat 4 cls, ctx := BitVec.ofNat 3 ctx, sub := BitVec.ofNat 9 sub, pay := pay }

/-- Write one trace record if tracing runs, and count it towards a pending freeze. -/
def traceRaw (s : State) (core : Nat) (r : TraceRec) : State :=
  withCore s core (fun k =>
    if k.trcctl.getLsbD 0 && !k.trcctl.getLsbD 2 && k.postLeft != some 0 then
      { k with trace := (r :: k.trace).take 4096, postLeft := k.postLeft.map (· - 1) }
    else k)

/-- Record an event of a class that TRCCTL.CLASS enables (R517). -/
def traceEvent (s : State) (core cls ctx sub : Nat) (pay : Word) : State :=
  if (coreOf s core).trcctl.getLsbD (16 + cls) then
    traceRaw s core (traceRec s cls ctx sub pay)
  else s

/-- A trigger source occurs (R518): a class 7 record, then POST further records, then FROZEN. -/
def traceTrigger (s : State) (core source ctx : Nat) : State :=
  let k := coreOf s core
  if (k.trcctl.extractLsb' 8 8).toNat = source && k.trcctl.getLsbD 0 && !k.trcctl.getLsbD 2 && k.postLeft.isNone then
    let s := traceRaw s core (traceRec s 7 ctx source 0)
    withCore s core (fun k => { k with postLeft := some k.trcpost.toNat })
  else s

/-! ### Causes -/

/-- Causes of R500. -/
def causeIllegal : Nat := 0x01
def causeBadTarget : Nat := 0x02
def causeExecPool : Nat := 0x03
def causePriv : Nat := 0x04
def causeConflict : Nat := 0x05
def causeNoPrev : Nat := 0x06
def causeCarve : Nat := 0x07
def causeMiss : Nat := 0x10
def causePerm : Nat := 0x11
def causePartial : Nat := 0x12
def causeAlign : Nat := 0x13
def causeTd : Nat := 0x18
def causeGather : Nat := 0x19
def causeMcast : Nat := 0x1A
def causeTag : Nat := 0x20
def causeShape : Nat := 0x21
def causeScale : Nat := 0x22
def causeAlias : Nat := 0x23
def causeSparse : Nat := 0x24
def causeStream : Nat := 0x25
def causeSlot : Nat := 0x26
def causeChain : Nat := 0x28
def causeRcw : Nat := 0x30
def causeCmx : Nat := 0x31
def causeKv : Nat := 0x32
def causeLate : Nat := 0x40
def causeWatch : Nat := 0x41
def causeTrapInsn : Nat := 0x42
def causeUnc : Nat := 0x50

/-! ### Range descriptors and translation -/

/-- Fields of a range descriptor (R365). -/
def dVbase (d : BitVec 256) : Nat := (d.extractLsb' 0 44).toNat
def dLen (d : BitVec 256) : Nat := (d.extractLsb' 64 44).toNat
def dOff (d : BitVec 256) : Int := (d.extractLsb' 128 45).toInt
def dRes (d : BitVec 256) : BitVec 64 := d.extractLsb' 192 64
def dSegs (d : BitVec 256) : Nat := if (d.extractLsb' 116 6).toNat = 0 then 64 else (d.extractLsb' 116 6).toNat
def dClass (d : BitVec 256) : Nat := (d.extractLsb' 122 2).toNat
def dPinw (d : BitVec 256) : Nat := (d.extractLsb' 124 3).toNat
def dPinen (d : BitVec 256) : Bool := d.getLsbD 127

/-- Permission bits of a descriptor (R365). -/
def permRd : Nat := 109
def permWr : Nat := 110
def permEx : Nat := 111
def permSa : Nat := 112
def permRa : Nat := 113
def permEs : Nat := 114
def permKv : Nat := 115

/-- `Permits`: every needed bit is set (R373). -/
def permits (d : BitVec 256) (need : List Nat) : Bool := need.all (fun b => d.getLsbD b)

/-- Whether a descriptor covers a virtual unit (R365). -/
def covers (d : BitVec 256) (vp : Nat) : Bool := dVbase d ≤ vp && vp < dVbase d + dLen d

/-- Segment of a unit the descriptor covers (R372). -/
def segmentOf (d : BitVec 256) (vp : Nat) : Nat := (vp - dVbase d) * dSegs d / dLen d

/-- Physical address behind a virtual address under a descriptor (R372). -/
def backing (d : BitVec 256) (va : Nat) : Nat :=
  ((((((va / 4096 : Nat) : Int) + dOff d) * 4096 + (va % 4096 : Nat)) % 2 ^ 48 : Int)).toNat

/-- The virtual unit of a range that a physical unit backs (R372). -/
def unitBehind (d : BitVec 256) (u : Nat) : Option Nat :=
  let k := ((u : Int) - dOff d - dVbase d) % (2 ^ 36 : Int)
  if k < dLen d then some (dVbase d + k.toNat) else none

/-- Physical address of a virtual unit under an offset (R372). -/
def unitAddr (vp : Nat) (off : Int) : Nat := (((vp : Int) + off) % (2 ^ 36 : Int)).toNat * 4096

/-- Root table entry of an ASID: ABASE × 32, COUNT and CAP; none when VALID is 0 (R367). -/
def rootAddr (s : State) (asid : BitVec 16) : Nat := (s.drtb.extractLsb' 20 28).toNat * 2 ^ 20 + 16 * asid.toNat

structure Root where
  base : Nat
  count : Nat
  cap : Nat
deriving DecidableEq, Repr

def rootOf (s : State) (asid : BitVec 16) : Option Root :=
  let e := BitVec.ofNat 128 (ofBytes (physRead s (rootAddr s asid) 16))
  if e.getLsbD 64 then
    some { base := (e.extractLsb' 5 43).toNat * 32, count := (e.extractLsb' 80 17).toNat
           cap := (e.extractLsb' 97 17).toNat }
  else none

/-- Descriptor at a physical address. -/
def descAt (s : State) (pa : Nat) : BitVec 256 := BitVec.ofNat 256 (ofBytes (physRead s pa 32))

/-- The binary search of a walk over `[lo, hi)`, at most 17 probes (R371). -/
def walkFrom (s : State) (base vp : Nat) : Nat → Nat → Nat → Option (BitVec 256 × Nat)
  | 0, _, _ => none
  | fuel + 1, lo, hi =>
    if hi ≤ lo then none
    else
      let mid := (lo + hi - 1) / 2
      let d := descAt s (base + 32 * mid)
      if vp < dVbase d then walkFrom s base vp fuel lo mid
      else if dVbase d + dLen d ≤ vp then walkFrom s base vp fuel (mid + 1) hi
      else some (d, base + 32 * mid)

/-- `Walk` (R371). -/
def walk (s : State) (asid : BitVec 16) (vp : Nat) : Option (BitVec 256 × Nat) :=
  match rootOf s asid with
  | none => none
  | some r => walkFrom s r.base vp 17 0 r.count

/-- The range table entries that serve a context (R369). -/
def tableFor (s : State) (core ctx : Nat) : List RtEntry :=
  if ctx = 4 then (coreOf s core).rserv else (coreOf s core).rtask

/-- `Lookup` (R371). -/
def lookup (l : List RtEntry) (asid : BitVec 16) (vp : Nat) : Option (BitVec 256) :=
  (l.find? (fun e => e.asid = asid && covers e.desc vp)).map (·.desc)

/-- Why a translation fails (R372): its cause and segment. -/
structure TrFault where
  cause : Nat
  seg : Nat
  addr : Nat
deriving DecidableEq, Repr

/-- `Translate` for a party of a core, or of the device when no core is named (R372): the physical address and the
descriptor used. -/
def translateWith (s : State) (table : List RtEntry) (asid : BitVec 16) (va : Nat) (need : List Nat) :
    Except TrFault (Nat × BitVec 256) :=
  if 2 ^ 56 ≤ va then .error ⟨causeMiss, 0, va⟩
  else
    let vp := va / 4096
    match (match lookup table asid vp with
      | some d => some d
      | none => (walk s asid vp).map (·.1)) with
    | none => .error ⟨causeMiss, 0, va⟩
    | some d =>
      if !permits d need then .error ⟨causePerm, 0, va⟩
      else if !(dRes d).getLsbD (segmentOf d vp) then .error ⟨causePartial, segmentOf d vp, va⟩
      else .ok (backing d va, d)

/-- Pieces of `[va, va + n)` that each lie in one 4 KiB unit. -/
def pieces : Nat → Nat → Nat → List (Nat × Nat)
  | 0, _, _ => []
  | fuel + 1, va, n =>
    if n = 0 then []
    else
      let l := min n (4096 - va % 4096)
      (va, l) :: pieces fuel (va + l) (n - l)

/-- Physical address of each byte of `[va, va + n)`, translated in ascending order (R195). -/
def translateSpan (s : State) (table : List RtEntry) (asid : BitVec 16) (va n : Nat) (need : List Nat) :
    Except TrFault (List Nat) :=
  (pieces (n / 4096 + 2) va n).foldlM (fun acc p =>
    match translateWith s table asid p.1 need with
    | .ok (pa, _) => .ok (acc ++ (List.range p.2).map (fun i => pa + i))
    | .error e => .error e) []

end Sys2Proof.Machine
end

