-- ==== Sys2Proof/Machine/Packet.lean ====
section
/-! DEFINITION. Packets: the home of an address, endpoints and paths, and the packet format (R364, R382, R383, R387, R459
to R468). -/

namespace Sys2Proof.Machine

/-! ### Homes (R382, R383, R387) -/

/-- Bits `lo + 4` to `lo` of an address. -/
def fiveBits (a lo : Nat) : Nat := a / 2 ^ lo % 32

/-- H of an HBM address (R383). -/
def hashOf (a : Nat) : Nat :=
  fiveBits a 7 ^^^ fiveBits a 12 ^^^ fiveBits a 17 ^^^ fiveBits a 22 ^^^ fiveBits a 27 ^^^ fiveBits a 32

/-- The descriptors of an ASID's directory (R367). -/
def directoryOf (s : State) (asid : BitVec 16) : List (BitVec 256) :=
  match rootOf s asid with
  | none => []
  | some r => (List.range r.count).map (fun i => descAt s (r.base + 32 * i))

/-- A window pins the physical unit `u` through a descriptor (R387). -/
def pinsUnit (w : PinWin) (n : Nat) (d : BitVec 256) (u : Nat) : Bool :=
  dPinen d && dPinw d == n &&
    (match unitBehind d u with
     | some vp => decide (w.base ≤ vp * 4096 ∧ vp * 4096 < w.base + w.len)
     | none => false)

/-- Slices of a die that a window's mask names (R387). -/
def maskSlices (w : PinWin) (die : Nat) : List Nat :=
  ((List.range 32).filter (fun k => w.mask.getLsbD (32 * die + k))).map (32 * die + ·)

/-- The window that pins an HBM line, with the slices it names on that die (R387). -/
def pinnedBy (s : State) (pa die : Nat) : Option (List Nat) :=
  s.pins.findSome? (fun p =>
    if p.2.owner.isSome && maskSlices p.2 die != [] &&
        (directoryOf s p.2.asid).any (fun d => pinsUnit p.2 p.1 d (pa / 4096))
    then some (maskSlices p.2 die) else none)

/-- Home slice of an HBM address: R387 for a pinned line, else R383; none for any other address. -/
def homeSlice (s : State) (pa : Nat) : Option Nat :=
  match regionOf pa with
  | .hbm die =>
    match pinnedBy s pa die with
    | some l => l[hashOf pa % l.length]?
    | none => some (32 * die + hashOf pa)
  | _ => none

/-! ### Endpoints and paths (R459 to R463) -/

/-- The valid window that covers an address of the RoCEv2 region (R495). -/
def windowAt (s : State) (pa : Nat) : Option (BitVec 256) :=
  (s.windows.find? (fun w =>
    w.2.getLsbD 144 && decide ((w.2.extractLsb' 0 48).toNat ≤ pa) &&
      decide (pa < (w.2.extractLsb' 0 48).toNat + (w.2.extractLsb' 96 48).toNat))).map (·.2)

/-- Queue pair index of a window (R495). -/
def windowQp (w : BitVec 256) : Nat := (w.extractLsb' 150 10).toNat

/-- Endpoint of the host edge that serves a queue pair's Ethernet port (R462, R492, R493). -/
def hostEdge (s : State) (qp : Nat) : Nat := if (Tbl.look 0 s.qps qp).getLsbD 35 then 206 else 204

/-- Endpoint that serves a physical address for a unit on a die (R462, R488, R492, R496). -/
def endpointOf (s : State) (die pa : Nat) : Nat :=
  match regionOf pa with
  | .hbm _ => 128 + (homeSlice s pa).getD 0
  | .spm n _ => n
  | .roce => (match windowAt s pa with | some w => hostEdge s (windowQp w) | none => 204 + 2 * die)
  | .domain => 205 + 2 * die
  | .unpopulated => 228

/-- Router of an endpoint (R461). -/
def routerOf (e : Nat) : Nat × Nat :=
  if e < 128 then (8 * (e / 64) + e / 8 % 8, 5)
  else if e < 192 then (8 * ((e - 128) / 32) + e % 8, 1 + (e - 128) % 32 / 8)
  else if e < 204 then (8 * ((e - 192) / 6) + (if (e - 192) % 6 < 3 then (e - 192) % 6 else (e - 192) % 6 + 2), 0)
  else if e < 208 then (8 * ((e - 204) / 2) + 3 + e % 2, 0)
  else if e < 224 then (8 * ((e - 208) / 8) + e % 8, 5)
  else if e < 228 then (8 * (e % 2) + 3, 0)
  else (3, 0)

/-- Next stop along a ring of `n` from `a` to `b`: the shorter way, ascending at a tie (R463). -/
def ringNext (n a b : Nat) : Nat := if (b + n - a) % n ≤ n / 2 then (a + 1) % n else (a + n - 1) % n

/-- Next router from one to another: along X, then along Y (R463); none at the end. -/
def nextRouter (a b : Nat × Nat) : Option (Nat × Nat) :=
  if a.1 ≠ b.1 then some (ringNext 16 a.1 b.1, a.2)
  else if a.2 ≠ b.2 then some (a.1, ringNext 6 a.2 b.2)
  else none

/-- The attachment that an endpoint injects at, and its input there (R461). -/
def attachOf (e : Nat) : NetPoint × Nat := (.attach (routerOf e).1 (routerOf e).2, e)

/-- Device that a physical address belongs to (R364). -/
def deviceOf (s : State) (pa : Nat) : Nat :=
  match regionOf pa with
  | .domain => (pa - Config.domainBase) / 2 ^ 37
  | _ => s.device.toNat

/-! ### Late packets of units (R474, R475) -/

/-- A counter of late events saturates (R475). -/
def latePlus (n : BitVec 64) : BitVec 64 := if n = 0xFFFFFFFF then n else n + 1

/-- Count a late event on a core (R475). -/
def countLate (s : State) (core : Nat) : State := withCore s core (fun k => { k with latecnt := latePlus k.latecnt })

/-- The number that stands for a party: a context's own accesses, or one of its operations. -/
def partyCode (core ctx : Nat) (seq : Option Nat) : Nat :=
  match seq with
  | none => (core * 8 + ctx) * 2 ^ 33
  | some n => (core * 8 + ctx) * 2 ^ 33 + 1 + n

/-! ### Late packets (R474) -/

def sliceOf (s : State) (n : Nat) : Slice := Tbl.look Slice.init s.slices n

def withSlice (s : State) (n : Nat) (f : Slice → Slice) : State := { s with slices := Tbl.put s.slices n (f (sliceOf s n)) }

/-- Count a late packet that no context issued on its unit; a core's is traced as its own (R474, R475, R517, R518). -/
def countLateUnit (s : State) (p : Packet) : State :=
  let e := p.src.toNat
  if e < 128 then
    traceTrigger (traceEvent (countLate s e) e 4 7 p.vc.toNat (BitVec.ofNat 64 (p.tag.toNat * 2 ^ 48 + p.pa.toNat))) e 2 7
  else if e < 192 then withSlice s (e - 128) (fun k => { k with latecnt := latePlus k.latecnt })
  else { s with mgmtLate := s.mgmtLate + 1 }

/-! ### Packets (R464, R465, R468) -/

/-- Virtual channel of a packet type (R465). -/
def channelOf (typ : Nat) : Nat := if 4 ≤ typ ∧ typ ≤ 6 then 2 else if 0x10 ≤ typ then 1 else 0

/-- Types whose data flits hold the bytes at PA: WR and RDR; an AT carries operands and an ATR the old value, from byte 0 of
one flit; a CONTRIB whole flits (R464, R465, R482). -/
def flitStart (typ pa : Nat) : Nat := if typ = 2 ∨ typ = 0x10 then pa % 64 else 0

/-- Data flits of a packet that carries `n` bytes. -/
def flitCount (typ pa n : Nat) : Nat := if n = 0 then 0 else ceilDiv (flitStart typ pa + n) 64

/-- Byte enables of bytes `[lo, hi)` of a flit. -/
def enables (lo hi : Nat) : BitVec 64 := BitVec.ofNat 64 (2 ^ hi - 2 ^ lo)

/-- Enables of the first and the last data flit. -/
def flitEnables (typ pa n : Nat) : BitVec 64 × BitVec 64 :=
  let lo := flitStart typ pa
  let hi := lo + n
  if n = 0 then (0, 0) else (enables lo (min 64 hi), enables (if hi ≤ 64 then lo else 0) ((hi - 1) % 64 + 1))

/-- What identifies a new packet: its number, its issuer and where it goes. -/
structure Origin where
  id : Nat
  src : Nat
  srcCtx : Nat
  cookie : BitVec 64
  slk : BitVec 10
  scope : Nat
deriving DecidableEq, Repr

/-- A transaction tag for a request of a source: the first one from its number on that no outstanding request of the source
has (R464); the upper half is left to atomics. -/
def freeTag (s : State) (src id : Nat) : Nat :=
  let taken (t : Nat) : Bool := s.packets.any (fun p =>
    p.pkt.tag.toNat == t && ((p.pkt.vc != 1 && p.pkt.srcDev == s.device && p.pkt.src.toNat == src) ||
      (p.pkt.vc == 1 && p.pkt.dstDev == s.device && p.pkt.dst.toNat == src)))
  (((List.range (s.packets.length + 1)).map (fun k => (id + k) % 2 ^ 15)).find? (fun t => !taken t)).getD (id % 2 ^ 15)

/-- A packet of this device (R464). -/
def newPacket (s : State) (o : Origin) (typ dst dstDev pa : Nat) (aux : BitVec 32) (atw : Word) (data : List Byte) :
    Packet :=
  { typ := BitVec.ofNat 8 typ, vc := BitVec.ofNat 2 (channelOf typ), ndata := BitVec.ofNat 4 (flitCount typ pa data.length)
    slack := o.slk, late := o.slk == 0, exact := false, qres := 0, cookie := o.cookie, src := BitVec.ofNat 16 o.src
    srcDev := s.device, dst := BitVec.ofNat 16 dst, dstDev := BitVec.ofNat 10 dstDev, srcCtx := BitVec.ofNat 3 o.srcCtx
    scope := BitVec.ofNat 3 o.scope, tag := BitVec.ofNat 16 (freeTag s o.src o.id), pa := BitVec.ofNat 48 pa, aux := aux, atw := atw
    beFirst := (flitEnables typ pa data.length).1, beLast := (flitEnables typ pa data.length).2 }

/-- A packet where it is injected (R461, R468): one of slack 0 is late at once. -/
def netPacket (s : State) (id : Nat) (p : Packet) (data : List Byte) (op : Option (Nat × Nat × Nat)) : NetPacket :=
  { id := id, pkt := p, data := data, place := (attachOf p.src.toNat).1, input := (attachOf p.src.toNat).2
    lateAt := if p.slack = 0 then some s.time else none, sent := s.time, owed := 0, op := op, givers := [], acc := false
    cause := 0, note := none, touch := none }

def addPacket (s : State) (p : NetPacket) : State := { s with packets := s.packets ++ [p] }

/-- NETSLK of a unit (R468, R475, R494). -/
def netSlackOf (s : State) (e : Nat) : BitVec 10 :=
  if e < 128 then (coreOf s e).netslk.extractLsb' 0 10
  else if e < 192 then (sliceOf s (e - 128)).netslk.extractLsb' 0 10
  else (Tbl.look 0x3FF s.edgeSlk e).extractLsb' 0 10

/-- Traffic of a unit that no context issues sets out: one of slack 0 is late at once (R468, R474). -/
def sendUnit (s : State) (p : NetPacket) : State :=
  let s := addPacket s p
  if p.pkt.slack = 0 then countLateUnit s p.pkt else s

/-- Traffic of a unit that no context issues, with the unit's NETSLK and the bytes that it carries: write-backs, management
accesses, inbound requests over RoCEv2 (R468). Its effect is stated where it is sent; the packet only travels. -/
def sendTraffic (s : State) (src typ dst pa : Nat) (aux : BitVec 32) (data : List Byte) : State :=
  let id := s.nextReq
  let o : Origin := ⟨id, src, 7, 0, netSlackOf s src, 0⟩
  sendUnit { s with nextReq := id + 1 } (netPacket s id (newPacket s o typ dst s.device.toNat pa aux 0 data) data none)

/-- The same for one read or write of `len` bytes, a write with the bytes that stand there (R465). -/
def sendUnitAccess (s : State) (src : Nat) (wr : Bool) (dst pa len : Nat) : State :=
  sendTraffic s src (if wr then 2 else 1) dst pa (BitVec.ofNat 32 len) (if wr then physRead s pa len else [])

/-! ### Packets in the network -/

def findPacket (s : State) (id : Nat) : Option NetPacket := s.packets.find? (fun p => p.id == id)

/-- Which of a packet's decrements is next: its slack is one lower, and at 0 it is late (R469). -/
def decremented (now : Nat) (p : NetPacket) : NetPacket :=
  let k := p.pkt.slack - 1
  if p.pkt.slack = 0 then { p with owed := p.owed - 1 }
  else { p with owed := p.owed - 1, pkt := { p.pkt with slack := k, late := p.pkt.late || k == 0 }
                lateAt := if k = 0 then (match p.lateAt with | none => some now | t => t) else p.lateAt }

/-! ### The header flit (R464) -/

/-- The header flit of a packet. -/
def Packet.header (p : Packet) : BitVec 512 :=
  p.beLast ++ p.beFirst ++ p.atw ++ p.aux ++ (0 : BitVec 48) ++ p.pa ++ p.tag ++ p.scope ++ p.srcCtx ++ p.dstDev ++ p.dst ++
    p.srcDev ++ (0 : BitVec 6) ++ p.src ++ (0 : BitVec 16) ++ p.cookie ++ p.qres ++ BitVec.ofBool p.exact ++
    BitVec.ofBool p.late ++ p.slack ++ p.ndata ++ p.vc ++ (0 : BitVec 2) ++ p.typ

/-- The packet of a header flit. -/
def packetOfHeader (h : BitVec 512) : Packet :=
  { typ := h.extractLsb' 0 8, vc := h.extractLsb' 10 2, ndata := h.extractLsb' 12 4, slack := h.extractLsb' 16 10
    late := h.getLsbD 26, exact := h.getLsbD 27, qres := h.extractLsb' 28 4, cookie := h.extractLsb' 32 64
    src := h.extractLsb' 112 16, srcDev := h.extractLsb' 134 10, dst := h.extractLsb' 144 16, dstDev := h.extractLsb' 160 10
    srcCtx := h.extractLsb' 170 3, scope := h.extractLsb' 173 3, tag := h.extractLsb' 176 16, pa := h.extractLsb' 192 48
    aux := h.extractLsb' 288 32, atw := h.extractLsb' 320 64, beFirst := h.extractLsb' 384 64, beLast := h.extractLsb' 448 64 }

/-- The data flits that carry some bytes. -/
def flitsOf (p : Packet) (data : List Byte) : List (BitVec 512) :=
  let l := List.replicate (flitStart p.typ.toNat p.pa.toNat) (0 : Byte) ++ data
  (List.range p.ndata.toNat).map (fun i => BitVec.ofNat 512 (ofBytes ((l.drop (64 * i)).take 64)))

/-- The bytes that the data flits of a packet carry: `n` of them. -/
def flitData (p : Packet) (flits : List (BitVec 512)) (n : Nat) : List Byte :=
  ((flits.flatMap (fun f => toBytes 64 f.toNat)).drop (flitStart p.typ.toNat p.pa.toNat)).take n

end Sys2Proof.Machine
end

