-- ==== Sys2Proof/Machine/Home.lean ====
section
/-! DEFINITION. Homes: banks in transition, the export space, the lines of the cache slices, and writes at homes here and
outside the device (R211, R254, R334, R355, R366, R380, R382 to R389, R495, R496). -/

namespace Sys2Proof.Machine

/-! ### Banks in transition and gated units of a scratchpad (R211, R377 to R380) -/

/-- First byte and length of the banks that a carve in progress changes (R211). -/
def carveSpan (k : CoreSt) : Nat × Nat :=
  match k.carve with
  | none => (0, 0)
  | some c => (Config.spmBytes - 0x40000 * max k.tu c.tu, 0x40000 * (max k.tu c.tu - min k.tu c.tu))

/-- Bank of a scratchpad offset (R377). -/
def bankOf (off : Nat) : Nat := 32 * (off / 0x40000) + off / 64 % 32

/-- First byte of `[off, off + n)` in a bank in transition. -/
def carveHit (k : CoreSt) (off n : Nat) : Option Nat :=
  let (a, l) := carveSpan k
  if 0 < n ∧ off < a + l ∧ a < off + n then some (max off a) else none

/-- First scratchpad offset of some physical bytes that lies in a bank in transition (R211). -/
def carveAt (s : State) (pas : List Nat) : Option Nat :=
  pas.findSome? (fun pa =>
    match regionOf pa with
    | .spm n off => carveHit (coreOf s n) off 1
    | _ => none)

/-- An engine's access to gated units waits for their wake, after which every byte reads zero (R380). -/
def wakeFor (s : State) (core off n : Nat) : State :=
  let k := coreOf s core
  let us := (List.range 12).filter (fun u =>
    !k.spgAwake.getLsbD u && decide (0 < n ∧ off < 0x40000 * (u + 1) ∧ 0x40000 * u < off + n))
  us.foldl (fun s u => withCore s core (fun k =>
    { k with spgGate := k.spgGate &&& ~~~ (1#12 <<< u), spgAwake := k.spgAwake ||| (1#12 <<< u),
             spgWake := Tbl.del k.spgWake u })) s

/-- Wake the gated units of every scratchpad that some physical bytes lie in (R380). -/
def wakePas (s : State) (pas : List Nat) : State :=
  pas.foldl (fun s pa =>
    match regionOf pa with
    | .spm n off => wakeFor s n off 1
    | _ => s) s

/-! ### The export space (R366, R373) -/

/-- The offset in this device's export space that a domain address naming this device stands for (R366). -/
def ownExport (s : State) (pa : Nat) : Option Nat :=
  if Config.domainBase ≤ pa ∧ pa < Config.physEnd ∧ (pa - Config.domainBase) / 2 ^ 37 = s.device.toNat
  then some ((pa - Config.domainBase) % 2 ^ 37) else none

/-- A domain address naming this device translates its offset under ASID 0xFFFF, with RA (R366, R373). Other addresses
stand for themselves. -/
def resolveExport (s : State) (pa : Nat) (need : List Nat) : Except TrFault Nat :=
  match ownExport s pa with
  | none => .ok pa
  | some off => (translateWith s [] 0xFFFF off (permRa :: need)).map (·.1)

/-- The same for every byte of an access, which is so translated at once (DESIGN CHOICE, Assumption 87). -/
def resolveSpan (s : State) (need : List Nat) (pas : List Nat) : Except TrFault (List Nat) :=
  pas.mapM (fun a => resolveExport s a need)

/-- The hints of an access without hint fields: normal priority (R133). -/
def plainHint : CacheHint := ⟨1, false, false⟩

/-! ### Lines of a slice (R384, R385, R387) -/

/-- Set of an HBM address (R383). -/
def setOf (pa : Nat) : Nat := pa / 4096 % 2048

/-- Set of a line number. -/
def lineSet (l : Nat) : Nat := setOf (128 * l)

/-- Whether way `w` of a slice is powered and not asked to gate (R390, R391). -/
def wayEnabled (k : Slice) (w : Nat) : Bool := decide (w < 4) || (k.awake.getLsbD (w - 4) && !k.gate.getLsbD (w - 4))

/-- Powered ways of a slice. -/
def waysOn (k : Slice) : List Nat := (List.range 16).filter (wayEnabled k)

/-- Pinned ways that a set may hold: 12, or the enabled ways minus 4 (R387, R391). -/
def pinLimit (k : Slice) : Nat := (waysOn k).length - 4

/-- The least recently used line of the lowest priority present (R385). -/
def victimOf (ls : List Line) : Option Line :=
  ls.find? (fun l => ls.all (fun m => decide (l.prio ≤ m.prio)))

/-- Put a line into way `w` as the most recently used, in place of what stands there. -/
def placeLine (k : Slice) (n w prio : Nat) (dirty : Bool) : Slice :=
  { k with lines := k.lines.filter (fun l => !(lineSet l.line == lineSet n && l.way == w)) ++
      [{ line := n, way := w, prio := prio, dirty := dirty }] }

/-- Allocate a line in its set (R385, R387, R391): an invalid enabled way, else a victim's among the enabled ways; a pinned
line in a set whose pinned ways are all occupied takes the least recently used pinned one's. -/
def allocate (k : Slice) (n prio : Nat) (dirty : Bool) : Slice :=
  let inSet := k.lines.filter (fun l => lineSet l.line == lineSet n && wayEnabled k l.way)
  let pinnedLines := inSet.filter (fun l => l.prio == 3)
  match (if prio = 3 ∧ pinLimit k ≤ pinnedLines.length then pinnedLines.head? else none) with
  | some l => placeLine { k with pinOver := k.pinOver + 1 } n l.way prio dirty
  | none =>
    match (waysOn k).find? (fun w => !(inSet.any (fun l => l.way == w))) with
    | some w => placeLine k n w prio dirty
    | none =>
      match victimOf inSet with
      | some l => placeLine k n l.way prio dirty
      | none => k

/-- An access to a line of a slice (R384, R385). -/
def touchLine (k : Slice) (n : Nat) (pinned : Bool) (hint : CacheHint) (wr : Bool) : Slice :=
  let prio := if pinned then 3 else hint.evp.toNat
  match k.lines.find? (fun l => l.line == n) with
  | some l =>
    { k with lines := k.lines.filter (fun m => m.line != n) ++
        [{ l with prio := if l.prio = 3 then 3 else prio, dirty := l.dirty || wr }] }
  | none => if (if pinned then hint.own else hint.na) then k else allocate k n prio wr

/-- HBM controller of an address: unit v of a die is served by stack v mod 6 (R364, R462). -/
def controllerOf (pa : Nat) : Nat := 192 + 6 * (if pa < Config.hbmBase 1 then 0 else 1) + pa / 4096 % 6

/-- Write back the dirty lines that a slice no longer holds: their bytes stand at the home port already (R331); the packets
carry the slice's NETSLK (R384, R385, R468). -/
def writeBack (s : State) (slice : Nat) (before : List Line) : State :=
  (before.filter (fun l => l.dirty && !((sliceOf s slice).lines.any (fun m => m.line == l.line)))).foldl (fun s l =>
    sendUnitAccess s (128 + slice) true (controllerOf (128 * l.line)) (128 * l.line) 128) s

/-- Change a slice and write back what leaves it. -/
def withLines (s : State) (n : Nat) (f : Slice → Slice) : State := writeBack (withSlice s n f) n (sliceOf s n).lines

/-- An access to an address at its home; addresses outside HBM are not cached (R382). -/
def cacheAccess (s : State) (pa : Nat) (hint : CacheHint) (wr : Bool) : State :=
  match homeSlice s pa with
  | none => s
  | some k => withLines s k (fun x => touchLine x (pa / 128) (pinnedBy s pa (k / 32)).isSome hint wr)

/-- Accesses to every line that some addresses touch. -/
def touchLines (s : State) (pas : List Nat) (hint : CacheHint) (wr : Bool) : State :=
  ((pas.map (· / 128)).eraseDups).foldl (fun s l => cacheAccess s (128 * l) hint wr) s

/-- Cache class of the range that translates an address (R389). -/
def classWith (s : State) (table : List RtEntry) (asid : BitVec 16) (va : Nat) : Nat :=
  match translateWith s table asid va [] with
  | .ok (_, d) => dClass d
  | .error _ => 0

/-- Hints of an access as the range's cache class adjusts them (R389). -/
def adjustHint (cls : Nat) (h : Hint) : CacheHint :=
  match cls with
  | 1 => ⟨0, true, h.na⟩
  | 2 => ⟨2, h.na, h.na⟩
  | _ => ⟨h.evp, h.na, h.na⟩

/-- Virtual addresses from one on, with the physical ones that they stand for. -/
def mapped (va : Nat) (pas : List Nat) : List (Nat × Nat) := pas.zipIdx.map (fun x => (va + x.2, x.1))

/-- Accesses without hint fields through ranges, each adjusted by the class of its range (R384, R389). -/
def touchMapped (s : State) (table : List RtEntry) (asid : BitVec 16) (wr : Bool) (l : List (Nat × Nat)) : State :=
  ((l.map (fun x => (x.1 / 4096, x.2 / 128))).eraseDups).foldl
    (fun s x => cacheAccess s (128 * x.2) (adjustHint (classWith s table asid (4096 * x.1)) ⟨0, 1, false⟩) wr) s

/-- The line of an address is in its home slice. -/
def lineCached (s : State) (pa : Nat) : Bool :=
  match homeSlice s pa with
  | none => false
  | some k => (sliceOf s k).lines.any (fun l => l.line == pa / 128)

/-- A line stands where it belongs, with the pinning it should have. -/
def lineHomed (s : State) (k : Nat) (l : Line) : Bool :=
  decide (homeSlice s (128 * l.line) = some k) && ((l.prio == 3) == (pinnedBy s (128 * l.line) (k / 32)).isSome)

/-- A change of homes: every line whose home or pinning has changed is written back and invalidated (R388). -/
def rehome (s : State) : State :=
  (s.slices.map (·.1)).foldl (fun s k => withLines s k (fun x => { x with lines := x.lines.filter (lineHomed s k) })) s

/-! ### Memory outside the device -/

/-- Split physical addresses into runs that lie in one aligned 64-byte chunk, the atomic units of R332. -/
def chunksOf : List Nat → List (List Nat)
  | [] => []
  | a :: l =>
    match chunksOf l with
    | [] => [[a]]
    | [] :: cs => [a] :: cs
    | (b :: c) :: cs => if a / 64 = b / 64 then (a :: b :: c) :: cs else [a] :: (b :: c) :: cs

/-- Peer address and key of an address in a window (R495, R496). -/
def windowVa (w : BitVec 256) (pa : Nat) : Word := w.extractLsb' 192 64 + BitVec.ofNat 64 (pa - (w.extractLsb' 0 48).toNat)
def windowKey (w : BitVec 256) : BitVec 32 := w.extractLsb' 160 32

/-- State of a queue pair: 0 reset, 1 ready to send, 2 error (R493). -/
def qpState (s : State) (qp : Nat) : Nat := ((Tbl.look 0 s.qps qp).extractLsb' 32 2).toNat

/-- Whether an address lies outside this device. -/
def isOutside (s : State) (pa : Nat) : Bool :=
  match regionOf pa with
  | .roce => true
  | .domain => (ownExport s pa).isNone
  | _ => false

/-- Something answers at an address: a populated unit of this device, a window whose queue pair is not in error, or
another device (R364, R495, R496). -/
def reachable (s : State) (pa : Nat) : Bool :=
  match regionOf pa with
  | .unpopulated => false
  | .roce => (match windowAt s pa with | some w => qpState s (windowQp w) != 2 | none => false)
  | _ => true

/-- The work of the host engine for a run of bytes of a RoCEv2 peer (R496). -/
def sendRdma (s : State) (pa : Nat) (kind : RdmaKind) (req : Option Nat) (note : Option (Nat × Nat × BitVec 256)) : State :=
  match windowAt s pa with
  | none => s
  | some w => { s with outbound := s.outbound ++
      [{ qp := windowQp w, va := windowVa w pa, rkey := windowKey w, kind := kind, req := req, note := note }] }

/-- Split physical addresses into runs that lie in one aligned 64-byte chunk, with their bytes. -/
def runsOf (cells : List Host.Cell) : List (List Host.Cell) :=
  (chunksOf (cells.map (·.1))).map (fun c => cells.filter (fun x => c.contains x.1))

/-- Write a run of outside bytes for a party of the device itself: a packet to the host edge of its queue pair, where it
takes its turn among the queue pair's work, or one that leaves by the fabric (R334, R488, R496). `note` is the completion
record that it carries. While a log is followed nothing leaves the device (R523). -/
def writeOut (note : Option (Nat × Nat × BitVec 256)) (s : State) (cells : List Host.Cell) : State :=
  match cells with
  | [] => s
  | c :: _ =>
    if s.rplay.isSome then s
    else
      let id := s.nextReq
      let o : Origin := ⟨id, 204, 7, 0, netSlackOf s 204, 0⟩
      let b := cells.map (·.2)
      let p := newPacket s o 2 (endpointOf s 0 c.1) (deviceOf s c.1) c.1 (BitVec.ofNat 32 b.length) 0 b
      sendUnit { s with nextReq := id + 1 } { netPacket s id p b none with note := note }

/-! ### Homes of bytes, and ranges that move (R254, R355) -/

/-- The range of a relocation. -/
def movingRange (s : State) (r : BitVec 16 × Nat × BitVec 45 × Nat) : Option (BitVec 256) :=
  (directoryOf s r.1).find? (fun d => dVbase d = r.2.1)

/-- The place in the new backing of a byte of the old one, and the 64 KiB chunk that it belongs to. -/
def twinOf (s : State) (r : BitVec 16 × Nat × BitVec 45 × Nat) (pa : Nat) : Option (Nat × Nat) :=
  match movingRange s r with
  | none => none
  | some d => (unitBehind d (pa / 4096)).map (fun vp => (unitAddr vp r.2.2.1.toInt + pa % 4096, (vp - dVbase d) / 16))

/-- While a range relocates, a write to its old backing goes to the new one too (R254, R355). -/
def mirrored (s : State) (cells : List Host.Cell) : List Host.Cell :=
  s.relocs.flatMap (fun r => cells.filterMap (fun c => (twinOf s r c.1).map (fun t => (t.1, c.2))))

/-- The place in the old backing of a byte of the new one, in a chunk that has moved. -/
def originOf (s : State) (r : BitVec 16 × Nat × BitVec 45 × Nat) (pa : Nat) : Option Nat :=
  match movingRange s r with
  | none => none
  | some d =>
    let k := ((((pa / 4096 : Nat) : Int) - r.2.2.1.toInt - dVbase d) % (2 ^ 36 : Int)).toNat
    if k < dLen d ∧ k / 16 < r.2.2.2 then some (unitAddr (dVbase d + k) (dOff d) + pa % 4096) else none

/-- What stands at the new place of a chunk that moved stands at its old place too, where reads still go (R254, R355). -/
def oldCopies (s : State) (cells : List Host.Cell) : List Host.Cell :=
  s.relocs.flatMap (fun r => cells.filterMap (fun c => (originOf s r c.1).map (fun a => (a, c.2))))

/-- The 64-byte chunks of this device among some addresses. -/
def insideChunks (s : State) (pas : List Nat) : List (List Nat) := chunksOf (pas.filter (fun a => !isOutside s a))

/-- Store bytes of this device at their homes, and those of outside memory at their parties. -/
def storeCells (s : State) (cells : List Host.Cell) : State :=
  (runsOf (cells.filter (fun c => isOutside s c.1))).foldl (writeOut none)
    (physWrite s (cells.filter (fun c => !isOutside s c.1)))

/-- Store bytes at their homes, and where a range moves at both places. -/
def homeWrite (s : State) (cells : List Host.Cell) : State :=
  match s.relocs with
  | [] => physWrite s cells
  | _ => storeCells (physWrite s cells) (mirrored s cells)

/-- Write cells for a party of the device itself: those of this device at their homes, those outside as work for their
parties; where a range moves at both places (R254, R334, R355, R496). -/
def writeCells (s : State) (cells : List Host.Cell) : State :=
  let out := cells.filter (fun c => isOutside s c.1)
  let s := (runsOf out).foldl (writeOut none) (homeWrite s (cells.filter (fun c => !isOutside s c.1)))
  match s.relocs with
  | [] => s
  | _ => storeCells s (mirrored s out)

/-! ### Presence codes (R438, R439) -/

/-- Code of the pair at position `j` of a map byte (R438). -/
def codeOf (b : Byte) (j : Nat) : Nat := b.toNat / 4 ^ j % 4

/-- A map byte with the code of position `j` replaced. -/
def setCode (b : Byte) (j v : Nat) : Byte := BitVec.ofNat 8 (b.toNat - codeOf b j * 4 ^ j + v * 4 ^ j)

/-- Change a pair's code from one value to another, leaving any other code (R439). The pair is named by its key. -/
def changeCode (s : State) (key old new : Nat) : State :=
  let b := memByte s.mem (key / 4)
  if codeOf b (key % 4) = old then homeWrite s [(key / 4, setCode b (key % 4) new)] else s

end Sys2Proof.Machine
end

