-- ==== Sys2Proof/Machine/Ops.lean ====
section
/-! DEFINITION. Asynchronous operations and their tokens; taking an exception and returning from one (R17, R194, R197 to
R199, R418, R498 to R506). -/

namespace Sys2Proof.Machine

/-! ### Asynchronous operations (R17, R194, R197 to R199) -/

/-- A fresh operation of the executing context. -/
def newOp (s : State) (i : Instr) (tok : Reg) : Op :=
  let c := me s
  { core := s.cur.1, ctx := s.cur.2, seq := (c.cseq + 1).toNat, instr := i, tok := tok.toNat, data := 0, asid := c.asid,
    cookie := cookieOf s s.cur.1 s.cur.2, a := 0, b := 0, c := 0, t := 0, pas := [], slk := 0x3FF, tiles := [],
    rows := rowsOf c, cols := colsOf c, nums := [], bytes := [], parts := [], pattern := Pattern.init, rm := 0, seeds := [], busy := [], done := [],
    count := 0, started := false, susp := none, orphan := false, waits := [], issued := s.time,
    chunk := 0, ending := none }

/-- Operations of a context that have not completed. -/
def outstanding (s : State) (core ctx : Nat) : List Op := s.ops.filter (fun o => o.core = core && o.ctx = ctx)

/-- Room for one more operation of the executing context (R197). -/
def opRoom (s : State) : Except Stop Unit :=
  if 32 ≤ (outstanding s s.cur.1 s.cur.2).length then .error .hold else .ok ()

/-- Issue an operation: at most 32 are outstanding (R197); it takes the next sequence number (R507), and its token is
remembered for the fixed part of a save (R64). -/
def issueOp (s : State) (o : Op) : Except Stop State :=
  if 32 ≤ (outstanding s s.cur.1 s.cur.2).length then .error .hold
  else
    let s := withMe s (fun c =>
      { c with cseq := c.cseq + 1
               named := if o.tok = 0 || c.named.contains o.tok then c.named else c.named ++ [o.tok] })
    .ok { s with ops := s.ops ++ [o] }

def sameOp (o p : Op) : Bool := o.core = p.core && o.ctx = p.ctx && o.seq = p.seq

def findOp (s : State) (core ctx seq : Nat) : Option Op :=
  s.ops.find? (fun o => o.core = core && o.ctx = ctx && o.seq = seq)

def removeOp (s : State) (o : Op) : State := { s with ops := s.ops.filter (fun p => !sameOp o p) }

def updateOp (s : State) (o : Op) : State := { s with ops := s.ops.map (fun p => if sameOp o p then o else p) }

/-- Write a scalar of a context at once; pending program writes to it never become visible (R17). -/
def writeScalarNow (s : State) (core ctx r : Nat) (v : Word) : State :=
  if r = 0 then s
  else withCtx s core ctx (fun c =>
    { c with scalars := Tbl.put c.scalars r v, pend := c.pend.filter (fun p => p.w.part ≠ (0, r, 0)) })

/-- Token values (R18). -/
def tokenOk (count : Nat) : Word := BitVec.ofNat 64 (count % 2 ^ 32)
def tokenError (count : Nat) : Word := 0x4000000000000000 ||| BitVec.ofNat 64 (count % 2 ^ 32)
def tokenCancelled : Word := 0x8000000000000000

/-- A tag fill that ends other than OK leaves its slot invalid (R381). -/
def dropFill (s : State) (o : Op) : State :=
  withCore s o.core (fun k => { k with tags := k.tags.filter (fun e => e.2.fill != some (o.ctx, o.seq)) })

/-- The command or stream that an engine's access belongs to; none for a direct access or a remote flag packet. -/
def ReqKind.engineSeq : ReqKind → Option Nat
  | .read q _ _ | .write q _ _ _ | .code q _ _ _ _ | .swap q _ _ _ _ => some q
  | .store _ | .load _ | .atomic _ _ | .flag _ _ => none

/-- An access of a command or stream of a context. -/
def Req.engineOf (r : Req) (core ctx seq : Nat) : Bool :=
  r.core == core && r.ctx == ctx && r.kind.engineSeq == some seq

/-- A direct access or remote flag packet of a context (R194). -/
def Req.directOf (r : Req) (core ctx : Nat) : Bool := r.core == core && r.ctx == ctx && r.kind.engineSeq.isNone

/-- Forget the accesses of a command or stream. -/
def dropEngineReqs (s : State) (core ctx seq : Nat) : State :=
  { s with reqs := s.reqs.filter (fun r => !r.engineOf core ctx seq) }

/-- An access of a command or stream has still to perform (R345). -/
def accessPending (s : State) (core ctx seq : Nat) : Bool :=
  s.reqs.any (fun r => r.engineOf core ctx seq && !r.performed)

/-- A claim of a pair that raised no request yet: the queue of fills had no room for it (R446). -/
def claimUnserved (o : Op) (r : Req) : Option Nat :=
  match r.kind with
  | .code q t key 2 3 =>
    if r.core == o.core && r.ctx == o.ctx && q == o.seq && r.value == [2, 0] && !o.done.contains t && !o.waits.contains key
    then some key else none
  | _ => none

/-- A command that ends leaves FILLING where a fill is queued or running only: a pair that it claimed and whose request waited
for room goes back to GAP (R439, R445, R451). -/
def releaseClaims (s : State) (o : Op) : State :=
  (s.reqs.filterMap (claimUnserved o)).foldl (fun s key => changeCode s key 3 2) s

/-- The trace records of a command that ends other than OK: a cancelled fill with its slot, a token error with an address (R517). -/
def traceToken (s : State) (o : Op) (tok addr : Word) : State :=
  if tok.extractLsb' 62 2 = 1 then traceEvent s o.core 3 o.ctx 5 addr
  else if tok.extractLsb' 62 2 = 2 then
    match (coreOf s o.core).tags.find? (fun e => e.2.fill == some (o.ctx, o.seq)) with
    | some e => traceEvent s o.core 3 o.ctx 1 (BitVec.ofNat 64 e.1)
    | none => s
  else s

/-- Complete an operation: write its token, clear its busy bits, forget it and its accesses (R17, R31). -/
def endToken (s : State) (o : Op) (tok addr : Word) : State :=
  let s := if tok.extractLsb' 62 2 = 0 then s else releaseClaims s o
  let s := dropEngineReqs s o.core o.ctx o.seq
  let s := writeScalarNow (removeOp s o) o.core o.ctx o.tok tok
  if tok.extractLsb' 62 2 = 0 then s else dropFill (traceToken s o tok addr) o

/-- A token error that no fault brings about has no address of its own: its record shows operand A (DESIGN CHOICE, log 132). -/
def finishOp (s : State) (o : Op) (tok : Word) : State := endToken s o tok o.a

/-- Insert a pending engine fault by ascending sequence number (R499). -/
def insertStop (t : TrapInfo) : List TrapInfo → List TrapInfo
  | [] => [t]
  | u :: l => if t.cseq.toNat < u.cseq.toNat then t :: u :: l else u :: insertStop t l

/-- The engine numbers of R501. -/
def engineOf : Instr → Nat
  | .ld .. | .ldX .. | .st .. | .stX .. | .am .. | .red .. => 2
  | .cp .. | .cpG .. | .cpS .. | .tagFl .. | .tagEv .. | .tagEvWb .. | .tdMk .. | .pfT .. | .pin .. | .unpin .. => 3
  | .qBind .. | .qDrain .. => 4
  | .spmCarve .. => 5
  | .chain .. | .kvSv .. => 6
  | .mmIp .. | .mmOp .. | .mmRw .. | .mmZIp .. | .mmZRw .. | .mmMerge .. | .mmOut .. | .bmpMk .. | .bmpCnt ..
  | .spzPack .. | .spzPackB .. | .spzUnpk .. => 7
  | .cmxPack .. | .cmxRest .. => 8
  | .moeRoute .. => 9
  | .kvChk .. | .cpKvchk .. => 10
  | .put .. | .get .. | .mcast .. | .acSet .. | .acAdd .. | .ntfX .. => 11
  | .rngIns .. | .rngDel .. | .rngSplit .. | .rngMerge .. | .rngInv .. | .rngReloc .. | .rngResOr .. | .rngResAndn ..
  | .rngResWr .. | .rngRd .. => 12
  | _ => 0

/-- The slot of an operation's word (R108, R134 to R138). -/
def slotNumber (i : Instr) : Nat :=
  match slotsOf i with
  | [] => 7
  | sl :: _ => sl.idx

/-- The stop an operation leaves: its cause, engine, slot, sequence number and engine status (R198, R500, R501). -/
def opStop (o : Op) (cause : Nat) (addr detail : Word) (index : BitVec 32) (estat : BitVec 32) : TrapInfo :=
  { cause := cause, addr := addr, detail := detail, index := index, engine := engineOf o.instr, slot := slotNumber o.instr,
    cseq := BitVec.ofNat 32 o.seq, estat := estat }

/-- An engine fault becomes a pending stop of its context; its status word is free (R499, R501). -/
def addStop (s : State) (core ctx : Nat) (t : BitVec 32 → TrapInfo) : State :=
  withCtx { s with fresh := s.fresh + 1 } core ctx (fun c =>
    { c with stops := insertStop (t (Config.engineStatus s.fresh)) c.stops })

/-- Write the token that a command ends with, and make its stop pending where what issued it goes on (R198). -/
def settleEnd (s : State) (o : Op) (tok : Word) (stop : Option TrapInfo) : State :=
  let s := endToken s o tok ((stop.map (·.addr)).getD o.a)
  match stop with
  | some t => if o.orphan then s else addStop s o.core o.ctx (fun e => { t with estat := e })
  | none => s

/-- End a command other than by its success, once the accesses that it made have performed (R345). -/
def endOp (s : State) (o : Op) (tok : Word) (stop : Option TrapInfo) : State :=
  if accessPending s o.core o.ctx o.seq then updateOp s { o with susp := none, ending := some (tok, stop) }
  else settleEnd s o tok stop

/-- Any other fault ends the command: token error with count 0, and a pending stop where what issued it goes on (R198). -/
def failOp (s : State) (o : Op) (cause : Nat) (addr detail : Word) (index : BitVec 32) : State :=
  endOp s o (tokenError 0) (some (opStop o cause addr detail index 0))

/-- A translation fault suspends the command and leaves a pending stop; where what issued it has ended, the command is
cancelled (R198). -/
def suspendOp (s : State) (o : Op) (cause : Nat) (addr : Word) (index : BitVec 32) : State :=
  if o.orphan then endOp s o tokenCancelled none
  else
    addStop (updateOp s { o with susp := some (opStop o cause addr 0 index 0) }) o.core o.ctx (opStop o cause addr 0 index)

/-- The operation waits for a handler: it is suspended, or its drain is one of a suspended stream (R198, R227). -/
def opSuspended (s : State) (o : Op) : Bool :=
  o.ending.isNone &&
    (o.susp.isSome || (ctxOf s o.core o.ctx).streams.any (fun q => q.2.susp && q.2.drain == some o.seq))

/-- Cancel the suspended commands of a context: their tokens read cancelled (R198). -/
def cancelSuspended (s : State) (core ctx : Nat) : State :=
  ((outstanding s core ctx).filter (opSuspended s)).foldl (fun s o => endOp s o tokenCancelled none) s

/-- What a context has under way outlives its task or service work: its faults stop nothing any more (R178, R418). -/
def orphanWork (s : State) (core ctx : Nat) : State :=
  { s with ops := s.ops.map (fun o => if o.core = core ∧ o.ctx = ctx then { o with orphan := true } else o)
           reqs := s.reqs.map (fun r => if r.core = core ∧ r.ctx = ctx then { r with orphan := true } else r) }

/-- A context runs no longer: were it the owner of its core, ownership passes (R422). -/
def leaveOwner (s : State) (core ctx : Nat) : State :=
  withCore s core (fun k => if k.owner = ctx then { k with passing := true } else k)

/-! ### The end of a launch (R418) -/

/-- Stop one context of a launch that ends: no save, its suspended commands cancelled. -/
def stopCtx (s : State) (core ctx : Nat) : State :=
  let s := orphanWork (cancelSuspended (flush s core ctx) core ctx) core ctx
  withCtx (leaveOwner s core ctx) core ctx (fun c =>
    match c.status with
    | .free => c
    | .halted _ => c
    | _ => { c with status := .stopped, after := [], stops := [], unc := [], late := [], waits := [], toSave := none, preempt := none })

/-- Whether a context's task belongs to a launch. -/
def ofLaunch (s : State) (lid core ctx : Nat) : Bool :=
  match (ctxOf s core ctx).task with
  | some t => t.launch = lid
  | none => false

/-- Free the service context of a core: its suspended commands are cancelled, and its row merge buffer is free (R198, R317).
Its command numbers go on, so that a command that outlives its work keeps a number of its own. -/
def freeService (s : State) (core : Nat) : State :=
  withCore (leaveOwner (orphanWork (cancelSuspended s core 4) core 4) core 4) core (fun k =>
    let c := Tbl.look Ctx.init k.ctxs 4
    { k with service := none, merge := if k.merge.owner = some 4 then MergeBuf.init else k.merge
             ctxs := Tbl.put k.ctxs 4 { Ctx.init with cseq := c.cseq, lastIssue := c.lastIssue } })

/-- Which context or request a piece of service work serves. -/
def serves (s : State) (lid core : Nat) : Service → Bool
  | .handler k => ofLaunch s lid core k
  | .save k => ofLaunch s lid core k
  | .restore _ => ofLaunch s lid core 4
  | .fill _ => false

def stopCore (lid : Nat) (s : State) (core : Nat) : State :=
  let k := coreOf s core
  let s := match k.service with
    | some w => if serves s lid core w then freeService s core else s
    | none => s
  let s := withCore s core (fun k => { k with work := k.work.filter (fun w => !serves s lid core w) })
  (List.range 4).foldl (fun s c => if ofLaunch s lid core c then stopCtx s core c else s) s

/-- A launch that ends: it binds nothing further, and its saved images are discarded (R418). -/
def Launch.ended (l : Launch) (e : Ending) : Launch :=
  { l with
    status := .ending e
    tasks := l.tasks.map (fun t =>
      match t.status with
      | .saved _ _ => { t with status := .finished, image := none }
      | .unbound => { t with status := .finished }
      | _ => t) }

/-- Every running task of a launch that ends stops (R418). -/
def stopLaunch (s : State) (lid : Nat) : State := (s.cores.map (·.1)).foldl (stopCore lid) s

/-- End a launch: bind nothing further, stop its tasks, discard its saved images (R418). The first end decides. -/
def endLaunch (s : State) (lid : Nat) (e : Ending) : State :=
  match Tbl.find s.launches lid with
  | none => s
  | some l =>
    match l.status with
    | .ending _ => s
    | .ended => s
    | _ => stopLaunch { s with launches := Tbl.put s.launches lid (l.ended e) } lid

/-- A task's halt or fault ends its launch. Of several in one cycle the lowest CTXID decides, so that the launch's other tasks
stop when the cycle is over (`stopEnded`); `place` is the deciding task's (R418). -/
def endLaunchBy (s : State) (lid : Nat) (e : Ending) (place : Nat) : State :=
  match Tbl.find s.launches lid with
  | none => s
  | some l =>
    let mark (l : Launch) : State := { s with launches := Tbl.put s.launches lid { l with endedBy := some (s.time, place) } }
    match l.status, l.endedBy with
    | .ended, _ => s
    | .ending _, some (t, p) => if t = s.time ∧ place < p then mark { l with status := .ending e } else s
    | .ending _, none => s
    | _, _ => mark (l.ended e)

/-- The cycle is over: the tasks of the launches that a halt or a fault ended in it stop before their next bundles (R418). -/
def stopEnded (s : State) : State :=
  s.launches.foldl (fun s p =>
    match p.2.status, p.2.endedBy with
    | .ending _, some (t, _) => if t = s.time then stopLaunch s p.1 else s
    | _, _ => s) s

/-! ### Taking an exception and returning from one (R498 to R506) -/

/-- The trap record (R501). `after` says that RESUME is the successor of BADDR. -/
def trapRecord (t : TrapInfo) (resume baddr : BitVec 56) (icnt : Nat) (after : Bool) (ctx : Nat) (susp : Bool)
    (more : Nat) : BitVec 512 :=
  t.addr ++ t.detail ++ t.index ++ t.estat ++ t.cseq ++ resume ++ baddr ++ BitVec.ofNat 48 icnt ++ (0 : BitVec 96) ++
    BitVec.ofNat 8 t.cause ++ BitVec.ofNat 4 t.engine ++ BitVec.ofNat 3 t.slot ++ BitVec.ofBool after ++
    BitVec.ofNat 3 ctx ++ BitVec.ofBool susp ++ BitVec.ofNat 4 (min more 15) ++ (0 : BitVec 8)

/-- Pending stops of a context (R499). -/
def stopCount (c : Ctx) : Nat := c.after.length + c.stops.length + c.unc.length + c.late.length

/-- A handler's `done` or fault, or a stop of the service context, ends the launch it works for with STATUS FAULT
(R505, R506). -/
def faultLaunch (s : State) (core ctx cause : Nat) : State :=
  match (ctxOf s core ctx).task with
  | some t => endLaunchBy s t.launch { status := 2, code := 0, cause := BitVec.ofNat 8 cause } (ctxidPlace core ctx)
  | none => s

/-- What a fault of the service context does beyond its record (R506). A fill task stays stopped until FILL_FAIL. -/
def serviceFault (s : State) (core cause : Nat) : State :=
  match (coreOf s core).service with
  | some (.handler k) => freeService (faultLaunch (cancelSuspended s core k) core k cause) core
  | some (.save _) | some (.restore _) => freeService (faultLaunch s core 4 cause) core
  | _ => s

/-- Virtual address of the trap record of a context (R502). -/
def recordVa (s : State) (core ctx : Nat) : Nat := (s.trapva + BitVec.ofNat 64 (64 * (5 * core + ctx))).toNat

/-- Why bytes at physical addresses cannot be written: a bank in transition, or an address that nothing answers at (R211,
R364, R496). -/
def writeFault (s : State) (pas : List Nat) : Option TrFault :=
  match carveAt s pas with
  | some b => some ⟨causeCarve, 0, b⟩
  | none => (pas.find? (fun a => !reachable s a)).map (fun a => ⟨causeUnc, 0, a⟩)

/-- Write a trap record at its place, under the ASID of the context that stopped; the write can fail like any other
(R502). -/
def writeRecord (s : State) (core ctx : Nat) (rcd : BitVec 512) : Except TrFault State := do
  let need := [permRd, permWr]
  let l ← translateSpan s (tableFor s core 4) (ctxOf s core ctx).asid (recordVa s core ctx) 64 need
  let pas ← resolveSpan s need l
  match writeFault s pas with
  | some e => .error e
  | none => 
    let s := touchMapped (wakePas s pas) (tableFor s core 4) (ctxOf s core ctx).asid true (mapped (recordVa s core ctx) pas)
    .ok (writeCells s (pas.zip (toBytes 64 rcd.toNat)))

/-- A stop of the service context: its record, then what R506 says; a record that cannot be written decides with its own
cause (R502). -/
def serviceStop (s : State) (core : Nat) (rcd : BitVec 512) (cause : Nat) : State :=
  match writeRecord s core 4 rcd with
  | .ok s => serviceFault s core cause
  | .error e => serviceFault (faultLaunch s core 4 e.cause) core e.cause

/-- Take an exception: make pending writes visible (R143), keep the trap record (R501) until HANDLER_START writes it
(R502), freeze the context at its resume address and ask the core's service context for a handler (R503). The count to
escalation pauses (R510). -/
def takeTrap (s : State) (core ctx : Nat) (t : TrapInfo) (resume baddr : BitVec 56) (after : Bool) : State :=
  let s := flush s core ctx
  let c := ctxOf s core ctx
  let susp := (outstanding s core ctx).any (fun o => o.susp.isSome) || c.streams.any (fun q => q.2.susp)
  let rcd := trapRecord t resume baddr c.icount after ctx susp (stopCount c)
  let s := setCtx s core ctx { c with status := .frozen, record := some rcd, resume := resume, pc := resume
                                      preempt := c.preempt.map (· - s.time), asked := s.time }
  let s := leaveOwner s core ctx
  let s := traceTrigger (traceEvent s core 6 ctx t.cause (baddr.setWidth 64)) core 1 ctx
  if ctx = 4 then serviceStop s core rcd t.cause
  else withCore s core (fun k => { k with work := k.work ++ [.handler ctx] })

/-- Return from an exception: the frozen context runs again from its resume address, or waits again after its `done`;
the commands and streams whose stop has been handled restart, and the count to escalation goes on (R177, R189, R198,
R505, R510). The resume address is checked as a transfer's that failed there was, else under checks 1 and 2 (R126); the
record's AFTER bit says whether it is a successor. -/
def returnFromTrap (s : State) (core ctx : Nat) : State :=
  let left := (ctxOf s core ctx).stops.map (fun t => t.cseq.toNat)
  let s := withCtx s core ctx (fun c =>
    { c with status := if c.ended then .finishing else .running, record := none, pc := c.resume
             preempt := c.preempt.map (· + s.time)
             target := some (c.target.getD .plain)
             fromTransfer := if c.target.isSome then c.fromTransfer else (c.record.getD 0).getLsbD 16
             streams := c.streams.map (fun q => (q.1, if left.contains (if q.2.seq < 2 ^ 32 then q.2.seq else 0) then q.2 else { q.2 with susp := false })) })
  { s with ops := s.ops.map (fun o =>
      if o.core = core && o.ctx = ctx && !left.contains o.seq then { o with susp := none } else o) }

/-- An access to a gated scratchpad unit clears its GATE bit and starts its wake of 256 cycles (R380). -/
def startWake (s : State) (core u : Nat) : State :=
  withCore s core (fun k =>
    { k with spgGate := k.spgGate &&& ~~~ (1#12 <<< u)
             spgWake := match Tbl.find k.spgWake u with
               | some _ => k.spgWake
               | none => Tbl.put k.spgWake u (s.time + 256) })

/-- How an instruction's effect ends: a next state; the exception it takes at issue, at the executing bundle's address;
a hold, in which nothing happens (R129, R144); or a stop of the model. -/
def settle (s : State) (r : Except Stop State) : Host.Outcome State Fault Refusal :=
  match r with
  | .ok t => .next t
  | .error (.trap t) => .next (takeTrap s s.cur.1 s.cur.2 t s.fly.ba s.fly.ba false)
  | .error .hold => .next s
  | .error (.wake n u) => .next (startWake s n u)
  | .error (.fault f) => .fault f

end Sys2Proof.Machine
end

