-- ==== Sys2Proof/Machine/Operands.lean ====
section
/-! DEFINITION. Every operand form: scratchpad offsets, virtual addresses through ranges, tile registers and their
tags, SHAPE, stream registers and resolved rounding (R30, R34, R43, R57, R80, R193 to R196, R364 to R373, R377). -/

namespace Sys2Proof.Machine

/-! ### Scratchpad operands -/

/-- First gated unit that `[off, off + n)` touches (R379). -/
def gatedUnit (k : CoreSt) (off n : Nat) : Option Nat :=
  if n = 0 then none
  else (List.range 12).find? (fun u => !k.spgAwake.getLsbD u && decide (off < 0x40000 * (u + 1) ∧ 0x40000 * u < off + n))

/-- The bytes `[off, off + n)` lie in the scratchpad (R57, R193). -/
def spmBounds (engine slot off n : Nat) : Except Stop Unit :=
  check (n = 0 || off + n ≤ Config.spmBytes)
    (trapping causeMiss engine slot (BitVec.ofNat 64 (max off Config.spmBytes)))

/-- A local access of the bundle: in bounds (R57), outside banks in transition (R211), its units awake (R380). -/
def spmLocal (s : State) (engine slot off n : Nat) : Except Stop Unit := do
  match gatedUnit (here s) off n with
  | some u => .error (.wake s.cur.1 u)
  | none => .ok ()
  spmBounds engine slot off n
  match carveHit (here s) off n with
  | some b => trapping causeCarve engine slot (BitVec.ofNat 64 b) (BitVec.ofNat 64 (bankOf b))
  | none => .ok ()

/-- Alignment (R196). -/
def aligned (engine slot : Nat) (addr : Word) (n : Nat) : Except Stop Unit :=
  check (addr.toNat % n = 0) (trapping causeAlign engine slot addr)

/-- Base scalar plus signed displacement, modulo 2^64 (R193). -/
def effAddr (base : Word) (off : Imm) : Word := base + off.signExtend 64

/-- The scratchpad as the executing bundle reads it (R123). -/
def spmSlice (s : State) (off n : Nat) : List Byte := spmRead s s.cur.1 off n

/-- Stage a local store; it performs when the bundle's reads have (R123). -/
def stage (s : State) (off : Nat) (b : List Byte) : State :=
  { s with fly := { s.fly with stores := s.fly.stores ++ cellsAt off b } }

/-! ### Range table upkeep -/

/-- Install the descriptor of a walk for a unit (R369): an invalid entry, else the least recently used one. -/
def installEntry (s : State) (core ctx : Nat) (asid : BitVec 16) (vp : Nat) : State :=
  match lookup (tableFor s core ctx) asid vp with
  | some _ => s
  | none =>
    match walk s asid vp with
    | none => s
    | some (d, pos) =>
      let e : RtEntry := { asid := asid, desc := d, pos := pos, used := s.time }
      let add (l : List RtEntry) (cap : Nat) : List RtEntry :=
        if l.length < cap then l ++ [e]
        else
          let oldest := (l.map (·.used)).foldl min s.time
          let keep := (l.findIdx? (fun x => x.used = oldest)).getD 0
          l.eraseIdx keep ++ [e]
      withCore s core (fun k =>
        if ctx = 4 then { k with rserv := add k.rserv 4 } else { k with rtask := add k.rtask 44 })

/-- Record the use of the entries that cover a unit, for the least-recently-used choice (R369). -/
def touchEntry (s : State) (core ctx : Nat) (asid : BitVec 16) (vp : Nat) : State :=
  let mark (l : List RtEntry) := l.map (fun e => if e.asid = asid && covers e.desc vp then { e with used := s.time } else e)
  withCore s core (fun k =>
    if ctx = 4 then { k with rserv := mark k.rserv } else { k with rtask := mark k.rtask })

/-- Install or touch the entries behind `[va, va + n)` for a context. -/
def useEntries (s : State) (core ctx : Nat) (asid : BitVec 16) (va n : Nat) : State :=
  (pieces (n / 4096 + 2) va n).foldl (fun s p =>
    touchEntry (installEntry s core ctx asid (p.1 / 4096)) core ctx asid (p.1 / 4096)) s

/-! ### The writes of a fill task (R373, R437, R450) -/

/-- The fields of a key-value descriptor (R435). -/
structure KvDesc where
  valid : Bool
  nslot : Nat
  nlayer : Nat
  lstride : Nat
  sstride : Nat
  kvbase : Nat
  pbase : Nat
  esstride : Nat
  eschunk : Nat
  esbase : Nat
  fkarg : Word
  fkentry : Nat
  clean : Bool             -- every reserved bit is zero
deriving DecidableEq, Repr

def kvDescOf (d : BitVec 512) : KvDesc :=
  { valid := d.getLsbD 0, nslot := (d.extractLsb' 16 32).toNat, nlayer := (d.extractLsb' 48 16).toNat
    lstride := (d.extractLsb' 64 64).toNat, sstride := (d.extractLsb' 128 32).toNat
    kvbase := (d.extractLsb' 168 56).toNat, pbase := (d.extractLsb' 232 56).toNat
    esstride := (d.extractLsb' 288 32).toNat, eschunk := (d.extractLsb' 320 8).toNat
    esbase := (d.extractLsb' 328 56).toNat, fkarg := d.extractLsb' 384 64, fkentry := (d.extractLsb' 456 56).toNat
    clean := d.extractLsb' 1 15 = 0 && d.extractLsb' 160 8 = 0 && d.extractLsb' 224 8 = 0 && d.extractLsb' 448 8 = 0 }

def dieAt (s : State) (n : Nat) : Die := Tbl.look Die.init s.dies n

/-- The entry that a core's service context runs, with its die. -/
def runningFill (s : State) (core : Nat) : Option (Nat × FillReq) :=
  match (coreOf s core).service with
  | some (.fill id) => (List.range 2).findSome? (fun d => ((dieAt s d).fills.find? (fun f => f.id == id)).map (fun f => (d, f)))
  | _ => none

/-- A byte of a slot record of a descriptor (R437). -/
def inSlotRecord (d : KvDesc) (a : Nat) : Bool :=
  let off := a - d.kvbase
  decide (d.kvbase ≤ a ∧ off < d.nlayer * d.lstride ∧ off % d.lstride / d.sstride < d.nslot)

/-- The slot records that a fill task writes need KV as well: the first byte written without it (R373, R450). -/
def fillFault (s : State) (core ctx : Nat) (asid : BitVec 16) (va n : Nat) (need : List Nat) : Option TrFault :=
  if ctx = 4 ∧ need.contains permWr then
    match runningFill s core with
    | none => none
    | some (_, f) =>
      let d := kvDescOf f.desc
      (List.range n).findSome? (fun i =>
        if inSlotRecord d (va + i) then
          match translateWith s (tableFor s core ctx) asid (va + i) (permKv :: need) with
          | .error e => some e
          | .ok _ => none
        else none)
  else none

/-- Physical addresses of the bytes of an access of a context, with the permissions that its kind needs (R195, R373). -/
def accessSpan (s : State) (core ctx : Nat) (asid : BitVec 16) (va n : Nat) (need : List Nat) : Except TrFault (List Nat) :=
  match translateSpan s (tableFor s core ctx) asid va n need, fillFault s core ctx asid va n need with
  | .error e, some f => if f.addr < e.addr then .error f else .error e
  | .ok _, some f => .error f
  | r, none => r

/-- Translate every byte of a direct access at issue; a failure traps with the lowest faulting address (R195), and so
does a byte of a bank in transition (R211). -/
def directSpan (s : State) (va : Word) (n : Nat) (need : List Nat) : Except Stop (List Nat) :=
  match (accessSpan s s.cur.1 s.cur.2 (me s).asid va.toNat n need).bind (resolveSpan s need) with
  | .ok l =>
    match carveAt s l with
    | some b => trapping causeCarve 2 2 (BitVec.ofNat 64 b) (BitVec.ofNat 64 (bankOf b))
    | none => .ok l
  | .error e => trapping e.cause 2 2 (BitVec.ofNat 64 e.addr) 0 (BitVec.ofNat 32 e.seg)

/-- Translation for a chunk of an engine operation of a context (R352). -/
def engineSpan (s : State) (core ctx : Nat) (asid : BitVec 16) (va n : Nat) (need : List Nat) :
    Except TrFault (List Nat) :=
  accessSpan s core ctx asid va n need

/-- Note a virtual access for watch points (R508). -/
def noteAccess (s : State) (va : Word) (n : Nat) (wr : Bool) : State :=
  { s with fly := { s.fly with accesses := s.fly.accesses ++ [(va.toNat, n, wr)] } }

/-! ### Tile registers -/

/-- Physical number of a tile operand (R34, R35). -/
def tileReg (s : State) (engine slot : Nat) (x : Reg) : Except Stop Nat :=
  if s.cur.2 = 4 then .ok x.toNat
  else if x.toNat < (me s).wsize then .ok ((me s).wbase + x.toNat)
  else trapping causePriv engine slot (s.fly.ba.setWidth 64) (x.setWidth 64)

/-- A bundle that reads or writes a busy tile register holds (R31). An operand outside the window traps instead
(R34). -/
def tileFree (s : State) (x : Reg) : Except Stop Unit :=
  let p := if s.cur.2 = 4 then x.toNat else (me s).wbase + x.toNat
  if (s.cur.2 = 4 || decide (x.toNat < (me s).wsize)) && busyIn (opsBefore s) s.cur.1 p then .error .hold else .ok ()

/-- A tile source's tag is accepted (R30). -/
def tagCheck (engine slot tag : Nat) (ok : Bool) : Except Stop Unit :=
  check ok (trapping causeTag engine slot 0 (BitVec.ofNat 64 tag))

/-- ROWS of SHAPE is 1 to 64 (R43, R171, R202). -/
def rowsCheck (s : State) (engine slot : Nat) : Except Stop Nat :=
  let n := rowsOf (me s)
  if 1 ≤ n ∧ n ≤ 64 then .ok n else trapping causeShape engine slot 0 (me s).shape

/-- Element `j` of a row (R73). -/
def elemOf (tag : Nat) (row : Row) (j : Nat) : Nat := (row.extractLsb' (j * elemBits tag) (elemBits tag)).toNat

/-- A row whose elements of width `w` from `first` on are given; the others keep the old row's bits. -/
def putElems (w first : Nat) (old : Row) (l : List Nat) : Row :=
  let v := l.foldr (fun e acc => e % 2 ^ w + 2 ^ w * acc) 0
  (old &&& ~~~ (BitVec.ofNat 4096 (2 ^ (w * l.length) - 1) <<< (first * w))) ||| (BitVec.ofNat 4096 v <<< (first * w))

/-- A row whose elements of width `w` from 0 on are given; the rest keep the old row's bits. -/
def packRow (w : Nat) (old : Row) (l : List Nat) : Row :=
  let v := l.foldr (fun e acc => e % 2 ^ w + 2 ^ w * acc) 0
  let n := w * l.length
  if 4096 ≤ n then BitVec.ofNat 4096 v else ((old >>> n) <<< n) ||| BitVec.ofNat 4096 v

/-- Bytes of a row (R6). -/
def rowBytes (r : Row) : List Byte := toBytes 512 r.toNat

/-- A row from its bytes. -/
def rowOfBytes (b : List Byte) : Row := BitVec.ofNat 4096 (ofBytes b)

/-- Block scale byte of block `b` of a row's entry (R26). -/
def scaleByte (sc : BitVec 128) (b : Nat) : Nat := (sc.extractLsb' (8 * b) 8).toNat

/-- Default block scales of a row and default superblock scales (R29). -/
def defaultScales : BitVec 128 := 0x38383838383838383838383838383838
def defaultSuper : BitVec 128 := 0x3F8000003F8000003F8000003F800000

/-- The exact value of an element of a tile row under its tag and scales (R28, R77). -/
def tileValue (t : Tile) (i j : Nat) : Val :=
  let tag := t.tag.toNat
  let bits := elemOf tag (t.row i) j
  if isScaled tag then
    let b := j / 64
    let k := (i * blocksPerRow tag + b) / 256
    decodeScaled tag bits (scaleByte (t.scales i) b) (t.super k).toNat
  else elementValue tag bits

/-- Flat index of the first block, among rows `rows` and the columns from `lo` up to `lo + n`, whose scale byte has bit 7
set: a decode of it traps SCALE_SIGN (R29). -/
def badScale (t : Tile) (rows : List Nat) (lo n : Nat) : Option Nat :=
  let tag := t.tag.toNat
  if isScaled tag && n != 0 then
    (rows.flatMap (fun i => (List.range ((lo + n - 1) / 64 + 1 - lo / 64)).map (fun b => (i, lo / 64 + b)))).findSome? (fun p =>
      if 128 ≤ scaleByte (t.scales p.1) p.2 then some (p.1 * blocksPerRow tag + p.2) else none)
  else none

/-- SCALE_SIGN at issue (R29, R500). -/
def scaleCheck (engine slot : Nat) (t : Tile) (rows : List Nat) (lo n : Nat) : Except Stop Unit :=
  match badScale t rows lo n with
  | some k => trapping causeScale engine slot 0 0 (BitVec.ofNat 32 k)
  | none => .ok ()

/-- Rows below `n` whose mask bit is set, ascending (R19). -/
def activeRows (mask : Word) (n : Nat) : List Nat := (List.range n).filter (fun i => mask.getLsbD i)

/-! ### Rounding operands -/

/-- The rounding mode an instruction issues with: DYN selects RND.MODE (R80). -/
def resolveMode (c : Ctx) (r : Rnd) : Nat := if r.rm = 6 then c.rndMode.toNat else r.rm.toNat

/-- The mode for one rounding with the generator state after its step. -/
def rmode (mode : Nat) (r : Rnd) (w : BitVec 32) : RMode := ⟨mode, r.sat, w.toNat⟩

/-- The generator states after each of `n` steps from `s` (R82, R83). -/
def seedsFrom (s : BitVec 32) : Nat → List (BitVec 32)
  | 0 => []
  | n + 1 => stepSeed s :: seedsFrom (stepSeed s) n

/-- Step the context's generator `n` times for an SR instruction, and give the states it drew (R83, R84). The stepped state
shows to `ctl.rd` from the next bundle on, and a `ctl.wr` whose latency ends later replaces the steps of the bundles in
between: the manual says only that a step is subject to the latency of the slot class (DESIGN CHOICE, Assumption 97). -/
def drawSeeds (s : State) (mode n : Nat) : List (BitVec 32) × State :=
  if mode = 5 then
    let l := seedsFrom (me s).seed n
    (l, withMe s (fun c => { c with seed := l.getLastD c.seed }))
  else (List.replicate n 0, s)

end Sys2Proof.Machine
end

