-- ==== Sys2Proof/Machine/Flags.lean ====
section
/-! DEFINITION. Event flags: how sets, clears and consumes combine, and how a set reaches another context (R23 to R25,
R66, R119, R183 to R185, R564). -/

namespace Sys2Proof.Machine

/-- A clear takes effect before a set of the same cycle (R25). -/
def flagsAfter (f clr set : BitVec 16) : BitVec 16 := (f &&& ~~~ clr) ||| set

/-- Flags a sync consume clears: those named, but for f9 and f15 (R119). -/
def consumed (sync : BitVec 16) : BitVec 16 := sync &&& 0x7DFF

/-- Flags a `flag.clr` clears: its mask, but for f9 and f15 (R185). -/
def clearable (mask : BitVec 16) : BitVec 16 := mask &&& 0x7DFF

/-- Every flag of the mask is set (R119). -/
def syncMet (f sync : BitVec 16) : Bool := f &&& sync == sync

/-- Set flags of the executing context when its bundle commits (R145, R183). -/
def stageSet (s : State) (m : BitVec 16) : State := { s with fly := { s.fly with set := s.fly.set ||| m } }

/-- Clear flags of the executing context when its bundle commits (R145, R185). -/
def stageClr (s : State) (m : BitVec 16) : State := { s with fly := { s.fly with clr := s.fly.clr ||| m } }

/-- Set flags of a context at once. -/
def setFlags (s : State) (core ctx : Nat) (m : BitVec 16) : State :=
  withCtx s core ctx (fun c => { c with flags := c.flags ||| m })

/-- Clear flags of a context at once. -/
def clrFlags (s : State) (core ctx : Nat) (m : BitVec 16) : State :=
  withCtx s core ctx (fun c => { c with flags := c.flags &&& ~~~ m })

/-- Record a management event. -/
def logEvent (s : State) (e : MgmtEvent) : State := { s with mlog := e :: s.mlog }

/-- The saved task that holds a place, with its launch and its number (R66). -/
def savedAt (s : State) (core ctx : Nat) (cookie : BitVec 64) : Option (Nat × Launch × Nat × Task) :=
  s.launches.findSome? (fun p =>
    if p.2.entry.extractLsb' 0 64 = cookie then
      (p.2.tasks.zipIdx.find? (fun t => t.1.status = .saved core ctx)).map (fun t => (p.1, p.2, t.2, t.1))
    else none)

/-- Change the context that a packet names: the bound task's, else the saved image's, when its launch has the packet's
COOKIE; none where the packet is discarded (R66, R183, R564). -/
def modifyTarget (s : State) (core ctx : Nat) (cookie : BitVec 64) (f : Ctx → Ctx) : Option State :=
  if Config.numCores ≤ core ∨ 5 ≤ ctx then none
  else if (ctxOf s core ctx).task.isSome && cookieOf s core ctx = cookie then some (withCtx s core ctx f)
  else
    match savedAt s core ctx cookie with
    | some (lid, l, n, t) =>
      match t.image with
      | some im =>
        let t' := { t with image := some { im with ctx := f im.ctx } }
        some { s with launches := Tbl.put s.launches lid { l with tasks := l.tasks.set n t' } }
      | none => none
    | none => none

/-- Deliver a flag set to the context a CTXID value names on this device (R183). A target that is no context of the launch is
discarded and logged also when `flag.set.core` names it, of which the manual says nothing (DESIGN CHOICE, Assumption
98). -/
def deliverFlags (s : State) (target : Word) (mask : Byte) (cookie : BitVec 64) : State :=
  match modifyTarget s (ctxidCore target) (target.extractLsb' 0 3).toNat cookie
      (fun c => { c with flags := c.flags ||| mask.setWidth 16 }) with
  | some s => s
  | none => logEvent s (.badFlag target)

end Sys2Proof.Machine
end

