-- ==== Sys2Proof/Machine/Replay.lean ====
section
/-! DEFINITION. Replay mode: the log of a launch read back, and what of it is still to be followed (R519 to R523). -/

namespace Sys2Proof.Machine

/-! ### Reading the log (R519, R520) -/

/-- A record from its header and payload (R520). -/
def logRecordOf (h : BitVec 256) (payload : List Byte) : LogRec :=
  { typ := (h.extractLsb' 0 8).toNat, ctx := (h.extractLsb' 61 3).toNat, unit := (h.extractLsb' 64 16).toNat
    icnt := (h.extractLsb' 80 48).toNat, seq := (h.extractLsb' 128 32).toNat, aux := (h.extractLsb' 160 32).toNat
    key := h.extractLsb' 192 64, payload := payload }

/-- The records that stand at a physical address, at most `n` of them. -/
def logRecordsAt (s : State) : Nat → Nat → List LogRec
  | 0, _ => []
  | n + 1, pa =>
    let h := BitVec.ofNat 256 (ofBytes (physRead s pa 32))
    let plen := (h.extractLsb' 32 16).toNat
    logRecordOf h (physRead s (pa + 32) (64 * plen)) :: logRecordsAt s n (pa + 32 + 64 * plen)

/-- The log in memory; none without VALID (R519). -/
def storedLog (s : State) : Option (List LogRec) :=
  let base := (s.rlogb.extractLsb' 12 36).toNat * 4096
  let h := BitVec.ofNat 512 (ofBytes (physRead s base 64))
  if h.getLsbD 0 then some (logRecordsAt s (h.extractLsb' 320 64).toNat (base + 64)) else none

/-- A launch that starts while RPLCTL.REPLAY is set follows the log (R523). -/
def beginReplay (s : State) (lid : Nat) : State :=
  if s.replay then { s with rplay := (storedLog s).map (fun l => { launch := lid, recs := l, last := [] }) } else s

/-- The end of a launch ends its replay. -/
def endReplay (s : State) (lid : Nat) : State :=
  match s.rplay with
  | some r => if r.launch = lid then { s with rplay := none } else s
  | none => s

/-! ### Following it (R523) -/

/-- A launch follows a log. -/
def replays (s : State) (lid : Nat) : Bool :=
  match s.rplay with
  | some r => r.launch == lid
  | none => false

/-- A context runs a task of the launch that follows a log. -/
def replaysIn (s : State) (core ctx : Nat) : Bool :=
  match (ctxOf s core ctx).task with
  | some t => replays s t.launch
  | none => false

/-- The first record still to be followed that satisfies a test. -/
def nextRecord (s : State) (p : LogRec → Bool) : Option LogRec := s.rplay.bind (fun r => r.recs.find? p)

/-- A record has been followed. -/
def followRecord (s : State) (x : LogRec) : State :=
  { s with rplay := s.rplay.map (fun r => { r with recs := r.recs.erase x }) }

/-- The logged generator state of a context at its point, if there is one (R84, R521, type 3). -/
def replaySeed (s : State) (core ctx : Nat) : State :=
  if replaysIn s core ctx then
    match nextRecord s (fun x => x.typ == 3 && x.unit == core && x.ctx == ctx && x.icnt == (ctxOf s core ctx).icount) with
    | some x => followRecord (withCtx s core ctx (fun c => { c with seed := x.key.setWidth 32 })) x
    | none => s
  else s

/-- The record of a write of RND has been followed: the program writes the same value again (R521, type 3). -/
def followSeed (s : State) (core ctx : Nat) : State :=
  if replaysIn s core ctx then
    match nextRecord s (fun x => x.typ == 3 && x.unit == core && x.ctx == ctx) with
    | some x => followRecord s x
    | none => s
  else s

/-- The logged response to a read or atomic outside the device; a read that the log does not hold keeps its bytes
(R521, type 5). -/
def replayResponse (s : State) (core ctx pa : Nat) (b : List Byte) : List Byte × State :=
  if replaysIn s core ctx then
    match nextRecord s (fun x => x.typ == 5 && x.unit == core && x.ctx == ctx && x.key.toNat == pa) with
    | some x => ((x.payload ++ b.drop x.payload.length).take b.length, followRecord s x)
    | none => (b, s)
  else (b, s)

/-! ### Order at a chunk or line (R521, types 6 and 7) -/

/-- The records that order accesses to a chunk. -/
def chunkOrder (s : State) (chunk : Nat) : List LogRec :=
  match s.rplay with
  | some r => r.recs.filter (fun x => x.typ == 6 && x.key.toNat == 64 * chunk)
  | none => []

/-- Number of a context of an endpoint in ORDER records. -/
def sourceCode (unit ctx : Nat) : Nat := unit * 8 + ctx

/-- An ORDER record names an access: its source and its sequence (R521). -/
def namesAccess (unit ctx seq : Nat) (x : LogRec) : Bool := x.aux == sourceCode unit ctx && x.seq == seq % 2 ^ 32

/-- The access that an ORDER record's access follows: the record's point is that access's endpoint, context and sequence
(DESIGN CHOICE, Assumption 118). -/
def predecessor (x : LogRec) : Nat × Nat := (sourceCode x.unit x.ctx, x.icnt)

/-- The first ORDER records of a chunk as far as they name one access. -/
def namedFirst (s : State) (chunk unit ctx seq : Nat) : List LogRec :=
  (chunkOrder s chunk).takeWhile (namesAccess unit ctx seq)

/-- An access that ORDER records name waits for its logged predecessors at the chunk: until its records are the chunk's first
and each one's predecessor has performed there. One that the chunk's first record waits for goes on (R523). -/
def orderHeld (s : State) (unit ctx seq : Nat) (pas : List Nat) : Bool :=
  match s.rplay with
  | none => false
  | some r =>
    ((pas.map (· / 64)).eraseDups).any (fun chunk =>
      let l := chunkOrder s chunk
      let seen := Tbl.look [] r.last chunk
      match namedFirst s chunk unit ctx seq with
      | [] => l.any (namesAccess unit ctx seq) &&
          !(match l.head? with | some x => predecessor x == (sourceCode unit ctx, seq) && !seen.contains (predecessor x) | none => false)
      | g => !g.all (fun x => seen.contains (predecessor x)))

/-- An access performs at some chunks: the records that name it first have been followed. -/
def followOrder (s : State) (unit ctx seq : Nat) (pas : List Nat) : State :=
  match s.rplay with
  | none => s
  | some _ =>
    ((pas.map (· / 64)).eraseDups).foldl (fun s chunk =>
      let s := (namedFirst s chunk unit ctx seq).foldl followRecord s
      { s with rplay := s.rplay.map (fun r =>
          { r with last := Tbl.put r.last chunk (Tbl.look [] r.last chunk ++ [(sourceCode unit ctx, seq)]) }) }) s

/-- The next f32 add that the log applies to a line (R357, R521, type 7). -/
def nextAdd (s : State) (pa : Nat) : Option LogRec :=
  nextRecord s (fun x => x.typ == 7 && x.key.toNat == pa / 128 * 128)

/-- A record is of an add of a core of this device: its source and tag; one of another device's has the edge where the add
arrived as its unit (DESIGN CHOICE, Assumption 118). -/
def ofAdd (core tag : Nat) (x : LogRec) : Bool := x.aux == core && x.seq == tag && !decide (192 ≤ x.unit)

/-- The next f32 add that the log applies to a line is not this one (R357, R521, type 7). -/
def addHeld (s : State) (core tag pa : Nat) : Bool := (nextAdd s pa).any (fun x => !ofAdd core tag x)

/-- An f32 add has been applied to a line. -/
def followAdd (s : State) (core tag pa : Nat) : State :=
  match nextAdd s pa with
  | some x => if ofAdd core tag x then followRecord s x else s
  | none => s

/-! ### Inbound packets (R521, type 4) -/

/-- The first inbound record from outside the device: its unit is the edge where it arrived. -/
def inboundRecord (s : State) : Option LogRec := nextRecord s (fun x => x.typ == 4 && decide (192 ≤ x.unit))

/-- An arrival within the device waits until its record is the first at its place. -/
def arrivalHeld (s : State) (unit : Nat) (key : Word) (payload : List Byte) : Bool :=
  match nextRecord s (fun x => x.typ == 4 && x.unit == unit) with
  | some x => !(x.key == key && x.payload.take payload.length == payload)
  | none => false

/-- An arrival has been delivered. -/
def followArrival (s : State) (unit : Nat) (key : Word) : State :=
  match nextRecord s (fun x => x.typ == 4 && x.unit == unit && x.key == key) with
  | some x => followRecord s x
  | none => s

end Sys2Proof.Machine
end

