-- ==== Sys2Proof/Machine/Net.lean ====
section
/-! DEFINITION. Packets: their home, their path, their slack and what a late one does (R382, R383, R387, R459 to R475),
and the records of the replay log (R519 to R522). -/

namespace Sys2Proof.Machine

/-! ### The replay log -/

/-- Append a record to the log of launch `lid` while that launch records and the log has room (R519 to R522). -/
def logRecord (s : State) (lid typ : Nat) (key : Word) (aux seq : Nat) (icnt unit ctx : Nat) (payload : List Byte) : State :=
  match s.rlog with
  | none => s
  | some l =>
    if l.launch ≠ lid ∨ l.ovf ∨ l.ended then s
    else
      let plen := ceilDiv payload.length 64
      let size := 32 + 64 * plen
      if 4096 * (s.rlogl.extractLsb' 12 28).toNat < 64 + l.used + size then { s with rlog := some { l with ovf := true } }
      else
        let h : BitVec 256 := key ++ BitVec.ofNat 32 aux ++ BitVec.ofNat 32 seq ++ BitVec.ofNat 48 icnt ++
          BitVec.ofNat 16 unit ++ BitVec.ofNat 3 ctx ++ (0 : BitVec 13) ++ BitVec.ofNat 16 plen ++ (0 : BitVec 24) ++
          BitVec.ofNat 8 typ
        let bytes := toBytes 32 h.toNat ++ payload ++ List.replicate (64 * plen - payload.length) 0
        let pa := (s.rlogb.extractLsb' 12 36).toNat * 4096 + 64 + l.used
        let l := { l with used := l.used + size, nrec := l.nrec + 1, unsent := l.unsent ++ [(unit, pa, size)] }
        physWrite { s with rlog := some l } (cellsAt pa bytes)

/-- The packets of the log's writes set out with their unit's NETSLK, and touch their lines (R384, R468, R519). -/
def sendLog (s : State) : State :=
  match s.rlog with
  | none => s
  | some l =>
    (l.unsent.flatMap (fun x => (chunksOf ((List.range x.2.2).map (fun i => x.2.1 + i))).map (fun c => (x.1, c)))).foldl
      (fun s x => sendUnitAccess (touchLines s x.2 plainHint true) x.1 true (endpointOf s 0 (x.2.headD 0)) (x.2.headD 0) x.2.length)
      { s with rlog := some { l with unsent := [] } }

/-- A record at the point of a context (R520). -/
def logAt (s : State) (core ctx typ : Nat) (key : Word) (aux seq : Nat) (payload : List Byte) : State :=
  match (ctxOf s core ctx).task with
  | none => s
  | some t => logRecord s t.launch typ key aux seq (ctxOf s core ctx).icount core ctx payload

/-- A record of a recording launch without a context. -/
def logAny (s : State) (typ : Nat) (key : Word) (aux seq unit : Nat) (payload : List Byte) : State :=
  match s.rlog with
  | none => s
  | some l => logRecord s l.launch typ key aux seq 0 unit 7 payload

/-- The accesses of other parties that an access follows at a chunk, one of the two being a write (R521, type 6). -/
def followed (last : Option Accessor × List Accessor) (party : Nat) (wr : Bool) : List Accessor :=
  ((if wr then last.2 else []) ++ last.1.toList).filter (fun a => a.party != party)

/-- What a chunk's history is after an access. -/
def noteChunk (last : Option Accessor × List Accessor) (a : Accessor) (wr : Bool) : Option Accessor × List Accessor :=
  if wr then (some a, []) else (last.1, last.2.filter (fun x => x.party != a.party) ++ [a])

/-- The ORDER record of an access that follows another one: its own source and sequence, at the point of that other one
(DESIGN CHOICE, Assumption 118). -/
def logOrder (chunk : Nat) (a : Accessor) (s : State) (p : Accessor) : State :=
  match s.rlog with
  | none => s
  | some l => logRecord s l.launch 6 (BitVec.ofNat 64 (64 * chunk)) (sourceCode a.unit a.ctx) a.seq p.seq p.unit p.ctx []

/-- Note an access to the chunks of some addresses; one that follows another party's, with a write among the two, is logged
(R521, type 6). -/
def noteOrder (s : State) (a : Accessor) (wr : Bool) (pas : List Nat) : State :=
  let s := followOrder s a.unit a.ctx a.seq pas
  match s.rlog with
  | none => s
  | some _ =>
    ((pas.map (· / 64)).eraseDups).foldl (fun s chunk =>
      match s.rlog with
      | none => s
      | some l =>
        let last := Tbl.look (none, []) l.last chunk
        (followed last a.party wr).foldl (logOrder chunk a)
          { s with rlog := some { l with last := Tbl.put l.last chunk (noteChunk last a wr) } }) s

/-- A context's own accesses at a bundle of some issue count, and those of one of its commands. -/
def directAccessor (core ctx icnt : Nat) : Accessor := ⟨partyCode core ctx none, core, ctx, icnt⟩
def engineAccessor (core ctx seq : Nat) : Accessor := ⟨partyCode core ctx (some seq), core, ctx, seq⟩

/-- The stop of a LATE trap (R500, R501). -/
def lateStop (pa tag : Nat) : TrapInfo :=
  { cause := causeLate, addr := BitVec.ofNat 64 pa, detail := 0, index := BitVec.ofNat 32 tag, engine := 13, slot := 7,
    cseq := 0, estat := 0 }

/-- Make a LATE trap pending when TEN.LATE asks for one and none is (R474); never in the service context (R506). -/
def pendLate (ctx pa tag : Nat) (c : Ctx) : Ctx :=
  if c.ten.getLsbD 0 && ctx != 4 && c.late.isEmpty then { c with late := [lateStop pa tag] } else c

/-- Traces, trigger and log of a late event (R517, R518, R521). -/
def lateTrace (s : State) (core ctx vc pa tag : Nat) : State :=
  let s := traceEvent s core 4 ctx vc (BitVec.ofNat 64 (tag % 2 ^ 16 * 2 ^ 48 + pa))
  let s := traceTrigger s core 2 ctx
  logAt s core ctx 9 (BitVec.ofNat 64 pa) 0 0 []

/-- A packet that a context issued becomes late: f13, LATECNT and the LATE trap (R474). -/
def becomeLate (s : State) (core ctx : Nat) (cookie : BitVec 64) (vc pa tag : Nat) : State :=
  let s := lateTrace (countLate s core) core ctx vc pa tag
  (modifyTarget s core ctx cookie (fun c => pendLate ctx pa tag { c with flags := c.flags ||| 0x2000 })).getD s

/-- The same, but that a replay ignores real lateness (R523). -/
def lateEvent (s : State) (core ctx : Nat) (cookie : BitVec 64) (vc pa tag : Nat) : State :=
  if replaysIn s core ctx then s else becomeLate s core ctx cookie vc pa tag

/-- A packet of the executing context is late as it is issued (R47, R468, R474). -/
def lateAtIssue (s : State) (vc pa tag : Nat) : State :=
  if replaysIn s s.cur.1 s.cur.2 then s
  else
    let s := lateTrace (countLate s s.cur.1) s.cur.1 s.cur.2 vc pa tag
    stageSet (withMe s (pendLate s.cur.2 pa tag)) 0x2000

/-- A packet of this device becomes late: an event of the context that issued it, else of its unit; a response brings no
second one, and a release is no response (R465, R471, R474). -/
def packetLate (s : State) (p : Packet) : State :=
  if p.srcDev.toNat ≠ s.device.toNat ∨ (p.vc = 1 ∧ p.typ ≠ 0x13) then s
  else if p.srcCtx.toNat < 5 ∧ p.src.toNat < 128 then
    lateEvent s p.src.toNat p.srcCtx.toNat p.cookie p.vc.toNat p.pa.toNat p.tag.toNat
  else countLateUnit s p

/-! ### The decrements of a tick (R469) -/

/-- One decrement that a packet owes: its SLACK decreases by one; at 0 it is late, which is an event of the context that
issued it or of its unit (R469, R474). -/
def takeSlack (s : State) (p : NetPacket) : State :=
  if p.owed = 0 then s
  else
    let q := decremented s.time p
    let s := { s with packets := s.packets.map (fun x => if x.id = p.id then q else x) }
    if p.lateAt.isNone && q.lateAt.isSome then packetLate s q.pkt else s

/-- Every packet whose QRES has wrapped takes its decrement (R469). -/
def settleSlack (s : State) : State :=
  s.packets.foldl (fun s p => match findPacket s p.id with | some q => takeSlack s q | none => s) s

/-- Send a packet of the executing context (R468, R474). -/
def sendNow (s : State) (id typ dst dstDev pa : Nat) (aux : BitVec 32) (atw : Word) (data : List Byte) (slk : BitVec 10)
    (op : Option (Nat × Nat × Nat)) (tag : Option (BitVec 16)) : State :=
  let o : Origin := ⟨id, s.cur.1, s.cur.2, cookieOf s s.cur.1 s.cur.2, slk, 0⟩
  let p := newPacket s o typ dst dstDev pa aux atw data
  let p := { p with tag := tag.getD p.tag }
  let s := addPacket s (netPacket s id p data op)
  if slk = 0 then lateAtIssue s (channelOf typ) pa p.tag.toNat else s

/-- Send a packet (R468, R474). One of the executing bundle's context stages its flag with the bundle's (R25). -/
def sendPacket (s : State) (p : NetPacket) : State :=
  let s := addPacket s p
  if p.pkt.slack ≠ 0 then s
  else if s.fly.pre.isSome && p.pkt.srcCtx.toNat == s.cur.2 && p.pkt.src.toNat == s.cur.1 then
    lateAtIssue s p.pkt.vc.toNat p.pkt.pa.toNat p.pkt.tag.toNat
  else packetLate s p.pkt

/-- The tag of an atomic of a context: made of the context and the command's number, so that a replay gives it again (R464,
R523; DESIGN CHOICE, Assumption 118). Other packets have tags below these. -/
def fixedTag (ctx : Nat) : ReqKind → Option (BitVec 16)
  | .atomic seq _ => some (BitVec.ofNat 16 (2 ^ 15 + ctx * 2 ^ 12 + seq % 2 ^ 12))
  | _ => none

/-- Issue a request of the executing context with its packet. -/
def pushReq (s : State) (kind : ReqKind) (pas : List Nat) (slk : BitVec 10) (hint : CacheHint) (after : List Nat)
    (typ dst dstDev pa : Nat) (aux : BitVec 32) (data : List Byte) : State :=
  let r : Req := { id := s.nextReq, core := s.cur.1, ctx := s.cur.2, kind := kind, asid := (me s).asid, pas := pas,
                   cookie := cookieOf s s.cur.1 s.cur.2, slk := slk, after := after, value := [],
                   performed := false, orphan := false, hint := hint, icnt := (me s).icount }
  sendNow { s with reqs := s.reqs ++ [r], nextReq := s.nextReq + 1 } r.id typ dst dstDev pa aux 0 data slk none (fixedTag s.cur.2 kind)

/-- Issue a request for some physical bytes (R465). -/
def pushAccess (s : State) (kind : ReqKind) (pas : List Nat) (slk : BitVec 10) (hint : CacheHint)
    (after : List Nat) (typ : Nat) (aux : BitVec 32) (data : List Byte) : State :=
  let pa := pas.headD 0
  pushReq s kind pas slk hint after typ (endpointOf s (dieOf s.cur.1) pa) (deviceOf s pa) pa aux data

/-- Set the SCOPE of a packet (R60, R464). -/
def scopePacket (s : State) (id : Nat) (scope : BitVec 3) : State :=
  { s with packets := s.packets.map (fun p => if p.id = id then { p with pkt := { p.pkt with scope := scope } } else p) }

/-- Remove a packet from the network. -/
def dropPacket (s : State) (id : Nat) : State := { s with packets := s.packets.filter (fun p => p.id ≠ id) }

end Sys2Proof.Machine
end

