-- ==== Sys2Proof/Machine/Cache.lean ====
section
/-! DEFINITION. The shared cache slices: which lines they hold, their priorities, pinning and way gating (R382 to R391).
A slice's lines hold no data of their own: the home port's memory does (R331). -/

namespace Sys2Proof.Machine

/-- The hints of an access to a virtual address, as the range that translates it adjusts them (R389). -/
def hintAt (s : State) (core ctx : Nat) (asid : BitVec 16) (va : Nat) (h : Hint) : CacheHint :=
  adjustHint (classWith s (tableFor s core ctx) asid va) h

/-! ### The walker's probes (R369, R371) -/

/-- Physical addresses that the binary search of a walk reads. -/
def probesFrom (s : State) (base vp : Nat) : Nat → Nat → Nat → List Nat
  | 0, _, _ => []
  | fuel + 1, lo, hi =>
    if hi ≤ lo then []
    else
      let mid := (lo + hi - 1) / 2
      let d := descAt s (base + 32 * mid)
      (base + 32 * mid) ::
        (if vp < dVbase d then probesFrom s base vp fuel lo mid
         else if dVbase d + dLen d ≤ vp then probesFrom s base vp fuel (mid + 1) hi
         else [])

/-- The probes of a walk, at most 17. -/
def walkProbes (s : State) (asid : BitVec 16) (vp : Nat) : List Nat :=
  match rootOf s asid with
  | none => []
  | some r => probesFrom s r.base vp 17 0 r.count

/-- Send a packet of a context's work whose effect is stated where it is sent, but for the line that its grant touches. -/
def sendFor (core ctx : Nat) (wr : Bool) (len : Nat) (slk : BitVec 10) (touch : Option CacheHint) (s : State) (pa : Nat) :
    State :=
  let id := s.nextReq
  let o : Origin := ⟨id, core, ctx, cookieOf s core ctx, slk, 0⟩
  let b := if wr then physRead s pa len else []
  let p := newPacket s o (if wr then 2 else 1) (endpointOf s (dieOf core) pa) s.device.toNat pa (BitVec.ofNat 32 len) 0 b
  sendPacket { s with nextReq := id + 1 } { netPacket s id p b none with touch := touch }

/-- Send one read of a walk at its home port, with the slack of the access that missed and the hints of the range that the
walk finds (R371, R389). -/
def sendProbe (core ctx : Nat) (slk : BitVec 10) (hint : CacheHint) (s : State) (p : Nat × Nat) : State :=
  sendFor core ctx false p.2 slk (some hint) s p.1

/-- The reads of a walk: the root entry, then the probes; each with its length (R367, R371). -/
def walkReads (s : State) (asid : BitVec 16) (vp : Nat) : List (Nat × Nat) :=
  (rootAddr s asid, 16) :: (walkProbes s asid vp).map (fun a => (a, 32))

/-- Hints of a walk's reads: those of an access without hint fields, as the class of the range that is found adjusts them
(R389). -/
def walkHint (s : State) (asid : BitVec 16) (vp : Nat) : CacheHint := adjustHint (classWith s [] asid (4096 * vp)) ⟨0, 1, false⟩

/-- Send the reads of a walk for a context. -/
def sendWalk (s : State) (core ctx : Nat) (slk : BitVec 10) (asid : BitVec 16) (vp : Nat) : State :=
  (walkReads s asid vp).foldl (sendProbe core ctx slk (walkHint s asid vp)) s

/-- The search for a unit that no range table entry covers. -/
def probeUnit (s : State) (core ctx : Nat) (asid : BitVec 16) (vp : Nat) (slk : BitVec 10) : State :=
  match lookup (tableFor s core ctx) asid vp with
  | some _ => s
  | none => sendWalk s core ctx slk asid vp

/-- Use the entries behind `[va, va + n)` for an access of some slack: a missing one is searched for and installed (R369,
R371). -/
def useRanges (s : State) (core ctx : Nat) (asid : BitVec 16) (va n : Nat) (slk : BitVec 10) : State :=
  useEntries ((pieces (n / 4096 + 2) va n).foldl (fun s p => probeUnit s core ctx asid (p.1 / 4096) slk) s) core ctx asid va n

/-- An access that fails its translation has searched for its ranges as far as the byte that failed (R369, R371). -/
def walked {α : Type} (va n : Nat) (slk : BitVec 10) : Except Stop α → Except Stop α
  | .error (.trap t) =>
    let a := t.addr.toNat
    .error (.trap { t with walk := [(va, if va ≤ a ∧ a < va + n then a - va + 1 else n, slk)] })
  | x => x

/-- What the accesses of a stopped bundle searched for is installed (R369, R371). -/
def useWalks (s : State) (core ctx : Nat) (asid : BitVec 16) (t : TrapInfo) : State :=
  t.walk.foldl (fun s w => useRanges s core ctx asid w.1 w.2.1 w.2.2) s

/-! ### Way gating (R390, R391) -/

/-- WAY_GATE: the way's lines are written back and dropped, and it loses power (R391). -/
def execWayGate (slice k : Nat) (s : State) : Host.Outcome State Fault Refusal :=
  let x := sliceOf s slice
  if slice < 64 ∧ k < 12 ∧ x.gate.getLsbD k ∧ x.awake.getLsbD k then
    .next (withLines s slice (fun x =>
      { x with lines := x.lines.filter (fun l => l.way != k + 4), awake := x.awake &&& ~~~ (1#12 <<< k) }))
  else .next s

/-- WAY_POWER_UP: a way whose GATE bit is clear is powered again, every line invalid (R391). -/
def execWayPowerUp (slice k : Nat) (s : State) : Host.Outcome State Fault Refusal :=
  let x := sliceOf s slice
  if slice < 64 ∧ k < 12 ∧ !x.gate.getLsbD k ∧ !x.awake.getLsbD k then
    .next (withSlice s slice (fun x => { x with awake := x.awake ||| (1#12 <<< k) }))
  else .next s

end Sys2Proof.Machine
end

