-- ==== Sys2Proof/Machine/Mem.lean ====
section
/-! DEFINITION. Scalar and tile-row loads and stores and the extraction unit (R193 to R208, R338). -/

namespace Sys2Proof.Machine

/-! ### Requests of direct accesses (R194, R338) -/

/-- The units of an access with the virtual address of each one's first byte. -/
def placed (va : Nat) : List (List Nat) → List (Nat × List Nat)
  | [] => []
  | c :: l => (va, c) :: placed (va + c.length) l

/-- Requests of the executing context that must perform before one at these addresses: those that touch a common byte
(R338), and, for a release, every earlier one (R240). -/
def mustPrecede (s : State) (pas : List Nat) (rel : Bool) : List Nat :=
  (s.reqs.filter (fun r => r.directOf s.cur.1 s.cur.2 && !r.performed &&
    (rel || r.pas.any (fun a => pas.contains a)))).map (·.id)

/-- Whether a physical byte lies in a valid reduction target of this device (R480). -/
def inTarget (s : State) (pa : Nat) : Bool :=
  s.groups.any (fun g =>
    let e := g.2.entry
    let len := if e.getLsbD 3 then 32 else 64
    let hit (b : BitVec 48) : Bool := b.toNat ≤ pa && pa < b.toNat + len
    e.getLsbD 0 && ((e.extractLsb' 130 10 = s.device && hit (e.extractLsb' 160 48)) ||
      (e.getLsbD 4 && hit (e.extractLsb' 208 48))))

/-- A direct write to a reduction target traps RANGE_PERM (R480). -/
def targetCheck (s : State) (va : Word) (pas : List Nat) : Except Stop Unit :=
  check (!(pas.any (inTarget s))) (trapping causePerm 2 2 va)

/-- Issue the read of a direct load: one request per atomic unit (R332), and the operation that waits for the data. -/
def directLoad (s : State) (va : Word) (n : Nat) (h : Hint) (o : Op) : Except Stop State := do
  let slk := slackOf s h.sl
  let pas ← walked va.toNat n slk (directSpan s va n [permRd])
  let s' ← issueOp (noteAccess s va n false) { o with pas := pas, slk := slk }
  let s' := useRanges s' s.cur.1 s.cur.2 (me s).asid va.toNat n slk
  .ok ((placed va.toNat (chunksOf pas)).foldl (fun t c =>
    pushAccess t (.load o.seq) c.2 slk (hintAt s s.cur.1 s.cur.2 (me s).asid c.1 h) (mustPrecede t c.2 false) 1
      (BitVec.ofNat 32 c.2.length) []) s')

/-- Issue a direct store: one request per atomic unit (R332). -/
def directStore (s : State) (va : Word) (b : List Byte) (h : Hint) : Except Stop State := do
  let slk := slackOf s h.sl
  let pas ← walked va.toNat b.length slk (directSpan s va b.length [permWr])
  targetCheck s va pas
  let s' := useRanges (noteAccess s va b.length true) s.cur.1 s.cur.2 (me s).asid va.toNat b.length slk
  .ok ((placed va.toNat (chunksOf pas)).foldl (fun t c =>
    let data := (b.drop (c.1 - va.toNat)).take c.2.length
    pushAccess t (.store (c.2.zip data)) c.2 slk (hintAt s s.cur.1 s.cur.2 (me s).asid c.1 h)
      (mustPrecede t c.2 false) 2 (BitVec.ofNat 32 c.2.length) data) s')

/-! ### Scalar loads and stores (R200, R201) -/

/-- Loaded bytes as a scalar (R201). -/
def loadValue (sx : Bool) (n : Nat) (b : List Byte) : Word :=
  if sx then sextTo64 (8 * n) (ofBytes b) else BitVec.ofNat 64 (ofBytes b)

/-- `ld`: A scalar load (R200, R201). -/
def slotLd (d a : Reg) (h : Hint) (sp sx : Bool) (sz : BitVec 2) (off : Imm) (s : State) : Except Stop State := do
  let x ← readS s a
  if sp then .ok () else opRoom s
  let addr := effAddr x off
  let n := 2 ^ sz.toNat
  aligned 2 2 addr n
  if sp then do
    spmLocal s 2 2 addr.toNat n
    .ok (result s 6 (.scalar d.toNat (loadValue sx n (spmSlice s addr.toNat n))))
  else
    directLoad s addr n h { newOp s (.ld d a h sp sx sz off) 0 with data := d.toNat, nums := [n] }

def execLd (d a : Reg) (h : Hint) (sp sx : Bool) (sz : BitVec 2) (off : Imm) (s : State) : Host.Outcome State Fault Refusal := settle s (slotLd d a h sp sx sz off s)

/-- `st`: A scalar store (R200, R201). -/
def slotSt (d a : Reg) (h : Hint) (sp : Bool) (sz : BitVec 2) (off : Imm) (s : State) : Except Stop State := do
  let x ← readS s a
  let v ← readS s d
  let addr := effAddr x off
  let n := 2 ^ sz.toNat
  aligned 2 2 addr n
  if sp then do
    spmLocal s 2 2 addr.toNat n
    .ok (stage s addr.toNat (toBytes n v.toNat))
  else directStore s addr (toBytes n v.toNat) h

def execSt (d a : Reg) (h : Hint) (sp : Bool) (sz : BitVec 2) (off : Imm) (s : State) : Host.Outcome State Fault Refusal := settle s (slotSt d a h sp sz off s)

/-! ### Extraction patterns (R203 to R205) -/

/-- Element width of a pattern's fields is respected: at most the width for integers, exact and unsigned else. -/
def fieldFits (f : PatField) : Bool :=
  if isIntTag f.tfmt then f.width ≤ elemBits f.tfmt else f.width == elemBits f.tfmt && !f.sgn

/-- A field entry of an image; none when a reserved bit is set (R203). -/
def fieldOf (w : BitVec 32) : Option PatField :=
  if w.extractLsb' 28 4 = 0 ∧ w.extractLsb' 21 3 = 0 ∧ w.getLsbD 15 = false ∧ w.getLsbD 7 = false then
    some { tfmt := (w.extractLsb' 24 4).toNat, lane := (w.extractLsb' 16 5).toNat, sgn := w.getLsbD 14
           width := (w.extractLsb' 8 6).toNat, offset := (w.extractLsb' 0 7).toNat }
  else none

/-- No number occurs twice. -/
def allDistinct : List Nat → Bool
  | [] => true
  | x :: l => !l.contains x && allDistinct l

/-- The pattern of an image's header and field entries (R203, R204). For an invalid one VALID is clear, and FIELDS and PERIOD
read 0, which the manual does not say (DESIGN CHOICE, Assumption 100). -/
def patternOf (hd : Word) (ents : List (BitVec 32)) : Pattern :=
  let nf := (hd.extractLsb' 8 6).toNat
  let per := (hd.extractLsb' 0 8).toNat
  let fs := ents.filterMap fieldOf
  let t := (fs.head?.map (·.tfmt)).getD 0
  if hd.extractLsb' 14 50 = 0 && decide (1 ≤ nf ∧ nf ≤ 32 ∧ 1 ≤ per ∧ per ≤ 128) && fs.length == nf &&
      fs.all (fun f => decide (f.offset + f.width ≤ per ∧ 1 ≤ f.width ∧ f.width ≤ 32)) && allDistinct (fs.map (·.lane)) &&
      fs.all (fun f => f.tfmt == t) && decide (1 ≤ t ∧ t ≤ 11) && fs.all fieldFits
  then { valid := true, period := per, fields := fs }
  else Pattern.init

/-- Target format, group size and source bytes per row of a pattern (R204, R206). -/
def Pattern.tag (p : Pattern) : Nat := (p.fields.head?.map (·.tfmt)).getD 1
def Pattern.group (p : Pattern) : Nat := 1 + (p.fields.map (·.lane)).foldl max 0
def Pattern.groups (p : Pattern) : Nat := ceilDiv (elemsPerRow p.tag) p.group
def Pattern.rowBytes (p : Pattern) : Nat := ceilDiv (p.groups * p.period) 8

/-- Element `j` of the row that a pattern extracts from a source row read as a number (R206). -/
def Pattern.element (p : Pattern) (src j : Nat) : Nat :=
  match p.fields.find? (fun f => f.lane = j % p.group) with
  | none => 0
  | some f =>
    let v := (src >>> (j / p.group * p.period + f.offset)) % 2 ^ f.width
    if f.sgn then ((BitVec.ofNat f.width v).signExtend (elemBits p.tag)).toNat else v

/-- The row that a pattern extracts (R206). -/
def Pattern.extract (p : Pattern) (src : Nat) : Row :=
  packRow (elemBits p.tag) 0 ((List.range (elemsPerRow p.tag)).map (p.element src))

/-- `xpSet`: Load an extraction pattern (R205). -/
def slotXpSet (slot : BitVec 3) (a : Reg) (off : Imm) (s : State) : Except Stop State := do
  let x ← readS s a
  let addr := effAddr x off
  aligned 2 2 addr 8
  spmLocal s 2 2 addr.toNat 8
  let hd : Word := BitVec.ofNat 64 (ofBytes (spmSlice s addr.toNat 8))
  let nf := (hd.extractLsb' 8 6).toNat
  if nf ≤ 32 then do
    spmLocal s 2 2 (addr.toNat + 8) (4 * nf)
    let ents := (List.range nf).map (fun k => BitVec.ofNat 32 (ofBytes (spmSlice s (addr.toNat + 8 + 4 * k) 4)))
    .ok (result s 6 (.pattern slot.toNat (patternOf hd ents)))
  else .ok (result s 6 (.pattern slot.toNat Pattern.init))

def execXpSet (slot : BitVec 3) (a : Reg) (off : Imm) (s : State) : Host.Outcome State Fault Refusal := settle s (slotXpSet slot a off s)

/-! ### Tile rows (R202, R206 to R208) -/

/-- The pattern in a slot; an empty slot traps ILLEGAL_BUNDLE (R55, R205, R206). -/
def patternSlot (s : State) (pat : BitVec 3) : Except Stop Pattern :=
  let p := Tbl.look Pattern.init (me s).patterns pat.toNat
  if p.valid then .ok p else trapping causeIllegal 2 2 (s.fly.ba.setWidth 64) (pat.setWidth 64)

/-- First byte of the scale area that follows the rows of `ld.x.sc` (R206). -/
def scaleArea (rows rb : Nat) : Nat := 64 * ceilDiv (rows * rb) 64

/-- Bytes a load of rows reads: the rows, and with SC the scales (R206). -/
def loadSpan (p : Pattern) (rows : Nat) (sc : Bool) : Nat :=
  if sc then scaleArea rows p.rowBytes + 16 * rows + 16 else rows * p.rowBytes

/-- What a load of rows writes into tile `x`: data with scales, tag and superblock scales (R206). `old` is the
register before. -/
def loadWrites (p : Pattern) (x rows : Nat) (sc : Bool) (old : Tile) (b : List Byte) : List Write :=
  let rb := p.rowBytes
  let sb := scaleArea rows rb
  let scaled := isScaled p.tag
  let rowsW := (List.range rows).map (fun r =>
    let sc16 := if sc then BitVec.ofNat 128 (ofBytes ((b.drop (sb + 16 * r)).take 16))
      else if scaled then defaultScales else old.scales r
    Write.tileRow x r (p.extract (ofBytes ((b.drop (r * rb)).take rb))) sc16)
  let ssc := if sc then [Write.tileSsc x (BitVec.ofNat 128 (ofBytes ((b.drop (sb + 16 * rows)).take 16)))]
    else if scaled then [Write.tileSsc x defaultSuper] else []
  rowsW ++ [Write.tileTag x (BitVec.ofNat 4 p.tag)] ++ ssc

/-- `ldX`: Load rows through a pattern (R206). -/
def slotLdX (d a : Reg) (h : Hint) (sp sc : Bool) (pat : BitVec 3) (off : Imm) (s : State) : Except Stop State := do
  let base ← readS s a
  tileFree s d
  if sp then .ok () else opRoom s
  let p ← patternSlot s pat
  let x ← tileReg s 2 2 d
  let rows ← rowsCheck s 2 2
  let addr := effAddr base off
  aligned 2 2 addr 64
  let n := loadSpan p rows sc
  if sp then do
    spmLocal s 2 2 addr.toNat n
    .ok (results s 12 (loadWrites p x rows sc (tileOf (here s) x) (spmSlice s addr.toNat n)))
  else
    directLoad s addr n h
      { newOp s (.ldX d a h sp sc pat off) 0 with pattern := p, nums := [x], busy := [(s.cur.1, x)] }

def execLdX (d a : Reg) (h : Hint) (sp sc : Bool) (pat : BitVec 3) (off : Imm) (s : State) : Host.Outcome State Fault Refusal := settle s (slotLdX d a h sp sc pat off s)

/-- What `st.x` writes: the rows, and with SC the block scales and superblock scales (R207). -/
def storeBytes (t : Tile) (rows : Nat) (sc : Bool) : List Byte :=
  let data := (List.range rows).flatMap (fun r => rowBytes (t.row r))
  if sc then
    data ++ (List.range rows).flatMap (fun r => toBytes 16 (t.scales r).toNat) ++ toBytes 16 t.ssc.toNat
  else data

/-- `stX`: Store rows (R207). -/
def slotStX (d a : Reg) (h : Hint) (sp sc : Bool) (off : Imm) (s : State) : Except Stop State := do
  let base ← readS s a
  tileFree s d
  let x ← tileReg s 2 2 d
  let rows ← rowsCheck s 2 2
  let addr := effAddr base off
  aligned 2 2 addr 64
  let b := storeBytes (tileOf (here s) x) rows sc
  if sp then do
    spmLocal s 2 2 addr.toNat b.length
    .ok (stage s addr.toNat b)
  else directStore s addr b h

def execStX (d a : Reg) (h : Hint) (sp sc : Bool) (off : Imm) (s : State) : Host.Outcome State Fault Refusal := settle s (slotStX d a h sp sc off s)

/-- A gathered row: its source index, or none for a row of zeros in STATE PAD (R208). -/
def gatherIndex (s : State) (list r : Nat) : Option Nat :=
  let i := ofBytes (spmSlice s (list + 2 * r) 2)
  if i = 0xFFFF then none else some i

/-- The writes of one gathered row (R208). -/
def gatherWrites (s : State) (p : Pattern) (x rowsAt list r : Nat) (old : Tile) : List Write :=
  let sc := if isScaled p.tag then defaultScales else old.scales r
  match gatherIndex s list r with
  | none => [.tileRow x r 0 sc, .tileRcw x r 5]
  | some i => [.tileRow x r (p.extract (ofBytes (spmSlice s (rowsAt + i * p.rowBytes) p.rowBytes))) sc]

/-- Every gathered row lies in the scratchpad (R208). -/
def gatherBounds (s : State) (p : Pattern) (rowsAt list : Nat) : List Nat → Except Stop Unit
  | [] => .ok ()
  | r :: l => do
    match gatherIndex s list r with
    | none => .ok ()
    | some i => spmLocal s 2 2 (rowsAt + i * p.rowBytes) p.rowBytes
    gatherBounds s p rowsAt list l

/-- `ldXg`: Gather rows through a pattern (R208). R202 gives the rows an alignment of 64 bytes: the model asks it of OFF, the start of
the row array, and not of each row's place OFF + index × rb, since a pattern's rb need not be a multiple of 64 (DEDUCED, log 126). -/
def slotLdXg (d a : Reg) (pat : BitVec 3) (off : Imm) (s : State) : Except Stop State := do
  let list ← readS s a
  tileFree s d
  let p ← patternSlot s pat
  let x ← tileReg s 2 2 d
  let rows ← rowsCheck s 2 2
  aligned 2 2 list 2
  aligned 2 2 (off.setWidth 64) 64
  spmLocal s 2 2 list.toNat (2 * rows)
  gatherBounds s p off.toNat list.toNat (List.range rows)
  let old := tileOf (here s) x
  let ws := (List.range rows).flatMap (fun r => gatherWrites s p x off.toNat list.toNat r old)
  let ssc := if isScaled p.tag then [Write.tileSsc x defaultSuper] else []
  .ok (results s 12 (ws ++ [.tileTag x (BitVec.ofNat 4 p.tag)] ++ ssc))

def execLdXg (d a : Reg) (pat : BitVec 3) (off : Imm) (s : State) : Host.Outcome State Fault Refusal := settle s (slotLdXg d a pat off s)

/-! ### The return of loaded data -/

/-- Requests of a load, in address order. -/
def loadReqs (s : State) (o : Op) : List Req :=
  s.reqs.filter (fun r => r.core = o.core && r.ctx = o.ctx && r.kind = .load o.seq)

/-- The response to a performed request has reached its issuer. -/
def landed (s : State) (r : Req) : Bool := r.performed && !s.packets.any (fun p => p.id == r.id)

/-- LOAD_DATA_RETURN: the data of a virtual-form `ld` or `ld.x` reaches its destination when every unit has been
read and has returned (R201, R206). It comes about only then. -/
def execLoadDataReturn (core ctx seq : Nat) (s : State) : Host.Outcome State Fault Refusal :=
  match findOp s core ctx seq with
  | none => .next s
  | some o =>
    let rs := loadReqs s o
    if rs = [] ∨ rs.any (fun r => !landed s r) then .next s
    else
      let b := rs.flatMap (·.value)
      let s1 := { s with reqs := s.reqs.filter (fun r => !(r.core = core && r.ctx = ctx && r.kind = .load seq)) }
      match o.instr with
      | .ld _ _ _ _ sx _ _ =>
        .next (removeOp (writeScalarNow s1 core ctx o.data (loadValue sx b.length b)) o)
      | .ldX _ _ _ _ sc _ _ =>
        let x := o.nums.headD 0
        .next (removeOp (commitNow s1 core ctx (loadWrites o.pattern x o.rows sc (tileOf (coreOf s1 core) x) b)) o)
      | _ => .next s

end Sys2Proof.Machine
end

