-- ==== Sys2Proof/Machine/Atomic.lean ====
section
/-! DEFINITION. Atomics, reductions and `drain` (R237 to R241, R356). -/

namespace Sys2Proof.Machine

/-- Bytes of an atomic's type (R237): i32, i64, f32. -/
def atomicBytes (ty : BitVec 2) : Nat := if ty = 1 then 8 else 4

/-- Integer minimum and maximum of `w` bits, signed (R238). -/
def signedPick (w : Nat) (max_ : Bool) (a b : Nat) : Nat :=
  if signedOf w a < signedOf w b then (if max_ then b else a) else (if max_ then a else b)

/-- The new value of an integer atomic (R238). -/
def atomicInt (aop : Nat) (w old b c : Nat) : Nat :=
  match aop with
  | 0 => (old + b) % 2 ^ w
  | 1 => signedPick w false old b
  | 2 => signedPick w true old b
  | 3 => old &&& b
  | 4 => old ||| b
  | 5 => old ^^^ b
  | 6 => b
  | _ => if old = c then b else old

/-- The new value of an f32 atomic (R238): add rounds at each application. -/
def atomicFloat (aop old b : Nat) : Nat :=
  match aop with
  | 0 => toFp32 ((ofFp32 old).add (ofFp32 b))
  | 1 => toFp32 ((ofFp32 old).min (ofFp32 b))
  | _ => toFp32 ((ofFp32 old).max (ofFp32 b))

/-- The new value of an atomic (R238). -/
def atomicNew (aop : BitVec 3) (ty : BitVec 2) (old b c : Nat) : Nat :=
  let w := 8 * atomicBytes ty
  if ty = 2 then atomicFloat aop.toNat old (b % 2 ^ w) else atomicInt aop.toNat w old (b % 2 ^ w) (c % 2 ^ w)

/-- The old value as `am` returns it (R238). -/
def atomicOld (ty : BitVec 2) (old : Nat) : Word := if ty = 0 then sextTo64 32 old else BitVec.ofNat 64 old

/-- Issue an atomic as a direct access (R195, R196, R240, R480). -/
def startAtomic (s : State) (o : Op) (addr : Word) (ty : BitVec 2) (ord : BitVec 2) (aop : BitVec 3) (h : Hint)
    (scope : BitVec 3) (noReturn : Bool) : Except Stop State := do
  let n := atomicBytes ty
  aligned 2 2 addr n
  let slk := slackOf s h.sl
  let pas ← walked addr.toNat n slk (directSpan s addr n [permRd, permWr])
  targetCheck s addr pas
  let acq := ord.getLsbD 0
  let rel := ord.getLsbD 1
  let s' ← issueOp (noteAccess (noteAccess s addr n false) addr n true) { o with pas := pas, slk := slk }
  let s' := useRanges s' s.cur.1 s.cur.2 (me s).asid addr.toNat n slk
  let id := s'.nextReq
  let aux := BitVec.ofNat 32 (aop.toNat * 4 + ty.toNat + ord.toNat * 64 + if noReturn then 256 else 0)
  let s' := pushAccess s' (.atomic o.seq acq) pas slk (hintAt s s.cur.1 s.cur.2 (me s).asid addr.toNat h)
    (mustPrecede s' pas rel) 3 aux (toBytes 8 o.b.toNat ++ toBytes 8 o.c.toNat)
  let s' := scopePacket s' id scope
  .ok (if acq then withMe s' (fun c => { c with waits := c.waits ++ [.acquire id] }) else s')

/-- `am`: An atomic that returns the old value (R237, R238). -/
def slotAm (t a b c : Reg) (aop : BitVec 3) (ty : BitVec 2) (scope : BitVec 3) (ord : BitVec 2) (disp : BitVec 12)
    (h : Hint) (s : State) : Except Stop State := do
  let x ← readS s a
  let v ← readS s b
  let e ← if aop = 7 then readS s c else (.ok 0 : Except Stop Word)
  opRoom s
  let o := { newOp s (.am t a b c aop ty scope ord disp h) t with b := v, c := e, data := c.toNat }
  startAtomic s o (x + disp.signExtend 64) ty ord aop h scope false

def execAm (t a b c : Reg) (aop : BitVec 3) (ty : BitVec 2) (scope : BitVec 3) (ord : BitVec 2) (disp : BitVec 12) (h : Hint) (s : State) : Host.Outcome State Fault Refusal := settle s (slotAm t a b c aop ty scope ord disp h s)

/-- `red`: An atomic without a result (R237, R238). -/
def slotRed (t a b : Reg) (aop : BitVec 3) (ty : BitVec 2) (scope : BitVec 3) (ord : BitVec 2) (disp : BitVec 12)
    (h : Hint) (s : State) : Except Stop State := do
  let x ← readS s a
  let v ← readS s b
  opRoom s
  let o := { newOp s (.red t a b aop ty scope ord disp h) t with b := v }
  startAtomic s o (x + disp.signExtend 64) ty ord aop h scope true

def execRed (t a b : Reg) (aop : BitVec 3) (ty : BitVec 2) (scope : BitVec 3) (ord : BitVec 2) (disp : BitVec 12) (h : Hint) (s : State) : Host.Outcome State Fault Refusal := settle s (slotRed t a b aop ty scope ord disp h s)

/-- Operation, type and captured operands of an atomic. -/
def atomicOf (o : Op) : Option (BitVec 3 × BitVec 2) :=
  match o.instr with
  | .am _ _ _ _ aop ty _ _ _ _ => some (aop, ty)
  | .red _ _ _ aop ty _ _ _ _ => some (aop, ty)
  | _ => none

/-- The request of an atomic. -/
def atomicReq (s : State) (o : Op) : Option Req :=
  s.reqs.find? (fun r => r.core = o.core && r.ctx = o.ctx &&
    (match r.kind with | .atomic q _ => q == o.seq | _ => false))

/-- ATOMIC_REPLY: the reply of a performed atomic: the old value of an `am`, and the token with count 1 (R17, R238). The
port's replay cache releases the result (R358). -/
def execAtomicReply (core ctx seq : Nat) (s : State) : Host.Outcome State Fault Refusal :=
  match findOp s core ctx seq with
  | none => .next s
  | some o =>
    match atomicOf o, atomicReq s o with
    | some (_, ty), some r =>
      if !landed s r then .next s
      else
        let s := { s with
          reqs := s.reqs.filter (fun q => q.id ≠ r.id)
          slices := s.slices.map (fun p => (p.1,
            { p.2 with replay := p.2.replay.filter (fun e => !(e.1 == r.core && some (BitVec.ofNat 16 e.2.1) == fixedTag ctx r.kind)) })) }
        let s := if o.data = 0 then s else writeScalarNow s core ctx o.data (atomicOld ty (ofBytes r.value))
        .next (finishOp s o (tokenOk 1))
    | _, _ => .next s

/-- `drain`: Wait for the earlier direct accesses and remote flag packets (R241). -/
def slotDrain (scope : BitVec 3) (s : State) : Except Stop State :=
  .ok (withMe s (fun c => { c with waits := c.waits ++ [.drain scope.toNat (reqBefore s)] }))

def execDrain (scope : BitVec 3) (s : State) : Host.Outcome State Fault Refusal := settle s (slotDrain scope s)

end Sys2Proof.Machine
end

