-- ==== Sys2Proof/Machine/Special.lean ====
section
/-! DEFINITION. Exact mathematical functions to within a known distance: fixed-point series of 1,024 fraction bits, from
which a correctly rounded result follows (R261, R270, R293). -/

namespace Sys2Proof.Machine

/-! ### Fixed point: an integer stands for itself times 2^-1024 -/

/-- Fraction bits of the working grid. -/
def fixBits : Nat := 1024

/-- The unit of the working grid. -/
def fixOne : Int := 2 ^ fixBits

/-- Product of two fixed-point numbers. -/
def fixMul (a b : Int) : Int := a * b / fixOne

/-- Quotient of two fixed-point numbers. -/
def fixDiv (a b : Int) : Int := a * fixOne / b

/-- A finite exact value as fixed point; exact when its quantum is at least one unit. -/
def fixOf : Val → Int
  | .num n m e _ =>
    let s := e + fixBits
    let v : Int := if 0 ≤ s then m * 2 ^ s.toNat else m / 2 ^ (-s).toNat
    if n then -v else v
  | _ => 0

/-- Bits dropped from the working grid before a result is read from it. -/
def guardBits : Nat := 256

/-- The exact value that lies within `err` units of `x`, read on the coarser grid that drops `guard` bits: strictly inside the cell
that every candidate shares. Where the distance leaves two cells possible the cell is free (Assumption 7). -/
def encloseOn (guard : Nat) (x : Int) (err : Nat) : Val :=
  let lo := (x.natAbs - err) / 2 ^ guard
  let hi := (x.natAbs + err) / 2 ^ guard
  .num (x < 0) (if lo = hi then lo else Config.transcendentalFloor x err) ((guard : Int) - fixBits) true

/-- The same on the grid of 2^-768. -/
def enclose (x : Int) (err : Nat) : Val := encloseOn guardBits x err

/-- The error that the series below stay within, in units, with room to spare. -/
def seriesErr : Nat := 2 ^ 40

/-! ### Series -/

/-- Terms `t`, `t z / (k (k+1))`, … of an exponential-like series, summed. -/
def sumFactorial (z : Int) (step : Nat) : Nat → Nat → Int → Int
  | 0, _, t => t
  | fuel + 1, k, t => t + sumFactorial z step fuel (k + step) (fixMul t z / ((List.range step).foldl (fun p i => p * (k + i)) 1 : Nat))

/-- Terms `t / k` with `t` multiplied by `z` and `k` raised by 2 each time, summed. -/
def sumOdd (z : Int) : Nat → Nat → Int → Int
  | 0, _, _ => 0
  | fuel + 1, k, t => t / (k : Int) + sumOdd z fuel (k + 2) (fixMul t z)

/-- 2 artanh(z) for |z| ≤ 1/3. -/
def fixArtanh2 (z : Int) : Int := 2 * sumOdd (fixMul z z) 360 1 z

/-- arctan(1/n). -/
def fixArctanInv (n : Nat) : Int := sumOdd (-(fixOne / (n * n : Nat))) 260 1 (fixOne / (n : Nat))

/-- ln 2 and π. -/
def fixLn2 : Int := fixArtanh2 (fixOne / 3)
def fixPi : Int := 16 * fixArctanInv 5 - 4 * fixArctanInv 239

/-- e^y for 0 ≤ y ≤ 1. -/
def fixExpSmall (y : Int) : Int := sumFactorial y 1 220 1 fixOne

/-- 2^x for a fixed-point x; below −1,100 it is under one unit. -/
def fixExp2 (x : Int) : Int :=
  let n := x / fixOne
  let f := fixExpSmall (fixMul (x - n * fixOne) fixLn2)
  if 0 ≤ n then f * 2 ^ n.toNat else f / 2 ^ (-n).toNat

/-- e^x for x ≤ 0. -/
def fixExpNeg (x : Int) : Int := if x < -1000 * fixOne then 0 else fixExp2 (fixDiv x fixLn2)

/-- log2 of a positive value m * 2^e. -/
def fixLog2 (m : Nat) (e : Int) : Int :=
  let k := Nat.log2 m
  let r : Int := m * fixOne / 2 ^ k
  (e + k) * fixOne + fixDiv (fixArtanh2 (fixDiv (r - fixOne) (r + fixOne))) fixLn2

/-- sin(π r) for 0 ≤ r ≤ 1/2. -/
def fixSinPi (r : Int) : Int :=
  let y := fixMul fixPi r
  sumFactorial (-(fixMul y y)) 2 120 2 y

/-- The integer square root, bit by bit from bit `b − 1` down. -/
def sqrtBits : Nat → Nat → Nat → Nat
  | 0, _, r => r
  | b + 1, x, r => let t := r + 2 ^ b; sqrtBits b x (if t * t ≤ x then t else r)

/-- Bits by which a short value's neighbourhood is read more finely than the value itself. -/
def nearBits : Nat := 90

/-- The value whose magnitude lies below that of `v` by less than 2^-90 of its last place. -/
def Val.justBelow : Val → Val
  | .num n m e _ => .num n (m * 2 ^ nearBits - 1) (e - nearBits) true
  | v => v

/-- The value whose magnitude lies above that of `v` by less than 2^-90 of its last place. -/
def Val.justAbove : Val → Val
  | .num n m e _ => .num n (m * 2 ^ nearBits) (e - nearBits) true
  | v => v

/-- An argument so small that `f(0) + f'(0) a` differs from `f(a)` by less than the last place of `a` read `nearBits`
more finely: below 2^-60 the cubic term of tanh and of the logistic function does, for arguments of up to 24 bits. -/
def tinyArg (a : Val) : Bool := decide ((fixOf a).natAbs < 2 ^ (fixBits - 60))

/-! ### The functions of R261 -/

/-- A value whose magnitude is beyond any argument at which the functions still change. -/
def clampArg (v : Val) (limit : Nat) : Int :=
  let x := fixOf v
  if x < -(limit : Int) * fixOne then -(limit : Int) * fixOne else if (limit : Int) * fixOne < x then limit * fixOne else x

/-- An exact value is an integer. -/
def Val.isInteger : Val → Bool
  | .num _ m e st => !st && (if 0 ≤ e then true else m % 2 ^ (-e).toNat == 0)
  | _ => false

/-- 2^a: exact for an integer (R261). -/
def valExp2 (a : Val) : Val :=
  match a with
  | .nan => .nan
  | .inf true => Val.zero false
  | .inf false => .inf false
  | .num .. =>
    if a.isInteger then .num false 1 (clampArg a 2000 / fixOne) false
    else
      let x := clampArg a 2000
      if 0 ≤ x then (if 300 * fixOne < x then .num false 1 300 true else enclose (fixExp2 (x - 300 * fixOne)) seriesErr |>.mul (.num false 1 300 false))
      else enclose (fixExp2 x) seriesErr

/-- log2 a: exact for a power of two (R261). -/
def valLog2 (a : Val) : Val :=
  match a with
  | .nan => .nan
  | .inf n => if n then .nan else .inf false
  | .num n m e _ =>
    if m = 0 then .inf true
    else if n then .nan
    else if m = 2 ^ Nat.log2 m then Val.ofInt (e + Nat.log2 m)
    else enclose (fixLog2 m e) seriesErr

/-- 1 ÷ a (R261). -/
def valRcp (a : Val) : Val :=
  match a with
  | .nan => .nan
  | .inf n => Val.zero n
  | .num n m _ _ => if m = 0 then .inf n else (Val.ofInt 1).quot a

/-- 1 ÷ √a (R261): the integer root of 2^(2k) ÷ a, with a sticky rest. -/
def valRsq (a : Val) : Val :=
  match a with
  | .nan => .nan
  | .inf n => if n then .nan else Val.zero false
  | .num n m e _ =>
    if m = 0 then .inf n
    else if n then .nan
    else
      let (m, e) := if e % 2 = 0 then (m, e) else (2 * m, e - 1)
      let k := 256 + Nat.log2 m
      let q := 2 ^ (2 * k) / m
      let r := sqrtBits (k + 1) q 0
      .num false r (-(k : Int) - e / 2) (r * r * m != 2 ^ (2 * k))

/-- tanh a: 1 − 2 ÷ (e^(2a) + 1); a − a³/3 + … near 0, and above 1 − 2^-768 past 300 (R261). -/
def valTanh (a : Val) : Val :=
  match a with
  | .nan => .nan
  | .inf n => .num n 1 0 false
  | .num n m _ _ =>
    if m = 0 then Val.zero n
    else if tinyArg a then a.justBelow
    else
      let x : Int := (clampArg a 700).natAbs
      let t := fixExpNeg (-2 * x)
      let r := if 300 * fixOne < x then .num false (2 ^ 768 - 1) (-768) true
        else enclose (fixDiv (fixOne - t) (fixOne + t)) seriesErr
      if n then r.negate else r

/-- 1 ÷ (1 + e^(−a)); 1/2 + a/4 − a³/48 + … near 0 (R261). -/
def valSig (a : Val) : Val :=
  match a with
  | .nan => .nan
  | .inf n => if n then Val.zero false else .num false 1 0 false
  | .num n m _ _ =>
    if m = 0 then .num false 1 (-1) false
    else if tinyArg a then
      let v := (Val.num false 1 (-1) false).add (a.mul (.num false 1 (-2) false))
      if n then v.justAbove else v.justBelow
    else
      let x : Int := (clampArg a 700).natAbs
      if 600 * fixOne < x then (if n then .num false 0 (-768) true else .num false (2 ^ 768 - 1) (-768) true)
      else
        let t := fixExpNeg (-x)
        enclose (fixDiv (if n then t else fixOne) (fixOne + t)) seriesErr

/-- sin(π a): exact where 2a is an integer (R261). -/
def valSin (a : Val) : Val :=
  match a with
  | .nan => .nan
  | .inf _ => .nan
  | .num n m e _ =>
    if m = 0 then Val.zero n
    else if a.isInteger then Val.zero false
    else
      let r := (fixOf (.num false m e false)) % (2 * fixOne)
      let neg := n != decide (fixOne < r)
      let r := if fixOne < r then r - fixOne else r
      let r := if fixOne < 2 * r then fixOne - r else r
      if 2 * r = fixOne then .num neg 1 0 false
      else
        match enclose (fixSinPi r) seriesErr with
        | .num _ k e st => .num neg k e st
        | v => v

end Sys2Proof.Machine
end

