-- ==== Sys2Proof/Machine/Vector.lean ====
section
/-! DEFINITION. The element-wise, special-function, compare, integer and movement instructions of the tile/vector unit
(R255 to R263, R267 to R269). Operands are checked in the order window, ROWS, tags, other limits (Assumption 10). -/

namespace Sys2Proof.Machine

/-! ### Operands (R255 to R258) -/

/-- Physical number of tile `n` as an operand of the VEC slot (R34). -/
def vecTileAt (s : State) (n : Nat) : Except Stop Nat :=
  if h : n < 64 then tileReg s 6 3 (BitVec.ofNatLT n h)
  else trapping causePriv 6 3 (s.fly.ba.setWidth 64) (BitVec.ofNat 64 n)

def vecTile (s : State) (x : Reg) : Except Stop Nat := tileReg s 6 3 x

/-- A tile source as the bundle sees it. -/
def vecSrc (s : State) (x : Reg) : Except Stop Tile := do
  let p ← vecTile s x
  .ok (tileOf (here s) p)

/-- The tag of a source is one of a list (R30). -/
def vecTag (t : Tile) (ok : List Nat) : Except Stop Unit := tagCheck 6 3 t.tag.toNat (ok.contains t.tag.toNat)

/-- Trap SHAPE of the VEC slot (R500). -/
def vecShape {α : Type} (s : State) : Except Stop α := trapping causeShape 6 3 0 (me s).shape

def vecRows (s : State) : Except Stop Nat := rowsCheck s 6 3

/-- Included rows (R256). -/
def included (s : State) (pm : BitVec 3) (rows : Nat) : List Nat := activeRows (maskOf (me s) pm.toNat) rows

/-- N of R257 for an operand format of `e` elements, held by every source. -/
def vecCount (s : State) (e : Nat) (srcs : List Tile) : Except Stop Nat :=
  let n := if colsOf (me s) = 0 then e else colsOf (me s)
  if n ≤ e ∧ srcs.all (fun t => decide (n ≤ elemsPerRow t.tag.toNat)) then .ok n else vecShape s

/-- K of R145. -/
def kOf (rows : Nat) : Nat := ceilDiv rows 8

/-- The float tags of the element-wise instructions, the integer tags, and the unscaled tags. -/
def wideTags : List Nat := [1, 2, 3]
def intTags : List Nat := [8, 9, 10]
def unscaledTags : List Nat := [1, 2, 3, 8, 11]

/-- Every tag but NONE and the reserved ones (R30). -/
def anyTags : List Nat := [1, 2, 3, 4, 5, 6, 7, 8, 9, 10, 11, 12]

/-- A B operand: a tile, or a scalar when BS is set. -/
inductive VecB where
  | tile (t : Tile)
  | scalar (w : Word)
deriving DecidableEq, Repr

/-- What a B operand waits for (R17, R31). -/
def holdB (s : State) (b : Reg) (bs : Bool) : Except Stop Word :=
  if bs then readS s b
  else do
    tileFree s b
    .ok 0

def operandB (s : State) (b : Reg) (bs : Bool) (w : Word) : Except Stop VecB :=
  if bs then .ok (.scalar w)
  else do
    let t ← vecSrc s b
    .ok (.tile t)

def VecB.tiles : VecB → List Tile
  | .tile t => [t]
  | .scalar _ => []

def VecB.tagOk (b : VecB) (ok : List Nat) : Except Stop Unit :=
  match b with
  | .tile t => vecTag t ok
  | .scalar _ => .ok ()

/-- Element value of a floating B operand: a scalar is FP32 (R259). -/
def VecB.value (b : VecB) (i j : Nat) : Val :=
  match b with
  | .tile t => tileValue t i j
  | .scalar w => ofFp32 (w.extractLsb' 0 32).toNat

/-- Element bits of an integer B operand: a scalar's low bits (R262, R268). -/
def VecB.bits (b : VecB) (tag i j : Nat) : Nat :=
  match b with
  | .tile t => elemOf tag (t.row i) j
  | .scalar w => w.toNat % 2 ^ elemBits tag

/-! ### Results -/

/-- Round the values of included rows in the order of R83: rows ascending, then elements. -/
def roundRows (s : State) (mode : Nat) (r : Rnd) (dt : Nat) (rows : List Nat) (n : Nat) (v : Nat → Nat → Val) :
    List (Nat × List Nat) × State :=
  let (ws, s) := drawSeeds s mode (rows.length * n)
  (rows.zipIdx.map (fun p =>
    (p.1, ((List.range n).zip ((ws.drop (p.2 * n)).take n)).map (fun q => roundTo dt (rmode mode r q.2) (v p.1 q.1)))), s)

/-- Writes of rows whose elements from `first` on are given: other elements and the scales stay, the control word comes
from the source row (R32, R257). -/
def elementWrites (x : Nat) (old src : Tile) (w first : Nat) (l : List (Nat × List Nat)) : List Write :=
  l.flatMap (fun p => [.tileRow x p.1 (putElems w first (old.row p.1) p.2) (old.scales p.1), .tileRcw x p.1 (src.word p.1)])

/-- The same with given block scales. -/
def scaledWrites (x : Nat) (old src : Tile) (w first : Nat) (sc : Nat → BitVec 128) (l : List (Nat × List Nat)) : List Write :=
  l.flatMap (fun p => [.tileRow x p.1 (putElems w first (old.row p.1) p.2) (sc p.1), .tileRcw x p.1 (src.word p.1)])

/-- A row of `n` elements by a function. -/
def eachElement (rows : List Nat) (n : Nat) (f : Nat → Nat → Nat) : List (Nat × List Nat) :=
  rows.map (fun i => (i, (List.range n).map (f i)))

/-! ### Element-wise floating point (R259 to R261) -/

/-- An element-wise floating instruction of one source. -/
def vecUnary (f : Val → Val) (base : Nat) (d a : Reg) (pm : BitVec 3) (r : Rnd) (dt : BitVec 4) (s : State) :
    Except Stop State := do
  tileFree s d
  tileFree s a
  let x ← vecTile s d
  let ta ← vecSrc s a
  let rows ← vecRows s
  vecTag ta wideTags
  let n ← vecCount s (elemsPerRow dt.toNat) [ta]
  let old := tileOf (here s) x
  let (l, s) := roundRows s (resolveMode (me s) r) r dt.toNat (included s pm rows) n (fun i j => f (tileValue ta i j))
  .ok (results s (base + kOf rows) (elementWrites x old ta (elemBits dt.toNat) 0 l ++ [.tileTag x dt]))

/-- An element-wise floating instruction of two or three sources; the third is B again where it is not used. -/
def vecBinary (f : Val → Val → Val → Val) (d a b : Reg) (c : Option Reg) (pm : BitVec 3) (r : Rnd) (bs : Bool)
    (dt : BitVec 4) (s : State) : Except Stop State := do
  tileFree s d
  tileFree s a
  let w ← holdB s b bs
  tileFree s (c.getD a)
  let x ← vecTile s d
  let ta ← vecSrc s a
  let tb ← operandB s b bs w
  let tc ← vecSrc s (c.getD a)
  let rows ← vecRows s
  vecTag ta wideTags
  tb.tagOk wideTags
  vecTag tc wideTags
  let n ← vecCount s (elemsPerRow dt.toNat) ([ta, tc] ++ tb.tiles)
  let old := tileOf (here s) x
  let (l, s) := roundRows s (resolveMode (me s) r) r dt.toNat (included s pm rows) n
    (fun i j => f (tileValue ta i j) (tb.value i j) (tileValue tc i j))
  .ok (results s (4 + kOf rows) (elementWrites x old ta (elemBits dt.toNat) 0 l ++ [.tileTag x dt]))

/-- The magnitude of a value (R259). -/
def Val.abs : Val → Val
  | .num _ m e st => .num false m e st
  | .inf _ => .inf false
  | .nan => .nan

/-- `vadd`: Exact sum (R259). -/
def slotVadd (d a b : Reg) (pm : BitVec 3) (r : Rnd) (bs : Bool) (dt : BitVec 4) (s : State) : Except Stop State :=
  vecBinary (fun a b _ => a.add b) d a b none pm r bs dt s

def execVadd (d a b : Reg) (pm : BitVec 3) (r : Rnd) (bs : Bool) (dt : BitVec 4) (s : State) : Host.Outcome State Fault Refusal := settle s (slotVadd d a b pm r bs dt s)

/-- `vsub`: Exact difference (R259). -/
def slotVsub (d a b : Reg) (pm : BitVec 3) (r : Rnd) (bs : Bool) (dt : BitVec 4) (s : State) : Except Stop State :=
  vecBinary (fun a b _ => a.add b.negate) d a b none pm r bs dt s

def execVsub (d a b : Reg) (pm : BitVec 3) (r : Rnd) (bs : Bool) (dt : BitVec 4) (s : State) : Host.Outcome State Fault Refusal := settle s (slotVsub d a b pm r bs dt s)

/-- `vmul`: Exact product (R78, R259). -/
def slotVmul (d a b : Reg) (pm : BitVec 3) (r : Rnd) (bs : Bool) (dt : BitVec 4) (s : State) : Except Stop State :=
  vecBinary (fun a b _ => a.mul b) d a b none pm r bs dt s

def execVmul (d a b : Reg) (pm : BitVec 3) (r : Rnd) (bs : Bool) (dt : BitVec 4) (s : State) : Host.Outcome State Fault Refusal := settle s (slotVmul d a b pm r bs dt s)

/-- `vmin`: The smaller operand (R166, R259). -/
def slotVmin (d a b : Reg) (pm : BitVec 3) (r : Rnd) (bs : Bool) (dt : BitVec 4) (s : State) : Except Stop State :=
  vecBinary (fun a b _ => a.min b) d a b none pm r bs dt s

def execVmin (d a b : Reg) (pm : BitVec 3) (r : Rnd) (bs : Bool) (dt : BitVec 4) (s : State) : Host.Outcome State Fault Refusal := settle s (slotVmin d a b pm r bs dt s)

/-- `vmax`: The larger operand (R166, R259). -/
def slotVmax (d a b : Reg) (pm : BitVec 3) (r : Rnd) (bs : Bool) (dt : BitVec 4) (s : State) : Except Stop State :=
  vecBinary (fun a b _ => a.max b) d a b none pm r bs dt s

def execVmax (d a b : Reg) (pm : BitVec 3) (r : Rnd) (bs : Bool) (dt : BitVec 4) (s : State) : Host.Outcome State Fault Refusal := settle s (slotVmax d a b pm r bs dt s)

/-- `vfma`: Product and sum with one rounding (R259). -/
def slotVfma (d a b c : Reg) (pm : BitVec 3) (r : Rnd) (bs : Bool) (dt : BitVec 4) (s : State) : Except Stop State :=
  vecBinary (fun a b c => (a.mul b).add c) d a b (some c) pm r bs dt s

def execVfma (d a b c : Reg) (pm : BitVec 3) (r : Rnd) (bs : Bool) (dt : BitVec 4) (s : State) : Host.Outcome State Fault Refusal := settle s (slotVfma d a b c pm r bs dt s)

/-- `vabs`: The magnitude (R259). -/
def slotVabs (d a : Reg) (pm : BitVec 3) (r : Rnd) (dt : BitVec 4) (s : State) : Except Stop State :=
  vecUnary Val.abs 4 d a pm r dt s

def execVabs (d a : Reg) (pm : BitVec 3) (r : Rnd) (dt : BitVec 4) (s : State) : Host.Outcome State Fault Refusal := settle s (slotVabs d a pm r dt s)

/-- `vneg`: The negated value (R259). -/
def slotVneg (d a : Reg) (pm : BitVec 3) (r : Rnd) (dt : BitVec 4) (s : State) : Except Stop State :=
  vecUnary Val.negate 4 d a pm r dt s

def execVneg (d a : Reg) (pm : BitVec 3) (r : Rnd) (dt : BitVec 4) (s : State) : Host.Outcome State Fault Refusal := settle s (slotVneg d a pm r dt s)

/-- `vexp2`: Two to a power (R261). -/
def slotVexp2 (d a : Reg) (pm : BitVec 3) (r : Rnd) (dt : BitVec 4) (s : State) : Except Stop State :=
  vecUnary valExp2 8 d a pm r dt s

def execVexp2 (d a : Reg) (pm : BitVec 3) (r : Rnd) (dt : BitVec 4) (s : State) : Host.Outcome State Fault Refusal := settle s (slotVexp2 d a pm r dt s)

/-- `vlog2`: Base-2 logarithm (R261). -/
def slotVlog2 (d a : Reg) (pm : BitVec 3) (r : Rnd) (dt : BitVec 4) (s : State) : Except Stop State :=
  vecUnary valLog2 8 d a pm r dt s

def execVlog2 (d a : Reg) (pm : BitVec 3) (r : Rnd) (dt : BitVec 4) (s : State) : Host.Outcome State Fault Refusal := settle s (slotVlog2 d a pm r dt s)

/-- `vrcp`: Reciprocal (R261). -/
def slotVrcp (d a : Reg) (pm : BitVec 3) (r : Rnd) (dt : BitVec 4) (s : State) : Except Stop State :=
  vecUnary valRcp 8 d a pm r dt s

def execVrcp (d a : Reg) (pm : BitVec 3) (r : Rnd) (dt : BitVec 4) (s : State) : Host.Outcome State Fault Refusal := settle s (slotVrcp d a pm r dt s)

/-- `vrsq`: Reciprocal square root (R261). -/
def slotVrsq (d a : Reg) (pm : BitVec 3) (r : Rnd) (dt : BitVec 4) (s : State) : Except Stop State :=
  vecUnary valRsq 8 d a pm r dt s

def execVrsq (d a : Reg) (pm : BitVec 3) (r : Rnd) (dt : BitVec 4) (s : State) : Host.Outcome State Fault Refusal := settle s (slotVrsq d a pm r dt s)

/-- `vtanh`: Hyperbolic tangent (R261). -/
def slotVtanh (d a : Reg) (pm : BitVec 3) (r : Rnd) (dt : BitVec 4) (s : State) : Except Stop State :=
  vecUnary valTanh 8 d a pm r dt s

def execVtanh (d a : Reg) (pm : BitVec 3) (r : Rnd) (dt : BitVec 4) (s : State) : Host.Outcome State Fault Refusal := settle s (slotVtanh d a pm r dt s)

/-- `vsig`: Logistic function (R261). -/
def slotVsig (d a : Reg) (pm : BitVec 3) (r : Rnd) (dt : BitVec 4) (s : State) : Except Stop State :=
  vecUnary valSig 8 d a pm r dt s

def execVsig (d a : Reg) (pm : BitVec 3) (r : Rnd) (dt : BitVec 4) (s : State) : Host.Outcome State Fault Refusal := settle s (slotVsig d a pm r dt s)

/-- `vsin`: Sine of half-turns (R261). -/
def slotVsin (d a : Reg) (pm : BitVec 3) (r : Rnd) (dt : BitVec 4) (s : State) : Except Stop State :=
  vecUnary valSin 8 d a pm r dt s

def execVsin (d a : Reg) (pm : BitVec 3) (r : Rnd) (dt : BitVec 4) (s : State) : Host.Outcome State Fault Refusal := settle s (slotVsin d a pm r dt s)

/-! ### Compare and select (R262, R263) -/

/-- The condition of `vcmp` on integers: never unordered (R262). -/
def vcmpInt (cond : Nat) (a b : Int) : Bool :=
  match cond with
  | 0 => a == b
  | 1 => a != b
  | 2 => decide (a < b)
  | 3 => decide (a ≤ b)
  | 4 => false
  | _ => true

/-- The condition of `vcmp` on floating values (R167, R262). -/
def vcmpFloat (cond : Nat) (a b : Val) : Bool :=
  let un := a.isNan || b.isNan
  match cond with
  | 0 => a.eqv b
  | 1 => un || !a.eqv b
  | 2 => a.lt b && !a.eqv b
  | 3 => !un && (a.lt b || a.eqv b)
  | 4 => un
  | _ => !un

/-- `vcmp`: Compare element by element into INT8 (R262). -/
def slotVcmp (d a b : Reg) (pm : BitVec 3) (bs : Bool) (cond : BitVec 3) (s : State) : Except Stop State := do
  tileFree s d
  tileFree s a
  let w ← holdB s b bs
  let x ← vecTile s d
  let ta ← vecSrc s a
  let tb ← operandB s b bs w
  let rows ← vecRows s
  let tag := ta.tag.toNat
  vecTag ta (wideTags ++ intTags)
  tb.tagOk (if wideTags.contains tag then wideTags else [tag])
  let n ← vecCount s (elemsPerRow tag) (ta :: tb.tiles)
  if 512 < n then vecShape s else .ok ()
  let holds (i j : Nat) : Bool :=
    if isIntTag tag then
      vcmpInt cond.toNat (signedOf (elemBits tag) (elemOf tag (ta.row i) j)) (signedOf (elemBits tag) (tb.bits tag i j))
    else vcmpFloat cond.toNat (tileValue ta i j) (tb.value i j)
  let l := eachElement (included s pm rows) n (fun i j => if holds i j then 1 else 0)
  .ok (results s (4 + kOf rows) (scaledWrites x (tileOf (here s) x) ta 8 0 (fun _ => defaultScales) l ++
    [.tileTag x 9, .tileSsc x defaultSuper]))

def execVcmp (d a b : Reg) (pm : BitVec 3) (bs : Bool) (cond : BitVec 3) (s : State) : Host.Outcome State Fault Refusal := settle s (slotVcmp d a b pm bs cond s)

/-- `vsel`: Choose elements by an INT8 register (R263). -/
def slotVsel (d a b c : Reg) (pm : BitVec 3) (s : State) : Except Stop State := do
  tileFree s d
  tileFree s a
  tileFree s b
  tileFree s c
  let x ← vecTile s d
  let ta ← vecSrc s a
  let tb ← vecSrc s b
  let tc ← vecSrc s c
  let rows ← vecRows s
  let tag := ta.tag.toNat
  vecTag ta unscaledTags
  vecTag tb [tag]
  vecTag tc [9]
  let n ← vecCount s (elemsPerRow tag) [ta, tb, tc]
  let l := eachElement (included s pm rows) n
    (fun i j => if elemOf 9 (tc.row i) j ≠ 0 then elemOf tag (ta.row i) j else elemOf tag (tb.row i) j)
  .ok (results s (4 + kOf rows) (elementWrites x (tileOf (here s) x) ta (elemBits tag) 0 l ++ [.tileTag x ta.tag]))

def execVsel (d a b c : Reg) (pm : BitVec 3) (s : State) : Host.Outcome State Fault Refusal := settle s (slotVsel d a b c pm s)

/-! ### Integer and logic (R268) -/

/-- Keep the low `w` bits, or saturate to the signed range when SATI is set (R268). -/
def intResult (w : Nat) (sati : Bool) (v : Int) : Nat :=
  if sati then (BitVec.ofInt w (max (-(2 ^ (w - 1))) (min v (2 ^ (w - 1) - 1)))).toNat else (BitVec.ofInt w v).toNat

/-- An integer element-wise instruction on codes. -/
def vecInt (f : Nat → Nat → Nat → Nat) (d a b : Reg) (pm : BitVec 3) (bs : Bool) (s : State) : Except Stop State := do
  tileFree s d
  tileFree s a
  let w ← holdB s b bs
  let x ← vecTile s d
  let ta ← vecSrc s a
  let tb ← operandB s b bs w
  let rows ← vecRows s
  let tag := ta.tag.toNat
  vecTag ta intTags
  tb.tagOk [tag]
  let n ← vecCount s (elemsPerRow tag) (ta :: tb.tiles)
  let l := eachElement (included s pm rows) n (fun i j => f (elemBits tag) (elemOf tag (ta.row i) j) (tb.bits tag i j))
  .ok (results s (4 + kOf rows) (scaledWrites x (tileOf (here s) x) ta (elemBits tag) 0 ta.scales l ++
    [.tileTag x ta.tag, .tileSsc x ta.ssc]))

/-- `viadd`: Sum (R268). -/
def slotViadd (d a b : Reg) (pm : BitVec 3) (bs sati : Bool) (s : State) : Except Stop State :=
  vecInt (fun w x y => intResult w sati (signedOf w x + signedOf w y)) d a b pm bs s

def execViadd (d a b : Reg) (pm : BitVec 3) (bs sati : Bool) (s : State) : Host.Outcome State Fault Refusal := settle s (slotViadd d a b pm bs sati s)

/-- `vimul`: Product (R268). -/
def slotVimul (d a b : Reg) (pm : BitVec 3) (bs sati : Bool) (s : State) : Except Stop State :=
  vecInt (fun w x y => intResult w sati (signedOf w x * signedOf w y)) d a b pm bs s

def execVimul (d a b : Reg) (pm : BitVec 3) (bs sati : Bool) (s : State) : Host.Outcome State Fault Refusal := settle s (slotVimul d a b pm bs sati s)

/-- `vand`: Bitwise and (R268). -/
def slotVand (d a b : Reg) (pm : BitVec 3) (bs : Bool) (s : State) : Except Stop State :=
  vecInt (fun _ x y => x &&& y) d a b pm bs s

def execVand (d a b : Reg) (pm : BitVec 3) (bs : Bool) (s : State) : Host.Outcome State Fault Refusal := settle s (slotVand d a b pm bs s)

/-- `vor`: Bitwise or (R268). -/
def slotVor (d a b : Reg) (pm : BitVec 3) (bs : Bool) (s : State) : Except Stop State :=
  vecInt (fun _ x y => x ||| y) d a b pm bs s

def execVor (d a b : Reg) (pm : BitVec 3) (bs : Bool) (s : State) : Host.Outcome State Fault Refusal := settle s (slotVor d a b pm bs s)

/-- `vxor`: Bitwise exclusive or (R268). -/
def slotVxor (d a b : Reg) (pm : BitVec 3) (bs : Bool) (s : State) : Except Stop State :=
  vecInt (fun _ x y => x ^^^ y) d a b pm bs s

def execVxor (d a b : Reg) (pm : BitVec 3) (bs : Bool) (s : State) : Host.Outcome State Fault Refusal := settle s (slotVxor d a b pm bs s)

/-- `vshl`: Shift left (R268). -/
def slotVshl (d a b : Reg) (pm : BitVec 3) (bs : Bool) (s : State) : Except Stop State :=
  vecInt (fun w x y => if w ≤ y then 0 else (x <<< y) % 2 ^ w) d a b pm bs s

def execVshl (d a b : Reg) (pm : BitVec 3) (bs : Bool) (s : State) : Host.Outcome State Fault Refusal := settle s (slotVshl d a b pm bs s)

/-- `vshr`: Shift right (R268). -/
def slotVshr (d a b : Reg) (pm : BitVec 3) (bs arith : Bool) (s : State) : Except Stop State :=
  vecInt (fun w x y => if arith then (BitVec.ofInt w (signedOf w x / 2 ^ (min y w))).toNat else if w ≤ y then 0 else x >>> y) d a b pm bs s

def execVshr (d a b : Reg) (pm : BitVec 3) (bs arith : Bool) (s : State) : Host.Outcome State Fault Refusal := settle s (slotVshr d a b pm bs arith s)

/-- `vidot`: Grouped dot products with an INT32 addend (R100, R269). -/
def slotVidot (d a b c : Reg) (pm : BitVec 3) (brow : Bool) (k : BitVec 4) (s : State) : Except Stop State := do
  tileFree s d
  tileFree s a
  tileFree s b
  tileFree s c
  let x ← vecTile s d
  let ta ← vecSrc s a
  let tb ← vecSrc s b
  let tc ← vecSrc s c
  let rows ← vecRows s
  vecTag ta [9, 10]
  vecTag tb [9, 10]
  vecTag tc [8]
  let n ← vecCount s (elemsPerRow ta.tag.toNat) [ta, tb]
  let g := 2 ^ (k.toNat + 2)
  if n % g = 0 ∧ n / g ≤ 128 then .ok () else vecShape s
  let code (t : Tile) (i j : Nat) : Int := signedOf (elemBits t.tag.toNat) (elemOf t.tag.toNat (t.row i) j)
  let dot (i q : Nat) : Int := (List.range g).foldl
    (fun acc j => acc + code ta i (q * g + j) * code tb (if brow then 0 else i) (q * g + j))
    (signedOf 32 (elemOf 8 (tc.row i) q))
  let l := eachElement (included s pm rows) (n / g) (fun i q => intResult 32 true (dot i q))
  .ok (results s (8 + kOf rows) (elementWrites x (tileOf (here s) x) ta 32 0 l ++ [.tileTag x 8]))

def execVidot (d a b c : Reg) (pm : BitVec 3) (brow : Bool) (k : BitVec 4) (s : State) : Host.Outcome State Fault Refusal := settle s (slotVidot d a b c pm brow k s)

/-! ### Data movement (R267) -/

/-- Row `k` of `a` with its block scales and control word, as row `i`. -/
def moveRow (x i : Nat) (a : Tile) (k : Nat) : List Write := [.tileRow x i (a.row k) (a.scales k), .tileRcw x i (a.word k)]

/-- A row-moving instruction: tag and superblock scales come from A. Like `vzero` it moves whole rows and so checks ROWS
alone, not COLS; the manual says so of `vmov` only (DESIGN CHOICE, Assumption 103). -/
def vecMove (a : Tile) (x lat : Nat) (s : State) (ws : List Write) : Except Stop State :=
  .ok (results s lat (ws ++ [.tileTag x a.tag, .tileSsc x a.ssc]))

/-- `vbcastRow`: One row to every included row (R267); COLS is not checked (DESIGN CHOICE, Assumption 103). -/
def slotVbcastRow (d a : Reg) (pm : BitVec 3) (k : BitVec 6) (s : State) : Except Stop State := do
  tileFree s d
  tileFree s a
  let x ← vecTile s d
  let ta ← vecSrc s a
  let rows ← vecRows s
  vecTag ta anyTags
  vecMove ta x (2 + kOf rows) s ((included s pm rows).flatMap (fun i => moveRow x i ta k.toNat))

def execVbcastRow (d a : Reg) (pm : BitVec 3) (k : BitVec 6) (s : State) : Host.Outcome State Fault Refusal := settle s (slotVbcastRow d a pm k s)

/-- `vbcastEl`: One element of each row to all of the row (R267). -/
def slotVbcastEl (d a : Reg) (pm : BitVec 3) (e : BitVec 11) (s : State) : Except Stop State := do
  tileFree s d
  tileFree s a
  let x ← vecTile s d
  let ta ← vecSrc s a
  let rows ← vecRows s
  let tag := ta.tag.toNat
  vecTag ta unscaledTags
  let n ← vecCount s (elemsPerRow tag) [ta]
  if e.toNat < elemsPerRow tag then .ok () else vecShape s
  let l := eachElement (included s pm rows) n (fun i _ => elemOf tag (ta.row i) e.toNat)
  .ok (results s (2 + kOf rows) (elementWrites x (tileOf (here s) x) ta (elemBits tag) 0 l ++ [.tileTag x ta.tag]))

def execVbcastEl (d a : Reg) (pm : BitVec 3) (e : BitVec 11) (s : State) : Host.Outcome State Fault Refusal := settle s (slotVbcastEl d a pm e s)

/-- `vtr`: Transpose a 64 by 64 block (R267). -/
def slotVtr (d a : Reg) (c : BitVec 3) (s : State) : Except Stop State := do
  tileFree s d
  tileFree s a
  let x ← vecTile s d
  let ta ← vecSrc s a
  let tag := ta.tag.toNat
  vecTag ta [1, 2, 3, 4, 5, 8, 9, 11]
  if c.toNat < elemsPerRow tag / 64 then .ok () else vecShape s
  let old := tileOf (here s) x
  let col := 64 * c.toNat
  let ws := (List.range 64).map (fun i =>
    Write.tileRow x i (putElems (elemBits tag) col (old.row i) ((List.range 64).map (fun j => elemOf tag (ta.row j) (col + i))))
      (if isScaled tag then defaultScales else old.scales i))
  .ok (results s 12 (ws ++ [.tileTag x ta.tag] ++ (if isScaled tag then [.tileSsc x defaultSuper] else [])))

def execVtr (d a : Reg) (c : BitVec 3) (s : State) : Host.Outcome State Fault Refusal := settle s (slotVtr d a c s)

/-- The signed amount of a shift: sB, or the immediate when B is 0 (R267). -/
def shiftAmount (s : State) (b : Reg) (imm : Imm20) : Except Stop Int :=
  if b = 0 then .ok imm.toInt
  else do
    let w ← readS s b
    .ok w.toInt

/-- Where position `j` of `n` takes its content under a shift by `amt`; none for zeros (R267). -/
def shiftSource (rot : Bool) (n : Nat) (amt : Int) (j : Nat) : Option Nat :=
  let k : Int := (j : Int) - amt
  if rot then some (k % n).toNat else if 0 ≤ k ∧ k < n then some k.toNat else none

/-- `vsh`: Shift or rotate the elements of each row (R267). -/
def slotVsh (d a b : Reg) (pm : BitVec 3) (rot : Bool) (imm : Imm20) (s : State) : Except Stop State := do
  tileFree s d
  tileFree s a
  let amt ← shiftAmount s b imm
  let x ← vecTile s d
  let ta ← vecSrc s a
  let rows ← vecRows s
  let tag := ta.tag.toNat
  vecTag ta unscaledTags
  let n ← vecCount s (elemsPerRow tag) [ta]
  let l := eachElement (included s pm rows) n (fun i j =>
    match shiftSource rot n amt j with
    | some k => elemOf tag (ta.row i) k
    | none => 0)
  .ok (results s (2 + kOf rows) (elementWrites x (tileOf (here s) x) ta (elemBits tag) 0 l ++ [.tileTag x ta.tag]))

def execVsh (d a b : Reg) (pm : BitVec 3) (rot : Bool) (imm : Imm20) (s : State) : Host.Outcome State Fault Refusal := settle s (slotVsh d a b pm rot imm s)

/-- `vshRows`: Shift or rotate rows (R267). -/
def slotVshRows (d a b : Reg) (pm : BitVec 3) (rot : Bool) (imm : Imm20) (s : State) : Except Stop State := do
  tileFree s d
  tileFree s a
  let amt ← shiftAmount s b imm
  let x ← vecTile s d
  let ta ← vecSrc s a
  let rows ← vecRows s
  vecTag ta anyTags
  vecMove ta x (2 + kOf rows) s ((included s pm rows).flatMap (fun i =>
    match shiftSource rot rows amt i with
    | some k => moveRow x i ta k
    | none => [.tileRow x i 0 defaultScales]))

def execVshRows (d a b : Reg) (pm : BitVec 3) (rot : Bool) (imm : Imm20) (s : State) : Host.Outcome State Fault Refusal := settle s (slotVshRows d a b pm rot imm s)

/-- `vperm`: Rows chosen by the first row of an INT8 register (R267). -/
def slotVperm (d a b : Reg) (pm : BitVec 3) (s : State) : Except Stop State := do
  tileFree s d
  tileFree s a
  tileFree s b
  let x ← vecTile s d
  let ta ← vecSrc s a
  let tb ← vecSrc s b
  let rows ← vecRows s
  vecTag ta anyTags
  vecTag tb [9]
  vecMove ta x (2 + kOf rows) s ((included s pm rows).flatMap (fun i =>
    let k := elemOf 9 (tb.row 0) i
    if k < 64 then moveRow x i ta k else [.tileRow x i 0 defaultScales, .tileRcw x i 5]))

def execVperm (d a b : Reg) (pm : BitVec 3) (s : State) : Host.Outcome State Fault Refusal := settle s (slotVperm d a b pm s)

/-- `vmov`: Copy rows whole (R267). -/
def slotVmov (d a : Reg) (pm : BitVec 3) (s : State) : Except Stop State := do
  tileFree s d
  tileFree s a
  let x ← vecTile s d
  let ta ← vecSrc s a
  let rows ← vecRows s
  vecTag ta anyTags
  vecMove ta x (2 + kOf rows) s ((included s pm rows).flatMap (fun i => moveRow x i ta i))

def execVmov (d a : Reg) (pm : BitVec 3) (s : State) : Host.Outcome State Fault Refusal := settle s (slotVmov d a pm s)

/-- A row of +0 encodings: QL16 bytes are 0x77 (R267). -/
def zeroRow (tag : Nat) : Row := if tag = 7 then packRow 8 0 (List.replicate 512 0x77) else 0

/-- `vzero`: Rows of zeros under a tag (R267); COLS is not checked (DESIGN CHOICE, Assumption 103). -/
def slotVzero (d : Reg) (pm : BitVec 3) (tag : BitVec 4) (s : State) : Except Stop State := do
  tileFree s d
  let x ← vecTile s d
  let rows ← vecRows s
  let ws := (included s pm rows).map (fun i => Write.tileRow x i (zeroRow tag.toNat) defaultScales)
  .ok (results s (2 + kOf rows) (ws ++ [.tileTag x tag, .tileSsc x defaultSuper]))

def execVzero (d : Reg) (pm : BitVec 3) (tag : BitVec 4) (s : State) : Host.Outcome State Fault Refusal := settle s (slotVzero d pm tag s)

/-! ### Shape and tag (R276, R277) -/

/-- `shp`: Write SHAPE (R42, R276). -/
def slotShp (fromReg : Bool) (a : Reg) (rows : BitVec 7) (cols : BitVec 11) (s : State) : Except Stop State := do
  let v ← if fromReg then readS s a else .ok (BitVec.ofNat 64 (rows.toNat + 2 ^ 16 * cols.toNat))
  .ok (result s 2 (.ctl 0x00 v))

def execShp (fromReg : Bool) (a : Reg) (rows : BitVec 7) (cols : BitVec 11) (s : State) : Host.Outcome State Fault Refusal := settle s (slotShp fromReg a rows cols s)

/-- `fmtTag`: Set a tag (R277). -/
def slotFmtTag (d : Reg) (tag : BitVec 4) (s : State) : Except Stop State := do
  tileFree s d
  let x ← vecTile s d
  .ok (result s 1 (.tileTag x tag))

def execFmtTag (d : Reg) (tag : BitVec 4) (s : State) : Host.Outcome State Fault Refusal := settle s (slotFmtTag d tag s)

end Sys2Proof.Machine
end

