-- ==== Sys2Proof/Machine/Convert.lean ====
section
/-! DEFINITION. Conversion, quantisation, reductions and the online-softmax merge (R264 to R266, R270). -/

namespace Sys2Proof.Machine

/-! ### Conversion (R264) -/

/-- Tags that `vcvt`, `cvt.pk` and `cvt.up` read, and those of `vdq` (R264). -/
def convertTags : List Nat := [1, 2, 3, 4, 5, 6, 8, 9, 10, 11]
def scaledTags : List Nat := [4, 5, 6, 7, 9, 10]

/-- Trap ILLEGAL_BUNDLE of the VEC slot found at step 7 (R264). -/
def vecIllegal (s : State) : Except Stop Unit := trapping causeIllegal 6 3 (s.fly.ba.setWidth 64)

/-- Writes of a conversion: a scaled target takes codes under scales of 1.0, an unscaled one leaves the sidecar (R264). -/
def convertWrites (x : Nat) (old src : Tile) (dt first : Nat) (l : List (Nat × List Nat)) : List Write :=
  if isScaled dt then
    scaledWrites x old src (elemBits dt) first (fun _ => defaultScales) l ++ [.tileTag x (BitVec.ofNat 4 dt), .tileSsc x defaultSuper]
  else elementWrites x old src (elemBits dt) first l ++ [.tileTag x (BitVec.ofNat 4 dt)]

/-- A conversion of `n` elements from position `lo` of each included row of A to position `first` of D. -/
def convertRows (s : State) (x : Nat) (ta : Tile) (pm : BitVec 3) (rows : Nat) (r : Rnd) (dt lo first n lat : Nat)
    (nosc : Bool) : Except Stop State := do
  let inc := included s pm rows
  if nosc then .ok () else scaleCheck 6 3 ta inc lo n
  let tag := ta.tag.toNat
  let value (i j : Nat) : Val := if nosc then elementValue tag (elemOf tag (ta.row i) j) else tileValue ta i j
  let old := tileOf (here s) x
  let (l, s) := roundRows s (resolveMode (me s) r) r dt inc n (fun i j => value i (lo + j))
  .ok (results s (lat + kOf rows) (convertWrites x old ta dt first l))

/-- N of a conversion that works on `e` elements. -/
def convertCount (s : State) (e : Nat) : Except Stop Nat := vecCount s e []

/-- `vcvt`: Convert elements in place (R264). -/
def slotVcvt (d a : Reg) (pm : BitVec 3) (r : Rnd) (dt : BitVec 4) (s : State) : Except Stop State := do
  tileFree s d
  tileFree s a
  let x ← vecTile s d
  let ta ← vecSrc s a
  let rows ← vecRows s
  vecTag ta convertTags
  let n ← convertCount s (min (elemsPerRow ta.tag.toNat) (elemsPerRow dt.toNat))
  convertRows s x ta pm rows r dt.toNat 0 0 n 5 false

def execVcvt (d a : Reg) (pm : BitVec 3) (r : Rnd) (dt : BitVec 4) (s : State) : Host.Outcome State Fault Refusal := settle s (slotVcvt d a pm r dt s)

/-- The width condition and the part of a packing conversion: `small` elements per row go into part P of `big`
(R264). -/
def partCheck (s : State) (small big part : Nat) : Except Stop Unit := do
  if 2 * small ≤ big then .ok () else vecIllegal s
  if (part + 1) * small ≤ big then .ok () else vecShape s

/-- `cvtPk`: Convert into part of a row (R264). -/
def slotCvtPk (d a : Reg) (pm : BitVec 3) (r : Rnd) (dt : BitVec 4) (part : BitVec 3) (s : State) : Except Stop State := do
  tileFree s d
  tileFree s a
  let x ← vecTile s d
  let ta ← vecSrc s a
  let rows ← vecRows s
  vecTag ta convertTags
  let e := elemsPerRow ta.tag.toNat
  partCheck s e (elemsPerRow dt.toNat) part.toNat
  let n ← convertCount s e
  convertRows s x ta pm rows r dt.toNat 0 (part.toNat * e) n 5 false

def execCvtPk (d a : Reg) (pm : BitVec 3) (r : Rnd) (dt : BitVec 4) (part : BitVec 3) (s : State) : Host.Outcome State Fault Refusal := settle s (slotCvtPk d a pm r dt part s)

/-- A conversion out of part of a row: `cvt.up` and `vdq` (R264). -/
def unpackPart (ok : List Nat) (lat : Nat) (nosc : Bool) (d a : Reg) (pm : BitVec 3) (r : Rnd) (dt : BitVec 4)
    (part : BitVec 3) (s : State) : Except Stop State := do
  tileFree s d
  tileFree s a
  let x ← vecTile s d
  let ta ← vecSrc s a
  let rows ← vecRows s
  vecTag ta ok
  let e := elemsPerRow dt.toNat
  partCheck s e (elemsPerRow ta.tag.toNat) part.toNat
  let n ← convertCount s e
  convertRows s x ta pm rows r dt.toNat (part.toNat * e) 0 n lat nosc

/-- `cvtUp`: Convert part of a row (R264). -/
def slotCvtUp (d a : Reg) (pm : BitVec 3) (r : Rnd) (dt : BitVec 4) (part : BitVec 3) (s : State) : Except Stop State :=
  unpackPart convertTags 5 false d a pm r dt part s

def execCvtUp (d a : Reg) (pm : BitVec 3) (r : Rnd) (dt : BitVec 4) (part : BitVec 3) (s : State) : Host.Outcome State Fault Refusal := settle s (slotCvtUp d a pm r dt part s)

/-- `vdq`: Dequantise part of a row (R264). -/
def slotVdq (d a : Reg) (pm : BitVec 3) (r : Rnd) (nosc : Bool) (dt : BitVec 4) (part : BitVec 3) (s : State) : Except Stop State :=
  unpackPart scaledTags 8 nosc d a pm r dt part s

def execVdq (d a : Reg) (pm : BitVec 3) (r : Rnd) (nosc : Bool) (dt : BitVec 4) (part : BitVec 3) (s : State) : Host.Outcome State Fault Refusal := settle s (slotVdq d a pm r nosc dt part s)

/-! ### Quantisation (R265) -/

/-- Lmax of a target (R265). -/
def lmaxOf (dt : Nat) : Nat :=
  match dt with
  | 4 => 448
  | 5 => 57344
  | 6 => 6
  | 7 => 1
  | 9 => 127
  | _ => 7

/-- A positive finite value (R265). -/
def Val.isPositive : Val → Bool
  | .num n m _ _ => !n && m != 0
  | _ => false

def Val.isFinite : Val → Bool
  | .num .. => true
  | _ => false

/-- The largest magnitude of a list of finite values; zero for none. -/
def largest (l : List Val) : Val := l.foldl (fun m v => if m.lt v.abs then v.abs else m) (Val.zero false)

/-- The scale byte of a block (R265). -/
def blockScale (dt : Nat) (sat : Bool) (g : Val) (xs : List Val) : Nat :=
  if !g.isPositive || !(xs.all Val.isFinite) then 0x7F
  else
    let amax := largest xs
    if amax.isZero then 0
    else roundFloat 11 ⟨2, sat, 0⟩ (amax.quot ((Val.ofInt (lmaxOf dt)).mul g))

/-- The code of one element under a scale byte (R265). -/
def quantCode (dt bs : Nat) (g : Val) (m : RMode) (v : Val) : Nat :=
  if bs = 0x7F then roundTo dt m .nan
  else if bs = 0 then (if dt = 7 then 7 else 0)
  else roundTo dt m (v.quot ((elementValue 11 bs).mul g))

/-- Replace the bytes of a scale entry from `first` on. -/
def putScales (sc : BitVec 128) (first : Nat) (l : List Nat) : BitVec 128 :=
  l.zipIdx.foldl (fun sc p =>
    (sc &&& ~~~ (0xFF#128 <<< (8 * (first + p.2)))) ||| (BitVec.ofNat 128 p.1 <<< (8 * (first + p.2)))) sc

/-- `vq`: Quantise with a scale per block (R264, R265). -/
def slotVq (d a b : Reg) (pm : BitVec 3) (r : Rnd) (dt : BitVec 4) (part : BitVec 3) (s : State) : Except Stop State := do
  tileFree s d
  tileFree s a
  let w ← readS s b
  let x ← vecTile s d
  let ta ← vecSrc s a
  let rows ← vecRows s
  vecTag ta wideTags
  let e := elemsPerRow ta.tag.toNat
  partCheck s e (elemsPerRow dt.toNat) part.toNat
  let n ← convertCount s e
  if n % 64 = 0 then .ok () else vecShape s
  let g := ofFp32 (w.extractLsb' 0 32).toNat
  let first := part.toNat * e
  let old := tileOf (here s) x
  let inc := included s pm rows
  let mode := resolveMode (me s) r
  let (ws, s) := drawSeeds s mode (inc.length * n)
  let writes := inc.zipIdx.flatMap (fun p =>
    let vals := (List.range n).map (tileValue ta p.1)
    let scales := (List.range (n / 64)).map (fun k => blockScale dt.toNat r.sat g ((vals.drop (64 * k)).take 64))
    let codes := ((vals.zip ((ws.drop (p.2 * n)).take n)).zipIdx).map (fun q =>
      quantCode dt.toNat ((scales[q.2 / 64]?).getD 0) g (rmode mode r q.1.2) q.1.1)
    [Write.tileRow x p.1 (putElems (elemBits dt.toNat) first (old.row p.1) codes) (putScales (old.scales p.1) (first / 64) scales),
     Write.tileRcw x p.1 (ta.word p.1)])
  let g32 := w.extractLsb' 0 32
  .ok (results s (8 + kOf rows) (writes ++ [.tileTag x dt, .tileSsc x (g32 ++ g32 ++ g32 ++ g32)]))

def execVq (d a b : Reg) (pm : BitVec 3) (r : Rnd) (dt : BitVec 4) (part : BitVec 3) (s : State) : Host.Outcome State Fault Refusal := settle s (slotVq d a b pm r dt part s)

/-! ### Reductions (R99, R266) -/

/-- The extremum of a list; an empty list gives the identity (R266). -/
def extremum (max_ : Bool) (l : List Val) : Val :=
  match l with
  | [] => .inf max_
  | v :: l => l.foldl (fun m x => if max_ then m.max x else m.min x) v

/-- A floating reduction: sum, max, min, sum of squares (R266). -/
def reduceFloat (op : Nat) (l : List Val) : Val :=
  match op with
  | 0 => if l = [] then Val.zero false else exactSum l
  | 1 => extremum true l
  | 2 => extremum false l
  | _ => if l = [] then Val.zero false else exactSum (l.map (fun v => v.mul v))

/-- An integer reduction, saturated once to INT32 (R266). -/
def reduceInt (op : Nat) (l : List Int) : Nat :=
  match op with
  | 0 => intResult 32 true (l.foldl (· + ·) 0)
  | 1 => intResult 32 true (l.foldl max (-(2 ^ 31)))
  | 2 => intResult 32 true (l.foldl min (2 ^ 31 - 1))
  | _ => intResult 32 true (l.foldl (fun acc v => acc + v * v) 0)

/-- The class of a source and the tag of a destination agree (R266). -/
def classMatch (tag dt : Nat) : Bool :=
  if isIntTag tag then dt == 8 else ([1, 2, 3, 4, 5, 6, 7, 11].contains tag && wideTags.contains dt)

/-- Reduce lists of positions of a tile: each result is one element, rounded in order (R83, R266). -/
def reduceAll (s : State) (ta : Tile) (r : Rnd) (dt op : Nat) (lists : List (List (Nat × Nat))) : List Nat × State :=
  let tag := ta.tag.toNat
  if isIntTag tag then
    (lists.map (fun l => reduceInt op (l.map (fun p => signedOf (elemBits tag) (elemOf tag (ta.row p.1) p.2)))), s)
  else
    let mode := resolveMode (me s) r
    let (ws, s) := drawSeeds s mode lists.length
    ((lists.zip ws).map (fun p => roundTo dt (rmode mode r p.2) (reduceFloat op (p.1.map (fun q => tileValue ta q.1 q.2)))), s)

/-- `vred`: Reduce each row (R266). -/
def slotVred (d a : Reg) (pm : BitVec 3) (r : Rnd) (dt : BitVec 4) (op : BitVec 2) (e : BitVec 11) (s : State) : Except Stop State := do
  tileFree s d
  tileFree s a
  let x ← vecTile s d
  let ta ← vecSrc s a
  let rows ← vecRows s
  tagCheck 6 3 ta.tag.toNat (classMatch ta.tag.toNat dt.toNat)
  let n ← vecCount s (elemsPerRow ta.tag.toNat) []
  if e.toNat < elemsPerRow dt.toNat then .ok () else vecShape s
  let inc := included s pm rows
  if isIntTag ta.tag.toNat then .ok () else scaleCheck 6 3 ta inc 0 n
  let old := tileOf (here s) x
  let (l, s) := reduceAll s ta r dt.toNat op.toNat (inc.map (fun i => (List.range n).map (fun j => (i, j))))
  .ok (results s (10 + kOf rows)
    (elementWrites x old ta (elemBits dt.toNat) e.toNat ((inc.zip l).map (fun p => (p.1, [p.2]))) ++ [.tileTag x dt]))

def execVred (d a : Reg) (pm : BitVec 3) (r : Rnd) (dt : BitVec 4) (op : BitVec 2) (e : BitVec 11) (s : State) : Host.Outcome State Fault Refusal := settle s (slotVred d a pm r dt op e s)

/-- `vcred`: Reduce each column over the included rows into one row (R266). DEDUCED: a row of the destination format must
hold the N results, or the instruction traps SHAPE (Assumption 11). -/
def slotVcred (d a : Reg) (pm : BitVec 3) (r : Rnd) (dt : BitVec 4) (op : BitVec 2) (row : BitVec 6) (s : State) : Except Stop State := do
  tileFree s d
  tileFree s a
  let x ← vecTile s d
  let ta ← vecSrc s a
  let rows ← vecRows s
  tagCheck 6 3 ta.tag.toNat (classMatch ta.tag.toNat dt.toNat)
  let n ← vecCount s (elemsPerRow ta.tag.toNat) []
  if n ≤ elemsPerRow dt.toNat then .ok () else vecShape s
  let inc := included s pm rows
  if isIntTag ta.tag.toNat then .ok () else scaleCheck 6 3 ta inc 0 n
  let old := tileOf (here s) x
  let (l, s) := reduceAll s ta r dt.toNat op.toNat ((List.range n).map (fun j => inc.map (fun i => (i, j))))
  .ok (results s (10 + kOf rows)
    [.tileRow x row.toNat (putElems (elemBits dt.toNat) 0 (old.row row.toNat) l) (old.scales row.toNat), .tileTag x dt])

def execVcred (d a : Reg) (pm : BitVec 3) (r : Rnd) (dt : BitVec 4) (op : BitVec 2) (row : BitVec 6) (s : State) : Host.Outcome State Fault Refusal := settle s (slotVcred d a pm r dt op row s)

/-! ### Online-softmax merge (R270) -/

/-- Bits dropped before a merged sum is read: the grid of 2^-256 that is left is finer than every point at which rounding to FP32
turns, in SR mode too, and the larger state's term stands on it exactly. -/
def sumGuard : Nat := 768

/-- `big + small * 2^d` for a factor with d < 0 (R270): exact where the power is, else within the series' error. -/
def addScaled (big small d : Val) : Val :=
  match big, small with
  | .num .., .num sn sm se _ =>
    if sm = 0 then big.add (Val.zero sn)
    else if d.isInteger && decide (-2000 ≤ fixOf d / fixOne) then big.add (small.mul (.num false 1 (fixOf d / fixOne) false))
    else
      -- the factor lies within the series' error, and the term within 2^128 times that
      let f := fixExp2 (clampArg d 1100)
      let t : Int := if 0 ≤ se then f * sm * 2 ^ se.toNat else f * sm / 2 ^ (-se).toNat
      let y := fixOf big + (if sn then -t else t)
      match big with
      | .num bn bm be _ =>
        if clampArg d 1100 ≤ -1000 * fixOne ∨ t.natAbs < 2 ^ 224 then
          -- a term below 2^-799, and so below every bit of the grid: it only makes the sum inexact, towards or away from zero
          (if bm = 0 then .num sn 0 (-768) true
           else if bn = sn then .num bn (bm * 2 ^ 300) (be - 300) true else .num bn (bm * 2 ^ 300 - 1) (be - 300) true)
        else encloseOn sumGuard y (2 ^ 170)
      | _ => .nan
  | a, b => a.add b

/-- The two terms of a merged sum: each operand times its factor (R270). A factor of zero makes its term +0, and the
larger state's factor is 1. -/
def mergedSum (m1 m2 a b : Val) : Val :=
  match m1, m2 with
  | .inf true, .inf true => (Val.zero false).add (Val.zero false)
  | .inf true, _ => (Val.zero false).add b
  | _, .inf true => a.add (Val.zero false)
  | _, _ =>
    if m1.eqv m2 then a.add b
    else if m1.lt m2 then addScaled b a (m1.add m2.negate)
    else addScaled a b (m2.add m1.negate)

/-- A running maximum that makes the merged state NaN (R270). -/
def badMax : Val → Bool
  | .nan => true
  | .inf n => !n
  | _ => false

/-- `vsmMerge`: Merge two online-softmax states (R270). -/
def slotVsmMerge (d a : Reg) (pm : BitVec 3) (r : Rnd) (s : State) : Except Stop State := do
  tileFree s d
  if d.toNat < 63 then tileFree s (d + 1) else .ok ()
  tileFree s a
  if a.toNat < 63 then tileFree s (a + 1) else .ok ()
  let xo ← vecTile s d
  let xs ← vecTileAt s (d.toNat + 1)
  let yo ← vecTile s a
  let ys ← vecTileAt s (a.toNat + 1)
  let rows ← vecRows s
  let k := here s
  let (o1, s1, o2, s2) := (tileOf k xo, tileOf k xs, tileOf k yo, tileOf k ys)
  vecTag o1 [1]
  vecTag s1 [1]
  vecTag o2 [1]
  vecTag s2 [1]
  let n ← vecCount s 128 []
  let inc := included s pm rows
  let mode := resolveMode (me s) r
  let (ws, s) := drawSeeds s mode (inc.length * (n + 1))
  let writes := inc.zipIdx.flatMap (fun p =>
    let i := p.1
    let seeds := (ws.drop (p.2 * (n + 1))).take (n + 1)
    let m1 := tileValue s1 i 0
    let m2 := tileValue s2 i 0
    let bad := badMax m1 || badMax m2
    let val (x y : Val) : Val := if bad then .nan else mergedSum m1 m2 x y
    let terms := (List.range n).map (fun j => val (tileValue o1 i j) (tileValue o2 i j)) ++
      [val (tileValue s1 i 1) (tileValue s2 i 1)]
    let codes := (terms.zip seeds).map (fun q => roundTo 1 (rmode mode r q.2) q.1)
    let m := if bad then toFp32 .nan else toFp32 (m1.max m2)
    [Write.tileRow xo i (putElems 32 0 (o1.row i) (codes.take n)) (o1.scales i),
     Write.tileRow xs i (putElems 32 0 (s1.row i) [m, (codes.drop n).headD 0]) (s1.scales i)])
  .ok (results s (10 + kOf rows) writes)

def execVsmMerge (d a : Reg) (pm : BitVec 3) (r : Rnd) (s : State) : Host.Outcome State Fault Refusal := settle s (slotVsmMerge d a pm r s)

end Sys2Proof.Machine
end

