-- ==== Sys2Proof/Machine/Engine.lean ====
section
/-! DEFINITION. How engines reach memory: scratchpad and virtual accesses chunk by chunk, memory outside the device,
faults met during execution (R193, R198, R211, R345, R352, R364, R373, R496). -/

namespace Sys2Proof.Machine

/-- A party's view for engine accesses: its core, context and address space, the slack and launch of its packets, its
command, the tag under which a later run of the same work finds its accesses, its hints, and the neighbour link that its
packets take, if one (R477). -/
structure Party where
  core : Nat
  ctx : Nat
  asid : BitVec 16
  slk : BitVec 10
  cookie : BitVec 64
  seq : Nat
  tag : Nat
  evp : BitVec 2
  na : Bool
  link : Option Nat
deriving DecidableEq, Repr

/-- An access that an engine has still to send: what it does, at which virtual and physical addresses, with the data and
arrival target word of its packet. -/
structure Send where
  party : Party
  kind : ReqKind
  va : Nat
  pas : List Nat
  data : List Byte
  atw : Word
  virt : Bool              -- the virtual address was translated; else it is the physical one
deriving DecidableEq, Repr

/-- What an engine's access meets: something it waits for; an access to be sent first; a translation fault, which suspends
the command; any other fault, which ends it (R198); or an address at which nothing exists. -/
inductive OpErr where
  | wait
  | send (a : Send)
  | suspend (f : TrFault)
  | fail (cause : Nat) (addr detail : Word) (index : BitVec 32)
  | fault (f : Fault)
deriving DecidableEq, Repr

/-- The hints an engine command's packets carry (R133). -/
def hintOf : Instr → Hint
  | .tagFl _ _ _ h | .tdMk _ _ _ _ h | .qBind _ _ _ _ _ _ _ h | .cp _ _ _ _ _ _ _ h | .cpKvchk _ _ _ _ _ _ _ h
  | .cpG _ _ _ _ _ _ _ _ _ h | .cpS _ _ _ _ _ _ _ _ _ h | .kvSv _ _ _ _ h | .moeRoute _ _ _ _ _ _ h => h
  | .pfT _ _ _ _ evp => ⟨0, evp, false⟩
  | _ => ⟨0, 1, false⟩

def Op.party (o : Op) : Party :=
  { core := o.core, ctx := o.ctx, asid := o.asid, slk := o.slk, cookie := o.cookie, seq := o.seq, tag := o.chunk
    evp := (hintOf o.instr).evp, na := (hintOf o.instr).na, link := none }

/-- An operation as the source of its packets. -/
def Op.key (o : Op) : Nat × Nat × Nat := (o.core, o.ctx, o.seq)

/-- Free bytes (R65, R211, R230). -/
def freeBytes (s : State) (f : Nat → Byte) (n : Nat) : List Byte × State :=
  ((List.range n).map (fun i => f (s.fresh + i)), { s with fresh := s.fresh + n })

/-! ### Memory outside the device -/

/-- An access to an outside address can be carried (R495, R496): a window covers it and its queue pair is not in
error. -/
def outsideCheck (s : State) (pa : Nat) : Except OpErr Unit :=
  match regionOf pa with
  | .roce =>
    match windowAt s pa with
    | none => .error (.fault (.unpopulated pa))
    | some w => if qpState s (windowQp w) = 2 then .error (.fail causeUnc (BitVec.ofNat 64 pa) 0 0) else .ok ()
  | .unpopulated => .error (.fault (.unpopulated pa))
  | _ => .ok ()

/-- Read bytes at physical addresses; bytes outside the device are free (R334). -/
def readPas (s : State) : List Nat → List Byte × State
  | [] => ([], s)
  | a :: l =>
    if isOutside s a then
      let (b, s) := freeBytes s Config.externalByte 1
      let (r, s) := readPas s l
      (b ++ r, s)
    else
      let (r, s') := readPas s l
      (memByte s.mem a :: r, s')

/-! ### The scratchpad -/

/-- Engine accesses of the scratchpad: in bounds (R57, R193), outside banks in transition (R211). -/
def engineSpm (s : State) (core off n : Nat) : Except OpErr Unit :=
  if n ≠ 0 ∧ Config.spmBytes < off + n then .error (.fail causeMiss (BitVec.ofNat 64 (max off Config.spmBytes)) 0 0)
  else
    match carveHit (coreOf s core) off n with
    | some b => .error (.fail causeCarve (BitVec.ofNat 64 b) (BitVec.ofNat 64 (bankOf b)) 0)
    | none => .ok ()

/-- Physical addresses of scratchpad bytes. -/
def spmPas (core off n : Nat) : List Nat := (List.range n).map (fun i => spmAddr core off + i)

/-! ### Accesses through the network -/

/-- Translate and resolve the addresses of an engine's virtual access (R352, R366, R373). -/
def enginePas (s : State) (p : Party) (va n : Nat) (need : List Nat) : Except OpErr (List Nat) :=
  match engineSpan s p.core p.ctx p.asid va n need with
  | .error f => .error (.suspend f)
  | .ok pas => do
    pas.foldlM (fun (_ : Unit) a => outsideCheck s a) ()
    match resolveSpan s need pas with
    | .ok l =>
      match carveAt s l with
      | some b => .error (.fail causeCarve (BitVec.ofNat 64 b) (BitVec.ofNat 64 (bankOf b)) 0)
      | none => .ok l
    | .error f => .error (.fail f.cause (BitVec.ofNat 64 f.addr) 0 (BitVec.ofNat 32 f.seg))

/-- A replay holds an access until its logged predecessor has performed (R523). -/
def orderedAt (s : State) (p : Party) (pas : List Nat) : Except OpErr Unit :=
  if orderHeld s p.core p.ctx p.seq pas then .error .wait else .ok ()

/-- AUX of an i64 atomic of AOP 7, the compare-and-swap, in relaxed order (R465). -/
def casAux : BitVec 32 := 29

/-- Packet type and AUX of an access (R465); a change of a presence code travels as an i64 compare-and-swap (R439). -/
def ReqKind.packet (k : ReqKind) (n : Nat) : Nat × BitVec 32 :=
  match k with
  | .write .. | .store _ => (2, BitVec.ofNat 32 n)
  | .code .. | .swap .. => (3, casAux)
  | _ => (1, BitVec.ofNat 32 n)

/-- Send an access of an engine: its translation is used, and its packet sets out, with the window's slack as it stands where a
communication task's command sends it (R352, R369, R417, R468). -/
def sendAccess (s : State) (a : Send) : State :=
  let p := a.party
  let slk := windowSlack s (ctxOf s p.core p.ctx) p.slk
  let s := if a.virt then useRanges s p.core p.ctx p.asid a.va a.pas.length slk else s
  let id := s.nextReq
  let pa := a.pas.headD 0
  let r : Req := { id := id, core := p.core, ctx := p.ctx, kind := a.kind, asid := p.asid, pas := a.pas, cookie := p.cookie
                   slk := slk, after := [], value := [], performed := false
                   hint := if a.virt then hintAt s p.core p.ctx p.asid a.va ⟨0, p.evp, p.na⟩ else plainHint, orphan := false
                   icnt := (ctxOf s p.core p.ctx).icount }
  let o : Origin := ⟨id, p.core, p.ctx, p.cookie, slk, 0⟩
  let pk := newPacket s o (a.kind.packet a.pas.length).1 (endpointOf s (dieOf p.core) pa) (deviceOf s pa) pa
    (a.kind.packet a.pas.length).2 a.atw a.data
  let np := netPacket s id pk a.data (some (p.core, p.ctx, p.seq))
  let np := match p.link with
    | some d => { np with place := .linkQueue (clusterOf p.core) d, input := p.core % 8 }
    | none => np
  sendPacket { s with reqs := s.reqs ++ [r], nextReq := id + 1 } np

/-- The access of a party that was sent for some work. -/
def accessOf (s : State) (p : Party) (f : ReqKind → Bool) : Option Req :=
  s.reqs.find? (fun r => r.core == p.core && r.ctx == p.ctx && f r.kind)

/-- The read or write of a command at an address, under a tag. -/
def readsAt (seq tag va : Nat) : ReqKind → Bool
  | .read q t a => q == seq && t == tag && a == va
  | _ => false
def writesAt (seq tag va : Nat) : ReqKind → Bool
  | .write q t a _ => q == seq && t == tag && a == va
  | _ => false
def changesAt (seq tag key old : Nat) : ReqKind → Bool
  | .code q t k a _ => q == seq && t == tag && k == key && a == old
  | _ => false

/-- Virtual bytes cut at 64-byte chunks: first byte and length of each piece. -/
def lines64 : Nat → Nat → Nat → List (Nat × Nat)
  | 0, _, _ => []
  | fuel + 1, va, n =>
    if n = 0 then []
    else
      let l := min n (64 - va % 64)
      (va, l) :: lines64 fuel (va + l) (n - l)

/-- Every piece of a read has been sent; else the first that has not is to be. -/
def readsSent (s : State) (p : Party) (need : List Nat) : List (Nat × Nat) → Except OpErr Unit
  | [] => .ok ()
  | x :: l =>
    match accessOf s p (readsAt p.seq p.tag x.1) with
    | some _ => readsSent s p need l
    | none => do
      let pas ← enginePas s p x.1 x.2 need
      .error (.send { party := p, kind := .read p.seq p.tag x.1, va := x.1, pas := pas, data := [], atw := 0, virt := true })

/-- The data of the pieces of a read, once all have returned. -/
def readsBack (s : State) (p : Party) : List (Nat × Nat) → Except OpErr (List Byte)
  | [] => .ok []
  | x :: l =>
    match accessOf s p (readsAt p.seq p.tag x.1) with
    | none => .error .wait
    | some r => do
      if landed s r then .ok () else .error .wait
      let b ← readsBack s p l
      .ok (r.value ++ b)

/-- An engine's read of the scratchpad of a core of its cluster (R193, R211, R380, R430). -/
def spmFetch (s : State) (p : Party) (core off n : Nat) : Except OpErr (List Byte × State) := do
  engineSpm s core off n
  orderedAt s p (spmPas core off n)
  let s := wakeFor s core off n
  .ok (spmRead s core off n, noteOrder s (engineAccessor p.core p.ctx p.seq) false (spmPas core off n))

/-- An engine's write of the scratchpad of a core of its cluster. -/
def spmPlace (s : State) (p : Party) (core off : Nat) (b : List Byte) : Except OpErr State := do
  engineSpm s core off b.length
  orderedAt s p (spmPas core off b.length)
  let s := noteOrder s (engineAccessor p.core p.ctx p.seq) true (spmPas core off b.length)
  .ok (homeWrite (wakeFor s core off b.length) (cellsAt (spmAddr core off) b))

/-- An engine's read: scratchpad or virtual. Virtual bytes are asked for chunk by chunk, and the read answers when all have
returned (R332, R352). -/
def engineRead (s : State) (p : Party) (spm : Bool) (addr n : Nat) (need : List Nat) :
    Except OpErr (List Byte × State) :=
  if spm then spmFetch s p p.core addr n
  else do
    let l := lines64 (n / 64 + 2) addr n
    readsSent s p need l
    let b ← readsBack s p l
    .ok (b, s)

/-- Every piece of a write has been sent; else the first that has not is to be. A virtual write into a reduction target
ends with RANGE_PERM (R480). -/
def writesSent (s : State) (p : Party) (need : List Nat) (addr : Nat) (b : List Byte) : List (Nat × Nat) → Except OpErr Unit
  | [] => .ok ()
  | x :: l =>
    match accessOf s p (writesAt p.seq p.tag x.1) with
    | some _ => writesSent s p need addr b l
    | none => do
      let pas ← enginePas s p x.1 x.2 need
      let data := (b.drop (x.1 - addr)).take x.2
      if pas.any (inTarget s) then .error (.fail causePerm (BitVec.ofNat 64 x.1) 0 0)
      else
        .error (.send { party := p, kind := .write p.seq p.tag x.1 (pas.zip data), va := x.1, pas := pas, data := data, atw := 0,
                         virt := true })

/-- A party's write: scratchpad or virtual; the latter answers when every chunk's write has been acknowledged. -/
def partyWrite (s : State) (p : Party) (spm : Bool) (addr : Nat) (b : List Byte) (need : List Nat) : Except OpErr State :=
  if spm then spmPlace s p p.core addr b
  else do
    let l := lines64 (b.length / 64 + 2) addr b.length
    writesSent s p need addr b l
    if l.all (fun x => (accessOf s p (writesAt p.seq p.tag x.1)).any (landed s)) then .ok s else .error .wait

/-- Send a run of bytes whose physical addresses are known, in 64-byte chunks, one after another; the answer comes when all
have been acknowledged. -/
def physicalWrite (s : State) (p : Party) (pa : Nat) (b : List Byte) : Except OpErr Unit :=
  let l := lines64 (b.length / 64 + 2) pa b.length
  match l.find? (fun x => (accessOf s p (writesAt p.seq p.tag x.1)).isNone) with
  | some x =>
    let pas := (List.range x.2).map (fun i => x.1 + i)
    let data := (b.drop (x.1 - pa)).take x.2
    .error (.send { party := p, kind := .write p.seq p.tag x.1 (pas.zip data), va := x.1, pas := pas, data := data, atw := 0,
                         virt := false })
  | none => if l.all (fun x => (accessOf s p (writesAt p.seq p.tag x.1)).any (landed s)) then .ok () else .error .wait

/-- A read of a run of bytes whose physical addresses are known, in 64-byte chunks; the answer comes when all have returned. -/
def physicalRead (s : State) (p : Party) (pa n : Nat) : Except OpErr (List Byte) :=
  let l := lines64 (n / 64 + 2) pa n
  match l.find? (fun x => (accessOf s p (readsAt p.seq p.tag x.1)).isNone) with
  | some x => do
    outsideCheck s x.1
    .error (.send { party := p, kind := .read p.seq p.tag x.1, va := x.1, pas := (List.range x.2).map (fun i => x.1 + i), data := []
                    atw := 0, virt := false })
  | none => readsBack s p l

/-- An engine's write for an operation. -/
def engineWrite (s : State) (o : Op) (spm : Bool) (addr : Nat) (b : List Byte) (need : List Nat) : Except OpErr State :=
  partyWrite s o.party spm addr b need

/-! ### Running a command chunk by chunk -/

/-- How a command's run ends: every chunk performed, or something met at one (R198). -/
inductive RunEnd where
  | done (s : State) (o : Op)
  | stopped (s : State) (o : Op) (e : OpErr)
deriving DecidableEq, Repr

/-- The tag of an access of a command or stream. -/
def ReqKind.tag : ReqKind → Option Nat
  | .read _ t _ | .write _ t _ _ | .code _ t _ _ _ | .swap _ t _ _ _ => some t
  | .store _ | .load _ | .atomic _ _ | .flag _ _ => none

/-- Forget the accesses made under a tag of a command or stream. -/
def dropTag (s : State) (core ctx seq tag : Nat) : State :=
  { s with reqs := s.reqs.filter (fun r => !(r.engineOf core ctx seq && r.kind.tag == some tag)) }

/-- Perform chunk `k` once: the state and the operation after it. -/
def runChunk (f : State → Op → Nat → Except OpErr (State × Op)) (s : State) (o : Op) (k : Nat) :
    Except OpErr (State × Op) :=
  if o.done.contains k then .ok (s, o)
  else
    match f s { o with chunk := k } k with
    | .ok (s, o) =>
      let o := { o with done := o.done ++ [k] }
      .ok (updateOp (dropTag s o.core o.ctx o.seq k) o, o)
    | .error e => .error e

/-- Perform the chunks of a list in order. -/
def runChunks (f : State → Op → Nat → Except OpErr (State × Op)) (s : State) (o : Op) : List Nat → RunEnd
  | [] => .done s o
  | k :: l =>
    match runChunk f s o k with
    | .ok (s, o) => runChunks f s o l
    | .error e => .stopped s o e

/-- A command may go on: it is neither suspended nor ending. -/
def Op.live (o : Op) : Bool := o.susp.isNone && o.ending.isNone

/-- A party's access that fails its translation has searched for the range of the byte that failed (R369, R371). -/
def searched (s : State) (p : Party) (f : TrFault) : State :=
  useRanges s p.core p.ctx p.asid f.addr 1 (windowSlack s (ctxOf s p.core p.ctx) p.slk)

/-- What a command meets: an access is sent; a fault suspends it or ends it (R198). -/
def opFault (s : State) (o : Op) (e : OpErr) : Host.Outcome State Fault Refusal :=
  match e with
  | .wait => .next s
  | .send a => .next (sendAccess s a)
  | .suspend f => .next (suspendOp (searched s o.party f) o f.cause (BitVec.ofNat 64 f.addr) (BitVec.ofNat 32 f.seg))
  | .fail cause addr detail index => .next (failOp s o cause addr detail index)
  | .fault f => .fault f

/-- A relocation that fails changes nothing: its range relocates no more (R252, R254). -/
def dropReloc (s : State) (o : Op) : State :=
  match o.instr with
  | .rngReloc .. =>
    { s with relocs := s.relocs.filter (fun r => !(o.started && r.1 == o.asid && r.2.1 == (o.nums[1]?).getD 0)) }
  | _ => s

/-- An operation issued to an engine, its register operands read (R197). -/
def startOp (s : State) (o : Op) : Except Stop State := issueOp s o

/-- Completion of a command whose chunks have a list: the rest of them perform, and it ends by `fin` (R345). The event
comes about only when every one of them can. -/
def completeOp (f : State → Op → Nat → Except OpErr (State × Op)) (chunks : List Nat) (fin : State → Op → State)
    (s : State) (o : Op) : Host.Outcome State Fault Refusal :=
  if !o.live then .next s
  else
    match runChunks f s o chunks with
    | .done s o => .next (fin s o)
    | .stopped .. => .next s

end Sys2Proof.Machine
end

