-- ==== Sys2Proof/Machine/Chain.lean ====
section
/-! DEFINITION. Chains of element-wise stages (R272 to R275). -/

namespace Sys2Proof.Machine

/-- A stage of a chain (R273). -/
structure ChainStage where
  op : Nat
  ifmt : Nat
  ina : Nat
  inb : Nat
  inc : Nat
  k : BitVec 32
  clean : Bool         -- its reserved bits are zero
deriving DecidableEq, Repr

/-- A chain parameter block (R273). -/
structure ChainBlock where
  dst : Nat
  src : List Nat       -- SRC0 to SRC2
  dfmt : Nat
  rm : Nat
  sat : Bool
  pm : Nat
  nst : Nat
  clean : Bool
  stages : List ChainStage
deriving DecidableEq, Repr

def stageOf (w : Word) : ChainStage :=
  { op := (w.extractLsb' 56 8).toNat, ifmt := (w.extractLsb' 52 4).toNat, ina := (w.extractLsb' 48 4).toNat
    inb := (w.extractLsb' 44 4).toNat, inc := (w.extractLsb' 40 4).toNat, k := w.extractLsb' 0 32
    clean := w.extractLsb' 32 8 = 0 }

/-- Word `k` of a byte list. -/
def byteWord (b : List Byte) (k : Nat) : Word := BitVec.ofNat 64 (ofBytes ((b.drop (8 * k)).take 8))

/-- The block that some bytes hold: the header, then NST stages (R273). -/
def blockOf (b : List Byte) : ChainBlock :=
  let h := byteWord b 0
  let n := (h.extractLsb' 0 4).toNat
  { dst := (h.extractLsb' 42 6).toNat
    src := [(h.extractLsb' 24 6).toNat, (h.extractLsb' 30 6).toNat, (h.extractLsb' 36 6).toNat]
    dfmt := (h.extractLsb' 20 4).toNat, rm := (h.extractLsb' 17 3).toNat, sat := h.getLsbD 16
    pm := (h.extractLsb' 13 3).toNat, nst := n, clean := h.extractLsb' 48 16 = 0 && h.extractLsb' 4 9 = 0
    stages := (List.range n).map (fun i => stageOf (byteWord b (i + 1))) }

/-- Inputs that a stage's OP takes: 1 for the unary ones and `vcvt`, 2, or 3 for `vfma`; none for any other OP (R273). -/
def stageInputs (op : Nat) : Option Nat :=
  if op = 4 then some 3
  else if 1 ≤ op ∧ op ≤ 6 then some 2
  else if op = 7 ∨ op = 8 ∨ (0x10 ≤ op ∧ op ≤ 0x16) ∨ op = 0x1A then some 1
  else none

/-- Selectors that a stage uses. -/
def usedSelectors (g : ChainStage) : List Nat := [g.ina, g.inb, g.inc].take ((stageInputs g.op).getD 0)

/-- Conditions of R274 on one stage. DEDUCED: the ban on 0 in stage 0 is on the selectors it uses (Assumption 12). -/
def stageValid (n : Nat) (last : Bool) (g : ChainStage) : Bool :=
  match stageInputs g.op with
  | none => false
  | some u =>
    g.clean && (last || decide (1 ≤ g.ifmt ∧ g.ifmt ≤ 3)) && [g.ina, g.inb, g.inc].all (fun x => decide (x ≤ 4)) &&
      (n != 0 || (usedSelectors g).all (fun x => x != 0)) && ([g.ina, g.inb, g.inc].drop u).all (fun x => x == 0)

/-- Source places 0 to 2 that the block's used selectors name. -/
def usedSources (b : ChainBlock) : List Nat :=
  (List.range 3).filter (fun i => b.stages.any (fun g => (usedSelectors g).contains (i + 1)))

/-- Physical number of a window-relative tile that lies in the window (R34). -/
def inWindow (s : State) (x : Nat) : Option Nat :=
  if s.cur.2 = 4 then (if x < 64 then some x else none)
  else if x < (me s).wsize then some ((me s).wbase + x) else none

/-- The block is valid (R274). -/
def blockValid (s : State) (b : ChainBlock) : Bool :=
  b.clean && decide (1 ≤ b.nst ∧ b.nst ≤ 8) && decide (1 ≤ b.dfmt ∧ b.dfmt ≤ 5) && decide (b.rm ≤ 6) &&
    b.stages.zipIdx.all (fun p => stageValid p.2 (p.2 + 1 == b.nst) p.1) && (inWindow s b.dst).isSome &&
    (usedSources b).all (fun i =>
      match inWindow s ((b.src[i]?).getD 0) with
      | some p => wideTags.contains (tileCapture s p).tag.toNat
      | none => false)

/-- A tile named by a block is not busy (R31, R144). -/
def chainFree (s : State) (x : Nat) : Except Stop Unit :=
  match inWindow s x with
  | some p => if busyIn (opsBefore s) s.cur.1 p then .error .hold else .ok ()
  | none => .ok ()

/-- The sources that a chain captures: those its selectors use, and SRC0 for the control words (R275). An SRC0 that no selector
uses is read for its control words alone: R274 asks a window place, a tag and R275 N elements of the used sources, and the spec
is silent on it, so that no window, tag (R30) or N check is made of it (DESIGN CHOICE, log 123). -/
def capturedSources (s : State) (b : ChainBlock) : List (Nat × Tile) :=
  (0 :: usedSources b).eraseDups.filterMap (fun i =>
    (inWindow s ((b.src[i]?).getD 0)).map (fun p => (i, tileCapture s p)))

/-- `chain`: Queue a chain of stages (R272 to R275). -/
def slotChain (t a : Reg) (s : State) : Except Stop State := do
  let x ← readS s a
  opRoom s
  aligned 6 3 x 8
  spmLocal s 6 3 x.toNat 8
  let hd := spmSlice s x.toNat 8
  (blockOf hd).src.foldlM (fun (_ : Unit) i => chainFree s i) ()
  chainFree s (blockOf hd).dst
  let nst := (byteWord hd 0).extractLsb' 0 4
  if 1 ≤ nst.toNat ∧ nst.toNat ≤ 8 then .ok () else trapping causeChain 6 3 x
  spmLocal s 6 3 x.toNat (8 + 8 * nst.toNat)
  let bytes := spmSlice s x.toNat (8 + 8 * nst.toNat)
  let b := blockOf bytes
  if blockValid s b then .ok () else trapping causeChain 6 3 x
  let rows ← vecRows s
  let srcs := capturedSources s b
  let n ← vecCount s (elemsPerRow b.dfmt) ((srcs.filter (fun p => (usedSources b).contains p.1)).map (·.2))
  let mask := maskOf (me s) b.pm
  let inc := activeRows mask rows
  let rm := if b.rm = 6 then (me s).rndMode.toNat else b.rm
  let d := (inWindow s b.dst).getD 0
  let o := { newOp s (.chain t a) t with
    a := x, c := mask, bytes := bytes, tiles := srcs, rm := rm, nums := [d, n], busy := [(s.cur.1, d)], count := inc.length }
  let s' ← startOp s o
  let (ws, s') := drawSeeds s' rm (inc.length * n)
  .ok (updateOp s' { o with seeds := ws })

def execChain (t a : Reg) (s : State) : Host.Outcome State Fault Refusal := settle s (slotChain t a s)

/-- The exact value of a stage's OP (R259, R261, R275). -/
def stageValue (op : Nat) (a b c : Val) : Val :=
  match op with
  | 0x01 => a.add b
  | 0x02 => a.add b.negate
  | 0x03 => a.mul b
  | 0x04 => (a.mul b).add c
  | 0x05 => a.min b
  | 0x06 => a.max b
  | 0x07 => a.abs
  | 0x08 => a.negate
  | 0x10 => valExp2 a
  | 0x11 => valLog2 a
  | 0x12 => valRcp a
  | 0x13 => valRsq a
  | 0x14 => valTanh a
  | 0x15 => valSig a
  | 0x16 => valSin a
  | _ => a

/-- Input of a stage at an element: the previous stage, a source or the constant (R273). -/
def stageInput (o : Op) (i j : Nat) (prev : Val) (k : BitVec 32) (sel : Nat) : Val :=
  if sel = 0 then prev
  else if sel = 4 then ofFp32 k.toNat
  else match Tbl.find o.tiles (sel - 1) with
    | some t => tileValue t i j
    | none => .nan

/-- Run the stages over one element: every narrowing but the last rounds to odd (R93, R275). -/
def runStages (o : Op) (i j : Nat) (last : Val → Nat) : List ChainStage → Val → Nat
  | [], v => last v
  | [g], v =>
    last (stageValue g.op (stageInput o i j v g.k g.ina) (stageInput o i j v g.k g.inb) (stageInput o i j v g.k g.inc))
  | g :: l, v =>
    let y := stageValue g.op (stageInput o i j v g.k g.ina) (stageInput o i j v g.k g.inb) (stageInput o i j v g.k g.inc)
    runStages o i j last l (elementValue g.ifmt (roundTo g.ifmt rto y))

/-- What a chain writes (R275). With an SRC0 that no selector uses and that lies outside the window there are no control words to
take, and DST keeps its own (DESIGN CHOICE, log 123). -/
def chainWrites (s : State) (o : Op) : List Write :=
  let b := blockOf o.bytes
  let d := o.nums.headD 0
  let n := (o.nums[1]?).getD 0
  let old := tileNow s o.core d
  let src0 := (Tbl.find o.tiles 0).getD old
  let inc := activeRows o.c o.rows
  let l := inc.zipIdx.map (fun p =>
    (p.1, ((List.range n).zip ((o.seeds.drop (p.2 * n)).take n)).map (fun q =>
      runStages o p.1 q.1 (roundTo b.dfmt ⟨o.rm, b.sat, q.2.toNat⟩) b.stages (Val.zero false))))
  convertWrites d old src0 b.dfmt 0 l

/-- CHAIN_COMPLETE: a chain writes its destination and its token (R272). -/
def execChainComplete (core ctx seq : Nat) (s : State) : Host.Outcome State Fault Refusal :=
  match findOp s core ctx seq with
  | none => .next s
  | some o =>
    match o.instr with
    | .chain .. => .next (finishOp (commitNow s core ctx (chainWrites s o)) o (tokenOk o.count))
    | _ => .next s

end Sys2Proof.Machine
end

