-- ==== Sys2Proof/Machine/Row.lean ====
section
/-! DEFINITION. Row control words, rules and the predicate unit (R37 to R39, R278 to R284). -/

namespace Sys2Proof.Machine

/-! ### The control word (R37, R38) -/

def rcwState (w : BitVec 32) : Nat := (w.extractLsb' 0 3).toNat
def rcwSkip (w : BitVec 32) : Nat := (w.extractLsb' 3 5).toNat
def rcwNextb (w : BitVec 32) : Nat := (w.extractLsb' 8 6).toNat
def rcwDepth (w : BitVec 32) : Nat := (w.extractLsb' 14 4).toNat
def rcwExitb (w : BitVec 32) : Nat := (w.extractLsb' 18 6).toNat
def rcwEpoch (w : BitVec 32) : Nat := (w.extractLsb' 24 8).toNat

/-- A control word from its fields (R37). -/
def rcwMake (epoch exitb depth nextb skip state : Nat) : BitVec 32 :=
  BitVec.ofNat 8 epoch ++ BitVec.ofNat 6 exitb ++ BitVec.ofNat 4 depth ++ BitVec.ofNat 6 nextb ++ BitVec.ofNat 5 skip ++
    BitVec.ofNat 3 state

/-- STATE values (R37). -/
def stCont : Nat := 0
def stSkip : Nat := 1
def stExit : Nat := 2
def stRecur : Nat := 3
def stDone : Nat := 4
def stPad : Nat := 5

/-- A row is live (R38). -/
def isLive (w : BitVec 32) : Bool := rcwState w == stCont || rcwState w == stRecur

/-- STATE 6 and 7 are reserved (R37, R39). -/
def badState (w : BitVec 32) : Bool := 6 ≤ rcwState w

/-- Trap RCW_RULE for a row and its control word (R500). -/
def rcwTrap {α : Type} (row : Nat) (w : BitVec 32) : Except Stop α :=
  trapping causeRcw 6 3 0 (w.setWidth 64) (BitVec.ofNat 32 row)

/-- No row of a list has a reserved STATE (R39). -/
def statesOk (t : Tile) (rows : List Nat) : Except Stop Unit :=
  match rows.find? (fun i => badState (t.word i)) with
  | some i => rcwTrap i (t.word i)
  | none => .ok ()

/-! ### `rcw.set` (R279) -/

/-- Write control words of included rows. -/
def setWords (s : State) (d : Reg) (pm : BitVec 3) (f : Tile → Nat → BitVec 32) : Except Stop State := do
  let x ← vecTile s d
  let rows ← vecRows s
  let t := tileOf (here s) x
  .ok (results s 3 ((included s pm rows).map (fun i => .tileRcw x i (f t i))))

/-- `rcwSet`: Write control words from a scalar (R279). -/
def slotRcwSet (d a : Reg) (pm : BitVec 3) (s : State) : Except Stop State := do
  tileFree s d
  let w ← readS s a
  let _ ← vecTile s d
  let _ ← vecRows s
  if badState (w.extractLsb' 0 32) then rcwTrap 0 (w.extractLsb' 0 32) else .ok ()
  setWords s d pm (fun _ _ => w.extractLsb' 0 32)

def execRcwSet (d a : Reg) (pm : BitVec 3) (s : State) : Host.Outcome State Fault Refusal := settle s (slotRcwSet d a pm s)

/-- `rcwSetSt`: Write STATE, keeping the other fields (R279). -/
def slotRcwSetSt (d : Reg) (pm : BitVec 3) (state : BitVec 3) (s : State) : Except Stop State := do
  tileFree s d
  let _ ← vecTile s d
  let _ ← vecRows s
  if 6 ≤ state.toNat then rcwTrap 0 (state.setWidth 32) else .ok ()
  setWords s d pm (fun t i => (t.word i).extractLsb' 3 29 ++ state)

def execRcwSetSt (d : Reg) (pm : BitVec 3) (state : BitVec 3) (s : State) : Host.Outcome State Fault Refusal := settle s (slotRcwSetSt d pm state s)

/-- `rcwSetCp`: Copy control words without inspecting them (R39, R279). -/
def slotRcwSetCp (d a : Reg) (pm : BitVec 3) (s : State) : Except Stop State := do
  tileFree s d
  tileFree s a
  let _ ← vecTile s d
  let ta ← vecSrc s a
  let _ ← vecRows s
  vecTag ta anyTags
  setWords s d pm (fun _ i => ta.word i)

def execRcwSetCp (d a : Reg) (pm : BitVec 3) (s : State) : Host.Outcome State Fault Refusal := settle s (slotRcwSetCp d a pm s)

/-! ### `rcw.cnt`, `rcw.mask` (R280, R281) -/

/-- Every tile of a run is free; those outside the window trap instead (R31, R34). -/
def runFree (s : State) (a : Reg) : Nat → Except Stop Unit
  | 0 => .ok ()
  | n + 1 => do
    runFree s a n
    if h : a.toNat + n < 64 then tileFree s (BitVec.ofNatLT (a.toNat + n) h) else .ok ()

/-- The tiles of a run of registers (R34). -/
def runTiles (s : State) (a : Reg) (n : Nat) : Except Stop (List Nat) :=
  (List.range n).mapM (fun k => vecTileAt s (a.toNat + k))

/-- `rcwCnt`: Count live rows into a scalar and LIVE (R280). -/
def slotRcwCnt (d a : Reg) (pm : BitVec 3) (acc : Bool) (n : BitVec 6) (s : State) : Except Stop State := do
  runFree s a (n.toNat + 1)
  let xs ← runTiles s a (n.toNat + 1)
  let rows ← vecRows s
  let inc := included s pm rows
  let ts := xs.map (tileOf (here s))
  ts.foldlM (fun (_ : Unit) t => vecTag t anyTags) ()
  ts.foldlM (fun (_ : Unit) t => statesOk t inc) ()
  let c := (ts.map (fun t => (inc.filter (fun i => isLive (t.word i))).length)).foldl (· + ·) 0
  let live := if acc then ((me s).live.extractLsb' 0 32).toNat + c else c
  .ok (results s 4 [.scalar d.toNat (BitVec.ofNat 64 c), .ctl 0x01 (BitVec.ofNat 64 (live % 2 ^ 32))])

def execRcwCnt (d a : Reg) (pm : BitVec 3) (acc : Bool) (n : BitVec 6) (s : State) : Host.Outcome State Fault Refusal := settle s (slotRcwCnt d a pm acc n s)

/-- `rcwMask`: A row mask from a state set (R281). -/
def slotRcwMask (d : BitVec 3) (a : Reg) (set : Byte) (s : State) : Except Stop State := do
  tileFree s a
  let t ← vecSrc s a
  let rows ← vecRows s
  vecTag t anyTags
  statesOk t (List.range rows)
  let m := ((List.range rows).filter (fun i => set.getLsbD (rcwState (t.word i)))).foldl
    (fun m i => m ||| (1#64 <<< i)) (0 : Word)
  .ok (result s 3 (.mask d.toNat m))

def execRcwMask (d : BitVec 3) (a : Reg) (set : Byte) (s : State) : Host.Outcome State Fault Refusal := settle s (slotRcwMask d a set s)

/-! ### Rules (R282, R283) -/

/-- A rule (R283). -/
structure Rule where
  lastb : Nat
  recen : Bool
  skipen : Bool
  exiten : Bool
  skiplen : Nat
  recdep : Nat
  rectgt : Nat
  minb : Nat
  rechi : Val
  reclo : Val
  skiphi : Val
  skiplo : Val
  exitth : Val
deriving DecidableEq, Repr

def ruleOf (r : BitVec 256) : Rule :=
  let f (k : Nat) : Val := ofFp32 (r.extractLsb' k 32).toNat
  { lastb := (r.extractLsb' 184 6).toNat, recen := r.getLsbD 183, skipen := r.getLsbD 182, exiten := r.getLsbD 181
    skiplen := (r.extractLsb' 176 5).toNat, recdep := (r.extractLsb' 172 4).toNat, rectgt := (r.extractLsb' 166 6).toNat
    minb := (r.extractLsb' 160 6).toNat, rechi := f 128, reclo := f 96, skiphi := f 64, skiplo := f 32, exitth := f 0 }

/-- A rule record is valid (R283). -/
def ruleValid (r : BitVec 256) : Bool :=
  let u := ruleOf r
  r.extractLsb' 190 66 = 0 && (!u.skipen || decide (1 ≤ u.skiplen)) && (!u.recen || decide (1 ≤ u.recdep)) &&
    decide (u.minb ≤ u.lastb)

/-- The four words of a record. -/
def ruleWords (r : BitVec 256) : List (BitVec 64) := [r.extractLsb' 0 64, r.extractLsb' 64 64, r.extractLsb' 128 64, r.extractLsb' 192 64]

/-- `ruleSet`: Load a rule; an invalid one leaves its entry empty (R282, R283). -/
def slotRuleSet (a : Reg) (n : BitVec 3) (s : State) : Except Stop State := do
  let x ← readS s a
  aligned 6 3 x 32
  spmLocal s 6 3 x.toNat 32
  let r := BitVec.ofNat 256 (ofBytes (spmSlice s x.toNat 32))
  .ok (result s 6 (.rules n.toNat (if ruleValid r then ruleWords r else [])))

def execRuleSet (a : Reg) (n : BitVec 3) (s : State) : Host.Outcome State Fault Refusal := settle s (slotRuleSet a n s)

/-- A rule table entry; none when it is invalid (R282). -/
def ruleAt (c : Ctx) (n : Nat) : Option Rule :=
  match Tbl.look [] c.rules n with
  | [w0, w1, w2, w3] => some (ruleOf (w3 ++ w2 ++ w1 ++ w0))
  | _ => none

/-! ### The state machine (R284) -/

/-- `a ≤ b`; false with a NaN. -/
def Val.le (a b : Val) : Bool := !a.isNan && !b.isNan && (a.lt b || a.eqv b)

/-- `a < b`, with +0 equal to −0; false with a NaN. -/
def Val.below (a b : Val) : Bool := a.lt b && !a.eqv b

/-- The tests E, Q and S of R284. -/
def testExit (u : Rule) (b : Nat) (g : Val) : Bool := u.exiten && decide (u.minb ≤ b) && u.exitth.le g
def testRecur (u : Rule) (g : Val) : Bool := u.recen && u.reclo.le g && g.below u.rechi
def testSkip (u : Rule) (g : Val) : Bool := u.skipen && u.skiplo.le g && g.below u.skiphi

/-- What the table gives a row: its STATE, and the fields it writes (R284). -/
structure RowStep where
  state : Nat
  exitb : Option Nat
  depth : Option Nat
  skip : Option Nat
  nextb : Option Nat
deriving DecidableEq, Repr

/-- The transition table (R284); none where the row is unchanged. -/
def rowStep (u : Rule) (w : BitVec 32) (g : Val) : Option RowStep :=
  let b := rcwNextb w
  let go (st : Nat) : RowStep := { state := st, exitb := none, depth := none, skip := none, nextb := none }
  if rcwState w = stCont then
    some (if testExit u b g then { go stExit with exitb := some b }
      else if testRecur u g then { go stRecur with depth := some (u.recdep - 1), nextb := some u.rectgt }
      else if testSkip u g then { go stSkip with skip := some u.skiplen, nextb := some (b + 1) }
      else { go stCont with nextb := some (b + 1) })
  else if rcwState w = stRecur then
    some (if testExit u b g then { go stExit with exitb := some b }
      else if 0 < rcwDepth w then { go stRecur with depth := some (rcwDepth w - 1), nextb := some u.rectgt }
      else { go stCont with nextb := some (b + 1) })
  else if rcwState w = stSkip then
    some (if rcwSkip w ≤ 1 then { go stCont with skip := some 0, nextb := some (b + 1) }
      else { go stSkip with skip := some (rcwSkip w - 1), nextb := some (b + 1) })
  else none

/-- A control word after its transition: past LASTB the row becomes DONE, and a moved row enters a new epoch (R284). -/
def applyStep (u : Rule) (w : BitVec 32) (t : RowStep) : BitVec 32 :=
  let past := (t.state == stCont || t.state == stSkip) && decide (u.lastb < t.nextb.getD 0)
  let depth := t.depth.getD (rcwDepth w)
  let skip := t.skip.getD (rcwSkip w)
  if past then rcwMake (rcwEpoch w) u.lastb depth (rcwNextb w) skip stDone
  else
    rcwMake (if t.nextb.isSome then rcwEpoch w + 1 else rcwEpoch w) (t.exitb.getD (rcwExitb w)) depth
      (t.nextb.getD (rcwNextb w)) skip t.state

/-- MODE selects a row by its STATE (R284). -/
def modeSelects (mode : Nat) (w : BitVec 32) : Bool :=
  if mode = 0 then true else if mode = 1 then isLive w else rcwState w == stSkip

/-- `rcwUpd`: Apply a rule to the rows of a tile (R284). -/
def slotRcwUpd (d a : Reg) (pm : BitVec 3) (rule : BitVec 3) (mode : BitVec 2) (col : BitVec 10) (s : State) : Except Stop State := do
  tileFree s d
  tileFree s a
  let x ← vecTile s d
  let ta ← vecSrc s a
  let rows ← vecRows s
  vecTag ta wideTags
  if col.toNat < elemsPerRow ta.tag.toNat then .ok () else vecShape s
  match ruleAt (me s) rule.toNat with
  | none => rcwTrap 0 0
  | some u => do
    let t := tileOf (here s) x
    let inc := included s pm rows
    statesOk t inc
    let ws := inc.filterMap (fun i =>
      let w := t.word i
      if modeSelects mode.toNat w then
        (rowStep u w (tileValue ta i col.toNat)).map (fun st => Write.tileRcw x i (applyStep u w st))
      else none)
    .ok (results s 12 ws)

def execRcwUpd (d a : Reg) (pm : BitVec 3) (rule : BitVec 3) (mode : BitVec 2) (col : BitVec 10) (s : State) : Host.Outcome State Fault Refusal := settle s (slotRcwUpd d a pm rule mode col s)

end Sys2Proof.Machine
end

