-- ==== Sys2Proof/Machine/Cmx.lean ====
section
/-! DEFINITION. The compaction network: pack lists, the manifest, `cmx.pack` and `cmx.rest` (R285 to R289, R428 to R433). -/

namespace Sys2Proof.Machine

def clusterAt (s : State) (n : Nat) : Cluster := Tbl.look Cluster.init s.clusters n

def withCluster (s : State) (n : Nat) (f : Cluster → Cluster) : State :=
  { s with clusters := Tbl.put s.clusters n (f (clusterAt s n)) }

/-- Bytes of a scratchpad area per tile: 64 rows and their control words (R285). -/
def cmxArea : Nat := 64 * 512 + 256

/-- Commands that the queue holds: all accepted ones but the one whose turn it is (R428). -/
def cmxWaiting (c : Cluster) : Nat := c.queue.length - 1

/-- Write parts of tile registers of any core at once; pending writes to those parts never become visible (R142). -/
def commitTiles (s : State) (core : Nat) (ws : List Write) : State :=
  let s := withCore s core (fun k =>
    { k with ctxs := k.ctxs.map (fun c =>
        (c.1, { c.2 with pend := c.2.pend.filter (fun p => !(ws.any (fun w => w.part = p.w.part))) })) })
  applyWrites s core 0 ws

/-! ### The pack list and the manifest (R286, R287) -/

/-- A source of a pack list (R286). -/
structure PackSource where
  spm : Bool
  core : Nat
  rows : Nat
  loc : Nat
  clean : Bool
deriving DecidableEq, Repr

def packSource (w : Word) : PackSource :=
  { spm := w.getLsbD 63, core := (w.extractLsb' 48 3).toNat, rows := (w.extractLsb' 40 7).toNat
    loc := (w.extractLsb' 0 32).toNat
    clean := w.extractLsb' 51 12 = 0 && !w.getLsbD 47 && w.extractLsb' 32 8 = 0 }

/-- A pack list (R286). -/
structure PackList where
  stag : Nat
  nsrc : Nat
  clean : Bool
  srcs : List PackSource
deriving DecidableEq, Repr

def packList (b : List Byte) : PackList :=
  let h : Word := BitVec.ofNat 64 (ofBytes (b.take 8))
  let n := (h.extractLsb' 0 5).toNat
  { stag := (h.extractLsb' 16 4).toNat, nsrc := n, clean := h.extractLsb' 20 44 = 0 && h.extractLsb' 5 11 = 0
    srcs := (List.range n).map (fun k => packSource (BitVec.ofNat 64 (ofBytes ((b.drop (8 + 8 * k)).take 8)))) }

/-- A pack list as R286 lays it out: its counts and places within their ranges, its reserved bits zero. STAG is the tag of
scratchpad sources; in a list without one it is not looked at (DESIGN CHOICE, log 122). -/
def listFormed (l : PackList) : Bool :=
  l.clean && decide (1 ≤ l.nsrc ∧ l.nsrc ≤ 16) &&
    l.srcs.all (fun e => e.clean && decide (1 ≤ e.rows ∧ e.rows ≤ 64) && (if e.spm then e.loc % 64 == 0 else decide (e.loc < 64))) &&
    (!(l.srcs.any (·.spm)) || [1, 2, 3, 8, 11].contains l.stag)

/-- A manifest entry that names a source row (R287). -/
def manifestEntry (core buf row : Nat) : BitVec 32 :=
  BitVec.ofNat 32 (2 ^ 31 + core * 2 ^ 10 + buf * 2 ^ 6 + row)

/-- The pack list a command has read. -/
def listHeld (o : Op) : PackList := packList o.bytes

/-- Core of a cluster's list entry. -/
def sourceCore (o : Op) (e : PackSource) : Nat := 8 * clusterOf o.core + e.core

/-- Physical tiles that a command names, its capacity and its state set. -/
def cmxTiles (o : Op) : List Nat := o.nums.drop 2
def cmxNt (o : Op) : Nat := o.nums.headD 0
def cmxSet (o : Op) : Nat := (o.nums[1]?).getD 0

/-! ### Starting (R428, R430) -/

/-- Tile registers of list entries. -/
def listTiles (o : Op) : List (Nat × Nat) :=
  ((listHeld o).srcs.filter (fun e => !e.spm)).map (fun e => (sourceCore o e, e.loc % 64))

/-- Read the pack list at the start of a command (R288, R289). -/
def readPackList (s : State) (o : Op) : Except OpErr (List Byte × State) := do
  let (h, s) ← engineRead s o.party true o.a.toNat 8 []
  let n := min 16 (packList h).nsrc
  let (b, s) ← engineRead s o.party true o.a.toNat (8 + 8 * n) []
  .ok (b, s)

/-- Tile registers that a `cmx.rest` writes: the destinations that its VALID entries name (R289, R430). -/
def restTargets (s : State) (o : Op) : List (Nat × Nat) :=
  let l := listHeld o
  let man := (clusterAt s (clusterOf o.core)).manifest
  ((List.range (64 * cmxNt o)).filterMap (fun k =>
    let w := Tbl.look 0 man (o.c.toNat + k)
    if w.getLsbD 31 then
      match l.srcs[(w.extractLsb' 6 4).toNat]? with
      | some e => if e.spm then none else some (sourceCore o e, e.loc % 64)
      | none => none
    else none)).eraseDups

/-- Remove the head of a cluster's queue. -/
def popCmx (s : State) (cl : Nat) : State := withCluster s cl (fun c => { c with queue := c.queue.drop 1, running := false })

/-- A command starts: it has read its pack list, and a restore sets the busy bits of the tiles it writes (R428, R430). -/
def startCmd (s : State) (cl : Nat) (o : Op) (b : List Byte) : State :=
  let o := { o with bytes := b, started := true }
  let o := match o.instr with
    | .cmxRest .. => { o with busy := (o.busy ++ restTargets s o).eraseDups }
    | _ => o
  withCluster (updateOp s o) cl (fun c => { c with running := true })

/-- The oldest command of an idle network starts; one that faults as it reads its list ends, and the next one starts
(R428). At most `n` commands are tried. -/
def startHead (cl : Nat) : Nat → State → Host.Outcome State Fault Refusal
  | 0, s => .next s
  | n + 1, s =>
    let c := clusterAt s cl
    if c.running then .next s
    else
      match c.queue with
      | [] => .next s
      | q :: _ =>
        match findOp s q.core q.ctx q.seq with
        | none => startHead cl n (popCmx s cl)
        | some o =>
          match readPackList s o with
          | .error .wait => .next s
          | .error e =>
            match opFault (popCmx s cl) o e with
            | .next s => startHead cl n s
            | r => r
          | .ok (b, s) => .next (startCmd s cl o b)

/-- The head of a cluster's queue has ended: the next command starts (R428). -/
def endCmx (s : State) (cl : Nat) : Host.Outcome State Fault Refusal :=
  let s := popCmx s cl
  startHead cl (clusterAt s cl).queue.length s

/-- CMX_START: the oldest command of an idle network starts, where it could not when it was accepted or when its
predecessor ended (R428, R430). -/
def execCmxStart (cluster : Nat) (s : State) : Host.Outcome State Fault Refusal :=
  startHead cluster (clusterAt s cluster).queue.length s

/-! ### Issue (R285, R428) -/

/-- A command is accepted; on an idle network it starts at once (R428). One whose list cannot be read waits for
CMX_START. -/
def acceptCmx (s : State) (cl : Nat) (o : Op) (pack : Bool) : State :=
  let idle := (clusterAt s cl).queue == []
  let s := withCluster s cl (fun k =>
    { k with queue := k.queue ++ [{ core := o.core, ctx := o.ctx, seq := o.seq }], used := k.used || pack })
  if idle then
    match readPackList s o with
    | .ok (b, s) => startCmd s cl o b
    | .error _ => s
  else s

/-- Issue of a compaction command: a full queue holds; its tiles lie in the window, its area in the scratchpad; the input
tiles of a restore are sources, of which none is tagged NONE (R30). -/
def startCmx (s : State) (i : Instr) (t a b c : Reg) (sp : Bool) (nt set : Nat) (pack : Bool) : Except Stop State := do
  let list ← readS s a
  let area ← if sp then readS s b else .ok 0
  let entry ← readS s c
  if sp then .ok () else runFree s b nt
  opRoom s
  let cl := clusterOf s.cur.1
  if 16 ≤ cmxWaiting (clusterAt s cl) then .error .hold else .ok ()
  if sp then aligned 8 3 area 64 else .ok ()
  spmBounds 8 3 list.toNat 8
  if sp then spmBounds 8 3 area.toNat (nt * cmxArea) else .ok ()
  let xs ← if sp then .ok [] else runTiles s b nt
  if pack then .ok () else xs.foldlM (fun (_ : Unit) x => vecTag (tileCapture s x) anyTags) ()
  let o := { newOp s i t with
    a := list, b := area, c := entry, nums := [nt, set] ++ xs, busy := xs.map (fun x => (s.cur.1, x)) }
  let s' ← startOp s o
  .ok (acceptCmx s' cl o pack)

/-- `cmxPack`: Queue a pack (R285, R288, R433). -/
def slotCmxPack (t a b c : Reg) (sp : Bool) (nt : BitVec 5) (set : Byte) (s : State) : Except Stop State :=
  startCmx s (.cmxPack t a b c sp nt set) t a b c sp nt.toNat (if set = 0 then 9 else set.toNat) true

def execCmxPack (t a b c : Reg) (sp : Bool) (nt : BitVec 5) (set : Byte) (s : State) : Host.Outcome State Fault Refusal := settle s (slotCmxPack t a b c sp nt set s)

/-- `cmxRest`: Queue a restore (R285, R289). -/
def slotCmxRest (t a b c : Reg) (sp : Bool) (nt : BitVec 5) (s : State) : Except Stop State :=
  startCmx s (.cmxRest t a b c sp nt) t a b c sp nt.toNat 0 false

def execCmxRest (t a b c : Reg) (sp : Bool) (nt : BitVec 5) (s : State) : Host.Outcome State Fault Refusal := settle s (slotCmxRest t a b c sp nt s)

/-! ### Packing (R288) -/

/-- A row as the network carries it. -/
structure MovedRow where
  core : Nat
  buf : Nat
  row : Nat
  data : Row
  word : BitVec 32
  scales : BitVec 128
deriving DecidableEq, Repr

/-- The number of the atomic unit that holds a scratchpad byte, among those of all cores (R332). -/
def unitNo (core off : Nat) : Nat := core * 2 ^ 32 + off / 64

/-- The atomic units of `n` bytes from a unit's start. -/
def unitsOf (core off n : Nat) : List Nat := (List.range (ceilDiv n 64)).map (unitNo core off + ·)

/-- The chunks of a compaction command: the units of the scratchpad arrays of a pack's list, those of a restore's area. A pack
whose list is malformed reads none (R288). -/
def cmxChunks (o : Op) : List Nat :=
  match o.instr with
  | .cmxPack .. =>
    if listFormed (listHeld o) then
      (((listHeld o).srcs.filter (·.spm)).flatMap (fun e => unitsOf (sourceCore o e) e.loc (516 * e.rows))).eraseDups
    else []
  | _ => if cmxTiles o = [] then unitsOf o.core o.b.toNat (cmxNt o * cmxArea) else []

/-- A started command reads a unit, at a time of its own (R347, R428). -/
def cmxChunk (s : State) (o : Op) (k : Nat) : Except OpErr (State × Op) :=
  if !o.started then .error .wait
  else do
    let (b, s) ← spmFetch s o.party (k / 2 ^ 32) (64 * (k % 2 ^ 32)) 64
    .ok (s, { o with parts := Tbl.put o.parts k b })

/-- Scratchpad bytes that a command has read. -/
def arrayBytes (o : Op) (core off n : Nat) : List Byte :=
  (((List.range (n / 64 + 2)).flatMap (fun j => Tbl.look [] o.parts (unitNo core off + j))).drop (off % 64)).take n

/-- Rows of a scratchpad array with control words at `words` bytes behind its start, as the command has read them. -/
def spmRow (o : Op) (core off words i : Nat) : Row × BitVec 32 :=
  (rowOfBytes (arrayBytes o core (off + 512 * i) 512), BitVec.ofNat 32 (ofBytes (arrayBytes o core (off + words + 4 * i) 4)))

/-- A row and its control word reach a scratchpad array. -/
def placeRow (s : State) (o : Op) (core off words i : Nat) (d : Row) (w : BitVec 32) : Except OpErr State := do
  let s ← spmPlace s o.party core (off + 512 * i) (rowBytes d)
  spmPlace s o.party core (off + words + 4 * i) (toBytes 4 w.toNat)

/-- The rows of a source (R286). A scratchpad array stores no block scales and no superblock scale: the spec does not say what its
rows carry into a tile, and the model lets them carry the values that R32 gives a fresh tile, 0x38 and 1.0 (DESIGN CHOICE, log 121). -/
def sourceRows (s : State) (o : Op) (n : Nat) (e : PackSource) : List MovedRow :=
  let core := sourceCore o e
  (List.range e.rows).map (fun i =>
    if e.spm then
      let (d, w) := spmRow o core e.loc (512 * e.rows) i
      ⟨e.core, n, i, d, w, defaultScales⟩
    else
      let t := tileNow s core (e.loc % 64)
      ⟨e.core, n, i, t.row i, t.word i, t.scales i⟩)

/-- Tag of a source, and its superblock scales (R288). -/
def sourceTag (s : State) (o : Op) (l : PackList) (e : PackSource) : Nat :=
  if e.spm then l.stag else (tileNow s (sourceCore o e) (e.loc % 64)).tag.toNat

def sourceSuper (s : State) (o : Op) (e : PackSource) : BitVec 128 :=
  if e.spm then defaultSuper else (tileNow s (sourceCore o e) (e.loc % 64)).ssc

/-- Four copies of a superblock scale. -/
def repeatSuper (v : BitVec 32) : BitVec 128 := v ++ v ++ v ++ v

/-- The tags and scales of the sources agree (R288). -/
def sourcesAgree (s : State) (o : Op) (l : PackList) : Bool :=
  match l.srcs with
  | [] => false
  | e :: _ =>
    let tag := sourceTag s o l e
    let ss := repeatSuper ((sourceSuper s o e).extractLsb' 0 32)
    l.srcs.all (fun f => sourceTag s o l f == tag && tag != 0 && (!isScaled tag || sourceSuper s o f == ss))

/-- What a pack writes into output tile `j`: its selected rows, then PAD rows (R288). -/
def packTile (rows : List MovedRow) (j i : Nat) : Row × BitVec 32 × BitVec 128 :=
  match rows[64 * j + i]? with
  | some r => (r.data, r.word, r.scales)
  | none => (0, 5, defaultScales)

/-- The output of a pack (R288). -/
def packOutput (s : State) (o : Op) (tag : Nat) (ss : BitVec 32) (rows : List MovedRow) (j : Nat) :
    Except OpErr State :=
  match (cmxTiles o)[j]? with
  | some x =>
    .ok <| commitTiles s o.core ((List.range 64).flatMap (fun i =>
      let (d, w, sc) := packTile rows j i
      [Write.tileRow x i d sc, Write.tileRcw x i w]) ++ [.tileTag x (BitVec.ofNat 4 tag), .tileSsc x (repeatSuper ss)])
  | none =>
    let base := o.b.toNat + j * cmxArea
    (List.range 64).foldlM (fun s i =>
      let (d, w, _) := packTile rows j i
      placeRow s o o.core base (64 * 512) i d w) s

/-- The manifest entries of a pack (R287, R288). -/
def packManifest (m : Tbl (BitVec 32)) (c : Nat) (rows : List MovedRow) (n : Nat) : Tbl (BitVec 32) :=
  (List.range n).foldl (fun m k =>
    Tbl.put m (c + k) (match rows[k]? with | some r => manifestEntry r.core r.buf r.row | none => 0)) m

/-- An end of a compaction command with its cause (R288, R432). -/
def cmxFail (index : Nat) (detail : Word) : OpErr := .fail causeCmx 0 detail (BitVec.ofNat 32 index)

/-- Run a pack: the state with its results and the count, or its end (R288). -/
def runPack (s : State) (o : Op) : Except OpErr (State × Nat) := do
  let l := listHeld o
  if listFormed l then .ok () else .error (cmxFail 0 0)
  if sourcesAgree s o l then .ok () else .error (cmxFail 0 0)
  let all := l.srcs.zipIdx.flatMap (fun p => sourceRows s o p.2 p.1)
  match all.find? (fun r => badState r.word) with
  | some r => .error (.fail causeRcw 0 (r.word.setWidth 64) (BitVec.ofNat 32 (64 * r.buf + r.row)))
  | none => .ok ()
  let rows := all.filter (fun r => (BitVec.ofNat 8 (cmxSet o)).getLsbD (rcwState r.word))
  let t := ceilDiv rows.length 64
  let c := o.c.toNat
  if t ≤ cmxNt o ∧ c ≤ 16383 ∧ c + 64 * t ≤ 16384 then .ok () else .error (cmxFail 0 0)
  if cmxTiles o = [] then engineSpm s o.core o.b.toNat (t * cmxArea) else .ok ()
  match l.srcs with
  | [] => .error (cmxFail 0 0)
  | e :: _ =>
    let tag := sourceTag s o l e
    let ss := (sourceSuper s o e).extractLsb' 0 32
    let s ← (List.range t).foldlM (fun s j => packOutput s o tag ss rows j) s
    .ok (withCluster s (clusterOf o.core) (fun k => { k with manifest := packManifest k.manifest c rows (64 * t) }),
         rows.length)

/-! ### Restoring (R289, R432) -/

/-- Input row `k` of a restore, and its tag. -/
def restInput (s : State) (o : Op) (l : PackList) (k : Nat) : MovedRow × Nat :=
  match (cmxTiles o)[k / 64]? with
  | some x =>
    let t := tileNow s o.core x
    (⟨0, 0, 0, t.row (k % 64), t.word (k % 64), t.scales (k % 64)⟩, t.tag.toNat)
  | none =>
    let (d, w) := spmRow o o.core (o.b.toNat + k / 64 * cmxArea) (64 * 512) (k % 64)
    (⟨0, 0, 0, d, w, defaultScales⟩, l.stag)

/-- Restore input row `k` under its entry (R289, R432). -/
def restRow (s : State) (o : Op) (l : PackList) (k : Nat) (w : BitVec 32) : Except OpErr State := do
  let fail : OpErr := cmxFail k (w.setWidth 64)
  match l.srcs[(w.extractLsb' 6 4).toNat]? with
  | none => .error fail
  | some e =>
    let row := (w.extractLsb' 0 6).toNat
    let core := sourceCore o e
    let (r, tag) := restInput s o l k
    if (w.extractLsb' 10 3).toNat ≠ e.core ∨ e.rows ≤ row then .error fail
    else if e.spm then placeRow s o core e.loc (512 * e.rows) row r.data r.word
    else if (tileNow s core (e.loc % 64)).tag.toNat ≠ tag then .error fail
    else .ok (commitTiles s core [.tileRow (e.loc % 64) row r.data r.scales, .tileRcw (e.loc % 64) row r.word])

/-- Restore the rows from `k` on, in order; the first failure keeps what came before it (R289). -/
def restRows (s : State) (o : Op) (l : PackList) : List Nat → Nat → State × Except OpErr Nat
  | [], n => (s, .ok n)
  | k :: ks, n =>
    let cl := clusterOf o.core
    let w := Tbl.look 0 (clusterAt s cl).manifest (o.c.toNat + k)
    if !w.getLsbD 31 then restRows s o l ks n
    else
      match restRow s o l k w with
      | .ok s => restRows (withCluster s cl (fun c => { c with manifest := Tbl.put c.manifest (o.c.toNat + k) (w &&& 0x7FFFFFFF) })) o l ks (n + 1)
      | .error e => (s, .error e)

/-- Run a restore. R289 and R432 name no check of the list's form: a reserved bit of it is not looked at, a LOC of a tile counts
modulo 64, and of NSRC sources above 16 the first 16 are there, an entry that names another being beyond the list (DESIGN
CHOICE, log 122). -/
def runRest (s : State) (o : Op) : State × Except OpErr Nat :=
  if 16384 < o.c.toNat + 64 * cmxNt o then (s, .error (cmxFail 0 0))
  else restRows s o (listHeld o) (List.range (64 * cmxNt o)) 0

/-- Rows of list entry `n` that a restore has written: their entries were VALID before it and are not after. -/
def restRowsOf (s t : State) (o : Op) (n : Nat) : Word :=
  let cl := clusterOf o.core
  (List.range (64 * cmxNt o)).foldl (fun m k =>
    let w := Tbl.look 0 (clusterAt s cl).manifest (o.c.toNat + k)
    let v := Tbl.look 0 (clusterAt t cl).manifest (o.c.toNat + k)
    if w.getLsbD 31 && !v.getLsbD 31 && (w.extractLsb' 6 4).toNat == n then m ||| (1#64 <<< (w.extractLsb' 0 6).toNat) else m) 0

/-- Trace the control words that a restore has changed (R517, class 2). -/
def restTrace (s t : State) (o : Op) : State :=
  (listHeld o).srcs.zipIdx.foldl (fun t p =>
    if p.1.spm || restRowsOf s t o p.2 == 0 then t
    else traceEvent t (sourceCore o p.1) 2 o.ctx (p.1.loc % 64) (restRowsOf s t o p.2)) t

/-! ### Completion -/

/-- A tile register that a command reads or writes is still busy for another operation (R288, R430). -/
def cmxBlocked (s : State) (o : Op) (ts : List (Nat × Nat)) : Bool :=
  ts.any (fun t => busyIn (s.ops.filter (fun p => !sameOp o p)) t.1 t.2)

/-- A command that has met an error leaves the network. -/
def cmxEnded (r : Host.Outcome State Fault Refusal) (cl : Nat) : Host.Outcome State Fault Refusal :=
  match r with
  | .next s => endCmx s cl
  | r => r

/-- The results and the token of a command that has read its arrays (R288, R289). -/
def cmxResult (s : State) (o : Op) (cluster : Nat) : Host.Outcome State Fault Refusal :=
  match o.instr with
  | .cmxPack .. =>
    if cmxBlocked s o (listTiles o) then .next s
    else
      match runPack s o with
      | .ok (s, n) => endCmx (finishOp s o (tokenOk n)) cluster
      | .error .wait => .next s
      | .error e => cmxEnded (opFault s o e) cluster
  | .cmxRest .. =>
    if cmxBlocked s o (restTargets s o) then .next s
    else
      match runRest s o with
      | (t, .ok n) => endCmx (finishOp (restTrace s t o) o (tokenOk n)) cluster
      | (_, .error .wait) => .next s
      | (t, .error e) => cmxEnded (opFault (restTrace s t o) o e) cluster
  | _ => endCmx s cluster

/-- CMX_COMPLETE: the running command writes its results and its token (R288, R289, R429). -/
def execCmxComplete (cluster : Nat) (s : State) : Host.Outcome State Fault Refusal :=
  let c := clusterAt s cluster
  if !c.running then .next s
  else
    match c.queue with
    | [] => .next s
    | q :: _ =>
      match findOp s q.core q.ctx q.seq with
      | none => endCmx s cluster
      | some o =>
        match runChunks cmxChunk s o (cmxChunks o) with
        | .stopped _ _ .wait => .next s
        | .stopped s o e => cmxEnded (opFault s o e) cluster
        | .done s o => cmxResult s o cluster

end Sys2Proof.Machine
end

