-- ==== Sys2Proof/Machine/Control.lean ====
section
/-! DEFINITION. The CTL instructions (R169 to R192). A transfer, an end of task, a save or a stop is noted in the
bundle's `fly` and takes effect when every slot has executed (R170, R174). -/

namespace Sys2Proof.Machine

/-- Traps of the CTL slot. -/
def illegalCtl (s : State) : Except Stop State := trapping causeIllegal 0 5 (s.fly.ba.setWidth 64)

/-- Bundle address plus a signed offset (R169), in 64 bits like the sum of a register target, so that one outside 56 bits is
no virtual address: the manual states no width (DESIGN CHOICE, Assumption 8). -/
def relTarget (s : State) (off : Imm) : Word := s.fly.ba.setWidth 64 + off.signExtend 64

/-- Take a transfer (R126, R170). -/
def transfer (s : State) (t : Word) (k : TargetKind) : State :=
  { s with fly := { s.fly with target := some (t, k), noBackEdge := true } }

/-! ### Control transfer (R169 to R172) -/

/-- Rows of a mask in range, for `br` (R171). -/
def maskInRange (c : Ctx) (p n : Nat) : Word := maskOf c p &&& (BitVec.ofNat 64 (2 ^ n - 1))

/-- The mask forms of `br`: any, all, none, not all (R171). -/
def maskCond (cond : Nat) (m full : Word) : Bool :=
  match cond with
  | 2 => m != 0
  | 3 => m == full
  | 4 => m == 0
  | _ => m != full

/-- `br`: A conditional branch (R171). -/
def slotBr (a : Reg) (cond : BitVec 3) (off : Imm) (s : State) : Except Stop State := do
  let taken ←
    if cond.toNat < 2 then do
      let x ← readS s a
      .ok (if cond = 0 then x != 0 else x == 0)
    else do
      let n ← rowsCheck s 0 5
      .ok (maskCond cond.toNat (maskInRange (me s) a.toNat n) (BitVec.ofNat 64 (2 ^ n - 1)))
  .ok (if taken then transfer s (relTarget s off) .land else s)

def execBr (a : Reg) (cond : BitVec 3) (off : Imm) (s : State) : Host.Outcome State Fault Refusal := settle s (slotBr a cond off s)

/-- `jmp`: A jump (R172). -/
def slotJmp (off : Imm) (s : State) : Except Stop State :=
  .ok (transfer s (relTarget s off) .land)

def execJmp (off : Imm) (s : State) : Host.Outcome State Fault Refusal := settle s (slotJmp off s)

/-- A register target plus its displacement (R172). -/
def regTarget (x : Word) (disp : Imm) : Word := x + disp.signExtend 64

/-- `jr`: A jump to a register target (R172). -/
def slotJr (a : Reg) (disp : Imm) (s : State) : Except Stop State := do
  let x ← readS s a
  .ok (transfer s (regTarget x disp) .land)

def execJr (a : Reg) (disp : Imm) (s : State) : Host.Outcome State Fault Refusal := settle s (slotJr a disp s)

/-- `call`: A call with a link (R172). -/
def slotCall (a : Reg) (off : Imm) (s : State) : Except Stop State :=
  .ok (transfer (result s 1 (.scalar a.toNat (s.fly.nx.setWidth 64))) (relTarget s off) .land)

def execCall (a : Reg) (off : Imm) (s : State) : Host.Outcome State Fault Refusal := settle s (slotCall a off s)

/-- `callI`: A call to a register target (R172). -/
def slotCallI (a b : Reg) (disp : Imm) (s : State) : Except Stop State := do
  let x ← readS s b
  .ok (transfer (result s 1 (.scalar a.toNat (s.fly.nx.setWidth 64))) (regTarget x disp) .land)

def execCallI (a b : Reg) (disp : Imm) (s : State) : Host.Outcome State Fault Refusal := settle s (slotCallI a b disp s)

/-- `ret`: A return (R172). -/
def slotRet (a : Reg) (s : State) : Except Stop State := do
  let x ← readS s a
  .ok (transfer s x .plain)

def execRet (a : Reg) (s : State) : Host.Outcome State Fault Refusal := settle s (slotRet a s)

/-! ### Hardware loops (R173 to R175) -/

/-- Set counter `n` for a loop of `count` passes whose last bundle is at `stop`; none skips the body (R173). The counter
holds 56 bits of the end address (R15). -/
def startLoop (s : State) (n : Nat) (count : BitVec 32) (stop : Word) : State :=
  let s := results s 1 [.loopSet n s.fly.nx (stop.setWidth 56) (count != 0), .count n count]
  let s := { s with fly := { s.fly with noBackEdge := true } }
  if count = 0 then transfer s stop .zeroTrip else s

/-- `loop`: A counted loop (R173). -/
def slotLoop (a : Reg) (n : BitVec 2) (cnt : BitVec 12) (off : Imm) (s : State) : Except Stop State := do
  let count ←
    if a = 0 then (.ok (cnt.setWidth 32) : Except Stop (BitVec 32))
    else do
      let x ← readS s a
      .ok (BitVec.ofNat 32 (min x.toNat 0xFFFFFFFF))
  .ok (startLoop s n.toNat count (relTarget s off))

def execLoop (a : Reg) (n : BitVec 2) (cnt : BitVec 12) (off : Imm) (s : State) : Host.Outcome State Fault Refusal := settle s (slotLoop a n cnt off s)

/-- `loopLv`: A loop over the live rows (R173). -/
def slotLoopLv (n : BitVec 2) (off : Imm) (s : State) : Except Stop State :=
  .ok (startLoop s n.toNat (BitVec.ofNat 32 (ceilDiv ((me s).live.extractLsb' 0 32).toNat 64)) (relTarget s off))

def execLoopLv (n : BitVec 2) (off : Imm) (s : State) : Host.Outcome State Fault Refusal := settle s (slotLoopLv n off s)

/-! ### Yield, end of task (R176 to R178) -/

/-- `yld`: Nothing issues for a while (R176). -/
def slotYld (cycles : BitVec 16) (s : State) : Except Stop State :=
  .ok { s with fly := { s.fly with quiet := max 1 cycles.toNat, yields := true } }

def execYld (cycles : BitVec 16) (s : State) : Host.Outcome State Fault Refusal := settle s (slotYld cycles s)

/-- `done`: The end of the task (R177). -/
def slotDone (s : State) : Except Stop State :=
  .ok { s with fly := { s.fly with ended := some none, noBackEdge := true } }

def execDone (s : State) : Host.Outcome State Fault Refusal := settle s (slotDone s)

/-- `halt`: The abnormal end of the task (R178). -/
def slotHalt (code : BitVec 16) (s : State) : Except Stop State :=
  .ok { s with fly := { s.fly with ended := some (some code), noBackEdge := true } }

def execHalt (code : BitVec 16) (s : State) : Host.Outcome State Fault Refusal := settle s (slotHalt code s)

/-! ### Barriers (R179 to R182) -/

/-- The launch and task a context holds. -/
def taskOf (s : State) (core ctx : Nat) : Option (Nat × Launch × Nat × Task) :=
  match (ctxOf s core ctx).task with
  | none => none
  | some r =>
    match Tbl.find s.launches r.launch with
    | none => none
    | some l => (l.tasks[r.task]?).map (fun t => (r.launch, l, r.task, t))

/-- The current phase of a launch is ragged (R401). -/
def raggedPhase (l : Launch) : Bool := ((l.phases[l.phase]?).getD 0).getLsbD 4

/-- Levels a launch declares in its current phase (R179). -/
def declaredLevels (l : Launch) : Nat := if raggedPhase l then 2 else (l.header.extractLsb' 299 4).toNat

/-- Whether two tasks belong to one barrier group of a level (R179). -/
def sameGroup (level : Nat) (t u : Task) : Bool :=
  t.comm == u.comm && t.tc.take level == u.tc.take level

/-- Arrivals of a task at a barrier. -/
def arrivalsOf (t : Task) (key : Nat × Nat) : Nat := ((t.arrived.find? (fun a => a.1 = key)).map (·.2)).getD 0

/-- Whether a task has executed `done`, and so counts as arrived at every later generation (R180). -/
def taskDone (s : State) (t : Task) : Bool :=
  match t.status with
  | .finished => true
  | .bound n k =>
    (ctxOf s n k).ended ||
    (match (ctxOf s n k).status with
     | .halted _ => true
     | .stopped => true
     | _ => false)
  | _ => false

/-- Records with a row count of zero belong to no group (R179, R414). -/
def skippedRecord (r : BitVec 128) : Bool := r.extractLsb' 16 7 == 0

/-- A task's arrival at a barrier waits for its accesses and is not counted yet (R180). -/
def arrivalWaits (s : State) (t : Task) (key : Nat × Nat) : Bool :=
  match t.status with
  | .bound n k => (ctxOf s n k).arrivals.any (fun a => (a.1, a.2.1) = key)
  | _ => false

/-- A task that counts as arrived at every generation to come: it has executed `done`, and its own arrivals are counted
(R180). -/
def arrivedForGood (s : State) (t : Task) (key : Nat × Nat) : Bool := taskDone s t && !arrivalWaits s t key

/-- The highest generation that every member has reached (R180). -/
def releasedGen (s : State) (l : Launch) (t : Task) (key : Nat × Nat) : Nat :=
  let members := l.tasks.filter (fun u =>
    sameGroup key.1 t u && !arrivedForGood s u key && !(match u.tileRec with | some r => skippedRecord r | none => false))
  match members with
  | [] => arrivalsOf t key
  | u :: us => us.foldl (fun m v => min m (arrivalsOf v key)) (arrivalsOf u key)

/-- Set flag f8 in the context of a member (R180). -/
def flagMember (s : State) (lid n : Nat) : State :=
  match Tbl.find s.launches lid with
  | none => s
  | some l =>
    match l.tasks[n]? with
    | none => s
    | some t =>
      match t.status with
      | .bound c k => setFlags s c k 0x100
      | .saved _ _ =>
        match t.image with
        | some im =>
          let t' := { t with image := some { im with ctx := { im.ctx with flags := im.ctx.flags ||| 0x100 } } }
          { s with launches := Tbl.put s.launches lid { l with tasks := l.tasks.set n t' } }
        | none => s
      | _ => s

/-- The generations above `lo` up to `hi` are released: f8 sets in every member of the group of task `t` whose latest
arrival is one of them (R180). -/
def flagGroup (s : State) (lid : Nat) (l : Launch) (t : Task) (key : Nat × Nat) (lo hi : Nat) : State :=
  (l.tasks.zipIdx).foldl (fun s p =>
    if sameGroup key.1 t p.1 && decide (lo < arrivalsOf p.1 key ∧ arrivalsOf p.1 key ≤ hi) && !taskDone s p.1
    then flagMember s lid p.2 else s) s

/-- Add one arrival to a task. -/
def addArrival (t : Task) (key : Nat × Nat) : Task :=
  let n := arrivalsOf t key + 1
  { t with arrived := t.arrived.filter (fun a => a.1 ≠ key) ++ [(key, n)] }

/-- Count an arrival that has waited, and release the generations that it completes: those above what was released while it
still waited (R180). -/
def countArrival (s : State) (core ctx : Nat) (a : Nat × Nat × Nat) : State :=
  let key := (a.1, a.2.1)
  let s' := withCtx s core ctx (fun c => { c with arrivals := c.arrivals.erase a })
  match taskOf s core ctx with
  | none => s'
  | some (lid, l, n, t) =>
    let t' := addArrival t key
    let l' := { l with tasks := l.tasks.set n t' }
    let s' := { s' with launches := Tbl.put s'.launches lid l' }
    flagGroup s' lid l' t' key (releasedGen s l t key) (releasedGen s' l' t' key)

/-- A task's `done` completes the generations that waited for it alone; `s0` is the state before it (R180). -/
def releaseAfterDone (s0 s : State) (core ctx : Nat) : State :=
  match taskOf s core ctx with
  | none => s
  | some (lid, l, _, t) =>
    let members := l.tasks.filter (fun u => u.comm == t.comm && !taskDone s u)
    let keys := ((members.flatMap (fun u => u.arrived.map (·.1))).eraseDups).filter (fun key =>
      members.any (fun u => sameGroup key.1 t u))
    keys.foldl (fun s key =>
      match members.find? (fun u => sameGroup key.1 t u) with
      | some u => flagGroup s lid l u key (releasedGen s0 l u key) (releasedGen s l u key)
      | none => s) s

/-- Every request of a context numbered below `before` has performed (R180, R241). -/
def drained (s : State) (core ctx before : Nat) : Bool :=
  !(s.reqs.any (fun r => r.directOf core ctx && !r.performed && decide (r.id < before)))

/-- The scope at which a direct access counts as performed before it does at its home: none for other accesses than loads and
stores of the device's memory, and none beyond the device (R335). -/
def earlyScope (r : Req) : Nat :=
  let direct := match r.kind with | .store _ | .load _ => true | _ => false
  if direct && r.pas.all (fun a => match regionOf a with | .hbm _ => true | _ => false) then min 4 (Config.earlyScope r.id) else 0

/-- Every request of a context numbered below `before` has performed at a scope: at its home, or as early as the device may
complete a drain at that scope (R335, R339, R342). -/
def drainedAt (s : State) (core ctx scope before : Nat) : Bool :=
  !(s.reqs.any (fun r => r.directOf core ctx && !r.performed && decide (r.id < before ∧ earlyScope r < max 1 scope)))

/-- Two cores lie within one scope (R60). -/
def withinScope (scope a b : Nat) : Bool :=
  match scope with
  | 0 => false
  | 1 => a == b
  | 2 => clusterOf a == clusterOf b
  | 3 => dieOf a == dieOf b
  | _ => true

/-- A party cannot yet be told of what a context did before: an access of the context's counts as performed at a scope that
covers the party and has still to perform at its home (R335, R342). -/
def edgeHeld (s : State) (core ctx party : Nat) : Bool :=
  s.reqs.any (fun r => r.directOf core ctx && !r.performed && withinScope (earlyScope r) core party)

/-- Count the arrivals of a context whose earlier accesses have performed (R180). -/
def settleArrivals (s : State) (core ctx : Nat) : State :=
  ((ctxOf s core ctx).arrivals.filter (fun a => drained s core ctx a.2.2)).foldl (fun s a => countArrival s core ctx a) s

/-- `rte` completes: the handler's pending writes become visible, the service context is free and the frozen context runs
again (R143, R189). A row merge buffer that context 4 still owns is freed and its contents discarded, as R317 says of `done`,
`halt` and a handler's `done`; it does not name `rte` (DESIGN CHOICE, log 129). -/
def finishRte (s : State) (core k : Nat) : State := returnFromTrap (freeService (flush s core 4) core) core k

/-- An `rte` completes once the handler's direct accesses have performed (R360). -/
def settleReturn (s : State) (core : Nat) : State :=
  match (ctxOf s core 4).status with
  | .returning k => if drained s core 4 s.nextReq then finishRte s core k else s
  | _ => s

/-- Count every arrival of the device whose earlier accesses have performed (R180), and complete every `rte` that waited
for its handler's accesses (R360). -/
def settleWaiting (s : State) : State :=
  let s := (s.cores.flatMap (fun k => (k.2.ctxs.filter (fun c => c.2.arrivals != [])).map (fun c => (k.1, c.1)))).foldl
    (fun s p => settleArrivals s p.1 p.2) s
  (s.cores.map (·.1)).foldl settleReturn s

/-- An event in which requests perform: the arrivals and the `rte` that waited for them count (R180, R360). -/
def performing (r : Host.Outcome State Fault Refusal) : Host.Outcome State Fault Refusal :=
  match r with
  | .next s => .next (settleWaiting s)
  | r => r

/-- The latest arrival of a context at a barrier has been released (R181). -/
def barrierOpen (s : State) (core ctx : Nat) (key : Nat × Nat) : Bool :=
  !((ctxOf s core ctx).arrivals.any (fun a => (a.1, a.2.1) = key)) &&
    (match taskOf s core ctx with
     | none => true
     | some (_, l, _, t) => arrivalsOf t key ≤ releasedGen s l t key)

/-- Arrive: f8 clears at issue, and the arrival waits for the context's earlier accesses (R180). -/
def arrive (s : State) (level id : Nat) : Except Stop State :=
  match taskOf s s.cur.1 s.cur.2 with
  | none => illegalCtl s
  | some (_, l, _, _) =>
    if s.cur.2 = 4 ∨ declaredLevels l < level then illegalCtl s
    else if !barrierOpen s s.cur.1 s.cur.2 (level, id) then .error .hold
    else
      let s := stageClr s 0x100
      .ok (withMe s (fun c => { c with arrivals := c.arrivals ++ [(level, id, reqBefore s)] }))

/-- Wait for the latest arrival's release (R181). -/
def awaitBarrier (s : State) (level id : Nat) : Except Stop State :=
  match taskOf s s.cur.1 s.cur.2 with
  | none => illegalCtl s
  | some (_, l, _, _) =>
    if s.cur.2 = 4 ∨ declaredLevels l < level then illegalCtl s
    else .ok (withMe s (fun c => { c with waits := c.waits ++ [.barrier level id] }))

/-- `barArr`: Arrive at a barrier (R180). -/
def slotBarArr (_scope level : BitVec 3) (id : BitVec 4) (s : State) : Except Stop State :=
  arrive s level.toNat id.toNat

def execBarArr (_scope level : BitVec 3) (id : BitVec 4) (s : State) : Host.Outcome State Fault Refusal := settle s (slotBarArr _scope level id s)

/-- `barWt`: Wait at a barrier (R181). -/
def slotBarWt (level : BitVec 3) (id : BitVec 4) (s : State) : Except Stop State :=
  awaitBarrier s level.toNat id.toNat

def execBarWt (level : BitVec 3) (id : BitVec 4) (s : State) : Host.Outcome State Fault Refusal := settle s (slotBarWt level id s)

/-- `bar`: Arrive and wait (R181). -/
def slotBar (_scope level : BitVec 3) (id : BitVec 4) (s : State) : Except Stop State := do
  let s ← arrive s level.toNat id.toNat
  awaitBarrier s level.toNat id.toNat

def execBar (_scope level : BitVec 3) (id : BitVec 4) (s : State) : Host.Outcome State Fault Refusal := settle s (slotBar _scope level id s)

/-! ### Flags (R183 to R185) -/

/-- `flagSet`: Set flags of the issuing context (R183). -/
def slotFlagSet (mask : Byte) (s : State) : Except Stop State :=
  .ok (stageSet s (mask.setWidth 16))

def execFlagSet (mask : Byte) (s : State) : Host.Outcome State Fault Refusal := settle s (slotFlagSet mask s)

/-- `flagSetCore`: Set flags of a context of the core (R183, R184). -/
def slotFlagSetCore (a : Reg) (mask : Byte) (s : State) : Except Stop State := do
  let x ← readS s a
  let c := me s
  let target := ctxidOf s.device c.asid s.cur.1 (x.extractLsb' 0 3).toNat
  .ok { s with fly := { s.fly with sends := s.fly.sends ++ [(target, mask)] } }

def execFlagSetCore (a : Reg) (mask : Byte) (s : State) : Host.Outcome State Fault Refusal := settle s (slotFlagSetCore a mask s)

/-- `flagSetRmt`: Set flags of any context by a flag packet (R183, R184). -/
def slotFlagSetRmt (a : Reg) (sl : BitVec 4) (mask : Byte) (s : State) : Except Stop State := do
  let x ← readS s a
  .ok (pushReq s (.flag x mask) [] (slackOf s sl) ⟨0, false, false⟩ [] 4 (ctxidCore x) (x.extractLsb' 32 10).toNat 0
    (BitVec.ofNat 32 (mask.toNat + 256 * (x.extractLsb' 0 3).toNat)) [])

def execFlagSetRmt (a : Reg) (sl : BitVec 4) (mask : Byte) (s : State) : Host.Outcome State Fault Refusal := settle s (slotFlagSetRmt a sl mask s)

/-- `flagClr`: Clear flags of the issuing context (R185). -/
def slotFlagClr (mask : BitVec 16) (s : State) : Except Stop State :=
  .ok (stageClr s (clearable mask))

def execFlagClr (mask : BitVec 16) (s : State) : Host.Outcome State Fault Refusal := settle s (slotFlagClr mask s)

/-! ### Control registers (R40 to R55, R186) -/

/-- Header word of a pattern slot (R55). -/
def patternHeader (p : Pattern) : Word :=
  BitVec.ofNat 64 (if p.valid then 2 ^ 14 + p.fields.length * 256 + p.period else 0)

/-- The value of a named control register; none for an unassigned number (R40). -/
def ctlRead (s : State) (crn : Nat) : Option Word :=
  let c := me s
  let k := here s
  if crn = 0x00 then some c.shape
  else if crn = 0x01 then some c.live
  else if crn = 0x02 then some (seedBefore s ++ (0 : BitVec 29) ++ c.rndMode)
  else if crn = 0x03 then some c.swapth
  else if crn = 0x04 then some (k.age.setWidth 64)
  else if crn = 0x05 then some k.trcctl
  else if crn = 0x06 then some (s.hyst.setWidth 64)
  else if crn = 0x07 then some ((0 : BitVec 32) ++ c.pinUsed ++ c.pinCap)
  else if crn = 0x08 then some c.ten
  else if crn = 0x09 then some c.ctxid
  else if 0x10 ≤ crn ∧ crn ≤ 0x15 then some ((Tbl.look 0 c.dlt (crn - 0x10)).signExtend 64)
  else if 0x18 ≤ crn ∧ crn ≤ 0x1F then some (Tbl.look 0 c.tc (crn - 0x18))
  else if 0x20 ≤ crn ∧ crn ≤ 0x2F then some ((Tbl.look 0x3FF c.slkt (crn - 0x20)).setWidth 64)
  else if 0x30 ≤ crn ∧ crn ≤ 0x37 then some (patternHeader (Tbl.look Pattern.init c.patterns (crn - 0x30)))
  else if 0x38 ≤ crn ∧ crn ≤ 0x3B then some ((Tbl.look LoopCtr.init c.loops (crn - 0x38)).count.setWidth 64)
  else none

/-- What a write of a control register does at its latency: an ignored register gives nothing (R10, R40, R186). -/
def ctlWrites (supervisor : Bool) (crn : Nat) (v : Word) : List Write :=
  if 0x38 ≤ crn ∧ crn ≤ 0x3B then [.count (crn - 0x38) (v.extractLsb' 0 32)]
  else if crn = 0x09 ∨ (0x18 ≤ crn ∧ crn ≤ 0x1F) ∨ (0x30 ≤ crn ∧ crn ≤ 0x37) then []
  else if 0x04 ≤ crn ∧ crn ≤ 0x07 ∧ supervisor = false then []
  else [.ctl crn v]

/-- Values of a core or device register that the executing context may still read, because another context replaced
them less than 16 cycles ago (R41). -/
def olderValues (s : State) (crn : Nat) : List Word :=
  if 0x04 ≤ crn ∧ crn ≤ 0x06 then
    (s.shared.filter (fun e => e.crn == crn && (crn == 0x06 || e.core == s.cur.1) && (e.core, e.ctx) != s.cur &&
      decide (s.time < e.till))).map (·.old)
  else []

/-- One of the values that a reader may get: an older one where the free choice says so, else the present one (R41). -/
def seenValue (n : Nat) (v : Word) : List Word → Word
  | [] => v
  | o :: l => if Config.earlierRegister n then o else seenValue (n + 1) v l

/-- `ctlRd`: Read a named control register (R41, R186). -/
def slotCtlRd (a : Reg) (crn : Byte) (s : State) : Except Stop State :=
  match ctlRead s crn.toNat with
  | some v =>
    let l := olderValues s crn.toNat
    .ok (result { s with fresh := s.fresh + l.length } 2 (.scalar a.toNat (seenValue s.fresh v l)))
  | none => illegalCtl s

def execCtlRd (a : Reg) (crn : Byte) (s : State) : Host.Outcome State Fault Refusal := settle s (slotCtlRd a crn s)

/-- `ctlWr`: Write a named control register (R186). -/
def slotCtlWr (a : Reg) (crn : Byte) (s : State) : Except Stop State := do
  let x ← readS s a
  match ctlRead s crn.toNat with
  | some _ => .ok (results s 2 (ctlWrites (s.cur.2 = 4) crn.toNat x))
  | none => illegalCtl s

def execCtlWr (a : Reg) (crn : Byte) (s : State) : Host.Outcome State Fault Refusal := settle s (slotCtlWr a crn s)

/-! ### Pre-emption points, traps and return (R187 to R189, R511, R512) -/

/-- The bytes at a virtual address as the save engine reads a liveness record; none when a byte cannot be read (R511). A
byte outside the device counts as one that cannot (DESIGN CHOICE, Assumption 105). -/
def readRecord (s : State) (core ctx : Nat) (va n : Nat) : Option (List Byte) :=
  match (translateSpan s (tableFor s core ctx) (ctxOf s core ctx).asid va n []).bind (resolveSpan s []) with
  | .ok pas =>
    if pas.any (isOutside s) || (carveAt s pas).isSome || pas.any (fun a => !reachable s a) then none
    else some (pas.map (memByte s.mem))
  | .error _ => none

/-- Virtual addresses of a context at which a physical byte appears. -/
def virtualsOf (s : State) (core ctx pa : Nat) : List Nat :=
  let asid := (ctxOf s core ctx).asid
  (directoryOf s asid ++ ((tableFor s core ctx).filter (fun e => e.asid == asid)).map (·.desc)).filterMap (fun d => (unitBehind d (pa / 4096)).map (fun vp => 4096 * vp + pa % 4096))

/-- The pool whose guard stands at a virtual address holds a record of `n` bytes (R112, R155). -/
def poolHolds (s : State) (core ctx : Nat) (va n g : Nat) : Bool :=
  match readRecord s core ctx g 16 with
  | some b =>
    isPoolGuard (BitVec.ofNat 64 (ofBytes (b.take 8))) &&
      decide (g + 16 ≤ va ∧ va + n ≤ g + 16 + ofBytes (b.drop 8))
  | none => false

/-- A record lies in a pool: some guard stands before it whose pool is long enough (R155, R511; Assumption 105). A guard's
first byte is 0xFF. -/
def inPool (s : State) (core ctx : Nat) (va n : Nat) : Bool :=
  s.mem.any (fun c => c.2 == 0xFF && c.1 % 8 == 0 &&
    (virtualsOf s core ctx c.1).any (poolHolds s core ctx va n))

/-- A liveness record (R511). -/
structure Liveness where
  smask : Word
  tmask : Word
  qmask : Byte
  pmask : Byte
  ranges : List (Nat × Nat)
deriving DecidableEq, Repr

/-- A word of a record's bytes. -/
def wordAt (b : List Byte) (k : Nat) : Word := BitVec.ofNat 64 (ofBytes ((b.drop (8 * k)).take 8))

/-- The liveness record at an address, when it is valid (R511). -/
def livenessAt (s : State) (core ctx : Nat) (va : Word) : Option Liveness :=
  if va.extractLsb' 0 3 ≠ 0 then none
  else
    match readRecord s core ctx va.toNat 24 with
    | none => none
    | some h =>
      let w2 := wordAt h 2
      let n := (w2.extractLsb' 4 4).toNat
      if w2.extractLsb' 0 4 ≠ 1 ∨ 8 < n ∨ w2.extractLsb' 24 40 ≠ 0 then none
      else
        match readRecord s core ctx (va.toNat + 24) (8 * n) with
        | none => none
        | some b =>
          let ws := (List.range n).map (wordAt b)
          let rs := ws.map (fun w => ((w.extractLsb' 0 22).toNat, (w.extractLsb' 24 22).toNat))
          let c := ctxOf s core ctx
          let tm := wordAt h 1
          if inPool s core ctx va.toNat (24 + 8 * n) && ws.all (fun w => w.extractLsb' 46 18 = 0 && w.extractLsb' 22 2 = 0) &&
              rs.all (fun r => decide (r.1 % 64 = 0 ∧ r.2 % 64 = 0 ∧ 0 < r.2 ∧ r.1 + r.2 ≤ Config.spmBytes)) &&
              (List.range 64).all (fun i => !tm.getLsbD i || decide (i < c.wsize))
          then some { smask := wordAt h 0, tmask := tm, qmask := w2.extractLsb' 16 8, pmask := w2.extractLsb' 8 8,
                      ranges := rs }
          else none

/-- `prePt`: A pre-emption point (R187, R512). -/
def slotPrePt (off : Imm) (s : State) : Except Stop State :=
  let va := relTarget s off
  if s.cur.2 = 4 then .ok s
  else
    let s := match livenessAt s s.cur.1 s.cur.2 va with
      | some _ => withMe s (fun c => { c with liveRec := some va })
      | none => s
    .ok (if (me s).flags.getLsbD 15 then { s with fly := { s.fly with save := some va } } else s)

def execPrePt (off : Imm) (s : State) : Host.Outcome State Fault Refusal := settle s (slotPrePt off s)

/-- `trap`: A stop after the bundle (R188). -/
def slotTrap (code : BitVec 16) (s : State) : Except Stop State :=
  let t : TrapInfo := { cause := causeTrapInsn, addr := s.fly.ba.setWidth 64, detail := code.setWidth 64, index := 0,
                        engine := 0, slot := 5, cseq := 0, estat := 0 }
  .ok { s with fly := { s.fly with stop := some t } }

def execTrap (code : BitVec 16) (s : State) : Host.Outcome State Fault Refusal := settle s (slotTrap code s)

/-- `rte`: Return from a trap (R189, R360). -/
def slotRte (a : Reg) (s : State) : Except Stop State := do
  let x ← readS s a
  if s.cur.2 ≠ 4 then trapping causePriv 0 5 (s.fly.ba.setWidth 64) 0x22 else .ok ()
  let k := (x.extractLsb' 0 3).toNat
  if (here s).service = some (.handler k) ∧ k < 4 then
    if drained s s.cur.1 4 (reqBefore s) then
      .ok { s with fly := { s.fly with rte := some k, noBackEdge := true } }
    else .error .hold
  else illegalCtl s

def execRte (a : Reg) (s : State) : Host.Outcome State Fault Refusal := settle s (slotRte a s)

/-! ### Fetch fence, toll, trace mark, nop (R190 to R192) -/

/-- `ifence`: Later bundles are fetched after it (R190). -/
def slotIfence (s : State) : Except Stop State :=
  .ok { s with fly := { s.fly with fence := true } }

def execIfence (s : State) : Host.Outcome State Fault Refusal := settle s (slotIfence s)

/-- Insert into a list ordered by `le`, after equal elements. -/
def insertBy {α : Type} (le : α → α → Bool) (x : α) : List α → List α
  | [] => [x]
  | y :: l => if le y x then y :: insertBy le x l else x :: y :: l

/-- Move units from a core's balance to its outstanding requests, oldest first; a request that is covered sets f14
(R191, R425). -/
def settleToll (s : State) (core : Nat) : State :=
  let order := (List.range 5).filter (fun k => 0 < (ctxOf s core k).tollWant)
  let sorted := order.foldl (fun l k => insertBy (fun a b => (ctxOf s core a).tollAge ≤ (ctxOf s core b).tollAge) k l) []
  sorted.foldl (fun s k =>
    let c := ctxOf s core k
    let m := min (coreOf s core).balance c.tollWant
    let s := withCore s core (fun x => { x with balance := x.balance - m })
    let s := setCtx s core k { c with tollWant := c.tollWant - m, tollHave := c.tollHave + m }
    if 0 < m ∧ c.tollWant = m then setFlags s core k 0x4000 else s) s

/-- Cancel a context's request; its reservation returns to the balance (R191, R425). -/
def cancelToll (s : State) (core ctx : Nat) : State :=
  let c := ctxOf s core ctx
  let s := withCore s core (fun x => { x with balance := min 4096 (x.balance + c.tollHave) })
  settleToll (withCtx s core ctx (fun c => { c with tollWant := 0, tollHave := 0 })) core

/-- `toll`: Ask the toll unit for energy (R191). -/
def slotToll (a : Reg) (amount : BitVec 24) (s : State) : Except Stop State := do
  let n ←
    if a = 0 then (.ok amount.toNat : Except Stop Nat)
    else do
      let x ← readS s a
      .ok (x.extractLsb' 0 24).toNat
  if n = 0 then .ok (cancelToll s s.cur.1 s.cur.2)
  else
    .ok (withMe s (fun c =>
      { c with tollAge := if c.tollWant = 0 then s.time else c.tollAge, tollWant := c.tollWant + n }))

def execToll (a : Reg) (amount : BitVec 24) (s : State) : Host.Outcome State Fault Refusal := settle s (slotToll a amount s)

/-- `trcMk`: A trace mark (R192). -/
def slotTrcMk (payload : BitVec 16) (s : State) : Except Stop State :=
  .ok { s with fly := { s.fly with marks := s.fly.marks ++ [(1, payload.setWidth 64)] } }

def execTrcMk (payload : BitVec 16) (s : State) : Host.Outcome State Fault Refusal := settle s (slotTrcMk payload s)

/-- `nop`: No effect (R192). -/
def slotNop (s : State) : Except Stop State :=
  .ok s

def execNop (s : State) : Host.Outcome State Fault Refusal := settle s (slotNop s)

end Sys2Proof.Machine
end

