-- ==== Sys2Proof/Machine/Desc.lean ====
section
/-! DEFINITION. Tensor descriptors (R218 to R221). -/

namespace Sys2Proof.Machine

/-- A tensor descriptor's fields (R218); dimensions 0 to 3. -/
structure TensorDesc where
  valid : Bool
  rank : Nat
  tag : Nat
  base : Nat
  size : List Nat
  stride : List Int
  bsp : Bool
  bbase : Nat
  ssp : Bool
  sbase : Nat
deriving DecidableEq, Repr

/-- The fields of a 64-byte image (R218). -/
def tensorOf (d : BitVec 512) : TensorDesc :=
  { valid := d.getLsbD 63, rank := (d.extractLsb' 60 3).toNat, tag := (d.extractLsb' 56 4).toNat
    base := (d.extractLsb' 0 56).toNat
    size := (List.range 4).map (fun k => (d.extractLsb' (64 + 32 * k) 32).toNat)
    stride := (List.range 3).map (fun k => (d.extractLsb' (192 + 64 * k) 64).toInt)
    bsp := d.getLsbD 447, bbase := (d.extractLsb' 384 56).toNat
    ssp := d.getLsbD 511, sbase := (d.extractLsb' 448 56).toNat }

/-- The descriptor in the 64 bytes of a list. -/
def descOfBytes (b : List Byte) : BitVec 512 := BitVec.ofNat 512 (ofBytes b)

/-- Extent of dimension `k`, counting an absent dimension as one (R218). -/
def TensorDesc.extent (t : TensorDesc) (k : Nat) : Nat := max 1 ((t.size[k]?).getD 1)

/-- Lines of dimension 0: every (i1, i2, i3) in traversal order (R219). -/
def TensorDesc.lines (t : TensorDesc) : Nat := t.extent 1 * t.extent 2 * t.extent 3

/-- Bytes of one line, rounded up (R220). -/
def TensorDesc.lineBytes (t : TensorDesc) : Nat := ceilDiv ((t.size[0]?).getD 0 * elemBits t.tag) 8

/-- Address of line `l`'s first element (R219), as an exact integer. -/
def TensorDesc.lineAddr (t : TensorDesc) (l : Nat) : Int :=
  let i1 := l % t.extent 1
  let i2 := l / t.extent 1 % t.extent 2
  let i3 := l / t.extent 1 / t.extent 2
  (t.base : Int) + i1 * (t.stride[0]?).getD 0 + i2 * (t.stride[1]?).getD 0 + i3 * (t.stride[2]?).getD 0

/-- Blocks of 64 elements, the length of the flat block index (R219). -/
def TensorDesc.blocks (t : TensorDesc) : Nat := t.lines * ((t.size[0]?).getD 0 / 64)

/-- The descriptor that covers an address for a party, as one range-table entry or one walk gives it (R371). -/
def rangeAt (s : State) (p : Party) (va : Int) : Option (BitVec 256) :=
  if 0 ≤ va ∧ va < 2 ^ 56 then
    match lookup (tableFor s p.core p.ctx) p.asid (va.toNat / 4096) with
    | some d => some d
    | none => (walk s p.asid (va.toNat / 4096)).map (·.1)
  else none

/-- Bytes `lo` to `hi` lie in the one range that contains `at` (R220). -/
def inOneRange (s : State) (p : Party) (at_ lo hi : Int) : Bool :=
  match rangeAt s p at_ with
  | none => false
  | some d => decide ((dVbase d : Int) * 4096 ≤ lo ∧ hi < ((dVbase d : Int) + dLen d) * 4096)

/-- Lowest and highest byte of the elements (R220, check 4). -/
def TensorDesc.span (t : TensorDesc) : Int × Int :=
  let reach := (List.range 3).map (fun k => ((t.extent (k + 1) : Int) - 1) * (t.stride[k]?).getD 0)
  ((t.base : Int) + (reach.map (fun r => min 0 r)).sum,
   (t.base : Int) + (reach.map (fun r => max 0 r)).sum + t.lineBytes - 1)

/-- The checks of `td.mk` in order: the number of the first that fails (R220). -/
def tensorCheck (s : State) (p : Party) (t : TensorDesc) : Option Nat :=
  if !decide (1 ≤ t.rank ∧ t.rank ≤ 4 ∧ 1 ≤ t.tag ∧ t.tag ≤ 11) then some 1
  else if !((List.range 4).all (fun k => if k < t.rank then decide (1 ≤ (t.size[k]?).getD 0) else t.size[k]? == some 0) &&
      (List.range 3).all (fun k => decide (k + 1 < t.rank) || t.stride[k]? == some 0) &&
      (!isScaled t.tag || (t.size[0]?).getD 0 % 64 == 0)) then some 2
  else if t.base % max 1 (elemBits t.tag / 8) ≠ 0 then some 3
  else if !inOneRange s p t.base t.span.1 t.span.2 then some 4
  else if (t.bsp && !inOneRange s p t.bbase t.bbase (t.bbase + max 1 t.blocks - 1)) ||
      (t.ssp && !inOneRange s p t.sbase t.sbase (t.sbase + max 1 (4 * ceilDiv t.blocks 256) - 1)) then some 5
  else none

/-- `tdMk`: Validate a template (R220). -/
def slotTdMk (t a b : Reg) (sp : Bool) (h : Hint) (s : State) : Except Stop State := do
  let dst ← readS s a
  let src ← readS s b
  opRoom s
  aligned 2 2 dst 64
  spmBounds 2 2 dst.toNat 64
  spmBounds 2 2 src.toNat (if sp then 64 else 0)
  startOp s { newOp s (.tdMk t a b sp h) t with a := dst, b := src, slk := slackOf s h.sl, nums := [if sp then 1 else 0] }

def execTdMk (t a b : Reg) (sp : Bool) (h : Hint) (s : State) : Host.Outcome State Fault Refusal := settle s (slotTdMk t a b sp h s)

/-- The work of `td.mk`: read, check and write (R220). The image written is the template's 64 bytes with VALID set: the spec does not
say what becomes of the template's reserved bits, which the model copies (DESIGN CHOICE, log 125). -/
def tdMkChunk (s : State) (o : Op) (_ : Nat) : Except OpErr (State × Op) := do
  let (b, s) ← engineRead s o.party (o.nums == [1]) o.b.toNat 64 [permRd]
  let d := descOfBytes b
  match tensorCheck s o.party (tensorOf d) with
  | some n => .error (.fail causeTd o.b (BitVec.ofNat 64 n) 0)
  | none => do
    let s ← engineWrite s o true o.a.toNat (toBytes 64 (d ||| (1#512 <<< 63)).toNat) []
    .ok (s, o)

/-- `tdRel`: Release a descriptor (R221). -/
def slotTdRel (a : Reg) (off : Imm) (s : State) : Except Stop State := do
  let x ← readS s a
  let addr := effAddr x off
  aligned 2 2 addr 64
  spmLocal s 2 2 addr.toNat 64
  .ok (result s 1 (.tdInvalid addr.toNat))

def execTdRel (a : Reg) (off : Imm) (s : State) : Host.Outcome State Fault Refusal := settle s (slotTdRel a off s)

end Sys2Proof.Machine
end

