-- ==== Sys2Proof/Machine/Fabric.lean ====
section
/-! DEFINITION. Fabric transfers and arrival counters (R242 to R250, R453, R454). -/

namespace Sys2Proof.Machine

/-! ### Arrival target words and resolution (R242, R243, R246) -/

def atwEn (w : Word) : Bool := w.getLsbD 63
def atwRow (w : Word) : Nat := (w.extractLsb' 48 10).toNat
def atwDevice (w : Word) : Nat := (w.extractLsb' 32 10).toNat
def atwCtr (w : Word) : Nat := (w.extractLsb' 12 4).toNat
def atwCore (w : Word) : Nat := ctxidCore w

/-- A core runs or holds saved a task of the launch with this COOKIE (R246, R564). -/
def coreRuns (s : State) (core : Nat) (cookie : BitVec 64) : Bool :=
  (List.range 5).any (fun k =>
    ((ctxOf s core k).task.isSome && cookieOf s core k == cookie) || (savedAt s core k cookie).isSome)

/-- The suspended launch of a COOKIE, which holds the counters of its cores (R66, R420). -/
def suspendedLaunch (s : State) (cookie : BitVec 64) : Option (Nat × Launch × Suspended) :=
  s.launches.findSome? (fun l =>
    if l.2.entry.extractLsb' 0 64 = cookie then l.2.susp.map (fun k => (l.1, l.2, k)) else none)

/-- An arrival counter of a core as the launch of a COOKIE has it: the core's, or the saved one (R66, R420). -/
def counterAt (s : State) (core ctr : Nat) (cookie : BitVec 64) : Arrival :=
  match suspendedLaunch s cookie with
  | some (_, _, k) => Tbl.look Arrival.init (Tbl.look [] k.ctrs core) ctr
  | none => Tbl.look Arrival.init (coreOf s core).ctrs ctr

def putCounter (s : State) (core ctr : Nat) (cookie : BitVec 64) (c : Arrival) : State :=
  match suspendedLaunch s cookie with
  | some (lid, l, k) =>
    let ctrs := Tbl.put k.ctrs core (Tbl.put (Tbl.look [] k.ctrs core) ctr c)
    { s with launches := Tbl.put s.launches lid { l with susp := some { k with ctrs := ctrs } } }
  | none => withCore s core (fun k => { k with ctrs := Tbl.put k.ctrs ctr c })

/-- Resolve a row at a counter (R246): whether it was counted; none when it is discarded. -/
def resolveRow (s : State) (atw : Word) (row : Nat) (cookie : BitVec 64) : State × Option Bool :=
  let core := atwCore atw
  if atwDevice atw ≠ s.device.toNat ∨ !coreRuns s core cookie then (logEvent s (.badResolution atw), none)
  else
    let c := counterAt s core (atwCtr atw) cookie
    if c.bitmap.getLsbD row then
      let s := logEvent s (.rowDup cookie core (atwCtr atw) row)
      let s := traceEvent s core 3 7 4 (BitVec.ofNat 64 (row * 2 ^ 32))
      (traceTrigger s core 3 7, some false)
    else
      let c' := { c with bitmap := c.bitmap ||| (1#1024 <<< row), count := c.count + 1 }
      (putCounter s core (atwCtr atw) cookie c', some true)

/-- An arrival target word with another row. -/
def withRow (atw : Word) (row : Nat) : Word :=
  (atw &&& ~~~ (0x3FF#64 <<< 48)) ||| (BitVec.ofNat 64 (row % 1024) <<< 48)

/-- A row whose write has performed on this device resolves at a counter of another device of the domain: the resolution
travels as an arrival resolution that no context issues, from the destination's port (R246; DESIGN CHOICE, Assumption
89). -/
def sendResolution (s : State) (src : Nat) (atw : Word) (cookie : BitVec 64) : State :=
  let id := s.nextReq
  let o : Origin := ⟨id, src, 7, cookie, netSlackOf s src, 0⟩
  sendPacket { s with nextReq := id + 1 }
    (netPacket s id (newPacket s o 6 (atwCore atw) (atwDevice atw) 0 0 atw []) [] none)

/-- Row `i` of a transfer resolves row (ROW + i) mod 1,024 when EN is set (R245, R246). -/
def resolveTransfer (s : State) (src : Nat) (atw : Word) (i : Nat) (cookie : BitVec 64) : State :=
  if !atwEn atw then s
  else if atwDevice atw = s.device.toNat then (resolveRow s atw ((atwRow atw + i) % 1024) cookie).1
  else sendResolution s src (withRow atw (atwRow atw + i)) cookie

/-! ### `put`, `get` (R244, R245) -/

/-- Issue of `put` and `get`: alignment, and the bytes of the scratchpad side (R193, R196, R245). -/
def startRows (s : State) (o : Op) (dst src atw : Word) (dspm sspm : Bool) (rows : BitVec 7) : Except Stop State := do
  opRoom s
  aligned 2 2 dst 64
  aligned 2 2 src 64
  spmBounds 2 2 dst.toNat (if dspm then 512 * rows.toNat else 0)
  spmBounds 2 2 src.toNat (if sspm then 512 * rows.toNat else 0)
  startOp s { o with a := dst, b := src, c := atw, nums := [rows.toNat, if dspm then 1 else 0, if sspm then 1 else 0] }

/-- `put`: Send rows (R245). -/
def slotPut (t a b c : Reg) (ss : Bool) (rows : BitVec 7) (sl : BitVec 4) (s : State) : Except Stop State := do
  let dst ← readS s a
  let src ← readS s b
  let atw ← readS s c
  startRows s { newOp s (.put t a b c ss rows sl) t with slk := slackOf s sl } dst src atw false ss rows

def execPut (t a b c : Reg) (ss : Bool) (rows : BitVec 7) (sl : BitVec 4) (s : State) : Host.Outcome State Fault Refusal := settle s (slotPut t a b c ss rows sl s)

/-- `get`: Fetch rows (R245). -/
def slotGet (t a b c : Reg) (ds : Bool) (rows : BitVec 7) (sl : BitVec 4) (s : State) : Except Stop State := do
  let dst ← readS s a
  let src ← readS s b
  let atw ← readS s c
  startRows s { newOp s (.get t a b c ds rows sl) t with slk := slackOf s sl } dst src atw ds false rows

def execGet (t a b c : Reg) (ds : Bool) (rows : BitVec 7) (sl : BitVec 4) (s : State) : Host.Outcome State Fault Refusal := settle s (slotGet t a b c ds rows sl s)

/-! ### Neighbour links (R476, R477) -/

/-- The direction from a cluster to a neighbour: 0 north, 1 east, 2 south, 3 west (R476). -/
def directionTo (a b : Nat) : Option Nat :=
  if b = a + 4 then some 0
  else if b = a + 1 ∧ a / 4 = b / 4 then some 1
  else if a = b + 4 then some 2
  else if a = b + 1 ∧ a / 4 = b / 4 then some 3
  else none

/-- Cluster whose scratchpad apertures hold every byte of a virtual range. -/
def apertureCluster (s : State) (o : Op) (va n : Nat) : Option Nat :=
  let cl (p : Nat × Nat) : Option Nat :=
    match translateWith s (tableFor s o.core o.ctx) o.asid p.1 [permWr] with
    | .ok (pa, _) => (match regionOf pa with | .spm c _ => some (clusterOf c) | _ => none)
    | .error _ => none
  let l := (pieces (n / 4096 + 2) va n).map cl
  match l with
  | some c :: _ => if l.all (· == some c) then some c else none
  | _ => none

/-- The link that the packets of a `put` or `cp` take: from the issuing core's own scratchpad into apertures of one
neighbouring cluster (R477). -/
def linkFor (s : State) (o : Op) (va n : Nat) (ownSource : Bool) : Option Nat :=
  if ownSource then (apertureCluster s o va n).bind (directionTo (clusterOf o.core)) else none

/-- The party of a transfer, with its link. -/
def linkParty (s : State) (o : Op) (va n : Nat) (ownSource : Bool) : Party :=
  { o.party with link := linkFor s o va n ownSource }

/-! ### The rows of `put` and `get` (R245) -/

/-- The addresses of a row that goes to another device as one packet: all of it in that device's memory. -/
def remoteRow (s : State) (p : Party) (va : Nat) : Option (List Nat) :=
  match accessOf s p (writesAt p.seq p.tag va) with
  | some r => if r.pas.length = 512 then some r.pas else none
  | none =>
    match enginePas s p va 512 [permWr] with
    | .ok pas =>
      if pas == (List.range 512).map (fun i => pas.headD 0 + i) && isOutside s (pas.headD 0) &&
          decide (regionOf (pas.headD 0) = .domain ∧ deviceOf s (pas.headD 0) = deviceOf s (pas.headD 0 + 511))
      then some pas else none
    | .error _ => none

/-- Write a row at another device with one packet, which carries its arrival target word (R245, R464). A row that touches a
reduction target ends with RANGE_PERM (R480). -/
def writeRemoteRow (s : State) (p : Party) (va : Nat) (pas : List Nat) (b : List Byte) (atw : Word) : Except OpErr Unit :=
  match accessOf s p (writesAt p.seq p.tag va) with
  | some r => if landed s r then .ok () else .error .wait
  | none =>
    if pas.any (inTarget s) then .error (.fail causePerm (BitVec.ofNat 64 va) 0 0)
    else .error (.send { party := p, kind := .write p.seq p.tag va (pas.zip b), va := va, pas := pas, data := b, atw := atw, virt := true })

/-- One row of `put` or `get`: it resolves once its write has performed (R245). A `get` whose target word names another
device's counter ends with RANGE_PERM (R244). -/
def rowChunk (s : State) (o : Op) (k : Nat) : Except OpErr (State × Op) := do
  let dspm := (o.nums[1]?).getD 0 == 1
  let sspm := (o.nums[2]?).getD 0 == 1
  let isGet := match o.instr with | .get .. => true | _ => false
  let dst := o.a.toNat + 512 * k
  let p := linkParty s o o.a.toNat (512 * o.nums.headD 0) (sspm && !dspm)
  if isGet && atwEn o.c && atwDevice o.c != s.device.toNat then .error (.fail causePerm o.b 0 0) else .ok ()
  let (b, s) ← engineRead s o.party sspm (o.b.toNat + 512 * k) 512 [permRd]
  match (if dspm then none else remoteRow s p dst) with
  | some pas => do
    writeRemoteRow s p dst pas b (if atwEn o.c then withRow o.c (atwRow o.c + k) else 0)
    .ok (s, o)
  | none => do
    let s ← partyWrite s p dspm dst b [permWr]
    .ok (resolveTransfer s o.core o.c k o.cookie, o)

/-! ### `mcast` (R250) -/

/-- Clusters of the partition of the launch that a context works for (R399). -/
def partitionOf (s : State) (core ctx : Nat) : BitVec 16 :=
  match (ctxOf s core ctx).task with
  | none => 0
  | some t => match Tbl.find s.launches t.launch with
    | none => 0
    | some l => l.header.extractLsb' 332 16

/-- `mcast`: Write bytes to the same core of several clusters (R250). -/
def slotMcast (t a b c : Reg) (len : Imm20) (sl : BitVec 4) (s : State) : Except Stop State := do
  let dst ← readS s a
  let src ← readS s b
  let m ← readS s c
  opRoom s
  check (m.extractLsb' 16 48 = 0) (trapping causeIllegal 11 2 (s.fly.ba.setWidth 64) m)
  check (m.extractLsb' 0 16 &&& ~~~ (partitionOf s s.cur.1 s.cur.2) = 0) (trapping causeMcast 11 2 0 m)
  spmBounds 2 2 dst.toNat (if m = 0 then 0 else len.toNat)
  spmBounds 2 2 src.toNat (if m = 0 then 0 else len.toNat)
  startOp s { newOp s (.mcast t a b c len sl) t with a := dst, b := src, c := m, slk := slackOf s sl, nums := [len.toNat] }

def execMcast (t a b c : Reg) (len : Imm20) (sl : BitVec 4) (s : State) : Host.Outcome State Fault Refusal := settle s (slotMcast t a b c len sl s)

/-- Clusters that a mask names. -/
def maskClusters (m : Word) : List Nat := (List.range 16).filter (fun k => m.getLsbD k)

/-- The atomic units of the source of an `mcast` (R332). -/
def mcastUnits (o : Op) : List (Nat × Nat) := lines64 (o.nums.headD 0 / 64 + 2) o.b.toNat (o.nums.headD 0)

/-- Chunks of `mcast`: the first ones read the source once, each unit at a time of its own (R347); the next ones are the copies,
one per named cluster (R250). -/
def mcastChunk (s : State) (o : Op) (k : Nat) : Except OpErr (State × Op) :=
  match (mcastUnits o)[k]? with
  | some u => do
    let (b, s) ← engineRead s o.party true u.1 u.2 []
    .ok (s, { o with parts := Tbl.put o.parts k b })
  | none =>
    let us := List.range (mcastUnits o).length
    if !us.all (fun j => o.done.contains j) then .error .wait
    else
      match (maskClusters o.c)[k - us.length]? with
      | none => .ok (s, o)
      | some cl => do
        let peer := 8 * cl + o.core % 8
        let b := us.flatMap (fun j => Tbl.look [] o.parts j)
        engineSpm s peer o.a.toNat b.length
        physicalWrite s o.party (spmAddr peer o.a.toNat) b
        .ok (s, o)

/-! ### Arrival counters (R247 to R249) -/

/-- `acSet`: Set an arrival counter (R247). -/
def slotAcSet (t a : Reg) (watch : Bool) (ctr : BitVec 4) (s : State) : Except Stop State := do
  let x ← readS s a
  opRoom s
  let c : Arrival := { expect := x.extractLsb' 0 32, count := 0, bitmap := 0, watch := if watch then some s.cur.2 else none }
  let s' ← startOp s (newOp s (.acSet t a watch ctr) t)
  .ok (withHere s' (fun k => { k with ctrs := Tbl.put k.ctrs ctr.toNat c }))

def execAcSet (t a : Reg) (watch : Bool) (ctr : BitVec 4) (s : State) : Host.Outcome State Fault Refusal := settle s (slotAcSet t a watch ctr s)

/-- `acAdd`: Resolve a row at a counter (R248). -/
def slotAcAdd (t a : Reg) (sl : BitVec 4) (s : State) : Except Stop State := do
  let x ← readS s a
  opRoom s
  let o := { newOp s (.acAdd t a sl) t with a := x, slk := if atwEn x then slackOf s sl else 0x3FF }
  let s' ← startOp s o
  if atwEn x then
    let id := s'.nextReq
    .ok (sendNow { s' with nextReq := id + 1 } id 6 (atwCore x) (atwDevice x) 0 0 x [] o.slk (some o.key) none)
  else .ok s'

def execAcAdd (t a : Reg) (sl : BitVec 4) (s : State) : Host.Outcome State Fault Refusal := settle s (slotAcAdd t a sl s)

/-- `acWait`: Wait for a counter (R249). -/
def slotAcWait (ctr : BitVec 4) (s : State) : Except Stop State :=
  .ok (withMe s (fun c => { c with waits := c.waits ++ [.arrivals ctr.toNat] }))

def execAcWait (ctr : BitVec 4) (s : State) : Host.Outcome State Fault Refusal := settle s (slotAcWait ctr s)

/-! ### Completion -/

/-- Packets of a command that are still in the network. -/
def packetsOf (s : State) (o : Op) : Bool := s.packets.any (fun p => p.op = some o.key)

/-- The chunks of a fabric command. -/
def fabricChunks (o : Op) : List Nat :=
  match o.instr with
  | .put .. | .get .. => List.range (o.nums.headD 0)
  | .mcast .. => if o.nums.headD 0 = 0 ∨ maskClusters o.c = [] then [] else List.range ((mcastUnits o).length + (maskClusters o.c).length)
  | _ => []

/-- One chunk of a fabric command. -/
def fabricChunk (s : State) (o : Op) (k : Nat) : Except OpErr (State × Op) :=
  match o.instr with
  | .put .. | .get .. => rowChunk s o k
  | .mcast .. => mcastChunk s o k
  | _ => .ok (s, o)

/-- Token of a fabric command that completes (R245, R247, R248, R250, R291). -/
def fabricToken (o : Op) : Word :=
  match o.instr with
  | .put .. | .get .. => tokenOk (o.nums.headD 0)
  | .mcast .. => tokenOk (if o.nums.headD 0 = 0 then 0 else (maskClusters o.c).length)
  | .acAdd .. | .ntfX .. => tokenOk o.count
  | _ => tokenOk 0

def isFabricCommand : Instr → Bool
  | .put .. | .get .. | .mcast .. | .acSet .. | .acAdd .. | .ntfX .. => true
  | _ => false

/-- FABRIC_COMMAND_COMPLETE: every row, copy or packet has performed; the token is written (R245, R248, R250, R291). -/
def execFabricCommandComplete (core ctx seq : Nat) (s : State) : Host.Outcome State Fault Refusal :=
  match findOp s core ctx seq with
  | none => .next s
  | some o =>
    if isFabricCommand o.instr && !packetsOf s o then
      completeOp fabricChunk (fabricChunks o) (fun s o => finishOp s o (fabricToken o)) s o
    else .next s

end Sys2Proof.Machine
end

