-- ==== Sys2Proof/Machine/Pin.lean ====
section
/-! DEFINITION. Pin windows (R235, R236, R386 to R388). -/

namespace Sys2Proof.Machine

def pinAt (s : State) (w : Nat) : PinWin := Tbl.look PinWin.init s.pins w

/-- MiB of a length, rounded up (R235). -/
def mibOf (n : Nat) : Nat := ceilDiv n (2 ^ 20)

/-- A window is held by a task (R65). -/
def pinOf (w : PinWin) (r : TaskRef) : Bool := w.owner.isSome && w.launch == r.launch && w.task == r.task

/-- The task of a context, as a window remembers it. -/
def taskRefOf (c : Ctx) : TaskRef := c.task.getD { launch := 0, task := 0 }

/-- A window is held by the context's task. -/
def pinMine (w : PinWin) (core ctx : Nat) (c : Ctx) : Bool := w.owner == some (core, ctx) && pinOf w (taskRefOf c)

/-- MiB that a context already holds in a window (R235). -/
def heldMib (w : PinWin) (core ctx : Nat) (c : Ctx) : Nat := if pinMine w core ctx c then w.usedMib else 0

/-- A `pin` of a window by the executing context: the state with the window assigned and its lines rehomed; none when
it fails with PIN_CAP (R235, R388). -/
def assignPin (s : State) (n base len : Nat) (mask : BitVec 64) : Option State :=
  let w := pinAt s n
  let c := me s
  let used := c.pinUsed.toNat - heldMib w s.cur.1 s.cur.2 c + mibOf len
  if (w.owner.isSome && !pinMine w s.cur.1 s.cur.2 c) || decide (c.pinCap.toNat < used) then none
  else
    let w' : PinWin := { owner := some s.cur, launch := (taskRefOf c).launch, task := (taskRefOf c).task, asid := c.asid, base := base,
                         len := len, mask := mask, usedMib := mibOf len }
    some (rehome (withMe { s with pins := Tbl.put s.pins n w' } (fun c => { c with pinUsed := BitVec.ofNat 16 used })))

/-- `pin`: Assign a pin window (R235). -/
def slotPin (t a b c : Reg) (w : BitVec 3) (s : State) : Except Stop State := do
  let base ← readS s a
  let len ← readS s b
  let mask ← readS s c
  opRoom s
  aligned 2 2 base 4096
  let o := newOp s (.pin t a b c w) t
  match assignPin s w.toNat base.toNat len.toNat mask with
  | some s => startOp s { o with nums := [mibOf len.toNat, 0] }
  | none => startOp s { o with nums := [0x15, 1] }

def execPin (t a b c : Reg) (w : BitVec 3) (s : State) : Host.Outcome State Fault Refusal := settle s (slotPin t a b c w s)

/-- Release a window that a context holds (R236, R388). -/
def releasePin (s : State) (core ctx n : Nat) : State :=
  let w := pinAt s n
  if pinMine w core ctx (ctxOf s core ctx) then
    rehome (withCtx { s with pins := Tbl.put s.pins n PinWin.init } core ctx (fun c =>
      { c with pinUsed := c.pinUsed - BitVec.ofNat 16 w.usedMib }))
  else s

/-- Release every window that a context holds, as the end of its task does (R236). -/
def releasePins (s : State) (core ctx : Nat) : State := (List.range 8).foldl (fun s n => releasePin s core ctx n) s

/-- `unpin`: Release a pin window (R236). The manual states no count for a window that was held: a free value. -/
def slotUnpin (t : Reg) (w : BitVec 3) (s : State) : Except Stop State := do
  opRoom s
  let o := newOp s (.unpin t w) t
  if pinMine (pinAt s w.toNat) s.cur.1 s.cur.2 (me s) then
    startOp (releasePin { s with fresh := s.fresh + 1 } s.cur.1 s.cur.2 w.toNat)
      { o with nums := [(Config.unstatedCount s.fresh).toNat, 0] }
  else startOp s { o with nums := [0, 0] }

def execUnpin (t : Reg) (w : BitVec 3) (s : State) : Host.Outcome State Fault Refusal := settle s (slotUnpin t w s)

/-- Token of `pin` and `unpin` (R235, R236). -/
def pinToken (o : Op) : Word :=
  if (o.nums[1]?).getD 0 = 1 then tokenError (o.nums.headD 0) else tokenOk (o.nums.headD 0)

end Sys2Proof.Machine
end

