-- ==== Sys2Proof/Machine/Presence.lean ====
section
/-! DEFINITION. Key-value descriptors, presence maps and the requests to the fill engine (R251, R435 to R446). -/

namespace Sys2Proof.Machine

/-! ### The key-value descriptor (R435 to R438) -/

/-- Checks 1 to 4 of a descriptor: the number of the first that fails (R436). -/
def kvCheck (d : KvDesc) : Option Nat :=
  if !(d.valid && d.clean) then some 1
  else if !decide (1 ≤ d.nlayer ∧ 1 ≤ d.nslot) then some 2
  else if !decide (d.fkentry % 8 = 0 ∧ d.esbase % 512 = 0 ∧ d.pbase % 64 = 0 ∧ d.kvbase % 64 = 0 ∧ d.sstride % 64 = 0 ∧
      0 < d.sstride) then some 3
  else if !decide (d.sstride * d.nslot ≤ d.lstride ∧ 512 * (d.eschunk + 1) ≤ d.esstride) then some 4
  else none

/-- An end with cause KV_FILL (R436, R445, R500). -/
def kvFail (descVa : Word) (detail : Nat) : OpErr := .fail causeKv descVa (BitVec.ofNat 64 detail) 0

/-- cat(layer, slot) of a trap record (R445). -/
def pairDetail (l slot : Nat) : Nat := l * 2 ^ 32 + slot

/-- Index of the pair of a layer and slot (R438). -/
def pairIndex (d : KvDesc) (l slot : Nat) : Nat := l * (256 * ceilDiv d.nslot 256) + slot

/-- First byte of a slot record (R437). -/
def slotRecord (d : KvDesc) (l slot : Nat) : Nat := d.kvbase + l * d.lstride + slot * d.sstride

/-- The pairs that source bytes `[a, a + n)` cover, in ascending order (R437). -/
def coveredPairs (d : KvDesc) : Nat → Nat → Nat → List (Nat × Nat)
  | 0, _, _ => []
  | fuel + 1, a, n =>
    if n = 0 then []
    else if a < d.kvbase then
      let skip := min n (d.kvbase - a)
      coveredPairs d fuel (a + skip) (n - skip)
    else
      let off := a - d.kvbase
      let l := off / d.lstride
      let slot := off % d.lstride / d.sstride
      let next := min ((slot + 1) * d.sstride) d.lstride - off % d.lstride
      if d.nlayer ≤ l then []
      else
        let rest := coveredPairs d fuel (a + next) (n - min n next)
        if slot < d.nslot then (l, slot) :: rest else rest

/-! ### Pairs and their words (R438, R439) -/

/-- Virtual address of the map byte that holds a pair (R438). -/
def pairVa (d : KvDesc) (l slot : Nat) : Nat := d.pbase + pairIndex d l slot / 4

/-- Key of a pair: four times the physical address of its byte, plus its position (R446). -/
def pairKey (s : State) (p : Party) (d : KvDesc) (l slot : Nat) : Except OpErr Nat := do
  let pas ← enginePas s p (pairVa d l slot) 1 [permRd, permWr]
  .ok (4 * pas.headD 0 + pairIndex d l slot % 4)

/-- The map byte of a pair that a claim names lies in this device's HBM; one elsewhere ends the command with detail 6
(R444). -/
def claimable (s : State) (p : Party) (d : KvDesc) (l slot : Nat) (descVa : Word) : Except OpErr Unit :=
  match (engineSpan s p.core p.ctx p.asid (pairVa d l slot) 1 [permRd, permWr]).bind (resolveSpan s [permRd, permWr]) with
  | .error f => .error (.suspend f)
  | .ok pas =>
    match regionOf (pas.headD 0) with
    | .hbm _ => .ok ()
    | _ => .error (kvFail descVa 6)

/-- The aligned 64-bit word that holds a pair: its bytes, and the pair's place in it (R439). -/
def wordPas (key : Nat) : List Nat := (List.range 8).map (fun i => key / 32 * 8 + i)
def wordCode (w : Word) (key : Nat) : Nat := w.toNat / 4 ^ (key % 32) % 4
def withWordCode (w : Word) (key v : Nat) : Word :=
  BitVec.ofNat 64 (w.toNat - wordCode w key * 4 ^ (key % 32) + v * 4 ^ (key % 32))

/-- Operands of a compare-and-swap as its packet carries them (R238, R464). -/
def casData (expected new : Word) : List Byte := toBytes 8 new.toNat ++ toBytes 8 expected.toNat

/-- An access to the word of a pair that is still to be sent. -/
def sendWord (o : Op) (va key : Nat) (kind : ReqKind) (expected new : Word) : OpErr :=
  .send { party := o.party, kind := kind, va := va - va % 8, pas := wordPas key, data := casData expected new, atw := 0, virt := true }

/-- The attempt of a command at the word of a pair that expects a value. -/
def swapsAt (seq tag key : Nat) (e : Word) : ReqKind → Bool
  | .swap q t k x _ => q == seq && t == tag && k == key && x == e
  | _ => false

/-- Change a pair's code in memory outside the device by i64 compare-and-swaps on its word: the first one expects a word of
zeros, each next one the value that the last one found, until one finds what it expects, or a word whose pair has another code
(R439, R442; DESIGN CHOICE, Assumption 119). The answer is the old code. -/
def swapPair (s : State) (o : Op) (va key old new : Nat) : Nat → Word → Except OpErr (List Byte)
  | 0, _ => .error .wait
  | fuel + 1, e =>
    if wordCode e key ≠ old then .ok [BitVec.ofNat 8 (wordCode e key)]
    else
      let n := withWordCode e key new
      match accessOf s o.party (swapsAt o.seq o.chunk key e) with
      | none => .error (sendWord o va key (.swap o.seq o.chunk key e n) e n)
      | some r =>
        let v : Word := BitVec.ofNat 64 (ofBytes r.value)
        if !landed s r then .error .wait
        else if v = e then .ok [BitVec.ofNat 8 old]
        else swapPair s o va key old new fuel v

/-- Change a pair's code at its home: the answer is the bytes that came back, the old code first (R439). -/
def changePair (s : State) (o : Op) (va key old new : Nat) : Except OpErr (List Byte) :=
  if inTarget s (key / 4) then .error (.fail causePerm (BitVec.ofNat 64 va) 0 0)
  else if isOutside s (key / 4) then swapPair s o va key old new (s.reqs.length + 1) (withWordCode 0 key old)
  else
    match accessOf s o.party (changesAt o.seq o.chunk key old) with
    | some r => if landed s r then .ok r.value else .error .wait
    | none =>
      let w : Word := BitVec.ofNat 64 (ofBytes (physRead s (key / 32 * 8) 8))
      .error (sendWord o va key (.code o.seq o.chunk key old new) w (withWordCode w key new))

/-! ### Fill requests (R444 to R446) -/

def withDie (s : State) (n : Nat) (f : Die → Die) : State := { s with dies := Tbl.put s.dies n (f (dieAt s n)) }

/-- Launch that a context works for, when it has one. -/
def launchOf (s : State) (core ctx : Nat) : Nat := ((ctxOf s core ctx).task.map (·.launch)).getD s.nextLaunch

/-- Raise a request: it joins the entry of its key, or takes a free one of 256; none when there is none (R446). -/
def fillRequest (s : State) (o : Op) (die key l slot : Nat) (d : BitVec 512) (descVa : Word) : Option State :=
  let fs := (dieAt s die).fills
  if fs.any (fun f => f.key == key) then
    some (withDie s die (fun x =>
      { x with fills := fs.map (fun f => if f.key = key then { f with waiters := f.waiters ++ [(o.key, pairDetail l slot)] } else f) }))
  else if 256 ≤ fs.length then none
  else
    let f : FillReq := { id := s.fills, key := key, descVa := descVa, desc := d, layer := l, slot := slot, asid := o.asid,
                         launch := launchOf s o.core o.ctx, core := o.core, waiters := [(o.key, pairDetail l slot)], running := none }
    some { withDie s die (fun x => { x with fills := fs ++ [f] }) with fills := s.fills + 1 }

/-- A context that runs a fill task (R449). -/
def inFillTask (s : State) (core ctx : Nat) : Bool :=
  ctx == 4 && (match (coreOf s core).service with | some (.fill _) => true | _ => false)

/-- Raise the request of a pair that a claim found owed, and let the command wait for it (R445, R446); none while the queue
is full. -/
def raiseFill (s : State) (o : Op) (key l slot : Nat) (img : BitVec 512) (descVa : Word) : Option (State × Op) :=
  (fillRequest s o (if key / 4 < Config.hbmBase 1 then 0 else 1) key l slot img descVa).map (fun s =>
    (s, { o with waits := o.waits ++ [key], count := o.count + 1 }))

/-- Check one pair: claim it; the claim of a gap, or of a fill under way, raises a request at its home, and the command
waits for it (R444, R445). The second byte that comes back says whether the queue had room; without room the command waits
for a free entry, its claim made (R446). -/
def claimPair (s : State) (o : Op) (descVa : Word) (img : BitVec 512) (l slot : Nat) : Except OpErr (State × Op) := do
  let d := kvDescOf img
  claimable s o.party d l slot descVa
  let key ← pairKey s o.party d l slot
  let b ← changePair s o (pairVa d l slot) key 2 3
  match (b.headD 0).toNat, (b.drop 1).headD 0 with
  | 1, _ => .ok (s, o)
  | 0, _ => .error (kvFail descVa (pairDetail l slot))
  | _, 0 =>
    match raiseFill s o key l slot img descVa with
    | none => .error .wait
    | some r => .ok r
  | _, _ => .ok (s, o)

/-- A fill task may not check or copy under presence (R449). -/
def outsideFill (s : State) (o : Op) (va : Word) : Except OpErr Unit :=
  if inFillTask s o.core o.ctx then .error (kvFail va 0) else .ok ()

/-- Read and check the descriptor of a command (R435, R436). -/
def readKvDesc (s : State) (o : Op) (va : Word) : Except OpErr (BitVec 512 × State) := do
  let (b, s) ← engineRead s o.party false va.toNat 64 [permRd]
  let img := BitVec.ofNat 512 (ofBytes b)
  match kvCheck (kvDescOf img) with
  | some n => .error (kvFail va n)
  | none => .ok (img, s)

/-- Descriptor image that an operation has read. -/
def heldDesc (o : Op) : BitVec 512 := BitVec.ofNat 512 (ofBytes o.bytes)

/-! ### `kv.chk` (R251) -/

/-- `kvChk`: Check key-value slots (R251). -/
def slotKvChk (t a b : Reg) (watch : Bool) (cnt : BitVec 16) (sl : BitVec 4) (s : State) : Except Stop State := do
  let d ← readS s a
  let x ← readS s b
  opRoom s
  aligned 2 2 d 64
  startOp s { newOp s (.kvChk t a b watch cnt sl) t with a := d, b := x, slk := slackOf s sl, nums := [cnt.toNat] }

def execKvChk (t a b : Reg) (watch : Bool) (cnt : BitVec 16) (sl : BitVec 4) (s : State) : Host.Outcome State Fault Refusal := settle s (slotKvChk t a b watch cnt sl s)

/-- Chunks of `kv.chk`: the descriptor, then each pair in ascending order, each after the fill of the one before it has ended
(R445, R551). -/
def kvChkChunk (s : State) (o : Op) (k : Nat) : Except OpErr (State × Op) :=
  let l := (o.b.extractLsb' 32 16).toNat
  let first := (o.b.extractLsb' 0 32).toNat
  if k = 0 then do
    outsideFill s o o.a
    if o.nums.headD 0 = 0 then .ok (s, o) else do
    let (img, s) ← readKvDesc s o o.a
    let d := kvDescOf img
    if l < d.nlayer ∧ first + o.nums.headD 0 ≤ d.nslot then .ok (s, { o with bytes := toBytes 64 img.toNat })
    else .error (kvFail o.a 5)
  else if o.done.contains (k - 1) && o.waits == [] then claimPair s o o.a (heldDesc o) l (first + k - 1)
  else .error .wait

def kvChkChunks (o : Op) : List Nat := List.range (o.nums.headD 0 + 1)

/-- Completion of `kv.chk`: its token, and f11 with WATCH (R251). -/
def kvChkFinish (s : State) (o : Op) : State :=
  let s := finishOp s o (tokenOk o.count)
  match o.instr with
  | .kvChk _ _ _ true _ _ => setFlags s o.core o.ctx 0x800
  | _ => s

/-! ### The check of `cp.kvchk` (R251, R437) -/

/-- Pairs an operation holds after its length: two numbers each. -/
def heldPair (o : Op) (j : Nat) : Option (Nat × Nat) :=
  match o.nums[2 * j + 1]?, o.nums[2 * j + 2]? with
  | some l, some x => some (l, x)
  | _, _ => none

/-- Chunk 0 of `cp.kvchk`: read the descriptor and find the pairs that the source bytes cover. -/
def presenceCopyCheck (s : State) (o : Op) (ss : Bool) : Except OpErr (State × Op) := do
  outsideFill s o o.c
  if o.nums.headD 0 = 0 then .ok (s, o) else do
  let (img, s) ← readKvDesc s o o.c
  let n := o.nums.headD 0
  let ps := if ss then [] else coveredPairs (kvDescOf img) (n + 1) o.b.toNat n
  .ok (s, { o with bytes := toBytes 64 img.toNat, nums := n :: ps.flatMap (fun p => [p.1, p.2]) })

/-- The pair that chunk `k` of a command claims, with the descriptor's address. -/
def claimedPair (o : Op) (k : Nat) : Option (Nat × Nat × Word) :=
  match o.instr with
  | .kvChk .. => some ((o.b.extractLsb' 32 16).toNat, (o.b.extractLsb' 0 32).toNat + k - 1, o.a)
  | .cpKvchk .. => (heldPair o (k - 1)).map (fun p => (p.1, p.2, o.c))
  | _ => none

/-- A claim at its home: the old code, and the request that it raises (R444, R445). An ending command waits here for room
in the queue, so that no claimed pair is left without a fill. -/
def performClaim (s : State) (o : Op) (k key : Nat) : Option (State × List Byte) :=
  let old := codeOf (memByte s.mem (key / 4)) (key % 4)
  let b : Byte := BitVec.ofNat 8 old
  match claimedPair o k with
  | none => some (s, [b, 0])
  | some (l, slot, va) =>
    if old < 2 then some (s, [b, 0])
    else
      match raiseFill s o key l slot (heldDesc o) va with
      | some (s, o) => some (changeCode (updateOp s o) key 2 3, [b, 1])
      | none => if o.live then some (changeCode s key 2 3, [b, 0]) else none

/-- Check the `j`th covered pair. -/
def presencePair (s : State) (o : Op) (j : Nat) : Except OpErr (State × Op) :=
  match heldPair o j with
  | some (l, x) => claimPair s o o.c (heldDesc o) l x
  | none => .ok (s, o)

end Sys2Proof.Machine
end

