-- ==== Sys2Proof/Machine/Reduce.lean ====
section
/-! DEFINITION. Reductions in the network: contributions, exact and fast combining, completion (R103 to R107, R479 to
R486). -/

namespace Sys2Proof.Machine

/-! ### The group table (R479) -/

def rgValid (e : BitVec 384) : Bool := e.getLsbD 0
def rgFast (e : BitVec 384) : Bool := e.getLsbD 2
def rgBf16 (e : BitVec 384) : Bool := e.getLsbD 3
def rgDomain (e : BitVec 384) : Bool := e.getLsbD 4
def rgRoot (e : BitVec 384) : Nat := (e.extractLsb' 130 10).toNat
def rgMembers (e : BitVec 384) : Nat := (e.extractLsb' 140 10).toNat + 1
def rgBaseDev (e : BitVec 384) : Nat := (e.extractLsb' 150 10).toNat
def rgHome (e : BitVec 384) : Nat := (e.extractLsb' 160 48).toNat
def rgDompa (e : BitVec 384) : Nat := (e.extractLsb' 208 48).toNat
def rgMask (e : BitVec 384) : BitVec 128 := e.extractLsb' 256 128

/-- Tag and bytes of a group's target (R480). -/
def rgTag (e : BitVec 384) : Nat := if rgBf16 e then 2 else 1
def rgBytes (e : BitVec 384) : Nat := if rgBf16 e then 32 else 64

/-- Set bits of a mask below a position. -/
def bitsBelow (m : BitVec 128) (n : Nat) : Nat := ((List.range n).filter (fun i => m.getLsbD i)).length

/-- How many members a group has (R480). -/
def rgCount (e : BitVec 384) : Nat := if rgDomain e then rgMembers e else bitsBelow (rgMask e) 128

/-- The rank of a core of this device in a group; none for a party that is no member (R480). -/
def rankOf (s : State) (e : BitVec 384) (core : Nat) : Option Nat :=
  if rgDomain e then
    if rgBaseDev e ≤ s.device.toNat ∧ s.device.toNat < rgBaseDev e + rgMembers e
    then some (s.device.toNat - rgBaseDev e) else none
  else if rgRoot e = s.device.toNat ∧ (rgMask e).getLsbD core then some (bitsBelow (rgMask e) core)
  else none

/-- The group whose target a `cp` of these translated bytes contributes to (R480). -/
def contribTarget (s : State) (pas : List Nat) : Option (Nat × RGroup) :=
  s.groups.find? (fun g =>
    let e := g.2.entry
    let from_ (b : Nat) : Bool := pas == (List.range (rgBytes e)).map (fun i => b + i)
    rgValid e && ((from_ (rgHome e) && (!rgDomain e || rgRoot e == s.device.toNat)) || (rgDomain e && from_ (rgDompa e))))

/-! ### Exact partials (R103 to R106) -/

/-- ACC of a partial as an integer. -/
def accOf (p : BitVec 384) : Int := (p.extractLsb' 0 320).toInt

/-- A contribution enters a partial (R104). -/
def enterExact (v : Val) : BitVec 384 :=
  let acc : Int := match v with
    | .num n m e _ => (if n then -1 else 1) * ((m : Int) * 2 ^ (e + 160).toNat)
    | _ => 0
  let nz := match v with | .num n 0 _ _ => n | _ => false
  BitVec.ofNat 32 1 ++ (0 : BitVec 28) ++ BitVec.ofBool nz ++ BitVec.ofBool (v == .inf true) ++
    BitVec.ofBool (v == .inf false) ++ BitVec.ofBool v.isNan ++ BitVec.ofInt 320 acc

/-- Two partials combine (R105). -/
def combineExact (a b : BitVec 384) : BitVec 384 :=
  let count := min ((a.extractLsb' 352 32).toNat + (b.extractLsb' 352 32).toNat) 0xFFFFFFFF
  BitVec.ofNat 32 count ++ (0 : BitVec 28) ++ (a.extractLsb' 323 1 &&& b.extractLsb' 323 1) ++
    (a.extractLsb' 320 3 ||| b.extractLsb' 320 3) ++ (a.extractLsb' 0 320 + b.extractLsb' 0 320)

/-- The root converts a partial (R106). -/
def convertExact (tag : Nat) (p : BitVec 384) : Nat :=
  let v : Val :=
    if p.getLsbD 320 || (p.getLsbD 321 && p.getLsbD 322) then .nan
    else if p.getLsbD 321 then .inf false
    else if p.getLsbD 322 then .inf true
    else if accOf p = 0 then Val.zero (p.getLsbD 323)
    else .num (accOf p < 0) (accOf p).natAbs (-160) false
  roundFloat tag rne v

/-- Two FP32 nodes combine (R107, R483). -/
def combineFast (a b : BitVec 384) : BitVec 384 :=
  BitVec.ofNat 384 (toFp32 ((ofFp32 (a.toNat % 2 ^ 32)).add (ofFp32 (b.toNat % 2 ^ 32))))

/-! ### Partials on the way (R481 to R483) -/

/-- Contributions that exact partials hold: their COUNT (R103, R105). -/
def countOf (c : Contribution) : Nat := ((c.vals.headD 0).extractLsb' 352 32).toNat

/-- Ranks of a partial, the lowest, and one past the highest. -/
def Contribution.ranks (c : Contribution) : List Nat := c.givers.map (·.1)
def Contribution.lo (c : Contribution) : Nat := c.ranks.foldl min (c.ranks.headD 0)
def Contribution.top (c : Contribution) : Nat := c.ranks.foldl max 0 + 1

/-- Two partials are siblings at level `l` of the tree over `n` ranks, `a` the left one (R483). -/
def siblings (n l : Nat) (a b : Contribution) : Bool :=
  a.lo % 2 ^ (l + 1) == 0 && b.lo == a.lo + 2 ^ l && a.top == b.lo && b.top == min (a.lo + 2 ^ (l + 1)) n

/-- Join two partials of the same elements (R482, R483); none where a combining point forwards them. -/
def joinParts (e : BitVec 384) (a b : Contribution) : Option Contribution :=
  let both (f : BitVec 384 → BitVec 384 → BitVec 384) (x y : Contribution) : Contribution :=
    { first := x.first, vals := x.vals.zipWith f y.vals, givers := x.givers ++ y.givers }
  if a.first ≠ b.first ∨ a.ranks.any (fun r => b.ranks.contains r) then none
  else if !rgFast e then some (both combineExact a b)
  else if (List.range 11).any (fun l => siblings (rgCount e) l a b) then some (both combineFast a b)
  else if (List.range 11).any (fun l => siblings (rgCount e) l b a) then some (both combineFast b a)
  else none

/-- Replace the first partial of a list that joins with `c`, else append `c`. -/
def absorb (e : BitVec 384) (c : Contribution) : List Contribution → List Contribution
  | [] => [c]
  | d :: l => match joinParts e d c with
    | some x => x :: l
    | none => d :: absorb e c l

/-- Combine a list until nothing joins: one pass per level (R483). -/
def settleParts (e : BitVec 384) (l : List Contribution) : List Contribution :=
  (List.range 11).foldl (fun l _ => l.foldl (fun acc c => absorb e c acc) []) l

/-- The 16 elements of a contribution as they travel (R482, R483). -/
def travelVals (e : BitVec 384) (b : List Byte) : List (BitVec 384) :=
  let w := rgBytes e / 16
  (List.range 16).map (fun i =>
    let v := elementValue (rgTag e) (ofBytes ((b.drop (w * i)).take w))
    if rgFast e then BitVec.ofNat 384 (toFp32 v) else enterExact v)

/-! ### CONTRIB packets (R464, R465, R482, R483) -/

/-- GEN of an entry (R479). -/
def rgGen (e : BitVec 384) : Nat := (e.extractLsb' 48 16).toNat

/-- The data flits of a partial: exact ones hold one element each, with its index; a fast one holds 16 FP32 words. -/
def partBytes (e : BitVec 384) (c : Contribution) : List Byte :=
  if rgFast e then c.vals.flatMap (fun v => toBytes 4 v.toNat)
  else (c.vals.zipIdx).flatMap (fun v => toBytes 48 v.1.toNat ++ toBytes 2 (c.first + v.2) ++ List.replicate 14 0)

/-- The partial that the data flits of a packet carry. -/
def partOfBytes (exact : Bool) (b : List Byte) (givers : List (Nat × Nat × Nat)) : Contribution :=
  if exact then
    let n := b.length / 64
    { first := ofBytes ((b.drop 48).take 2), givers := givers
      vals := (List.range n).map (fun i => BitVec.ofNat 384 (ofBytes ((b.drop (64 * i)).take 48))) }
  else
    { first := 0, givers := givers
      vals := (List.range 16).map (fun i => BitVec.ofNat 384 (ofBytes ((b.drop (4 * i)).take 4))) }

/-- AUX of a partial: group, generation and rank span (R465). -/
def contribAux (group gen : Nat) (c : Contribution) : BitVec 32 :=
  BitVec.ofNat 10 (c.top - 1) ++ BitVec.ofNat 10 c.lo ++ BitVec.ofNat 8 gen ++ BitVec.ofNat 4 group

def auxGroup (a : BitVec 32) : Nat := (a.extractLsb' 0 4).toNat
def auxGen (a : BitVec 32) : Nat := (a.extractLsb' 4 8).toNat

/-- Port of the target's home, to which contributions travel. -/
def rootEndpoint (s : State) (e : BitVec 384) : Nat := 128 + (homeSlice s (rgHome e)).getD 0

/-- A packet with a partial: its data, span and byte enables. -/
def withPart (e : BitVec 384) (group gen : Nat) (p : NetPacket) (c : Contribution) : NetPacket :=
  let b := partBytes e c
  { p with pkt := { p.pkt with exact := !rgFast e, aux := contribAux group gen c, ndata := BitVec.ofNat 4 (flitCount 7 0 b.length)
                               beFirst := (flitEnables 7 0 b.length).1, beLast := (flitEnables 7 0 b.length).2 }
           data := b, givers := c.givers }

/-- The partial of a packet. -/
def partOf (p : NetPacket) : Contribution := partOfBytes p.pkt.exact p.data p.givers

/-- An operation's contribution: group and generation, while its token waits for the release (R484). -/
def Op.contribution (o : Op) : Option (Nat × Nat) :=
  match o.instr, o.nums with
  | .cp .., [_, 1, g, gen] => some (g, gen)
  | .cpKvchk .., [_, 1, g, gen] => some (g, gen)
  | _, _ => none

/-- A generation has not completed as far as this device knows: it is the group's open one or a later one. -/
def genOpen (e : BitVec 384) (gen : Nat) : Bool := decide ((gen + 256 - rgGen e % 256) % 256 < 128)

/-- Contributions of a rank to generations of a group that have not completed: a further one counts to a later generation
(R481). -/
def openOf (s : State) (e : BitVec 384) (group rank : Nat) : Nat :=
  (s.ops.filter (fun o =>
    (match o.contribution with | some (g, gen) => g == group && genOpen e gen | none => false) &&
      rankOf s e o.core == some rank)).length

/-- Send one packet of a contribution. -/
def sendPart (o : Op) (g gen : Nat) (e : BitVec 384) (s : State) (c : Contribution) : State :=
  let id := s.nextReq
  let org : Origin := ⟨id, o.core, o.ctx, o.cookie, windowSlack s (ctxOf s o.core o.ctx) o.slk, 0⟩
  let dev := if rgDomain e then rgRoot e else s.device.toNat
  sendPacket { s with nextReq := id + 1 }
    (withPart e g gen (netPacket s id (newPacket s org 7 (rootEndpoint s e) dev (rgHome e) 0 0 []) [] (some o.key)) c)

/-- A `cp` contributes its source bytes: in exact mode two packets of eight elements, in fast mode one (R482, R483). A party
that is no member ends with RANGE_PERM (R480). -/
def contribute (s : State) (o : Op) (n : Nat) (g : RGroup) (b : List Byte) : Except OpErr (State × Op) :=
  match rankOf s g.entry o.core with
  | none => .error (.fail causePerm (BitVec.ofNat 64 (rgHome g.entry)) 0 0)
  | some r =>
    let vals := travelVals g.entry b
    let gen := (rgGen g.entry + openOf s g.entry n r) % 256
    let givers := [(r, s.device.toNat, o.core)]
    let parts : List Contribution :=
      if rgFast g.entry then [⟨0, vals, givers⟩] else [⟨0, vals.take 8, givers⟩, ⟨8, vals.drop 8, givers⟩]
    let o' := { o with nums := [o.nums.headD 0, 1, n, gen] }
    .ok (parts.foldl (sendPart o n gen g.entry) s, o')

/-- Points that may combine: routers and fabric edges (R482). -/
def combinesAt : NetPoint → Bool
  | .router .. | .fabricEdge _ | .fabricIn _ => true
  | _ => false

/-- The accumulators of a point hold another group or generation (R482). -/
def accTaken (s : State) (p : NetPacket) : Bool :=
  s.packets.any (fun q => q.acc && q.place == p.place && q.id != p.id &&
    (auxGroup q.pkt.aux != auxGroup p.pkt.aux || auxGen q.pkt.aux != auxGen p.pkt.aux))

/-- CONTRIB_COMBINE: two CONTRIB packets of group `g` and of one generation that stand at one point combine there: the first one
carries the joined partial on, in the accumulators, with the smaller slack (R105, R482, R483; Assumption 90). -/
def execContribCombine (g a b : Nat) (s : State) : Host.Outcome State Fault Refusal :=
  match s.packets.find? (fun p => p.id == a), s.packets.find? (fun p => p.id == b) with
  | some p, some q =>
    let e := (Tbl.look RGroup.init s.groups g).entry
    if a ≠ b ∧ auxGroup p.pkt.aux = g ∧ p.pkt.typ = 7 ∧ q.pkt.typ = 7 ∧ p.place = q.place ∧ combinesAt p.place ∧ !accTaken s p ∧
        auxGroup q.pkt.aux = g ∧ auxGen q.pkt.aux = auxGen p.pkt.aux ∧ p.pkt.dstDev = q.pkt.dstDev ∧
        p.pkt.exact = q.pkt.exact ∧ p.pkt.exact = !rgFast e then
      match joinParts e (partOf p) (partOf q) with
      | none => .next s
      | some c =>
        let k := if q.pkt.slack < p.pkt.slack then q.pkt.slack else p.pkt.slack
        let p' := withPart e g (auxGen p.pkt.aux) p c
        let p' := { p' with acc := true, pkt := { p'.pkt with slack := k, late := p.pkt.late || q.pkt.late }
                            lateAt := match p.lateAt, q.lateAt with
                              | some x, some y => some (min x y)
                              | none, y => y
                              | x, none => x }
        .next (dropPacket { s with packets := s.packets.map (fun x => if x.id = a then p' else x) } b)
    else .next s
  | _, _ => .next s

/-! ### The root (R482 to R484) -/

/-- A CONTRIB packet for the open generation reaches the target's home: the root combines it. One of a later generation
waits (R481). -/
def rootAbsorbs (s : State) (p : NetPacket) : Option State :=
  let n := auxGroup p.pkt.aux
  let g := Tbl.look RGroup.init s.groups n
  if rgValid g.entry && rgRoot g.entry == s.device.toNat && auxGen p.pkt.aux == rgGen g.entry % 256 && p.pkt.exact == !rgFast g.entry then
    some (dropPacket { s with groups := Tbl.put s.groups n { g with parts := absorb g.entry (partOf p) g.parts } } p.id)
  else none

/-- Every member's contribution is in: by the count of the exact partials, or by the tree's last node. -/
def complete (e : BitVec 384) (l : List Contribution) : Bool :=
  if rgFast e then (match l with | [c] => c.lo == 0 && c.top == rgCount e | _ => false)
  else
    let half (k : Nat) : Nat := ((l.filter (fun c => c.first == k)).map countOf).foldl (· + ·) 0
    half 0 == rgCount e && half 8 == rgCount e

/-- The partial of every element: exact halves joined whatever order they came in. -/
def wholePart (e : BitVec 384) (l : List Contribution) : List (BitVec 384) :=
  if rgFast e then (l.headD ⟨0, [], []⟩).vals
  else
    let half (k : Nat) : List (BitVec 384) :=
      match (l.filter (fun c => c.first == k)).map (·.vals) with
      | [] => []
      | v :: t => t.foldl (fun x y => x.zipWith combineExact y) v
    half 0 ++ half 8

/-- The target's bytes from the combined partial (R106, R483). -/
def resultBytes (e : BitVec 384) (vals : List (BitVec 384)) : List Byte :=
  vals.flatMap (fun v =>
    let x := if rgFast e then (if rgBf16 e then roundFloat 2 rne (ofFp32 (v.toNat % 2 ^ 32)) else v.toNat % 2 ^ 32)
      else convertExact (rgTag e) v
    toBytes (rgBytes e / 16) x)

/-- An entry after one more generation (R479). -/
def nextGen (e : BitVec 384) : BitVec 384 :=
  (e &&& ~~~ ((0xFFFF#384) <<< 48)) ||| (BitVec.ofNat 384 ((rgGen e + 1) % 2 ^ 16) <<< 48)

/-- The contributing cores of some partials: device and core. -/
def giversOf (l : List Contribution) : List (Nat × Nat) := ((l.flatMap (·.givers)).map (·.2)).eraseDups

/-- Send a REL packet to a contributing core (R484). -/
def sendRelease (n gen : Nat) (e : BitVec 384) (s : State) (g : Nat × Nat) : State :=
  let id := s.nextReq
  let src := rootEndpoint s e
  let o : Origin := ⟨id, src, 7, 0, netSlackOf s src, 0⟩
  let aux := contribAux n gen ⟨0, [], [(0, 0, 0), (rgCount e - 1, 0, 0)]⟩
  sendPacket { s with nextReq := id + 1 } (netPacket s id (newPacket s o 0x13 g.2 g.1 (rgHome e) aux 0 []) [] none)

/-- REDUCTION_COMPLETE: every member has contributed: the root writes the converted elements with one write at the home
port, the generation advances, and a REL packet sets out to every contributing core (R481, R484). -/
def execReductionComplete (group : Nat) (s : State) : Host.Outcome State Fault Refusal :=
  let g := Tbl.look RGroup.init s.groups group
  let e := g.entry
  let parts := settleParts e g.parts
  if rgValid e && rgRoot e == s.device.toNat && complete e parts then
    let cells := cellsAt (rgHome e) (resultBytes e (wholePart e parts))
    let s := homeWrite (touchLines s (cells.map (·.1)) plainHint true) cells
    let s := { s with groups := Tbl.put s.groups group { entry := nextGen e, parts := [] } }
    .next ((giversOf parts).foldl (sendRelease group (rgGen e % 256) e) s)
  else .next s

/-- A REL packet reaches a contributing core: the token of the contribution, and on a device other than the root's the end
of the generation (R484). -/
def releaseAt (s : State) (core : Nat) (aux : BitVec 32) : State :=
  let n := auxGroup aux
  let g := Tbl.look RGroup.init s.groups n
  let s := if rgRoot g.entry ≠ s.device.toNat ∧ auxGen aux = rgGen g.entry % 256
    then { s with groups := Tbl.put s.groups n { g with entry := nextGen g.entry } } else s
  match s.ops.find? (fun o => o.core == core && o.contribution == some (n, auxGen aux)) with
  | some o => finishOp s o (tokenOk (rgBytes g.entry))
  | none => s

/-- The groups with an open contribution of a launch. -/
def openGroups (s : State) (cookie : BitVec 64) : List Nat :=
  (s.ops.filterMap (fun o => if o.cookie = cookie then o.contribution.map (·.1) else none)).eraseDups

/-- At the end of a launch its open generations are discarded and every waiting token reads cancelled (R486). -/
def discardReductions (s : State) (cookie : BitVec 64) : State :=
  let gs := openGroups s cookie
  let os := s.ops.filter (fun o => o.cookie == cookie && o.contribution.isSome)
  let s := { s with
    groups := s.groups.map (fun g => if gs.contains g.1 then (g.1, { g.2 with parts := [] }) else g)
    packets := s.packets.filter (fun p => !(p.pkt.typ == 7 && gs.contains (auxGroup p.pkt.aux))) }
  os.foldl (fun s o => endOp s o tokenCancelled none) s

end Sys2Proof.Machine
end

