-- ==== Sys2Proof/Machine/Tag.lean ====
section
/-! DEFINITION. The scratchpad carve and the tagged region (R210 to R217, R381). -/

namespace Sys2Proof.Machine

/-- Slots of the tagged region (R212). -/
def slotCount (k : CoreSt) : Nat := 128 * k.tu

/-- Scratchpad offset of a slot (R212). -/
def slotOffset (i : Nat) : Nat := 0x2FF800 - 0x800 * i

/-- A slot index, or TAG_SLOT (R213). -/
def slotIndex (s : State) (w : Word) : Except Stop Nat :=
  if w.toNat < slotCount (here s) then .ok w.toNat else trapping causeSlot 5 2 0 0 (w.setWidth 32)

/-- Cancel the fill that a slot is pending on: its token reads cancelled (R217). -/
def cancelFill (s : State) (core slot : Nat) : State :=
  match Tbl.find (coreOf s core).tags slot with
  | none => s
  | some e =>
    match e.fill with
    | none => s
    | some (c, q) =>
      match findOp s core c q with
      | some o => finishOp s o tokenCancelled
      | none => s

/-- The trace record of an eviction: a resident slot loses its contents (R517). -/
def traceEviction (s : State) (core ctx slot : Nat) : State :=
  match Tbl.find (coreOf s core).tags slot with
  | some e => if e.pend then s else traceEvent s core 3 ctx 2 (BitVec.ofNat 64 slot)
  | none => s

/-- Make a slot invalid for a context, or for none (7): its fill is cancelled, or it is evicted (R217, R381, R517). -/
def dropSlot (s : State) (core ctx slot : Nat) : State :=
  withCore (cancelFill (traceEviction s core ctx slot) core slot) core (fun k => { k with tags := Tbl.del k.tags slot })

/-- Make every valid slot that satisfies `p` invalid. -/
def dropSlots (s : State) (core ctx : Nat) (p : Nat → Bool) : State :=
  (((coreOf s core).tags.map (·.1)).filter p).foldl (fun s i => dropSlot s core ctx i) s

/-! ### The carve (R210, R211) -/

/-- Units whose role a carve from `a` to `b` units changes (R210). -/
def carveUnits (a b : Nat) : List Nat := (List.range 12).filter (fun u => decide (12 - max a b ≤ u ∧ u < 12 - min a b))

/-- `spmCarve`: Set the tagged region's units (R210, R211, R380). -/
def slotSpmCarve (t : Reg) (n : BitVec 4) (s : State) : Except Stop State := do
  let k := here s
  opRoom s
  match k.carve with
  | some _ => .error .hold
  | none =>
    match (carveUnits k.tu n.toNat).find? (fun u => !k.spgAwake.getLsbD u) with
    | some u => .error (.wake s.cur.1 u)
    | none =>
      let o := { newOp s (.spmCarve t n) t with nums := [n.toNat, k.tu] }
      let s' ← startOp s o
      let s' := dropSlots s' s.cur.1 s.cur.2 (fun i => 128 * n.toNat ≤ i)
      .ok (withHere s' (fun k => { k with carve := some { ctx := s.cur.2, seq := o.seq, tu := n.toNat } }))

def execSpmCarve (t : Reg) (n : BitVec 4) (s : State) : Host.Outcome State Fault Refusal := settle s (slotSpmCarve t n s)

/-- CARVE_COMPLETE: the banks have changed role; their contents are unspecified (R211, R212). -/
def execCarveComplete (core : Nat) (s : State) : Host.Outcome State Fault Refusal :=
  match (coreOf s core).carve with
  | none => .next s
  | some c =>
    let k := coreOf s core
    let (a, l) := carveSpan k
    let banks := 32 * (max k.tu c.tu - min k.tu c.tu)
    let (b, s) := freeBytes s Config.unspecifiedByte l
    let s := spmWrite s core a b
    let s := dropSlots s core c.ctx (fun i => 128 * c.tu ≤ i)
    let s := withCore s core (fun k => { k with tu := c.tu, carve := none })
    match findOp s core c.ctx c.seq with
    | some o => .next (finishOp s o (tokenOk banks))
    | none => .next s

/-! ### The tag table (R213 to R217) -/

/-- Tag of a virtual address (R212). -/
def vtagOf (va : Word) : BitVec 45 := va.extractLsb' 11 45

/-- What `tag.lk` answers: the lowest slot whose entry matches (R214). -/
def tagLookup (k : CoreSt) (asid : BitVec 16) (va : Word) : Word :=
  match k.tags.filter (fun e => e.2.asid = asid && e.2.vtag = vtagOf va) with
  | [] => 0xFFFFFFFFFFFFFFFF
  | e :: l =>
    let e := l.foldl (fun m x => if x.1 < m.1 then x else m) e
    BitVec.ofNat 64 (e.1 + if e.2.pend then 2 ^ 62 else 0)

/-- `tagLk`: Look a tag up (R214). -/
def slotTagLk (d a : Reg) (off : Imm) (s : State) : Except Stop State := do
  let x ← readS s a
  .ok (result s 4 (.scalar d.toNat (tagLookup (here s) (me s).asid (effAddr x off))))

def execTagLk (d a : Reg) (off : Imm) (s : State) : Host.Outcome State Fault Refusal := settle s (slotTagLk d a off s)

/-- A write-back of a slot has not read all of it (R215). -/
def writeBackReads (s : State) (core slot : Nat) : Bool :=
  s.ops.any (fun o => o.core = core && (match o.instr with | .tagEvWb .. => o.nums == [slot, 1] | _ => false) &&
    decide (o.bytes.length < 2048))

/-- Chunks of a write-back: 0 reads the slot; the others write a 64-byte chunk each, under the entry's address space (R216,
R381). -/
def tagBackChunk (s : State) (o : Op) (k : Nat) : Except OpErr (State × Op) :=
  let slot := o.nums.headD 0
  if k = 0 then do
    let (b, s) ← engineRead s o.party true (slotOffset slot) 2048 []
    .ok (s, { o with bytes := b })
  else if !o.done.contains 0 then .error .wait
  else do
    let s ← engineWrite s o false (o.a.toNat + 64 * (k - 1)) ((o.bytes.drop (64 * (k - 1))).take 64) [permWr]
    .ok (s, o)

/-- The write-backs of a slot that have not read it do so before its bytes become unspecified (R215). -/
def readBacks (s : State) (core slot : Nat) : State :=
  s.ops.foldl (fun s o =>
    if o.core = core && (match o.instr with | .tagEvWb .. => o.nums == [slot, 1] | _ => false) && o.live then
      match runChunk tagBackChunk s o 0 with
      | .ok (s, _) => s
      | .error _ => s
    else s) s

/-- `tagFl`: Fill a slot (R215). From here to the end of the fill the slot's bytes are unspecified: free values. A write-back that
still reads the slot has its bytes before that. -/
def slotTagFl (t a b : Reg) (h : Hint) (s : State) : Except Stop State := do
  let x ← readS s a
  let va ← readS s b
  opRoom s
  aligned 2 2 va 2048
  let i ← slotIndex s x
  check (!((Tbl.find (here s).tags i).any (·.pend))) (trapping causeSlot 5 2 0 0 (BitVec.ofNat 32 i))
  let o := { newOp s (.tagFl t a b h) t with a := va, nums := [i], slk := slackOf s h.sl }
  let s' ← startOp s o
  let e : TagEntry := { pend := true, asid := o.asid, vtag := vtagOf va, fill := some (o.ctx, o.seq) }
  let (b, s') := freeBytes (readBacks s' s.cur.1 i) Config.unspecifiedByte 2048
  let s' := if writeBackReads s' s.cur.1 i then s' else stage s' (slotOffset i) b
  .ok (withHere s' (fun k => { k with tags := Tbl.put k.tags i e }))

def execTagFl (t a b : Reg) (h : Hint) (s : State) : Host.Outcome State Fault Refusal := settle s (slotTagFl t a b h s)

/-- The work of a fill: once no write-back reads the slot, its 2,048 bytes are asked for; when they have returned the
command holds them, and the slot's bytes are free until they are written; a slot in a bank in transition ends the fill (R211,
R215). -/
def tagFillChunk (s : State) (o : Op) (_ : Nat) : Except OpErr (State × Op) :=
  let slot := o.nums.headD 0
  if writeBackReads s o.core slot then .error .wait
  else do
    let (b, s) ← engineRead s o.party false o.a.toNat 2048 [permRd]
    engineSpm s o.core (slotOffset slot) 2048
    let (x, s) := freeBytes s Config.unspecifiedByte 2048
    .ok (spmWrite s o.core (slotOffset slot) x, { o with bytes := b })

/-- The end of a fill: its bytes stand in the slot, which is resident (R215, R381, R517). -/
def finishFill (slot : Nat) (e : TagEntry) (s : State) (o : Op) : State :=
  let s := noteOrder s (engineAccessor o.core o.ctx o.seq) true (spmPas o.core (slotOffset slot) 2048)
  let s := homeWrite s (cellsAt (spmAddr o.core (slotOffset slot)) o.bytes)
  let s := traceEvent s o.core 3 o.ctx 0 (BitVec.ofNat 64 slot)
  finishOp (withCore s o.core (fun k => { k with tags := Tbl.put k.tags slot { e with pend := false, fill := none } })) o
    (tokenOk 2048)

/-- TAG_FILL_DONE: the fill's last data performs; the slot is resident (R215, R381). -/
def execTagFillDone (core slot : Nat) (s : State) : Host.Outcome State Fault Refusal :=
  match Tbl.find (coreOf s core).tags slot with
  | none => .next s
  | some e =>
    match e.fill.bind (fun f => findOp s core f.1 f.2) with
    | none => .next s
    | some o =>
      completeOp tagFillChunk [0] (finishFill slot e) s o

/-- Evict a slot (R216, R217): the slot becomes invalid, a pending fill is cancelled, and a resident one is written
back when WB is set. -/
def evictSlot (s : State) (o : Op) (x : Word) (wb : Bool) : Except Stop State := do
  let i ← slotIndex s x
  let back := wb && (Tbl.find (here s).tags i).any (fun e => !e.pend)
  let o := match Tbl.find (here s).tags i with
    | some e => { o with asid := e.asid, a := (e.vtag ++ (0 : BitVec 11)).setWidth 64, nums := [i, if back then 1 else 0] }
    | none => { o with nums := [i, 0] }
  let s' ← startOp s o
  .ok (dropSlot s' s.cur.1 s.cur.2 i)

/-- `tagEv`: Evict a slot (R216). -/
def slotTagEv (t a : Reg) (sl : BitVec 4) (s : State) : Except Stop State := do
  let x ← readS s a
  opRoom s
  evictSlot s { newOp s (.tagEv t a sl) t with slk := slackOf s sl } x false

def execTagEv (t a : Reg) (sl : BitVec 4) (s : State) : Host.Outcome State Fault Refusal := settle s (slotTagEv t a sl s)

/-- `tagEvWb`: Evict a slot, writing it back (R216). -/
def slotTagEvWb (t a : Reg) (sl : BitVec 4) (s : State) : Except Stop State := do
  let x ← readS s a
  opRoom s
  evictSlot s { newOp s (.tagEvWb t a sl) t with slk := slackOf s sl } x true

def execTagEvWb (t a : Reg) (sl : BitVec 4) (s : State) : Host.Outcome State Fault Refusal := settle s (slotTagEvWb t a sl s)

/-- `tagInv`: Invalidate a slot for later bundles (R216). -/
def slotTagInv (a : Reg) (off : Imm) (s : State) : Except Stop State := do
  let x ← readS s a
  let i ← slotIndex s (effAddr x off)
  .ok (result (cancelFill (traceEviction s s.cur.1 s.cur.2 i) s.cur.1 i) 1 (.tagInvalid i))

def execTagInv (a : Reg) (off : Imm) (s : State) : Host.Outcome State Fault Refusal := settle s (slotTagInv a off s)

end Sys2Proof.Machine
end

