-- ==== Sys2Proof/Machine/Copy.lean ====
section
/-! DEFINITION. The copy engine: copies, gathers, scatters, prefetches, and what the other commands of the copy engine
do (R215 to R220, R229 to R234). -/

namespace Sys2Proof.Machine

/-- Slack of a command's packets; a command whose operands are all scratchpad sends none. -/
def slackFor (s : State) (h : Hint) (local_ : Bool) : BitVec 10 := if local_ then 0x3FF else slackOf s h.sl

/-! ### `cp` (R229, R230) -/

/-- Issue of `cp` and `cp.kvchk` with their length (R229, R230). -/
def startCopy (s : State) (o : Op) (dst src : Word) (ds ss : Bool) (n : Nat) : Except Stop State := do
  opRoom s
  spmBounds 2 2 dst.toNat (if ds then n else 0)
  spmBounds 2 2 src.toNat (if ss then n else 0)
  startOp s { o with a := dst, b := src, nums := [n] }

/-- `cp`: Copy bytes (R229, R230). -/
def slotCp (t a b c : Reg) (ds ss : Bool) (len : Imm20) (h : Hint) (s : State) : Except Stop State := do
  let dst ← readS s a
  let src ← readS s b
  let n ←
    if c = 0 then (.ok len.toNat : Except Stop Nat)
    else do
      let x ← readS s c
      .ok (x.extractLsb' 0 32).toNat
  startCopy s { newOp s (.cp t a b c ds ss len h) t with slk := slackFor s h (ds && ss) } dst src ds ss n

def execCp (t a b c : Reg) (ds ss : Bool) (len : Imm20) (h : Hint) (s : State) : Host.Outcome State Fault Refusal := settle s (slotCp t a b c ds ss len h s)

/-- `cpKvchk`: Copy bytes whose key-value slots are present (R229, R251). -/
def slotCpKvchk (t a b c : Reg) (ds ss : Bool) (len : Imm20) (h : Hint) (s : State) : Except Stop State := do
  let dst ← readS s a
  let src ← readS s b
  let d ← readS s c
  opRoom s
  aligned 2 2 d 64
  startCopy s { newOp s (.cpKvchk t a b c ds ss len h) t with slk := slackOf s h.sl, c := d } dst src ds ss len.toNat

def execCpKvchk (t a b c : Reg) (ds ss : Bool) (len : Imm20) (h : Hint) (s : State) : Host.Outcome State Fault Refusal := settle s (slotCpKvchk t a b c ds ss len h s)

/-- Two ranges of one form overlap (R230). -/
def rangesOverlap (a b n : Nat) : Bool := decide (a < b + n ∧ b < a + n)

/-- Bytes of a chunk as they reach the destination: unspecified where source and destination overlap (R230). -/
def copiedBytes (s : State) (overlap : Bool) (b : List Byte) : List Byte × State :=
  if overlap then freeBytes s Config.unspecifiedByte b.length else (b, s)

/-- Every byte lies in a range with key-value permission; another ends the command (R251). -/
def kvAllowed (s : State) (p : Party) (va n : Nat) : Except OpErr Unit :=
  match engineSpan s p.core p.ctx p.asid va n [permKv] with
  | .ok _ => .ok ()
  | .error f => if f.cause = causePerm then .error (.fail causePerm (BitVec.ofNat 64 f.addr) 0 0) else .error (.suspend f)

/-- The group that a `cp` contributes to: its whole length is the target's (R480). -/
def copyTarget (s : State) (o : Op) (ds : Bool) (n : Nat) : Option (Nat × RGroup) :=
  if ds || (n != 64 && n != 32) then none
  else
    match engineSpan s o.core o.ctx o.asid o.a.toNat n [permWr] with
    | .ok pas => contribTarget s pas
    | .error _ => none

/-- One 64-byte chunk of a copy (R230, R352). -/
def copyChunk (ds ss kv : Bool) (s : State) (o : Op) (k : Nat) : Except OpErr (State × Op) := do
  let n := o.nums.headD 0
  let l := min 64 (n - 64 * k)
  let p := linkParty s o o.a.toNat n (ss && !ds)
  if kv && !ss then kvAllowed s o.party (o.b.toNat + 64 * k) l else .ok ()
  let (b, s) ← engineRead s o.party ss (o.b.toNat + 64 * k) l [permRd]
  match copyTarget s o ds n with
  | some (g, e) => contribute s o g e b
  | none => do
    let (b, s) := copiedBytes s (ds == ss && rangesOverlap o.a.toNat o.b.toNat n) b
    let s ← partyWrite s p ds (o.a.toNat + 64 * k) b [permWr]
    .ok (s, o)

/-- Chunks of 64 bytes of a copy. -/
def copyCount (o : Op) : Nat := ceilDiv (o.nums.headD 0) 64

/-- A chunk of `cp.kvchk`: number 0 finds the pairs the source covers, the next ones check a pair each in ascending order, each
after the fill of the one before it has ended, and the bytes follow when every pair is present (R251, R445). A source of c chunks covers at most c + 2 pairs. -/
def copyKvChunk (ds ss : Bool) (s : State) (o : Op) (k : Nat) : Except OpErr (State × Op) :=
  if k = 0 then presenceCopyCheck s o ss
  else if !o.done.contains 0 then .error .wait
  else if k < copyCount o + 3 then
    if !o.done.contains (k - 1) || o.waits != [] then .error .wait else presencePair s o (k - 1)
  else if o.waits == [] && (List.range (copyCount o + 3)).all (fun i => o.done.contains i) then
    copyChunk ds ss true s o (k - copyCount o - 3)
  else .error .wait

/-! ### Gathers and scatters (R231 to R233) -/

/-- Row bytes of a gather or scatter (R231). -/
def rowSize (rsz : BitVec 6) : Nat := if rsz = 0 then 4096 else rsz.toNat * 64

/-- Issue of `cp.g` and `cp.s`; the rows that do not go through the index list are checked (R193, R196, R231). -/
def startGather (s : State) (o : Op) (dst src idx : Word) (ds ss : Bool) (rsz : BitVec 6) (cnt : BitVec 14)
    (gather : Bool) : Except Stop State := do
  opRoom s
  aligned 2 2 dst 64
  aligned 2 2 src 64
  aligned 2 2 idx 4
  spmBounds 2 2 idx.toNat (4 * cnt.toNat)
  spmBounds 2 2 (if gather then dst.toNat else src.toNat) (if (if gather then ds else ss) then cnt.toNat * rowSize rsz else 0)
  startOp s { o with a := dst, b := src, c := idx, nums := [cnt.toNat, rowSize rsz] }

/-- `cpG`: Gather rows (R231). -/
def slotCpG (t a b c : Reg) (ds ss clamp : Bool) (rsz : BitVec 6) (cnt : BitVec 14) (h : Hint) (s : State) :
    Except Stop State := do
  let dst ← readS s a
  let src ← readS s b
  let idx ← readS s c
  startGather s { newOp s (.cpG t a b c ds ss clamp rsz cnt h) t with slk := slackFor s h (ds && ss) } dst src idx ds ss rsz cnt true

def execCpG (t a b c : Reg) (ds ss clamp : Bool) (rsz : BitVec 6) (cnt : BitVec 14) (h : Hint) (s : State) : Host.Outcome State Fault Refusal := settle s (slotCpG t a b c ds ss clamp rsz cnt h s)

/-- `cpS`: Scatter rows (R231). -/
def slotCpS (t a b c : Reg) (ds ss clamp : Bool) (rsz : BitVec 6) (cnt : BitVec 14) (h : Hint) (s : State) :
    Except Stop State := do
  let dst ← readS s a
  let src ← readS s b
  let idx ← readS s c
  startGather s { newOp s (.cpS t a b c ds ss clamp rsz cnt h) t with slk := slackFor s h (ds && ss) } dst src idx ds ss rsz cnt false

def execCpS (t a b c : Reg) (ds ss clamp : Bool) (rsz : BitVec 6) (cnt : BitVec 14) (h : Hint) (s : State) : Host.Outcome State Fault Refusal := settle s (slotCpS t a b c ds ss clamp rsz cnt h s)

/-- The index list of a command (R231). -/
def indexList (b : List Byte) (n : Nat) : List Int :=
  (List.range n).map (fun i => signedOf 32 (ofBytes ((b.drop (4 * i)).take 4)))

/-- Pieces of 64 bytes of the rows of a gather or scatter. -/
def pieceCount (o : Op) : Nat := o.nums.headD 0 * ((o.nums[1]?).getD 64 / 64)

/-- The chunks that follow chunk 0: the rows piece by piece, twice for a gather from the scratchpad, which fetches them and
then writes them. -/
def rowChunks (o : Op) : Nat :=
  match o.instr with
  | .cpG _ _ _ _ _ true .. => 2 * pieceCount o
  | _ => pieceCount o

/-- The atomic units of the index list (R332). -/
def listUnits (o : Op) : List (Nat × Nat) := lines64 (4 * o.nums.headD 0 / 64 + 2) o.c.toNat (4 * o.nums.headD 0)

/-- The chunks that read the units of the list, numbered after the rows' (R347). -/
def listChunks (o : Op) : List Nat := (List.range (listUnits o).length).map (1 + rowChunks o + ·)

/-- Read a unit of the list. -/
def listChunk (s : State) (o : Op) (k : Nat) (u : Nat × Nat) : Except OpErr (State × Op) := do
  let (b, s) ← engineRead s o.party true u.1 u.2 []
  .ok (s, { o with parts := Tbl.put o.parts k b })

/-- Chunk 0 of a gather or scatter: the whole list has been read, and is checked before any row moves (R232). -/
def indexChunk (clamp : Bool) (s : State) (o : Op) : Except OpErr (State × Op) := do
  let n := o.nums.headD 0
  if (listChunks o).all (fun k => o.done.contains k) then .ok () else .error .wait
  let b := (listChunks o).flatMap (fun k => Tbl.look [] o.parts k)
  let l := indexList b n
  match (if clamp then none else l.zipIdx.find? (fun p => decide (p.1 < 0))) with
  | some (i, k) => .error (.fail causeGather 0 (BitVec.ofInt 64 i) (BitVec.ofNat 32 k))
  | none => .ok (s, { o with bytes := b, count := (l.filter (fun i => decide (0 ≤ i))).length })

/-- A base address plus a signed index times a size, modulo 2^64. -/
def rowAt (base : Word) (i : Int) (size : Nat) : Nat := (base + BitVec.ofInt 64 (i * size)).toNat

/-- Positions in a window of index positions that one fetch may serve (R233). -/
def windowSize : Nat := 64

/-- The party of a gather's reads: within a window of 64 index positions equal indices share one fetch (R233), so the reads
of a window stand under one tag, beyond every chunk's. -/
def windowParty (o : Op) (row : Nat) : Party := { o.party with tag := 2 ^ 40 + row / windowSize }

/-- The index at a position of the list. -/
def indexAt (o : Op) (row : Nat) : Int := signedOf 32 (ofBytes ((o.bytes.drop (4 * row)).take 4))

/-- The first position of a position's window that has its index: its fetch serves them all (R233). -/
def firstWithIndex (o : Op) (row : Nat) : Nat :=
  let w := row / windowSize * windowSize
  w + (((List.range windowSize).find? (fun j => indexAt o (w + j) == indexAt o row)).getD 0)

/-- The number under which a gather keeps a piece that it has read from the scratchpad. -/
def pieceKey (o : Op) (k : Nat) : Nat :=
  let u := (o.nums[1]?).getD 64 / 64
  firstWithIndex o (k / u) * u + k % u

/-- A gather's fetch of a 64-byte piece from the scratchpad, once per index and window (R233). -/
def fetchPiece (s : State) (o : Op) (k : Nat) : Except OpErr (State × Op) :=
  let size := (o.nums[1]?).getD 64
  let i := indexAt o (k / (size / 64))
  if i < 0 ∨ (Tbl.find o.parts (pieceKey o k)).isSome then .ok (s, o)
  else do
    let (b, s) ← engineRead s o.party true (rowAt o.b i size + 64 * (k % (size / 64))) 64 []
    .ok (s, { o with parts := Tbl.put o.parts (pieceKey o k) b })

/-- A piece that a gather has read from the scratchpad, or its read of memory. -/
def gatheredPiece (ss : Bool) (s : State) (o : Op) (k : Nat) : Except OpErr (List Byte × State) :=
  let size := (o.nums[1]?).getD 64
  let row := k / (size / 64)
  if indexAt o row < 0 then .ok (List.replicate 64 0, s)
  else if ss then
    match Tbl.find o.parts (pieceKey o k) with
    | some b => .ok (b, s)
    | none => .error .wait
  else engineRead s (windowParty o row) false (rowAt o.b (indexAt o row) size + 64 * (k % (size / 64))) 64 [permRd]

/-- One 64-byte piece of a gathered row (R231, R232). From the scratchpad the pieces are fetched first, then written. -/
def gatherChunk (ds ss : Bool) (s : State) (o : Op) (k : Nat) : Except OpErr (State × Op) :=
  if ss && decide (k < pieceCount o) then fetchPiece s o k
  else do
  let k := if ss then k - pieceCount o else k
  let size := (o.nums[1]?).getD 64
  let row := k / (size / 64)
  let part := 64 * (k % (size / 64))
  let (b, s) ← gatheredPiece ss s o k
  let s ← engineWrite s o ds (rowAt o.a row size + part) b [permWr]
  .ok (s, o)

/-- The last row of a lower index position that goes to the same destination. -/
def rowBefore (o : Op) (n row : Nat) (i : Int) : Option Nat :=
  (((indexList o.bytes n).zipIdx.filter (fun p => decide (p.2 < row) && p.1 == i)).getLast?).map (·.2)

/-- One 64-byte piece of a scattered row; rows with equal indices reach the destination in the order of their positions, so
that the highest remains (R231 to R233). -/
def scatterChunk (ds ss : Bool) (s : State) (o : Op) (k : Nat) : Except OpErr (State × Op) := do
  let size := (o.nums[1]?).getD 64
  let row := k / (size / 64)
  let part := 64 * (k % (size / 64))
  let i := signedOf 32 (ofBytes ((o.bytes.drop (4 * row)).take 4))
  if i < 0 then .ok (s, o)
  else if (rowBefore o (o.nums.headD 0) row i).any (fun r => !o.done.contains (1 + r * (size / 64) + k % (size / 64))) then .error .wait
  else do
    let (b, s) ← engineRead s o.party ss (rowAt o.b row size + part) 64 [permRd]
    let s ← engineWrite s o ds (rowAt o.a i size + part) b [permWr]
    .ok (s, o)

/-- Chunks of a gather or scatter: the list, its check, then the rows piece by piece. -/
def gatherChunks (o : Op) : List Nat :=
  if o.nums.headD 0 = 0 then [] else listChunks o ++ List.range (1 + rowChunks o)

/-- A chunk of a gather or scatter; the rows wait for the list (R232). -/
def indexedChunk (clamp : Bool) (f : State → Op → Nat → Except OpErr (State × Op)) (s : State) (o : Op) (k : Nat) :
    Except OpErr (State × Op) :=
  if k = 0 then indexChunk clamp s o
  else
    match (if rowChunks o < k then (listUnits o)[k - 1 - rowChunks o]? else none) with
    | some u => listChunk s o k u
    | none => if o.done.contains 0 then f s o (k - 1) else .error .wait

/-! ### Prefetch (R234) -/

/-- `pfT`: Bring a tensor's lines into the cache (R234). -/
def slotPfT (t a : Reg) (scl : Bool) (sl : BitVec 4) (evp : BitVec 2) (s : State) : Except Stop State := do
  let d ← readS s a
  opRoom s
  aligned 2 2 d 64
  spmBounds 2 2 d.toNat 64
  startOp s { newOp s (.pfT t a scl sl evp) t with a := d, slk := slackOf s sl }

def execPfT (t a : Reg) (scl : Bool) (sl : BitVec 4) (evp : BitVec 2) (s : State) : Host.Outcome State Fault Refusal := settle s (slotPfT t a scl sl evp s)

/-- First virtual addresses of the 128-byte lines of `n` bytes from `a`. -/
def linesOf (a n : Nat) : List Nat :=
  if n = 0 then [] else (List.range ((a + n - 1) / 128 - a / 128 + 1)).map (fun i => 128 * (a / 128 + i))

/-- The lines of a tensor, and with SCL those of its scale arrays (R219, R234). -/
def tensorLines (t : TensorDesc) (scl : Bool) : List Nat :=
  let data := (List.range t.lines).flatMap (fun l => linesOf (t.lineAddr l % 2 ^ 64).toNat t.lineBytes)
  let scales := if scl then
      (if t.bsp then linesOf t.bbase t.blocks else []) ++ (if t.ssp then linesOf t.sbase (4 * ceilDiv t.blocks 256) else [])
    else []
  (data ++ scales).eraseDups

/-- `pf.t` captures its tensor's descriptor; a bank in transition leaves it none and fails the command, in its token alone (R199,
R221, R234). -/
def prefetchDesc (s : State) (o : Op) : Except OpErr (State × Op) :=
  match engineRead s o.party true o.a.toNat 64 [] with
  | .ok (b, s) => .ok (s, { o with bytes := b })
  | .error .wait => .error .wait
  | .error _ => .ok (s, { o with bytes := [] })

/-- Where the lines of a prefetch stand: each that translates as a read of its own, the ones that do not as skipped. -/
def prefetchLines (s : State) (o : Op) : List Nat → Except OpErr (List Nat × Bool)
  | [] => .ok ([], false)
  | va :: l =>
    let p := { o.party with tag := 2 ^ 40 }
    match accessOf s p (readsAt p.seq p.tag va) with
    | some r => do
      let (ls, bad) ← prefetchLines s o l
      if landed s r then .ok (r.pas.headD 0 / 128 :: ls, bad) else .error .wait
    | none =>
      match enginePas s p va 128 [permRd] with
      | .ok pas => .error (.send { party := p, kind := .read p.seq p.tag va, va := va, pas := pas, data := [], atw := 0, virt := true })
      | .error (.fault f) => .error (.fault f)
      | .error _ => do
        let (ls, _) ← prefetchLines s o l
        .ok (ls, true)

/-- The work of `pf.t`: chunk 0 captures the descriptor; chunk 1 fetches the lines that translate, counts those present, notes a
failure (R221, R234, R373). -/
def prefetchChunk (s : State) (o : Op) (k : Nat) : Except OpErr (State × Op) :=
  let t := tensorOf (descOfBytes o.bytes)
  if k = 0 then prefetchDesc s o
  else if !o.done.contains 0 then .error .wait
  else if o.bytes == [] || !t.valid then .ok (s, { o with count := 0, nums := [1] })
  else do
    let (ls, bad) ← prefetchLines s o (tensorLines t (match o.instr with | .pfT _ _ scl _ _ => scl | _ => false))
    .ok (s, { o with count := (ls.eraseDups.filter (fun l => lineCached s (128 * l))).length, nums := [if bad then 1 else 0] })

/-! ### Completion -/

/-- The chunks of a copy-engine command. -/
def copyEngineChunks (o : Op) : List Nat :=
  match o.instr with
  | .cp .. => List.range (copyCount o)
  | .cpKvchk .. => List.range (2 * copyCount o + 3)
  | .kvChk .. => kvChkChunks o
  | .cpG .. | .cpS .. => gatherChunks o
  | .tagEvWb .. => if o.nums == [o.nums.headD 0, 1] then List.range 33 else []
  | .pfT .. => [0, 1]
  | .tdMk .. | .tagFl .. => [0]
  | _ => []

/-- One chunk of a copy-engine command. -/
def copyEngineChunk (s : State) (o : Op) (k : Nat) : Except OpErr (State × Op) :=
  match o.instr with
  | .cp _ _ _ _ ds ss _ _ => copyChunk ds ss false s o k
  | .cpKvchk _ _ _ _ ds ss _ _ => copyKvChunk ds ss s o k
  | .cpG _ _ _ _ ds ss clamp _ _ _ => indexedChunk clamp (gatherChunk ds ss) s o k
  | .cpS _ _ _ _ ds ss clamp _ _ _ => indexedChunk clamp (scatterChunk ds ss) s o k
  | .tagEvWb .. => tagBackChunk s o k
  | .tagFl .. => tagFillChunk s o k
  | .tdMk .. => tdMkChunk s o k
  | .pfT .. => prefetchChunk s o k
  | .kvChk .. => kvChkChunk s o k
  | _ => .ok (s, o)

/-- Token of a copy-engine command that completes (R216, R220, R230, R232, R234). -/
def copyToken (o : Op) : Word :=
  match o.instr with
  | .cp .. | .cpKvchk .. => tokenOk (o.nums.headD 0)
  | .cpG .. | .cpS .. => tokenOk o.count
  | .tagEvWb .. => tokenOk (if o.nums == [o.nums.headD 0, 1] then 2048 else 0)
  | .tdMk .. => tokenOk 64
  | .pfT .. => if o.nums == [1] then tokenError o.count else tokenOk o.count
  | .pin .. | .unpin .. => pinToken o
  | _ => tokenOk 0

/-- Whether COPY_COMPLETE ends a command: every copy-engine command but a tag fill, and a key-value check. -/
def isCopyCommand : Instr → Bool
  | .cp .. | .cpKvchk .. | .cpG .. | .cpS .. | .tagEv .. | .tagEvWb .. | .tdMk .. | .pfT .. | .kvChk .. | .pin .. |
    .unpin .. => true
  | _ => false

/-- COPY_COMPLETE: a copy-engine command finishes its transfers and writes its token (R345). -/
def execCopyComplete (core ctx seq : Nat) (s : State) : Host.Outcome State Fault Refusal :=
  match findOp s core ctx seq with
  | none => .next s
  | some o =>
    if isCopyCommand o.instr && o.contribution.isNone then
      completeOp copyEngineChunk (copyEngineChunks o) (fun s o =>
        if o.contribution.isSome || o.waits != [] then s
        else
          match o.instr with
          | .kvChk .. => kvChkFinish s o
          | _ => finishOp s o (copyToken o)) s o
    else .next s

end Sys2Proof.Machine
end

