-- ==== Sys2Proof/Machine/Scalar.lean ====
section
/-! DEFINITION. The integer instructions of the scalar units (R158 to R165). Each writes sD at the latency of its class
(R145); none traps (R159). -/

namespace Sys2Proof.Machine

/-- Write a scalar result at a latency (R159). -/
def scalarResult (s : State) (lat : Nat) (d : Reg) (v : Word) : Except Stop State :=
  .ok (result s lat (.scalar d.toNat v))

/-- A two-operand integer instruction: sA and b of R158. -/
def binary (lat : Nat) (f : Word → Word → Word) (d a b : Reg) (imm : Imm) (s : State) : Except Stop State := do
  let x ← readS s a
  let y ← readB s b imm
  scalarResult s lat d (f x y)

/-- A one-operand integer instruction. -/
def unary (f : Word → Word) (d a : Reg) (s : State) : Except Stop State := do
  let x ← readS s a
  scalarResult s 1 d (f x)

/-- High half of a product (R161). -/
def mulHigh (x y : Int) : Word := BitVec.ofInt 64 (x * y / 2 ^ 64)

/-- Quotients and remainders with the fixed results of R162 for a zero divisor and for −2^63 by −1. -/
def divS (x y : Word) : Word := if y = 0 then 0xFFFFFFFFFFFFFFFF else BitVec.ofInt 64 (x.toInt.tdiv y.toInt)
def remS (x y : Word) : Word := if y = 0 then x else BitVec.ofInt 64 (x.toInt.tmod y.toInt)
def divU (x y : Word) : Word := if y = 0 then 0xFFFFFFFFFFFFFFFF else BitVec.ofNat 64 (x.toNat / y.toNat)
def remU (x y : Word) : Word := if y = 0 then x else BitVec.ofNat 64 (x.toNat % y.toNat)

/-- Number of leading zero bits (R161). -/
def countLeading (x : Word) : Word := if x = 0 then 64 else BitVec.ofNat 64 (63 - Nat.log2 x.toNat)

/-- Number of trailing zero bits (R161). -/
def countTrailing (x : Word) : Word := BitVec.ofNat 64 (((List.range 64).find? (fun i => x.getLsbD i)).getD 64)

/-- Number of one bits (R161). -/
def countOnes (x : Word) : Word := BitVec.ofNat 64 ((List.range 64).filter (fun i => x.getLsbD i)).length

/-- The condition of `cmp` (R163). -/
def cmpHolds (cond : BitVec 6) (x y : Word) : Bool :=
  match cond.toNat with
  | 0 => x == y
  | 1 => x != y
  | 2 => x.slt y
  | 3 => x.ult y
  | 4 => x.sle y
  | _ => x.ule y

/-- A field of `x` (R164). -/
def extractField (sgn : Bool) (width lsb : Nat) (x : Word) : Word :=
  if sgn then sextTo64 width (x.toNat >>> lsb) else BitVec.ofNat 64 ((x.toNat >>> lsb) % 2 ^ width)

/-- `x` with a field replaced by the low bits of `y` (R164). -/
def insertField (width lsb : Nat) (x y : Word) : Word :=
  let m : Word := BitVec.ofNat 64 (2 ^ width - 1) <<< lsb
  (x &&& ~~~ m) ||| ((y <<< lsb) &&& m)

/-- `add`: The sum modulo 2^64 (R161). -/
def slotAdd (d a b : Reg) (imm : Imm) (s : State) : Except Stop State :=
  binary 1 (fun x y => x + y) d a b imm s

def execAdd (d a b : Reg) (imm : Imm) (s : State) : Host.Outcome State Fault Refusal := settle s (slotAdd d a b imm s)

/-- `sub`: The difference modulo 2^64 (R161). -/
def slotSub (d a b : Reg) (imm : Imm) (s : State) : Except Stop State :=
  binary 1 (fun x y => x - y) d a b imm s

def execSub (d a b : Reg) (imm : Imm) (s : State) : Host.Outcome State Fault Refusal := settle s (slotSub d a b imm s)

/-- `mul`: The product modulo 2^64 (R161). -/
def slotMul (d a b : Reg) (imm : Imm) (s : State) : Except Stop State :=
  binary 3 (fun x y => x * y) d a b imm s

def execMul (d a b : Reg) (imm : Imm) (s : State) : Host.Outcome State Fault Refusal := settle s (slotMul d a b imm s)

/-- `mulh`: The high 64 bits of the signed product (R161). -/
def slotMulh (d a b : Reg) (imm : Imm) (s : State) : Except Stop State :=
  binary 3 (fun x y => mulHigh x.toInt y.toInt) d a b imm s

def execMulh (d a b : Reg) (imm : Imm) (s : State) : Host.Outcome State Fault Refusal := settle s (slotMulh d a b imm s)

/-- `mulhu`: The high 64 bits of the unsigned product (R161). -/
def slotMulhu (d a b : Reg) (imm : Imm) (s : State) : Except Stop State :=
  binary 3 (fun x y => mulHigh x.toNat y.toNat) d a b imm s

def execMulhu (d a b : Reg) (imm : Imm) (s : State) : Host.Outcome State Fault Refusal := settle s (slotMulhu d a b imm s)

/-- `div`: Signed quotient (R161, R162). -/
def slotDiv (d a b : Reg) (imm : Imm) (s : State) : Except Stop State :=
  binary 20 (fun x y => divS x y) d a b imm s

def execDiv (d a b : Reg) (imm : Imm) (s : State) : Host.Outcome State Fault Refusal := settle s (slotDiv d a b imm s)

/-- `divu`: Unsigned quotient (R161, R162). -/
def slotDivu (d a b : Reg) (imm : Imm) (s : State) : Except Stop State :=
  binary 20 (fun x y => divU x y) d a b imm s

def execDivu (d a b : Reg) (imm : Imm) (s : State) : Host.Outcome State Fault Refusal := settle s (slotDivu d a b imm s)

/-- `rem`: Signed remainder (R161, R162). -/
def slotRem (d a b : Reg) (imm : Imm) (s : State) : Except Stop State :=
  binary 20 (fun x y => remS x y) d a b imm s

def execRem (d a b : Reg) (imm : Imm) (s : State) : Host.Outcome State Fault Refusal := settle s (slotRem d a b imm s)

/-- `remu`: Unsigned remainder (R161, R162). -/
def slotRemu (d a b : Reg) (imm : Imm) (s : State) : Except Stop State :=
  binary 20 (fun x y => remU x y) d a b imm s

def execRemu (d a b : Reg) (imm : Imm) (s : State) : Host.Outcome State Fault Refusal := settle s (slotRemu d a b imm s)

/-- `and`: Bitwise and (R161). -/
def slotAnd (d a b : Reg) (imm : Imm) (s : State) : Except Stop State :=
  binary 1 (fun x y => x &&& y) d a b imm s

def execAnd (d a b : Reg) (imm : Imm) (s : State) : Host.Outcome State Fault Refusal := settle s (slotAnd d a b imm s)

/-- `or`: Bitwise or (R161). -/
def slotOr (d a b : Reg) (imm : Imm) (s : State) : Except Stop State :=
  binary 1 (fun x y => x ||| y) d a b imm s

def execOr (d a b : Reg) (imm : Imm) (s : State) : Host.Outcome State Fault Refusal := settle s (slotOr d a b imm s)

/-- `xor`: Bitwise exclusive or (R161). -/
def slotXor (d a b : Reg) (imm : Imm) (s : State) : Except Stop State :=
  binary 1 (fun x y => x ^^^ y) d a b imm s

def execXor (d a b : Reg) (imm : Imm) (s : State) : Host.Outcome State Fault Refusal := settle s (slotXor d a b imm s)

/-- `andn`: And with the complement (R161). -/
def slotAndn (d a b : Reg) (imm : Imm) (s : State) : Except Stop State :=
  binary 1 (fun x y => x &&& ~~~ y) d a b imm s

def execAndn (d a b : Reg) (imm : Imm) (s : State) : Host.Outcome State Fault Refusal := settle s (slotAndn d a b imm s)

/-- `shl`: Shift left by b<5:0> (R161). -/
def slotShl (d a b : Reg) (imm : Imm) (s : State) : Except Stop State :=
  binary 1 (fun x y => x <<< (y.toNat % 64)) d a b imm s

def execShl (d a b : Reg) (imm : Imm) (s : State) : Host.Outcome State Fault Refusal := settle s (slotShl d a b imm s)

/-- `shr`: Logical shift right by b<5:0> (R161). -/
def slotShr (d a b : Reg) (imm : Imm) (s : State) : Except Stop State :=
  binary 1 (fun x y => x >>> (y.toNat % 64)) d a b imm s

def execShr (d a b : Reg) (imm : Imm) (s : State) : Host.Outcome State Fault Refusal := settle s (slotShr d a b imm s)

/-- `sra`: Arithmetic shift right by b<5:0> (R161). -/
def slotSra (d a b : Reg) (imm : Imm) (s : State) : Except Stop State :=
  binary 1 (fun x y => x.sshiftRight (y.toNat % 64)) d a b imm s

def execSra (d a b : Reg) (imm : Imm) (s : State) : Host.Outcome State Fault Refusal := settle s (slotSra d a b imm s)

/-- `rotl`: Rotate left by b<5:0> (R161). -/
def slotRotl (d a b : Reg) (imm : Imm) (s : State) : Except Stop State :=
  binary 1 (fun x y => x.rotateLeft (y.toNat % 64)) d a b imm s

def execRotl (d a b : Reg) (imm : Imm) (s : State) : Host.Outcome State Fault Refusal := settle s (slotRotl d a b imm s)

/-- `min`: The smaller signed value (R161). -/
def slotMin (d a b : Reg) (imm : Imm) (s : State) : Except Stop State :=
  binary 1 (fun x y => if x.slt y then x else y) d a b imm s

def execMin (d a b : Reg) (imm : Imm) (s : State) : Host.Outcome State Fault Refusal := settle s (slotMin d a b imm s)

/-- `max`: The larger signed value (R161). -/
def slotMax (d a b : Reg) (imm : Imm) (s : State) : Except Stop State :=
  binary 1 (fun x y => if x.slt y then y else x) d a b imm s

def execMax (d a b : Reg) (imm : Imm) (s : State) : Host.Outcome State Fault Refusal := settle s (slotMax d a b imm s)

/-- `minu`: The smaller unsigned value (R161). -/
def slotMinu (d a b : Reg) (imm : Imm) (s : State) : Except Stop State :=
  binary 1 (fun x y => if x.ult y then x else y) d a b imm s

def execMinu (d a b : Reg) (imm : Imm) (s : State) : Host.Outcome State Fault Refusal := settle s (slotMinu d a b imm s)

/-- `maxu`: The larger unsigned value (R161). -/
def slotMaxu (d a b : Reg) (imm : Imm) (s : State) : Except Stop State :=
  binary 1 (fun x y => if x.ult y then y else x) d a b imm s

def execMaxu (d a b : Reg) (imm : Imm) (s : State) : Host.Outcome State Fault Refusal := settle s (slotMaxu d a b imm s)

/-- `cmp`: 1 if the condition holds, else 0 (R161, R163). -/
def slotCmp (d a b : Reg) (cond : BitVec 6) (imm : Imm) (s : State) : Except Stop State :=
  binary 1 (fun x y => if cmpHolds cond x y then 1 else 0) d a b imm s

def execCmp (d a b : Reg) (cond : BitVec 6) (imm : Imm) (s : State) : Host.Outcome State Fault Refusal := settle s (slotCmp d a b cond imm s)

/-- `sel`: sA if sC is not zero, else b (R161). -/
def slotSel (d a b c : Reg) (imm : Imm) (s : State) : Except Stop State := do
  let x ← readS s a
  let y ← readB s b imm
  let z ← readS s c
  scalarResult s 1 d (if z = 0 then y else x)

def execSel (d a b c : Reg) (imm : Imm) (s : State) : Host.Outcome State Fault Refusal := settle s (slotSel d a b c imm s)

/-- `clz`: Leading zero bits (R161). -/
def slotClz (d a : Reg) (s : State) : Except Stop State :=
  unary countLeading d a s

def execClz (d a : Reg) (s : State) : Host.Outcome State Fault Refusal := settle s (slotClz d a s)

/-- `ctz`: Trailing zero bits (R161). -/
def slotCtz (d a : Reg) (s : State) : Except Stop State :=
  unary countTrailing d a s

def execCtz (d a : Reg) (s : State) : Host.Outcome State Fault Refusal := settle s (slotCtz d a s)

/-- `popc`: One bits (R161). -/
def slotPopc (d a : Reg) (s : State) : Except Stop State :=
  unary countOnes d a s

def execPopc (d a : Reg) (s : State) : Host.Outcome State Fault Refusal := settle s (slotPopc d a s)

/-- `ext`: A bit field of sA (R164). -/
def slotExt (d a : Reg) (sgn : Bool) (width : BitVec 7) (lsb : BitVec 6) (s : State) : Except Stop State :=
  unary (extractField sgn width.toNat lsb.toNat) d a s

def execExt (d a : Reg) (sgn : Bool) (width : BitVec 7) (lsb : BitVec 6) (s : State) : Host.Outcome State Fault Refusal := settle s (slotExt d a sgn width lsb s)

/-- `ins`: sA with a bit field replaced by sC (R164). -/
def slotIns (d a c : Reg) (width : BitVec 7) (lsb : BitVec 6) (s : State) : Except Stop State := do
  let x ← readS s a
  let y ← readS s c
  scalarResult s 1 d (insertField width.toNat lsb.toNat x y)

def execIns (d a c : Reg) (width : BitVec 7) (lsb : BitVec 6) (s : State) : Host.Outcome State Fault Refusal := settle s (slotIns d a c width lsb s)

/-- `li`: A sign-extended constant (R165). -/
def slotLi (d : Reg) (imm : Imm) (s : State) : Except Stop State :=
  scalarResult s 1 d (imm.signExtend 64)

def execLi (d : Reg) (imm : Imm) (s : State) : Host.Outcome State Fault Refusal := settle s (slotLi d imm s)

/-- `lih`: IMM above the low half of sA (R165). -/
def slotLih (d a : Reg) (imm : Imm) (s : State) : Except Stop State :=
  unary (fun x => imm ++ x.extractLsb' 0 32) d a s

def execLih (d a : Reg) (imm : Imm) (s : State) : Host.Outcome State Fault Refusal := settle s (slotLih d a imm s)

/-- `addi`: sA plus a constant (R165). -/
def slotAddi (d a : Reg) (imm : Imm) (s : State) : Except Stop State :=
  unary (fun x => x + imm.signExtend 64) d a s

def execAddi (d a : Reg) (imm : Imm) (s : State) : Host.Outcome State Fault Refusal := settle s (slotAddi d a imm s)

/-- `mov`: A copy of sA (R165). -/
def slotMov (d a : Reg) (s : State) : Except Stop State :=
  unary (fun x => x) d a s

def execMov (d a : Reg) (s : State) : Host.Outcome State Fault Refusal := settle s (slotMov d a s)

/-- `lea`: sA plus b shifted left (R165). -/
def slotLea (d a b : Reg) (sh : BitVec 3) (imm : Imm) (s : State) : Except Stop State :=
  binary 1 (fun x y => x + (y <<< sh.toNat)) d a b imm s

def execLea (d a b : Reg) (sh : BitVec 3) (imm : Imm) (s : State) : Host.Outcome State Fault Refusal := settle s (slotLea d a b sh imm s)

end Sys2Proof.Machine
end

