-- ==== Sys2Proof/Machine/Float.lean ====
section
/-! DEFINITION. Scalar floating point (R166 to R168). -/

namespace Sys2Proof.Machine

/-- The FP32 value of bits 31:0 of a scalar (R166). -/
def fp32Of (x : Word) : Val := ofFp32 (x.extractLsb' 0 32).toNat

/-- Round an exact value to FP32 and write it with bits 63:32 zero; an SR rounding steps the generator once, whatever
the value (R83, R166). -/
def floatResult (s : State) (lat : Nat) (d : Reg) (r : Rnd) (v : Val) : Except Stop State :=
  let mode := resolveMode (me s) r
  let (w, s) := drawSeeds s mode 1
  scalarResult s lat d (BitVec.ofNat 64 (roundFloat 1 (rmode mode r (w.headD 0)) v))

/-- A two-operand rounding instruction. -/
def floatBinary (f : Val → Val → Val) (d a b : Reg) (r : Rnd) (s : State) : Except Stop State := do
  let x ← readS s a
  let y ← readS s b
  floatResult s 4 d r (f (fp32Of x) (fp32Of y))

/-- An exact minimum or maximum (R166). -/
def floatPick (f : Val → Val → Val) (d a b : Reg) (s : State) : Except Stop State := do
  let x ← readS s a
  let y ← readS s b
  scalarResult s 4 d (BitVec.ofNat 64 (roundFloat 1 rne (f (fp32Of x) (fp32Of y))))

/-- The condition of `fcmp` (R167). -/
def fcmpHolds (cnd : BitVec 4) (x y : Val) : Bool :=
  let un := x.isNan || y.isNan
  match cnd.toNat with
  | 0 => !un && x.eqv y
  | 1 => un || !x.eqv y
  | 2 => !un && x.lt y && !x.eqv y
  | 3 => !un && (x.lt y || x.eqv y)
  | 4 => un
  | _ => !un

/-- The element of `fcvt`'s result as a scalar: integers sign-extended, others zero-extended (R168). -/
def fcvtExtend (ft r : Nat) : Word := if isIntTag ft then sextTo64 (elemBits ft) r else BitVec.ofNat 64 r

/-- `fadd`: The rounded sum (R166). -/
def slotFadd (d a b : Reg) (r : Rnd) (s : State) : Except Stop State :=
  floatBinary Val.add d a b r s

def execFadd (d a b : Reg) (r : Rnd) (s : State) : Host.Outcome State Fault Refusal := settle s (slotFadd d a b r s)

/-- `fsub`: The rounded difference (R166). -/
def slotFsub (d a b : Reg) (r : Rnd) (s : State) : Except Stop State :=
  floatBinary (fun x y => x.add y.negate) d a b r s

def execFsub (d a b : Reg) (r : Rnd) (s : State) : Host.Outcome State Fault Refusal := settle s (slotFsub d a b r s)

/-- `fmul`: The rounded product (R166). -/
def slotFmul (d a b : Reg) (r : Rnd) (s : State) : Except Stop State :=
  floatBinary Val.mul d a b r s

def execFmul (d a b : Reg) (r : Rnd) (s : State) : Host.Outcome State Fault Refusal := settle s (slotFmul d a b r s)

/-- `fma`: Product and sum with one rounding (R166). -/
def slotFma (d a b c : Reg) (r : Rnd) (s : State) : Except Stop State := do
  let x ← readS s a
  let y ← readS s b
  let z ← readS s c
  floatResult s 5 d r (((fp32Of x).mul (fp32Of y)).add (fp32Of z))

def execFma (d a b c : Reg) (r : Rnd) (s : State) : Host.Outcome State Fault Refusal := settle s (slotFma d a b c r s)

/-- `fmin`: The smaller operand (R166). -/
def slotFmin (d a b : Reg) (s : State) : Except Stop State :=
  floatPick Val.min d a b s

def execFmin (d a b : Reg) (s : State) : Host.Outcome State Fault Refusal := settle s (slotFmin d a b s)

/-- `fmax`: The larger operand (R166). -/
def slotFmax (d a b : Reg) (s : State) : Except Stop State :=
  floatPick Val.max d a b s

def execFmax (d a b : Reg) (s : State) : Host.Outcome State Fault Refusal := settle s (slotFmax d a b s)

/-- `fcmp`: 1 if the condition holds, else 0 (R166, R167). -/
def slotFcmp (d a b : Reg) (cnd : BitVec 4) (s : State) : Except Stop State := do
  let x ← readS s a
  let y ← readS s b
  scalarResult s 4 d (if fcmpHolds cnd (fp32Of x) (fp32Of y) then 1 else 0)

def execFcmp (d a b : Reg) (cnd : BitVec 4) (s : State) : Host.Outcome State Fault Refusal := settle s (slotFcmp d a b cnd s)

/-- `fcvt`: One element converted between formats (R168). -/
def slotFcvt (d a : Reg) (ft fs : BitVec 4) (r : Rnd) (s : State) : Except Stop State := do
  let x ← readS s a
  let v := elementValue fs.toNat (x.toNat % 2 ^ elemBits fs.toNat)
  let mode := resolveMode (me s) r
  let (w, s) := drawSeeds s mode 1
  scalarResult s 4 d (fcvtExtend ft.toNat (roundTo ft.toNat (rmode mode r (w.headD 0)) v))

def execFcvt (d a : Reg) (ft fs : BitVec 4) (r : Rnd) (s : State) : Host.Outcome State Fault Refusal := settle s (slotFcvt d a ft fs r s)

end Sys2Proof.Machine
end

