-- ==== Sys2Proof/Machine/Arbitrate.lean ====
section
/-! DEFINITION. Arbitration points: which contender an output grants, and what a response takes from its request (R466,
R467, R470 to R472). -/

namespace Sys2Proof.Machine

/-- A packet as it contends: with the slack and lateness of itself and of what it blocks (R472). -/
structure Contender where
  p : NetPacket
  slk : Nat
  lateAt : Option Nat
deriving DecidableEq, Repr

/-- The slack of a packet, less the wraps of QRES whose decrement is still to come (R469). -/
def NetPacket.slackNow (p : NetPacket) : Nat := p.pkt.slack.toNat - p.owed

/-- A packet that contends for itself. -/
def NetPacket.contender (p : NetPacket) : Contender := ⟨p, p.slackNow, p.lateAt⟩

/-- Slack as arbitration counts it: a late packet has none. -/
def Contender.rank (c : Contender) : Nat := if c.lateAt.isSome then 0 else c.slk

/-- The contender with the least measure; the first one at a tie. -/
def leastBy (f : Contender → List Nat) : List Contender → Option Contender
  | [] => none
  | p :: l =>
    match leastBy f l with
    | none => some p
    | some q => if f q < f p then some q else some p

/-- The contender that an output grants, given how many grants have gone elsewhere since the late class had one (R470). -/
def choose (l : List Contender) (since : Nat) : Option Contender :=
  let late := l.filter (fun c => c.lateAt.isSome)
  let outriders := l.filter (fun c => c.p.pkt.vc == 2)
  if 3 ≤ since ∧ late ≠ [] then leastBy (fun c => [c.lateAt.getD 0, c.p.sent, c.p.id]) late
  else if outriders ≠ [] then leastBy (fun c => [c.rank, c.p.sent, c.p.id]) outriders
  else leastBy (fun c => [c.rank, if c.p.pkt.vc = 1 then 0 else 1, c.p.sent, c.p.id]) l

/-- Grants of an output since the late class had one. -/
def grantsSince (s : State) (n : NetPoint) (out : Nat) : Nat :=
  ((s.grants.find? (fun g => g.1 == n && g.2.1 == out)).map (·.2.2)).getD 0

def setGrants (s : State) (n : NetPoint) (out k : Nat) : State :=
  { s with grants := (s.grants.filter (fun g => !(g.1 == n && g.2.1 == out))) ++ (if k = 0 then [] else [(n, out, k)]) }

/-- Count a grant of an output: to the late class, to which an entry belongs that contends as late, or elsewhere (R470,
R472). -/
def countGrant (s : State) (n : NetPoint) (out : Nat) (c : Contender) : State :=
  setGrants s n out (if c.lateAt.isSome then 0 else min 3 (grantsSince s n out + 1))

/-- A packet moves on: it reaches its next point as the newest there. -/
def movePacket (s : State) (p : NetPacket) (place : NetPoint) (input : Nat) : State :=
  { s with packets := s.packets.filter (fun q => q.id != p.id) ++ [{ p with place := place, input := input, acc := false }] }

/-- The packet heads its queue: no other of its input and channel reached the point before it. -/
def headsQueue (s : State) (p : NetPacket) : Bool :=
  (s.packets.find? (fun q => q.place == p.place && q.input == p.input && q.pkt.vc == p.pkt.vc)).map (·.id) == some p.id

/-! ### Queued ticks (R469) -/

/-- A tick in which a packet stays in a queue: QRES advances, and a wrap owes one decrement. A packet on a link to another
device is not queued. -/
def queuedTick (p : NetPacket) : NetPacket :=
  if p.place = .away then p
  else { p with pkt := { p.pkt with qres := p.pkt.qres + 1 }, owed := if p.pkt.qres = 15 then p.owed + 1 else p.owed }

/-- A tick of the device time base passes; the decrements that it owes come at once (R469, `settleSlack`). -/
def passTick (s : State) : State := { s with time := s.time + 1, packets := s.packets.map queuedTick }

/-! ### Responses (R465, R471) -/

/-- Type of the response to a request. -/
def responseType (p : Packet) : Nat := if p.typ = 1 then 0x10 else if p.typ = 2 then 0x11 else 0x12

/-- The response to a request: its issuer becomes the destination; slack, queued ticks and lateness are the request's as they
stand (R471). -/
def responsePacket (p : Packet) (data : List Byte) : Packet :=
  let t := responseType p
  { p with typ := BitVec.ofNat 8 t, vc := 1, src := p.dst, srcDev := p.dstDev, dst := p.src, dstDev := p.srcDev, atw := 0
           exact := false, aux := if t = 0x10 then BitVec.ofNat 32 data.length else 0
           ndata := BitVec.ofNat 4 (flitCount t p.pa.toNat data.length)
           beFirst := (flitEnables t p.pa.toNat data.length).1, beLast := (flitEnables t p.pa.toNat data.length).2 }

/-- Opposite direction of a neighbour link (R476). -/
def oppositeDir (d : Nat) : Nat := (d + 2) % 4

/-- Where a response sets out: at the port's attachment, or on the neighbour link that its request took (R477). -/
def responsePlace (p : NetPacket) : NetPoint × Nat :=
  match p.place with
  | .linkIn c d => (.linkQueue c d, p.pkt.dst.toNat % 8)
  | _ => attachOf p.pkt.dst.toNat

/-- Answer a request: its packet becomes the response, on its way back with data and the cause of a failure, if any (R373,
R471). -/
def respond (s : State) (p : NetPacket) (data : List Byte) (cause : Byte) : State :=
  let q : NetPacket := { p with pkt := responsePacket p.pkt data, data := data, sent := s.time, cause := cause }
  movePacket s q (responsePlace p).1 (responsePlace p).2

/-! ### Bank queues of a memory port (R472) -/

/-- Bank queue of a physical address. -/
def bankQueue (pa : Nat) : Nat := pa / 128 % 8

/-- Bytes that a packet of another device touches (R465); a contribution touches none until its group completes (R484). -/
def packetLen (p : Packet) : Nat :=
  if p.typ = 3 then (if p.aux.extractLsb' 0 2 = 1 then 8 else 4) else if p.typ = 7 then 0 else p.aux.toNat % 4096

/-- Bytes of this device that a request at a port touches: its request's, or those that its addresses stand for (R366). -/
def touchedBytes (s : State) (p : NetPacket) : List Nat :=
  match s.reqs.find? (fun r => r.id == p.id) with
  | some r => r.pas
  | none =>
    match resolveSpan s [] ((List.range (packetLen p.pkt)).map (fun i => p.pkt.pa.toNat + i)) with
    | .ok l => l
    | .error _ => []

/-- Chunks of 64 bytes that a packet touches at a port. -/
def touchedChunks (s : State) (p : NetPacket) : List Nat := ((touchedBytes s p).map (· / 64)).eraseDups

/-- Bank queue of a request at a port: that of the first byte that it touches, else of its address. -/
def bankOfPacket (s : State) (p : NetPacket) : Nat := bankQueue ((touchedBytes s p).headD p.pkt.pa.toNat)

/-- A request writes. -/
def packetWrites (p : NetPacket) : Bool := p.pkt.typ != 1

/-- Two entries touch a common chunk, and one of them writes (R472). -/
def conflicts (s : State) (a b : NetPacket) : Bool :=
  (packetWrites a || packetWrites b) && (touchedChunks s a).any (fun x => (touchedChunks s b).contains x)

/-- Entries of one bank queue of a port, oldest first. -/
def bankEntries (s : State) (place : NetPoint) (bank : Nat) : List NetPacket :=
  s.packets.filter (fun p => p.place == place && p.pkt.vc == 0 && bankOfPacket s p == bank)

/-- An entry may not pass an older one that it conflicts with. -/
def blocked (s : State) (older : List NetPacket) (p : NetPacket) : Bool := older.any (fun q => conflicts s q p)

/-- The earlier of two times of lateness. -/
def earlier (a b : Option Nat) : Option Nat :=
  match a, b with
  | some x, some y => some (min x y)
  | none, y => y
  | x, none => x

/-- An entry with the urgency of the younger ones that it blocks (R472). -/
def inherited (s : State) (p : NetPacket) (younger : List NetPacket) : Contender :=
  let held := younger.filter (fun q => conflicts s p q)
  { p := p, slk := held.foldl (fun k q => min k q.slackNow) p.slackNow
    lateAt := held.foldl (fun t q => earlier t q.lateAt) p.lateAt }

/-- The entries of a queue that nothing older blocks, each with what it inherits. -/
def freeEntries (s : State) : List NetPacket → List NetPacket → List Contender
  | _, [] => []
  | older, p :: l =>
    (if blocked s older p then [] else [inherited s p l]) ++ freeEntries s (older ++ [p]) l

/-- The heads of a port's eight bank queues, among the entries that `ready` lets perform (R470, R472). -/
def bankHeads (s : State) (place : NetPoint) (ready : NetPacket → Bool) : List Contender :=
  (List.range 8).filterMap (fun b =>
    leastBy (fun c => [c.rank, c.p.sent, c.p.id]) ((freeEntries s [] (bankEntries s place b)).filter (fun c => ready c.p)))

end Sys2Proof.Machine
end

