-- ==== Sys2Proof/Machine/Exit.lean ====
section
/-! DEFINITION. Rows that leave: the exit store and exit notices (R290, R291, R439, R441 to R443). -/

namespace Sys2Proof.Machine

/-! ### `kv.sv` (R290) -/

/-- `kvSv`: Save exiting rows (R290). -/
def slotKvSv (t a b c : Reg) (h : Hint) (s : State) : Except Stop State := do
  let slots ← readS s b
  let d ← readS s c
  tileFree s a
  opRoom s
  let x ← vecTile s a
  let rows ← vecRows s
  vecTag (tileCapture s x) wideTags
  aligned 6 3 slots 4
  aligned 6 3 d 64
  spmBounds 6 3 slots.toNat (4 * rows)
  startOp s { newOp s (.kvSv t a b c h) t with
    a := d, b := slots, slk := slackOf s h.sl, nums := [x], busy := [(s.cur.1, x)] }

def execKvSv (t a b c : Reg) (h : Hint) (s : State) : Host.Outcome State Fault Refusal := settle s (slotKvSv t a b c h s)

/-- Store a row in the exit store; a range without exit-store permission ends the command (R290, R373, R441). -/
def exitWrite (s : State) (o : Op) (va : Nat) (b : List Byte) : Except OpErr State :=
  if (accessOf s o.party (writesAt o.seq o.chunk va)).isSome then engineWrite s o false va b [permWr, permEs] else do
  let _ ← enginePas s o.party va b.length [permWr]
  match enginePas s o.party va b.length [permWr, permEs] with
  | .ok _ => engineWrite s o false va b [permWr, permEs]
  | .error (.suspend f) => .error (.fail f.cause (BitVec.ofNat 64 f.addr) 0 (BitVec.ofNat 32 f.seg))
  | .error e => .error e

/-- Mark the pairs of a slot in some layers, each at its home, one after another (R439); a map of another device changes
there (R442). -/
def markPairs (s : State) (o : Op) (d : KvDesc) (slot : Nat) : List Nat → Except OpErr Unit
  | [] => .ok ()
  | l :: ls => do
    let key ← pairKey s o.party d l slot
    let _ ← changePair s o (pairVa d l slot) key 0 2
    markPairs s o d slot ls

/-- Save row `r`: its store and its marks (R290, R441, R442). -/
def saveRow (s : State) (o : Op) (x r : Nat) (w : BitVec 32) : Except OpErr State := do
  let d := kvDescOf (heldDesc o)
  let (b, s) ← engineRead s o.party true (o.b.toNat + 4 * r) 4 []
  let slot := ofBytes b
  if d.nslot ≤ slot then .error (kvFail o.a 5) else .ok ()
  let s ← exitWrite s o (d.esbase + slot * d.esstride + 512 * d.eschunk) (rowBytes ((tileNow s o.core x).row r))
  markPairs s o d slot ((List.range d.nlayer).filter (fun l => decide (rcwExitb w + 1 ≤ l)))
  .ok s

/-- The chunks of `kv.sv`: 0 reads the descriptor; row r has chunk 1 + 2r, its save, and 2 + 2r, which sets DONE once the
save has performed (R290, R442). They perform in order. -/
def kvSvChunk (s : State) (o : Op) (k : Nat) : Except OpErr (State × Op) :=
  let x := o.nums.headD 0
  if k = 0 then do
    outsideFill s o o.a
    let (img, s) ← readKvDesc s o o.a
    .ok (s, { o with bytes := toBytes 64 img.toNat })
  else if !o.done.contains (k - 1) then .error .wait
  else
    let r := (k - 1) / 2
    let w := (tileNow s o.core x).word r
    if badState w then .error (.fail causeRcw 0 (w.setWidth 64) (BitVec.ofNat 32 r))
    else if rcwState w ≠ stExit then .ok (s, o)
    else if k % 2 = 1 then do
      let s ← saveRow s o x r w
      .ok (s, o)
    else
      .ok (traceEvent (commitNow s o.core o.ctx [.tileRcw x r (w.extractLsb' 3 29 ++ BitVec.ofNat 3 stDone)]) o.core 2 o.ctx x
             (1#64 <<< r),
           { o with count := o.count + 1 })

def kvSvChunks (o : Op) : List Nat := List.range (2 * o.rows + 1)

/-- EXIT_SAVE_COMPLETE: every exiting row is saved and marked; the token counts them (R290, R442). -/
def execExitSaveComplete (core ctx seq : Nat) (s : State) : Host.Outcome State Fault Refusal :=
  match findOp s core ctx seq with
  | none => .next s
  | some o =>
    match o.instr with
    | .kvSv .. => completeOp kvSvChunk (kvSvChunks o) (fun s o => finishOp s o (tokenOk o.count)) s o
    | _ => .next s

/-! ### `ntf.x` (R291) -/

/-- State set of `ntf.x`: 0 means EXIT and DONE (R291). -/
def noticeSet (set : Byte) : Byte := if set = 0 then 0x14 else set

/-- Rows that an `ntf.x` sends notices for. -/
def noticeRows (s : State) (t : Tile) (pm : BitVec 3) (rows : Nat) (set : Byte) : List Nat :=
  (included s pm rows).filter (fun r => (noticeSet set).getLsbD (rcwState (t.word r)))

/-- Send the notice of one row (R291, R464). -/
def sendNotice (t : Tile) (atw : Word) (slk : BitVec 10) (key : Nat × Nat × Nat) (s : State) (r : Nat) : State :=
  let id := s.nextReq
  sendNow { s with nextReq := id + 1 } id 5 (atwCore atw) (atwDevice atw) 0 (t.word r) (withRow atw (atwRow atw + r)) [] slk
    (some key) none

/-- `ntfX`: Send exit notices (R291). -/
def slotNtfX (t a : Reg) (b : BitVec 3) (c : Reg) (set : Byte) (sl : BitVec 4) (s : State) : Except Stop State := do
  let atw ← readS s c
  tileFree s a
  opRoom s
  let x ← vecTile s a
  let rows ← vecRows s
  let tile := tileCapture s x
  vecTag tile anyTags
  statesOk tile (included s b rows)
  let rs := if atwEn atw then noticeRows s tile b rows set else []
  let o := { newOp s (.ntfX t a b c set sl) t with a := atw, slk := slackOf s sl, count := rs.length }
  let s' ← startOp s o
  .ok (rs.foldl (sendNotice tile atw o.slk o.key) s')

def execNtfX (t a : Reg) (b : BitVec 3) (c : Reg) (set : Byte) (sl : BitVec 4) (s : State) : Host.Outcome State Fault Refusal := settle s (slotNtfX t a b c set sl s)

end Sys2Proof.Machine
end

