-- ==== Sys2Proof/Machine/Stream.lean ====
section
/-! DEFINITION. Stream registers and the stream unit (R222 to R228). -/

namespace Sys2Proof.Machine

/-- Trap STREAM on stream `q` (R500). -/
def streamTrap {α : Type} (q : Nat) : Except Stop α := trapping causeStream 4 2 0 0 (BitVec.ofNat 32 q)

/-- Key under which a stream that a `q.drain` has unbound is kept until its token (R227). -/
def drainKey (seq : Nat) : Nat := 8 + seq

/-- A `q.bind` of the executing context on `q` that has not completed. -/
def bindPending (s : State) (q : Nat) : Bool :=
  (opsBefore s).any (fun o => o.core = s.cur.1 && o.ctx = s.cur.2 &&
    (match o.instr with | .qBind .. => o.nums.headD 0 == q | _ => false))

/-- `qBind`: Bind a stream (R222, R223). -/
def slotQBind (t a b : Reg) (c : BitVec 3) (dir win : Bool) (len : BitVec 13) (h : Hint) (s : State) :
    Except Stop State := do
  let d ← readS s a
  let buf ← readS s b
  opRoom s
  aligned 2 2 d 64
  aligned 2 2 buf 512
  spmBounds 2 2 d.toNat 64
  let q := c.toNat
  check (Tbl.find (me s).streams q = none && !bindPending s q && decide (1 ≤ len.toNat ∧ len.toNat ≤ 4096) &&
    decide (buf.toNat + 512 * len.toNat ≤ Config.spmBytes)) (streamTrap q)
  startOp s { newOp s (.qBind t a b c dir win len h) t with a := d, b := buf, slk := slackOf s h.sl, nums := [q] }

def execQBind (t a b : Reg) (c : BitVec 3) (dir win : Bool) (len : BitVec 13) (h : Hint) (s : State) : Host.Outcome State Fault Refusal := settle s (slotQBind t a b c dir win len h s)

/-- Rows of 512 bytes of a descriptor's lines (R223). -/
def TensorDesc.rowsPerLine (t : TensorDesc) : Nat := (t.size[0]?).getD 0 * elemBits t.tag / 8 / 512

/-- Address of stream row `k` in traversal order (R219, R223). -/
def TensorDesc.rowAddr (t : TensorDesc) (k : Nat) : Int :=
  t.lineAddr (k / t.rowsPerLine) + 512 * (k % t.rowsPerLine : Nat)

/-- The work of a `q.bind`: read the descriptor and bind (R223). -/
def qBindChunk (s : State) (o : Op) (_ : Nat) : Except OpErr (State × Op) := do
  let (b, s) ← engineRead s o.party true o.a.toNat 64 []
  let d := descOfBytes b
  let t := tensorOf d
  let bytes := (t.size[0]?).getD 0 * elemBits t.tag
  match o.instr with
  | .qBind _ _ _ c dir win len h =>
    if !t.valid || bytes % (8 * 512) ≠ 0 then .error (.fail causeStream 0 0 (BitVec.ofNat 32 c.toNat))
    else
      let st : Stream :=
        { out := dir, win := win, base := o.b.toNat, len := len.toNat, total := t.lines * t.rowsPerLine, fetched := 0
          rp := 0, freed := 0, consumed := 0, desc := d, slk := o.slk, evp := h.evp, na := h.na, seq := o.seq
          drain := none, susp := false, dead := false }
      .ok (withCtx s o.core o.ctx (fun x => { x with streams := Tbl.put x.streams c.toNat st }),
           { o with count := st.total })
  | _ => .ok (s, o)

/-- STREAM_BIND_COMPLETE: the register is bound; the token counts the rows (R223). -/
def execStreamBindComplete (core ctx seq : Nat) (s : State) : Host.Outcome State Fault Refusal :=
  match findOp s core ctx seq with
  | none => .next s
  | some o =>
    match o.instr with
    | .qBind .. => completeOp qBindChunk [0] (fun s o => finishOp s o (tokenOk o.count)) s o
    | _ => .next s

/-- Scratchpad offset of buffer row `k`. -/
def Stream.rowOffset (st : Stream) (k : Nat) : Nat := st.base + 512 * (k % st.len)

/-- The party of a stream's transfers of row `k` (R347). -/
def streamParty (s : State) (core ctx : Nat) (st : Stream) (k : Nat) : Party :=
  { core := core, ctx := ctx, asid := (ctxOf s core ctx).asid, slk := st.slk, cookie := cookieOf s core ctx, seq := st.seq
    tag := k + 1, evp := st.evp, na := st.na, link := none }

/-- The number that a trap record gives for a stream's fault: its `q.bind`'s. The command of a stream that a restore bound anew
has none since the restore; the record reads 0 (R501, R507; DESIGN CHOICE, Assumption 120). -/
def Stream.cseq (st : Stream) : BitVec 32 := if st.seq < 2 ^ 32 then BitVec.ofNat 32 st.seq else 0

/-- The transfers of a stream may go on: no fault of them is open, and its `q.bind` has completed (R198, R223). -/
def streamRuns (s : State) (core ctx : Nat) (st : Stream) : Bool :=
  !st.susp && !st.dead && (findOp s core ctx st.seq).isNone

/-- An access of a stream's transfer of row `k`. -/
def ofRow (core ctx : Nat) (st : Stream) (k : Nat) (r : Req) : Bool := r.engineOf core ctx st.seq && r.kind.tag == some (k + 1)

/-- What arrives for rows that `q.adv` has skipped since their fetch began is discarded (R225). -/
def discardSkipped (s : State) (core ctx : Nat) (st : Stream) : State :=
  if st.out then s
  else { s with reqs := s.reqs.filter (fun r => !((List.range st.freed).any (fun k => ofRow core ctx st k r) && landed s r)) }

/-- Fetch the next row of an in-stream, 64-byte chunk by chunk (R223, R225, R352): rows skipped before their fetch are
omitted, and no further row is fetched once the context waits for its save (R228). -/
def fetchRow (s : State) (core ctx : Nat) (st : Stream) : Except OpErr (State × Stream) :=
  let k := max st.fetched st.freed
  let p := streamParty s core ctx st k
  if st.out || !streamRuns s core ctx st || decide (st.total ≤ k) || decide (st.len ≤ k - st.freed) then .error .wait
  else if (ctxOf s core ctx).status == .saving && !s.reqs.any (ofRow core ctx st k) then .error .wait
  else do
    let (b, s) ← engineRead s p false ((tensorOf st.desc).rowAddr k % 2 ^ 64).toNat 512 [permRd]
    let s ← partyWrite s p true (st.rowOffset k) b []
    .ok (dropTag s core ctx st.seq p.tag, { st with fetched := k + 1 })

/-- Write the oldest appended row of an out-stream to memory (R223, R227). -/
def writeRow (s : State) (core ctx : Nat) (st : Stream) : Except OpErr (State × Stream) :=
  let p := streamParty s core ctx st st.freed
  if !st.out || !streamRuns s core ctx st || decide (st.fetched ≤ st.freed) then .error .wait
  else do
    let (b, s) ← engineRead s p true (st.rowOffset st.freed) 512 []
    let s ← partyWrite s p false ((tensorOf st.desc).rowAddr st.freed % 2 ^ 64).toNat b [permWr]
    .ok (dropTag s core ctx st.seq p.tag, { st with freed := st.freed + 1, consumed := st.consumed + 1 })

def putStream (s : State) (core ctx q : Nat) (st : Stream) : State :=
  withCtx s core ctx (fun c => { c with streams := Tbl.put c.streams q st })

/-- STREAM_ROW_FETCH: the stream unit goes on with the next row into a free buffer row (R223, R347). -/
def execStreamRowFetch (core ctx q : Nat) (s : State) : Host.Outcome State Fault Refusal :=
  match Tbl.find (ctxOf s core ctx).streams q with
  | none => .next s
  | some st =>
    let s := discardSkipped s core ctx st
    match fetchRow s core ctx st with
    | .ok (s, st) => .next (putStream s core ctx q st)
    | .error (.send a) => .next (sendAccess s a)
    | .error (.fault f) => .fault f
    | .error _ => .next s

/-- An operation that still appends to a bound stream (R316). -/
def appending (s : State) (core ctx bind : Nat) : Bool :=
  s.ops.any (fun o => o.core = core && o.ctx = ctx && (match o.instr with | .mmOut .. => o.nums.headD 0 == bind | _ => false))

/-- The stream is still bound: its `q.drain` has not taken effect for the bundles. -/
def stillBound (s : State) (core ctx : Nat) (st : Stream) : Bool :=
  (ctxOf s core ctx).streams.any (fun x => decide (x.1 < 8) && x.2.seq == st.seq && x.2.drain.isNone)

/-- The token of a `q.drain`, once every appended row has performed (R227). Where a fault has ended the transfers of an
out-stream, rows of it remain unwritten and the token reads error (R198). -/
def settleDrain (s : State) (core ctx q : Nat) : State :=
  match Tbl.find (ctxOf s core ctx).streams q with
  | none => s
  | some st =>
    match st.drain with
    | none => s
    | some seq =>
      if (decide (st.freed < st.fetched) && !st.dead) || accessPending s core ctx st.seq || appending s core ctx st.seq ||
          stillBound s core ctx st then s
      else
        let s := dropEngineReqs (withCtx s core ctx (fun c => { c with streams := Tbl.del c.streams q })) core ctx st.seq
        match findOp s core ctx seq with
        | some o => finishOp s o (if st.freed < st.fetched then tokenError 0 else tokenOk st.consumed)
        | none => s

/-- STREAM_ROW_WRITE: an appended row is written to memory; the last one of a drained stream brings its token (R223,
R227). -/
def execStreamRowWrite (core ctx q : Nat) (s : State) : Host.Outcome State Fault Refusal :=
  match Tbl.find (ctxOf s core ctx).streams q with
  | none => .next s
  | some st =>
    match writeRow s core ctx st with
    | .ok (s, st) => .next (settleDrain (putStream s core ctx q st) core ctx q)
    | .error (.send a) => .next (sendAccess s a)
    | .error (.fault f) => .fault f
    | .error _ => .next (settleDrain s core ctx q)

/-- The count of `q.adv` and `q.wait` (R222). -/
def streamCount (x : Word) (off : Imm) : Int := (effAddr x off).toInt

/-- `qAdv`: Advance a stream (R225). -/
def slotQAdv (q : BitVec 3) (a : Reg) (off : Imm) (s : State) : Except Stop State := do
  let x ← readS s a
  let n := streamCount x off
  match Tbl.find (me s).streams q.toNat with
  | none => streamTrap q.toNat
  | some st => do
    let limit : Int := if st.win then (st.rp : Int) - st.freed else (st.total : Int) - st.rp
    check (!st.out && decide (0 ≤ n ∧ n ≤ limit)) (streamTrap q.toNat)
    .ok (result s 1 (.advance q.toNat false n))

def execQAdv (q : BitVec 3) (a : Reg) (off : Imm) (s : State) : Host.Outcome State Fault Refusal := settle s (slotQAdv q a off s)

/-- `qAdvRp`: Move the read pointer of a window (R225). On a stream bound outside window mode, of which the manual does not
speak, it traps STREAM like a count outside the limits (DESIGN CHOICE, Assumption 88). -/
def slotQAdvRp (q : BitVec 3) (a : Reg) (off : Imm) (s : State) : Except Stop State := do
  let x ← readS s a
  let n := streamCount x off
  match Tbl.find (me s).streams q.toNat with
  | none => streamTrap q.toNat
  | some st => do
    check (!st.out && st.win && decide ((st.freed : Int) ≤ st.rp + n ∧ st.rp + n ≤ st.fetched)) (streamTrap q.toNat)
    .ok (result s 1 (.advance q.toNat true n))

def execQAdvRp (q : BitVec 3) (a : Reg) (off : Imm) (s : State) : Host.Outcome State Fault Refusal := settle s (slotQAdvRp q a off s)

/-- `qWait`: Wait for rows (R226). -/
def slotQWait (q : BitVec 3) (a : Reg) (off : Imm) (s : State) : Except Stop State := do
  let x ← readS s a
  let n := streamCount x off
  match Tbl.find (me s).streams q.toNat with
  | none => streamTrap q.toNat
  | some st => do
    check (!st.out && decide (n ≤ st.len)) (streamTrap q.toNat)
    .ok (withMe s (fun c => { c with waits := c.waits ++ [.stream q.toNat n.toNat] }))

def execQWait (q : BitVec 3) (a : Reg) (off : Imm) (s : State) : Host.Outcome State Fault Refusal := settle s (slotQWait q a off s)

/-- Cancel the fetches of an in-stream that are in flight (R227). -/
def cancelFetches (s : State) (core ctx : Nat) (st : Option Stream) : State :=
  match st with
  | none => s
  | some st =>
    if st.out then s
    else
      let ids := (s.reqs.filter (fun r => r.engineOf core ctx st.seq)).map (·.id)
      dropEngineReqs { s with packets := s.packets.filter (fun p => !ids.contains p.id)
                              outbound := s.outbound.filter (fun x => !x.req.any (fun i => ids.contains i)) } core ctx st.seq

/-- The stream as a `q.drain` leaves it: an in-stream's rows are discarded, an unbound register counts none (R227). -/
def drainedStream (st : Option Stream) (seq : Nat) : Stream :=
  match st with
  | some st => if st.out then { st with drain := some seq } else { st with out := true, fetched := 0, freed := 0, drain := some seq, dead := true }
  | none => { out := true, win := false, base := 0, len := 1, total := 0, fetched := 0, rp := 0, freed := 0, consumed := 0,
              desc := 0, slk := 0, evp := 0, na := false, seq := seq, drain := some seq, susp := false, dead := false }

/-- `qDrain`: Unbind a stream and join its rows (R227). -/
def slotQDrain (t : Reg) (c : BitVec 3) (s : State) : Except Stop State := do
  opRoom s
  let o := newOp s (.qDrain t c) t
  let old := Tbl.find (me s).streams c.toNat
  let st := drainedStream old o.seq
  let s' ← startOp (cancelFetches s s.cur.1 s.cur.2 old) o
  .ok (result (putStream s' s.cur.1 s.cur.2 (drainKey o.seq) st) 1 (.unbind c.toNat))

def execQDrain (t : Reg) (c : BitVec 3) (s : State) : Host.Outcome State Fault Refusal := settle s (slotQDrain t c s)

end Sys2Proof.Machine
end

