-- ==== Sys2Proof/Machine/Matrix.lean ====
section
/-! DEFINITION. The matrix engine: operands, sums, dataflows, bitmaps and packing (R294 to R329). -/

namespace Sys2Proof.Machine

/-! ### Classes and shapes (R294) -/

/-- Class of a matrix element format: 0 Float 16, 1 Float 8, 2 Float 4, 3 Int 8, 4 Int 4; none for any other tag. -/
def mtxClass (tag : Nat) : Option Nat :=
  match tag with
  | 2 | 3 => some 0
  | 4 | 5 => some 1
  | 6 | 7 => some 2
  | 9 => some 3
  | 10 => some 4
  | _ => none

/-- Depth K of a format, and its column groups G. -/
def mtxDepth (tag : Nat) : Nat := 2048 / elemBits tag
def mtxGroups (tag : Nat) : Nat := 256 / elemBits tag

/-- Tag of a class's results. -/
def resultTag (cls : Nat) : Nat := if 3 ≤ cls then 8 else 1

/-- Bits of a number that are set, below `n`, ascending. -/
def bitsSet (m n : Nat) : List Nat := (List.range n).filter (fun k => m.testBit k)

/-! ### Block-sparse operands (R318 to R320) -/

/-- MAP, ETAG and NZB of a tile tagged BSP (R319). -/
def bspMap (t : Tile) : Nat := ((t.row 32).extractLsb' 0 512).toNat
def bspTag (t : Tile) : Nat := ((t.row 32).extractLsb' 512 4).toNat
def bspNzb (t : Tile) : Nat := ((t.row 32).extractLsb' 528 16).toNat

/-- Element `e` of the packed blocks of a BSP tile. -/
def bspElem (t : Tile) (w e : Nat) : Nat := ((t.row (w * e / 4096)).extractLsb' (w * e % 4096) w).toNat

/-- A map of `n` bits with its stated count is well formed (R320). -/
def mapFormed (map nzb n : Nat) : Bool := decide (map < 2 ^ n) && decide (nzb ≤ n) && (bitsSet map n).length == nzb

/-- Place of a present block among the packed ones; none for an absent block. -/
def blockRank (map b : Nat) : Option Nat := if map.testBit b then some (bitsSet map b).length else none

/-- The header of a B-BSP image as a number (R319). -/
def imageMap (h : Nat) : Nat := h % 2 ^ 1024
def imageNzb (h : Nat) : Nat := h / 2 ^ 1024 % 2 ^ 16
def imageTag (h : Nat) : Nat := h / 2 ^ 1040 % 16
def imageSc (h : Nat) : Bool := h.testBit 1044

/-- Where the scale area of a B-BSP image lies, and the image's length (R319). -/
def imageScales (w nzb : Nat) : Nat := 192 + 64 * ceilDiv (8 * w * nzb) 64
def imageLen (w nzb : Nat) (sc : Bool) : Nat := imageScales w nzb + (if sc then 1088 else 0)

/-! ### Elements of A and B (R295, R296, R298, R305) -/

/-- Whether a format's elements decode with scales in a matrix instruction (R295). -/
def mtxScaled (tag : Nat) : Bool := isScaled tag && !isIntTag tag

/-- An element under its scales; integer codes stand alone (R72, R295). -/
def mtxValue (tag code bs ss : Nat) : Val :=
  if mtxScaled tag then decodeScaled tag code bs ss else elementValue tag code

/-- Element `k` of row `i` of half `kh` of a dense A (R295). -/
def denseA (t : Tile) (kh i k : Nat) : Val :=
  let tag := t.tag.toNat
  let j := kh * mtxDepth tag + k
  mtxValue tag (elemOf tag (t.row i) j) (scaleByte (t.scales i) (j / 64))
    (t.super ((i * blocksPerRow tag + j / 64) / 256)).toNat

/-- Element `k` of row `i` of a block-sparse A; none in an absent block (R308, R319). -/
def sparseA (t : Tile) (i k : Nat) : Option Val :=
  let tag := bspTag t
  (blockRank (bspMap t) (mtxGroups tag * (i / 8) + k / 8)).map (fun r =>
    mtxValue tag (bspElem t (elemBits tag) (64 * r + 8 * (i % 8) + k % 8)) (scaleByte (t.scales i) (k / 64))
      (t.super ((i * blocksPerRow tag + k / 64) / 256)).toNat)

/-- Element tag of an A operand. -/
def tagOfA (t : Tile) : Nat := if t.tag = 12 then bspTag t else t.tag.toNat

/-- Row `i` of A; a skipped element is none (R299, R308). -/
def rowOfA (t : Tile) (kh pads i : Nat) : List (Option Val) :=
  (List.range (mtxDepth (tagOfA t))).map (fun k =>
    if pads.testBit i then none
    else if t.tag = 12 then sparseA t i k
    else some (denseA t kh i k))

/-- A set of numbers below `n` as a mask. -/
def groupMask (n : Nat) (p : Nat → Bool) : Nat := (List.range n).foldl (fun m g => if p g then m + 2 ^ g else m) 0

/-- The column groups of A that hold a block which the sum reads: present, in a row below M that is no pad (R308). -/
def liveGroupsA (t : Tile) (pads m : Nat) : Nat :=
  let g := mtxGroups (tagOfA t)
  groupMask g (fun k => (List.range m).any (fun i => !pads.testBit i && (t.tag ≠ 12 || (bspMap t).testBit (g * (i / 8) + k))))

/-- The column groups of a B with this map that hold a present block. -/
def liveGroupsB (tag : Nat) (map : Option Nat) : Nat :=
  let g := mtxGroups tag
  match map with
  | none => 2 ^ g - 1
  | some m => groupMask g (fun k => (List.range 16).any (fun c => m.testBit (g * c + k)))

/-- Flat index of the first scale byte with bit 7 set among the blocks of A that are decoded: those that face a present
block of B, whose live column groups are `facing` (R305, R308). -/
def badScaleA (t : Tile) (kh pads m facing : Nat) : Option Nat :=
  let tag := tagOfA t
  let bpk := mtxDepth tag / 64
  let rows := (List.range m).filter (fun i => !pads.testBit i)
  let present (i b : Nat) : Bool :=
    (List.range 8).any (fun g => facing.testBit (8 * b + g) &&
      (t.tag ≠ 12 || (bspMap t).testBit (mtxGroups tag * (i / 8) + 8 * b + g)))
  if !mtxScaled tag then none
  else
    (rows.flatMap (fun i => (List.range bpk).map (fun b => (i, b)))).findSome? (fun p =>
      if present p.1 p.2 && decide (128 ≤ scaleByte (t.scales p.1) (kh * bpk + p.2))
      then some (p.1 * blocksPerRow tag + kh * bpk + p.2) else none)

/-- A B operand as the engine holds it: its element tag, its bytes as a number, its map where it is block-sparse, and
the first byte of its scale area. -/
structure MtxB where
  tag : Nat
  img : Nat
  map : Option Nat
  scales : Option Nat
deriving DecidableEq, Repr

/-- Block scale of block `b` of column `n`, and superblock scale (R296). -/
def MtxB.scale (b : MtxB) (n k : Nat) : Nat :=
  match b.scales with
  | none => 0x38
  | some o => b.img >>> (8 * (o + 8 * n + k)) % 256

def MtxB.super (b : MtxB) (n k : Nat) : Nat :=
  match b.scales with
  | none => 0x3F800000
  | some o => b.img >>> (8 * (o + 1024) + 32 * ((n * (mtxDepth b.tag / 64) + k) / 256)) % 2 ^ 32

/-- Column `n` of B; a skipped element is none (R296, R308, R319). -/
def MtxB.column (b : MtxB) (n : Nat) : List (Option Val) :=
  let w := elemBits b.tag
  let col := b.img >>> (2048 * n) % 2 ^ 2048
  (List.range (mtxDepth b.tag)).map (fun k =>
    match b.map with
    | none => some (mtxValue b.tag (col >>> (w * k) % 2 ^ w) (b.scale n (k / 64)) (b.super n (k / 64)))
    | some map =>
      (blockRank map (mtxGroups b.tag * (n / 8) + k / 8)).map (fun r =>
        mtxValue b.tag (b.img >>> (8 * 192 + w * (64 * r + 8 * (n % 8) + k % 8)) % 2 ^ w) (b.scale n (k / 64))
          (b.super n (k / 64))))

/-- Flat index of the first scale byte of B with bit 7 set in a block that is decoded: one that faces a present block of A,
whose live column groups are `facing` (R305, R308). -/
def MtxB.badScale (b : MtxB) (facing : Nat) : Option Nat :=
  let bpc := mtxDepth b.tag / 64
  let present (n k : Nat) : Bool :=
    (List.range 8).any (fun g => facing.testBit (8 * k + g) &&
      (match b.map with | none => true | some map => map.testBit (mtxGroups b.tag * (n / 8) + 8 * k + g)))
  if !mtxScaled b.tag then none
  else
    ((List.range 128).flatMap (fun n => (List.range bpc).map (fun k => (n, k)))).findSome? (fun p =>
      if present p.1 p.2 && decide (128 ≤ b.scale p.1 p.2) then some (p.1 * bpc + p.2) else none)

/-! ### The matrix sum (R308) -/

/-- One term: +0 where either element is skipped (R102, R308). -/
def mtxTerm (a b : Option Val) : Val :=
  match a, b with
  | some x, some y => x.mul y
  | _, _ => Val.zero false

/-- One rounding to FP32, or one saturation to INT32 (R97, R98). -/
def mtxRound (cls : Nat) (v : Val) : Nat :=
  if 3 ≤ cls then (BitVec.ofInt 32 (roundInt 32 rne v)).toNat else toFp32 v

/-- `result(i, n)` of R308. -/
def mtxSum (cls : Nat) (cold : Val) (a b : List (Option Val)) : Nat :=
  mtxRound cls (exactSum (cold :: List.zipWith mtxTerm a b))

/-- The results of rows 0 to M − 1 against 128 columns; `cold` gives the old elements. -/
def mtxResults (cls m : Nat) (t : Tile) (kh pads : Nat) (b : MtxB) (cold : Nat → Nat → Val) : List (List Nat) :=
  let cols := (List.range 128).map b.column
  (List.range m).map (fun i =>
    let row := rowOfA t kh pads i
    cols.zipIdx.map (fun c => mtxSum cls (cold i c.2) row c.1))

/-! ### Duration and cost (R311, R321, R327) -/

/-- Bitmap of an A operand in A form (R318). -/
def mapOfA (t : Tile) : Nat := if t.tag = 12 then bspMap t else 2 ^ (8 * mtxGroups t.tag.toNat) - 1

/-- Bitmap of a B operand in B form: of a header, or of a dense B (R318, R321). -/
def mapOfB (tag : Nat) (h : Option Nat) : Nat := match h with | some v => imageMap v | none => 2 ^ (16 * mtxGroups tag) - 1

/-- Pairs of an A block and a B block that are both present (R321). -/
def blockPairs (amap bmap g : Nat) : Nat :=
  ((List.range g).map (fun c =>
    ((List.range 8).filter (fun r => amap.testBit (g * r + c))).length *
    ((List.range 16).filter (fun r => bmap.testBit (g * r + c))).length)).foldl (· + ·) 0

/-- Role swap (R311). Thresholds above 64 act as 64 (R44). -/
def roleSwap (c : Ctx) (df m : Nat) (dense noswap : Bool) : Bool :=
  df == 0 && dense && !noswap && c.swapth.extractLsb' 0 7 != 0 && decide (m ≤ min 64 (c.swapth.extractLsb' 0 7).toNat)

/-- D of `mm` and `mm.z` (R321). -/
def mmDuration (swap : Bool) (m pairs w : Nat) : Nat :=
  if swap then max 8 (8 * ceilDiv m 8) else max 8 (ceilDiv pairs (512 / w))

/-- Cost of `mm` and `mm.z` in toll units (R327). -/
def mmCost (cls df d : Nat) (ag : Bool) : Nat :=
  (if cls ≤ 1 then 4 else if cls ≤ 3 then 3 else 2) * d + (if df = 0 then 0 else d) + (if ag then 16 else 0)

/-! ### Issue (R302 to R307, R328) -/

/-- Physical number of tile `n` as an operand of the MTX slot (R34). -/
def mtxTile (s : State) (n : Nat) : Except Stop Nat :=
  if h : n < 64 then tileReg s 7 4 (BitVec.ofNatLT n h)
  else trapping causePriv 7 4 (s.fly.ba.setWidth 64) (BitVec.ofNat 64 n)

/-- FMT_TAG of the MTX slot. -/
def mtxTag (ok : Bool) (tag : Nat) (addr : Word := 0) : Except Stop Unit :=
  check ok (trapping causeTag 7 4 addr (BitVec.ofNat 64 tag))

/-- The engine still runs an earlier instruction (R307). -/
def mtxBusy (s : State) : Except Stop Unit :=
  if s.time < Tbl.look 0 (here s).units 4 then .error .hold else .ok ()

/-- The balance covers a cost (R328). -/
def mtxFunds (s : State) (cost : Nat) : Except Stop Unit :=
  if (me s).tollHave + (here s).balance < cost then .error .hold else .ok ()

/-- Issue of a matrix instruction of duration `d`: its cost is drawn from the reservation first, and the engine takes
its next word `d` cycles later (R307, R328). -/
def startMtx (s : State) (o : Op) (d cost : Nat) : Except Stop State := do
  mtxFunds s cost
  let s ← startOp s o
  let r := min (me s).tollHave cost
  let s := withMe s (fun c => { c with tollHave := c.tollHave - r })
  .ok (withHere s (fun k => { k with balance := k.balance - (cost - r), units := Tbl.put k.units 4 (s.time + d) }))

/-- ROWS of SHAPE (R294). -/
def mtxRows (s : State) : Except Stop Nat := rowsCheck s 7 4

/-- Fields of a gather row (R298). -/
def gatherIdx (g : Row) (r : Nat) : Nat := (g.extractLsb' (16 * r) 16).toNat
def gatherBase (g : Row) : Nat := (g.extractLsb' 1024 32).toNat
def gatherTag (g : Row) : Nat := (g.extractLsb' 1056 4).toNat
def gatherScales (g : Row) : Nat := (g.extractLsb' 1088 32).toNat
def gatherSuper (g : Row) : BitVec 32 := g.extractLsb' 1120 32

/-- Rows below `m` that the gather row names. -/
def gatherRows (g : Row) (m : Nat) : List Nat := (List.range m).filter (fun r => gatherIdx g r != 0xFFFF)

/-- Pad rows, as a mask (R299). -/
def gatherPads (g : Row) (m : Nat) : Nat :=
  (List.range m).foldl (fun p r => if gatherIdx g r = 0xFFFF then p + 2 ^ r else p) 0

/-- The scratchpad bytes of the named rows and of their scale entries: first offset and length of each piece (R298). -/
def gatherSpans (g : Row) (kh : Nat) (rows : List Nat) : List (Nat × Nat) :=
  rows.flatMap (fun r =>
    (gatherBase g + 512 * gatherIdx g r + 256 * kh, 256) ::
      (if gatherScales g = 0xFFFFFFFF then [] else [(gatherScales g + 16 * gatherIdx g r, 16)]))

/-- The gathered rows as a dense A (R298, R299). -/
def gatherTile (s : State) (g : Row) (kh m : Nat) : Tile :=
  let rows := gatherRows g m
  let unit := gatherScales g = 0xFFFFFFFF
  { rows := rows.map (fun r =>
      (r, BitVec.ofNat 4096 (ofBytes (spmSlice s (gatherBase g + 512 * gatherIdx g r + 256 * kh) 256) * 2 ^ (2048 * kh))))
    rcw := []
    tag := BitVec.ofNat 4 (gatherTag g)
    bsc := if unit then [] else rows.map (fun r =>
      (r, BitVec.ofNat 128 (ofBytes (spmSlice s (gatherScales g + 16 * gatherIdx g r) 16))))
    ssc := if unit then defaultSuper else gatherSuper g ++ gatherSuper g ++ gatherSuper g ++ gatherSuper g }

/-- STREAM of the MTX slot (R297, R316). -/
def mtxStream {α : Type} (q : Nat) : Except Stop α := trapping causeStream 7 4 0 0 (BitVec.ofNat 32 q)

/-- An in-stream that can give `n` rows (R224, R297). -/
def streamFor (s : State) (q n : Nat) : Except Stop Stream :=
  match Tbl.find (me s).streams q with
  | none => mtxStream q
  | some st => if st.out || decide (st.len < n) || decide (st.total < st.rp + n) then mtxStream q else .ok st

/-- Rows that a stream has filled and not read. -/
def Stream.filled (st : Stream) : Nat := st.fetched - st.rp

/-- Bytes of the next `n` rows of a stream. -/
def streamBytes (s : State) (st : Stream) (n : Nat) : List Byte :=
  (List.range n).flatMap (fun k => spmSlice s (st.rowOffset (st.rp + k)) 512)

/-- Read `n` rows of stream `q` (R224, R225). -/
def consume (s : State) (q n : Nat) : State :=
  withMe s (fun c =>
    match Tbl.find c.streams q with
    | none => c
    | some st => { c with streams := Tbl.put c.streams q (st.advance st.win n) })

/-- An `mm.out` of a core has not appended its rows yet. -/
def outQueued (l : List Op) (core : Nat) : Bool :=
  l.any (fun o => o.core = core && (match o.instr with | .mmOut .. => true | _ => false))

/-- The same, as the executing bundle sees it. -/
def outPending (s : State) : Bool := outQueued (opsBefore s) s.cur.1

/-- The row merge buffer is free for the executing context, or its own (R315, R316). -/
def mergeHold (s : State) : Except Stop Unit :=
  if outPending s || ((here s).merge.owner.isSome && (here s).merge.owner != some s.cur.2) then .error .hold else .ok ()

/-- Bytes that the engine needs at issue: the first of them in a bank in transition, if any, which ends the instruction as an
engine fault and traps nothing (R306, R329); a gated unit is woken (R380). -/
def latched (s : State) (off n : Nat) : Except Stop (Option Nat) :=
  match gatedUnit (here s) off n with
  | some u => .error (.wake s.cur.1 u)
  | none => .ok (carveHit (here s) off n)

/-- The first of several that is there. -/
def firstOf : List (Option Nat) → Option Nat
  | [] => none
  | some n :: _ => some n
  | none :: l => firstOf l

/-- The first byte of some pieces that lies in a bank in transition. -/
def latchedSpans (s : State) (l : List (Nat × Nat)) : Except Stop (Option Nat) := do
  let l ← l.mapM (fun p => latched s p.1 p.2)
  .ok (firstOf l)

/-- What an operation keeps of a byte in a bank in transition: its offset plus one, or 0. -/
def carveNote (b : Option Nat) : Nat := match b with | some n => n + 1 | none => 0

/-- The fault that such a note stands for (R211, R306). -/
def carveFault (n : Nat) : Except OpErr Unit :=
  if n = 0 then .ok () else .error (.fail causeCarve (BitVec.ofNat 64 (n - 1)) (BitVec.ofNat 64 (bankOf (n - 1))) 0)

/-- Header of a B-BSP image at `off`, where it lies in the scratchpad and can be read (R320), and its byte in a bank in
transition. -/
def imageHeader (s : State) (off : Word) : Except Stop (Option Nat × Option Nat) :=
  if off.toNat % 64 = 0 ∧ off.toNat + 192 ≤ Config.spmBytes then do
    let b ← latched s off.toNat 192
    .ok (if b.isSome then none else some (ofBytes (spmSlice s off.toNat 192)), b)
  else .ok (none, none)

/-- The first byte of a stream's next rows that lies in a bank in transition. -/
def streamCarve (s : State) (st : Option Stream) (n : Nat) : Except Stop (Option Nat) :=
  match st with
  | none => .ok none
  | some st => latchedSpans s ((List.range n).map (fun k => (st.rowOffset (st.rp + k), 512)))

/-- A B-BSP header states a well-formed map (R320). -/
def headerFormed (h : Nat) (off : Word) : Except Stop Unit :=
  let n := 16 * mtxGroups (imageTag h)
  check (mapFormed (imageMap h) (imageNzb h) n) (trapping causeSparse 7 4 off (BitVec.ofNat 64 (imageNzb h)))

/-- The fields of `mm` and `mm.z` (R300). -/
structure MmForm where
  df : Nat             -- 0 inner product, 1 outer product, 2 row-wise
  z : Bool
  cd : Reg
  xa : Reg
  xb : Reg
  bs : Bool
  ag : Bool
  bf : Nat
  kh : Nat
  scb : Bool
  noswap : Bool
  off : BitVec 16
deriving DecidableEq, Repr

def MmForm.of (df : Nat) (z : Bool) (cd xa xb : Reg) (bs ag : Bool) (bf : BitVec 4) (kh scb noswap : Bool)
    (off : BitVec 16) : MmForm :=
  { df := df, z := z, cd := cd, xa := xa, xb := xb, bs := bs, ag := ag, bf := bf.toNat, kh := if kh then 1 else 0
    scb := scb, noswap := noswap, off := off }

/-- Stream rows that B takes (R297). -/
def MmForm.streamRows (f : MmForm) : Nat := if f.scb then 67 else 64

/-- Bytes of a dense B (R296). -/
def MmForm.denseLen (f : MmForm) : Nat := 32768 + (if f.scb then 1088 else 0)

/-- Bytes of a partial record (R312). -/
def recordLen : Nat := 32832

/-- The tags of A and B form a class (R294, R298, R320): the class and, for a block-sparse B, its header or the byte of it
that lies in a bank in transition. With AG = 1 an ATAG of 12 is outside the dense formats and traps FMT_TAG (R298); R320's SHAPE
is left to a block-sparse tile register in A (DEDUCED, log 128). -/
def mmTags (s : State) (f : MmForm) (a : Tile) (boff : Word) : Except Stop (Nat × Option Nat × Option Nat) := do
  let g := a.row 0
  if f.ag then mtxTag (1 ≤ a.tag.toNat && a.tag.toNat ≤ 12) a.tag.toNat else .ok ()
  let atag := if f.ag then gatherTag g else tagOfA a
  match mtxClass atag with
  | none => trapping causeTag 7 4 0 (BitVec.ofNat 64 atag)
  | some cls => do
    let (h, b) ← if f.bf = 12 then imageHeader s boff else .ok (none, none)
    let addr := if f.bs then 0 else boff
    match h with
    | some v => mtxTag (mtxClass (imageTag v) == some cls) (imageTag v) addr
    | none => mtxTag (f.bf == 12 || mtxClass f.bf == some cls) f.bf addr
    .ok (cls, h, b)

/-- Alignment of B, the gather arrays and the partial record (R297, R298, R312). R298 says that a misaligned SBASE traps and
states no alignment for it: the model takes that of its entries, 16 bytes (DEDUCED, log 127). -/
def mmAligned (f : MmForm) (g : Row) (boff rec : Word) : Except Stop Unit := do
  if f.bs then .ok () else aligned 7 4 boff 64
  if f.ag then do
    aligned 7 4 (BitVec.ofNat 64 (gatherBase g)) 64
    if gatherScales g = 0xFFFFFFFF then .ok () else aligned 7 4 (BitVec.ofNat 64 (gatherScales g)) 16
  else .ok ()
  if f.df = 1 then aligned 7 4 rec 64 else .ok ()

/-- Extents of B, the gathered rows and the partial record (R297, R298, R312, R319). -/
def mmExtents (f : MmForm) (g : Row) (m : Nat) (h : Option Nat) (boff rec : Word) : Except Stop Unit := do
  if f.bs then .ok ()
  else
    match h with
    | some v => spmBounds 7 4 boff.toNat (imageLen (elemBits (imageTag v)) (imageNzb v) (imageSc v))
    | none => spmBounds 7 4 boff.toNat (if f.bf = 12 then 192 else f.denseLen)
  if f.ag then (gatherSpans g f.kh (gatherRows g m)).forM (fun p => spmBounds 7 4 p.1 p.2) else .ok ()
  if f.df = 1 then spmBounds 7 4 rec.toNat recordLen else .ok ()

/-- The stream that B comes from, once it holds the rows needed (R297). -/
def mmStream (s : State) (f : MmForm) : Except Stop (Option Stream) :=
  if f.bs then do
    let st ← streamFor s (f.xb.toNat % 8) f.streamRows
    if st.filled < f.streamRows then .error .hold else .ok (some st)
  else .ok none

/-- SCALE_SIGN at issue (R305). -/
def mtxScales (bad : Option Nat) : Except Stop Unit :=
  match bad with
  | none => .ok ()
  | some k => trapping causeScale 7 4 0 0 (BitVec.ofNat 32 k)

/-- A dense B from its bytes (R296). -/
def denseB (f : MmForm) (b : List Byte) : MtxB :=
  { tag := f.bf, img := ofBytes b, map := none, scales := if f.scb then some 32768 else none }

/-- An in-stream that can give `n` rows has not filled them yet: a hold (R144, R224, R329). -/
def shortOfRows (s : State) (q n : Nat) : Bool :=
  match Tbl.find (me s).streams q with
  | some st => !st.out && decide (n ≤ st.len ∧ st.rp + n ≤ st.total ∧ st.filled < n)
  | none => false

/-- Hold before issue. -/
def holdIf (c : Bool) : Except Stop Unit := if c then .error .hold else .ok ()

/-- Hold until the balance covers a cost, where the operands determine one; operands that do not trap later (R129, R328). -/
def priceHold (s : State) (cost : Except Stop Nat) : Except Stop Unit :=
  match cost with
  | .ok c => mtxFunds s c
  | .error (.trap _) => .ok ()
  | .error e => .error e

/-- The A operand of an instruction whose XA is the tile `src` (R297, R298). -/
def mmOperandA (s : State) (f : MmForm) (src : Tile) (m : Nat) : Tile := if f.ag then gatherTile s (src.row 0) f.kh m else src

/-- D of `mm` and `mm.z` for their operands (R321). -/
def mmLasts (s : State) (f : MmForm) (a : Tile) (m bmap : Nat) : Nat :=
  mmDuration (roleSwap (me s) f.df m (a.tag != 12) f.noswap) m (blockPairs (mapOfA a) bmap (mtxGroups (tagOfA a)))
    (elemBits (tagOfA a))

/-- The cost of `mm` and `mm.z`, where their tags, rows and maps give one (R327). -/
def mmPrice (s : State) (f : MmForm) (boff : Word) : Except Stop Nat := do
  let x ← mtxTile s f.xa.toNat
  let m ← mtxRows s
  let (cls, h, _) ← mmTags s f (tileCapture s x) boff
  let a := mmOperandA s f (tileCapture s x) m
  .ok (mmCost cls f.df (mmLasts s f a m (mapOfB (tagOfA a) h)) f.ag)

/-- The offset of B (R297). -/
def MmForm.place (f : MmForm) (base : Word) : Word := base + BitVec.ofNat 64 (64 * f.off.toNat)

/-- What `mm` and `mm.z` wait for, before any of their checks (R17, R31, R129, R197, R307, R315, R328, R329). -/
def mmHolds (s : State) (f : MmForm) : Except Stop (Word × Word) := do
  let b ← if f.bs then .ok 0 else readS s f.xb
  let rec ← if f.df = 1 then readS s f.cd else .ok 0
  tileFree s f.xa
  if f.df = 0 then tileFree s f.cd else .ok ()
  opRoom s
  mtxBusy s
  if f.df = 2 then mergeHold s else .ok ()
  holdIf (f.bs && shortOfRows s (f.xb.toNat % 8) f.streamRows)
  priceHold s (mmPrice s f (f.place b))
  .ok (b, rec)

/-- The tile C or the buffer has the tag of the class (R308, R315). -/
def mmOldTag (s : State) (f : MmForm) (c : Nat) (cls : Nat) : Except Stop Unit :=
  if f.df = 0 then
    mtxTag (f.z || (tileCapture s c).tag.toNat == resultTag cls) (tileCapture s c).tag.toNat
  else if f.df = 2 then
    let b := (here s).merge
    mtxTag (b.owner != some s.cur.2 || b.isInt == decide (3 ≤ cls)) (if b.isInt then 8 else 1)
  else .ok ()

/-- `mm` and `mm.z`: the checks of R302, then capture and issue (R304, R307, R315, R328). -/
def startMm (s : State) (i : Instr) (t : Reg) (f : MmForm) : Except Stop State := do
  let (base, rec) ← mmHolds s f
  let boff := f.place base
  let c ← if f.df = 0 then mtxTile s f.cd.toNat else .ok 0
  let x ← mtxTile s f.xa.toNat
  let src := tileCapture s x
  let m ← mtxRows s
  check (f.ag || src.tag != 12 || f.kh == 0) (trapping causeShape 7 4 0 (me s).shape)
  check (!(f.df == 0 && c == x)) (trapping causeAlias 7 4)
  let (cls, h, torn) ← mmTags s f src boff
  mmOldTag s f c cls
  let g := src.row 0
  mmAligned f g boff rec
  mmExtents f g m h boff rec
  let st ← mmStream s f
  let rowsOff ← latchedSpans s (if f.ag then gatherSpans g f.kh (gatherRows g m) else [])
  let a := mmOperandA s f src m
  let atag := tagOfA a
  check (a.tag != 12 || mapFormed (bspMap a) (bspNzb a) (8 * mtxGroups atag))
    (trapping causeSparse 7 4 0 (BitVec.ofNat 64 (bspNzb a)))
  match h with
  | some v => headerFormed v boff
  | none => .ok ()
  let pads := if f.ag then gatherPads g m else 0
  let bmap := mapOfB atag h
  mtxScales (if rowsOff.isNone then badScaleA a f.kh pads m (liveGroupsB atag (some bmap)) else none)
  let rowsTorn ← streamCarve s st f.streamRows
  let bytes := match st with
    | some st => streamBytes s st f.streamRows
    | none => toBytes (if h.isSome then 192 else 0) (h.getD 0)
  mtxScales (if f.bs && rowsTorn.isNone then (denseB f bytes).badScale (liveGroupsA a pads m) else none)
  let d := mmLasts s f a m bmap
  let o := { newOp s i t with
    a := boff, b := rec, tiles := [(0, a), (1, tileCapture s c)], nums := [d, c, pads, cls, carveNote (firstOf [rowsOff, torn, rowsTorn])], bytes := bytes
    busy := if f.df = 0 then [(s.cur.1, c)] else [] }
  let s' ← startMtx s o d (mmCost cls f.df d f.ag)
  let s' := if f.bs then consume s' (f.xb.toNat % 8) f.streamRows else s'
  .ok (if f.df = 2 then
      withHere s' (fun k =>
        { k with merge := if k.merge.owner = some s.cur.2 then k.merge
                          else { owner := some s.cur.2, isInt := decide (3 ≤ cls), words := [] } })
    else s')

/-- `mmIp`: Inner product into a tile (R300, R310). -/
def slotMmIp (cd xa xb t : Reg) (bs ag : Bool) (bf : BitVec 4) (kh scb noswap : Bool) (off : BitVec 16) (s : State) : Except Stop State :=
  startMm s (.mmIp cd xa xb t bs ag bf kh scb noswap off) t (MmForm.of 0 false cd xa xb bs ag bf kh scb noswap off)

def execMmIp (cd xa xb t : Reg) (bs ag : Bool) (bf : BitVec 4) (kh scb noswap : Bool) (off : BitVec 16) (s : State) : Host.Outcome State Fault Refusal := settle s (slotMmIp cd xa xb t bs ag bf kh scb noswap off s)

/-- `mmOp`: Outer product into a partial record (R300, R312). -/
def slotMmOp (cd xa xb t : Reg) (bs ag : Bool) (bf : BitVec 4) (kh scb noswap : Bool) (off : BitVec 16) (s : State) : Except Stop State :=
  startMm s (.mmOp cd xa xb t bs ag bf kh scb noswap off) t (MmForm.of 1 false cd xa xb bs ag bf kh scb noswap off)

def execMmOp (cd xa xb t : Reg) (bs ag : Bool) (bf : BitVec 4) (kh scb noswap : Bool) (off : BitVec 16) (s : State) : Host.Outcome State Fault Refusal := settle s (slotMmOp cd xa xb t bs ag bf kh scb noswap off s)

/-- `mmRw`: Row-wise merge into the row merge buffer (R300, R315). -/
def slotMmRw (xa xb t : Reg) (bs ag : Bool) (bf : BitVec 4) (kh scb noswap : Bool) (off : BitVec 16) (s : State) : Except Stop State :=
  startMm s (.mmRw xa xb t bs ag bf kh scb noswap off) t (MmForm.of 2 false 0 xa xb bs ag bf kh scb noswap off)

def execMmRw (xa xb t : Reg) (bs ag : Bool) (bf : BitVec 4) (kh scb noswap : Bool) (off : BitVec 16) (s : State) : Host.Outcome State Fault Refusal := settle s (slotMmRw xa xb t bs ag bf kh scb noswap off s)

/-- `mmZIp`: Inner product with an old sum of +0 (R300, R308, R310). -/
def slotMmZIp (cd xa xb t : Reg) (bs ag : Bool) (bf : BitVec 4) (kh scb noswap : Bool) (off : BitVec 16) (s : State) : Except Stop State :=
  startMm s (.mmZIp cd xa xb t bs ag bf kh scb noswap off) t (MmForm.of 0 true cd xa xb bs ag bf kh scb noswap off)

def execMmZIp (cd xa xb t : Reg) (bs ag : Bool) (bf : BitVec 4) (kh scb noswap : Bool) (off : BitVec 16) (s : State) : Host.Outcome State Fault Refusal := settle s (slotMmZIp cd xa xb t bs ag bf kh scb noswap off s)

/-- `mmZRw`: Row-wise merge with an old sum of +0 (R300, R308, R315). -/
def slotMmZRw (xa xb t : Reg) (bs ag : Bool) (bf : BitVec 4) (kh scb noswap : Bool) (off : BitVec 16) (s : State) : Except Stop State :=
  startMm s (.mmZRw xa xb t bs ag bf kh scb noswap off) t (MmForm.of 2 true 0 xa xb bs ag bf kh scb noswap off)

def execMmZRw (xa xb t : Reg) (bs ag : Bool) (bf : BitVec 4) (kh scb noswap : Bool) (off : BitVec 16) (s : State) : Host.Outcome State Fault Refusal := settle s (slotMmZRw xa xb t bs ag bf kh scb noswap off s)

/-- Offset `sXB + 64 × OFF` of a scratchpad operand (R297, R300). -/
def mtxOffset (base : Word) (off : BitVec 16) : Word := base + BitVec.ofNat 64 (64 * off.toNat)

/-- TOUCH of the record at `off` (R312). -/
def touchAt (s : State) (core off : Nat) : Nat := ofBytes (spmRead s core (off + 32768) 16)

/-- Offsets of `n` partial records (R313). -/
def recordsAt (off n : Nat) : List Nat := (List.range n).map (fun p => off + recordLen * p)

/-- TB: set TOUCH bits over all records (R313, R322). -/
def touchCount (s : State) (core : Nat) (l : List Nat) : Nat :=
  (l.map (fun o => (bitsSet (touchAt s core o) 128).length)).foldl (· + ·) 0

/-- PTAG of the first record, where it can be read at issue (R314). -/
def firstPtag (s : State) (off : Word) : Except Stop (Option Nat) :=
  if off.toNat % 64 = 0 ∧ off.toNat + recordLen ≤ Config.spmBytes then do
    let b ← latched s (off.toNat + 32784) 1
    .ok (if b.isSome then none else some (ofBytes (spmSlice s (off.toNat + 32784) 1)))
  else .ok none

/-- The cost of an `mm.merge` whose records lie in the scratchpad, with the byte of them in a bank in transition (R322, R327). -/
def mergePrice (s : State) (off : Word) (n : Nat) : Except Stop (Nat × Nat × Option Nat) := do
  aligned 7 4 off 64
  spmBounds 7 4 off.toNat (recordLen * n)
  let recs := recordsAt off.toNat n
  let torn ← latchedSpans s (recs.map (fun r => (r + 32768, 17)))
  .ok (8 + ceilDiv (touchCount s s.cur.1 recs) 8, touchCount s s.cur.1 recs, torn)

/-- `mmMerge`: Combine partial records (R300, R313, R314). With ZC = 0 the old C is a source: one tagged NONE, or with a reserved
tag, traps whatever the records hold (R30). -/
def slotMmMerge (cd xb t : Reg) (np : BitVec 4) (zc : Bool) (off : BitVec 16) (s : State) : Except Stop State := do
  let base ← readS s xb
  tileFree s cd
  opRoom s
  mtxBusy s
  let boff := mtxOffset base off
  priceHold s ((mergePrice s boff (np.toNat + 1)).map (fun p => 2 * p.1))
  let c ← mtxTile s cd.toNat
  let _ ← mtxRows s
  let old := tileCapture s c
  mtxTag (zc || (1 ≤ old.tag.toNat && old.tag.toNat ≤ 12)) old.tag.toNat
  let ptag ← if zc then .ok none else firstPtag s boff
  match ptag with
  | some p => mtxTag (!(p == 1 || p == 8) || old.tag.toNat == p) old.tag.toNat
  | none => .ok ()
  let (d, tb, torn) ← mergePrice s boff (np.toNat + 1)
  startMtx s { newOp s (.mmMerge cd xb t np zc off) t with
    a := boff, tiles := [(1, old)], nums := [d, c, tb, 0, carveNote torn], busy := [(s.cur.1, c)] } d (2 * d)

def execMmMerge (cd xb t : Reg) (np : BitVec 4) (zc : Bool) (off : BitVec 16) (s : State) : Host.Outcome State Fault Refusal := settle s (slotMmMerge cd xb t np zc off s)

/-- Room of an out-stream's buffer. -/
def Stream.room (st : Stream) : Nat := st.len - (st.fetched - st.freed)

/-- An out-stream that can take `n` rows has no room for them yet: a hold (R144, R316). -/
def shortOfRoom (s : State) (q n : Nat) : Bool :=
  match Tbl.find (me s).streams q with
  | some st => st.out && decide (1 ≤ n ∧ n ≤ 64 ∧ n ≤ st.len ∧ st.fetched + n ≤ st.total ∧ st.room < n)
  | none => false

/-- `mmOut`: Append the row merge buffer to an out-stream (R316). -/
def slotMmOut (q : BitVec 3) (t : Reg) (s : State) : Except Stop State := do
  opRoom s
  mtxBusy s
  mergeHold s
  holdIf (shortOfRoom s q.toNat (rowsOf (me s)))
  mtxFunds s 8
  let m ← mtxRows s
  match Tbl.find (me s).streams q.toNat with
  | none => mtxStream q.toNat
  | some st => do
    if !st.out || decide (st.len < m) || decide (st.total < st.fetched + m) then mtxStream q.toNat else .ok ()
    let d := max 8 m
    startMtx s { newOp s (.mmOut q t) t with nums := [st.seq, d] } d 8

def execMmOut (q : BitVec 3) (t : Reg) (s : State) : Host.Outcome State Fault Refusal := settle s (slotMmOut q t s)

/-- Sources of `bmp.mk` and `spz.pack`: XA, and XA + 1 in B form (R323, R325). -/
def packSources (s : State) (xa : Reg) (bmode : Bool) : Except Stop (List Nat) := do
  let x ← mtxTile s xa.toNat
  if bmode then do
    let y ← mtxTile s (xa.toNat + 1)
    .ok [x, y]
  else .ok [x]

/-- A source tile is not busy; XA + 1 is read in B form. -/
def packFree (s : State) (xa : Reg) (bmode : Bool) : Except Stop Unit := do
  tileFree s xa
  if bmode && decide (xa.toNat < 63) then tileFree s (xa + 1) else .ok ()

/-- The sources carry one matrix element format (R323, R325). -/
def packTags (l : List Tile) : Except Stop Nat :=
  match l with
  | [] => .ok 0
  | t :: _ => do
    let tag := t.tag.toNat
    mtxTag ((mtxClass tag).isSome && l.all (fun u => u.tag == t.tag)) tag
    .ok tag

/-- `bmpMk`: Build a block bitmap (R323). -/
def slotBmpMk (xa xb t : Reg) (kh bmode : Bool) (off : BitVec 16) (s : State) : Except Stop State := do
  let base ← readS s xb
  packFree s xa bmode
  opRoom s
  mtxBusy s
  mtxFunds s 8
  let xs ← packSources s xa bmode
  let ts := xs.map (tileCapture s)
  let _ ← packTags ts
  let dst := mtxOffset base off
  aligned 7 4 dst 64
  spmBounds 7 4 dst.toNat (if bmode then 128 else 64)
  startMtx s { newOp s (.bmpMk xa xb t kh bmode off) t with a := dst, tiles := ts.map (fun t => (0, t)), nums := [8] } 8 8

def execBmpMk (xa xb t : Reg) (kh bmode : Bool) (off : BitVec 16) (s : State) : Host.Outcome State Fault Refusal := settle s (slotBmpMk xa xb t kh bmode off s)

/-- `bmpCnt`: Count a bitmap (R324). -/
def slotBmpCnt (xb t : Reg) (wide : Bool) (off : BitVec 16) (s : State) : Except Stop State := do
  let base ← readS s xb
  opRoom s
  mtxBusy s
  mtxFunds s 8
  let src := mtxOffset base off
  aligned 7 4 src 64
  spmBounds 7 4 src.toNat (if wide then 128 else 64)
  startMtx s { newOp s (.bmpCnt xb t wide off) t with a := src, nums := [4] } 4 8

def execBmpCnt (xb t : Reg) (wide : Bool) (off : BitVec 16) (s : State) : Host.Outcome State Fault Refusal := settle s (slotBmpCnt xb t wide off s)

/-! ### Bitmaps and packed forms (R102, R318, R323 to R326) -/

/-- An encoding has value zero before any scale (R102, R318). -/
def zeroCode (tag code : Nat) : Bool := (elementValue tag code).isZero

/-- Block (rb, g) of half `kh` of a dense tile is all-zero. -/
def zeroBlock (t : Tile) (kh rb g : Nat) : Bool :=
  let tag := t.tag.toNat
  (List.range 8).all (fun r => (List.range 8).all (fun k =>
    zeroCode tag (elemOf tag (t.row (8 * rb + r)) (kh * mtxDepth tag + 8 * g + k))))

/-- The A-form bitmap of a half, or the B form over two tiles (R318, R323). -/
def bitmapOf (ts : List Tile) (kh : Nat) : Nat :=
  (ts.zipIdx.flatMap (fun p =>
    let g := mtxGroups p.1.tag.toNat
    (List.range (8 * g)).filterMap (fun b =>
      if zeroBlock p.1 kh (b / g) (b % g) then none else some (2 ^ (8 * g * p.2 + b))))).foldl (· + ·) 0

/-- The present blocks of a map, packed in order, as a number, and their bits (R319). -/
def packedBlocks (ts : List Tile) (kh map : Nat) : Nat :=
  match ts with
  | [] => 0
  | t :: _ =>
    let tag := t.tag.toNat
    let w := elemBits tag
    let g := mtxGroups tag
    let code (b e : Nat) : Nat :=
      let rb := b / g
      let u := (ts[rb / 8]?).getD t
      elemOf tag (u.row (8 * (rb % 8) + e / 8)) (kh * mtxDepth tag + 8 * (b % g) + e % 8)
    let block (b : Nat) : Nat := (List.range 64).foldr (fun e acc => code b e + 2 ^ w * acc) 0
    (bitsSet map 1024).foldr (fun b acc => block b + 2 ^ (64 * w) * acc) 0

/-- `spzPack`: Pack a half into a BSP tile (R325). -/
def slotSpzPack (cd xa t : Reg) (kh : Bool) (s : State) : Except Stop State := do
  tileFree s cd
  tileFree s xa
  opRoom s
  mtxBusy s
  mtxFunds s 8
  let c ← mtxTile s cd.toNat
  let x ← mtxTile s xa.toNat
  check (c != x) (trapping causeAlias 7 4)
  let src := tileCapture s x
  let _ ← packTags [src]
  startMtx s { newOp s (.spzPack cd xa t kh) t with tiles := [(0, src)], nums := [16, c], busy := [(s.cur.1, c)] } 16 8

def execSpzPack (cd xa t : Reg) (kh : Bool) (s : State) : Host.Outcome State Fault Refusal := settle s (slotSpzPack cd xa t kh s)

/-- `spzPackB`: Pack two halves into a B-BSP image (R325). -/
def slotSpzPackB (xa xb t : Reg) (kh : Bool) (off : BitVec 16) (s : State) : Except Stop State := do
  let base ← readS s xb
  packFree s xa true
  opRoom s
  mtxBusy s
  mtxFunds s 8
  let xs ← packSources s xa true
  let ts := xs.map (tileCapture s)
  let tag ← packTags ts
  let one := ((ts.head?.map (fun t => t.super 0)).getD 0)
  mtxTag (!isScaled tag || ts.all (fun t => (List.range 4).all (fun k => t.super k == one))) tag
  let dst := mtxOffset base off
  aligned 7 4 dst 64
  let nzb := (bitsSet (bitmapOf ts (if kh then 1 else 0)) 1024).length
  spmBounds 7 4 dst.toNat (imageLen (elemBits tag) nzb (isScaled tag))
  startMtx s { newOp s (.spzPackB xa xb t kh off) t with a := dst, tiles := ts.map (fun t => (0, t)), nums := [24] } 24 8

def execSpzPackB (xa xb t : Reg) (kh : Bool) (off : BitVec 16) (s : State) : Host.Outcome State Fault Refusal := settle s (slotSpzPackB xa xb t kh off s)

/-- `spzUnpk`: Expand a BSP tile into a half (R326). -/
def slotSpzUnpk (cd xa t : Reg) (kh : Bool) (s : State) : Except Stop State := do
  tileFree s cd
  tileFree s xa
  opRoom s
  mtxBusy s
  mtxFunds s 8
  let c ← mtxTile s cd.toNat
  let x ← mtxTile s xa.toNat
  check (c != x) (trapping causeAlias 7 4)
  let src := tileCapture s x
  mtxTag (src.tag == 12) src.tag.toNat
  mtxTag (mtxClass (bspTag src)).isSome (bspTag src)
  check (mapFormed (bspMap src) (bspNzb src) (8 * mtxGroups (bspTag src)))
    (trapping causeSparse 7 4 0 (BitVec.ofNat 64 (bspNzb src)))
  startMtx s { newOp s (.spzUnpk cd xa t kh) t with
    tiles := [(0, src), (1, tileCapture s c)], nums := [16, c], busy := [(s.cur.1, c)] } 16 8

def execSpzUnpk (cd xa t : Reg) (kh : Bool) (s : State) : Host.Outcome State Fault Refusal := settle s (slotSpzUnpk cd xa t kh s)

/-! ### Completion (R306, R307, R310 to R316, R323 to R326) -/

/-- A captured tile of an operation. -/
def heldTile (o : Op) (k : Nat) : Tile := Tbl.look Tile.init o.tiles k

/-- The fields of an operation's `mm` or `mm.z`. -/
def mmForm (i : Instr) : Option MmForm :=
  match i with
  | .mmIp cd xa xb _ bs ag bf kh scb noswap off => some (MmForm.of 0 false cd xa xb bs ag bf kh scb noswap off)
  | .mmOp cd xa xb _ bs ag bf kh scb noswap off => some (MmForm.of 1 false cd xa xb bs ag bf kh scb noswap off)
  | .mmRw xa xb _ bs ag bf kh scb noswap off => some (MmForm.of 2 false 0 xa xb bs ag bf kh scb noswap off)
  | .mmZIp cd xa xb _ bs ag bf kh scb noswap off => some (MmForm.of 0 true cd xa xb bs ag bf kh scb noswap off)
  | .mmZRw xa xb _ bs ag bf kh scb noswap off => some (MmForm.of 2 true 0 xa xb bs ag bf kh scb noswap off)
  | _ => none

/-- Scratchpad bytes that an instruction reads after issue, from the offset that it captured: B, the partial records or a
bitmap (R296, R297, R313, R319, R324). -/
def mtxReadLen (o : Op) : Nat :=
  match o.instr with
  | .mmMerge _ _ _ np .. => recordLen * (np.toNat + 1)
  | .bmpCnt _ _ wide _ => if wide then 128 else 64
  | i =>
    match mmForm i with
    | some f =>
      let h := ofBytes o.bytes
      if f.bs then 0 else if f.bf = 12 then imageLen (elemBits (imageTag h)) (imageNzb h) (imageSc h) else f.denseLen
    | none => 0

/-- The chunks of a matrix instruction: the atomic units that it reads, each at a time of its own between issue and
completion (R332, R347). -/
def mtxChunks (o : Op) : List Nat := List.range (ceilDiv (mtxReadLen o) 64)

/-- Read a unit. -/
def mtxChunk (s : State) (o : Op) (k : Nat) : Except OpErr (State × Op) := do
  carveFault ((o.nums[4]?).getD 0)
  let (b, s) ← engineRead s o.party true (o.a.toNat + 64 * k) (min 64 (mtxReadLen o - 64 * k)) []
  .ok (s, { o with parts := Tbl.put o.parts k b })

/-- The units that it has read, end to end. -/
def mtxBytes (o : Op) : List Byte := (mtxChunks o).flatMap (fun k => Tbl.look [] o.parts k)

/-- The B operand of an instruction: the captured stream rows, or what it read (R296, R297, R319). -/
def mtxOperandB (o : Op) (f : MmForm) : MtxB :=
  if f.bs then denseB f o.bytes
  else if f.bf = 12 then
    let h := ofBytes o.bytes
    { tag := imageTag h, img := ofBytes (mtxBytes o), map := some (imageMap h)
      scales := if imageSc h then some (imageScales (elemBits (imageTag h)) (imageNzb h)) else none }
  else denseB f (mtxBytes o)

/-- SCALE_SIGN during execution (R305, R306). -/
def scaleFault (o : Op) (bad : Option Nat) : Except OpErr Unit :=
  match bad with
  | none => .ok ()
  | some k => .error (.fail causeScale o.a 0 (BitVec.ofNat 32 k))

/-- A row of 128 results of 32 bits. -/
def wideRow (l : List Nat) : Row := packRow 32 0 l

/-- A result tile: rows below M with default scales, the superblock scales and the result tag. The other rows keep their data
and scales (R32, R310, R313; DEDUCED, Assumption 111). -/
def resultWrites (c tag : Nat) (rows : List (List Nat)) : List Write :=
  rows.zipIdx.map (fun r => Write.tileRow c r.2 (wideRow r.1) defaultScales) ++
    [.tileTag c (BitVec.ofNat 4 tag), .tileSsc c defaultSuper]

/-- Control words of an inner product (R32, R310). -/
def productWords (c m : Nat) (ag : Bool) (a : Tile) (pads : Nat) : List Write :=
  (List.range m).filterMap (fun i =>
    if ag then (if pads.testBit i then some (Write.tileRcw c i 5) else none) else some (Write.tileRcw c i (a.word i)))

/-- TOUCH of an outer product: output block (rb, cb) has a column group with both blocks present (R312). -/
def touchOf (amap bmap g : Nat) : Nat :=
  ((List.range 128).filterMap (fun b =>
    if (List.range g).any (fun c => amap.testBit (g * (b / 16) + c) && bmap.testBit (g * (b % 16) + c))
    then some (2 ^ b) else none)).foldl (· + ·) 0

/-- The bytes of a partial record that are written, by offset: touched blocks, then TOUCH, PTAG and zeros (R312). -/
def recordPieces (m touch cls : Nat) (rows : List (List Nat)) : List (Nat × List Byte) :=
  (bitsSet touch 128).flatMap (fun b =>
    (List.range 8).map (fun r =>
      let i := 8 * (b / 16) + r
      (512 * i + 32 * (b % 16), ((List.range 8).map (fun k =>
        if i < m then ((rows[i]?).getD [])[8 * (b % 16) + k]?.getD 0 else 0)).flatMap (toBytes 4)))) ++
    [(32768, toBytes 16 touch ++ toBytes 1 (resultTag cls) ++ List.replicate 47 0)]

/-- Write pieces at offsets from a base for an operation. -/
def writePieces (s : State) (o : Op) (base : Nat) : List (Nat × List Byte) → Except OpErr State
  | [] => .ok s
  | p :: l => do
    let s ← engineWrite s o true (base + p.1) p.2 []
    writePieces s o base l

/-- The row merge buffer's element (R315). -/
def mergeWord (b : MergeBuf) (i n : Nat) : BitVec 32 := Tbl.look 0 b.words (128 * i + n)

/-- A command's context still owns the row merge buffer: neither has its task ended, nor has the end of its service work freed
the buffer, since the command issued (R317). -/
def stillOwns (s : State) (o : Op) : Bool := (coreOf s o.core).merge.owner == some o.ctx && !o.orphan

/-- The row merge buffer as a command finds it: free where its context owns it no more (R315, R317). -/
def mergeOf (s : State) (o : Op) : MergeBuf := if stillOwns s o then (coreOf s o.core).merge else MergeBuf.init

/-- The buffer with rows below M replaced. -/
def mergeRows (b : MergeBuf) (rows : List (List Nat)) : MergeBuf :=
  { b with words := rows.zipIdx.foldl (fun w r =>
      r.1.zipIdx.foldl (fun w c => Tbl.put w (128 * r.2 + c.2) (BitVec.ofNat 32 c.1)) w) b.words }

/-- Run an `mm` or `mm.z`: the state after its writes, and its count. The rows of a `.rw` whose buffer has been freed meanwhile are
discarded with its contents (R317). -/
def runMm (s : State) (o : Op) (f : MmForm) : Except OpErr (State × Nat) := do
  let a := heldTile o 0
  let d := o.nums.headD 0
  let c := (o.nums[1]?).getD 0
  let pads := (o.nums[2]?).getD 0
  let cls := (o.nums[3]?).getD 0
  let b := mtxOperandB o f
  scaleFault o (b.badScale (liveGroupsA a pads o.rows))
  let old := heldTile o 1
  let buf := mergeOf s o
  let cold (i n : Nat) : Val :=
    if f.z || f.df == 1 then Val.zero false
    else if f.df = 0 then elementValue (resultTag cls) (elemOf (resultTag cls) (old.row i) n)
    else elementValue (resultTag cls) (mergeWord buf i n).toNat
  let rows := mtxResults cls o.rows a f.kh pads b cold
  if f.df = 0 then
    .ok (commitNow s o.core o.ctx (resultWrites c (resultTag cls) rows ++
      productWords c o.rows f.ag a pads), d)
  else if f.df = 1 then do
    let touch := touchOf (mapOfA a) (b.map.getD (2 ^ (16 * mtxGroups b.tag) - 1)) (mtxGroups b.tag)
    let s ← writePieces s o o.b.toNat (recordPieces o.rows touch cls rows)
    .ok (s, d)
  else .ok (if stillOwns s o then withCore s o.core (fun k => { k with merge := mergeRows buf rows }) else s, d)

/-- Run an `mm.merge` (R313, R314). -/
def runMerge (s : State) (o : Op) (np : Nat) (zc : Bool) : Except OpErr (State × Nat) := do
  let c := (o.nums[1]?).getD 0
  let recs := recordsAt o.a.toNat np
  let img := ofBytes (mtxBytes o)
  let ptag (p : Nat) : Nat := img >>> (8 * (recordLen * p + 32784)) % 256
  match (List.range np).find? (fun p => ptag p != ptag 0 || !(ptag p == 1 || ptag p == 8)) with
  | some p => .error (.fail causeTag (BitVec.ofNat 64 ((recs[p]?).getD 0)) (BitVec.ofNat 64 (ptag p)) 0)
  | none => .ok ()
  let tag := ptag 0
  let touch (p : Nat) : Nat := img >>> (8 * (recordLen * p + 32768)) % 2 ^ 128
  let old := heldTile o 1
  let one (i n : Nat) : Nat :=
    let cold := if zc then Val.zero false else elementValue tag (elemOf tag (old.row i) n)
    let parts := (List.range np).map (fun p =>
      if (touch p).testBit (16 * (i / 8) + n / 8)
      then elementValue tag (img >>> (8 * (recordLen * p + 512 * i + 4 * n)) % 2 ^ 32) else Val.zero false)
    mtxRound (if tag = 8 then 3 else 0) (exactSum (cold :: parts))
  let rows := (List.range o.rows).map (fun i => (List.range 128).map (one i))
  .ok (commitNow s o.core o.ctx (resultWrites c tag rows), (o.nums[2]?).getD 0)

/-- Run an `mm.out`: append rows to the stream that the command found, then free the buffer (R316). -/
def runOut (s : State) (o : Op) : Except OpErr (State × Nat) := do
  let buf := mergeOf s o
  let m := o.rows
  match (ctxOf s o.core o.ctx).streams.find? (fun p => p.2.seq == o.nums.headD 0) with
  | none => .ok (s, m)
  | some (q, st) => do
    let rows := (List.range m).map (fun i =>
      (st.rowOffset (st.fetched + i), ((List.range 128).map (fun n => mergeWord buf i n)).flatMap (fun w => toBytes 4 w.toNat)))
    let s ← writePieces s o 0 rows
    let s := putStream s o.core o.ctx q { st with fetched := st.fetched + m }
    .ok (if stillOwns s o then withCore s o.core (fun k => { k with merge := MergeBuf.init }) else s, m)

/-- Run a `bmp.mk` (R323). -/
def runBitmap (s : State) (o : Op) (kh bmode : Bool) : Except OpErr (State × Nat) := do
  let map := bitmapOf (o.tiles.map (·.2)) (if kh then 1 else 0)
  let s ← engineWrite s o true o.a.toNat (toBytes (if bmode then 128 else 64) map) []
  .ok (s, (bitsSet map 1024).length)

/-- Run a `bmp.cnt` (R324). -/
def runCount (s : State) (o : Op) (wide : Bool) : State × Nat :=
  (s, (bitsSet (ofBytes (mtxBytes o)) (if wide then 1024 else 512)).length)

/-- Run a `spz.pack` into a tile (R319, R325). -/
def runPackTile (s : State) (o : Op) (kh : Bool) : State × Nat :=
  let src := heldTile o 0
  let c := (o.nums[1]?).getD 0
  let map := bitmapOf [src] (if kh then 1 else 0)
  let nzb := (bitsSet map 512).length
  let img := packedBlocks [src] (if kh then 1 else 0) map +
    2 ^ (8 * 16384) * (map + 2 ^ 512 * (src.tag.toNat + 2 ^ 16 * nzb))
  (commitNow s o.core o.ctx ((List.range 64).flatMap (fun i =>
      [Write.tileRow c i (BitVec.ofNat 4096 (img >>> (4096 * i))) (src.scales i), Write.tileRcw c i (src.word i)]) ++
      [.tileTag c 12, .tileSsc c src.ssc]), nzb)

/-- The bytes of a B-BSP image, each with whether the manual states it (R319, R325). -/
def imageBytes (ts : List Tile) (kh : Nat) : List (Option Byte) :=
  match ts with
  | [] => []
  | t :: _ =>
    let tag := t.tag.toNat
    let w := elemBits tag
    let map := bitmapOf ts kh
    let nzb := (bitsSet map 1024).length
    let bpc := mtxDepth tag / 64
    let head := toBytes 128 map ++ toBytes 2 nzb ++ toBytes 1 (tag + (if isScaled tag then 16 else 0)) ++ List.replicate 61 0
    let blk := toBytes (8 * w * nzb) (packedBlocks ts kh map)
    let pad : List (Option Byte) := List.replicate (imageScales w nzb - 192 - 8 * w * nzb) none
    let scales : List (Option Byte) := (List.range 128).flatMap (fun n =>
      let u := (ts[n / 64]?).getD t
      (List.range 8).map (fun b =>
        if b < bpc then some (BitVec.ofNat 8 (scaleByte (u.scales (n % 64)) (kh * bpc + b))) else none))
    let area : List (Option Byte) :=
      if isScaled tag then pad ++ scales ++ (toBytes 16 t.ssc.toNat).map some ++ List.replicate 48 none else []
    (head ++ blk).map some ++ area

/-- Bytes with the unstated ones free. -/
def fillUnstated (s : State) (l : List (Option Byte)) : List Byte × State :=
  (l.zipIdx.map (fun p => p.1.getD (Config.unspecifiedByte (s.fresh + p.2))), { s with fresh := s.fresh + l.length })

/-- Run a `spz.pack` into a B-BSP image (R325). -/
def runPackImage (s : State) (o : Op) (kh : Bool) : Except OpErr (State × Nat) := do
  let ts := o.tiles.map (·.2)
  let (b, s) := fillUnstated s (imageBytes ts (if kh then 1 else 0))
  let s ← engineWrite s o true o.a.toNat b []
  .ok (s, (bitsSet (bitmapOf ts (if kh then 1 else 0)) 1024).length)

/-- The +0 encoding of a format (R102). -/
def zeroOf (tag : Nat) : Nat := if tag = 7 then 7 else 0

/-- Run a `spz.unpk` (R326). -/
def runUnpack (s : State) (o : Op) (kh : Bool) : State × Nat :=
  let src := heldTile o 0
  let old := heldTile o 1
  let c := (o.nums[1]?).getD 0
  let tag := bspTag src
  let w := elemBits tag
  let half := if kh then 1 else 0
  let code (i k : Nat) : Nat :=
    match blockRank (bspMap src) (mtxGroups tag * (i / 8) + k / 8) with
    | some r => bspElem src w (64 * r + 8 * (i % 8) + k % 8)
    | none => zeroOf tag
  (commitNow s o.core o.ctx ((List.range 64).flatMap (fun i =>
      [Write.tileRow c i (putElems w (half * mtxDepth tag) (old.row i) ((List.range (mtxDepth tag)).map (code i))) (src.scales i),
       Write.tileRcw c i (src.word i)]) ++
      [.tileTag c (BitVec.ofNat 4 tag), .tileSsc c src.ssc]), bspNzb src)

/-- Run a matrix instruction. -/
def runMtx (s : State) (o : Op) : Except OpErr (State × Nat) :=
  match o.instr with
  | .mmMerge _ _ _ np zc _ => runMerge s o (np.toNat + 1) zc
  | .mmOut .. => runOut s o
  | .bmpMk _ _ _ kh bmode _ => runBitmap s o kh bmode
  | .bmpCnt _ _ wide _ => .ok (runCount s o wide)
  | .spzPack _ _ _ kh => .ok (runPackTile s o kh)
  | .spzPackB _ _ _ kh _ => runPackImage s o kh
  | .spzUnpk _ _ _ kh => .ok (runUnpack s o kh)
  | i =>
    match mmForm i with
    | some f => runMm s o f
    | none => .ok (s, 0)

/-- D and Q of an instruction in the engine (R307, R321, R322). -/
def mtxDuration (o : Op) : Nat :=
  match o.instr with
  | .mmOut .. => (o.nums[1]?).getD 0
  | _ => o.nums.headD 0

def mtxTail (i : Instr) : Nat :=
  match i with
  | .mmOp .. | .bmpMk .. | .spzPackB .. => 20
  | _ => 12

/-- Scratchpad bytes that an instruction writes: first offset and length of each span (R306, R312). -/
def mtxSpans (s : State) (o : Op) : List (Nat × Nat) :=
  match o.instr with
  | .mmOut .. =>
    match (ctxOf s o.core o.ctx).streams.find? (fun p => p.2.seq == o.nums.headD 0) with
    | none => []
    | some (_, st) => (List.range o.rows).map (fun i => (st.rowOffset (st.fetched + i), 512))
  | .mmOp _ _ _ _ _ _ bf .. =>
    let a := heldTile o 0
    let g := mtxGroups (tagOfA a)
    let touch := touchOf (mapOfA a) (if bf = 12 ∧ o.bytes ≠ [] then imageMap (ofBytes o.bytes) else 2 ^ (16 * g) - 1) g
    (recordPieces o.rows touch 0 []).map (fun p => (o.b.toNat + p.1, p.2.length))
  | .bmpMk _ _ _ _ bmode _ => [(o.a.toNat, if bmode then 128 else 64)]
  | .spzPackB _ _ _ kh _ => [(o.a.toNat, (imageBytes (o.tiles.map (·.2)) (if kh then 1 else 0)).length)]
  | _ => []

/-- Scratchpad bytes of a failed instruction hold unspecified values (R306). -/
def scrambleSpans (s : State) (core : Nat) : List (Nat × Nat) → State
  | [] => s
  | p :: l =>
    let (b, s) := freeBytes s Config.unspecifiedByte p.2
    scrambleSpans (spmWrite s core p.1 b) core l

/-- When an instruction completes: issue + D + Q (R307). -/
def mtxDue (o : Op) : Nat := o.issued + mtxDuration o + mtxTail o.instr

/-- The instruction that the matrix engine of a core finishes next: the one that is due first, which a longer tail can make
a later one (R307). -/
def mtxHead (s : State) (core : Nat) : Option Op :=
  (s.ops.filter (fun o => o.core = core && engineOf o.instr == 7)).foldl (fun m o =>
    match m with
    | none => some o
    | some p => if mtxDue o < mtxDue p then some o else some p) none

/-- An instruction ends with an engine fault: what it writes to scratchpad is unspecified (R306). What it only waits for
leaves everything. -/
def mtxFault (s : State) (o : Op) (e : OpErr) : Host.Outcome State Fault Refusal :=
  match e with
  | .wait | .send _ | .fault _ => opFault s o e
  | .suspend _ | .fail .. => opFault (scrambleSpans s o.core (mtxSpans s o)) o e

/-- MTX_COMPLETE: a matrix instruction of a core completes: it has read what it reads, writes its results and its token, or
ends with an engine fault (R306, R307). -/
def execMtxComplete (core : Nat) (s : State) : Host.Outcome State Fault Refusal :=
  match mtxHead s core with
  | none => .next s
  | some o =>
    if s.time < mtxDue o then .next s
    else
      match runChunks mtxChunk s o (mtxChunks o) with
      | .stopped t o e => (match e with | .wait => .next s | _ => mtxFault t o e)
      | .done t o =>
        match (do carveFault ((o.nums[4]?).getD 0); runMtx t o) with
        | .ok (t, n) => .next (finishOp t o (tokenOk n))
        | .error .wait => .next s
        | .error e => mtxFault t o e

end Sys2Proof.Machine
end

