-- ==== Sys2Proof/Machine/Port.lean ====
section
/-! DEFINITION. The memory ports: requests perform at their homes, and engine commands take their next steps (R198, R239,
R332 to R336, R356 to R358, R392, R472). -/

namespace Sys2Proof.Machine

/-! ### The chunks of every engine command -/

/-- The chunks of a command that performs chunk by chunk. -/
def opChunks (o : Op) : List Nat :=
  match o.instr with
  | .put .. | .get .. | .mcast .. => fabricChunks o
  | .qBind .. => [0]
  | .kvSv .. => kvSvChunks o
  | .cmxPack .. | .cmxRest .. => cmxChunks o
  | _ => if engineOf o.instr = 7 then mtxChunks o else copyEngineChunks o

/-- An atomic unit of a matrix instruction, read before its completion; what it cannot read shows then (R306, R347). -/
def mtxUnit (s : State) (o : Op) (k : Nat) : Except OpErr (State × Op) :=
  match mtxChunk s o k with
  | .ok r => .ok r
  | .error _ => .error .wait

/-- One chunk of such a command. -/
def opChunk (s : State) (o : Op) (k : Nat) : Except OpErr (State × Op) :=
  match o.instr with
  | .put .. | .get .. | .mcast .. => fabricChunk s o k
  | .qBind .. => qBindChunk s o k
  | .kvSv .. => kvSvChunk s o k
  | .cmxPack .. | .cmxRest .. => cmxChunk s o k
  | _ => if engineOf o.instr = 7 then mtxUnit s o k else copyEngineChunk s o k

/-! ### Requests -/

def findReq (s : State) (id : Nat) : Option Req := s.reqs.find? (fun r => r.id == id)

def updateReq (s : State) (r : Req) : State := { s with reqs := s.reqs.map (fun q => if q.id = r.id then r else q) }

def removeReq (s : State) (id : Nat) : State := { s with reqs := s.reqs.filter (fun q => q.id != id) }

/-- Every request that must perform first has performed (R240, R338). -/
def reqReady (s : State) (r : Req) : Bool := r.after.all (fun i => !(s.reqs.any (fun q => q.id == i && !q.performed)))

/-- A request as the log names it: its sequence is a command's number, or the issue count at which a direct access was issued
(R521, type 6). -/
def reqAccessor (r : Req) : Accessor := ⟨partyCode r.core r.ctx r.kind.engineSeq, r.core, r.ctx, r.kind.engineSeq.getD r.icnt⟩

/-- An access that a replay holds (R523). -/
def reqHeld (s : State) (r : Req) : Bool := orderHeld s r.core r.ctx (reqAccessor r).seq r.pas

/-- Transaction tag of a request's packet (R464). -/
def tagOf (s : State) (r : Req) : Nat := ((findPacket s r.id).map (·.pkt.tag.toNat)).getD 0

/-- A direct access ends with cause UNCORRECTABLE: the stop becomes pending, the access is gone, an atomic's token reads
error (R392, R491, R498). -/
def uncStop (pa : Nat) : TrapInfo :=
  { cause := causeUnc, addr := BitVec.ofNat 64 pa, detail := 0, index := 0, engine := 2, slot := 7, cseq := 0, estat := 0 }

def addUnc (s : State) (core ctx pa : Nat) : State :=
  withCtx s core ctx (fun c => { c with unc := c.unc ++ [uncStop pa] })

/-- The operation that a direct access belongs to. -/
def reqOp (s : State) (r : Req) : Option Op :=
  match r.kind with
  | .load q => findOp s r.core r.ctx q
  | .atomic q _ => findOp s r.core r.ctx q
  | _ => none

/-- Remove a request and every other one of its operation, with their packets. -/
def dropOpReqs (s : State) (r : Req) : State :=
  let mine (q : Req) : Bool :=
    q.id == r.id || (q.core == r.core && q.ctx == r.ctx &&
      (match q.kind, r.kind with
       | .load a, .load b => a == b
       | .atomic a _, .atomic b _ => a == b
       | _, _ => false))
  let ids := (s.reqs.filter mine).map (·.id)
  { s with reqs := s.reqs.filter (fun q => !mine q), packets := s.packets.filter (fun p => !ids.contains p.id)
           outbound := s.outbound.filter (fun x => !(match x.req with | some i => ids.contains i | none => false)) }

/-- The stop that a stream's fault leaves: it names the command that bound the stream (R198, R228). -/
def streamStop (core ctx : Nat) (st : Stream) (cause : Nat) (addr detail : Word) (index : BitVec 32) (s : State) : State :=
  addStop s core ctx (fun e =>
    { cause := cause, addr := addr, detail := detail, index := index, engine := 4, slot := 2,
      cseq := st.cseq, estat := e })

/-- A fault other than of translation ends a stream's transfers: its stop becomes pending, no row is fetched any more, and
rows of an out-stream remain unwritten (R198). -/
def endStream (s : State) (core ctx q : Nat) (st : Stream) (cause : Nat) (addr detail : Word) (index : BitVec 32) : State :=
  let st' := { st with dead := true, total := if st.out then st.total else max st.fetched st.rp }
  putStream (streamStop core ctx st cause addr detail index s) core ctx q st'

/-- Commands that report failure in the token alone (R199). -/
def reportsAlone : Instr → Bool
  | .pfT .. | .pin .. | .unpin .. | .rngIns .. | .rngDel .. | .rngSplit .. | .rngMerge .. | .rngInv .. | .rngReloc ..
  | .rngResOr .. | .rngResAndn .. | .rngResWr .. | .rngRd .. => true
  | _ => false

/-- The token of such a command when one of its accesses fails: code 8 for a range command (R199, R234, R252). -/
def aloneToken : Instr → Word
  | .pfT .. => tokenError 0
  | _ => tokenError 8

/-- An access of a command met a fault at its home or outside: the command ends, by its token alone where it reports so (R198,
R199). -/
def failCommand (s : State) (o : Op) (cause : Nat) (addr : Word) : State :=
  if !o.live then s
  else if reportsAlone o.instr then endOp (dropReloc s o) o (aloneToken o.instr) none
  else failOp s o cause addr 0 0

/-- An engine's access fails: what sent it ends (R198). -/
def failEngine (s : State) (r : Req) (seq cause : Nat) (addr : Word) : State :=
  let s := removeReq (dropPacket s r.id) r.id
  match findOp s r.core r.ctx seq with
  | some o => failCommand s o cause addr
  | none =>
    match (ctxOf s r.core r.ctx).streams.find? (fun q => q.2.seq == seq && !q.2.dead) with
    | some (q, st) => endStream s r.core r.ctx q st cause addr 0 0
    | none => s

/-- A direct access fails with a cause other than UNCORRECTABLE: an atomic's token reads error, a load's destination keeps its
earlier value, and the stop becomes pending (R198, R373, R496). -/
def failDirect (s : State) (r : Req) (cause : Nat) (addr : Word) : State :=
  let s' := dropOpReqs s r
  match reqOp s r with
  | some o => failOp s' o cause addr 0 0
  | none =>
    if r.orphan then s'
    else addStop s' r.core r.ctx (fun e =>
      { cause := cause, addr := addr, detail := 0, index := 0, engine := 2, slot := 2, cseq := 0, estat := e })

/-- An access of this device's ends with a cause. -/
def failReq (s : State) (r : Req) (cause : Nat) : State :=
  let addr := BitVec.ofNat 64 (r.pas.headD 0)
  match r.kind.engineSeq with
  | some seq => failEngine s r seq cause addr
  | none => failDirect s r cause addr

/-- End an access with UNCORRECTABLE: an engine's command ends with that cause, a direct access leaves its own stop; a load's
destination keeps its earlier value (R392, R491). -/
def endAccess (s : State) (r : Req) : State :=
  match r.kind.engineSeq with
  | some _ => failReq s r causeUnc
  | none =>
    let s' := dropOpReqs s r
    let s' := match reqOp s r with
      | some o => (match r.kind with | .atomic .. => finishOp s' o (tokenError 0) | _ => removeOp s' o)
      | none => s'
    if r.orphan then s' else addUnc s' r.core r.ctx (r.pas.headD 0)

/-! ### Performing at the home -/

/-- An access performs: its order is noted, gated units wake, and its lines are touched (R336, R380, R384, R385). -/
def reachHome (s : State) (r : Req) (wr : Bool) : State :=
  touchLines (noteOrder (wakePas s r.pas) (reqAccessor r) wr r.pas) r.pas r.hint wr

/-- The operands of an atomic (R238). -/
structure AtomicWork where
  aop : BitVec 3
  ty : BitVec 2
  b : Nat
  c : Nat
deriving DecidableEq, Repr

/-- The work of an atomic's request. -/
def atomicWork (s : State) (r : Req) : Option AtomicWork :=
  match r.kind with
  | .swap _ _ _ e n => some ⟨7, 1, n.toNat, e.toNat⟩
  | _ => (reqOp s r).bind (fun o => (atomicOf o).map (fun x => ⟨x.1, x.2, o.b.toNat, o.c.toNat⟩))

/-- The replay cache of a port is full (R358). -/
def replayFull (s : State) (pa : Nat) : Bool :=
  match homeSlice s pa with
  | none => false
  | some k => decide (256 ≤ (sliceOf s k).replay.length)

/-- Hold a result in the home port's replay cache, under its source and tag (R358). -/
def holdResult (s : State) (pa source tag : Nat) (v : Word) : State :=
  match homeSlice s pa with
  | none => s
  | some k => withSlice s k (fun x => { x with replay := x.replay ++ [(source, tag, v)] })

/-- The old bytes of an atomic at some addresses; the new ones are stored, and where they stand at the new place of a chunk
that moved, at its old place too (R238, R254, R355, R356). -/
def applyAtomic (s : State) (w : AtomicWork) (pas : List Nat) : List Byte × State :=
  let old := pas.map (memByte s.mem)
  let cells := pas.zip (toBytes old.length (atomicNew w.aop w.ty (ofBytes old) w.b w.c))
  (old, storeCells (homeWrite s cells) (oldCopies s cells))

/-- An f32 add at a line (R357). -/
def isFloatAdd (w : AtomicWork) : Bool := w.ty == 2 && w.aop == 0

/-- The record of an f32 add's application to a line (R357, R521, type 7). -/
def logAdd (s : State) (pa source tag unit : Nat) : State := logAny s 7 (BitVec.ofNat 64 (pa / 128 * 128)) source tag unit []

/-- An atomic performs at its home: the old value is kept for the reply (R238, R239, R356, R521). -/
def performAtomic (s : State) (r : Req) (w : AtomicWork) : State :=
  let pa := r.pas.headD 0
  let tag := tagOf s r
  let s := reachHome s r true
  let s := if isFloatAdd w then logAdd (followAdd s r.core tag pa) pa r.core tag (128 + (homeSlice s pa).getD 0) else s
  let (old, s) := applyAtomic s w r.pas
  updateReq (holdResult s pa r.core tag (BitVec.ofNat 64 (ofBytes old))) { r with value := old, performed := true }

/-- A change of a presence code performs at its home (R439). A claim may raise a fill request; none where it has to wait for
room in the queue (R444, R446). -/
def performCode (s : State) (r : Req) (seq tag key old new : Nat) : Option State :=
  let s := reachHome s r true
  if old = 2 then
    match findOp s r.core r.ctx seq with
    | some o => (performClaim s o tag key).map (fun x => updateReq x.1 { r with value := x.2, performed := true })
    | none => some (updateReq s { r with value := [0], performed := true })
  else
    let b : Byte := BitVec.ofNat 8 (codeOf (memByte s.mem (key / 4)) (key % 4))
    some (updateReq (changeCode s key old new) { r with value := [b], performed := true })

/-- A request performs at its home in this device: the state and the data that go back; none where it has to wait. -/
def performReq (s : State) (r : Req) : Option (State × List Byte) :=
  match r.kind with
  | .store cells => some (removeReq (homeWrite (reachHome s r true) cells) r.id, [])
  | .write _ _ _ cells => some (updateReq (homeWrite (reachHome s r true) cells) { r with performed := true }, [])
  | .load _ | .read .. =>
    let s := reachHome s r false
    let b := r.pas.map (memByte s.mem)
    some (updateReq s { r with value := b, performed := true }, b)
  | .atomic .. =>
    match atomicWork s r with
    | none => some (removeReq s r.id, [])
    | some w =>
      if replayFull s (r.pas.headD 0) || (isFloatAdd w && addHeld s r.core (tagOf s r) (r.pas.headD 0)) then none
      else
        let s := performAtomic s r w
        some (s, ((findReq s r.id).map (·.value)).getD [])
  | .code seq tag key old new => (performCode s r seq tag key old new).map (fun s => (s, []))
  | .swap _ _ _ e n =>
    let (old, s) := applyAtomic (reachHome s r true) ⟨7, 1, n.toNat, e.toNat⟩ r.pas
    some (updateReq s { r with value := old, performed := true }, old)
  | .flag .. => none

/-! ### Performing outside the device (R239, R334, R496, R521) -/

/-- Atomics may go to an address: in the RoCEv2 region through a window with ATOM (R495, R496). -/
def windowAtomic (s : State) (pa : Nat) : Bool :=
  match regionOf pa with
  | .roce => (match windowAt s pa with | some w => w.getLsbD 145 | none => false)
  | _ => true

/-- An atomic that memory outside the device accepts: to the domain any, over RoCEv2 an i64 `am` add or cas through a
window that allows atomics (R239, R496). -/
def atomicCarried (s : State) (pa : Nat) (i : Instr) : Bool :=
  windowAtomic s pa &&
    (match regionOf pa with
     | .roce =>
       (match i with
        | .am _ _ _ _ aop ty _ _ _ _ => ty == 1 && (aop == 0 || aop == 7)
        | _ => false)
     | _ => true)

/-- What a request asks a RoCEv2 peer for; none for one that it may not be asked (R496). -/
def rdmaOf (s : State) (r : Req) : Option RdmaKind :=
  match r.kind with
  | .store cells => some (.write (cells.map (·.2)))
  | .write _ _ _ cells => some (.write (cells.map (·.2)))
  | .load _ | .read .. => some (.read r.pas.length)
  | .atomic .. =>
    match reqOp s r with
    | none => none
    | some o =>
      if atomicCarried s (r.pas.headD 0) o.instr then
        some (match atomicOf o with
          | some (7, _) => .cmpSwap o.c o.b
          | _ => .fetchAdd o.b)
      else none
  | .swap _ _ _ e n => if windowAtomic s (r.pas.headD 0) then some (.cmpSwap e n) else none
  | .code .. | .flag .. => none

/-- A write to the old backing of a range that moves goes to the new one too, wherever each of them lies (R254, R355). -/
def mirrorAway (s : State) (cells : List Host.Cell) : State :=
  match s.relocs with
  | [] => s
  | _ => storeCells s (mirrored s cells)

/-- An atomic has performed outside the device at the new place of a chunk that moved: the old place has its result too
(R254, R355). -/
def mirrorAtomic (s : State) (r : Req) (old : List Byte) : State :=
  match s.relocs, atomicWork s r with
  | [], _ | _, none => s
  | _, some w => storeCells s (oldCopies s (r.pas.zip (toBytes old.length (atomicNew w.aop w.ty (ofBytes old) w.b w.c))))

/-- An access that another party has answered performs: with the logged response while a log is followed (R521, R523). -/
def performAway (s : State) (r : Req) (data : List Byte) : State :=
  match r.kind with
  | .store cells => removeReq (mirrorAway s cells) r.id
  | .flag .. => removeReq s r.id
  | .write _ _ _ cells => updateReq (mirrorAway s cells) { r with value := [0], performed := true }
  | .code .. => updateReq s { r with value := [0], performed := true }
  | .load _ | .read .. | .atomic .. | .swap .. =>
    let pa := r.pas.headD 0
    let (b, s) := replayResponse s r.core r.ctx pa data
    let s := logAt s r.core r.ctx 5 (BitVec.ofNat 64 pa) b.length (tagOf s r) b
    updateReq (mirrorAtomic s r b) { r with value := b, performed := true }

/-- The bytes that a party outside the device answers to a request with: free (R239, R334). -/
def awayData (s : State) (r : Req) : List Byte × State :=
  match r.kind with
  | .load _ | .read .. => freeBytes s Config.externalByte r.pas.length
  | .atomic .. | .swap .. => (toBytes r.pas.length (Config.externalWord s.fresh).toNat, { s with fresh := s.fresh + 1 })
  | _ => ([], s)

/-- A write of the device itself fails: a completion record that it carried is logged (R398). -/
def failNote (s : State) (p : NetPacket) : State :=
  match p.note with
  | some (q, i, r) => logEvent s (.completionFailed q i r)
  | none => s

/-- Answer a packet that waits for a party outside the device (R334, R496). A packet without a request of its own ends. -/
def answerAway (s : State) (p : NetPacket) (given : Option (List Byte)) (cause : Byte) : State :=
  match findReq s p.id with
  | none => dropPacket (if cause = 0 then s else failNote s p) p.id
  | some r =>
    if cause ≠ 0 then failReq s r cause.toNat
    else
      let (b, s) := match given with
        | some b => (b, s)
        | none => awayData s r
      respond (performAway s r b) p b 0

/-! ### Chunks that have moved (R254, R355) -/

/-- Where an atomic performs in a range that relocates: at the new place once its chunk has moved. -/
def atomicPlace (s : State) (pas : List Nat) : List Nat :=
  match s.relocs.findSome? (fun r => (twinOf s r (pas.headD 0)).bind (fun t => if t.2 < r.2.2.2 then some t.1 else none)) with
  | some a => (List.range pas.length).map (fun i => a + i)
  | none => pas

/-- The access of a request that is an atomic. -/
def ReqKind.isAtomic : ReqKind → Bool
  | .atomic .. | .swap .. => true
  | _ => false

/-- An atomic whose chunk has moved goes on to its new place, and performs at that place's home (R355). -/
def rerouted (s : State) (r : Req) : Option (List Nat) :=
  if r.kind.isAtomic then
    let l := atomicPlace s r.pas
    if l = r.pas then none else some l
  else none

/-- The command of a relocation is copying a chunk: its accesses are under way. -/
def chunkMoving (s : State) (r : BitVec 16 × Nat × BitVec 45 × Nat) : Bool :=
  s.ops.any (fun o =>
    (match o.instr with | .rngReloc .. => true | _ => false) && o.started && o.asid == r.1 && (o.nums[1]?).getD 0 == r.2.1 &&
      s.reqs.any (fun q => q.engineOf o.core o.ctx o.seq && q.kind.tag == some (2 + r.2.2.2)))

/-- An atomic to a chunk that is moving holds (R355). -/
def atomicHeld (s : State) (r : Req) : Bool :=
  r.kind.isAtomic && s.relocs.any (fun x =>
    chunkMoving s x && (match twinOf s x (r.pas.headD 0) with | some t => t.2 == x.2.2.2 | none => false))

/-- Send a request on to other addresses, from where it stands. -/
def sendOn (s : State) (p : NetPacket) (r : Req) (pas : List Nat) : State :=
  let pa := pas.headD 0
  let from_ := attachOf p.pkt.dst.toNat
  let q := { p with pkt := { p.pkt with pa := BitVec.ofNat 48 pa, dst := BitVec.ofNat 16 (endpointOf s (dieOf r.core) pa)
                                        dstDev := BitVec.ofNat 10 (deviceOf s pa) } }
  movePacket (updateReq s { r with pas := pas }) q from_.1 from_.2

/-! ### Accesses from other devices (R358, R366, R373) -/

/-- Bytes that a remote request touches (R465). -/
def remoteLen (p : Packet) : Nat := if p.typ = 3 then atomicBytes (p.aux.extractLsb' 0 2) else p.aux.toNat

/-- Permissions that it needs beside RA (R373). -/
def remoteNeed (p : Packet) : List Nat := if p.typ = 1 then [permRd] else if p.typ = 2 then [permWr] else [permRd, permWr]

/-- A request of another device that a port can serve: data of its length, an atomic aligned. -/
def remoteFits (p : Packet) (data : List Byte) : Bool :=
  let n := remoteLen p
  (p.typ == 1 || p.typ == 2 || p.typ == 3) && decide (0 < n ∧ n ≤ 512) && (p.typ != 2 || data.length == n) &&
    (p.typ != 3 || (decide (p.pa.toNat % n = 0) && data.length == 16))

/-- The addresses of a remote request under the export space, or the cause of its failure. -/
def remotePas (s : State) (p : Packet) : Except Nat (List Nat) :=
  match resolveSpan s (remoteNeed p) ((List.range (remoteLen p)).map (fun i => p.pa.toNat + i)) with
  | .error f => .error f.cause
  | .ok pas =>
    if (carveAt s pas).isSome then .error causeCarve
    else if p.typ != 1 && pas.any (inTarget s) then .error causePerm
    else
      match pas.foldlM (fun (_ : Unit) a => outsideCheck s a) () with
      | .ok _ => if p.typ = 3 && pas.any (isOutside s) then .error causePerm else .ok pas
      | .error _ => .error causeUnc

/-- Number of a remote endpoint among the sources of a replay cache. -/
def remoteSource (p : Packet) : Nat := 2 ^ 45 + p.srcDev.toNat * 2 ^ 16 + p.src.toNat

def answer (s : State) (a : Answer) : State := { s with answers := a :: s.answers }

/-- Count a grant of a home, or a delivery at a core, in a log: how many came before it. -/
def countLogged (s : State) (home : Nat) : Nat × State :=
  match s.rlog with
  | none => (0, s)
  | some l =>
    (Tbl.look 0 l.grants home, { s with rlog := some { l with grants := Tbl.put l.grants home (Tbl.look 0 l.grants home + 1) } })

/-- Place of an inbound write or atomic at some addresses in the order of its home's grants. -/
def grantOrder (s : State) (pas : List Nat) : Nat := (countLogged s (endpointOf s 0 (pas.headD 0))).1

/-- The log record of an inbound write or atomic, at the edge where it arrived, with its place in the order of its home's
grants (R521, type 4). -/
def logInbound (s : State) (edge typ : Nat) (pas : List Nat) (b : List Byte) : State :=
  let (n, s) := countLogged s (endpointOf s 0 (pas.headD 0))
  logAny s 4 (BitVec.ofNat 64 (pas.headD 0)) (typ + 256 * b.length) n edge b

/-- An inbound write or atomic takes its place in the order at its chunks. A replay brings no inbound read, and none is noted
(R336, R521, R523; Assumption 118). -/
def noteInbound (s : State) (edge party : Nat) (wr : Bool) (pas : List Nat) : State :=
  if wr then noteOrder s ⟨party, edge, 7, grantOrder s pas⟩ true pas else s

/-- Edge at which packets of other devices arrive: that of the die they go to (R462). -/
def domainEdge : Nat := 205

/-- A remote request touches its lines as the ranges of the export space say (R366, R389). -/
def touchRemote (s : State) (p : Packet) (pas : List Nat) : State :=
  touchMapped s [] 0xFFFF (p.typ != 1) (mapped ((p.pa.toNat - Config.domainBase) % 2 ^ 37) pas)

/-- The result that a port holds for a retransmitted atomic (R358). -/
def heldResult (s : State) (pa source tag : Nat) : Option Word :=
  match homeSlice s pa with
  | none => none
  | some k => ((sliceOf s k).replay.find? (fun e => e.1 == source && e.2.1 == tag)).map (·.2.2)

/-- An atomic of another device performs at its home and its result is held for a retransmission; one that has performed
answers with the held result; none while the port's cache is full (R238, R356, R358). -/
def remoteAtomic (s : State) (p : Packet) (at_ : List Nat) (data : List Byte) : Option (State × List Byte) :=
  let w : AtomicWork := ⟨p.aux.extractLsb' 2 3, p.aux.extractLsb' 0 2, ofBytes (data.take 8), ofBytes (data.drop 8)⟩
  let pas := if (atomicPlace s at_).any (isOutside s) then at_ else atomicPlace s at_
  let pa := pas.headD 0
  match heldResult s pa (remoteSource p) p.tag.toNat with
  | some v => some (s, toBytes pas.length v.toNat)
  | none =>
    if replayFull s pa then none
    else
      let new := toBytes pas.length (atomicNew w.aop w.ty (ofBytes (pas.map (memByte s.mem))) w.b w.c)
      let s := logInbound (noteInbound s domainEdge (remoteSource p) true pas) domainEdge 3 pas new
      let s := if isFloatAdd w then logAdd s pa p.src.toNat p.tag.toNat domainEdge else s
      let (old, s) := applyAtomic (touchRemote s p pas) w pas
      some (holdResult s pa (remoteSource p) p.tag.toNat (BitVec.ofNat 64 (ofBytes old)), old)

/-- The row that a write of another device carries resolves once the write has performed (R245, R246). -/
def resolveInbound (s : State) (p : Packet) : State :=
  if atwEn p.atw && atwDevice p.atw == s.device.toNat then (resolveRow s p.atw (atwRow p.atw) p.cookie).1 else s

/-- A request of another device performs at its home and is answered; one that fails is answered with its cause (R373); none
where it has to wait. -/
def grantRemote (s : State) (q : NetPacket) : Option State :=
  let p := q.pkt
  if !remoteFits p q.data then some (dropPacket s q.id)
  else
    match remotePas s p with
    | .error c => some (respond s q [] (BitVec.ofNat 8 c))
    | .ok pas =>
      let s := wakePas s pas
      if p.typ = 1 then
        let (b, s) := readPas (touchRemote s p pas) pas
        some (respond s q b 0)
      else if p.typ = 2 then
        let s := logInbound (noteInbound s domainEdge (remoteSource p) true pas) domainEdge 2 pas q.data
        some (respond (resolveInbound (writeCells (touchRemote s p pas) (pas.zip q.data)) p) q [] 0)
      else (remoteAtomic s p pas q.data).map (fun x => respond x.1 q x.2 0)

/-- The link acknowledges the reply to an atomic of a source: its result is released (R358). -/
def releaseResult (s : State) (source tag : Nat) : State :=
  { s with slices := s.slices.map (fun k => (k.1,
      { k.2 with replay := k.2.replay.filter (fun e => !(e.1 == source && e.2.1 == tag)) })) }

/-! ### Inbound accesses of a replayed log (R521, R523) -/

/-- The record of the f32 add that an inbound atomic is: it follows that atomic's record and has the same unit. -/
def pairedAdd (s : State) (x : LogRec) : Option LogRec :=
  match s.rplay with
  | none => none
  | some r =>
    match (r.recs.dropWhile (· != x)).drop 1 with
    | y :: _ =>
      if x.aux % 256 = 3 ∧ y.typ = 7 ∧ y.unit = x.unit ∧ y.key.toNat = x.key.toNat / 128 * 128 then some y else none
    | [] => none

/-- Another add that the log applies to the line comes first. -/
def addBefore (s : State) (x : LogRec) : Bool :=
  match s.rplay with
  | none => false
  | some r => (r.recs.takeWhile (· != x)).any (fun y => y.typ == 7 && y.key.toNat == x.key.toNat / 128 * 128)

/-- The next inbound write or atomic of a replayed log performs, once its predecessors have (R523). -/
def grantLogged (s : State) : State :=
  match inboundRecord s with
  | none => s
  | some x =>
    let pas := (List.range (x.aux / 256)).map (fun i => x.key.toNat + i)
    if (x.aux % 256 ≠ 2 ∧ x.aux % 256 ≠ 3) ∨ orderHeld s x.unit 7 x.seq pas ∨
        ((pairedAdd s x).isSome ∧ addBefore s x) then s
    else
      let s' := match pairedAdd s x with
        | some y => followRecord s y
        | none => s
      let s := noteOrder (wakePas (followRecord s' x) pas) ⟨2 ^ 46 + x.unit, x.unit, 7, x.seq⟩ true pas
      homeWrite (touchLines s pas plainHint true) (pas.zip x.payload)

/-! ### Grants (R470, R472, R478) -/

/-- A packet at its home may perform now: what must come before it has performed, and no log and no moving chunk holds it. -/
def mayPerform (s : State) (p : NetPacket) : Bool :=
  match findReq s p.id with
  | some r => !r.performed && reqReady s r && !reqHeld s r && !atomicHeld s r
  | none => true

/-- An entry of a port's bank queue may perform now; a contribution waits for the generation that it belongs to (R481). -/
def portReady (s : State) (p : NetPacket) : Bool := mayPerform s p && (p.pkt.typ != 7 || (rootAbsorbs s p).isSome)

/-- A packet as a point lets it perform next: a memory port by its bank queues, a neighbour link's receive queue in order, a
scratchpad any of those that reached it (R378, R470, R472, R478). -/
def grantable (s : State) (p : NetPacket) : Option Contender :=
  match p.place with
  | .memPort _ => (choose (bankHeads s p.place (portReady s)) (grantsSince s p.place 0)).filter (fun c => c.p.id == p.id)
  | .linkIn .. =>
    if (s.packets.find? (fun q => q.place == p.place)).map (·.id) == some p.id && mayPerform s p then some p.contender else none
  | .unit _ => if p.pkt.vc == 0 && mayPerform s p then some p.contender else none
  | _ => none

/-- A request of this device at its home. -/
def grantReq (s : State) (p : NetPacket) (c : Contender) (r : Req) : Host.Outcome State Fault Refusal :=
  match r.pas.foldlM (fun (_ : Unit) a => outsideCheck s a) () with
  | .error (.fault f) => .fault f
  | .error _ => .next (endAccess s r)
  | .ok () =>
    match rerouted s r with
    | some pas => .next (sendOn (countGrant s p.place 0 c) p r pas)
    | none =>
      match performReq s r with
      | some (s, b) => .next (respond (countGrant s p.place 0 c) p b 0)
      | none => .next s

/-- Traffic without a request of its own: what it does to memory is done where it is sent; a read of the walker's touches its
line here (R331, R371, R384, R468). -/
def grantTraffic (s : State) (p : NetPacket) (c : Contender) : State :=
  let pa := p.pkt.pa.toNat
  let s := match p.touch with
    | some h => touchLines s [pa] h (p.pkt.typ != 1)
    | none => s
  respond (countGrant s p.place 0 c) p (if p.pkt.typ = 1 then physRead s pa p.pkt.aux.toNat else []) 0

/-- A packet performs at its home. -/
def grantPacket (s : State) (p : NetPacket) (c : Contender) : Host.Outcome State Fault Refusal :=
  if p.pkt.typ = 7 then .next (((rootAbsorbs s p).map (fun t => countGrant t p.place 0 c)).getD s)
  else
    match findReq s p.id with
    | some r => grantReq s p c r
    | none =>
      if p.pkt.srcDev = s.device then .next (grantTraffic s p c)
      else .next (((grantRemote s p).map (fun t => countGrant t p.place 0 c)).getD s)

/-- A soft error of a range table entry drops it; the device logs it (R392). Entries are numbered as in R369. -/
def dropTableEntry (s : State) (core i : Nat) : State :=
  let k := coreOf s core
  match (if i < 44 then k.rtask[i]? else k.rserv[i - 44]?) with
  | none => s
  | some e =>
    logEvent (withCore s core (fun k =>
      if i < 44 then { k with rtask := k.rtask.eraseIdx i } else { k with rserv := k.rserv.eraseIdx (i - 44) }))
      (.uncorrectable e.pos)

/-- Count a corrected error of a unit (R392). -/
def countCorrected (s : State) (u : ErrorUnit) : State :=
  let n := ((s.corrected.find? (fun e => e.1 == u)).map (·.2)).getD 0
  { s with corrected := s.corrected.filter (fun e => e.1 != u) ++ [(u, n + 1)] }

/-- The next step of a chunk of a command: an access is sent, or the chunk is done. -/
def stepChunk (s : State) (o : Op) (k : Nat) : Host.Outcome State Fault Refusal :=
  if !o.live || !(opChunks o).contains k then .next s
  else
    match runChunk opChunk s o k with
    | .ok (s, _) => .next s
    | .error (.send a) => .next (sendAccess s a)
    | .error (.fault f) => .fault f
    | .error _ => .next s

/-- The service context runs a save or a restore (R515). -/
def savesOrRestores (s : State) (core : Nat) : Bool :=
  match (coreOf s core).service with
  | some (.save _) | some (.restore _) => true
  | _ => false

/-! ### Faults of commands (R198) -/

/-- A stream's next transfer meets a fault: a translation fault suspends it until its handler's end, any other ends it (R198). -/
def suspendStream (s : State) (core ctx q : Nat) (st : Stream) : Host.Outcome State Fault Refusal :=
  match (if st.out then writeRow s core ctx st else fetchRow s core ctx st) with
  | .error (.fault f) => .fault f
  | .error (.suspend f) =>
    let s := searched s (streamParty s core ctx st (if st.out then st.freed else max st.fetched st.freed)) f
    .next (putStream (streamStop core ctx st f.cause (BitVec.ofNat 64 f.addr) 0 (BitVec.ofNat 32 f.seg) s) core ctx q
      { st with susp := true })
  | .error (.fail cause addr detail index) => .next (endStream s core ctx q st cause addr detail index)
  | .error .wait | .error (.send _) | .ok _ => .next s

/-- COMMAND_SUSPEND: a command meets a fault at its next chunk; a translation fault suspends it, any other ends it, and a
stop becomes pending (R198). Chunks before the fault perform. A command that ends so writes its token once the accesses that
it made have performed (R345). -/
def execCommandSuspend (core ctx seq : Nat) (s : State) : Host.Outcome State Fault Refusal :=
  match findOp s core ctx seq with
  | some o =>
    match o.ending with
    | some (tok, stop) => .next (if accessPending s core ctx seq then s else settleEnd s o tok stop)
    | none =>
      if o.susp.isSome then .next s
      else
        match runChunks opChunk s o (opChunks o) with
        | .done .. => .next s
        | .stopped s o e => opFault s o e
  | none =>
    match (ctxOf s core ctx).streams.find? (fun p => p.2.seq == seq && !p.2.susp) with
    | some (q, st) => suspendStream s core ctx q st
    | none => .next s

end Sys2Proof.Machine
end

