-- ==== Sys2Proof/Machine/Router.lean ====
section
/-! DEFINITION. Packets on the network: where they go, what each arbitration point grants, slack on the way and what
arriving packets do (R183, R246, R248, R459 to R474, R478, R484, R488, R496). -/

namespace Sys2Proof.Machine

/-! ### Where a packet goes (R461 to R463, R476, R488) -/

/-- Die of an endpoint (R461). -/
def dieOfEnd (e : Nat) : Nat := (routerOf e).1 / 8

/-- Endpoint that a packet is routed to: one for another device leaves by the fabric edge of its issuer's die (R488). -/
def routeEnd (s : State) (p : Packet) : Nat :=
  if p.dstDev = s.device then p.dst.toNat else 205 + 2 * dieOfEnd p.src.toNat

/-- Outputs of a router: 0 and 1 along X up and down, 2 and 3 along Y, 4 its attachment. -/
def outputOf (a b : Nat × Nat) : Nat :=
  match nextRouter a b with
  | none => 4
  | some n => if n.1 ≠ a.1 then (if n.1 = (a.1 + 1) % 16 then 0 else 1) else (if n.2 = (a.2 + 1) % 6 then 2 else 3)

/-- The Lanmiend ports of a fabric edge that are in its hash (R488, R491). -/
def workingPorts (s : State) (edge : Nat) : List Nat :=
  ((List.range 24).map (24 * edge + ·)).filter (fun n => !(Tbl.look Port.init s.ports n).failed)

/-- The port by which a packet leaves: a hash of SRC, DST and TAG, so that one transaction uses one port (R488). -/
def portFor (s : State) (edge : Nat) (p : Packet) : Option Nat :=
  let l := workingPorts s edge
  l[Config.portHash p.src p.dst p.tag % l.length]?

/-- The cluster that a cluster's neighbour link leads to (R476). -/
def neighbourOf (c d : Nat) : Nat :=
  match d with
  | 0 => c + 4
  | 1 => c + 1
  | 2 => c - 4
  | _ => c - 1

/-- Output of a point that a packet there wants; none when it does not contend. -/
def wants (s : State) (p : NetPacket) : Option Nat :=
  match p.place with
  | .router x y => some (outputOf (x, y) (routerOf (routeEnd s p.pkt)))
  | .fabricEdge e => portFor s e p.pkt
  | .attach .. | .fabricIn _ | .linkQueue .. | .hostQueue _ => some 0
  | .memPort _ | .linkIn .. | .unit _ | .away => none

/-- Where a packet rests at the endpoint that it was routed to; none when it is delivered there. -/
def restAt (s : State) (p : Packet) : Option (NetPoint × Nat) :=
  let e := routeEnd s p
  if p.dstDev ≠ s.device then some (.fabricEdge ((e - 205) / 2), 0)
  else if p.vc = 1 then none
  else if p.vc = 2 ∨ e < 128 ∨ e = 205 ∨ e = 207 then some (.unit e, 0)
  else if e < 192 then some (.memPort (e - 128), bankQueue p.pa.toNat)
  else if e = 204 ∨ e = 206 then some (.hostQueue ((e - 204) / 2), 0)
  else none

/-! ### Buffers (R466) -/

/-- The router's input buffer that a grant leads to; none for a grant that leads to no router. -/
def nextBuffer (s : State) (p : NetPacket) (out : Nat) : Option (Nat × Nat × Nat) :=
  match p.place with
  | .attach x y => some (x, y, 4)
  | .router x y => (nextRouter (x, y) (routerOf (routeEnd s p.pkt))).map (fun n => (n.1, n.2, out))
  | .fabricIn e => some ((routerOf (205 + 2 * e)).1, (routerOf (205 + 2 * e)).2, 4)
  | _ => none

/-- Free slots of a router's input buffer on a channel (R466). -/
def freeSlots (s : State) (place : NetPoint) (input : Nat) (vc : BitVec 2) : Nat :=
  4 - (s.packets.filter (fun p => p.place == place && p.input == input && p.pkt.vc == vc)).length

/-- Slots that a grant needs free: two to enter a ring, one to go on along it or into an attachment's own buffer (R466). -/
def slotsNeeded (p : NetPacket) (input : Nat) : Nat := if input = 4 ∨ p.input = input then 1 else 2

/-- A packet may enter its next buffer (R466). -/
def mayMove (s : State) (p : NetPacket) (out : Nat) : Bool :=
  match nextBuffer s p out with
  | some (x, y, i) => decide (slotsNeeded p i ≤ freeSlots s (.router x y) i p.pkt.vc)
  | none => true

/-! ### Contenders (R470, R496) -/

/-- A packet heads its input queue for an output. A request leaves the device once those that must perform before it have
(R338). -/
def headsOutput (s : State) (p : NetPacket) (out : Nat) : Bool :=
  match p.place with
  | .fabricEdge _ =>
    (s.packets.find? (fun q =>
      q.place == p.place && q.pkt.vc == p.pkt.vc && wants s q == some out && mayPerform s q)).map (·.id) == some p.id
  | _ => headsQueue s p

/-- The queue pair that an access of the RoCEv2 region is carried on (R496). -/
def packetQp (s : State) (p : NetPacket) : Option Nat := (windowAt s p.pkt.pa.toNat).map windowQp

/-- A packet of the send work of the queue pairs. -/
def sendWork (s : State) (p : NetPacket) : Bool :=
  p.place != .away && p.pkt.vc == 0 && p.pkt.dstDev == s.device && (p.pkt.dst == 204 || p.pkt.dst == 206)

/-- The oldest send work of its queue pair, wherever the rest of it stands: it is served in issue order (R363, R496). -/
def oldestWork (s : State) (p : NetPacket) : Bool :=
  s.packets.all (fun q => !(sendWork s q && packetQp s q == packetQp s p) || decide (p.id ≤ q.id))

/-- The port of its three that a contender of a fabric edge's ingress considers first (R470). -/
def rotationOf (s : State) (edge group : Nat) : Nat := grantsSince s (.fabricIn edge) (1 + group)

/-- The packet that a group of three ports puts forward on a channel: in fixed rotation (R470). -/
def groupHead (s : State) (edge group : Nat) (vc : BitVec 2) : Option NetPacket :=
  (List.range 3).findSome? (fun i =>
    let port := 3 * group + (rotationOf s edge group + i) % 3
    s.packets.find? (fun p => p.place == .fabricIn edge && p.input == port && p.pkt.vc == vc))

/-- Contenders of a point for an output. -/
def contenders (s : State) (n : NetPoint) (out : Nat) : List NetPacket :=
  let l := match n with
    | .fabricIn e => if out = 0 then (List.range 8).flatMap (fun g => ([0, 1, 2] : List (BitVec 2)).filterMap (groupHead s e g)) else []
    | .hostQueue _ => s.packets.filter (fun p => p.place == n && out == 0 && oldestWork s p && mayPerform s p)
    | _ => s.packets.filter (fun p => p.place == n && wants s p == some out && headsOutput s p out)
  l.filter (fun p => mayMove s p out)

/-! ### What a grant does -/

/-- A packet is delivered at the unit it was routed to: a release ends the generation there (R484); any other response was
waited for by its request alone. -/
def deliver (s : State) (p : NetPacket) : State :=
  let s := dropPacket s p.id
  if p.pkt.typ = 0x13 then releaseAt s p.pkt.dst.toNat p.pkt.aux else s

/-- A packet reaches the endpoint that it was routed to. -/
def arriveAt (s : State) (p : NetPacket) : State :=
  match restAt s p.pkt with
  | some (place, input) => movePacket s p place input
  | none => deliver s p

/-- A packet leaves by a Lanmiend port: a request or outrider waits for the other device, a response is done. While a log is
followed nothing leaves: a request is answered as the log has it (R488, R523). -/
def leaveBy (s : State) (p : NetPacket) (port : Nat) : State :=
  if s.rplay.isSome then (if p.pkt.vc = 1 then dropPacket s p.id else answerAway s p none 0)
  else
    let s := answer s (.packet port (Packet.header p.pkt) (flitsOf p.pkt p.data) p.cause)
    if p.pkt.vc = 1 then dropPacket s p.id else movePacket s p .away 0

/-- The host engine serves a write of a unit of the device itself; one whose peer cannot be reached ends (R398, R496). -/
def serveUnit (s : State) (p : NetPacket) : State :=
  let s := dropPacket s p.id
  let pa := p.pkt.pa.toNat
  if p.pkt.typ ≠ 2 ∨ s.rplay.isSome then s
  else if reachable s pa then sendRdma s pa (.write p.data) none p.note
  else failNote s p

/-- The host engine serves a piece of send work: it becomes an RDMA request of its queue pair, or ends (R496). -/
def serveWork (s : State) (p : NetPacket) : Host.Outcome State Fault Refusal :=
  match findReq s p.id with
  | none => .next (serveUnit s p)
  | some r =>
    match r.pas.foldlM (fun (_ : Unit) a => outsideCheck s a) () with
    | .error (.fault f) => .fault f
    | .error _ => .next (endAccess s r)
    | .ok () =>
      match rdmaOf s r with
      | none => .next (failReq s r causePerm)
      | some k =>
        if s.rplay.isSome then .next (answerAway s p none 0)
        else .next (movePacket (sendRdma s (r.pas.headD 0) k (some r.id) none) p .away 0)

/-- A group's rotation goes on after the port that it put forward (R470). -/
def turnGroup (s : State) (p : NetPacket) : State :=
  match p.place with
  | .fabricIn e => setGrants s (.fabricIn e) (1 + p.input / 3) ((p.input % 3 + 1) % 3)
  | _ => s

/-- A granted packet moves on. -/
def passOn (s : State) (p : NetPacket) (out : Nat) : Host.Outcome State Fault Refusal :=
  match nextBuffer s p out with
  | some (x, y, i) => .next (movePacket (turnGroup s p) p (.router x y) i)
  | none =>
    match p.place with
    | .router .. => .next (arriveAt s p)
    | .fabricEdge _ => .next (leaveBy s p out)
    | .linkQueue c d => .next (if p.pkt.vc = 1 then dropPacket s p.id else movePacket s p (.linkIn (neighbourOf c d) (oppositeDir d)) 0)
    | .hostQueue _ => serveWork s p
    | _ => .next s

/-- ROUTER_GRANT: an arbitration point grants one of its outputs to a contender, which moves on (R466, R470). -/
def execRouterGrant (n : NetPoint) (out : Nat) (s : State) : Host.Outcome State Fault Refusal :=
  match choose ((contenders s n out).map NetPacket.contender) (grantsSince s n out) with
  | none => .next s
  | some c => performing (passOn (countGrant s n out c) c.p out)

/-! ### Slack (R469, R474) -/

/-- SLACK_DECREMENT: a decrement that a packet owes is taken (R469, R474). Every one is taken in the tick in which QRES wraps
(`settleSlack`). -/
def execSlackDecrement (id : Nat) (s : State) : Host.Outcome State Fault Refusal :=
  match findPacket s id with
  | none => .next s
  | some p => .next (takeSlack s p)

/-! ### Arrivals (R183, R246, R248, R443) -/

/-- What an arrival names: the target of a flag packet, else an arrival target word (R183, R242, R521). -/
def arrivalKey (s : State) (q : Packet) : Word :=
  if q.typ = 4 then
    ctxidOf s.device 0 0 0 ||| BitVec.ofNat 64 (ctxidPlace q.dst.toNat (q.aux.extractLsb' 8 3).toNat)
  else q.atw

/-- The packet of an inbound record: it comes from outside and carries the replayed launch's COOKIE (R521, R523). -/
def loggedPacket (s : State) (x : LogRec) : Packet :=
  let cookie := match s.rplay.bind (fun r => Tbl.find s.launches r.launch) with
    | some l => l.entry.extractLsb' 0 64
    | none => 0
  let o : Origin := ⟨0, x.unit, 7, cookie, 0x3FF, 0⟩
  { newPacket s o (x.aux % 256) (ctxidCore x.key) s.device.toNat 0 (BitVec.ofNat 32 (ofBytes (x.payload.take 4))) x.key [] with
    srcDev := s.device + 1 }

/-- An arriving packet: its header, and its number in the network. -/
def arriving (s : State) (p : PacketSource) : Option (Packet × Option Nat) :=
  match p with
  | .own id =>
    match findPacket s id with
    | some q =>
      if q.place = .unit q.pkt.dst.toNat ∧ !arrivalHeld s q.pkt.dst.toNat (arrivalKey s q.pkt) (toBytes 4 q.pkt.aux.toNat)
      then some (q.pkt, some id) else none
    | none => none
  | .logged => (inboundRecord s).map (fun x => (loggedPacket s x, none))

/-- Take an arrived packet out of the network, with its request. -/
def absorbPacket (s : State) (id : Option Nat) : State :=
  match id with
  | some i => removeReq (dropPacket s i) i
  | none => s

/-- The log record of an arrival (R521, type 4): its unit is the core, or the edge at which it entered the device; AUX has the
type and the four bytes of its data. -/
def logArrival (s : State) (p : Packet) (key : Word) (seq : Nat) : State :=
  let unit := if p.srcDev = s.device then p.dst.toNat else if s.rplay.isSome then p.src.toNat else domainEdge
  logAny (followArrival s unit key) 4 key (p.typ.toNat + 256 * 4) seq unit (toBytes 4 p.aux.toNat)

/-- FLAG_PACKET_ARRIVE: a flag packet sets flags in its target or its saved image, or is discarded (R183). -/
def execFlagPacketArrive (p : PacketSource) (s : State) : Host.Outcome State Fault Refusal :=
  match arriving s p with
  | none => .next s
  | some (q, id) =>
    if q.typ ≠ 4 then .next s
    else
      let ctx := (q.aux.extractLsb' 8 3).toNat
      let target := arrivalKey s q
      let (n, s) := countLogged s q.dst.toNat
      let s := logArrival s q target n
      let s := match modifyTarget s q.dst.toNat ctx q.cookie (fun c => { c with flags := c.flags ||| (q.aux.extractLsb' 0 8).setWidth 16 }) with
        | some s => s
        | none => logEvent s (.badFlag target)
      performing (.next (absorbPacket s id))

/-- A counted notice sets f10 in the watching context (R246, R455). -/
def watchNotice (s : State) (atw : Word) (cookie : BitVec 64) : State :=
  match (counterAt s (atwCore atw) (atwCtr atw) cookie).watch with
  | none => s
  | some w => (modifyTarget s (atwCore atw) w cookie (fun c => { c with flags := c.flags ||| 0x400 })).getD s

/-- Resolutions of a counter so far, for the log. -/
def resolvedAt (s : State) (atw : Word) (cookie : BitVec 64) : Nat := (counterAt s (atwCore atw) (atwCtr atw) cookie).count.toNat

/-- NOTICE_ARRIVE: an exit notice resolves its row, may set f10, and leaves its control word in the trace (R246, R443). -/
def execNoticeArrive (p : PacketSource) (s : State) : Host.Outcome State Fault Refusal :=
  match arriving s p with
  | none => .next s
  | some (q, id) =>
    if q.typ ≠ 5 then .next s
    else
      let s := logArrival s q q.atw (resolvedAt s q.atw q.cookie)
      let s := traceEvent s (atwCore q.atw) 3 7 3 (BitVec.ofNat 64 (q.aux.toNat + 2 ^ 32 * atwRow q.atw))
      let (s, r) := resolveRow s q.atw (atwRow q.atw) q.cookie
      let s := if r = some true then watchNotice s q.atw q.cookie else s
      .next (absorbPacket s id)

/-- The token count of an `ac.add` whose row was counted or not (R248). -/
def countAdd (s : State) (id : Option Nat) (n : Nat) : State :=
  match id.bind (fun i => (findPacket s i).bind (·.op)) with
  | none => s
  | some k =>
    match findOp s k.1 k.2.1 k.2.2 with
    | some o => updateOp s { o with count := n }
    | none => s

/-- ACADD_ARRIVE: an arrival resolution resolves its row (R246, R248). -/
def execAcaddArrive (p : PacketSource) (s : State) : Host.Outcome State Fault Refusal :=
  match arriving s p with
  | none => .next s
  | some (q, id) =>
    if q.typ ≠ 6 then .next s
    else
      let s := logArrival s q q.atw (resolvedAt s q.atw q.cookie)
      let (s, r) := resolveRow s q.atw (atwRow q.atw) q.cookie
      .next (absorbPacket (countAdd s id (if r = some true then 1 else 0)) id)

end Sys2Proof.Machine
end

