-- ==== Sys2Proof/Machine/Link.lean ====
section
/-! DEFINITION. Links to other devices, peers and the host: the Lanmiend fabric, RoCEv2 in both directions, and what
their failures do (R358, R359, R363, R464, R465, R484, R488 to R497). -/

namespace Sys2Proof.Machine

/-! ### Acknowledgements (R363, R496) -/

/-- Whether a row counted at another device is not this device's to know (R248). -/
def freeCount (s : State) : Nat × State :=
  ((Config.unstatedCount s.fresh).toNat % 2, { s with fresh := s.fresh + 1 })

/-- A packet that waits on a link to another device. -/
def awayPacket (s : State) (id : Nat) : Option NetPacket := s.packets.find? (fun p => p.id == id && p.place == .away)

/-- Another device has taken a packet: a flag packet, notice or arrival resolution is delivered, a contribution is on its way
to the root, and a request is answered (R334, R345, R482, R488). -/
def takenAway (s : State) (p : NetPacket) : State :=
  if p.pkt.vc = 2 then
    let (n, s) := freeCount s
    absorbPacket (if p.pkt.typ = 6 then countAdd s (some p.id) n else s) (some p.id)
  else if p.pkt.typ = 7 then dropPacket s p.id
  else answerAway s p none 0

/-- Remove a piece of send work. -/
def eraseWork (s : State) (x : Outbound) : State := { s with outbound := s.outbound.erase x }

/-- A peer acknowledges a piece of send work: its request is answered. -/
def acknowledge (s : State) (x : Outbound) : State :=
  let s := eraseWork s x
  match x.req.bind (findPacket s) with
  | some p => answerAway s p none 0
  | none => s

/-- Answer a packet of a queue pair that carries a congestion mark with a notification (R492). -/
def notifyMark (s : State) (qp : Nat) (ecn : Bool) : State := if ecn then answer s (.congestion qp) else s

/-- PEER_ACKNOWLEDGEMENT: a peer acknowledges the oldest work of queue pair `n` (R345, R363, R492, R496); from 1,024 on, the
number names a packet that waits on a link, and the other device takes it, in any order (R488, R489; Assumption 92). -/
def execPeerAcknowledgement (p : PeerPacket) (s : State) : Host.Outcome State Fault Refusal :=
  performing (.next (
    if p.n < 1024 then
      match s.outbound.find? (fun x => x.qp == p.n) with
      | some x => acknowledge (notifyMark s p.n p.ecn) x
      | none => s
    else
      match awayPacket s (p.n - 1024) with
      | some p => if (findReq s p.id).any (fun r => r.pas.any (fun a => decide (regionOf a = .roce))) then s else takenAway s p
      | none => s))

/-! ### Accesses that end without an answer (R491, R496) -/

/-- The fabric timeout in ticks of 1.9 GHz (R2, R491). -/
def timeoutTicks (s : State) : Nat := 1900 * s.ftimeout

/-- A flag packet, notice or arrival resolution that cannot be delivered is discarded and logged (R183, R246, R491). -/
def discardPacket (s : State) (p : NetPacket) : State :=
  let target : Word := BitVec.ofNat 64
    (p.pkt.dstDev.toNat * 2 ^ 32 + ctxidPlace p.pkt.dst.toNat (p.pkt.aux.extractLsb' 8 3).toNat)
  let s := absorbPacket s (some p.id)
  if p.pkt.typ = 4 then logEvent s (.badFlag target) else logEvent s (.badResolution p.pkt.atw)

/-- The response to a packet for another device has not arrived within the fabric timeout, counted from its first send: an
outrider is discarded, an access ends with UNCORRECTABLE (R198, R491). A contribution waits for its group (R481). -/
def timeOut (s : State) (p : NetPacket) : State :=
  if p.pkt.dstDev = s.device ∨ p.pkt.vc = 1 ∨ p.pkt.typ = 7 ∨ s.time < p.sent + timeoutTicks s then s
  else if p.pkt.vc = 2 then discardPacket s p
  else
    match findReq s p.id with
    | some r => endAccess s r
    | none => dropPacket (failNote s p) p.id

/-- FABRIC_TIMEOUT (R491). -/
def execFabricTimeout (id : Nat) (s : State) : Host.Outcome State Fault Refusal :=
  match findPacket s id with
  | some p => performing (.next (timeOut s p))
  | none => .next s

/-- What send work that failed belongs to: an access, or a completion record, whose failure the device logs (R398). -/
def endWork (end_ : State → Req → State) (s : State) (x : Outbound) : State :=
  let s := eraseWork s x
  match x.note with
  | some (q, i, r) => logEvent s (.completionFailed q i r)
  | none =>
    match x.req.bind (findReq s) with
    | some r => end_ s r
    | none => s

/-- ROCE_NAK_RECEIVED: a peer refuses a piece of send work, named by its place in the list of it (R496). -/
def execRoceNakReceived (id : PeerPacket) (s : State) : Host.Outcome State Fault Refusal :=
  match s.outbound[id.n]? with
  | some x => performing (.next (endWork (fun s r => failReq s r causePerm) (notifyMark s x.qp id.ecn) x))
  | none => .next s

/-- End every access that waits for a queue pair, sent or still in the host engine's queue (R496). -/
def endQueued (s : State) (qp : Nat) : State :=
  let s := (s.outbound.filter (fun x => x.qp == qp)).foldl (endWork endAccess) s
  (s.packets.filter (fun p => sendWork s p && packetQp s p == some qp)).foldl (fun s p =>
    match findReq s p.id with
    | some r => endAccess s r
    | none => dropPacket (failNote s p) p.id) s

/-- A queue pair's entry is written with STATE 2: every access queued on it ends, and the device logs it (R493, R496). -/
def failQp (s : State) (qp : Nat) (e : BitVec 256) : State :=
  logEvent (endQueued { s with qps := Tbl.put s.qps qp e } qp) (.qpFailed qp)

/-- QP_ERROR: a queue pair enters the error state and ends every access queued on it (R493, R496). -/
def execQpError (qp : Nat) (s : State) : Host.Outcome State Fault Refusal :=
  if 1024 ≤ qp ∨ qpState s qp ≠ 1 then .next s
  else
    let e := Tbl.look 0 s.qps qp
    performing (.next (failQp s qp ((e &&& ~~~(3#256 <<< 32)) ||| (2#256 <<< 32))))

/-- CONGESTION_NOTIFICATION_RECEIPT: the send rate of a queue pair is reduced (R492); the state counts the reductions, which
change nothing but timing. -/
def execCongestionNotificationReceipt (qp : Nat) (s : State) : Host.Outcome State Fault Refusal :=
  if qp < 1024 then .next { s with qpRate := Tbl.put s.qpRate qp (Tbl.look 0 s.qpRate qp + 1) } else .next s

/-! ### Inbound requests (R358, R359, R363, R494) -/

/-- The checks of an inbound request: its key, and every byte under its queue pair's address space (R372, R373, R494). -/
def inboundSpan (s : State) (r : RoceRequest) (n : Nat) (need : List Nat) : Option (List Nat) :=
  let e := Tbl.look 0 s.qps r.qp
  if e.extractLsb' 64 32 ≠ r.rkey then none
  else
    match translateSpan s [] (e.extractLsb' 48 16) r.va.toNat n need with
    | .error _ => none
    | .ok pas =>
      match resolveSpan s need pas with
      | .ok l => some l
      | .error _ => none

/-- An inbound request is accepted for its checks: the device is operational and follows no log, and the queue pair is ready
to send (R493, R523, R527). -/
def accepts (s : State) (qp : Nat) : Bool := decide (qp < 1024) && qpState s qp == 1 && s.rplay.isNone

/-- Answer a request; packets with a congestion mark are answered with a notification besides (R492). -/
def reply (s : State) (r : RoceRequest) (a : Answer) : State :=
  notifyMark (answer s a) r.qp r.ecn

/-- Answer a NAK remote access error and log it. -/
def refuseInbound (s : State) (r : RoceRequest) (e : MgmtEvent) : State := logEvent (reply s r (.nakAccess r.qp)) e

/-- A request before the device is operational is answered NAK remote access error; a device without power answers
nothing (R527, R538). -/
def refuseEarly (s : State) (qp : Nat) : State := if s.powered then answer s (.nakAccess qp) else s

/-- A target that cannot be reached, or a bank in transition (R211, R494). -/
def targetFails (s : State) (pas : List Nat) : Bool :=
  (carveAt s pas).isSome ||
    (match pas.foldlM (fun (_ : Unit) a => outsideCheck s a) () with | .ok _ => false | .error _ => true)

/-- Party number of a host edge's requests for a queue pair. -/
def peerParty (qp : Nat) : Nat := 2 ^ 44 + qp

/-- The cells of a message that perform before it fails: which ones is unspecified (R494). -/
def partCells (s : State) (cells : List (Nat × Host.Cell)) : List (Nat × Host.Cell) × State :=
  ((cells.zipIdx.filter (fun c => Config.partlyPerformed (s.fresh + c.2))).map (·.1), { s with fresh := s.fresh + cells.length })

/-- The request part of an inbound request. -/
def Inbound.req : Inbound → RoceRequest
  | .write r _ | .read r _ | .atomic r _ => r

/-- An older request of the queue pair waits: message order (R363). -/
def behind (s : State) (i : Inbound) : Bool :=
  (s.inbox.takeWhile (· != i)).any (fun j => j.req.qp == i.req.qp)

/-- A request at a memory port that an access to some bytes conflicts with in a chunk stands there already (R472). -/
def portTaken (s : State) (wr : Bool) (pas : List Nat) : Bool :=
  s.packets.any (fun p =>
    (match p.place with | .memPort _ => true | _ => false) && p.pkt.vc == 0 && (wr || packetWrites p) &&
      (touchedBytes s p).any (fun a => pas.any (fun b => a / 64 == b / 64)))

/-- An inbound request waits at its port, in order of arrival (R358, R363, R472). -/
def holdInbound (s : State) (i : Inbound) : State := if s.inbox.contains i then s else { s with inbox := s.inbox ++ [i] }

/-- An inbound request that waited has been served. -/
def servedInbound (s : State) (i : Inbound) : State := { s with inbox := s.inbox.erase i }

/-- Serve an inbound request whose bytes are known, or let it wait for older ones. -/
def serveInbound (s : State) (i : Inbound) (wr : Bool) (pas : List Nat) (f : State → State) : Host.Outcome State Fault Refusal :=
  if behind s i || portTaken s wr pas then .next (holdInbound s i) else .next (f (servedInbound s i))

/-- The packets of an inbound request to its homes carry the host edge's NETSLK, and its lines are touched (R384, R468,
R494). `data` is what its packets carry, byte by byte of its span; an atomic has one packet with its operands. -/
def inboundReach (s : State) (r : RoceRequest) (typ : Nat) (aux : Option (BitVec 32)) (data : List Byte) (l : List (Nat × Nat)) : State :=
  let e := hostEdge s r.qp
  let pas := l.map (·.2)
  let s := touchMapped s [] ((Tbl.look 0 s.qps r.qp).extractLsb' 48 16) (typ != 1) l
  (insideChunks s pas).foldl (fun s c =>
    let b := if typ = 2 then ((pas.zip data).filter (fun x => c.contains x.1)).map (·.2) else data
    sendTraffic s e typ (endpointOf s (dieOfEnd e) (c.headD 0)) (c.headD 0) (aux.getD (BitVec.ofNat 32 c.length)) b) s

/-- An inbound write performs at some bytes, each with its virtual address: gated units wake, its order is noted, and the log
records it at its arrival point (R336, R380, R494, R521). -/
def performInbound (s : State) (r : RoceRequest) (l : List (Nat × Host.Cell)) : State :=
  let cells := l.map (·.2)
  let pas := cells.map (·.1)
  let s := noteInbound (wakePas s pas) (hostEdge s r.qp) (peerParty r.qp) true pas
  let s := (runsOf cells).foldl (fun s c => logInbound s (hostEdge s r.qp) 2 (c.map (·.1)) (c.map (·.2))) s
  writeCells (inboundReach s r 2 none (cells.map (·.2)) (l.map (fun x => (x.1, x.2.1)))) cells

/-- An inbound RDMA write (R363, R373, R494). -/
def inboundWrite (r : RoceRequest) (data : List Byte) (s : State) : Host.Outcome State Fault Refusal :=
  if s.bringup ≠ .operational then .next (refuseEarly s r.qp)
  else if !accepts s r.qp then .next s
  else
    match inboundSpan s r data.length [permWr, permRa] with
    | none => .next (refuseInbound s r (.roceRefused r.qp))
    | some pas =>
      if pas.any (inTarget s) then .next (refuseInbound s r (.roceRefused r.qp))
      else
        let cells := (mapped r.va.toNat pas).zipWith (fun x b => (x.1, (x.2, b))) data
        serveInbound s (.write r data) true pas (fun s =>
          if r.unreadable || targetFails s pas then
            let (part, s) := partCells s (cells.filter (fun c => !targetFails s [c.2.1]))
            refuseInbound (performInbound s r part) r (.roceFailed r.qp)
          else reply (performInbound s r cells) r (.ack r.qp []))

/-- An inbound RDMA read (R373, R494). -/
def inboundRead (r : RoceRequest) (len : Nat) (s : State) : Host.Outcome State Fault Refusal :=
  if s.bringup ≠ .operational then .next (refuseEarly s r.qp)
  else if !accepts s r.qp then .next s
  else
    match inboundSpan s r len [permRd, permRa] with
    | none => .next (refuseInbound s r (.roceRefused r.qp))
    | some pas =>
      serveInbound s (.read r len) false pas (fun s =>
        if r.unreadable || targetFails s pas then refuseInbound s r (.roceFailed r.qp)
        else
          let (b, s) := readPas (inboundReach (wakePas s pas) r 1 none [] (mapped r.va.toNat pas)) pas
          reply s r (.ack r.qp b))

/-- The new value of an inbound atomic (R492). -/
def roceAtomicNew (op : RoceAtomic) (old : BitVec 64) : BitVec 64 :=
  match op with
  | .fetchAdd v => old + v
  | .cmpSwap e n => if old = e then n else old

/-- The operation of an inbound atomic as an i64 atomic, with AUX and operands of its packet (R238, R465, R492). -/
def roceWork : RoceAtomic → AtomicWork
  | .fetchAdd v => ⟨0, 1, v.toNat, 0⟩
  | .cmpSwap e n => ⟨7, 1, n.toNat, e.toNat⟩
def roceAux : RoceAtomic → BitVec 32
  | .fetchAdd _ => 1
  | .cmpSwap .. => casAux
def roceOperands (op : RoceAtomic) : List Byte := toBytes 8 (roceWork op).b ++ toBytes 8 (roceWork op).c

/-- An inbound atomic at its home: one that has performed is answered with the held result (R358, R359). -/
def performRoceAtomic (s : State) (r : RoceRequest) (op : RoceAtomic) (at_ : List Nat) : State × List Byte :=
  let pas := if (atomicPlace s at_).any (isOutside s) then at_ else atomicPlace s at_
  let pa := pas.headD 0
  match heldResult s pa (peerParty r.qp) r.psn with
  | some v => (s, toBytes 8 v.toNat)
  | none =>
    let new := toBytes 8 (roceAtomicNew op (BitVec.ofNat 64 (ofBytes (pas.map (memByte s.mem))))).toNat
    let s := noteInbound (wakePas s pas) (hostEdge s r.qp) (peerParty r.qp) true pas
    let s := inboundReach (logInbound s (hostEdge s r.qp) 3 pas new) r 3 (some (roceAux op)) (roceOperands op) (mapped r.va.toNat pas)
    let (old, s) := applyAtomic s (roceWork op) pas
    (holdResult s pa (peerParty r.qp) r.psn (BitVec.ofNat 64 (ofBytes old)), old)

/-- The replay cache of an inbound atomic's port has no room for its result, which it does not hold yet (R358). -/
def atomicWaits (s : State) (r : RoceRequest) (pas : List Nat) : Bool :=
  replayFull s (pas.headD 0) && (heldResult s (pas.headD 0) (peerParty r.qp) r.psn).isNone

/-- An inbound RDMA atomic performs at its home port on a system-atomic range, or is refused (R359, R494). One at
an address that is not 8-byte aligned is refused. -/
def inboundAtomic (r : RoceRequest) (op : RoceAtomic) (s : State) : Host.Outcome State Fault Refusal :=
  if s.bringup ≠ .operational then .next (refuseEarly s r.qp)
  else if !accepts s r.qp then .next s
  else
    match inboundSpan s r 8 [permRd, permWr, permRa, permSa] with
    | none => .next (refuseInbound s r (.roceRefused r.qp))
    | some pas =>
      if r.va.toNat % 8 ≠ 0 ∨ pas.any (inTarget s) then .next (refuseInbound s r (.roceRefused r.qp))
      else if atomicWaits s r pas then .next (holdInbound s (.atomic r op))
      else
        serveInbound s (.atomic r op) true pas (fun s =>
          if r.unreadable ∨ targetFails s pas ∨ pas.any (isOutside s) then refuseInbound s r (.roceFailed r.qp)
          else
            let (s, old) := performRoceAtomic s r op pas
            reply s r (.ack r.qp old))

/-- An inbound request of a peer: it is served, refused, or waits. -/
def inboundRequest (i : Inbound) (s : State) : Host.Outcome State Fault Refusal :=
  match i with
  | .write r data => inboundWrite r data s
  | .read r len => inboundRead r len s
  | .atomic r op => inboundAtomic r op s

/-- ROCE_INBOUND_WRITE (R494). -/
def execRoceInboundWrite (r : RoceRequest) (data : List Byte) (s : State) : Host.Outcome State Fault Refusal :=
  inboundRequest (.write r data) s

/-- ROCE_INBOUND_READ (R494). -/
def execRoceInboundRead (r : RoceRequest) (len : Nat) (s : State) : Host.Outcome State Fault Refusal := inboundRequest (.read r len) s

/-- ROCE_INBOUND_ATOMIC (R359, R494). -/
def execRoceInboundAtomic (r : RoceRequest) (op : RoceAtomic) (s : State) : Host.Outcome State Fault Refusal :=
  inboundRequest (.atomic r op) s

/-- ROCE_UNSUPPORTED_OP: another operation of the reliable connection is answered NAK invalid request; a packet of another
transport (opcode bits 7 to 5 not 0) is dropped and counted (R492). -/
def execRoceUnsupportedOp (p : PeerPacket) (opcode : Byte) (s : State) : Host.Outcome State Fault Refusal :=
  if s.bringup ≠ .operational then .next (refuseEarly s p.n)
  else if opcode.extractLsb' 5 3 ≠ 0 then .next { s with dropped := s.dropped + 1 }
  else if 1024 ≤ p.n ∨ qpState s p.n ≠ 1 then .next s
  else .next (notifyMark (answer s (.nakInvalid p.n)) p.n p.ecn)

/-! ### The Lanmiend links (R464, R465, R488, R490, R491) -/

/-- Packet types that exist (R465). -/
def knownType (t : Nat) : Bool := (1 ≤ t && t ≤ 7) || (0x10 ≤ t && t ≤ 0x13)

/-- A header flit that a fabric edge discards (R464, R465). -/
def malformed (h : BitVec 512) : Bool :=
  !knownType (h.extractLsb' 0 8).toNat || h.extractLsb' 10 2 == 3 || decide (8 < (h.extractLsb' 12 4).toNat) ||
    h.extractLsb' 240 48 != 0 || h.extractLsb' 128 6 != 0 || h.extractLsb' 96 16 != 0 || h.extractLsb' 8 2 != 0

/-- The contributors of an inbound partial: the ranks of its span. The core of a rank is known where its own device sent the
packet; else its release goes to that device's fabric edge (R484; Assumption 93). -/
def inboundGivers (e : BitVec 384) (p : Packet) : List (Nat × Nat × Nat) :=
  let lo := (p.aux.extractLsb' 12 10).toNat
  (List.range ((p.aux.extractLsb' 22 10).toNat + 1 - lo)).map (fun i =>
    let d := rgBaseDev e + lo + i
    (lo + i, d, if d = p.srcDev.toNat then p.src.toNat else 205))

/-- Endpoint of an inbound packet: a request's home under the export space, or the edge itself, which answers one that
fails; the root of a contribution's group (R366, R462, R482). -/
def inboundEnd (s : State) (edge : Nat) (p : Packet) : Nat :=
  if p.typ = 7 then rootEndpoint s (Tbl.look RGroup.init s.groups (auxGroup p.aux)).entry
  else if p.typ.toNat ≤ 3 then
    match remotePas s p with
    | .ok (a :: _) =>
      let b := if p.typ = 3 then (atomicPlace s [a]).headD a else a
      if isOutside s a then 205 + 2 * edge else endpointOf s edge (if isOutside s b then a else b)
    | _ => 205 + 2 * edge
  else p.dst.toNat

/-- Bytes that an inbound packet carries (R464, R465, R482). -/
def inboundLen (p : Packet) : Nat :=
  if p.typ = 2 then p.aux.toNat else if p.typ = 3 then 16 else 64 * p.ndata.toNat

/-- A packet of another device enters at a port of a fabric edge, as late and as urgent as it comes (R469, R470, R488). -/
def enterPacket (s : State) (port : Nat) (p : Packet) (flits : List (BitVec 512)) : State :=
  let p' := { p with dst := BitVec.ofNat 16 (inboundEnd s (port / 24) p) }
  addPacket { s with nextReq := s.nextReq + 1 }
    { id := s.nextReq, pkt := p', data := flitData p flits (inboundLen p), place := .fabricIn (port / 24), input := port % 24
      lateAt := if p.late then some s.time else none, sent := s.time, owed := 0, op := none
      givers := if p.typ = 7 then inboundGivers (Tbl.look RGroup.init s.groups (auxGroup p.aux)).entry p else []
      acc := false, cause := 0, note := none, touch := none }

/-- The request of this device that an inbound response answers. -/
def answeredBy (s : State) (p : Packet) : Option NetPacket :=
  s.packets.find? (fun q => q.place == .away && q.pkt.srcDev == s.device && q.pkt.dstDev == p.srcDev && q.pkt.src == p.dst &&
    q.pkt.tag == p.tag && q.pkt.vc == 0 && BitVec.ofNat 8 (responseType q.pkt) == p.typ)

/-- A response enters: its request performs, or ends with the cause that the response carries, and the response goes on to
the issuer as it came (R334, R373, R471). -/
def enterResponse (s : State) (port : Nat) (p : Packet) (flits : List (BitVec 512)) (cause : Byte) : State :=
  match answeredBy s p with
  | none => s
  | some q =>
    let n := ((findReq s q.id).map (·.pas.length)).getD 0
    let s := answerAway s q (some (flitData p flits n)) cause
    match findPacket s q.id with
    | some x => movePacket s { x with pkt := { x.pkt with slack := p.slack, qres := p.qres, late := p.late } }
        (.fabricIn (port / 24)) (port % 24)
    | none => s

/-- FABRIC_DISCARD: a packet arrives from a Lanmiend port. A malformed one is discarded, counted and logged, and the request
that it belonged to ends at its timeout (R465, R491, R498); any other for this device enters it (R488). -/
def execFabricDiscard (port : Nat) (x : LinkPacket) (s : State) : Host.Outcome State Fault Refusal :=
  if 48 ≤ port ∨ (Tbl.look Port.init s.ports port).failed ∨ !s.powered then .next s
  else if malformed x.header then
    .next (logEvent { s with edges := Tbl.put s.edges (port / 24) (Tbl.look 0 s.edges (port / 24) + 1) } (.discarded (port / 24)))
  else
    let p := packetOfHeader x.header
    if s.bringup ≠ .operational ∨ s.rplay.isSome ∨ p.dstDev ≠ s.device ∨ p.srcDev = s.device ∨ x.flits.length ≠ p.ndata.toNat then .next s
    else if p.vc = 1 ∧ p.typ ≠ 0x13 then performing (.next (enterResponse s port p x.flits x.cause))
    else .next (enterPacket s port p x.flits)

def portState (s : State) (n : Nat) : Port := Tbl.look Port.init s.ports n

/-- FLIT_RETRANSMIT: a flit fails its checksum; the link layer sends it again and counts it (R490). -/
def execFlitRetransmit (port : Nat) (s : State) : Host.Outcome State Fault Refusal :=
  if 48 ≤ port ∨ (portState s port).failed then .next s
  else .next { s with ports := Tbl.put s.ports port { portState s port with retrans := (portState s port).retrans + 1 } }

/-- PORT_FAILURE: a port leaves the hash, and the device logs it (R491). -/
def execPortFailure (port : Nat) (s : State) : Host.Outcome State Fault Refusal :=
  if 48 ≤ port ∨ (portState s port).failed then .next s
  else .next (logEvent { s with ports := Tbl.put s.ports port { portState s port with failed := true } } (.portFailed port))

/-! ### Grants at the ports -/

/-- A read or atomic of another device meets an uncorrectable error at its home: it is answered with that cause, and the device
logs it (R373, R392). -/
def remoteError (s : State) (id : Nat) : State :=
  match findPacket s id with
  | none => s
  | some p =>
    if p.pkt.srcDev = s.device ∨ (grantable s p).isNone ∨ (p.pkt.typ ≠ 1 ∧ p.pkt.typ ≠ 3) then s
    else
      match remotePas s p.pkt with
      | .ok (a :: _) => if isOutside s a then s else logEvent (respond s p [] (BitVec.ofNat 8 causeUnc)) (.uncorrectable a)
      | _ => s

/-- A scratchpad bank that a bound out-stream reads has an uncorrectable error: the stream's transfers end (R198, R228, R392). -/
def streamError (s : State) (core ctx seq off : Nat) : State :=
  match (ctxOf s core ctx).streams.find? (fun q => q.2.seq == seq && q.2.out && !q.2.dead) with
  | none => s
  | some (q, st) =>
    if Config.spmBytes ≤ off then s
    else logEvent (endStream s core ctx q st causeUnc (BitVec.ofNat 64 (spmAddr core off)) 0 0) (.uncorrectable (spmAddr core off))

/-- What a grant does. A bank that a save or restore cannot read is a fault of the service context (R506). -/
def grantAt (g : PortGrant) (s : State) : Host.Outcome State Fault Refusal :=
  match g with
  | .request id =>
    match findPacket s id with
    | none => .next s
    | some p =>
      match grantable s p with
      | some c => grantPacket s p c
      | none => .next s
  | .chunk core ctx seq k =>
    match findOp s core ctx seq with
    | none => .next s
    | some o => stepChunk s o k
  | .logged => .next (grantLogged s)
  | .replyAcknowledged source tag => .next (releaseResult s source tag)
  | .softError id =>
    match findReq s id with
    | none => .next (remoteError s id)
    | some r =>
      if r.performed || r.pas.any (isOutside s) then .next s
      else .next (logEvent (endAccess s r) (.uncorrectable (r.pas.headD 0)))
  | .commandError core ctx seq off =>
    match findOp s core ctx seq with
    | none => .next (streamError s core ctx seq off)
    | some o =>
      if !o.live || decide (Config.spmBytes ≤ off) then .next s
      else .next (logEvent (failCommand s o causeUnc (BitVec.ofNat 64 (spmAddr core off))) (.uncorrectable (spmAddr core off)))
  | .bankError core ctx off =>
    if Config.spmBytes ≤ off then .next s
    else if ctx = 4 && savesOrRestores s core
    then .next (logEvent (takeTrap s core 4 (uncStop (spmAddr core off)) 0 0 false) (.uncorrectable (spmAddr core off)))
    else if (ctxOf s core ctx).status = .running
    then .next (logEvent (addUnc s core ctx (spmAddr core off)) (.uncorrectable (spmAddr core off))) else .next s
  | .corrected u => .next (countCorrected s u)
  | .tableError core i => .next (dropTableEntry s core i)
  | .inbound k =>
    match s.inbox[k]? with
    | some i => inboundRequest i s
    | none => .next s

/-- MEMORY_PORT_GRANT: a packet performs at its home in coherence order, a command takes a step, or a soft error strikes (R392,
R472). A granted atomic that is retransmitted is not applied again (R358). -/
def execMemoryPortGrant (g : PortGrant) (s : State) : Host.Outcome State Fault Refusal := performing (grantAt g s)

end Sys2Proof.Machine
end

