-- ==== Sys2Proof/Machine/Range.lean ====
section
/-! DEFINITION. Range maintenance: the range instructions, directories, relocation and table walks (R61, R252 to R254,
R365 to R376). -/

namespace Sys2Proof.Machine

/-! ### Issue (R61, R196, R252) -/

/-- Supervisor mode, else PRIV with the opcode as detail (R61, R500). -/
def supervisorOnly (s : State) (opcode : Nat) : Except Stop Unit :=
  check (s.cur.2 = 4) (trapping causePriv 0 2 (s.fly.ba.setWidth 64) (BitVec.ofNat 64 opcode))

/-- Issue a range command with its captured operands. -/
def startRange (s : State) (o : Op) (asid b c : Word) (sl : BitVec 4) : Except Stop State :=
  startOp s { o with asid := asid.extractLsb' 0 16, a := asid, b := b, c := c, slk := slackOf s sl,
                     nums := [(me s).asid.toNat] }

/-- `rngIns`: Insert a descriptor (R252). -/
def slotRngIns (t a b : Reg) (sl : BitVec 4) (s : State) : Except Stop State := do
  let asid ← readS s a
  let va ← readS s b
  opRoom s
  supervisorOnly s 0x40
  aligned 2 2 va 32
  startRange s (newOp s (.rngIns t a b sl) t) asid va 0 sl

def execRngIns (t a b : Reg) (sl : BitVec 4) (s : State) : Host.Outcome State Fault Refusal := settle s (slotRngIns t a b sl s)

/-- `rngDel`: Remove a range (R252). -/
def slotRngDel (t a b : Reg) (sl : BitVec 4) (s : State) : Except Stop State := do
  let asid ← readS s a
  let va ← readS s b
  opRoom s
  supervisorOnly s 0x41
  startRange s (newOp s (.rngDel t a b sl) t) asid va 0 sl

def execRngDel (t a b : Reg) (sl : BitVec 4) (s : State) : Host.Outcome State Fault Refusal := settle s (slotRngDel t a b sl s)

/-- `rngSplit`: Split a range (R252). -/
def slotRngSplit (t a b : Reg) (sl : BitVec 4) (s : State) : Except Stop State := do
  let asid ← readS s a
  let va ← readS s b
  opRoom s
  supervisorOnly s 0x42
  aligned 2 2 va 4096
  startRange s (newOp s (.rngSplit t a b sl) t) asid va 0 sl

def execRngSplit (t a b : Reg) (sl : BitVec 4) (s : State) : Host.Outcome State Fault Refusal := settle s (slotRngSplit t a b sl s)

/-- `rngMerge`: Join a range with the next (R252). -/
def slotRngMerge (t a b : Reg) (sl : BitVec 4) (s : State) : Except Stop State := do
  let asid ← readS s a
  let va ← readS s b
  opRoom s
  supervisorOnly s 0x43
  startRange s (newOp s (.rngMerge t a b sl) t) asid va 0 sl

def execRngMerge (t a b : Reg) (sl : BitVec 4) (s : State) : Host.Outcome State Fault Refusal := settle s (slotRngMerge t a b sl s)

/-- `rngInv`: Invalidate range table entries (R252, R353). -/
def slotRngInv (t a b c : Reg) (all : Bool) (sl : BitVec 4) (s : State) : Except Stop State := do
  let asid ← readS s a
  let va ← readS s b
  let len ← readS s c
  opRoom s
  supervisorOnly s 0x44
  startRange s (newOp s (.rngInv t a b c all sl) t) asid va len sl

def execRngInv (t a b c : Reg) (all : Bool) (sl : BitVec 4) (s : State) : Host.Outcome State Fault Refusal := settle s (slotRngInv t a b c all sl s)

/-- `rngReloc`: Relocate a range (R252, R254). -/
def slotRngReloc (t a b c : Reg) (sl : BitVec 4) (s : State) : Except Stop State := do
  let asid ← readS s a
  let va ← readS s b
  let off ← readS s c
  opRoom s
  supervisorOnly s 0x45
  startRange s (newOp s (.rngReloc t a b c sl) t) asid va off sl

def execRngReloc (t a b c : Reg) (sl : BitVec 4) (s : State) : Host.Outcome State Fault Refusal := settle s (slotRngReloc t a b c sl s)

/-- Issue of the residency instructions (R252). -/
def startResidency (s : State) (i : Instr) (t a b c : Reg) (sl : BitVec 4) : Except Stop State := do
  let asid ← readS s a
  let va ← readS s b
  let mask ← readS s c
  opRoom s
  supervisorOnly s 0x46
  startRange s (newOp s i t) asid va mask sl

/-- `rngResOr`: Set residency bits (R252). -/
def slotRngResOr (t a b c : Reg) (sl : BitVec 4) (s : State) : Except Stop State :=
  startResidency s (.rngResOr t a b c sl) t a b c sl

def execRngResOr (t a b c : Reg) (sl : BitVec 4) (s : State) : Host.Outcome State Fault Refusal := settle s (slotRngResOr t a b c sl s)

/-- `rngResAndn`: Clear residency bits (R252). -/
def slotRngResAndn (t a b c : Reg) (sl : BitVec 4) (s : State) : Except Stop State :=
  startResidency s (.rngResAndn t a b c sl) t a b c sl

def execRngResAndn (t a b c : Reg) (sl : BitVec 4) (s : State) : Host.Outcome State Fault Refusal := settle s (slotRngResAndn t a b c sl s)

/-- `rngResWr`: Write the residency mask (R252). -/
def slotRngResWr (t a b c : Reg) (sl : BitVec 4) (s : State) : Except Stop State :=
  startResidency s (.rngResWr t a b c sl) t a b c sl

def execRngResWr (t a b c : Reg) (sl : BitVec 4) (s : State) : Host.Outcome State Fault Refusal := settle s (slotRngResWr t a b c sl s)

/-- `rngRd`: Read the covering descriptor (R252). -/
def slotRngRd (t a b c : Reg) (sl : BitVec 4) (s : State) : Except Stop State := do
  let asid ← readS s a
  let va ← readS s b
  let dst ← readS s c
  opRoom s
  supervisorOnly s 0x47
  aligned 2 2 dst 8
  spmBounds 2 2 dst.toNat 32
  startRange s (newOp s (.rngRd t a b c sl) t) asid va dst sl

def execRngRd (t a b c : Reg) (sl : BitVec 4) (s : State) : Host.Outcome State Fault Refusal := settle s (slotRngRd t a b c sl s)

/-! ### Descriptors of a directory (R365 to R368, R374, R375) -/

/-- Segments a range has. -/
def segments (d : BitVec 256) : Nat := dSegs d

/-- First unit of segment `i`, counted from the range's first (R372). -/
def segStart (d : BitVec 256) (i : Nat) : Nat := ceilDiv (i * dLen d) (segments d)

/-- The device generation number's bits 15:0 in a descriptor that the device writes (R374). -/
def stamp (gen : BitVec 32) (d : BitVec 256) : BitVec 256 :=
  (d &&& ~~~ ((0xFFFF#256) <<< 48)) ||| ((gen.setWidth 16).setWidth 256 <<< 48)

/-- A descriptor with another span, segment count and residency mask (R375). -/
def reshape (d : BitVec 256) (vbase len nseg : Nat) (res : Nat) : BitVec 256 :=
  let keep := ~~~ ((BitVec.ofNat 256 (2 ^ 44 - 1)) ||| (BitVec.ofNat 256 (2 ^ 44 - 1) <<< 64) |||
    (0x3F#256 <<< 116) ||| (BitVec.ofNat 256 (2 ^ 64 - 1) <<< 192))
  (d &&& keep) ||| BitVec.ofNat 256 vbase ||| (BitVec.ofNat 256 len <<< 64) |||
    (BitVec.ofNat 256 (nseg % 64) <<< 116) ||| (BitVec.ofNat 256 (res % 2 ^ 64) <<< 192)

/-- A descriptor with another residency mask. -/
def withRes (d : BitVec 256) (res : BitVec 64) : BitVec 256 :=
  (d &&& BitVec.ofNat 256 (2 ^ 192 - 1)) ||| (res.setWidth 256 <<< 192)

/-- A descriptor with another offset. -/
def withOff (d : BitVec 256) (off : BitVec 45) : BitVec 256 :=
  (d &&& ~~~ (BitVec.ofNat 256 (2 ^ 45 - 1) <<< 128)) ||| (off.setWidth 256 <<< 128)

/-- Bits at and above a range's segment count are zero (R375). -/
def trimRes (d : BitVec 256) (res : BitVec 64) : BitVec 64 := res &&& BitVec.ofNat 64 (2 ^ segments d - 1)

/-- Every segment of the former ranges that units `[lo, hi)` overlap was resident (R253). Units count from VBASE. -/
def residentOver (d : BitVec 256) (lo hi : Nat) : Bool :=
  (List.range (segments d)).all (fun i =>
    !(decide (segStart d i < hi ∧ lo < segStart d (i + 1))) || (dRes d).getLsbD i)

/-- Residency mask of a range of `len` units in `n` segments, given which spans of units were resident (R253). -/
def newRes (len n : Nat) (was : Nat → Nat → Bool) : Nat :=
  (List.range n).foldl (fun m i => if was (ceilDiv (i * len) n) (ceilDiv ((i + 1) * len) n) then m + 2 ^ i else m) 0

/-- The two ranges of a split at unit `u` counted from VBASE (R253, R375). -/
def splitRange (d : BitVec 256) (u : Nat) : List (BitVec 256) :=
  let n1 := min (segments d) u
  let n2 := min (segments d) (dLen d - u)
  [reshape d (dVbase d) u n1 (newRes u n1 (fun lo hi => residentOver d lo hi)),
   reshape d (dVbase d + u) (dLen d - u) n2 (newRes (dLen d - u) n2 (fun lo hi => residentOver d (u + lo) (u + hi)))]

/-- Two ranges may merge: contiguous, with equal offset, permissions, cache class and pin window (R252). -/
def mergeable (a b : BitVec 256) : Bool :=
  dVbase a + dLen a == dVbase b && a.extractLsb' 128 45 == b.extractLsb' 128 45 &&
    a.extractLsb' 109 7 == b.extractLsb' 109 7 && a.extractLsb' 122 6 == b.extractLsb' 122 6

/-- The range that two contiguous ones form (R253, R375). -/
def mergeRange (a b : BitVec 256) : BitVec 256 :=
  let len := dLen a + dLen b
  let n := min 64 len
  reshape a (dVbase a) len n (newRes len n (fun lo hi =>
    (decide (dLen a ≤ lo) || residentOver a lo (min hi (dLen a))) &&
    (decide (hi ≤ dLen a) || residentOver b (lo - dLen a) (hi - dLen a))))

/-- Every address from `lo` to `hi` lies in a valid RoCEv2 window (R364, R495). -/
def windowsCover (s : State) : Nat → Nat → Nat → Bool
  | 0, _, _ => false
  | fuel + 1, lo, hi =>
    match s.windows.find? (fun w =>
        w.2.getLsbD 144 && decide ((w.2.extractLsb' 0 48).toNat ≤ lo ∧
          lo < (w.2.extractLsb' 0 48).toNat + (w.2.extractLsb' 96 48).toNat)) with
    | none => false
    | some w =>
      let next := (w.2.extractLsb' 0 48).toNat + (w.2.extractLsb' 96 48).toNat
      decide (hi < next) || windowsCover s fuel next hi

/-- Every physical unit a range backs lies in the populated part of one region (R364, R366). -/
def backed (s : State) (d : BitVec 256) : Bool :=
  let lo := unitAddr (dVbase d) (dOff d)
  let hi := lo + 4096 * dLen d - 1
  if 2 ^ 48 ≤ hi then false
  else
    match regionOf lo, regionOf hi with
    | .hbm a, .hbm b => a == b
    | .spm n a, .spm m b => n == m && decide (a ≤ b)
    | .roce, .roce => windowsCover s (s.windows.length + 1) lo hi
    | .domain, .domain => true
    | _, _ => false

/-- The conditions of `rng.ins` on an image (R366). -/
def imageOk (s : State) (d : BitVec 256) : Bool :=
  d.extractLsb' 173 19 = 0 && d.extractLsb' 108 1 = 0 && d.extractLsb' 44 4 = 0 && dClass d != 3 &&
    decide (1 ≤ dLen d ∧ dVbase d + dLen d ≤ 2 ^ 44 ∧ segments d ≤ dLen d) &&
    decide (dRes d = trimRes d (dRes d)) && backed s d

/-- Two ranges overlap. -/
def rangesMeet (a b : BitVec 256) : Bool :=
  decide (dVbase a < dVbase b + dLen b ∧ dVbase b < dVbase a + dLen a)

/-- Insert a descriptor in its sorted place (R252). -/
def insertDesc (d : BitVec 256) : List (BitVec 256) → List (BitVec 256)
  | [] => [d]
  | e :: l => if dVbase d < dVbase e then d :: e :: l else e :: insertDesc d l

/-- Write bytes for a range command: its packets carry the slack of SL, and its lines are touched (R252, R384, R389). -/
def rangeWrite (o : Op) (hint : CacheHint) (s : State) (cells : List Host.Cell) : State :=
  let pas := cells.map (·.1)
  touchLines ((insideChunks s pas).foldl (fun s c => sendFor o.core o.ctx true c.length o.slk none s (c.headD 0)) (storeCells s cells))
    pas hint true

/-- Write a directory back: the array, and COUNT in the root entry (R367). -/
def writeDirectory (s : State) (o : Op) (l : List (BitVec 256)) : State :=
  match rootOf s o.asid with
  | none => s
  | some r =>
    let s := rangeWrite o plainHint s (cellsAt r.base (l.flatMap (fun d => toBytes 32 d.toNat)))
    let e := BitVec.ofNat 128 (ofBytes (physRead s (rootAddr s o.asid) 16))
    let e := (e &&& ~~~ (BitVec.ofNat 128 (2 ^ 17 - 1) <<< 80)) ||| (BitVec.ofNat 128 l.length <<< 80)
    rangeWrite o plainHint s (cellsAt (rootAddr s o.asid) (toBytes 16 e.toNat))

/-- Drop every range table entry of an ASID that overlaps a span of units, or every entry (R353, R369). -/
def dropEntries (s : State) (all : Bool) (asid : BitVec 16) (lo len : Nat) : State :=
  let keep (e : RtEntry) : Bool :=
    !all && !(e.asid == asid && decide (dVbase e.desc < lo + len ∧ lo < dVbase e.desc + dLen e.desc))
  { s with cores := s.cores.map (fun c => (c.1, { c.2 with rtask := c.2.rtask.filter keep, rserv := c.2.rserv.filter keep })) }

/-- The range that holds a virtual unit. -/
def rangeHolding (l : List (BitVec 256)) (vp : Nat) : Option (BitVec 256) := l.find? (fun d => covers d vp)

/-- A range relocates (R254). -/
def relocating (s : State) (asid : BitVec 16) (d : BitVec 256) : Bool :=
  s.relocs.any (fun r => r.1 = asid && r.2.1 = dVbase d)

/-! ### Carrying a command out (R252 to R254, R374, R375) -/

/-- Why a range command has no effect: a failure code (R252), or what an access of its meets. -/
inductive RangeErr where
  | code (n : Nat)
  | access (e : OpErr)
deriving DecidableEq, Repr

/-- What a range command leaves: the state and its count, or why it has no effect (R252). -/
abbrev RangeEnd := Except RangeErr (State × Nat)

/-- Complete a change of a directory: GEN advances, the changed descriptors carry it, the entries of the span drop and
the lines move to their new homes (R252, R353, R369, R374, R388). -/
def commitRange (s : State) (o : Op) (l : BitVec 32 → List (BitVec 256)) (lo len : Nat) : State :=
  let gen := s.gen + 1
  rehome (dropEntries (writeDirectory { s with gen := gen } o (l gen)) false o.asid lo len)

/-- Replace one descriptor of a list by others. -/
def replaceDesc (l : List (BitVec 256)) (d : BitVec 256) (by_ : List (BitVec 256)) : List (BitVec 256) :=
  l.flatMap (fun e => if e = d then by_ else [e])

/-- The directory and the range that an instruction names; code 3 without one, 6 while it relocates (R252, R254). -/
def namedRange (s : State) (asid : BitVec 16) (va : Word) : Except RangeErr (List (BitVec 256) × BitVec 256) :=
  match rootOf s asid with
  | none => .error (.code 3)
  | some _ =>
    let l := directoryOf s asid
    match (if va.toNat < 2 ^ 56 then rangeHolding l (va.toNat / 4096) else none) with
    | none => .error (.code 3)
    | some d => if relocating s asid d then .error (.code 6) else .ok (l, d)

/-- The party whose memory accesses a range command makes: the issuing context in its own address space. -/
def rangeParty (o : Op) : Party := { o.party with asid := BitVec.ofNat 16 (o.nums.headD 0) }

/-- The descriptor image of `rng.ins` (R252). -/
def readImage (s : State) (o : Op) : Except RangeErr (BitVec 256 × State) :=
  match engineRead s (rangeParty o) false o.b.toNat 32 [permRd] with
  | .error e => .error (.access e)
  | .ok (b, s) => .ok (BitVec.ofNat 256 (ofBytes b), s)

/-- The accesses of a range command to its ASID's root entry and directory. -/
def directoryParty (o : Op) : Party := { (rangeParty o) with tag := 1 }

/-- A range command reads its ASID's root entry and searches its directory for a unit as a walk does; a failed read is code 8
(R252, R367, R371, R384). -/
def readDirectory (s : State) (o : Op) (vp : Nat) : Except RangeErr Unit :=
  match (walkReads s o.asid vp).find? (fun p => match physicalRead s (directoryParty o) p.1 p.2 with | .ok _ => false | .error _ => true) with
  | none => .ok ()
  | some p =>
    match physicalRead s (directoryParty o) p.1 p.2 with
    | .ok _ => .ok ()
    | .error e => .error (.access e)

/-- `rng.ins` (R252, R366, R368). Where several failures hold the code is the first of 8, 3, 7, 1 and 2: the manual lists
them without an order (DESIGN CHOICE, Assumption 94). -/
def doInsert (s : State) (o : Op) (d : BitVec 256) : RangeEnd :=
  match rootOf s o.asid with
  | none => .error (.code 3)
  | some r =>
    let l := directoryOf s o.asid
    if !imageOk s d then .error (.code 7)
    else if l.any (rangesMeet d) then .error (.code 1)
    else if r.cap ≤ r.count then .error (.code 2)
    else .ok (commitRange s o (fun g => insertDesc (stamp g d) l) (dVbase d) (dLen d), r.count + 1)

/-- `rng.del` (R252). -/
def doDelete (s : State) (o : Op) : RangeEnd := do
  let (l, d) ← namedRange s o.asid o.b
  .ok (commitRange s o (fun _ => replaceDesc l d []) (dVbase d) (dLen d), l.length - 1)

/-- `rng.split` (R252, R375). -/
def doSplit (s : State) (o : Op) : RangeEnd := do
  let (l, d) ← namedRange s o.asid o.b
  let u := o.b.toNat / 4096 - dVbase d
  if u = 0 then .error (.code 4)
  else
    match rootOf s o.asid with
    | none => .error (.code 3)
    | some r =>
      if r.cap ≤ r.count then .error (.code 2)
      else .ok (commitRange s o (fun g => replaceDesc l d ((splitRange d u).map (stamp g))) (dVbase d) (dLen d), 2)

/-- `rng.merge` (R252, R375). -/
def doMerge (s : State) (o : Op) : RangeEnd := do
  let (l, d) ← namedRange s o.asid o.b
  match l.find? (fun e => dVbase e == dVbase d + dLen d) with
  | none => .error (.code 5)
  | some e =>
    if relocating s o.asid e then .error (.code 6)
    else if !mergeable d e then .error (.code 5)
    else
      .ok (commitRange s o (fun g => replaceDesc (replaceDesc l e []) d [stamp g (mergeRange d e)]) (dVbase d)
        (dLen d + dLen e), 1)

/-- `rng.inv` (R252, R353): the generation number advances whether or not an entry was dropped. With ALL the ASID that
the instruction names is not looked at, its entry's VALID included: R368 gives code 3 to a command on such an ASID, and ALL
covers every ASID (DESIGN CHOICE, Assumption 95). -/
def doInvalidate (s : State) (o : Op) (all : Bool) : RangeEnd :=
  if !all && (rootOf s o.asid).isNone then .error (.code 3) else
  let gen := s.gen + 1
  let lo := o.b.toNat / 4096
  let hi := ceilDiv (o.b.toNat + o.c.toNat) 4096
  .ok (dropEntries { s with gen := gen } all o.asid lo (hi - lo), gen.toNat)

/-- `rng.res` (R252, R375). -/
def doResidency (s : State) (o : Op) (f : BitVec 64 → BitVec 64 → BitVec 64) : RangeEnd := do
  let (l, d) ← namedRange s o.asid o.b
  let res := trimRes d (f (dRes d) o.c)
  .ok (commitRange s o (fun g => replaceDesc l d [stamp g (withRes d res)]) (dVbase d) (dLen d),
    ((List.range 64).filter (fun i => res.getLsbD i)).length)

/-- `rng.rd` (R252, R374). -/
def doRead (s : State) (o : Op) : RangeEnd :=
  match rootOf s o.asid with
  | none => .error (.code 3)
  | some _ =>
    match (if o.b.toNat < 2 ^ 56 then rangeHolding (directoryOf s o.asid) (o.b.toNat / 4096) else none) with
    | none => .error (.code 3)
    | some d =>
      match engineWrite s o true o.c.toNat (toBytes 32 d.toNat) [] with
      | .ok s => .ok (s, 32)
      | .error e => .error (.access e)

/-- The command covers every address space. -/
def coversAll (o : Op) : Bool :=
  match o.instr with
  | .rngInv _ _ _ _ all _ => all || o.asid == 0xFFFF
  | _ => o.asid == 0xFFFF

/-- Every access of any party that was translated under the command's ASID has performed: direct ones, chunks of commands and
rows of streams. Accesses under the export space have their addresses resolved at issue, whatever their own ASID (R253,
R353, R366). -/
def accessesDone (s : State) (o : Op) : Bool :=
  !(s.reqs.any (fun r => !r.performed && (coversAll o || r.asid == o.asid)))

/-- An access of a range command has failed, rather than to be sent or waited for. -/
def rangeFails : OpErr → Bool
  | .suspend _ | .fail .. => true
  | _ => false

/-- Token of a range command, or what it does first: an access to send, or a wait. A failed access is code 8 (R199, R252). -/
def endRange (s : State) (o : Op) (r : RangeEnd) : Host.Outcome State Fault Refusal :=
  match r with
  | .ok (s, n) => .next (finishOp s o (tokenOk n))
  | .error (.code n) => .next (finishOp s o (tokenError n))
  | .error (.access .wait) => .next s
  | .error (.access (.send a)) => .next (sendAccess s a)
  | .error (.access (.fault f)) => .fault f
  | .error (.access (.suspend f)) => .next (endOp (searched s (rangeParty o) f) o (tokenError 8) none)
  | .error (.access (.fail ..)) => .next (endOp s o (tokenError 8) none)

/-! ### Relocation (R254, R355, R375) -/

/-- Chunks of 64 KiB of a range. -/
def relocChunks (d : BitVec 256) : Nat := ceilDiv (dLen d) 16

/-- The relocation that a command has begun. -/
def relocOf (s : State) (o : Op) : Option (BitVec 16 × Nat × BitVec 45 × Nat) :=
  s.relocs.find? (fun r => r.1 = o.asid && (r.2.1 : Nat) = (o.nums[1]?).getD 0 && o.started)

/-- Begin a relocation: the range and its new backing are checked; an offset that OFF cannot hold makes an invalid
descriptor (R254, R365, R366). -/
def beginReloc (s : State) (o : Op) : Except RangeErr State := do
  let (_, d) ← namedRange s o.asid o.b
  let off : BitVec 45 := (o.c.sshiftRight 12).setWidth 45
  if off.signExtend 64 <<< 12 ≠ o.c then .error (.code 7) else .ok ()
  if !backed s (withOff d off) then .error (.code 7)
  else .ok (updateOp { s with relocs := s.relocs ++ [(o.asid, dVbase d, off, 0)] }
    { o with started := true, nums := [o.nums.headD 0, dVbase d] })

/-- Hints of an access without hint fields through a range (R389). -/
def rangeHint (d : BitVec 256) : CacheHint := adjustHint (dClass d) ⟨0, 1, false⟩

/-- Copy the bytes of one chunk between two places of this device, at once (R254). -/
def moveInside (s : State) (o : Op) (d : BitVec 256) (src dst n : Nat) : Except OpErr State :=
  let pas := (List.range n).map (fun i => src + i)
  match carveAt s (pas ++ (List.range n).map (fun i => dst + i)) with
  | some b => .error (.fail causeCarve (BitVec.ofNat 64 b) 0 0)
  | none =>
    let s := (insideChunks s pas).foldl (fun s c => sendFor o.core o.ctx false c.length o.slk none s (c.headD 0)) s
    .ok (rangeWrite o (rangeHint d) (touchLines s pas (rangeHint d) false) (cellsAt dst (physRead s src n)))

/-- Copy one chunk of the backing from the old location to the new. Where one of them lies outside the device its bytes are
read and written by accesses of the command, and the chunk has moved when all have been answered (R254, R355). -/
def moveChunk (s : State) (o : Op) (d : BitVec 256) (off : BitVec 45) (k : Nat) : Except OpErr State := do
  let n := 4096 * min 16 (dLen d - 16 * k)
  let src := unitAddr (dVbase d + 16 * k) (dOff d)
  let dst := unitAddr (dVbase d + 16 * k) off.toInt
  let p := { (rangeParty o) with tag := 2 + k }
  if !isOutside s src && !isOutside s dst then moveInside s o d src dst n
  else do
    let b ← if isOutside s src then physicalRead s p src n else .ok (physRead s src n)
    if isOutside s dst then do
      outsideCheck s dst
      physicalWrite s p dst b
      .ok s
    else .ok (rangeWrite o (rangeHint d) s (cellsAt dst b))

/-- RELOC_CHUNK_MOVE: the next 64 KiB chunk of a relocation moves (R254, R355). -/
def execRelocChunkMove (core ctx seq : Nat) (s : State) : Host.Outcome State Fault Refusal :=
  match findOp s core ctx seq with
  | none => .next s
  | some o =>
    match o.instr with
    | .rngReloc .. =>
      match relocOf s o with
      | none =>
        if o.started || !o.live then .next s
        else
          match (readDirectory s o (o.b.toNat / 4096)).bind (fun _ => beginReloc s o) with
          | .ok s => .next s
          | .error e => endRange s o (.error e)
      | some r =>
        match rangeHolding (directoryOf s r.1) r.2.1 with
        | none => .next s
        | some d =>
          if r.2.2.2 < relocChunks d ∧ o.live then
            match moveChunk s o d r.2.2.1 r.2.2.2 with
            | .error e => endRange (if rangeFails e then dropReloc s o else s) o (.error (.access e))
            | .ok s =>
              .next { dropTag s o.core o.ctx o.seq (2 + r.2.2.2) with
                      relocs := s.relocs.map (fun x => if x = r then (r.1, r.2.1, r.2.2.1, r.2.2.2 + 1) else x) }
          else .next s
    | _ => .next s

/-- The end of a relocation: every chunk has moved; the offset is replaced in one step (R254, R375). -/
def finishReloc (s : State) (o : Op) : RangeEnd :=
  match relocOf s o with
  | none => .error (.access .wait)
  | some r =>
    let l := directoryOf s r.1
    match rangeHolding l r.2.1 with
    | none => .error (.access .wait)
    | some d =>
      if r.2.2.2 < relocChunks d then .error (.access .wait)
      else
        let s := { s with relocs := s.relocs.filter (fun x => x ≠ r) }
        .ok (commitRange s o (fun g => replaceDesc l d [stamp g (withOff d r.2.2.1)]) (dVbase d) (dLen d), relocChunks d)

/-- The accesses that a range command must wait for have performed (R353). -/
def awaited (s : State) (o : Op) : Except RangeErr Unit := if accessesDone s o then .ok () else .error (.access .wait)

/-- A command on the range of its address: the directory is searched, and the accesses that must perform first have (R252,
R353). -/
def onRange (s : State) (o : Op) (r : RangeEnd) : RangeEnd := do
  readDirectory s o (o.b.toNat / 4096)
  awaited s o
  r

/-- What a range command does (R252 to R254, R353). -/
def rangeResult (s : State) (o : Op) : RangeEnd :=
  match o.instr with
  | .rngIns .. => do
    let (d, t) ← readImage s o
    readDirectory t o (dVbase d)
    awaited t o
    doInsert t o d
  | .rngDel .. => onRange s o (doDelete s o)
  | .rngSplit .. => onRange s o (doSplit s o)
  | .rngMerge .. => onRange s o (doMerge s o)
  | .rngInv _ _ _ _ all _ =>
    if all then do
      awaited s o
      doInvalidate s o true
    else onRange s o (doInvalidate s o false)
  | .rngReloc .. => do
    awaited s o
    finishReloc s o
  | .rngResOr .. => onRange s o (doResidency s o (· ||| ·))
  | .rngResAndn .. => onRange s o (doResidency s o (fun r m => r &&& ~~~ m))
  | .rngResWr .. => onRange s o (doResidency s o (fun _ m => m))
  | .rngRd .. => do
    readDirectory s o (o.b.toNat / 4096)
    doRead s o
  | _ => .error (.access .wait)

/-- RANGE_CMD_COMPLETE: a range command takes effect in the directory and in every range table, and writes its token, when
the accesses that it must wait for have performed (R252, R353). -/
def execRangeCmdComplete (core ctx seq : Nat) (s : State) : Host.Outcome State Fault Refusal :=
  match findOp s core ctx seq with
  | none => .next s
  | some o => if o.live then endRange s o (rangeResult s o) else .next s

/-- RANGE_WALK: the walker of a core finds a descriptor and installs it; its probes carry the core's NETSLK (R369, R371,
R468). A range command edits its directory in one step, so a walk reads it wholly before or wholly after (R368). -/
def execRangeWalk (core ctx : Nat) (asid : BitVec 16) (vp : Nat) (s : State) : Host.Outcome State Fault Refusal :=
  .next (installEntry (sendWalk s core 7 (netSlackOf s core) asid vp) core ctx asid vp)

end Sys2Proof.Machine
end

