-- ==== Sys2Proof/Machine/Route.lean ====
section
/-! DEFINITION. The routing engine: `moe.route`, its ranking and its weights (R292, R293, R456, R457). -/

namespace Sys2Proof.Machine

/-! ### Issue (R292, R456) -/

def isRoute : Instr → Bool
  | .moeRoute .. => true
  | _ => false

/-- Passes of a die whose issuer has resumed after a suspension: they stand before the queue (R457). -/
def resumedRoutes (s : State) (die : Nat) : List CmxCmd :=
  (s.ops.filter (fun o => isRoute o.instr && dieOf o.core == die && o.live &&
    !((dieAt s die).routes.any (fun q => q.core == o.core && q.ctx == o.ctx && q.seq == o.seq)))).map
    (fun o => { core := o.core, ctx := o.ctx, seq := o.seq })

/-- Passes that wait for a die's routing engine, those queued again at its head among them (R456, R457). -/
def routesWaiting (s : State) (die : Nat) : Nat :=
  (resumedRoutes s die).length + (dieAt s die).routes.length - (if (dieAt s die).routing then 1 else 0)

/-- `moeRoute`: Queue a pass (R292, R456). -/
def slotMoeRoute (t a b : Reg) (k : BitVec 4) (sig renorm : Bool) (h : Hint) (s : State) : Except Stop State := do
  let d ← readS s a
  let dst ← readS s b
  opRoom s
  let die := dieOf s.cur.1
  if 32 ≤ routesWaiting s die then .error .hold else .ok ()
  aligned 9 3 d 64
  aligned 9 3 dst 64
  spmBounds 9 3 d.toNat 64
  let o := { newOp s (.moeRoute t a b k sig renorm h) t with a := d, b := dst, slk := slackOf s h.sl, nums := [k.toNat] }
  let s' ← startOp s o
  .ok (withDie s' die (fun x => { x with routes := x.routes ++ [{ core := o.core, ctx := o.ctx, seq := o.seq }] }))

def execMoeRoute (t a b : Reg) (k : BitVec 4) (sig renorm : Bool) (h : Hint) (s : State) : Host.Outcome State Fault Refusal := settle s (slotMoeRoute t a b k sig renorm h s)

/-! ### Ranking and weights (R293) -/

/-- Score `a` ranks strictly above `b`: exactly compared, NaN below every number. -/
def scoreAbove (a b : Val) : Bool := !a.isNan && (b.isNan || b.below a)

/-- Experts in rank order; equal scores rank the lower index first. -/
def rankExperts (l : List Val) : List Nat :=
  (l.zipIdx.foldl (fun acc p => insertBy (fun (y x : Val × Nat) => !scoreAbove x.1 y.1) p acc) []).map (·.2)

def isPosInf (v : Val) : Bool := v == .inf false
def isNegInf (v : Val) : Bool := v == .inf true

/-- An exact quotient of two counts. -/
def ratio (a b : Nat) : Val := (Val.ofInt a).quot (Val.ofInt b)

/-- FP32 bits of a value in [0, 1] within `err` units of a fixed-point number: settled when both ends of the interval
round alike, else from the cell that `enclose` gives. -/
def roundNear (x : Int) (err : Nat) : Nat :=
  let cell (v : Nat) : Val := .num false (v / 2 ^ guardBits) ((guardBits : Int) - fixBits) true
  let lo := toFp32 (cell (x.natAbs - err))
  let hi := toFp32 (cell (x.natAbs + err))
  if lo = hi then lo else toFp32 (enclose x err)

/-- Room for the error of up to 1,024 exponentials and a quotient. -/
def weightErr : Nat := 2 ^ 56

/-- A finite score as fixed point, exactly. -/
def scoreFix (v : Val) : Int := fixOf v

/-- The largest finite score, as fixed point. -/
def maxScore (l : List Val) : Int :=
  match l.filter (fun v => !isNegInf v) with
  | [] => 0
  | v :: t => (t.map scoreFix).foldl max (scoreFix v)

/-- Softmax weight of a score among a pool that it belongs to (R293). -/
def softmaxWeight (pool : List Val) (v : Val) : Nat :=
  let infs := (pool.filter isPosInf).length
  let fin := pool.filter (fun w => !isNegInf w)
  if 0 < infs then (if isPosInf v then toFp32 (ratio 1 infs) else 0)
  else if isNegInf v then 0
  else if fin.all (fun w => w.eqv v) then toFp32 (ratio 1 fin.length)
  else
    let top := maxScore fin
    let e (w : Val) : Int := fixExpNeg (scoreFix w - top)
    roundNear (fixDiv (e v) ((fin.map e).sum)) weightErr

/-- Pairs of a number and its negation, and the scores left when they are taken out. -/
def cancelPairs : List Val → Nat → List Val → Nat × List Val
  | [], n, rest => (n, rest)
  | v :: l, n, rest =>
    match rest.find? (fun w => w.eqv v.negate) with
    | some w => cancelPairs l (n + 1) (rest.erase w)
    | none => cancelPairs l n (rest ++ [v])

/-- 1 ÷ (1 + e^(−s)) of a score, times e^(−m) when the largest score m is negative, as fixed point. -/
def sigTerm (top : Option Int) (v : Val) : Int :=
  if isPosInf v then fixOne
  else if isNegInf v then 0
  else
    let x := scoreFix v
    match top with
    | some m => fixDiv (fixExpNeg (x - m)) (fixOne + fixExpNeg x)
    | none =>
      if 0 ≤ x then fixDiv fixOne (fixOne + fixExpNeg (-x))
      else fixDiv (fixExpNeg x) (fixOne + fixExpNeg x)

/-- The selected sigmoids' sum in halves, when it is rational: one per +Inf and per pair, a half per zero. -/
def sigHalves (sel : List Val) : Option Nat :=
  let fin := sel.filter (fun v => !isPosInf v && !isNegInf v)
  let zeros := (fin.filter (·.isZero)).length
  let (pairs, rest) := cancelPairs (fin.filter (fun v => !v.isZero)) 0 []
  if rest = [] then some (2 * (sel.filter isPosInf).length + 2 * pairs + zeros) else none

/-- Sigmoid weight of a score divided by the sum over the selected (R293). Where numerator and sum are both rational,
or the sum is a multiple of the numerator, the quotient is exact. -/
def sigmoidShare (sel : List Val) (v : Val) : Nat :=
  let live := sel.filter (fun w => !isNegInf w)
  if isNegInf v then 0
  else if live.all (fun w => w == v || w.eqv v) then toFp32 (ratio 1 live.length)
  else
    match sigHalves sel, isPosInf v, v.isZero with
    | some n, true, _ => toFp32 (ratio 2 n)
    | some n, _, true => toFp32 (ratio 1 n)
    | _, _, _ =>
      let top := if live.any isPosInf || decide (0 ≤ maxScore live) then none else some (maxScore live)
      roundNear (fixDiv (sigTerm top v) ((live.map (sigTerm top)).sum)) weightErr

/-- Canonical NaN in FP32 (R91). -/
def nanWeight : Nat := 0x7FC00000

/-- Weights of the selected experts, in rank order (R293). -/
def tokenWeights (all sel : List Val) (sig renorm : Bool) : List Nat :=
  if all.any (·.isNan) then sel.map (fun _ => nanWeight)
  else if sig then
    if renorm then (if sel.all isNegInf then sel.map (fun _ => nanWeight) else sel.map (sigmoidShare sel))
    else sel.map (fun v => toFp32 (valSig v))
  else if all.all isNegInf then sel.map (fun _ => nanWeight)
  else sel.map (softmaxWeight (if renorm then sel else all))

/-! ### The pass (R292, R293, R456, R457) -/

/-- The scores of a token's line. -/
def scoresOf (tag : Nat) (n : Nat) (b : List Byte) : List Val :=
  let w := elemBits tag / 8
  (List.range n).map (fun i => elementValue tag (ofBytes ((b.drop (w * i)).take w)))

/-- Selections and weights of every token, reading its line of scores. -/
def routeTokens (s : State) (o : Op) (t : TensorDesc) (k : Nat) (sig renorm : Bool) :
    List Nat → Except OpErr (List (List Nat × List Nat) × State)
  | [] => .ok ([], s)
  | i :: is => do
    let (b, s) ← engineRead s o.party false (t.lineAddr i % 2 ^ 64).toNat t.lineBytes [permRd]
    let all := scoresOf t.tag ((t.size[0]?).getD 0) b
    let sel := (rankExperts all).take k
    let ws := tokenWeights all (sel.map (fun j => (all[j]?).getD .nan)) sig renorm
    let (rest, s) ← routeTokens s o t k sig renorm is
    .ok ((sel, ws) :: rest, s)

/-- Bytes rounded up to whole 64-byte lines. -/
def lineUp (n : Nat) : Nat := 64 * ceilDiv n 64

/-- Lengths of the three arrays of the result area, for `n` tokens (R293). -/
def routeLengths (experts k n : Nat) : List Nat := [2 * n * k, 4 * n * k, 4 * experts]

/-- The bytes of the three arrays, one after the other (R293). -/
def routeResult (experts : Nat) (r : List (List Nat × List Nat)) : List Byte :=
  let picks := r.flatMap (·.1)
  picks.flatMap (toBytes 2) ++ (r.flatMap (·.2)).flatMap (toBytes 4) ++
    (List.range experts).flatMap (fun e => toBytes 4 (picks.filter (· == e)).length)

/-- Arrays at their offsets in the result area, each at a whole line (R293). -/
def placeArrays (off : Nat) : List Nat → List Byte → List (Nat × List Byte)
  | [], _ => []
  | n :: l, b => (off, b.take n) :: placeArrays (off + lineUp n) l (b.drop n)

/-- Write arrays at offsets from an address. -/
def writeArrays (s : State) (o : Op) : List (Nat × List Byte) → Except OpErr State
  | [] => .ok s
  | p :: l => do
    let s ← engineWrite s o false (o.b.toNat + p.1) p.2 [permWr]
    writeArrays s o l

/-- A pass captures its scores' descriptor; one that starts again has it (R221, R457). -/
def captureScores (s : State) (o : Op) : Except OpErr (State × Op) :=
  match Tbl.find o.parts 0 with
  | some _ => .ok (s, o)
  | none => do
    let (b, s) ← engineRead s o.party true o.a.toNat 64 []
    .ok (s, { o with parts := Tbl.put o.parts 0 b })

/-- The ranking of a pass: its scores are read, and its results and the place of its free values kept (R292, R293). -/
def rankPass (s : State) (o : Op) : Except OpErr (State × Op) := do
  let k := o.nums.headD 0
  let t := tensorOf (descOfBytes (Tbl.look [] o.parts 0))
  let experts := (t.size[0]?).getD 0
  if t.valid && decide (1 ≤ t.rank ∧ t.rank ≤ 2) && wideTags.contains t.tag && decide (experts ≤ 1024 ∧ k ≤ experts)
  then .ok () else .error (.fail causeTd o.a 0 0)
  let (sig, renorm) := match o.instr with
    | .moeRoute _ _ _ _ sig renorm _ => (sig, renorm)
    | _ => (false, false)
  let (r, s) ← routeTokens s o t k sig renorm (List.range (t.extent 1))
  let out := routeResult experts r
  .ok ({ s with fresh := s.fresh + out.length }, { o with count := t.extent 1, bytes := out, nums := [k, experts, s.fresh] })

/-- Bytes of a pass's result area while its token is not written: free (R457). -/
def unsettledBytes (o : Op) : List Byte :=
  (List.range o.bytes.length).map (fun i => Config.unspecifiedByte ((o.nums[2]?).getD 0 + i))

/-- The parts of a pass: its descriptor, its ranking, the unspecified contents of its result area, and its results (R292, R293, R457). -/
def routeChunk (s : State) (o : Op) (k : Nat) : Except OpErr (State × Op) :=
  let area := placeArrays 0 (routeLengths ((o.nums[1]?).getD 0) (o.nums.headD 0) o.count)
  if k = 0 then captureScores s o
  else if k = 1 then rankPass s o
  else do
    let s ← writeArrays s o (area (if k = 2 then unsettledBytes o else o.bytes))
    .ok (s, o)

/-- Remove the head of a die's routing queue. -/
def popRoute (s : State) (die : Nat) : State := withDie s die (fun d => { d with routes := d.routes.drop 1, routing := false })

/-- A pass starts, or starts again, with its first token (R457). -/
def restartPass (s : State) (q : CmxCmd) : State :=
  match findOp s q.core q.ctx q.seq with
  | some o => updateOp (dropEngineReqs s q.core q.ctx q.seq) { o with done := [], nums := [o.nums.headD 0] }
  | none => s

/-- ROUTE_PASS_START: the routing engine of a die starts its next pass when it is idle (R456, R457). -/
def execRoutePassStart (die : Nat) (s : State) : Host.Outcome State Fault Refusal :=
  let d := dieAt s die
  match resumedRoutes s die ++ d.routes with
  | [] => .next s
  | q :: l =>
    if d.routing then .next s
    else .next (withDie (restartPass s q) die (fun d => { d with routes := q :: l, routing := true }))

/-- ROUTE_PASS_COMPLETE: the running pass ranks, writes its arrays and, once they have performed, its token; a translation
fault suspends it and removes it from the engine (R293, R456, R457). -/
def execRoutePassComplete (die : Nat) (s : State) : Host.Outcome State Fault Refusal :=
  let d := dieAt s die
  match (if d.routing then d.routes else []) with
  | [] => .next s
  | q :: _ =>
    match findOp s q.core q.ctx q.seq with
    | none => .next (popRoute s die)
    | some o =>
      if !o.live then .next (popRoute s die)
      else
        match runChunks routeChunk s o [0, 1, 2, 3] with
        | .done s o => .next (popRoute (finishOp s o (tokenOk o.count)) die)
        | .stopped s _ .wait => .next s
        | .stopped s _ (.send a) => .next (sendAccess s a)
        | .stopped s o e => opFault (popRoute s die) o e

end Sys2Proof.Machine
end

