-- ==== Sys2Proof/Machine/Bundle.lean ====
section
/-! DEFINITION. A bundle's slots: which effect each word has, which registers it names as destinations and which unit
executes it (R109, R123, R124, R144, R145). -/

namespace Sys2Proof.Machine

/-- The effect of a slot's instruction within the executing bundle (R123). An event stands in no slot. -/
def slotEffect (i : Instr) : State → Except Stop State :=
  match i with
  | .add d a b imm => slotAdd d a b imm
  | .sub d a b imm => slotSub d a b imm
  | .mul d a b imm => slotMul d a b imm
  | .mulh d a b imm => slotMulh d a b imm
  | .mulhu d a b imm => slotMulhu d a b imm
  | .div d a b imm => slotDiv d a b imm
  | .divu d a b imm => slotDivu d a b imm
  | .rem d a b imm => slotRem d a b imm
  | .remu d a b imm => slotRemu d a b imm
  | .and d a b imm => slotAnd d a b imm
  | .or d a b imm => slotOr d a b imm
  | .xor d a b imm => slotXor d a b imm
  | .andn d a b imm => slotAndn d a b imm
  | .shl d a b imm => slotShl d a b imm
  | .shr d a b imm => slotShr d a b imm
  | .sra d a b imm => slotSra d a b imm
  | .rotl d a b imm => slotRotl d a b imm
  | .min d a b imm => slotMin d a b imm
  | .max d a b imm => slotMax d a b imm
  | .minu d a b imm => slotMinu d a b imm
  | .maxu d a b imm => slotMaxu d a b imm
  | .cmp d a b cond imm => slotCmp d a b cond imm
  | .sel d a b c imm => slotSel d a b c imm
  | .clz d a => slotClz d a
  | .ctz d a => slotCtz d a
  | .popc d a => slotPopc d a
  | .ext d a sgn width lsb => slotExt d a sgn width lsb
  | .ins d a c width lsb => slotIns d a c width lsb
  | .li d imm => slotLi d imm
  | .lih d a imm => slotLih d a imm
  | .addi d a imm => slotAddi d a imm
  | .mov d a => slotMov d a
  | .lea d a b sh imm => slotLea d a b sh imm
  | .fadd d a b r => slotFadd d a b r
  | .fsub d a b r => slotFsub d a b r
  | .fmul d a b r => slotFmul d a b r
  | .fma d a b c r => slotFma d a b c r
  | .fmin d a b => slotFmin d a b
  | .fmax d a b => slotFmax d a b
  | .fcmp d a b cnd => slotFcmp d a b cnd
  | .fcvt d a ft fs r => slotFcvt d a ft fs r
  | .br a cond off => slotBr a cond off
  | .jmp off => slotJmp off
  | .jr a disp => slotJr a disp
  | .call a off => slotCall a off
  | .callI a b disp => slotCallI a b disp
  | .ret a => slotRet a
  | .loop a n cnt off => slotLoop a n cnt off
  | .loopLv n off => slotLoopLv n off
  | .yld cycles => slotYld cycles
  | .done => slotDone
  | .halt code => slotHalt code
  | .bar scope level id => slotBar scope level id
  | .barArr scope level id => slotBarArr scope level id
  | .barWt level id => slotBarWt level id
  | .flagSet mask => slotFlagSet mask
  | .flagSetCore a mask => slotFlagSetCore a mask
  | .flagSetRmt a sl mask => slotFlagSetRmt a sl mask
  | .flagClr mask => slotFlagClr mask
  | .ctlRd a crn => slotCtlRd a crn
  | .ctlWr a crn => slotCtlWr a crn
  | .prePt off => slotPrePt off
  | .trap code => slotTrap code
  | .rte a => slotRte a
  | .ifence => slotIfence
  | .toll a amount => slotToll a amount
  | .trcMk payload => slotTrcMk payload
  | .nop => slotNop
  | .ld d a h sp sx sz off => slotLd d a h sp sx sz off
  | .st d a h sp sz off => slotSt d a h sp sz off
  | .ldX d a h sp sc pat off => slotLdX d a h sp sc pat off
  | .stX d a h sp sc off => slotStX d a h sp sc off
  | .ldXg d a pat off => slotLdXg d a pat off
  | .xpSet slot a off => slotXpSet slot a off
  | .spmCarve t n => slotSpmCarve t n
  | .tagLk d a off => slotTagLk d a off
  | .tagFl t a b h => slotTagFl t a b h
  | .tagEv t a sl => slotTagEv t a sl
  | .tagEvWb t a sl => slotTagEvWb t a sl
  | .tagInv a off => slotTagInv a off
  | .tdMk t a b sp h => slotTdMk t a b sp h
  | .tdRel a off => slotTdRel a off
  | .qBind t a b c dir win len h => slotQBind t a b c dir win len h
  | .qAdv q a off => slotQAdv q a off
  | .qAdvRp q a off => slotQAdvRp q a off
  | .qWait q a off => slotQWait q a off
  | .qDrain t c => slotQDrain t c
  | .cp t a b c ds ss len h => slotCp t a b c ds ss len h
  | .cpKvchk t a b c ds ss len h => slotCpKvchk t a b c ds ss len h
  | .cpG t a b c ds ss clamp rsz cnt h => slotCpG t a b c ds ss clamp rsz cnt h
  | .cpS t a b c ds ss clamp rsz cnt h => slotCpS t a b c ds ss clamp rsz cnt h
  | .pfT t a scl sl evp => slotPfT t a scl sl evp
  | .pin t a b c w => slotPin t a b c w
  | .unpin t w => slotUnpin t w
  | .am t a b c aop ty scope ord disp h => slotAm t a b c aop ty scope ord disp h
  | .red t a b aop ty scope ord disp h => slotRed t a b aop ty scope ord disp h
  | .drain scope => slotDrain scope
  | .put t a b c ss rows sl => slotPut t a b c ss rows sl
  | .get t a b c ds rows sl => slotGet t a b c ds rows sl
  | .mcast t a b c len sl => slotMcast t a b c len sl
  | .acSet t a watch ctr => slotAcSet t a watch ctr
  | .acAdd t a sl => slotAcAdd t a sl
  | .acWait ctr => slotAcWait ctr
  | .kvChk t a b watch cnt sl => slotKvChk t a b watch cnt sl
  | .rngIns t a b sl => slotRngIns t a b sl
  | .rngDel t a b sl => slotRngDel t a b sl
  | .rngSplit t a b sl => slotRngSplit t a b sl
  | .rngMerge t a b sl => slotRngMerge t a b sl
  | .rngInv t a b c all sl => slotRngInv t a b c all sl
  | .rngReloc t a b c sl => slotRngReloc t a b c sl
  | .rngResOr t a b c sl => slotRngResOr t a b c sl
  | .rngResAndn t a b c sl => slotRngResAndn t a b c sl
  | .rngResWr t a b c sl => slotRngResWr t a b c sl
  | .rngRd t a b c sl => slotRngRd t a b c sl
  | .vadd d a b pm r bs dt => slotVadd d a b pm r bs dt
  | .vsub d a b pm r bs dt => slotVsub d a b pm r bs dt
  | .vmul d a b pm r bs dt => slotVmul d a b pm r bs dt
  | .vfma d a b c pm r bs dt => slotVfma d a b c pm r bs dt
  | .vmin d a b pm r bs dt => slotVmin d a b pm r bs dt
  | .vmax d a b pm r bs dt => slotVmax d a b pm r bs dt
  | .vabs d a pm r dt => slotVabs d a pm r dt
  | .vneg d a pm r dt => slotVneg d a pm r dt
  | .vexp2 d a pm r dt => slotVexp2 d a pm r dt
  | .vlog2 d a pm r dt => slotVlog2 d a pm r dt
  | .vrcp d a pm r dt => slotVrcp d a pm r dt
  | .vrsq d a pm r dt => slotVrsq d a pm r dt
  | .vtanh d a pm r dt => slotVtanh d a pm r dt
  | .vsig d a pm r dt => slotVsig d a pm r dt
  | .vsin d a pm r dt => slotVsin d a pm r dt
  | .vcmp d a b pm bs cond => slotVcmp d a b pm bs cond
  | .vsel d a b c pm => slotVsel d a b c pm
  | .vcvt d a pm r dt => slotVcvt d a pm r dt
  | .cvtPk d a pm r dt part => slotCvtPk d a pm r dt part
  | .cvtUp d a pm r dt part => slotCvtUp d a pm r dt part
  | .vq d a b pm r dt part => slotVq d a b pm r dt part
  | .vdq d a pm r nosc dt part => slotVdq d a pm r nosc dt part
  | .vred d a pm r dt op e => slotVred d a pm r dt op e
  | .vcred d a pm r dt op row => slotVcred d a pm r dt op row
  | .vbcastRow d a pm k => slotVbcastRow d a pm k
  | .vbcastEl d a pm e => slotVbcastEl d a pm e
  | .vtr d a c => slotVtr d a c
  | .vsh d a b pm rot imm => slotVsh d a b pm rot imm
  | .vshRows d a b pm rot imm => slotVshRows d a b pm rot imm
  | .vperm d a b pm => slotVperm d a b pm
  | .vmov d a pm => slotVmov d a pm
  | .vzero d pm tag => slotVzero d pm tag
  | .viadd d a b pm bs sati => slotViadd d a b pm bs sati
  | .vimul d a b pm bs sati => slotVimul d a b pm bs sati
  | .vand d a b pm bs => slotVand d a b pm bs
  | .vor d a b pm bs => slotVor d a b pm bs
  | .vxor d a b pm bs => slotVxor d a b pm bs
  | .vshl d a b pm bs => slotVshl d a b pm bs
  | .vshr d a b pm bs arith => slotVshr d a b pm bs arith
  | .vidot d a b c pm brow k => slotVidot d a b c pm brow k
  | .vsmMerge d a pm r => slotVsmMerge d a pm r
  | .chain t a => slotChain t a
  | .shp fromReg a rows cols => slotShp fromReg a rows cols
  | .fmtTag d tag => slotFmtTag d tag
  | .rcwSet d a pm => slotRcwSet d a pm
  | .rcwSetSt d pm state => slotRcwSetSt d pm state
  | .rcwSetCp d a pm => slotRcwSetCp d a pm
  | .rcwUpd d a pm rule mode col => slotRcwUpd d a pm rule mode col
  | .rcwCnt d a pm acc n => slotRcwCnt d a pm acc n
  | .rcwMask d a set => slotRcwMask d a set
  | .ruleSet a n => slotRuleSet a n
  | .cmxPack t a b c sp nt set => slotCmxPack t a b c sp nt set
  | .cmxRest t a b c sp nt => slotCmxRest t a b c sp nt
  | .kvSv t a b c h => slotKvSv t a b c h
  | .ntfX t a b c set sl => slotNtfX t a b c set sl
  | .moeRoute t a b k norm renorm h => slotMoeRoute t a b k norm renorm h
  | .mmIp cd xa xb t bs ag bf kh scb noswap off => slotMmIp cd xa xb t bs ag bf kh scb noswap off
  | .mmOp cd xa xb t bs ag bf kh scb noswap off => slotMmOp cd xa xb t bs ag bf kh scb noswap off
  | .mmRw xa xb t bs ag bf kh scb noswap off => slotMmRw xa xb t bs ag bf kh scb noswap off
  | .mmZIp cd xa xb t bs ag bf kh scb noswap off => slotMmZIp cd xa xb t bs ag bf kh scb noswap off
  | .mmZRw xa xb t bs ag bf kh scb noswap off => slotMmZRw xa xb t bs ag bf kh scb noswap off
  | .mmMerge cd xb t np zc off => slotMmMerge cd xb t np zc off
  | .mmOut q t => slotMmOut q t
  | .bmpMk xa xb t kh bmode off => slotBmpMk xa xb t kh bmode off
  | .bmpCnt xb t wide off => slotBmpCnt xb t wide off
  | .spzPack cd xa t kh => slotSpzPack cd xa t kh
  | .spzPackB xa xb t kh off => slotSpzPackB xa xb t kh off
  | .spzUnpk cd xa t kh => slotSpzUnpk cd xa t kh
  | .bundleIssue .. | .pendingStop .. | .taskComplete .. | .loadDataReturn .. | .carveComplete ..
  | .tagFillDone .. | .streamRowFetch .. | .streamRowWrite .. | .copyComplete .. | .commandSuspend ..
  | .relocChunkMove .. | .rangeCmdComplete .. | .chainComplete .. | .cmxStart .. | .cmxComplete ..
  | .routePassStart .. | .routePassComplete .. | .mtxComplete .. | .memoryPortGrant .. | .rangeWalk ..
  | .routerGrant .. | .slackDecrement .. | .flagPacketArrive .. | .noticeArrive .. | .acaddArrive ..
  | .contribCombine .. | .reductionComplete .. | .fabricTimeout .. | .fabricDiscard .. | .flitRetransmit ..
  | .portFailure .. | .roceInboundWrite .. | .roceInboundRead .. | .roceInboundAtomic .. | .roceUnsupportedOp ..
  | .roceNakReceived .. | .qpError .. | .doorbellWrite .. | .launchValidate .. | .launchStart ..
  | .phaseStart .. | .taskBind .. | .raggedClaim .. | .computeStepClose .. | .commStepClose ..
  | .launchComplete .. | .launchEnd .. | .launchSuspend .. | .launchResume .. | .tollRefill | .clockEpoch ..
  | .thermalTrip | .powerOnReset | .powerOnComplete .. | .firmwareAuth | .handlerStart .. | .prewaitExpiry ..
  | .saveSequence .. | .restore .. | .fillDispatch .. | .fillSettle .. | .fillFail .. | .spmUnitGate ..
  | .spmUnitWake .. | .wayGate .. | .wayPowerUp .. | .traceFreeze .. | .admitReq .. | .retire .. | .abort ..
  | .preempt .. | .qpset .. | .winset .. | .rgset .. | .regrd .. | .regwr .. | .spgWrite .. | .slwgWrite ..
  | .latecntClear .. | .pwrctlWrite .. | .trippedClear .. | .trcrd .. | .fusesvn .. | .attest .. | .loadfw ..
  | .atomicReply .. | .fabricCommandComplete .. | .exitSaveComplete .. | .streamBindComplete ..
  | .peerAcknowledgement .. | .congestionNotificationReceipt .. => fun s => .ok s

/-- The opcode of a supervisor-only instruction (R61). -/
def supervisorOnlyInstr : Instr → Bool
  | .rte .. | .rngIns .. | .rngDel .. | .rngSplit .. | .rngMerge .. | .rngInv .. | .rngReloc .. | .rngResOr ..
  | .rngResAndn .. | .rngResWr .. | .rngRd .. => true
  | _ => false

/-! ### Destinations (R124) -/

/-- An architectural register that a slot names as a destination. -/
inductive Dest where
  | scalar (r : Nat)
  | mask (p : Nat)
  | loop (n : Nat)
  | stream (q : Nat)
  | tile (x : Nat)
  | ctl (crn : Nat)
deriving DecidableEq, Repr

/-- The register's number, as the trap record names it (R500). -/
def Dest.number : Dest → Nat
  | .scalar n | .mask n | .loop n | .stream n | .tile n | .ctl n => n

/-- Scalars written by the S slots, by loads, links and reads of control registers. -/
def scalarDest : Instr → List Reg
  | .add d .. | .sub d .. | .mul d .. | .mulh d .. | .mulhu d .. | .div d .. | .divu d .. | .rem d .. | .remu d ..
  | .and d .. | .or d .. | .xor d .. | .andn d .. | .shl d .. | .shr d .. | .sra d .. | .rotl d .. | .min d ..
  | .max d .. | .minu d .. | .maxu d .. | .cmp d .. | .sel d .. | .clz d .. | .ctz d .. | .popc d .. | .ext d ..
  | .ins d .. | .li d .. | .lih d .. | .addi d .. | .mov d .. | .lea d .. | .fadd d .. | .fsub d .. | .fmul d ..
  | .fma d .. | .fmin d .. | .fmax d .. | .fcmp d .. | .fcvt d .. | .ld d .. | .tagLk d .. | .rcwCnt d .. => [d]
  | .call a .. | .callI a .. | .ctlRd a .. => [a]
  | _ => []

/-- Completion tokens, and the scalar that receives an `am`'s old value. -/
def tokenDest : Instr → List Reg
  | .spmCarve t .. | .tagFl t .. | .tagEv t .. | .tagEvWb t .. | .tdMk t .. | .qBind t .. | .qDrain t .. | .cp t ..
  | .cpKvchk t .. | .cpG t .. | .cpS t .. | .pfT t .. | .pin t .. | .unpin t .. | .red t .. | .put t .. | .get t ..
  | .mcast t .. | .acSet t .. | .acAdd t .. | .kvChk t .. | .rngIns t .. | .rngDel t .. | .rngSplit t .. | .rngMerge t ..
  | .rngInv t .. | .rngReloc t .. | .rngResOr t .. | .rngResAndn t .. | .rngResWr t .. | .rngRd t .. | .chain t ..
  | .cmxPack t .. | .cmxRest t .. | .kvSv t .. | .ntfX t .. | .moeRoute t .. => [t]
  | .am t _ _ c .. => [t, c]
  | .mmIp _ _ _ t .. | .mmOp _ _ _ t .. | .mmZIp _ _ _ t .. => [t]
  | .mmRw _ _ t .. | .mmZRw _ _ t .. | .mmMerge _ _ t .. | .bmpMk _ _ t .. | .spzPack _ _ t .. | .spzPackB _ _ t ..
  | .spzUnpk _ _ t .. => [t]
  | .mmOut _ t | .bmpCnt _ t .. => [t]
  | _ => []

/-- Tile operands that an instruction writes. -/
def tileDest : Instr → List Reg
  | .ldX d .. | .ldXg d .. | .vadd d .. | .vsub d .. | .vmul d .. | .vfma d .. | .vmin d .. | .vmax d .. | .vabs d ..
  | .vneg d .. | .vexp2 d .. | .vlog2 d .. | .vrcp d .. | .vrsq d .. | .vtanh d .. | .vsig d .. | .vsin d .. | .vcmp d ..
  | .vsel d .. | .vcvt d .. | .cvtPk d .. | .cvtUp d .. | .vq d .. | .vdq d .. | .vred d .. | .vcred d ..
  | .vbcastRow d .. | .vbcastEl d .. | .vtr d .. | .vsh d .. | .vshRows d .. | .vperm d .. | .vmov d .. | .vzero d ..
  | .viadd d .. | .vimul d .. | .vand d .. | .vor d .. | .vxor d .. | .vshl d .. | .vshr d .. | .vidot d ..
  | .fmtTag d .. | .rcwSet d .. | .rcwSetSt d .. | .rcwSetCp d .. | .rcwUpd d .. => [d]
  | .kvSv _ a .. => [a]
  | .vsmMerge d .. => if d.toNat < 63 then [d, d + 1] else [d]
  | .mmIp cd .. | .mmZIp cd .. | .mmMerge cd .. | .spzPack cd .. | .spzUnpk cd .. => [cd]
  | _ => []

/-- Row masks, loop counters, streams and named control registers that an instruction writes. -/
def otherDest : Instr → List Dest
  | .rcwMask d .. => [.mask d.toNat]
  | .loop _ n .. => [.loop n.toNat]
  | .loopLv n .. => [.loop n.toNat]
  | .qBind _ _ _ c .. => [.stream c.toNat]
  | .ctlWr _ crn => [.ctl crn.toNat]
  | .shp .. => [.ctl 0x00]
  | .rcwCnt .. => [.ctl 0x01]
  | .xpSet slot .. => [.ctl (0x30 + slot.toNat)]
  | _ => []

/-- Tile registers, counted from the window's base, that an instruction writes beyond the operands it names: the run of a
`cmx.pack` in tile form (R285) and the DST of a chain whose block can be read (R273). -/
def runDest (s : State) (i : Instr) : List Nat :=
  match i with
  | .cmxPack _ _ b _ sp nt _ => if sp then [] else (List.range nt.toNat).map (fun k => b.toNat + k)
  | .chain _ a =>
    let x := scalarOf (me s) a
    match (do aligned 6 3 x 8; spmLocal s 6 3 x.toNat 8 : Except Stop Unit) with
    | .ok _ => [(blockOf (spmSlice s x.toNat 8)).dst]
    | .error _ => []
  | _ => []

/-- Every destination of an instruction in a context: tile registers by physical number; a write to s0 is none. -/
def destsOf (s : State) (i : Instr) : List Dest :=
  let scalars := (scalarDest i ++ tokenDest i).filter (· ≠ 0)
  let tiles := (tileDest i).map (·.toNat) ++ runDest s i
  scalars.map (fun r => .scalar r.toNat) ++ tiles.map (fun x => .tile ((me s).wbase + x)) ++ otherDest i

/-- The stream that a matrix instruction consumes (R297). -/
def bStreamOf : Instr → Option Nat
  | .mmIp _ _ xb _ bs .. | .mmOp _ _ xb _ bs .. | .mmZIp _ _ xb _ bs .. => if bs then some (xb.toNat % 8) else none
  | .mmRw _ xb _ bs .. | .mmZRw _ xb _ bs .. => if bs then some (xb.toNat % 8) else none
  | _ => none

/-- The stream whose rows another slot takes (R225). -/
def slotStream : Instr → Option Nat
  | .qAdv q .. | .qAdvRp q .. => some q.toNat
  | _ => none

/-! ### Local reads (R123, R336) -/

/-- Scratchpad bytes that an `mm` or `mm.z` reads at issue: stream rows, the header of a B-BSP image and gathered rows (R297,
R298, R320). -/
def mmReads (s : State) (c : Ctx) (f : MmForm) : List (Nat × Nat) :=
  let rows := match (if f.bs then Tbl.find c.streams (f.xb.toNat % 8) else none) with
    | some st => (List.range f.streamRows).map (fun k => (st.rowOffset (st.rp + k), 512))
    | none => []
  let header := if f.bf = 12 then [((mtxOffset (scalarOf c f.xb) f.off).toNat, 192)] else []
  let gathered := match (if f.ag then inWindow s f.xa.toNat else none) with
    | some x =>
      let g := (tileCapture s x).row 0
      (gatherRows g (rowsOf c)).flatMap (fun r => (gatherBase g + 512 * gatherIdx g r + 256 * f.kh, 256) ::
        (if gatherScales g = 0xFFFFFFFF then [] else [(gatherScales g + 16 * gatherIdx g r, 16)]))
    | none => []
  rows ++ header ++ gathered

/-- The spans of its core's scratchpad that an instruction of the executing bundle reads as it issues; `c` is the context
before the bundle. -/
def localReads (s : State) (c : Ctx) (i : Instr) : List (Nat × Nat) :=
  match i with
  | .ld _ a _ sp _ sz off => if sp then [((effAddr (scalarOf c a) off).toNat, 2 ^ sz.toNat)] else []
  | .ldX _ a _ sp sc pat off =>
    if sp then [((effAddr (scalarOf c a) off).toNat, loadSpan (Tbl.look Pattern.init c.patterns pat.toNat) (rowsOf c) sc)] else []
  | .ldXg _ a pat off =>
    let list := (scalarOf c a).toNat
    let rb := (Tbl.look Pattern.init c.patterns pat.toNat).rowBytes
    (list, 2 * rowsOf c) :: (List.range (rowsOf c)).filterMap (fun r => (gatherIndex s list r).map (fun k => (off.toNat + k * rb, rb)))
  | .xpSet _ a off =>
    let x := (effAddr (scalarOf c a) off).toNat
    let nf := ofBytes (spmSlice s (x + 1) 1) % 64
    [(x, if nf ≤ 32 then 8 + 4 * nf else 8)]
  | .ruleSet a _ => [((scalarOf c a).toNat, 32)]
  | .chain _ a =>
    let x := (scalarOf c a).toNat
    [(x, 8 + 8 * (ofBytes (spmSlice s x 1) % 16))]
  | .mmMerge _ xb _ np _ off => (recordsAt (mtxOffset (scalarOf c xb) off).toNat (np.toNat + 1)).map (fun r => (r + 32768, 17))
  | i => match mmForm i with
    | some f => mmReads s c f
    | none => []

/-! ### Units (R144, R145) -/

/-- The unit that executes a word and, for a word of fixed latency, the cycles it is held: 0 and 1 the scalar units, 2 the
memory unit, 3 the tile/vector unit, 5 the sequencer, 6 the predicate unit. The matrix engine and the engines behind
E-format VEC commands keep their own holds. -/
def unitHold (rows : Nat) (slot : Slot) (i : Instr) : Option (Nat × Nat) :=
  match slot with
  | .s0 => some (0, 1)
  | .s1 => some (1, if s1Only i then 20 else 1)
  | .mem =>
    match i with
    | .ldX _ _ _ sp .. => some (2, if sp then 2 else 1)
    | .ldXg .. => some (2, 2)
    | _ => some (2, 1)
  | .vec =>
    match i with
    | .chain .. | .cmxPack .. | .cmxRest .. | .kvSv .. | .ntfX .. | .moeRoute .. => none
    | .rcwUpd .. => some (6, 8)
    | .rcwSet .. | .rcwSetSt .. | .rcwSetCp .. | .rcwCnt .. | .rcwMask .. | .ruleSet .. => some (6, 1)
    | .vtr .. => some (3, 8)
    | .shp .. | .fmtTag .. => some (3, 1)
    | _ => some (3, ceilDiv rows 8)
  | .mtx => none
  | .ctl => some (5, 1)

/-- The unit of a word cannot accept it yet. -/
def unitBusy (s : State) (slot : Slot) (i : Instr) : Bool :=
  match unitHold (rowsOf (me s)) slot i with
  | some (u, _) => decide (s.time < Tbl.look 0 (here s).units u)
  | none => false

/-- Hold a word's unit. Holds of one cycle end before the next bundle and are not kept. -/
def holdUnit (s : State) (slot : Slot) (i : Instr) : State :=
  match unitHold (rowsOf (me s)) slot i with
  | some (u, h) => if h ≤ 1 then s else withHere s (fun k => { k with units := Tbl.put k.units u (s.time + h) })
  | none => s

end Sys2Proof.Machine
end

