-- ==== Sys2Proof/Machine/Issue.lean ====
section
/-! DEFINITION. A context's bundle issues: fetch, target checks, holds, traps in order, the slots' effects, the back
edge, and what follows the bundle (R108 to R129, R140 to R145, R174, R350, R421 to R423, R498, R508, R517). -/

namespace Sys2Proof.Machine

/-! ### Fetch (R125, R350) -/

/-- The physical addresses of a doubleword that a context fetches; a failure traps with the header's address (R125). -/
def fetchSpan (s : State) (ba : BitVec 56) (va : Nat) : Except Stop (List Nat) :=
  match translateSpan s (tableFor s s.cur.1 s.cur.2) (me s).asid va 8 [permEx] with
  | .error e => trapping e.cause 0 7 (ba.setWidth 64) 0 (BitVec.ofNat 32 e.seg)
  | .ok pas =>
    match pas.foldlM (fun (_ : Unit) a => outsideCheck s a) () with
    | .error (.fault f) => .error (.fault f)
    | .error _ => trapping causeUnc 0 7 (ba.setWidth 64)
    | .ok () =>
      match resolveSpan s [permRd] pas with
      | .error e => trapping e.cause 0 7 (ba.setWidth 64) 0 (BitVec.ofNat 32 e.seg)
      | .ok l =>
        match carveAt s l with
        | some b => trapping causeCarve 0 7 (BitVec.ofNat 64 b) (BitVec.ofNat 64 (bankOf b))
        | none => .ok l

/-- The reads of a fetch: the range is searched for with the core's NETSLK, and the lines are touched as their range's cache
class says (R369, R371, R384, R389; Assumption 106). -/
def fetchReach (s : State) (va : Nat) (pas : List Nat) : State :=
  let hint := hintAt s s.cur.1 s.cur.2 (me s).asid va ⟨0, 1, false⟩
  touchLines (wakePas (useRanges s s.cur.1 s.cur.2 (me s).asid va 8 (netSlackOf s s.cur.1)) pas) pas hint false

/-- A doubleword as fetch returns it: as memory holds it, or as the context has fetched it since its last fetch fence
(R350). -/
def fetchWord (s : State) (ba : BitVec 56) (va : Nat) : Except Stop (Word × State) := do
  let pas ← walked va 8 (netSlackOf s s.cur.1) (fetchSpan s ba va)
  let (now, s') := readPas (fetchReach s va pas) pas
  let old := pas.map (memByte (me s).ibuf)
  if pas.any (isOutside s) || now == old then .ok (BitVec.ofNat 64 (ofBytes now), s')
  else .ok (BitVec.ofNat 64 (ofBytes (if Config.staleFetch s'.fresh then old else now)), { s' with fresh := s'.fresh + 1 })

/-- The slot words of a bundle. -/
def fetchWords (s : State) (ba : BitVec 56) : Nat → Nat → Except Stop (List Word × State)
  | 0, _ => .ok ([], s)
  | n + 1, va => do
    let (w, s) ← fetchWord s ba va
    let (l, s) ← fetchWords s ba n (va + 8)
    .ok (w :: l, s)

/-! ### The header and the target (R112, R126, R127) -/

/-- A stop of the sequencer at an address in 64 bits. -/
def seqStopAt (cause : Nat) (addr : Word) (detail : Word) : TrapInfo :=
  { cause := cause, addr := addr, detail := detail, index := 0, engine := 0, slot := 7, cseq := 0, estat := 0 }

/-- A stop of the sequencer. -/
def seqStop (cause : Nat) (addr : BitVec 56) (detail : Word) : TrapInfo := seqStopAt cause (addr.setWidth 64) detail

/-- The checks of a transfer's target on its header (R126). A zero-trip loop's end has checks 1 and 2 alone. -/
def headerCheck (k : TargetKind) (t : BitVec 56) (h : Word) : Option TrapInfo :=
  if !headerValid h && !isPoolGuard h then some (seqStop causeIllegal t h)
  else if k != .zeroTrip && (isPoolGuard h || (k == .land && !(headerOf h).land)) then some (seqStop causeBadTarget t 0)
  else none

/-- The checks of a header that sequential execution reaches (R112, R127). -/
def sequentialCheck (a : BitVec 56) (h : Word) : Option TrapInfo :=
  if isPoolGuard h then some (seqStop causeExecPool a 0)
  else if !headerValid h then some (seqStop causeIllegal a h)
  else none

/-- Length of a bundle in bytes (R108). -/
def bundleLength (h : Word) : BitVec 56 := BitVec.ofNat 56 (8 * (1 + (headerOf h).words))

/-- A target fails its check: the stop names the target as ADDR and RESUME, and the transferring bundle; at a task's entry
the entry itself (R126). The check is applied again on resumption. -/
def targetTrap (s : State) (core ctx : Nat) (t : TrapInfo) : State :=
  let c := ctxOf s core ctx
  takeTrap (useWalks s core ctx c.asid t) core ctx t c.pc (if c.fromTransfer then c.lastBundle else c.pc) c.fromTransfer

/-! ### The slots of a bundle (R113 to R116) -/

/-- Why a slot has no instruction: no previous word, or a word that is illegal. -/
inductive LaneError where
  | noPrev
  | illegal
deriving DecidableEq, Repr

/-- One occupied slot: the word it executes, and its instruction. -/
structure Lane where
  slot : Slot
  word : Word
  got : Except LaneError Instr

/-- The instruction of a word in a slot. -/
def laneOf (slot : Slot) (w : Word) : Lane :=
  { slot := slot, word := w, got := match decodeSlot slot w with | .ok i => .ok i | .error _ => .error .illegal }

/-- A slot that repeats its previous word, as it stands or with its delta (R115, R116). -/
def repeatLane (c : Ctx) (slot : Slot) (delta : Bool) : Lane :=
  let p := Tbl.look Psw.init c.psw slot.idx
  if !p.valid then { slot := slot, word := 0, got := .error .noPrev }
  else if delta then
    match deltaWord slot p.word ((Tbl.look 0 c.dlt slot.idx).signExtend 64) with
    | some w => laneOf slot w
    | none => { slot := slot, word := p.word, got := .error .illegal }
  else laneOf slot p.word

/-- The occupied slots of a bundle, given its presence codes and its new words (R113). -/
def lanesOf (c : Ctx) : List (Slot × BitVec 2) → List Word → List Lane
  | [], _ => []
  | (slot, code) :: l, ws =>
    if code = 1 then
      match ws with
      | w :: ws => laneOf slot w :: lanesOf c l ws
      | [] => lanesOf c l []
    else if code = 2 then repeatLane c slot false :: lanesOf c l ws
    else if code = 3 then repeatLane c slot true :: lanesOf c l ws
    else lanesOf c l ws

/-- An occupied slot whose word is an instruction, with the effect it has alone on the state before the bundle. -/
structure Active where
  slot : Slot
  word : Word
  instr : Instr
  alone : Except Stop State

/-- The slots that hold an instruction. -/
def activeOf (s : State) (ls : List Lane) : List Active :=
  ls.filterMap (fun l =>
    match l.got with
    | .ok i => some { slot := l.slot, word := l.word, instr := i, alone := slotEffect i s }
    | .error _ => none)

/-! ### Traps at issue in order (R129, R500) -/

/-- A stop of a slot, at the executing bundle. -/
def laneStop (s : State) (slot : Slot) (cause : Nat) (detail : Word) : TrapInfo :=
  { cause := cause, addr := s.fly.ba.setWidth 64, detail := detail, index := 0, engine := 0, slot := slot.idx, cseq := 0, estat := 0 }

/-- Step 3: a repeat without a previous word (R115). -/
def noPrevStop (s : State) (ls : List Lane) : Option TrapInfo :=
  ls.findSome? (fun l => match l.got with | .error .noPrev => some (laneStop s l.slot causeNoPrev 0) | _ => none)

/-- The ILLEGAL_BUNDLE of a packing conversion depends on its source's tag and belongs to step 7 (R264). -/
def widthAtOperands : Instr → Bool
  | .cvtPk .. | .cvtUp .. | .vq .. | .vdq .. => true
  | _ => false

/-- An active slot's own illegal value, found at step 4. The spec does not say whether a value that R129 calls illegal is found
there too where it stands in an operand (`mcast` sC, `rte` sA, `bar` LEVEL, an invalid XPAT of `ld.x`): the model finds all of
them at step 4, but those of the packing conversions, which R264 puts among the operand checks (DESIGN CHOICE, log 124). -/
def aloneIllegal (a : Active) : Bool :=
  match a.alone with
  | .error (.trap t) => t.cause == causeIllegal && !widthAtOperands a.instr
  | _ => false

/-- Step 4: an illegal word, or a value that the instruction calls illegal. -/
def illegalStop (s : State) (ls : List Lane) (as : List Active) : Option TrapInfo :=
  ls.findSome? (fun l =>
    match l.got with
    | .error .illegal => some (laneStop s l.slot causeIllegal l.word)
    | .error .noPrev => none
    | .ok _ =>
      if as.any (fun a => a.slot == l.slot && aloneIllegal a) then some (laneStop s l.slot causeIllegal l.word) else none)

/-- Step 5: a supervisor opcode in a task context (R61). -/
def privStop (s : State) (as : List Active) : Option TrapInfo :=
  if s.cur.2 = 4 then none
  else as.findSome? (fun a =>
    if supervisorOnlyInstr a.instr then some (laneStop s a.slot causePriv ((a.word.extractLsb' 56 8).setWidth 64)) else none)

/-- The first element of a list that stands in it again. -/
def firstRepeat : List Dest → Option Dest
  | [] => none
  | d :: l => if l.contains d then some d else firstRepeat l

/-- The first destination of a later slot that an earlier one names too, or that one slot names twice (R124). -/
def conflictIn (s : State) (seen : List Dest) : List Active → Option (Slot × Nat)
  | [] => none
  | a :: l =>
    let ds := destsOf s a.instr
    match firstRepeat ds with
    | some d => some (a.slot, d.number)
    | none =>
      match ds.find? (fun d => seen.contains d) with
      | some d => some (a.slot, d.number)
      | none => conflictIn s (seen ++ ds) l

/-- A stream that the matrix slot consumes and another slot reads (R297). -/
def streamConflict (as : List Active) : Option (Slot × Nat) :=
  as.findSome? (fun a => (bStreamOf a.instr).bind (fun q =>
    if as.any (fun b => slotStream b.instr == some q) then some (a.slot, q) else none))

/-- Step 6: SLOT_CONFLICT (R124, R297). -/
def conflictStop (s : State) (as : List Active) : Option TrapInfo :=
  match conflictIn s [] as with
  | some (slot, n) => some (laneStop s slot causeConflict (BitVec.ofNat 64 n))
  | none => (streamConflict as).map (fun p => laneStop s p.1 causeConflict (BitVec.ofNat 64 p.2))

/-- Step 7: the first slot whose own checks fail. -/
def operandStop (as : List Active) : Option TrapInfo :=
  as.findSome? (fun a => match a.alone with | .error (.trap t) => some { t with slot := a.slot.idx } | _ => none)

/-- Steps 3 to 7 (R129). -/
def issueStop (s : State) (ls : List Lane) (as : List Active) : Option TrapInfo :=
  (noPrevStop s ls).orElse (fun _ => (illegalStop s ls as).orElse (fun _ => (privStop s as).orElse (fun _ =>
    (conflictStop s as).orElse (fun _ => operandStop as))))

/-! ### Holds (R119, R144) -/

/-- A slot's own hold or stop of the model, or a unit that cannot accept its word. -/
def holdOf (s : State) (as : List Active) : Option Stop :=
  as.findSome? (fun a =>
    match a.alone with
    | .error (.trap _) => if unitBusy s a.slot a.instr then some .hold else none
    | .error e => some e
    | .ok _ => if unitBusy s a.slot a.instr then some .hold else none)

/-- Whether a waiting instruction's condition holds (R181, R226, R240, R241, R249). A drain at a narrow scope may end sooner than
one at a wide scope (R335). -/
def waitMet (s : State) (core ctx : Nat) (w : Wait) : Bool :=
  match w with
  | .drain scope before => drainedAt s core ctx scope before
  | .barrier level id => barrierOpen s core ctx (level, id)
  | .arrivals c =>
    let k := Tbl.look Arrival.init (coreOf s core).ctrs c
    decide (k.expect.toNat ≤ k.count.toNat)
  | .stream q n =>
    match Tbl.find (ctxOf s core ctx).streams q with
    | some st => decide (n ≤ st.fetched - st.rp ∨ st.total ≤ max st.fetched st.rp)
    | none => true
  | .acquire id => !(s.reqs.any (fun r => r.id == id && !r.performed))

/-- A context may issue: it runs, no stop of its own is pending, no gap or yield is open and no waiting instruction holds
it (R421, R499). -/
def mayIssue (s : State) (core ctx : Nat) : Bool :=
  let c := ctxOf s core ctx
  c.status == .running && ctx < 5 && core < Config.numCores && stopCount c == 0 && c.quiet ≤ s.time &&
    c.waits.all (waitMet s core ctx)

/-! ### What a bundle leaves -/

/-- The back edge that a bundle at `ba` takes: counters `lc(n-1)` down to `lc0` (R174). -/
def backEdge (c : Ctx) (ba : BitVec 56) : Nat → List Write × Option (BitVec 56)
  | 0 => ([], none)
  | n + 1 =>
    let l := Tbl.look LoopCtr.init c.loops n
    if l.active && l.stop == ba then
      if l.count.toNat ≤ 1 then
        let (ws, t) := backEdge c ba n
        ([.count n 0, .loopSet n l.start l.stop false] ++ ws, t)
      else ([.count n (l.count - 1)], some l.start)
    else backEdge c ba n

/-- The previous slot words that an executed bundle leaves (R114). -/
def pswAfter (ls : List Lane) : Tbl Psw := ls.map (fun l => (l.slot.idx, { word := l.word, valid := true }))

/-- The physical bytes of spans of the executing core's scratchpad. -/
def spanPas (s : State) (l : List (Nat × Nat)) : List Nat := l.flatMap (fun p => spmPas s.cur.1 p.1 p.2)

/-- Local reads of the bundle count in the order at their chunks (R336, R521, type 6). -/
def noteReads (s : State) (c : Ctx) (as : List Active) : State :=
  if s.rlog.isNone && s.rplay.isNone then s
  else
    noteOrder s (directAccessor s.cur.1 s.cur.2 (me s).icount) false
      (spanPas s (as.flatMap (fun a => localReads s c a.instr)))

/-- A replay holds the bundle: a logged predecessor of one of its local accesses has still to perform (R523). -/
def localHeld (s : State) (c : Ctx) (as : List Active) : Bool :=
  s.rplay.isSome &&
    orderHeld s s.cur.1 s.cur.2 (me s).icount
      (spanPas s (as.flatMap (fun a => localReads s c a.instr)) ++ s.fly.stores.map (fun x => spmAddr s.cur.1 x.1))

/-- The bundle would tell a party of what the context did before, by a flag or through a command of an engine, while a drain of
its has ended at a scope that covers the party and not yet at the accesses' homes: it holds (R335, R342, R343, R348). `s` is the
state before the slots, `t` the one after them. -/
def tellsHeld (s t : State) (as : List Active) : Bool :=
  let (core, ctx) := s.cur
  (t.fly.sends != [] || decide (s.ops.length < t.ops.length)) && edgeHeld s core ctx core ||
    as.any (fun a => match a.instr with | .flagSetRmt .. => true | _ => false) &&
      (t.reqs.any (fun r => decide (s.nextReq ≤ r.id) &&
        (match r.kind with | .flag x _ => edgeHeld s core ctx (ctxidCore x) | _ => false)))

/-- Local stores of the bundle perform (R123, R337). -/
def performStores (s : State) : State :=
  match s.fly.stores with
  | [] => s
  | st =>
    let cells := st.map (fun c => (spmAddr s.cur.1 c.1, c.2))
    noteOrder (homeWrite s cells) (directAccessor s.cur.1 s.cur.2 (me s).icount) true (cells.map (·.1))

/-- Watch points of a core that an access of a context matches (R508). -/
def watchHits (k : CoreSt) (ctx : Nat) (kind : Nat) (a n : Nat) : List Nat :=
  (List.range 4).filter (fun w =>
    let c := Tbl.look 0 k.wpc w
    let lo := (Tbl.look 0 k.wpa w).toNat
    c.getLsbD ctx && c.getLsbD kind && decide (0 < n ∧ a ≤ lo + (c.extractLsb' 16 8).toNat ∧ lo < a + n))

/-- Every watch-point match of an executed bundle: watch point and accessed address. -/
def bundleHits (s : State) (len : Nat) : List (Nat × Nat) :=
  let k := here s
  let direct := s.fly.accesses.flatMap (fun a =>
    (watchHits k s.cur.2 (if a.2.2 then 9 else 8) a.1 a.2.1).map (fun w => (w, a.1)))
  direct ++ (watchHits k s.cur.2 10 s.fly.ba.toNat len).map (fun w => (w, s.fly.ba.toNat))

/-- Stops after execution: WATCH at the first match, then TRAP_INSN (R188, R498, R508). -/
def stopsAfter (s : State) (hits : List (Nat × Nat)) : List TrapInfo :=
  let watch := match hits with
    | (w, a) :: _ =>
      if (me s).ten.getLsbD 1 then
        [{ cause := causeWatch, addr := BitVec.ofNat 64 a, detail := 0, index := BitVec.ofNat 32 w, engine := 14, slot := 7,
           cseq := 0, estat := 0 }]
      else []
    | [] => []
  watch ++ s.fly.stop.toList

/-! ### Trace of a bundle (R122, R192, R517, R518) -/

/-- Rows whose control word a bundle's instruction writes, as a bitmap. -/
def rowsWritten (ws : List Write) (x : Nat) : Nat :=
  (ws.filterMap (fun w => match w with | .tileRcw y i _ => if y = x then some i else none | _ => none)).foldl
    (fun b i => b ||| 2 ^ i) 0

/-- Tile registers among some writes of control words. -/
def tilesWritten (ws : List Write) : List Nat :=
  (ws.filterMap (fun w => match w with | .tileRcw x _ _ => some x | _ => none)).eraseDups

/-- An instruction that changes control words in the way class 2 records. -/
def rowControl : Instr → Bool
  | .rcwSet .. | .rcwSetSt .. | .rcwSetCp .. | .rcwUpd .. => true
  | _ => false

/-- Records of the row-mask and control-word writes of a bundle: class 2 has those of its row-control instruction, not
those of a load beside it (R517). -/
def traceWrites (s : State) (ws : List Write) (as : List Active) : State :=
  let s := ws.foldl (fun s w => match w with | .mask p v => traceEvent s s.cur.1 1 s.cur.2 p v | _ => s) s
  let mine := (as.filter (fun a => rowControl a.instr)).flatMap (fun a => (tileDest a.instr).map (fun x => (me s).wbase + x.toNat))
  ((tilesWritten ws).filter (fun x => mine.contains x)).foldl (fun s x =>
    traceEvent s s.cur.1 2 s.cur.2 x (BitVec.ofNat 64 (rowsWritten ws x))) s

/-- A trace mark: it needs MARK in place of a class bit. -/
def traceMark (s : State) (sub : Nat) (payload : Word) : State :=
  if (here s).trcctl.getLsbD 1 then
    let s := traceRaw s s.cur.1 (traceRec s 5 s.cur.2 sub ((payload <<< 48) ||| (s.fly.ba.extractLsb' 0 48).setWidth 64))
    if sub = 0 then traceTrigger s s.cur.1 4 s.cur.2
    else if payload = (here s).trgval.setWidth 64 then traceTrigger s s.cur.1 5 s.cur.2 else s
  else s

/-- Trace records of an executed bundle. -/
def traceBundle (s : State) (h : Header) (ws : List Write) (as : List Active) (edge : Option (BitVec 56))
    (hits : List (Nat × Nat)) : State :=
  let s := traceWrites s ws as
  let s := match s.fly.target, edge with
    | some (t, .land), _ => traceEvent s s.cur.1 0 s.cur.2 0 t
    | some (t, .plain), _ => traceEvent s s.cur.1 0 s.cur.2 0 t
    | _, some t => traceEvent s s.cur.1 0 s.cur.2 1 (t.setWidth 64)
    | _, none => s
  let s := if h.trc then traceMark s 0 0 else s
  let s := s.fly.marks.foldl (fun s m => traceMark s m.1 m.2) s
  if hits == [] then s else traceTrigger s s.cur.1 6 s.cur.2

/-! ### The bundle -/

/-- What the end of a task releases: its pin windows, the row merge buffer and its toll reservation (R191, R236, R317,
R425). -/
def releaseTask (s : State) (core ctx : Nat) : State :=
  let s := cancelToll (releasePins s core ctx) core ctx
  withCore s core (fun k => if k.merge.owner = some ctx then { k with merge := MergeBuf.init } else k)

/-- The bundle ends its task or service work (R143, R177, R178); a task that halts releases what its end releases at once
(R236, R317). -/
def endBundle (s : State) (code : Option (BitVec 16)) : State :=
  let (core, ctx) := s.cur
  let s := leaveOwner (flush s core ctx) core ctx
  match code with
  | none => withCtx s core ctx (fun c => { c with status := .finishing, ended := true, preempt := none, flags := c.flags &&& 0x7FFF })
  | some n =>
    let s := withCtx s core ctx (fun c => { c with status := .halted n, preempt := none, flags := c.flags &&& 0x7FFF })
    if ctx = 4 then s
    else
      let s := releaseTask s core ctx
      match (ctxOf s core ctx).task with
      | some t => endLaunchBy s t.launch { status := 1, code := n, cause := 0 } (ctxidPlace core ctx)
      | none => s

/-- A `pre.pt` with f15 set saves the context, unless an engine fault, an UNCORRECTABLE stop or a suspended command is
there first (R187, R514). -/
def beginSave (s : State) (core ctx : Nat) (va : Option Word) : State :=
  let c := ctxOf s core ctx
  if c.stops != [] || c.unc != [] || (outstanding s core ctx).any (fun o => o.susp.isSome) ||
      c.streams.any (fun q => q.2.susp) then s
  else
    let named := va.filter (fun a => (livenessAt s core ctx a).isSome)
    let s := withCtx (leaveOwner s core ctx) core ctx (fun c =>
      { c with status := .saving, toSave := some named, preempt := none, asked := s.time })
    withCore s core (fun k => { k with work := k.work ++ [.save ctx] })

/-- What a replayed log says of a context at its point: a late event, or f15 set or escalated (R521, R523). -/
def replayPoint (s : State) (core ctx : Nat) (x : LogRec) : State :=
  let s := followRecord s x
  if x.typ = 9 then withCtx s core ctx (fun c => pendLate ctx x.key.toNat 0 { c with flags := c.flags ||| 0x2000 })
  else if x.aux = 0 then withCtx s core ctx (fun c => { c with flags := c.flags ||| 0x8000 })
  else if (ctxOf s core ctx).status = .running then beginSave s core ctx none else s

/-- The logged events of a context up to its issue count, in the log's order (R521, types 9 and 10). -/
def replayPoints (s : State) (core ctx : Nat) : State :=
  if replaysIn s core ctx then
    match s.rplay with
    | none => s
    | some r =>
      (r.recs.filter (fun x => (x.typ == 9 || x.typ == 10) && x.unit == core && x.ctx == ctx &&
          decide (x.icnt ≤ (ctxOf s core ctx).icount))).foldl (fun s x => replayPoint s core ctx x) s
  else s

/-- The 64-bit address of a taken transfer's target: the program counter, but for a target of this bundle that does not
fit 56 bits (Assumption 8). -/
def fullTarget (s : State) : Word :=
  match s.fly.target with
  | some (t, _) => t
  | none => (me s).pc.setWidth 64

/-- The checks of a taken transfer's target (R126): its alignment, that it fits 56 bits like any fetch address (R57,
R125), and its header; a zero-trip loop's end that passes is skipped (R173). A fetch that fails is met again when the
target issues. -/
def checkTarget (s : State) (k : TargetKind) : State :=
  let (core, ctx) := s.cur
  let t := (me s).pc
  if t.extractLsb' 0 3 ≠ 0 then targetTrap s core ctx (seqStopAt causeBadTarget (fullTarget s) 0)
  else if (fullTarget s).extractLsb' 56 8 ≠ 0 then takeTrap s core ctx (seqStopAt causeMiss (fullTarget s) 0) t t false
  else
    match fetchWord s t t.toNat with
    | .error _ => s
    | .ok (h, _) =>
      match headerCheck k t h with
      | some i => targetTrap s core ctx i
      | none => withMe s (fun c => { c with target := none, pc := if k = .zeroTrip then t + bundleLength h else t })

/-- Where a stop after execution resumes: the successor; a zero-trip loop whose end passes its checks has been skipped
(R173, R174). -/
def toSuccessor (s : State) : State :=
  if (me s).target = some .zeroTrip then
    let t := checkTarget s .zeroTrip
    if (me t).status = (me s).status then t else s
  else s

/-- Stops after execution are taken, the first now (R498). -/
def stopAfter (s : State) (stops : List TrapInfo) : State :=
  match stops with
  | [] => s
  | t :: l =>
    let s := toSuccessor s
    takeTrap (withMe s (fun c => { c with after := l })) s.cur.1 s.cur.2 t (me s).pc s.fly.ba true

/-- Where execution goes on and what stops there: the save first, then the stops after execution, then the checks of a
taken transfer's target (R126, R174, R498, R514). A stop after the service context's last bundle is a fault of the work
it runs (R506); a task that has executed `done` waits on after the handler (R177); one that has executed `halt` has stopped for
good, for its launch ends (R178, R418). -/
def afterBundle (s : State) (stops : List TrapInfo) : State :=
  let (core, ctx) := s.cur
  if ctx = 4 && stops != [] then stopAfter s stops
  else
    match s.fly.ended, s.fly.rte with
    | some none, _ => stopAfter (endBundle s none) stops
    | some (some n), _ => stopAfter (endBundle s (some n)) stops
    | none, some k => settleReturn (withMe s (fun c => { c with status := .returning k })) core
    | none, none =>
      let s := withMe s (fun c => { c with after := stops })
      let s := match s.fly.save with | some va => beginSave s core ctx (some va) | none => s
      if (me s).status = .saving then s
      else if stops != [] then stopAfter s stops
      else
        match (me s).target with
        | none => s
        | some k => checkTarget s k

/-- Flags after a bundle: the consumed and cleared ones, then the set ones, then those that go to other contexts of the
core (R25, R119, R183). -/
def commitFlags (s : State) (h : Header) : State :=
  let clr := (if h.cons then consumed h.sync else 0) ||| s.fly.clr
  let s := withMe s (fun c => { c with flags := flagsAfter c.flags clr s.fly.set })
  let cookie := cookieOf s s.cur.1 s.cur.2
  s.fly.sends.foldl (fun s p => deliverFlags s p.1 p.2 cookie) s

/-- Log of the generator state that a write of RND leaves (R84, R521). -/
def logSeed (s : State) (as : List Active) (ws : List Write) : State :=
  if as.any (fun a => match a.instr with | .ctlWr _ crn => crn == 2 | _ => false) then
    match ws.find? (fun w => match w with | .ctl 2 _ => true | _ => false) with
    | some (.ctl _ v) => logAt (followSeed s s.cur.1 s.cur.2) s.cur.1 s.cur.2 3 ((if v.extractLsb' 32 32 = 0 then 1 else v.extractLsb' 32 32).setWidth 64) 0 0 []
    | _ => s
  else s

/-- A context may fetch doublewords ahead: which of those that have changed since it fetched them last is free (R350). -/
def prefetchCtx (core : Nat) (s : State) (ctx : Nat) : State :=
  let c := ctxOf s core ctx
  if c.status ≠ .running ∨ c.ibuf = s.mem then s
  else
    let ahead (x : Host.Cell) : Bool := Config.prefetched s.fresh (x.1 / 8)
    setCtx { s with fresh := s.fresh + 1 } core ctx
      { c with ibuf := memPuts (c.ibuf.filter (fun x => !ahead x)) (s.mem.filter ahead) }

/-- Every context of the device may fetch ahead. -/
def prefetchAll (s : State) : State :=
  s.cores.foldl (fun s k => (k.2.ctxs.map (·.1)).foldl (prefetchCtx k.1) s) s

/-- A tick passes: packets that stay in their queues have waited through it and lose the slack that they owe, those of the
log's writes set out, and contexts may fetch ahead (R350, R469, R519). The tasks of launches that ended in the cycle stop
(R418). -/
def passTime (s : State) : State := prefetchAll (sendLog (settleSlack (passTick (stopEnded s))))

/-- Everything an executed bundle leaves (R114, R123, R140, R174). `c` is the context before the bundle. The cycles that GAP
keeps free and those of a `yld` run at the same time: the context issues nothing for the larger of the two (DESIGN CHOICE,
Assumption 96). -/
def commitBundle (s : State) (c : Ctx) (hw : Word) (ls : List Lane) (as : List Active) : State :=
  let h := headerOf hw
  let (core, ctx) := s.cur
  let ws := ((me s).pend.filter (fun p => !c.pend.contains p)).map (·.w)
  let s := as.foldl (fun s a => holdUnit s a.slot a.instr) s
  let s := commitFlags (performStores (noteReads s c as)) h
  let (edge, t) := if s.fly.noBackEdge then ([], none) else backEdge c s.fly.ba 4
  let s := results s 1 edge
  let next := match s.fly.target with | some (a, _) => a.setWidth 56 | none => t.getD s.fly.nx
  let kind := match s.fly.target with
    | some (_, k) => some k
    | none => if t.isSome then some .plain else none
  let hits := bundleHits s (8 * (1 + h.words))
  let s := logSeed (traceBundle s h ws as t hits) as ws
  let s := withMe s (fun x =>
    { x with psw := pswAfter ls, lastBundle := s.fly.ba, pc := next, target := kind, fromTransfer := true,
             icount := x.icount + 1 + h.gap.toNat, quiet := s.time + 1 + max h.gap.toNat s.fly.quiet,
             waits := x.waits.drop c.waits.length, swLast := h.sw,
             ibuf := if s.fly.fence then s.mem else x.ibuf })
  let s0 := settleToll (settleArrivals (promote s core ctx) core ctx) core
  let s := afterBundle s0 (stopsAfter s0 hits)
  let s := if s.fly.ended == some none && ctx != 4 then releaseAfterDone s0 s core ctx else s
  passTime s

/-- Run the slots in order (R123). -/
def runSlots : List Active → State → Except Stop State
  | [], s => .ok s
  | a :: l, s =>
    match slotEffect a.instr s with
    | .ok t => runSlots l t
    | .error e => .error e

/-- How an attempt to issue ends: the bundle holds, or it issues or traps. -/
inductive Attempt where
  | held (s : State)
  | went (r : Host.Outcome State Fault Refusal)

/-- A bundle stops at issue, at its own address (R129). -/
def stopAt (s : State) (t : TrapInfo) : Attempt :=
  .went (.next (takeTrap (useWalks s s.cur.1 s.cur.2 (me s).asid t) s.cur.1 s.cur.2 t (me s).pc (me s).pc false))

/-- Steps 2 to 7 of a fetched bundle and its execution (R129). `s0` is the state that a hold leaves. -/
def issueFetched (s0 s : State) (hw : Word) (ws : List Word) : Attempt :=
  let c := me s
  let h := headerOf hw
  if !(h.sync == 0 || syncMet c.flags h.sync) then .held s0
  else
    let ls := lanesOf c (allSlots.zip h.pres) ws
    let as := activeOf s ls
    match holdOf s as with
    | some (.wake n u) => .held (startWake s0 n u)
    | some (.fault f) => .went (.fault f)
    | some _ => .held s0
    | none =>
      match issueStop s ls as with
      | some t => stopAt s t
      | none =>
        match runSlots as s with
        | .ok t => if localHeld t c as || tellsHeld s t as then .held s0 else .went (.next (commitBundle t c hw ls as))
        | .error (.trap t) => stopAt s t
        | .error (.wake n u) => .held (startWake s0 n u)
        | .error (.fault f) => .went (.fault f)
        | .error .hold => .held s0

/-- The slot words are fetched after the header has passed its checks (R125). -/
def issueWords (s0 s : State) (hw : Word) : Attempt :=
  let c := me s
  match fetchWords s c.pc (headerOf hw).words (c.pc.toNat + 8) with
  | .error (.trap t) => stopAt s t
  | .error (.fault f) => .went (.fault f)
  | .error _ => .held s0
  | .ok (ws, s) =>
    issueFetched s0 { withMe s (fun c => { c with target := none }) with
      fly := { s.fly with nx := c.pc + bundleLength hw } } hw ws

/-- Begin a bundle at the context's program counter: what its slots see of the context (R123). -/
def beginBundle (s : State) (core ctx : Nat) : State :=
  let c := ctxOf s core ctx
  { s with cur := (core, ctx), fly := { Fly.init with ba := c.pc, pre := some ⟨s.ops, c.pend, s.nextReq, c.seed⟩ } }

/-- Step 1: the header is fetched and checked (R125 to R129). A zero-trip loop's end that passes is skipped (R173). -/
def issueAt (s0 s : State) : Attempt :=
  let c := me s
  if c.pc.extractLsb' 0 3 ≠ 0 then .went (.next (targetTrap s s.cur.1 s.cur.2 (seqStop causeBadTarget c.pc 0)))
  else
    match fetchWord s c.pc c.pc.toNat with
    | .error (.trap t) => stopAt s t
    | .error (.fault f) => .went (.fault f)
    | .error _ => .held s0
    | .ok (hw, s) =>
      match c.target with
      | some k =>
        match headerCheck k c.pc hw with
        | some t => .went (.next (targetTrap s s.cur.1 s.cur.2 t))
        | none =>
          if k = .zeroTrip then .went (.next (withMe s (fun c => { c with target := none, pc := c.pc + bundleLength hw })))
          else issueWords s0 s hw
      | none =>
        match sequentialCheck c.pc hw with
        | some t => stopAt s t
        | none => issueWords s0 s hw

/-! ### The sequencer's choice (R421 to R423) -/

/-- A context is ready: its next bundle would issue without a hold (R421). -/
def isReady (s : State) (core ctx : Nat) : Bool :=
  mayIssue s core ctx &&
    (match issueAt s (beginBundle s core ctx) with
     | .went _ => true
     | .held _ => false)

/-- The launch mode of a core's tasks: whether role mode holds (R399). -/
def roleMode (s : State) (core : Nat) : Bool :=
  (List.range 5).any (fun k =>
    match (ctxOf s core k).task with
    | some t => (match Tbl.find s.launches t.launch with | some l => l.header.getLsbD 348 | none => false)
    | none => false)

/-- The contexts after `k` in cyclic order 0 to 4, ending with `k`. -/
def cyclicAfter (k : Nat) : List Nat := (List.range 5).map (fun i => (k + 1 + i) % 5)

/-- The context with the least measure; the first one at a tie. -/
def leastCtx (f : Nat → List Nat) : List Nat → Option Nat
  | [] => none
  | k :: l =>
    match leastCtx f l with
    | none => some k
    | some j => if f j < f k then some j else some k

/-- Role mode's choice among the ready contexts (R423). -/
def chooseByRole (s : State) (core : Nat) (ready : List Nat) : Option Nat :=
  let aged := ready.filter (fun k => (coreOf s core).age.toNat ≤ (ctxOf s core k).waitCount)
  match leastCtx (fun k => [2 ^ 64 - (ctxOf s core k).waitCount, k]) aged with
  | some k => some k
  | none => leastCtx (fun k =>
      let c := ctxOf s core k
      [if c.swLast then 1 else 0, c.role, match c.lastIssue with | none => 0 | some t => t + 1, k]) ready

/-- The contexts after `k` that are ready, in cyclic order; the first takes an ownership that passes (R422). -/
def readyAfter (k : Nat) (ready : List Nat) : Option Nat := (cyclicAfter k).find? (fun j => ready.contains j)

/-- The owner of a core in a cycle in which `ready` are ready: an ownership that passes, or whose holder does not run,
goes to the next ready context (R422). -/
def ownerNow (s : State) (core : Nat) (ready : List Nat) : Nat :=
  let k := coreOf s core
  if k.passing || (ctxOf s core k.owner).status != .running then (readyAfter k.owner ready).getD k.owner else k.owner

/-- Native mode's choice: the owner, else the first ready context after it (R422). -/
def chooseByOwner (s : State) (core : Nat) (ready : List Nat) : Option Nat :=
  let k := ownerNow s core ready
  if ready.contains k then some k else readyAfter k ready

/-- The context that a core's sequencer chooses of those that are ready (R421). -/
def chooseAmong (s : State) (core : Nat) (ready : List Nat) : Option Nat :=
  if roleMode s core then chooseByRole s core ready else chooseByOwner s core ready

/-- The context that a core's sequencer chooses (R421). -/
def chooseCtx (s : State) (core : Nat) : Option Nat := chooseAmong s core ((List.range 5).filter (isReady s core))

/-- What a core's contexts remember of an issue; `ready` were the other ready ones in its cycle (R423). -/
def noteIssue (s : State) (core ctx : Nat) (ready : List Nat) : State :=
  (List.range 5).foldl (fun s k =>
    if (Tbl.find (coreOf s core).ctxs k).isNone then s
    else if k = ctx then withCtx s core k (fun c => { c with waitCount := 0, lastIssue := some s.time })
    else withCtx s core k (fun c => { c with waitCount := if ready.contains k then c.waitCount + 1 else 0, swLast := false })) s

/-- The owner after an issue by `ctx`: `own` was the owner in its cycle. It passes ownership on when its bundle has SW or
`yld`, or when it runs no longer; the service context takes it after AGE cycles of being ready without issuing (R422,
R424). -/
def settleOwner (s : State) (core ctx own : Nat) (ready : List Nat) : State :=
  let x := ctxOf s core own
  let pass := x.status != .running || (own == ctx && (x.swLast || s.fly.yields))
  withCore s core (fun k =>
    let n := if ctx != 4 && ready.contains 4 then k.svcReady + 1 else 0
    if k.age.toNat ≤ n then { k with owner := 4, passing := false, svcReady := 0 }
    else { k with owner := own, passing := pass, svcReady := n })

/-- A cycle in which no context of a core issues, for none is ready: every wait count is zero, and no context ranks last
any more (R423). -/
def idleCycle (s : State) (core : Nat) : State :=
  withCore s core (fun k => { k with svcReady := 0, ctxs := k.ctxs.map (fun c =>
    (c.1, { c.2 with waitCount := 0, swLast := false })) })

/-- No context of a core is ready. -/
def coreIdle (s : State) (core : Nat) : Bool := (List.range 5).all (fun k => !isReady s core k)

/-- Cores other than the issuing one in which nothing is ready have a cycle without an issue. -/
def idleOthers (s : State) (core : Nat) : State :=
  (s.cores.map (·.1)).foldl (fun s n => if n != core && coreIdle s n then idleCycle s n else s) s

/-- The sequencer after an issue: the issue is remembered, ownership passes where R422 says, and the bundle is over. -/
def settleIssue (s : State) (core ctx own : Nat) (ready : List Nat) : State :=
  let s := settleOwner (noteIssue s core ctx ready) core ctx own ready
  replayPoints (idleOthers { s with fly := Fly.init } core) core ctx

/-- BUNDLE_ISSUE: a context's next bundle holds; or, when the core's sequencer chooses that context, it issues or traps (R123,
R129, R421). -/
def execBundleIssue (core ctx : Nat) (s : State) : Host.Outcome State Fault Refusal :=
  if mayIssue s core ctx then
    match issueAt s (beginBundle s core ctx) with
    | .held t => .next t
    | .went r =>
      let ready := (List.range 5).filter (fun k => k == ctx || isReady s core k)
      if chooseAmong s core ready != some ctx then .next s
      else
        match r with
        | .next t => .next (settleIssue t core ctx (ownerNow s core ready) (ready.filter (· != ctx)))
        | r => r
  else .next s

end Sys2Proof.Machine
end

