-- ==== Sys2Proof/Machine/Service.lean ====
section
/-! DEFINITION. Stops, handlers, the end of tasks, pre-emption, saves and restores (R62 to R66, R177, R360, R361,
R418, R419, R499 to R515). -/

namespace Sys2Proof.Machine

/-! ### Pending stops (R499, R514) -/

/-- The first stop of a context, in the order of R499, with the context after it is taken: a stop after execution, an
engine fault, UNCORRECTABLE, LATE. A save keeps LATE. -/
def nextStop (c : Ctx) : Option (TrapInfo × Ctx) :=
  match c.after, c.stops, c.unc, c.late with
  | t :: l, _, _, _ => some (t, { c with after := l })
  | [], t :: l, _, _ => some (t, { c with stops := l })
  | [], [], t :: l, _ => some (t, { c with unc := l })
  | [], [], [], t :: l => if c.status = .saving then none else some (t, { c with late := l })
  | [], [], [], [] => none

/-- Whether a context takes its pending stops now: it runs or waits after `done`; a context that waits for its save
takes an engine fault or UNCORRECTABLE first (R177, R514). -/
def takesStops (c : Ctx) : Bool :=
  match c.status with
  | .running => true
  | .finishing => true
  | .saving => c.stops != [] || c.unc != []
  | .returning _ => true
  | _ => false

/-- A save that has written nothing gives way to a stop; f15 stays and PREWAIT starts again (R514). The service context is
free again. -/
def dropSave (s : State) (core ctx : Nat) : State :=
  if (ctxOf s core ctx).status = .saving then
    let s := withCtx s core ctx (fun c => { c with toSave := none, preempt := some (s.time + s.prewait.toNat) })
    let s := withCore s core (fun k => { k with work := k.work.filter (fun w => w != .save ctx) })
    if (coreOf s core).service = some (.save ctx) then freeService s core else s
  else s

/-- PENDING_STOP: the next pending stop of a context is taken before its next bundle (R499). -/
def execPendingStop (core ctx : Nat) (s : State) : Host.Outcome State Fault Refusal :=
  let c := ctxOf s core ctx
  if takesStops c then
    match nextStop c with
    | none => .next s
    | some (t, c') =>
      let s := dropSave (setCtx s core ctx c') core ctx
      .next (takeTrap s core ctx t c.pc c.lastBundle (c.icount != 0 || c.lastBundle != c.pc))
  else .next s

/-! ### The work of the service context (R62, R503, R504) -/

/-- Slack table of the phase that a context's task runs: given entries, else 0x3FF (R47, R62). -/
def slackTable (p : BitVec 1024) : Tbl (BitVec 10) :=
  ((List.range 16).filter (fun n => p.getLsbD (12 + n))).map (fun n => (n, p.extractLsb' (608 + 10 * n) 10))

/-- The slack table that a context's task was bound with. -/
def taskSlack (s : State) (core ctx : Nat) : Tbl (BitVec 10) :=
  match (ctxOf s core ctx).task.bind (fun t => Tbl.find s.launches t.launch) with
  | some l => slackTable ((l.phases[l.phase]?).getD 0)
  | none => []

/-- The service context at the start of a piece of work for a task or launch (R62). -/
def serviceCtx (s : State) (core : Nat) (task : Option TaskRef) (asid : BitVec 16) (slk : Tbl (BitVec 10)) (entry : BitVec 56)
    (scalars : Tbl Word) : Ctx :=
  { Ctx.init with status := .running, task := task, asid := asid, pc := entry, lastBundle := entry, target := some .land,
                  scalars := scalars, slkt := slk, ctxid := ctxidOf s.device asid core 4, ibuf := s.mem
                  cseq := (ctxOf s core 4).cseq, lastIssue := (ctxOf s core 4).lastIssue }

/-- The service context of a core is free for new work (R447, R503). -/
def serviceFree (s : State) (core : Nat) : Bool := (coreOf s core).service.isNone

/-- The context that asked first; the lower number at a tie (R503). -/
def firstAsked (s : State) (core : Nat) : List Nat → Option Nat
  | [] => none
  | k :: l =>
    match firstAsked s core l with
    | none => some k
    | some j => if [(ctxOf s core j).asked, j] < [(ctxOf s core k).asked, k] then some j else some k

/-- The frozen context whose handler is next: handlers go ahead of saves and fills, the oldest first (R503). -/
def handlerWaiting (s : State) (core : Nat) : Option Nat :=
  firstAsked s core ((coreOf s core).work.filterMap (fun w => match w with | .handler k => some k | _ => none))

/-- Remove a piece of work from a core's list. -/
def takeWork (s : State) (core : Nat) (w : Service) : State :=
  withCore s core (fun k => { k with work := k.work.filter (fun x => x != w) })

/-- Start the handler of a frozen context: s1, s2 and s3 are set (R504). -/
def startHandler (s : State) (core k : Nat) (rcd : BitVec 512) : State :=
  let c := ctxOf s core k
  let scalars := [(1, BitVec.ofNat 64 (recordVa s core k)), (2, BitVec.ofNat 64 k), (3, (rcd.extractLsb' 24 8).setWidth 64)]
  let x := serviceCtx s core c.task c.asid (taskSlack s core k) (s.hvec.setWidth 56) scalars
  let s := takeWork s core (.handler k)
  withCore s core (fun x' => { x' with service := some (.handler k), ctxs := Tbl.put x'.ctxs 4 x })

/-- HANDLER_START: once the frozen context's direct accesses have performed, its record is written and the handler starts
(R360, R502 to R504). A record that cannot be written ends the launch. -/
def execHandlerStart (core : Nat) (s : State) : Host.Outcome State Fault Refusal :=
  if !serviceFree s core then .next s
  else
    match handlerWaiting s core with
    | none => .next s
    | some k =>
      match (ctxOf s core k).record with
      | none => .next s
      | some rcd =>
        if !drained s core k s.nextReq then .next s
        else
          match writeRecord s core k rcd with
          | .ok s => .next (startHandler s core k rcd)
          | .error e => .next (faultLaunch (takeWork s core (.handler k)) core k e.cause)

/-! ### The end of a task or handler (R177, R178, R236, R317, R505) -/

/-- A context without a task, keeping what the sequencer remembers of it across binds (R423). -/
def freeCtx (s : State) (core ctx : Nat) : State :=
  withCtx s core ctx (fun c => { Ctx.init with lastIssue := c.lastIssue, waitCount := 0 })

/-- A task completes: the scheduler counts it for its cluster (R408, R416). -/
def countTask (s : State) (lid n cluster : Nat) : State :=
  match Tbl.find s.launches lid with
  | none => s
  | some l =>
    match l.tasks[n]? with
    | none => s
    | some t =>
      let l := { l with
        tasks := l.tasks.set n { t with status := .finished, image := none }
        doneTasks := if t.comm then l.doneTasks else Tbl.put l.doneTasks cluster (Tbl.look 0 l.doneTasks cluster + 1)
        computeTicks := if t.comm then l.computeTicks else Tbl.put l.computeTicks cluster (s.time - l.tsStep) }
      { s with launches := Tbl.put s.launches lid l }

/-- Every operation of a context has written its token and every access of it has performed (R63, R177, R361). -/
def settled (s : State) (core ctx : Nat) : Bool :=
  (outstanding s core ctx).isEmpty && !(s.reqs.any (fun r => r.core == core && r.ctx == ctx))

/-- A handler that ended by `done` or `halt` ends its task and the launch (R505). -/
def endHandler (s : State) (core k : Nat) (code : Option (BitVec 16)) : State :=
  let s := releaseTask (cancelSuspended s core k) core k
  let cause := match (ctxOf s core k).record with | some r => (r.extractLsb' 24 8).toNat | none => 0
  let s := match code with
    | none => faultLaunch s core k cause
    | some n =>
      match (ctxOf s core k).task with
      | some t => endLaunchBy s t.launch { status := 1, code := n, cause := 0 } (ctxidPlace core k)
      | none => s
  freeService s core

/-- TASK_COMPLETE: after `done`, once its commands and accesses are over, a task reports completion, and a handler ends
its task with a fault (R177, R505); a handler's `halt` ends its task whatever of its commands still runs (R178, R505). Rows
appended to an out-stream that is still bound and not yet written go with the context: completion waits for commands and
accesses, and the manual does not count an undrained row among them (DESIGN CHOICE, Assumption 99). -/
def execTaskComplete (core ctx : Nat) (s : State) : Host.Outcome State Fault Refusal :=
  let c := ctxOf s core ctx
  let ends := settled s core ctx && stopCount c == 0
  if ctx = 4 then
    match (coreOf s core).service, c.status with
    | some (.handler k), .finishing => .next (if ends then endHandler s core k none else s)
    | some (.handler k), .halted n => .next (endHandler s core k (some n))
    | _, _ => .next s
  else if !ends then .next s
  else
    match c.status, c.task with
    | .finishing, some t =>
      let s := releaseTask s core ctx
      .next (freeCtx (countTask s t.launch t.task (clusterOf core)) core ctx)
    | _, _ => .next s

/-! ### Which tasks may be restored (R317, R419, R433) -/

/-- Whether a saved task may be restored in a context of a core. -/
def mayRestore (s : State) (core ctx : Nat) (t : Task) : Bool :=
  match t.status with
  | .saved c0 k0 =>
    k0 == ctx && clusterOf c0 == clusterOf core &&
      (c0 == core || (!t.home && !(Tbl.look Cluster.init s.clusters (clusterOf core)).used)) &&
      (match t.image with
       | some im => im.merge.isNone || ((coreOf s core).merge.owner.isNone && !outQueued s.ops core)
       | none => false)
  | _ => false

/-- The first task that a free context may take up again: launch and number. -/
def restorable (s : State) (core ctx : Nat) : Option (Nat × Launch × Nat × Task) :=
  s.launches.findSome? (fun p =>
    if p.2.status = .running then
      (p.2.tasks.zipIdx.find? (fun t => mayRestore s core ctx t.1)).map (fun t => (p.1, p.2, t.2, t.1))
    else none)

/-- A restore that has asked for the service context still waits for it: its context is free, its core not held, and a task may
be restored there (R419, R503). -/
def restoreWaits (s : State) (core ctx : Nat) : Bool :=
  decide ((ctxOf s core ctx).status = .free ∧ ctx < 4 ∧ core < Config.numCores) && !(coreOf s core).held &&
    (restorable s core ctx).isSome

/-- The context whose save or restore is next: the oldest, the lower number at a tie (R503). -/
def sequenceWaiting (s : State) (core : Nat) : Option Nat :=
  firstAsked s core ((coreOf s core).work.filterMap (fun w =>
    match w with
    | .save k => some k
    | .restore k => if restoreWaits s core k then some k else none
    | _ => none))

/-- The service context may take up a save or restore of a context now (R503). -/
def sequenceNow (s : State) (core ctx : Nat) : Bool :=
  serviceFree s core && (handlerWaiting s core).isNone && sequenceWaiting s core == some ctx

/-! ### Saves (R61 to R66, R361, R512 to R515) -/

/-- PREWAIT_EXPIRY: f15 has been set for PREWAIT ticks without a `pre.pt`: the context is stopped for a full save (R512). -/
def execPrewaitExpiry (core ctx : Nat) (s : State) : Host.Outcome State Fault Refusal :=
  let c := ctxOf s core ctx
  match c.preempt with
  | some d =>
    if c.status = .running ∧ c.flags.getLsbD 15 ∧ ctx < 4 ∧ d ≤ s.time then
      let t := beginSave s core ctx none
      .next (if (ctxOf t core ctx).status = .saving then logAt t core ctx 0x0A 0 1 0 [] else t)
    else .next s
  | none => .next s

/-- Entries of a table whose number a mask names. -/
def keepBits {α : Type} (m : Nat) (t : Tbl α) : Tbl α := t.filter (fun e => m.testBit e.1)

/-- What a save keeps of a context's registers (R64, R65, R512): everything for a full save, else what the record names
beside the fixed part. Row masks that are left out read zero after the restore. -/
def savedCtx (c : Ctx) (r : Option Liveness) : Ctx :=
  let base := { c with
    flags := c.flags &&& 0x3FFF, icount := 0, cseq := 0, pend := [], rules := [], liveRec := none, toSave := none
    preempt := none, ibuf := [], record := none, quiet := 0, tollWant := 0, tollHave := 0 }
  match r with
  | none => base
  | some r => { base with
      scalars := c.scalars.filter (fun e => r.smask.getLsbD e.1 || c.named.contains e.1)
      masks := (List.range 8).map (fun p => (p, if r.pmask.getLsbD p then maskOf c p else 0))
      streams := keepBits r.qmask.toNat c.streams }

/-- The image of a context that is saved (R64, R317). -/
def imageOf (s : State) (core ctx : Nat) (named : Option Word) : Image :=
  let c := ctxOf s core ctx
  let k := coreOf s core
  let rec_ := named.bind (livenessAt s core ctx)
  let remembered := c.liveRec.bind (livenessAt s core ctx)
  let window := (List.range c.wsize).filter (fun i => match rec_ with | some r => r.tmask.getLsbD i | none => true)
  let ranges := match rec_ with
    | some r => r.ranges
    | none => match remembered with | some r => r.ranges | none => []
  { ctx := savedCtx c rec_, full := rec_.isNone
    tiles := window.map (fun i => (i, tileOf k (c.wbase + i)))
    spm := ranges.map (fun r => (r.1, spmRead s core r.1 r.2))
    merge := if k.merge.owner = some ctx then some k.merge else none }

/-- The service context is held by the save of a context, or takes it next (R503, R515). -/
def savesNow (s : State) (core ctx : Nat) : Bool :=
  (coreOf s core).service == some (.save ctx) || sequenceNow s core ctx

/-- Put the image in the task's place and free the context. -/
def storeImage (s : State) (core ctx : Nat) (r : TaskRef) (im : Image) : State :=
  match Tbl.find s.launches r.launch with
  | none => s
  | some l =>
    match l.tasks[r.task]? with
    | none => s
    | some t =>
      let t := { t with status := .saved core ctx, image := some im }
      freeCtx { s with launches := Tbl.put s.launches r.launch { l with tasks := l.tasks.set r.task t } } core ctx

/-- Slack table of the phase that a launch is in (R62). -/
def launchSlack (s : State) (lid : Nat) : Tbl (BitVec 10) :=
  match Tbl.find s.launches lid with
  | some l => slackTable ((l.phases[l.phase]?).getD 0)
  | none => []

/-- A save or restore of a task holds the service context from here on, with the register values of a piece of its work; a
fault of it is that task's (R62, R506, R515). -/
def holdService (s : State) (core : Nat) (w : Service) (r : TaskRef) (asid : BitVec 16) : State :=
  let x := { serviceCtx s core (some r) asid (launchSlack s r.launch) 0 [] with status := .free, target := none }
  withCore (takeWork s core w) core (fun k => { k with service := some w, ctxs := Tbl.put k.ctxs 4 x })

/-- SAVE_SEQUENCE: the service context takes up the save of a stopped context; once the context's commands, accesses and
fetches are over it is saved and freed (R63, R361, R515). -/
def execSaveSequence (core ctx : Nat) (s : State) : Host.Outcome State Fault Refusal :=
  let c := ctxOf s core ctx
  match c.status, c.toSave, c.task with
  | .saving, some named, some r =>
    if c.stops != [] || c.unc != [] || !savesNow s core ctx then .next s
    else if !settled s core ctx then .next (holdService s core (.save ctx) r c.asid)
    else
      let s := settleArrivals (flush s core ctx) core ctx
      let s := cancelToll s core ctx
      let im := imageOf s core ctx named
      let s := takeWork s core (.save ctx)
      let s := if (coreOf s core).service.isSome then freeService s core else s
      let s := withCore s core (fun k => { k with merge := if k.merge.owner = some ctx then MergeBuf.init else k.merge })
      let s := traceEvent s core 6 ctx 0xFF (c.pc.setWidth 64)
      .next (storeImage s core ctx r im)
  | _, _, _ => .next s

/-! ### Restores (R65, R515) -/

/-- The window's tile registers after a restore (R36, R65). -/
def restoreTiles (k : CoreSt) (base size : Nat) (saved : List (Nat × Tile)) : Tbl Tile :=
  let cleared := (List.range size).foldl (fun t i => Tbl.put t (base + i) Tile.init) k.tiles
  saved.foldl (fun t e => Tbl.put t (base + e.1) e.2) cleared

/-- The pin windows of a saved task change their owner to the context that restores it (R65). -/
def moveOwner (s : State) (r : TaskRef) (new : Nat × Nat) : State :=
  { s with pins := s.pins.map (fun p => if pinOf p.2 r then (p.1, { p.2 with owner := some new }) else p) }

/-- MiB charged to the windows that a task holds (R65). -/
def chargedMib (s : State) (r : TaskRef) : Nat :=
  (s.pins.filter (fun p => pinOf p.2 r)).foldl (fun n p => n + p.2.usedMib) 0

/-- A restored stream: it keeps its binding state; its number names no command since the restore, and none that follows has it
(R228, R507; Assumption 120). -/
def rebound (q : Nat × Stream) : Nat × Stream := (q.1, { q.2 with seq := 2 ^ 32 + q.1 })

/-- The context of a restored task (R65). -/
def restoredCtx (s : State) (core ctx : Nat) (l : Launch) (r : TaskRef) (im : Image) : Ctx :=
  { im.ctx with
    status := if im.ctx.ended then .finishing else .running, task := some r
    ctxid := ctxidOf (im.ctx.ctxid.extractLsb' 32 10) im.ctx.asid core ctx
    pinCap := l.header.extractLsb' 432 16, pinUsed := BitVec.ofNat 16 (chargedMib s r)
    streams := im.ctx.streams.map rebound
    ibuf := s.mem, lastIssue := (ctxOf s core ctx).lastIssue, waitCount := 0, swLast := false }

/-- A replayed launch restores on the core that its log names next (R521, type 11). -/
def restoreHeld (s : State) (lid core : Nat) : Bool :=
  replays s lid && (match nextRecord s (fun x => x.typ == 11) with | some x => x.key.toNat != core | none => false)

/-- A restore has followed its record. -/
def followRestore (s : State) (lid : Nat) : State :=
  if replays s lid then (match nextRecord s (fun x => x.typ == 11) with | some x => followRecord s x | none => s) else s

/-- A restore asks for the service context: it queues for it (R503). -/
def askRestore (s : State) (core ctx : Nat) : State :=
  withCtx (withCore s core (fun k => { k with work := k.work ++ [.restore ctx] })) core ctx (fun c => { c with asked := s.time })

/-- The service context of a core may take up the restore of a context now: the restore has asked, and nothing goes ahead of it
(R503). -/
def restoreStarts (s : State) (core ctx : Nat) : Bool :=
  (coreOf s core).work.contains (.restore ctx) && restoreWaits s core ctx && sequenceNow s core ctx

/-- RESTORE: the restore of a saved task in a free context asks for the service context, which takes it up in its turn and then
carries it out (R65, R419, R503, R515). One that is no longer called for asks no more. -/
def execRestore (core ctx : Nat) (s : State) : Host.Outcome State Fault Refusal :=
  if (coreOf s core).service ≠ some (.restore ctx) then
    if !restoreWaits s core ctx then .next (takeWork s core (.restore ctx))
    else
      match restorable s core ctx with
      | some (lid, l, n, _) =>
        if restoreHeld s lid core then .next s
        else if !(coreOf s core).work.contains (.restore ctx) then .next (askRestore s core ctx)
        else if restoreStarts s core ctx
        then .next (holdService s core (.restore ctx) { launch := lid, task := n } l.asid) else .next s
      | none => .next s
  else
    let s := freeService s core
    match restorable s core ctx with
    | none => .next s
    | some (lid, l, n, t) =>
      if restoreHeld s lid core then .next s
      else match t.status, t.image with
      | .saved _ _, some im =>
        let s := moveOwner s { launch := lid, task := n } (core, ctx)
        let c := restoredCtx s core ctx l { launch := lid, task := n } im
        let s := withCore s core (fun k =>
          { k with ctxs := Tbl.put k.ctxs ctx c, tiles := restoreTiles k c.wbase c.wsize im.tiles
                   merge := match im.merge with | some m => { m with owner := some ctx } | none => k.merge })
        let s := im.spm.foldl (fun s r => spmWrite s core r.1 r.2) s
        let t := { t with status := .bound core ctx, image := none, home := false }
        let s := { s with launches := Tbl.put s.launches lid { l with tasks := l.tasks.set n t } }
        let s := logAt (followRestore s lid) core ctx 0x0B (BitVec.ofNat 64 core) 0 0 []
        .next (replayPoints (replaySeed (logAt s core ctx 3 (c.seed.setWidth 64) 0 0 []) core ctx) core ctx)
      | _, _ => .next s

end Sys2Proof.Machine
end

