-- ==== Sys2Proof/Machine/Fill.lean ====
section
/-! DEFINITION. The fill engine: dispatch of fill tasks, and how a fill settles or fails (R439, R444 to R451). -/

namespace Sys2Proof.Machine

/-- Cores of a launch's partition, lowest first (R399). -/
def partitionCores (l : Launch) : List Nat :=
  (List.range Config.numCores).filter (fun n => l.header.getLsbD (332 + clusterOf n))

/-- Service contexts in the order in which the fill engine prefers them (R447). -/
def fillOrder (s : State) (f : FillReq) : List Nat :=
  let cluster := (coresOfCluster (clusterOf f.core)).filter (· ≠ f.core)
  let rest := match Tbl.find s.launches f.launch with
    | some l => (partitionCores l).filter (fun n => clusterOf n ≠ clusterOf f.core)
    | none => []
  f.core :: cluster ++ rest

/-- A core's service context takes a dispatched fill: it is free and nothing of R503 waits for it first. -/
def takesFill (s : State) (core : Nat) : Bool := serviceFree s core && (coreOf s core).work.isEmpty

/-- Scalars of a fill task (R448). -/
def fillScalars (f : FillReq) : Tbl Word :=
  let d := kvDescOf f.desc
  [(1, d.fkarg), (2, BitVec.ofNat 64 (f.layer * 2 ^ 32 + f.slot)), (3, BitVec.ofNat 64 (d.esbase + f.slot * d.esstride)),
   (4, f.descVa), (5, BitVec.ofNat 64 (slotRecord d f.layer f.slot))]

/-- Log of a dispatch (R521, type 8). -/
def logDispatch (s : State) (f : FillReq) : State :=
  match s.rlog with
  | none => s
  | some l => logAny { s with rlog := some { l with dispatches := l.dispatches + 1 } } 8 (BitVec.ofNat 64 (f.key / 4)) 0
      l.dispatches f.core []

/-- The record of the next dispatch of a replayed launch (R521, type 8). -/
def fillRecord (s : State) (lid : Nat) : Option LogRec :=
  if replays s lid then nextRecord s (fun x => x.typ == 8) else none

/-- The fill that a die's engine dispatches next: its oldest queued one, or the logged one of a replay (R447, R523). -/
def nextFill (s : State) (die : Nat) : Option FillReq :=
  (dieAt s die).fills.find? (fun f => f.running.isNone &&
    (match fillRecord s f.launch with | some x => x.key.toNat == f.key / 4 | none => true))

/-- The core whose service context takes a fill. -/
def fillCore (s : State) (f : FillReq) : Option Nat :=
  match fillRecord s f.launch with
  | some x => if takesFill s x.unit then some x.unit else none
  | none => (fillOrder s f).find? (takesFill s)

/-- A dispatch has followed its record. -/
def followFill (s : State) (f : FillReq) : State :=
  match fillRecord s f.launch with
  | some x => followRecord s x
  | none => s

/-- FILL_DISPATCH: the oldest queued entry of a die's engine starts as a fill task on the first free service context (R447,
R448). -/
def execFillDispatch (die : Nat) (s : State) : Host.Outcome State Fault Refusal :=
  match nextFill s die with
  | none => .next s
  | some f =>
    match fillCore s f with
    | none => .next s
    | some n =>
      let c := serviceCtx s n (some { launch := f.launch, task := 0 }) f.asid (launchSlack s f.launch)
        (BitVec.ofNat 56 (kvDescOf f.desc).fkentry) (fillScalars f)
      let s := logDispatch (followFill s f) f
      let s := withCore s n (fun k => { k with service := some (.fill f.id), ctxs := Tbl.put k.ctxs 4 c })
      .next (withDie s die (fun d =>
        { d with fills := d.fills.map (fun x => if x.id = f.id then { x with running := some n } else x) }))

/-- Remove an entry of an engine. -/
def dropEntry (s : State) (die : Nat) (f : FillReq) : State :=
  withDie s die (fun d => { d with fills := d.fills.filter (fun x => x.id != f.id) })

/-- A waiting command no longer waits for a pair. -/
def stopWaiting (s : State) (key : Nat) (w : Nat × Nat × Nat) : State :=
  match findOp s w.1 w.2.1 w.2.2 with
  | some o => updateOp s { o with waits := o.waits.filter (· ≠ key) }
  | none => s

/-- A fill succeeds: the pair becomes PRESENT and every waiter goes on (R439, R450). -/
def settleFill (s : State) (die : Nat) (f : FillReq) : State :=
  f.waiters.foldl (fun s w => stopWaiting s f.key w.1) (changeCode (dropEntry s die f) f.key 3 1)

/-- Address of the descriptor that a checking command names (R251). -/
def descriptorOf (o : Op) : Word :=
  match o.instr with
  | .cpKvchk .. => o.c
  | _ => o.a

/-- A waiter of a failed fill ends with KV_FILL and its own layer and slot; a command that has ended meanwhile waits no more
(R445, R450). -/
def failWaiter (s : State) (f : FillReq) (w : (Nat × Nat × Nat) × Nat) : State :=
  match findOp s w.1.1 w.1.2.1 w.1.2.2 with
  | some o => if o.waits.contains f.key then failOp s o causeKv (descriptorOf o) (BitVec.ofNat 64 w.2) 0 else s
  | none => s

/-- A fill fails or is cancelled: the pair goes back to GAP and every waiter ends (R439, R450, R451). -/
def revertFill (s : State) (die : Nat) (f : FillReq) : State :=
  f.waiters.foldl (fun s w => failWaiter s f w) (changeCode (dropEntry s die f) f.key 3 2)

/-- FILL_SETTLE: a fill task ended by `done` and its writes have performed (R177, R450). -/
def execFillSettle (core : Nat) (s : State) : Host.Outcome State Fault Refusal :=
  match runningFill s core with
  | some (die, f) =>
    if (ctxOf s core 4).status = .finishing ∧ settled s core 4 ∧ stopCount (ctxOf s core 4) = 0
    then .next (freeService (settleFill s die f) core) else .next s
  | none => .next s

/-- A fill task has ended other than by `done`: it trapped or executed `halt`. -/
def fillFailed (c : Ctx) : Bool :=
  match c.status with
  | .frozen => true
  | .halted _ => true
  | _ => false

/-- FILL_FAIL: a fill task trapped or halted; the pair goes back to GAP (R450, R506). Its suspended commands are cancelled
and the others end first. -/
def execFillFail (core : Nat) (s : State) : Host.Outcome State Fault Refusal :=
  match runningFill s core with
  | some (die, f) =>
    if fillFailed (ctxOf s core 4) then
      let s := cancelSuspended s core 4
      if settled s core 4 then .next (freeService (revertFill s die f) core) else .next s
    else .next s
  | none => .next s

/-- The end of a launch cancels its queued entries; running fills finish (R451). -/
def cancelFills (s : State) (lid : Nat) : State :=
  (List.range 2).foldl (fun s die =>
    ((dieAt s die).fills.filter (fun f => f.launch == lid && f.running.isNone)).foldl (fun s f => revertFill s die f) s) s

/-- Some fill of a launch is still running. -/
def fillsRun (s : State) (lid : Nat) : Bool :=
  (List.range 2).any (fun die => (dieAt s die).fills.any (fun f => f.launch == lid))

end Sys2Proof.Machine
end

