-- ==== Sys2Proof/Machine/Entry.lean ====
section
/-! DEFINITION. Launch queues and the validation of launch records (R393 to R403, R405). -/

namespace Sys2Proof.Machine

/-! ### The management processor's accesses to tenant memory -/

/-- Translate under a tenant's ASID and check that the bytes can be reached: the cause where they cannot. -/
def tenantSpan (s : State) (asid : BitVec 16) (va n : Nat) (need : List Nat) : Except Nat (List Nat) :=
  match translateSpan s [] asid va n need with
  | .error e => .error e.cause
  | .ok pas =>
    match pas.foldlM (fun (_ : Unit) a => outsideCheck s a) () with
    | .error _ => .error causeUnc
    | .ok () =>
      match resolveSpan s need pas with
      | .ok l => .ok l
      | .error e => .error e.cause

/-- Endpoint of the management processor (R462). -/
def mgmtEndpoint : Nat := 228

/-- The packets of the management processor's access, and of the walks that it takes, carry the NETSLK of its unit, and their
lines are touched as their range's class says (R371, R384, R389, R468). -/
def tenantReach (s : State) (asid : BitVec 16) (va : Nat) (wr : Bool) (pas : List Nat) : State :=
  let s := (pieces (pas.length / 4096 + 2) va pas.length).foldl (fun s p =>
    (walkReads s asid (p.1 / 4096)).foldl (fun s a =>
      sendUnitAccess (touchLines s [a.1] (walkHint s asid (p.1 / 4096)) false) mgmtEndpoint false (endpointOf s 0 a.1) a.1 a.2) s) s
  let s := (insideChunks s pas).foldl (fun s c =>
    sendUnitAccess s mgmtEndpoint wr (endpointOf s 0 (c.headD 0)) (c.headD 0) c.length) s
  touchMapped s [] asid wr (mapped va pas)

/-- Read bytes of a tenant; gated units wake first (R380). -/
def tenantRead (s : State) (asid : BitVec 16) (va n : Nat) : Except Nat (List Byte × State) := do
  let pas ← tenantSpan s asid va n [permRd]
  .ok (readPas (tenantReach (wakePas s pas) asid va false pas) pas)

/-- Write bytes of a tenant; `note` names the completion record that they are (R398). -/
def tenantWrite (s : State) (asid : BitVec 16) (va : Nat) (b : List Byte) (note : Option (Nat × Nat × BitVec 256)) :
    Except Nat State := do
  let pas ← tenantSpan s asid va b.length [permWr]
  let cells := pas.zip b
  let s := homeWrite (wakePas s pas) (cells.filter (fun c => !isOutside s c.1))
  .ok ((runsOf (cells.filter (fun c => isOutside s c.1))).foldl (writeOut note) (tenantReach s asid va true pas))

/-! ### Queue descriptors (R393) -/

def queueOf (s : State) (q : Nat) : Queue := Tbl.look Queue.init s.queues q

def setQueue (s : State) (q : Nat) (x : Queue) : State := { s with queues := Tbl.put s.queues q x }

def qValid (d : BitVec 192) : Bool := d.getLsbD 0
def qLog2 (d : BitVec 192) : Nat := (d.extractLsb' 4 4).toNat
def qAsid (d : BitVec 192) : BitVec 16 := d.extractLsb' 32 16
def qDoorbell (d : BitVec 192) : Nat := (d.extractLsb' 80 56).toNat
def qRing (d : BitVec 192) : Nat := (d.extractLsb' 136 56).toNat

/-- The doorbell pair can be read and written (R395). -/
def doorbellUsable (s : State) (d : BitVec 192) : Bool :=
  match tenantSpan s (qAsid d) (qDoorbell d) 16 [permRd, permWr] with
  | .ok _ => true
  | .error _ => false

/-- DOORBELL_WRITE: the producer index at a queue's doorbell is taken over (R394, R395). -/
def execDoorbellWrite (queue : Nat) (s : State) : Host.Outcome State Fault Refusal :=
  let q := queueOf s queue
  if 16 ≤ queue ∨ !qValid q.desc ∨ s.bringup ≠ .operational then .next s
  else if !doorbellUsable s q.desc then .next (logEvent s (.doorbellFailed queue))
  else
    match tenantRead s (qAsid q.desc) (qDoorbell q.desc) 8 with
    | .error _ => .next (logEvent s (.doorbellFailed queue))
    | .ok (b, s) =>
      let p := ofBytes b
      if p < q.consumer ∨ q.consumer + 2 ^ qLog2 q.desc < p then .next (logEvent s (.badProducer queue))
      else .next (setQueue s queue { q with producer := p })

/-! ### Fields of a launch (R396, R399 to R401) -/

def lDevCoord (e : BitVec 256) : Nat := (e.extractLsb' 118 10).toNat
def lDevCnt (h : BitVec 512) : Nat := (h.extractLsb' 366 10).toNat
def lPart (h : BitVec 512) : BitVec 16 := h.extractLsb' 332 16
def lNph (h : BitVec 512) : Nat := (h.extractLsb' 303 7).toNat
def lNlev (h : BitVec 512) : Nat := (h.extractLsb' 299 4).toNat
def lLoopst (h : BitVec 512) : Nat := (h.extractLsb' 310 6).toNat
def lIter (h : BitVec 512) : Nat := max 1 (h.extractLsb' 316 16).toNat
def lSelva (h : BitVec 512) : Nat := (h.extractLsb' 456 56).toNat
def lWinBase (h : BitVec 512) (n : Nat) : Nat := (h.extractLsb' (376 + 12 * n) 6).toNat
def lWinSize (h : BitVec 512) (n : Nat) : Nat := (h.extractLsb' (382 + 12 * n) 6).toNat
def lRole (h : BitVec 512) (n : Nat) : Nat := (h.extractLsb' (424 + 2 * n) 2).toNat

def levExtent (w : Word) : Nat := (w.extractLsb' 0 32).toNat
def levScope (w : Word) : Nat := (w.extractLsb' 32 3).toNat
def levDomain (w : Word) : Nat := (w.extractLsb' 35 3).toNat

def phEntry (p : BitVec 1024) : BitVec 56 := p.extractLsb' 272 56
def phCentry (p : BitVec 1024) : BitVec 56 := p.extractLsb' 328 56
def phArg (p : BitVec 1024) : Word := p.extractLsb' 384 64
def phWindow (p : BitVec 1024) : Nat := (p.extractLsb' 448 32).toNat
def phMaxrec (p : BitVec 1024) : Nat := (p.extractLsb' 480 16).toNat
def phCntva (p : BitVec 1024) : Nat := (p.extractLsb' 496 56).toNat
def phRecva (p : BitVec 1024) : Nat := (p.extractLsb' 552 56).toNat
def phCtxm (p : BitVec 1024) : BitVec 4 := p.extractLsb' 8 4
def phNsched (p : BitVec 1024) : Nat := (p.extractLsb' 5 3).toNat
def phRagged (p : BitVec 1024) : Bool := p.getLsbD 4

/-- Weight of cluster `c` in schedule `k` (R401, R406). -/
def phWeight (part : BitVec 16) (p : BitVec 1024) (k c : Nat) : Nat :=
  if phNsched p = 0 then (if part.getLsbD c then 1 else 0) else (p.extractLsb' (768 + 64 * k + 4 * c) 4).toNat

/-- Clusters of a partition. -/
def partClusters (part : BitVec 16) : List Nat := (List.range 16).filter (fun c => part.getLsbD c)

/-! ### The checks of R403 -/

/-- A launch record as read. -/
structure Record where
  header : BitVec 512
  levels : List Word
  phases : List (BitVec 1024)
deriving DecidableEq, Repr

/-- Check 1: the record lies aligned, can be read, and has the length and version it says. -/
def readRecordAt (s : State) (asid : BitVec 16) (e : BitVec 256) : Option (Record × State) :=
  let va := (e.extractLsb' 200 56).toNat
  if va % 64 ≠ 0 then none
  else
    match tenantRead s asid va 128 with
    | .error _ => none
    | .ok (b, s) =>
      let h := BitVec.ofNat 512 (ofBytes (b.take 64))
      let n := lNph h
      if (e.extractLsb' 64 32).toNat ≠ 128 + 128 * n ∨ h.extractLsb' 0 8 ≠ 1 then none
      else
        match tenantRead s asid (va + 128) (128 * n) with
        | .error _ => none
        | .ok (p, s) =>
          some ({ header := h, levels := (List.range 8).map (fun i => wordAt (b.drop 64) i)
                  phases := (List.range n).map (fun i => BitVec.ofNat 1024 (ofBytes ((p.drop (128 * i)).take 128))) }, s)

/-- Levels that the record declares. -/
def Record.declared (r : Record) : List Word := r.levels.take (lNlev r.header)

/-- Check 2. -/
def countsOk (r : Record) : Bool :=
  let h := r.header
  decide (1 ≤ lNlev h ∧ lNlev h ≤ 8 ∧ 1 ≤ lNph h ∧ lNph h ≤ 64 ∧ lLoopst h < lNph h) &&
    r.phases.all (fun p => decide (phNsched p ≤ 4) && p.extractLsb' 28 244 == 0 && p.extractLsb' 0 4 == 0) &&
    h.extractLsb' 448 8 == 0 && h.extractLsb' 8 291 == 0 && r.declared.all (fun w => w.extractLsb' 38 26 == 0)

/-- Check 3: the windows (R33). -/
def windowsOk (h : BitVec 512) : Bool :=
  let ws := (List.range 4).filter (fun n => 0 < lWinSize h n)
  ws.all (fun n => decide (lWinBase h n + lWinSize h n ≤ 60)) &&
    decide ((ws.map (lWinSize h)).foldl (· + ·) 0 ≤ 60) &&
    ws.all (fun a => ws.all (fun b => a == b || decide (lWinBase h a + lWinSize h a ≤ lWinBase h b ∨
      lWinBase h b + lWinSize h b ≤ lWinBase h a)))

/-- Check 4. -/
def partOk (h : BitVec 512) (e : BitVec 256) : Bool := lPart h != 0 && decide (lDevCoord e ≤ lDevCnt h)

/-- The narrowest scope of a level's domain: device, die, cluster, core, ctx and ctx (R405). -/
def domainScope (d : Nat) : Nat := 4 - min d 4

/-- Clusters of a partition on a die. -/
def onDie (part : BitVec 16) (die : Nat) : List Nat := (partClusters part).filter (fun c => c / 8 == die)

/-- Every level by itself (R405). -/
def levelOk (h : BitVec 512) (w : Word) : Bool :=
  let d := levDomain w
  decide (1 ≤ levExtent w ∧ d ≤ 5 ∧ levScope w ≠ 7 ∧ domainScope d ≤ levScope w) &&
    (d != 0 || levExtent w == lDevCnt h + 1) &&
    (d != 1 || levExtent w == 1 || (levExtent w == 2 && onDie (lPart h) 0 != [] && onDie (lPart h) 1 != []))

/-- Two levels, the outer first: the domains do not widen, and DEVICE, DIE and CONTEXT do not repeat (R405). -/
def levelOrder (a b : Word) : Bool :=
  decide (levDomain a ≤ levDomain b) && !(levDomain a == levDomain b && (levDomain a == 0 || levDomain a == 1 || levDomain a == 4))

/-- Neighbouring levels are in order. -/
def levelsOrdered : List Word → Bool
  | a :: b :: l => levelOrder a b && levelsOrdered (b :: l)
  | _ => true

/-- Check 5: every level meets R405. -/
def levelsOk (r : Record) : Bool := r.declared.all (levelOk r.header) && levelsOrdered r.declared

/-- Extent of the level bound to DIE, if one is. -/
def dieExtent (r : Record) : Option Nat := (r.declared.find? (fun w => levDomain w == 1)).map levExtent

/-- A schedule's weights (R403, check 6). -/
def scheduleOk (r : Record) (p : BitVec 1024) (k : Nat) : Bool :=
  let part := lPart r.header
  let w := phWeight part p k
  (List.range 16).all (fun c => part.getLsbD c || w c == 0) && (partClusters part).any (fun c => w c != 0) &&
    (match dieExtent r with
     | some 2 => (onDie part 0).any (fun c => w c != 0) && (onDie part 1).any (fun c => w c != 0)
     | some _ => (onDie part 0).any (fun c => w c != 0)
     | none => true)

/-- Check 6: the entries, contexts and schedules of the phases. -/
def phasesOk (r : Record) : Bool :=
  r.phases.all (fun p =>
    (phEntry p).extractLsb' 0 3 == 0 && (phCentry p).extractLsb' 0 3 == 0 && phCtxm p != 0 &&
      (List.range (phNsched p)).all (scheduleOk r p)) &&
    (match dieExtent r with | some 1 => onDie (lPart r.header) 0 != [] | _ => true)

/-- Check 7: the fields of ragged phases. -/
def raggedOk (r : Record) : Bool :=
  r.phases.all (fun p =>
    if phRagged p then decide (phRecva p % 16 = 0 ∧ phCntva p % 4 = 0 ∧ 1 ≤ phMaxrec p)
    else decide (phRecva p = 0 ∧ phCntva p = 0 ∧ phMaxrec p = 0))

/-- Bytes of the selector area (R410). -/
def selBytes : Nat := 16384

/-- Check 8: the selector area. -/
def selectorOk (s : State) (asid : BitVec 16) (h : BitVec 512) : Bool :=
  lSelva h == 0 || (match tenantSpan s asid (lSelva h) selBytes [permRd, permWr] with | .ok _ => true | .error _ => false)

/-- The number of the first check that fails (R403). -/
def failingCheck (s : State) (asid : BitVec 16) (e : BitVec 256) (r : Record) : Option Nat :=
  if !countsOk r then some 2
  else if !windowsOk r.header then some 3
  else if !partOk r.header e then some 4
  else if !levelsOk r then some 5
  else if !phasesOk r then some 6
  else if !raggedOk r then some 7
  else if !selectorOk s asid r.header then some 8
  else none

/-! ### Validation (R395, R397, R403) -/

/-- A launch read from entry `i` of a queue. -/
def newLaunch (queue i : Nat) (e : BitVec 256) (asid : BitVec 16) (r : Record) (st : LaunchStatus) : Launch :=
  { queue := queue, index := i, entry := e, asid := asid, header := r.header, levels := r.levels, phases := r.phases,
    status := st, pass := 0, phase := 0, execs := 0, stage := .idle, tasks := [], started := false, tsStart := 0, bound := false, tsStep := 0,
    computeTicks := [], doneTasks := [], sched := 0, sel := [], ovr := 0, susp := none, endedBy := none, bindSeq := 0 }

/-- A record whose first check fails has no contents to keep. -/
def noRecord : Record := { header := 0, levels := [], phases := [] }

/-- The launch of an entry, validated. -/
def validated (s : State) (queue i : Nat) (e : BitVec 256) : Launch × State :=
  let asid := qAsid (queueOf s queue).desc
  let invalid (n : Nat) : LaunchStatus := .ending { status := 3, code := BitVec.ofNat 16 n, cause := 0 }
  match readRecordAt s asid e with
  | none => (newLaunch queue i e asid noRecord (invalid 1), s)
  | some (r, s) =>
    match failingCheck s asid e r with
    | some n => (newLaunch queue i e asid r (invalid n), s)
    | none => (newLaunch queue i e asid r .valid, s)

/-- A launch of a queue that has not started. -/
def unstarted (s : State) (queue : Nat) : Option (Nat × Launch) :=
  s.launches.find? (fun p => p.2.queue == queue && p.2.status == .valid)

/-- LAUNCH_VALIDATE: the oldest unstarted entry of a queue is read and checked (R397, R403). A slot that cannot be read
stops the queue until its next doorbell (R395). -/
def execLaunchValidate (queue : Nat) (s : State) : Host.Outcome State Fault Refusal :=
  let q := queueOf s queue
  if 16 ≤ queue ∨ !qValid q.desc ∨ q.producer ≤ q.taken ∨ (unstarted s queue).isSome then .next s
  else
    match tenantRead s (qAsid q.desc) (qRing q.desc + 32 * (q.taken % 2 ^ qLog2 q.desc)) 32 with
    | .error _ => .next (logEvent (setQueue s queue { q with producer := q.taken }) (.slotUnreadable queue q.taken))
    | .ok (b, s) =>
      let (l, s) := validated s queue q.taken (BitVec.ofNat 256 (ofBytes b))
      let s := setQueue s queue { q with taken := q.taken + 1 }
      .next { s with launches := Tbl.put s.launches s.nextLaunch l, nextLaunch := s.nextLaunch + 1 }

end Sys2Proof.Machine
end

