-- ==== Sys2Proof/Machine/Place.lean ====
section
/-! DEFINITION. Tasks of a phase, their placement on clusters, cores and contexts, and the schedule selector (R404 to
R410, R412 to R414). -/

namespace Sys2Proof.Machine

/-! ### Coordinates (R404, R405) -/

/-- Every tuple below the extents, in coordinate order; a DEVICE level has this device's coordinate only. -/
def tuples (dev : Nat) : List Word → List (List Nat)
  | [] => [[]]
  | w :: l =>
    let rest := tuples dev l
    (if levDomain w = 0 then [dev] else List.range (levExtent w)).flatMap (fun c => rest.map (c :: ·))

/-- Levels that a launch declares. -/
def Launch.declared (l : Launch) : List Word := l.levels.take (lNlev l.header)

/-- Coordinate tuples of the static tasks of this device, in coordinate order. -/
def staticTuples (l : Launch) : List (List Nat) := tuples (lDevCoord l.entry) l.declared

/-- Levels up to the outermost one whose domain lies between two; without one, the levels not bound to SEQ (R406, R407). -/
def keyLen (l : Launch) (lo hi : Nat) : Nat :=
  match l.declared.findIdx? (fun w => decide (lo ≤ levDomain w ∧ levDomain w ≤ hi)) with
  | some i => i + 1
  | none => (l.declared.filter (fun w => levDomain w != 5)).length

/-- Distinct keys of some tuples, in order. -/
def distinctKeys (n : Nat) (ts : List (List Nat)) : List (List Nat) := (ts.map (·.take n)).eraseDups

/-- Number of a tuple's key. -/
def keyIndex (keys : List (List Nat)) (n : Nat) (t : List Nat) : Nat := (keys.findIdx? (· == t.take n)).getD 0

/-! ### The deal (R406) -/

/-- Clusters in the order in which they take left-over units: larger remainder first, then the lower number. -/
def byRemainder (u total : Nat) (w : Nat → Nat) (cs : List Nat) : List Nat :=
  cs.foldl (fun l c => insertBy (fun a b => decide (u * w b % total ≤ u * w a % total)) c l) []

/-- Units dealt to each cluster of a list (R406). -/
def dealCounts (u : Nat) (w : Nat → Nat) (cs : List Nat) : List (Nat × Nat) :=
  let total := (cs.map w).foldl (· + ·) 0
  let base := cs.map (fun c => (c, u * w c / total))
  let left := u - (base.map (·.2)).foldl (· + ·) 0
  let extra := (byRemainder u total w cs).take left
  base.map (fun p => (p.1, p.2 + if extra.contains p.1 then 1 else 0))

/-- The cluster of unit `i`: consecutive units, lower clusters first. -/
def clusterOfUnit (i : Nat) : List (Nat × Nat) → Nat
  | [] => 0
  | (c, n) :: l => if i < n then c else clusterOfUnit (i - n) l

/-- Place of the DIE level among the declared levels. -/
def dieLevel (l : Launch) : Option Nat := l.declared.findIdx? (fun w => levDomain w == 1)

/-- Cluster of every unit key under schedule `k`, in order of the keys (R405, R406). -/
def dealUnits (l : Launch) (p : BitVec 1024) (k : Nat) (keys : List (List Nat)) : List Nat :=
  let part := lPart l.header
  let w := phWeight part p k
  match dieLevel l with
  | none => keys.zipIdx.map (fun u => clusterOfUnit u.2 (dealCounts keys.length w (partClusters part)))
  | some d =>
    keys.zipIdx.map (fun u =>
      let die := u.1.getD d 0
      let mine := keys.filter (fun x => x.getD d 0 == die)
      let i := ((keys.take u.2).filter (fun x => x.getD d 0 == die)).length
      clusterOfUnit i (dealCounts mine.length w (onDie part die)))

/-! ### Static tasks (R404 to R407) -/

/-- A task that nothing has bound. -/
def newTask (core : Nat) (tc ext : List Nat) (group : Nat) (grouped : Bool) (rgroup : Nat) (rec_ : Option (BitVec 128))
    (comm : Bool) : Task :=
  { core := core, group := group, grouped := grouped, onCtx := none, tc := tc.map (BitVec.ofNat 32),
    ext := ext.map (BitVec.ofNat 32), tileRec := rec_, rgroup := rgroup, claimed := none, comm := comm, status := .unbound,
    arrived := [], image := none, home := false }

/-- Some level is bound to CONTEXT or SEQ, so tasks share a context (R407). -/
def hasGroups (l : Launch) : Bool := l.declared.any (fun w => levDomain w == 4 || levDomain w == 5)

/-- The tile tasks of a static phase under schedule `k`, in coordinate order. -/
def staticTasks (l : Launch) (p : BitVec 1024) (k : Nat) : List Task :=
  let ts := staticTuples l
  let ext := l.declared.map levExtent
  let nu := keyLen l 2 4
  let units := distinctKeys nu ts
  let clusters := dealUnits l p k units
  let nc := keyLen l 3 4
  let cores := distinctKeys nc ts
  let ng := keyLen l 4 4
  let groups := distinctKeys ng ts
  let clusterOfTuple (t : List Nat) : Nat := clusters.getD (keyIndex units nu t) 0
  let coreClusters := cores.map clusterOfTuple
  ts.map (fun t =>
    let c := clusterOfTuple t
    let i := keyIndex cores nc t
    let place := ((coreClusters.take i).filter (· == c)).length % 8
    newTask (8 * c + place) t ext (keyIndex groups ng t) (hasGroups l) (keyIndex units nu t) none false)

/-! ### The schedule selector (R408 to R410) -/

/-- Tasks in the units dealt to a cluster under schedule `k`. -/
def tasksUnder (l : Launch) (p : BitVec 1024) (k c : Nat) : Nat :=
  ((staticTasks l p k).filter (fun t => clusterOf t.core == c)).length

/-- The greater of two ratios. -/
def maxRatio (a b : Nat × Nat) : Nat × Nat := if a.1 * b.2 < b.1 * a.2 then b else a

/-- Measured ticks per task of every cluster of a partition; one without a measurement takes the largest (R409). -/
def ratios (e : SelEntry) (cs : List Nat) : List (Nat × (Nat × Nat)) :=
  let known := cs.filterMap (fun c =>
    match Tbl.find e.meas c with
    | some (d, t) => if d = 0 then none else some (c, (t, d))
    | none => none)
  let worst := (known.map (·.2)).foldl maxRatio (0, 1)
  cs.map (fun c => (c, match known.find? (fun x => x.1 == c) with | some x => x.2 | none => worst))

/-- T(s) as a ratio (R409). -/
def scheduleTime (l : Launch) (p : BitVec 1024) (rs : List (Nat × (Nat × Nat))) (k : Nat) : Nat × Nat :=
  (rs.map (fun r => (tasksUnder l p k r.1 * r.2.1, r.2.2))).foldl maxRatio (0, 1)

/-- The schedule with the smallest time; the lowest index at a tie. -/
def bestSchedule (ts : List (Nat × (Nat × Nat))) : Option (Nat × (Nat × Nat)) :=
  match ts with
  | [] => none
  | a :: l =>
    match bestSchedule l with
    | none => some a
    | some b => if b.2.1 * a.2.2 < a.2.1 * b.2.2 then some b else some a

/-- CUR as the selector uses it: a number that names no schedule counts as 0. -/
def curOf (p : BitVec 1024) (e : SelEntry) : Nat := if e.cur < phNsched p then e.cur else 0

/-- The choice before an execution of a static phase (R409). -/
def chooseSchedule (s : State) (l : Launch) (p : BitVec 1024) (e : SelEntry) : Nat :=
  let cur := curOf p e
  if phNsched p < 2 then 0
  else if !e.mv then cur
  else
    let rs := ratios e (partClusters (lPart l.header))
    let ts := (List.range (phNsched p)).map (fun k => (k, scheduleTime l p rs k))
    match bestSchedule ts with
    | none => cur
    | some (b, tb) =>
      let tc := scheduleTime l p rs cur
      if ((tb.1 * tc.2 * 1000 : Nat) : Int) < (tc.1 * tb.2 : Nat) * (1000 - (s.hyst.toNat : Int)) then b else cur

/-- A selector entry read from memory (R410). -/
def selOfBytes (b : List Byte) : SelEntry :=
  let w := BitVec.ofNat 2048 (ofBytes b)
  { meas := ((List.range 16).map (fun c =>
      (c, ((w.extractLsb' (64 + 64 * c) 32).toNat, (w.extractLsb' (96 + 64 * c) 32).toNat)))).filter (fun m => m.2.1 != 0)
    ovr := (w.extractLsb' 32 32).toNat, mv := w.getLsbD 8, cur := (w.extractLsb' 0 2).toNat }

/-- A number that saturates at 32 bits. -/
def sat32 (n : Nat) : Nat := min n 0xFFFFFFFF

/-- A selector entry as it is written back (R410). -/
def selToBytes (e : SelEntry) : List Byte :=
  let meas := (List.range 16).flatMap (fun c =>
    let m := Tbl.look (0, 0) e.meas c
    toBytes 4 (sat32 m.1) ++ toBytes 4 (sat32 m.2))
  toBytes 4 (e.cur % 4 + if e.mv then 256 else 0) ++ toBytes 4 (sat32 e.ovr) ++ meas ++ List.replicate 120 0

/-! ### Ragged tasks (R412 to R414) -/

def recRows (r : BitVec 128) : Nat := (r.extractLsb' 16 7).toNat
def recLast (r : BitVec 128) : Bool := r.getLsbD 41
def recSwap (r : BitVec 128) : Bool := r.getLsbD 40

/-- A record meets R413: its reserved bits, ROWS and PMV. -/
def recordOk (r : BitVec 128) : Bool :=
  r.extractLsb' 43 21 == 0 && r.extractLsb' 23 17 == 0 && decide (recRows r ≤ 64) &&
    (r.getLsbD 42 == decide (1 ≤ recRows r ∧ recRows r ≤ 63))

/-- Group and place in its group of every record; a group ends at a record with LAST set. -/
def groupPlaces : Nat → Nat → List (BitVec 128) → List (Nat × Nat)
  | _, _, [] => []
  | g, j, r :: l => (g, j) :: (if recLast r then groupPlaces (g + 1) 0 l else groupPlaces g (j + 1) l)

/-- The tasks of a ragged phase's records (R414). A record without rows binds no task. -/
def raggedTasks (rs : List (BitVec 128)) : List Task :=
  let ps := groupPlaces 0 0 rs
  let groups := (ps.getLast?.map (·.1 + 1)).getD 0
  (rs.zip ps).map (fun p =>
    let size := (ps.filter (fun q => q.1 == p.2.1)).length
    let t := newTask 0 [p.2.1, p.2.2] [groups, size] 0 false p.2.1 (some p.1) false
    if recRows p.1 = 0 then { t with status := .finished } else t)

end Sys2Proof.Machine
end

