-- ==== Sys2Proof/Machine/Phase.lean ====
section
/-! DEFINITION. Launches start, phases run, tasks are bound, steps close (R11, R36, R59, R397, R403, R407 to R417,
R519). -/

namespace Sys2Proof.Machine

def launchAt (s : State) (lid : Nat) : Option Launch := Tbl.find s.launches lid

def setLaunch (s : State) (lid : Nat) (l : Launch) : State := { s with launches := Tbl.put s.launches lid l }

/-- The phase record that a launch is in. -/
def Launch.record (l : Launch) : BitVec 1024 := (l.phases[l.phase]?).getD 0

/-! ### Start (R59, R397, R403, R519) -/

/-- A launch that has clusters of its partition: it is neither waiting, suspended nor over. -/
def holdsClusters (l : Launch) : Bool :=
  match l.status with
  | .running => true
  | .suspending => true
  | .ending _ => l.started && l.susp.isNone
  | _ => false

/-- Every cluster of a partition is free of launches (R397). -/
def partitionFree (s : State) (part : BitVec 16) : Bool :=
  s.launches.all (fun p => !holdsClusters p.2 || lPart p.2.header &&& part == 0)

/-- Every earlier launch of a queue has ended (R396, SER). -/
def earlierEnded (s : State) (l : Launch) : Bool :=
  s.launches.all (fun p => p.2.queue != l.queue || decide (l.index ≤ p.2.index) || p.2.status == .ended)

/-- A queue's oldest unstarted launch may start (R396, R397). -/
def startable (s : State) (queue : Nat) : Bool :=
  match unstarted s queue with
  | some (_, l) => partitionFree s (lPart l.header) && (!l.entry.getLsbD 96 || earlierEnded s l)
  | none => false

/-- The queue that the round-robin serves (R397). -/
def servedQueue (s : State) : Option Nat := ((List.range 16).map (fun i => (s.rr + i) % 16)).find? (startable s)

/-- Core state cleared before a launch's first bind (R59). -/
def clearCore (s : State) (core : Nat) : State :=
  let s := { s with mem := memClear s.mem (spmAddr core 0) Config.spmBytes }
  withCore s core (fun k =>
    { k with tags := [], carve := none, tu := 0, tiles := [], merge := MergeBuf.init, ctrs := [], owner := 0, passing := false, svcReady := 0
             ctxs := k.ctxs.map (fun c => (c.1, { c.2 with lastIssue := none, waitCount := 0, swLast := false })) })

/-- AGE of a launch: 0 loads 256 (R399). -/
def ageOf (h : BitVec 512) : BitVec 16 := if h.extractLsb' 350 16 = 0 then 256 else h.extractLsb' 350 16

/-- Load AGE and fill the toll balance of a core (R403). -/
def loadCore (h : BitVec 512) (s : State) (core : Nat) : State :=
  withCore s core (fun k => { k with age := ageOf h, balance := 4096 })

/-- Windows held by contexts of a partition reset (R386). -/
def resetPins (s : State) (part : BitVec 16) : State :=
  rehome { s with pins := s.pins.filter (fun p =>
    match p.2.owner with | some (c, _) => !part.getLsbD (clusterOf c) | none => false) }

/-- Manifest memory and the compaction-used bit of a partition's clusters reset (R431, R433). -/
def resetClusters (s : State) (part : BitVec 16) : State :=
  (partClusters part).foldl (fun s c =>
    withCluster s c (fun x => { x with manifest := [], used := false })) s

/-- The selector state at the start: read from its area, or empty (R410). -/
def readSelector (s : State) (l : Launch) : Tbl SelEntry × State :=
  if lSelva l.header = 0 then ([], s)
  else
    match tenantRead s l.asid (lSelva l.header) selBytes with
    | .error _ => ([], s)
    | .ok (b, s) => ((List.range 64).map (fun i => (i, selOfBytes ((b.drop (256 * i)).take 256))), s)

/-- The header of the replay log (R519). -/
def logHeader (s : State) (l : RLog) (cookie : BitVec 64) : BitVec 512 :=
  cookie ++ BitVec.ofNat 64 l.used ++ BitVec.ofNat 64 l.nrec ++ (0 : BitVec 22) ++ s.device ++ l.gen ++ (0 : BitVec 128) ++
    BitVec.ofNat 64 l.start ++ (0 : BitVec 48) ++ (1 : BitVec 8) ++ (0 : BitVec 5) ++ BitVec.ofBool l.ended ++
    BitVec.ofBool l.ovf ++ (1 : BitVec 1)

/-- Write the header of the log in memory. -/
def writeLogHeader (s : State) : State :=
  match s.rlog with
  | none => s
  | some l =>
    match launchAt s l.launch with
    | none => s
    | some x =>
      let pa := (s.rlogb.extractLsb' 12 36).toNat * 4096
      physWrite { s with rlog := some { l with unsent := l.unsent ++ [(228, pa, 64)] } }
        (cellsAt pa (toBytes 64 (logHeader s l (x.entry.extractLsb' 0 64)).toNat))

/-- A recording launch begins its log (R519); one that follows a log does not write it again. -/
def beginLog (s : State) (lid : Nat) (l : Launch) : State :=
  if l.header.getLsbD 349 && !replays s lid then
    writeLogHeader { s with rlog := some { launch := lid, start := s.time, gen := s.gen, used := 0, nrec := 0, ovf := false,
                                           ended := false, dispatches := 0, grants := [], unsent := [], last := [] } }
  else s

/-- LAUNCH_START: the round-robin's queue starts its oldest launch on its partition (R397, R403). -/
def execLaunchStart (queue : Nat) (s : State) : Host.Outcome State Fault Refusal :=
  if servedQueue s ≠ some queue then .next s
  else
    match unstarted s queue with
    | none => .next s
    | some (lid, l) =>
      let part := lPart l.header
      let cores := (partClusters part).flatMap coresOfCluster
      let s := cores.foldl clearCore s
      let s := cores.foldl (loadCore l.header) s
      let s := resetClusters (resetPins s part) part
      let (sel, s) := readSelector s l
      let l := { l with status := .running, stage := .idle, started := true, tsStart := s.time, sel := sel }
      .next (beginLog (beginReplay { setLaunch s lid l with rr := (queue + 1) % 16 } lid) lid l)

/-! ### The start of a phase (R409, R413, R416) -/

/-- Log of a selector choice (R521, type 2). -/
def logChoice (s : State) (lid : Nat) (l : Launch) (cur : Nat) : State :=
  logRecord s lid 2 (BitVec.ofNat 64 l.phase) l.execs cur 0 228 7 []

/-- The schedule of a phase: the selector's choice, or the logged one of a replay (R409, R523). -/
def scheduleFor (s : State) (lid : Nat) (l : Launch) (p : BitVec 1024) (e : SelEntry) : Nat × State :=
  match if replays s lid && !decide (phNsched p < 2) then nextRecord s (fun x => x.typ == 2) else none with
  | some x => (x.seq, followRecord s x)
  | none => (chooseSchedule s l p e, s)

/-- A static phase begins: its schedule is chosen and its tasks are dealt (R406, R409). -/
def startStatic (s : State) (lid : Nat) (l : Launch) : State :=
  let p := l.record
  let e := Tbl.look SelEntry.init l.sel l.phase
  let (k, s) := scheduleFor s lid l p e
  let sel := if phNsched p < 2 then l.sel else Tbl.put l.sel l.phase { e with cur := k }
  let l := { l with stage := .compute, bound := false, tsStep := s.time, computeTicks := [], doneTasks := [], sched := k
                    sel := sel, tasks := staticTasks l p k }
  let s := setLaunch s lid l
  if phNsched p < 2 then s else logChoice s lid l k

/-- The first record that cannot be read or fails R413, with its cause. -/
def readRecords (s : State) (l : Launch) : Nat → Nat → Except (Nat × Nat) (List (BitVec 128) × State)
  | 0, _ => .ok ([], s)
  | n + 1, i =>
    match tenantRead s l.asid (phRecva l.record + 16 * i) 16 with
    | .error c => .error (i, c)
    | .ok (b, s) =>
      let r := BitVec.ofNat 128 (ofBytes b)
      if recordOk r then do
        let (rs, s) ← readRecords s l n (i + 1)
        .ok (r :: rs, s)
      else .error (i, 0)

/-- The last record counts as the last of its group (R413). -/
def closeLast (rs : List (BitVec 128)) : List (BitVec 128) :=
  match rs.reverse with
  | [] => []
  | r :: l => (((r ||| (1#128 <<< 41)) :: l)).reverse

/-- A ragged phase begins: its records are read (R413, R414). -/
def startRagged (s : State) (lid : Nat) (l : Launch) : State :=
  let p := l.record
  let raggedEnd (code cause : Nat) : Ending := { status := 4, code := BitVec.ofNat 16 code, cause := BitVec.ofNat 8 cause }
  match tenantRead s l.asid (phCntva p) 4 with
  | .error c => endLaunch s lid (raggedEnd 0xFFFE c)
  | .ok (b, s) =>
    if phMaxrec p < ofBytes b then endLaunch s lid (raggedEnd 0xFFFF 0)
    else
      match readRecords s l (ofBytes b) 0 with
      | .error (i, c) => endLaunch s lid (raggedEnd i c)
      | .ok (rs, s) =>
        setLaunch s lid { l with stage := .compute, bound := false, tsStep := s.time, computeTicks := [], doneTasks := []
                                 tasks := raggedTasks (closeLast rs) }

/-- PHASE_START: the next execution of a phase begins (R409, R413, R416). -/
def execPhaseStart (lid : Nat) (s : State) : Host.Outcome State Fault Refusal :=
  match launchAt s lid with
  | none => .next s
  | some l =>
    if l.status = .running ∧ l.stage = .idle then
      .next (if phRagged l.record then startRagged s lid l else startStatic s lid l)
    else .next s

/-! ### Binding (R11, R20, R33, R36, R47, R407, R411, R415) -/

/-- A group of tasks keeps a context until its last task completes (R407). -/
def reservedFor (l : Launch) (core ctx : Nat) (t : Task) : Bool :=
  l.tasks.any (fun u => u.grouped && u.core == core && u.onCtx == some ctx && u.status != .finished &&
    !(t.grouped && t.core == core && u.group == t.group))

/-- A context takes a task of a launch: it is free, CTXM names it, nothing else waits for it (R407, R419). -/
def takesTask (s : State) (l : Launch) (core ctx : Nat) (t : Task) : Bool :=
  (ctxOf s core ctx).status == .free && (phCtxm l.record).getLsbD ctx && !(coreOf s core).held &&
    !reservedFor l core ctx t && (restorable s core ctx).isNone

/-- The lowest context of a core that takes a task. -/
def lowestCtx (s : State) (l : Launch) (core : Nat) (t : Task) : Option (Nat × Nat) :=
  ((List.range 4).find? (fun k => takesTask s l core k t)).map (fun k => (core, k))

/-- Earlier tasks of a task's group have completed. -/
def groupReady (l : Launch) (n : Nat) (t : Task) : Bool :=
  !t.grouped || (l.tasks.take n).all (fun u => !(u.core == t.core && u.group == t.group) || u.status == .finished)

/-- Where a task binds now, if anywhere (R407, R415, R416). -/
def placeOf (s : State) (l : Launch) (n : Nat) (t : Task) : Option (Nat × Nat) :=
  if t.status ≠ .unbound ∨ !groupReady l n t then none
  else if t.comm then
    match (List.range 4).find? (fun k => (phCtxm l.record).getLsbD k) with
    | some k => if takesTask s l t.core k t then some (t.core, k) else none
    | none => none
  else if t.tileRec.isSome then
    match t.claimed with
    | some c => (coresOfCluster c).findSome? (fun n => lowestCtx s l n t)
    | none => none
  else
    match t.onCtx with
    | some k => if takesTask s l t.core k t then some (t.core, k) else none
    | none => lowestCtx s l t.core t

/-- The next task to bind, with its number and place. -/
def nextBind (s : State) (l : Launch) : Option (Nat × Task × Nat × Nat) :=
  l.tasks.zipIdx.findSome? (fun p => (placeOf s l p.2 p.1).map (fun q => (p.2, p.1, q.1, q.2)))

/-- The record of the next bind or claim of a replayed launch: a claim names no context (R521, type 1). -/
def bindRecord (s : State) (claim : Bool) : Option LogRec := nextRecord s (fun x => x.typ == 1 && (x.ctx == 7) == claim)

/-- A replayed launch binds as its log says (R523). -/
def loggedBind (s : State) (l : Launch) : Option (Nat × Task × Nat × Nat) :=
  match bindRecord s false with
  | none => none
  | some x =>
    match l.tasks[x.key.toNat]? with
    | none => none
    | some t =>
      if t.status = .unbound ∧ groupReady l x.key.toNat t ∧ takesTask s l x.unit x.ctx t
      then some (x.key.toNat, t, x.unit, x.ctx) else none

/-- The next task that a launch binds, and where. -/
def chooseBind (s : State) (lid : Nat) (l : Launch) : Option (Nat × Task × Nat × Nat) :=
  if replays s lid then loggedBind s l else nextBind s l

/-- A bind or claim has followed its record. -/
def followBind (s : State) (lid : Nat) (claim : Bool) : State :=
  if replays s lid then (match bindRecord s claim with | some x => followRecord s x | none => s) else s

/-- TC0 to TC7 of a task (R49). -/
def coordinates (t : Task) : Tbl Word :=
  (List.range 8).filterMap (fun i =>
    match t.tc[i]?, t.ext[i]? with
    | some c, some e => some (i, e ++ c)
    | _, _ => none)

/-- Scalars of a task at its bind (R411). -/
def bindScalars (p : BitVec 1024) (t : Task) : Tbl Word :=
  match t.tileRec with
  | some r => [(1, r.extractLsb' 0 64), (2, r.extractLsb' 64 64), (3, phArg p)]
  | none => [(1, phArg p)]

/-- p0 of a task at its bind (R20). -/
def bindMask (t : Task) : Word :=
  match t.tileRec with
  | some r => if 1 ≤ recRows r ∧ recRows r ≤ 63 then BitVec.ofNat 64 (2 ^ recRows r - 1) else 0xFFFFFFFFFFFFFFFF
  | none => 0xFFFFFFFFFFFFFFFF

/-- SWAPTH of a task at its bind: its Reset value, but for a ragged task (R415). -/
def bindSwap (t : Task) : Word :=
  match t.tileRec with
  | some r => if recSwap r then 16 else 0
  | none => 16

/-- A context as a bind leaves it (R11, R20, R47, R50, R411, R423). -/
def boundCtx (s : State) (lid n : Nat) (l : Launch) (t : Task) (core ctx : Nat) : Ctx :=
  let p := l.record
  let entry := if t.comm then phCentry p else phEntry p
  { Ctx.init with
    status := .running, task := some { launch := lid, task := n }, asid := l.asid, scalars := bindScalars p t
    masks := [(0, bindMask t)], pc := entry, lastBundle := entry, target := some .land, swapth := bindSwap t
    pinCap := l.header.extractLsb' 432 16, ctxid := ctxidOf s.device l.asid core ctx, tc := coordinates t
    slkt := slackTable p, wbase := lWinBase l.header ctx, wsize := lWinSize l.header ctx, ibuf := s.mem
    role := lRole l.header ctx, lastIssue := (ctxOf s core ctx).lastIssue
    window := if t.comm then phWindow p else 0 }

/-- The bound task's window is cleared (R36). -/
def clearWindow (s : State) (core base size : Nat) : State :=
  withCore s core (fun k => { k with tiles := restoreTiles k base size [] })

/-- A task of its group has taken a context: the others follow it (R407). -/
def takeCtx (t : Task) (ctx : Nat) (u : Task) : Task :=
  if t.grouped && u.grouped && u.core == t.core && u.group == t.group then { u with onCtx := some ctx } else u

/-- A communication task's context as the window opens: f9 is set (R416, R417). -/
def openCtx (t0 : Nat) (c : Ctx) : Ctx := { c with flags := c.flags ||| 0x200, openedWindow := some t0 }

/-- The window opens for one communication task, where it runs or in its saved image. -/
def openTask (s : State) (lid n : Nat) : State :=
  match launchAt s lid with
  | none => s
  | some l =>
    match l.tasks[n]? with
    | none => s
    | some t =>
      match t.status with
      | .bound core ctx => withCtx s core ctx (openCtx s.time)
      | .saved _ _ => setLaunch s lid { l with tasks := l.tasks.set n { t with
          image := t.image.map (fun im => { im with ctx := openCtx s.time im.ctx }) } }
      | _ => s

/-- Once every communication task is bound, f9 sets in all of them and the window timer starts (R416, step 5). -/
def openWindow (s : State) (lid : Nat) : State :=
  match launchAt s lid with
  | none => s
  | some l =>
    if l.stage = .communicate ∧ l.tasks.all (fun t => t.comm && t.status != .unbound)
    then (List.range l.tasks.length).foldl (fun s n => openTask s lid n) (setLaunch s lid { l with tsStep := s.time })
    else s

/-- Bind a task to a context (R411). -/
def bindTask (s : State) (lid n : Nat) (l : Launch) (t : Task) (core ctx : Nat) : State :=
  let c := boundCtx s lid n l t core ctx
  let tasks := (l.tasks.map (takeCtx t ctx)).set n { takeCtx t ctx t with status := .bound core ctx, core := core }
  let l' := { l with tasks := tasks, bound := true, tsStep := if l.bound || t.comm then l.tsStep else s.time
                     bindSeq := l.bindSeq + 1 }
  let s := setLaunch (clearWindow (setCtx s core ctx c) core c.wbase c.wsize) lid l'
  let ragged := t.tileRec.isSome
  let s := logRecord s lid 1 (BitVec.ofNat 64 n) (l.execs + if ragged then 2 ^ 31 else 0) l.bindSeq 0 core ctx []
  let s := replayPoints (replaySeed (logAt (followBind s lid false) core ctx 3 1 0 0 []) core ctx) core ctx
  if t.comm then openWindow s lid else s

/-- TASK_BIND: the next task of a launch that finds a free context is bound (R407, R411, R415). -/
def execTaskBind (lid : Nat) (s : State) : Host.Outcome State Fault Refusal :=
  match launchAt s lid with
  | none => .next s
  | some l =>
    if l.status = .running ∧ l.stage ≠ .idle then
      match chooseBind s lid l with
      | some (n, t, core, ctx) => .next (bindTask s lid n l t core ctx)
      | none => .next s
    else .next s

/-! ### Ragged claims (R415) -/

/-- A cluster may claim: fewer than 16 of the records it has claimed are unbound. -/
def mayClaim (l : Launch) (cluster : Nat) : Bool :=
  (lPart l.header).getLsbD cluster &&
    decide ((l.tasks.filter (fun t => t.claimed == some cluster && t.status == .unbound)).length < 16)

/-- The first group that no cluster has claimed; groups without rows need no claim. -/
def unclaimedGroup (l : Launch) : Option Nat :=
  (l.tasks.find? (fun t => t.tileRec.isSome && t.claimed.isNone && t.status == .unbound)).map (·.rgroup)

/-- The cluster that claims next: the lowest-numbered that may, or the logged one of a replay (R415, R523). -/
def claimant (s : State) (lid : Nat) (l : Launch) : Option Nat :=
  if replays s lid then (bindRecord s true).map (fun x => x.unit / 8) else (List.range 16).find? (mayClaim l)

/-- RAGGED_CLAIM: a cluster claims the next unclaimed group; the lowest-numbered cluster that may claim wins (R415). -/
def execRaggedClaim (lid cluster : Nat) (s : State) : Host.Outcome State Fault Refusal :=
  match launchAt s lid with
  | none => .next s
  | some l =>
    if l.status = .running ∧ l.stage = .compute ∧ claimant s lid l = some cluster then
      match unclaimedGroup l with
      | none => .next s
      | some g =>
        let mine (t : Task) : Bool := t.rgroup == g && t.tileRec.isSome
        let s := (l.tasks.zipIdx.filter (fun p => mine p.1)).foldl (fun s p =>
          logRecord (followBind s lid true) lid 1 (BitVec.ofNat 64 p.2) (l.execs + 2 ^ 31) l.bindSeq 0 (8 * cluster) 7 []) s
        .next (setLaunch s lid { l with tasks := l.tasks.map (fun t => if mine t then { t with claimed := some cluster } else t) })
    else .next s

/-! ### The steps close (R362, R408, R416, R417) -/

/-- Every task of a launch has completed. -/
def allFinished (l : Launch) : Bool := l.tasks.all (fun t => t.status == .finished)

/-- The communication tasks of a phase: one for every core of the partition (R416). -/
def commTasks (l : Launch) : List Task :=
  ((partClusters (lPart l.header)).flatMap coresOfCluster).map (fun n =>
    newTask n [clusterOf n, n % 8] [16, 8] 0 false 0 none true)

/-- Bind every communication task whose context is free. -/
def bindAll (lid : Nat) : Nat → State → State
  | 0, s => s
  | k + 1, s =>
    match launchAt s lid with
    | none => s
    | some l =>
      match chooseBind s lid l with
      | some (n, t, core, ctx) => bindAll lid k (bindTask s lid n l t core ctx)
      | none => s

/-- COMPUTE_STEP_CLOSE: the device barrier closes the compute step; the communication tasks are bound with f9 set and the
window opens (R362, R416, R433). -/
def execComputeStepClose (lid : Nat) (s : State) : Host.Outcome State Fault Refusal :=
  match launchAt s lid with
  | none => .next s
  | some l =>
    if l.status = .running ∧ l.stage = .compute ∧ allFinished l then
      let s := (partClusters (lPart l.header)).foldl (fun s c => withCluster s c (fun x => { x with used := false })) s
      let tasks := if phCentry l.record = 0 then [] else commTasks l
      let s := setLaunch s lid { l with stage := .communicate, tasks := tasks, tsStep := s.time }
      .next (bindAll lid tasks.length s)
    else .next s

/-- Every access, engine command and packet of a launch has performed (R362, R398). -/
def launchQuiet (s : State) (cookie : BitVec 64) : Bool :=
  !(s.reqs.any (fun r => r.cookie == cookie)) && !(s.ops.any (fun o => o.cookie == cookie)) &&
    !(s.packets.any (fun p => p.pkt.cookie == cookie && p.pkt.srcDev == s.device))

/-- The measurements of a static execution whose communication step took `c` ticks (R408). -/
def measured (l : Launch) (c : Nat) : SelEntry :=
  let p := l.record
  let e := Tbl.look SelEntry.init l.sel l.phase
  { e with
    meas := (l.doneTasks.filter (fun d => d.2 != 0)).map (fun d =>
      (d.1, (d.2, sat32 (Tbl.look 0 l.computeTicks d.1 + (c - phWindow p)))))
    ovr := if phWindow p < c then sat32 (e.ovr + 1) else e.ovr, mv := true }

/-- The launch after an execution of a phase: the next phase, another pass, or the end (R402). -/
def nextPhase (l : Launch) : Launch :=
  let l := { l with execs := l.execs + 1, stage := .idle, tasks := [] }
  if l.phase + 1 < lNph l.header then { l with phase := l.phase + 1 }
  else if l.pass + 1 < lIter l.header then { l with phase := lLoopst l.header, pass := l.pass + 1 }
  else { l with status := .ending { status := 0, code := 0, cause := 0 } }

/-- COMM_STEP_CLOSE: the communication step closes after its traffic has performed; measurements are recorded (R362, R408,
R416). -/
def execCommStepClose (lid : Nat) (s : State) : Host.Outcome State Fault Refusal :=
  match launchAt s lid with
  | none => .next s
  | some l =>
    if l.status = .running ∧ l.stage = .communicate ∧ allFinished l ∧ launchQuiet s (l.entry.extractLsb' 0 64) then
      let c := if phCentry l.record = 0 then 0 else s.time - l.tsStep
      let overrun := decide (phWindow l.record < c)
      let l := { l with sel := if phRagged l.record then l.sel else Tbl.put l.sel l.phase (measured l c)
                        ovr := if overrun then sat32 (l.ovr + 1) else l.ovr }
      .next (setLaunch s lid (nextPhase l))
    else .next s

end Sys2Proof.Machine
end

