-- ==== Sys2Proof/Machine/Finish.lean ====
section
/-! DEFINITION. How launches end, are suspended and resume (R394, R398, R410, R418, R420, R451, R519, R521). -/

namespace Sys2Proof.Machine

/-! ### The end of a launch (R398, R418, R451) -/

/-- Task contexts of the device, by core and number. -/
def taskContexts (s : State) : List (Nat × Nat) := s.cores.flatMap (fun k => (List.range 4).map (fun c => (k.1, c)))

/-- Task contexts that hold a task of a launch. -/
def contextsOf (s : State) (lid : Nat) : List (Nat × Nat) := (taskContexts s).filter (fun p => ofLaunch s lid p.1 p.2)

/-- Nothing of a launch is still under way: its contexts' commands have written their tokens, its accesses have performed
and its fills have ended (R398, R418, R451). -/
def launchOver (s : State) (lid : Nat) (l : Launch) : Bool :=
  (contextsOf s lid).all (fun p => settled s p.1 p.2) && !fillsRun s lid && launchQuiet s (l.entry.extractLsb' 0 64)

/-- A context of a launch that has ended gives up its task; a halted task also releases what its end releases. -/
def reclaim (s : State) (p : Nat × Nat) : State :=
  let s := match (ctxOf s p.1 p.2).status with
    | .halted _ => releaseTask s p.1 p.2
    | _ => cancelToll s p.1 p.2
  freeCtx s p.1 p.2

/-- Write the selector area back (R410). An area that can no longer be written keeps what it holds. -/
def writeSelector (s : State) (l : Launch) : State :=
  if !l.started || lSelva l.header == 0 then s
  else
    match tenantWrite s l.asid (lSelva l.header) ((List.range 64).flatMap (fun i => selToBytes (Tbl.look SelEntry.init l.sel i))) none with
    | .ok s => s
    | .error _ => s

/-- The END record of a recording launch, and the log's header with it (R519, R521, R522). -/
def endLog (s : State) (lid : Nat) (e : Ending) : State :=
  let s := endReplay s lid
  match s.rlog with
  | none => s
  | some l =>
    if l.launch ≠ lid ∨ l.ended then s
    else
      let s := logRecord s lid 12 0 e.status.toNat 0 0 228 7 []
      writeLogHeader { s with rlog := s.rlog.map (fun l => { l with ended := !l.ovf }) }

/-- The completion record (R398). -/
def completionRecord (s : State) (l : Launch) (e : Ending) : BitVec 256 :=
  l.entry.extractLsb' 0 64 ++ BitVec.ofNat 64 (if l.started then s.time - l.tsStart else 0) ++ e.code ++ BitVec.ofNat 8 l.phase ++
    e.cause ++ (0 : BitVec 32) ++ BitVec.ofNat 32 l.ovr ++ (0 : BitVec 24) ++ e.status

/-- Write the completion record; one that cannot be written is logged (R398). -/
def writeCompletion (s : State) (l : Launch) (e : Ending) : State :=
  let r := completionRecord s l e
  match tenantWrite s l.asid (l.entry.extractLsb' 136 56).toNat (toBytes 32 r.toNat) (some (l.queue, l.index, r)) with
  | .ok s => s
  | .error _ => logEvent s (.completionFailed l.queue l.index r)

/-- The completion record of an entry is on its way out of the device: it has neither been written nor failed (R398). -/
def recordUnderWay (s : State) (queue i : Nat) : Bool :=
  let of (n : Option (Nat × Nat × BitVec 256)) : Bool := n.any (fun x => x.1 == queue && x.2.1 == i)
  s.packets.any (fun p => of p.note) || s.outbound.any (fun x => of x.note)

/-- The entry of a queue has ended: its launch has, and its completion record has been written or could not be (R394). -/
def entryEnded (s : State) (queue i : Nat) : Bool :=
  s.launches.any (fun p => p.2.queue == queue && p.2.index == i && p.2.status == .ended) && !recordUnderWay s queue i

/-- How far the consumer index moves: across entries that have all ended, in entry order (R394). -/
def consumerAfter (s : State) (queue : Nat) : Nat → Nat → Nat
  | 0, i => i
  | n + 1, i => if entryEnded s queue i then consumerAfter s queue n (i + 1) else i

/-- Advance the consumer index and forget the entries below it (R394, R398). -/
def advanceConsumer (s : State) (queue : Nat) : State :=
  let q := queueOf s queue
  let i := consumerAfter s queue s.launches.length q.consumer
  if i = q.consumer then s
  else
    let s := { setQueue s queue { q with consumer := i } with
               launches := s.launches.filter (fun p => !(p.2.queue == queue && p.2.status == .ended && decide (p.2.index < i))) }
    match tenantWrite s (qAsid q.desc) (qDoorbell q.desc + 8) (toBytes 8 i) none with
    | .ok s => s
    | .error _ => logEvent s (.doorbellFailed queue)

/-- A launch over which nothing is under way ends: contexts are reclaimed, the selector area, the log and the completion
record are written and the consumer index moves, past an entry whose record goes outside the device only once it is there. -/
def closeLaunch (s : State) (lid : Nat) (l : Launch) (e : Ending) : State :=
  let s := (contextsOf s lid).foldl reclaim s
  let s := endLog (writeSelector s l) lid e
  let s := writeCompletion s l e
  advanceConsumer (setLaunch s lid { l with status := .ended, tasks := [], susp := none }) l.queue

/-- The open generations of an ending launch's contributions are discarded, once its contexts run no longer (R486). -/
def discardOpen (s : State) (lid : Nat) : State :=
  match launchAt s lid with
  | none => s
  | some l => discardReductions s (l.entry.extractLsb' 0 64)

/-- Cancel the queued fills and the reductions of an ending launch, and close it once everything of it is over. -/
def endingStep (s : State) (lid : Nat) (e : Ending) : State :=
  let s := discardOpen (cancelFills s lid) lid
  match launchAt s lid with
  | none => s
  | some l => if launchOver s lid l then closeLaunch s lid l e else s

/-- The cycle in which a halt or fault ended a launch is not over: another may still decide its record (R418). -/
def endsNow (s : State) (l : Launch) : Bool := l.endedBy.any (fun x => x.1 == s.time)

/-- LAUNCH_COMPLETE: a launch that ran to its end, or whose record or tile records are unfit, gets its completion record
with STATUS OK, INVALID or RAGGED (R398, R402, R403, R413); of a launch that has ended the consumer index moves past the entry
once its record is written (R394). -/
def execLaunchComplete (lid : Nat) (s : State) : Host.Outcome State Fault Refusal :=
  match launchAt s lid with
  | none => .next s
  | some l =>
    match l.status with
    | .ending e => if e.status = 0 ∨ e.status = 3 ∨ e.status = 4 then .next (endingStep s lid e) else .next s
    | .ended => .next (advanceConsumer s l.queue)
    | _ => .next s

/-- LAUNCH_END: a launch that a halt, a fault or an abort ended gets its completion record with STATUS HALT, FAULT or ABORTED
once the stopped tasks' commands have written their tokens, in a later cycle than the one in which they ended it (R418). -/
def execLaunchEnd (lid : Nat) (s : State) : Host.Outcome State Fault Refusal :=
  match launchAt s lid with
  | none => .next s
  | some l =>
    match l.status with
    | .ending e =>
      if (e.status = 1 ∨ e.status = 2 ∨ e.status = 5) ∧ endsNow s l = false then .next (endingStep s lid e) else .next s
    | _ => .next s

/-! ### Suspension (R420) -/

/-- Every task of a launch is saved, has ended or is not bound. -/
def allSaved (l : Launch) : Bool :=
  l.tasks.all (fun t => match t.status with | .bound _ _ => false | _ => true)

/-- Cores of a launch's partition. -/
def coresOf (l : Launch) : List Nat := (partClusters (lPart l.header)).flatMap coresOfCluster

/-- What a suspension copies (R420, step 2). -/
def suspendedState (s : State) (lid : Nat) (l : Launch) : Suspended :=
  { clusters := s.clusters.filter (fun c => (lPart l.header).getLsbD c.1)
    ctrs := (coresOf l).map (fun n => (n, (coreOf s n).ctrs))
    tus := (coresOf l).map (fun n => (n, (coreOf s n).tu))
    pins := s.pins.filter (fun p => p.2.owner.isSome && p.2.launch == lid) }

/-- LAUNCH_SUSPEND: once every task is saved or has ended, the cluster state is copied, the pin windows are released and the
partition is freed (R420). -/
def execLaunchSuspend (lid : Nat) (s : State) : Host.Outcome State Fault Refusal :=
  match launchAt s lid with
  | none => .next s
  | some l =>
    if l.status = .suspending ∧ allSaved l ∧ !fillsRun s lid then
      let k := suspendedState s lid l
      let s := rehome { s with pins := s.pins.filter (fun p => !(p.2.owner.isSome && p.2.launch == lid)) }
      .next (setLaunch s lid { l with status := .suspended, susp := some k })
    else .next s

/-- A pin window of a suspended launch is held by another now (R420). -/
def pinsTaken (s : State) (k : Suspended) : Bool := k.pins.any (fun p => (pinAt s p.1).owner.isSome)

/-- AGE of a core, as the launch's header gives it. -/
def loadAge (h : BitVec 512) (s : State) (core : Nat) : State := withCore s core (fun k => { k with age := ageOf h })

/-- Write the copied state of a core back: its arrival counters and TU. -/
def restoreCore (k : Suspended) (s : State) (core : Nat) : State :=
  withCore s core (fun x => { x with ctrs := Tbl.look [] k.ctrs core, tu := Tbl.look 0 k.tus core })

/-- Write the copied state of a cluster back: its manifest and its compaction-used bit. -/
def restoreCluster (k : Suspended) (s : State) (c : Nat) : State :=
  let x := Tbl.look Cluster.init k.clusters c
  withCluster s c (fun y => { y with manifest := x.manifest, used := x.used })

/-- LAUNCH_RESUME: a suspended launch takes its partition again; core state is cleared, the copied state is written back and
its saved tasks wait for the cores where they were saved (R59, R419, R420). -/
def execLaunchResume (lid : Nat) (s : State) : Host.Outcome State Fault Refusal :=
  match launchAt s lid with
  | none => .next s
  | some l =>
    match l.status, l.susp with
    | .suspended, some k =>
      if !partitionFree s (lPart l.header) || pinsTaken s k then .next s
      else
        let s := (coresOf l).foldl clearCore s
        let s := (coresOf l).foldl (loadAge l.header) s
        let s := (coresOf l).foldl (restoreCore k) s
        let s := (partClusters (lPart l.header)).foldl (restoreCluster k) s
        let s := rehome { s with pins := k.pins.foldl (fun t p => Tbl.put t p.1 p.2) s.pins }
        .next (setLaunch s lid { l with status := .running, susp := none
                                        tasks := l.tasks.map (fun t => { t with home := t.image.isSome }) })
    | _, _ => .next s

end Sys2Proof.Machine
end

