-- ==== Sys2Proof/Machine/Shake.lean ====
section
/-! DEFINITION. SHAKE256 of FIPS 202, which the manual takes from its standard (R5, R530 to R533). -/

namespace Sys2Proof.Machine

/-- The round constants of Keccak-f[1600]. -/
def keccakRounds : List Word :=
  [0x0000000000000001, 0x0000000000008082, 0x800000000000808A, 0x8000000080008000, 0x000000000000808B, 0x0000000080000001,
   0x8000000080008081, 0x8000000000008009, 0x000000000000008A, 0x0000000000000088, 0x0000000080008009, 0x000000008000000A] ++
  [0x000000008000808B, 0x800000000000008B, 0x8000000000008089, 0x8000000000008003, 0x8000000000008002, 0x8000000000000080,
   0x000000000000800A, 0x800000008000000A, 0x8000000080008081, 0x8000000000008080, 0x0000000080000001, 0x8000000080008008]

/-- The rotation of each lane, lane `x + 5y`. -/
def keccakTurns : List Nat :=
  [0, 1, 62, 28, 27, 36, 44, 6, 55, 20, 3, 10, 43] ++ [25, 39, 41, 45, 15, 21, 8, 18, 2, 61, 56, 14]

/-- Lane `x`, `y` of a state. -/
def lane (a : List Word) (x y : Nat) : Word := (a[x % 5 + 5 * (y % 5)]?).getD 0

/-- θ: every lane takes the parity of two columns. -/
def keccakTheta (a : List Word) : List Word :=
  let c (x : Nat) : Word := (List.range 5).foldl (fun v y => v ^^^ lane a x y) 0
  let d := (List.range 5).map (fun x => c (x + 4) ^^^ (c (x + 1)).rotateLeft 1)
  a.zipIdx.map (fun l => l.1 ^^^ (d[l.2 % 5]?).getD 0)

/-- ρ and π: lanes turn and change places. -/
def keccakMove (a : List Word) : List Word :=
  let turned := a.zipWith (fun l n => l.rotateLeft n) keccakTurns
  (List.range 25).map (fun i => lane turned (i % 5 + 3 * (i / 5)) (i % 5))

/-- χ: every lane takes its two neighbours in the row. -/
def keccakChi (b : List Word) : List Word :=
  (List.range 25).map (fun i => lane b i (i / 5) ^^^ (~~~ lane b (i % 5 + 1) (i / 5) &&& lane b (i % 5 + 2) (i / 5)))

/-- One round, with its constant in lane 0. -/
def keccakRound (a : List Word) (rc : Word) : List Word :=
  match keccakChi (keccakMove (keccakTheta a)) with
  | [] => []
  | l :: t => (l ^^^ rc) :: t

/-- Keccak-f[1600]. -/
def keccakF (a : List Word) : List Word := keccakRounds.foldl keccakRound a

/-- Eight bytes as a lane, lowest first. -/
def laneOfBytes (b : List Byte) : Word := b.foldr (fun x v => (v <<< 8) ||| x.setWidth 64) 0

/-- The bytes of a lane. -/
def laneBytes (w : Word) : List Byte := (List.range 8).map (fun i => w.extractLsb' (8 * i) 8)

/-- Bytes of a block of SHAKE256: its rate. -/
def shakeRate : Nat := 136

/-- The last block's padding: the suffix of an extendable-output function, and the closing bit. -/
def shakePad (b : List Byte) : List Byte :=
  let n := shakeRate - b.length % shakeRate
  b ++ (if n = 1 then [0x9F] else 0x1F :: List.replicate (n - 2) 0 ++ [0x80])

/-- Absorb `n` blocks of bytes. -/
def absorbBlocks : Nat → List Byte → List Word → List Word
  | 0, _, a => a
  | n + 1, b, a =>
    let block := (List.range 25).map (fun i => if i < 17 then laneOfBytes ((b.drop (8 * i)).take 8) else 0)
    absorbBlocks n (b.drop shakeRate) (keccakF (a.zipWith (· ^^^ ·) block))

/-- Squeeze `n` blocks out. -/
def squeezeBlocks : Nat → List Word → List Byte
  | 0, _ => []
  | n + 1, a => (a.take 17).flatMap laneBytes ++ squeezeBlocks n (keccakF a)

/-- SHAKE256 with an output of `n` bytes (FIPS 202). -/
def shake256 (b : List Byte) (n : Nat) : List Byte :=
  let p := shakePad b
  (squeezeBlocks ((n + shakeRate - 1) / shakeRate) (absorbBlocks (p.length / shakeRate) p (List.replicate 25 0))).take n

end Sys2Proof.Machine
end

