-- ==== Sys2Proof/Machine/SlhDsa.lean ====
section
/-! DEFINITION. SLH-DSA-SHAKE-256s of FIPS 205, which the manual takes from its standard: keys, signatures and their
verification, in the pure form with an empty context string (R5, R530, R531, R533). -/

namespace Sys2Proof.Machine

/-- The parameters: bytes of a value, the tree heights, the layers, the FORS trees, and the chains of a one-time key. -/
def slhN : Nat := 32
def slhHp : Nat := 8
def slhD : Nat := 8
def slhA : Nat := 14
def slhK : Nat := 22
def slhLen : Nat := 67

/-- A number in `n` bytes, highest first. -/
def beBytes : Nat → Nat → List Byte
  | 0, _ => []
  | n + 1, v => beBytes n (v / 256) ++ [BitVec.ofNat 8 v]

/-- The number that bytes stand for, highest first. -/
def ofBeBytes (b : List Byte) : Nat := b.foldl (fun v x => 256 * v + x.toNat) 0

/-- An address: layer, tree, type, and three words whose meaning the type gives. -/
structure SlhAdrs where
  layer : Nat
  tree : Nat
  typ : Nat
  x : Nat
  y : Nat
  z : Nat
deriving DecidableEq, Repr

/-- The 32 bytes of an address. -/
def slhAdrsBytes (a : SlhAdrs) : List Byte :=
  beBytes 4 a.layer ++ beBytes 12 a.tree ++ beBytes 4 a.typ ++ beBytes 4 a.x ++ beBytes 4 a.y ++ beBytes 4 a.z

/-- F, H, T and PRF: one hash of the public seed, an address and a message. -/
def slhHash (seed : List Byte) (a : SlhAdrs) (m : List Byte) : List Byte := shake256 (seed ++ slhAdrsBytes a ++ m) slhN

/-- `n` digits of `b` bits each, the highest first, from bytes. -/
def slhDigits (m : List Byte) (b n : Nat) : List Nat :=
  let v := ofBeBytes m
  (List.range n).map (fun i => v / 2 ^ (8 * m.length - b * (i + 1)) % 2 ^ b)

/-! ### One-time keys -/

/-- `n` steps of a chain from step `i`. -/
def wotsChain (seed : List Byte) (a : SlhAdrs) : Nat → Nat → List Byte → List Byte
  | 0, _, v => v
  | n + 1, i, v => wotsChain seed a n (i + 1) (slhHash seed { a with z := i } v)

/-- Digits of a message and of its checksum. -/
def wotsDigits (m : List Byte) : List Nat :=
  let d := slhDigits m 4 64
  d ++ slhDigits (beBytes 2 (16 * (d.map (15 - ·)).foldl (· + ·) 0)) 4 3

/-- The secret of chain `i` of the one-time key `a.x`. -/
def wotsSecret (sk seed : List Byte) (a : SlhAdrs) (i : Nat) : List Byte :=
  slhHash seed { a with typ := 5, y := i, z := 0 } sk

/-- The public value from the ends of the chains. -/
def wotsCompress (seed : List Byte) (a : SlhAdrs) (ends : List (List Byte)) : List Byte :=
  slhHash seed { a with typ := 1, y := 0, z := 0 } ends.flatten

/-- Public value of the one-time key `a.x`. -/
def wotsPublic (sk seed : List Byte) (a : SlhAdrs) : List Byte :=
  wotsCompress seed a ((List.range slhLen).map (fun i =>
    wotsChain seed { a with typ := 0, y := i } 15 0 (wotsSecret sk seed a i)))

/-- One-time signature of a value. -/
def wotsSign (sk seed : List Byte) (a : SlhAdrs) (m : List Byte) : List Byte :=
  ((wotsDigits m).zipIdx).flatMap (fun d =>
    wotsChain seed { a with typ := 0, y := d.2 } d.1 0 (wotsSecret sk seed a d.2))

/-- Value `i` of a list of values laid end to end. -/
def slhPart (b : List Byte) (i : Nat) : List Byte := (b.drop (slhN * i)).take slhN

/-- The public value that a one-time signature of a value leads to. -/
def wotsFromSignature (seed : List Byte) (a : SlhAdrs) (sig m : List Byte) : List Byte :=
  wotsCompress seed a (((wotsDigits m).zipIdx).map (fun d =>
    wotsChain seed { a with typ := 0, y := d.2 } (15 - d.1) d.1 (slhPart sig d.2)))

/-! ### Trees -/

/-- Climb from a node to the root of its tree: `path` is the sibling of each height, `typ` and `x` those of the tree's
addresses, `i` the node's number. -/
def slhClimb (seed : List Byte) (a : SlhAdrs) : Nat → Nat → List (List Byte) → List Byte → List Byte
  | _, _, [], v => v
  | h, i, p :: l, v =>
    let b := if i % 2 = 0 then v ++ p else p ++ v
    slhClimb seed a (h + 1) (i / 2) l (slhHash seed { a with y := h + 1, z := i / 2 } b)

/-- Node `i` at height `h` of a tree of one-time keys. -/
def xmssNode (sk seed : List Byte) (a : SlhAdrs) : Nat → Nat → List Byte
  | 0, i => wotsPublic sk seed { a with x := i }
  | h + 1, i =>
    slhHash seed { a with typ := 2, x := 0, y := h + 1, z := i } (xmssNode sk seed a h (2 * i) ++ xmssNode sk seed a h (2 * i + 1))

/-- Signature of a value under key `i` of a tree: the one-time signature and the path. -/
def xmssSign (sk seed : List Byte) (a : SlhAdrs) (i : Nat) (m : List Byte) : List Byte :=
  wotsSign sk seed { a with x := i } m ++ (List.range slhHp).flatMap (fun j => xmssNode sk seed a j ((i / 2 ^ j) ^^^ 1))

/-- The root that a tree's signature of a value leads to. -/
def xmssRoot (seed : List Byte) (a : SlhAdrs) (i : Nat) (sig m : List Byte) : List Byte :=
  slhClimb seed { a with typ := 2, x := 0 } 0 i ((List.range slhHp).map (fun j => slhPart sig (slhLen + j)))
    (wotsFromSignature seed { a with x := i } sig m)

/-- Address of a tree of a layer. -/
def slhTree (layer tree : Nat) : SlhAdrs := ⟨layer, tree, 0, 0, 0, 0⟩

/-- Signatures of the layers from `j` on: each signs the root of the one below. -/
def htSign (sk seed : List Byte) : Nat → Nat → Nat → Nat → List Byte → List Byte
  | 0, _, _, _, _ => []
  | n + 1, j, tree, leaf, m =>
    let sig := xmssSign sk seed (slhTree j tree) leaf m
    sig ++ htSign sk seed n (j + 1) (tree / 2 ^ slhHp) (tree % 2 ^ slhHp) (xmssRoot seed (slhTree j tree) leaf sig m)

/-- The root of the top layer that the signatures of the layers from `j` on lead to. -/
def htRoot (seed : List Byte) : Nat → Nat → Nat → Nat → List Byte → List Byte → List Byte
  | 0, _, _, _, _, m => m
  | n + 1, j, tree, leaf, sig, m =>
    htRoot seed n (j + 1) (tree / 2 ^ slhHp) (tree % 2 ^ slhHp) (sig.drop (slhN * (slhLen + slhHp)))
      (xmssRoot seed (slhTree j tree) leaf sig m)

/-! ### FORS -/

/-- Secret leaf `i`. -/
def forsSecret (sk seed : List Byte) (a : SlhAdrs) (i : Nat) : List Byte := slhHash seed { a with typ := 6, y := 0, z := i } sk

/-- Node `i` at height `h`. -/
def forsNode (sk seed : List Byte) (a : SlhAdrs) : Nat → Nat → List Byte
  | 0, i => slhHash seed { a with y := 0, z := i } (forsSecret sk seed a i)
  | h + 1, i => slhHash seed { a with y := h + 1, z := i } (forsNode sk seed a h (2 * i) ++ forsNode sk seed a h (2 * i + 1))

/-- FORS signature of a digest. -/
def forsSign (sk seed : List Byte) (a : SlhAdrs) (md : List Byte) : List Byte :=
  ((slhDigits md slhA slhK).zipIdx).flatMap (fun d =>
    let i := d.2 * 2 ^ slhA + d.1
    forsSecret sk seed a i ++ (List.range slhA).flatMap (fun j => forsNode sk seed a j ((i / 2 ^ j) ^^^ 1)))

/-- FORS public value that a signature of a digest leads to. -/
def forsFromSignature (seed : List Byte) (a : SlhAdrs) (sig md : List Byte) : List Byte :=
  let roots := ((slhDigits md slhA slhK).zipIdx).map (fun d =>
    let i := d.2 * 2 ^ slhA + d.1
    let b := sig.drop (slhN * (slhA + 1) * d.2)
    slhClimb seed a 0 i ((List.range slhA).map (fun j => slhPart b (1 + j))) (slhHash seed { a with y := 0, z := i } (slhPart b 0)))
  slhHash seed { a with typ := 4, y := 0, z := 0 } roots.flatten

/-! ### Keys and signatures -/

/-- Root of the public key of a secret and a public seed. -/
def slhRoot (sk seed : List Byte) : List Byte := xmssNode sk seed (slhTree (slhD - 1) 0) slhHp 0

/-- What a digest selects: the FORS digest, the tree and the leaf. -/
def slhDigest (r seed root m : List Byte) : List Byte × Nat × Nat :=
  let d := shake256 (r ++ seed ++ root ++ m) 47
  (d.take 39, ofBeBytes ((d.drop 39).take 7) % 2 ^ 56, ofBeBytes (d.drop 46) % 2 ^ slhHp)

/-- A message with the marks of the pure form and an empty context. -/
def slhPure (m : List Byte) : List Byte := [0, 0] ++ m

/-- Signature of a message: `key` is SK.seed, SK.prf and PK.seed end to end, `rnd` the 32 bytes of randomness. -/
def slhSign (key rnd m : List Byte) : List Byte :=
  let sk := slhPart key 0
  let seed := slhPart key 2
  let m := slhPure m
  let r := shake256 (slhPart key 1 ++ rnd ++ m) slhN
  let (md, tree, leaf) := slhDigest r seed (slhRoot sk seed) m
  let a : SlhAdrs := { slhTree 0 tree with typ := 3, x := leaf }
  let fors := forsSign sk seed a md
  r ++ fors ++ htSign sk seed slhD 0 tree leaf (forsFromSignature seed a fors md)

/-- Bytes of a signature. -/
def slhSigBytes : Nat := slhN * (1 + slhK * (1 + slhA) + slhD * (slhLen + slhHp))

/-- A signature of a message verifies under a public key, which is PK.seed and PK.root end to end. -/
def slhVerify (key m sig : List Byte) : Bool :=
  let seed := slhPart key 0
  let m := slhPure m
  let (md, tree, leaf) := slhDigest (slhPart sig 0) seed (slhPart key 1) m
  let fors := sig.drop slhN
  let pk := forsFromSignature seed { slhTree 0 tree with typ := 3, x := leaf } fors md
  sig.length == slhSigBytes && htRoot seed slhD 0 tree leaf (fors.drop (slhN * (slhK * (1 + slhA)))) pk == slhPart key 1

end Sys2Proof.Machine
end

