-- ==== Sys2Proof/Machine/Power.lean ====
section
/-! DEFINITION. Toll refills, cluster clocks, thermal limits, power-on, firmware authentication, gating of scratchpad units
and the freeze of the trace buffer (R379, R380, R425 to R427, R518, R527 to R538). -/

namespace Sys2Proof.Machine

/-! ### Depths and refills (R425, R426) -/

/-- The running launch that a cluster belongs to. -/
def clusterLaunch (s : State) (c : Nat) : Option Launch :=
  (s.launches.find? (fun p => holdsClusters p.2 && (lPart p.2.header).getLsbD c)).map (·.2)

/-- The cluster that a task belongs to; an unclaimed ragged record has none. -/
def taskCluster (t : Task) : Option Nat := if t.tileRec.isSome then t.claimed else some (clusterOf t.core)

/-- A cluster's depth: its dealt static tasks or claimed ragged records that are unbound, or bound and not yet completed;
communication tasks do not count (R426). -/
def depthOf (s : State) (c : Nat) : Nat :=
  match clusterLaunch s c with
  | some l => (l.tasks.filter (fun t => taskCluster t == some c && t.status != .finished && !t.comm)).length
  | none => 0

/-- Clusters of a die that belong to a running launch. -/
def busyClusters (s : State) (die : Nat) : List Nat :=
  ((List.range 8).map (fun i => 8 * die + i)).filter (fun c => (clusterLaunch s c).isSome)

/-- What a cluster of a die receives at a refill (R426). With a zero floor and no depth the manual's quotient has no
value: it is free. -/
def refillOf (s : State) (die c : Nat) : Nat :=
  let d := dieAt s die
  let f := d.floor.toNat
  let total := ((busyClusters s die).map (fun c => depthOf s c + f)).foldl (· + ·) 0
  if total = 0 then Config.unstatedShare (s.fresh + c) else d.budget.toNat * (depthOf s c + f) / total

/-- The refill of a cluster's cores, one eighth each (R425, R426). -/
def refillCluster (s0 : State) (die : Nat) (s : State) (c : Nat) : State :=
  let share := refillOf s0 die c / 8
  (coresOfCluster c).foldl (fun s n => withCore s n (fun k => { k with balance := min 4096 (k.balance + share) })) s

/-- TOLL_REFILL: every 64 ticks balances are refilled and units move to the outstanding requests (R425, R426). -/
def execTollRefill (s : State) : Host.Outcome State Fault Refusal :=
  if s.time / 64 ≤ s.refills then .next s
  else
    let t := (busyClusters s 0).foldl (refillCluster s 0) s
    let t := (busyClusters s 1).foldl (refillCluster s 1) t
    let t := { t with refills := s.refills + 1, fresh := s.fresh + 16 }
    .next ((t.cores.map (·.1)).foldl settleToll t)

/-! ### Clocks (R427, R535, R537) -/

/-- Clocks of a die by depth, in MHz (R427, steps 1 and 2). -/
def clocksByDepth (s : State) (die : Nat) : List (Nat × Nat) :=
  let top := ((busyClusters s die).map (depthOf s)).foldl max 0
  (List.range 8).map (fun i =>
    let c := 8 * die + i
    (c, if (clusterLaunch s c).isNone then 1500
        else if top = 0 then 1900
        else 1500 + 100 * (6 * depthOf s c / top)))

/-- The cluster with the highest clock, the highest number at a tie. -/
def fastest (l : List (Nat × Nat)) : Option (Nat × Nat) :=
  l.foldl (fun m p => match m with | none => some p | some q => if q.2 ≤ p.2 then some p else some q) none

/-- Lower the fastest cluster of a die by a step; every cluster at 1.5 GHz stays. -/
def lowerFastest (l : List (Nat × Nat)) : List (Nat × Nat) :=
  match fastest l with
  | some (c, f) => if f ≤ 1500 then l else l.map (fun p => if p.1 = c then (c, f - 100) else p)
  | none => l

/-- The clocks of a die and its power estimates: the one at these clocks, then those after each step that they are lowered. -/
structure DieClocks where
  clocks : List (Nat × Nat)
  watts : List Nat
deriving DecidableEq, Repr

/-- The present estimate. -/
def DieClocks.power (d : DieClocks) : Nat := d.watts.headD 0

/-- Some cluster runs above 1.5 GHz. -/
def DieClocks.lowers (d : DieClocks) : Bool := d.clocks.any (fun p => decide (1500 < p.2))

/-- One step down; the last estimate given stands for all later ones. -/
def DieClocks.lower (d : DieClocks) : DieClocks :=
  { clocks := lowerFastest d.clocks, watts := match d.watts with | _ :: w :: l => w :: l | l => l }

/-- Step 3 of R427: lower while the estimate exceeds the limit. Six steps for each of eight clusters are the most there are. -/
def underLimit (limit : Nat) : Nat → DieClocks → DieClocks
  | 0, d => d
  | n + 1, d => if limit < d.power ∧ d.lowers then underLimit limit n d.lower else d

/-- The module limit of R537: while the two dies' estimates with those of HBM and serdes exceed 2,000 W, the die with the larger
estimate lowers, die 0 at a tie. -/
def underModule (rest : Nat) : Nat → DieClocks → DieClocks → DieClocks × DieClocks
  | 0, a, b => (a, b)
  | n + 1, a, b =>
    if a.power + b.power + rest ≤ 2000 then (a, b)
    else if a.power < b.power then (if b.lowers then underModule rest n a b.lower else (a, b))
    else if a.lowers then underModule rest n a.lower b else (a, b)

/-- The limit in force of a die (R536). -/
def dieLimit (d : Die) : Nat := min d.dlim.toNat 1000

/-- Temperature of a cluster in an epoch's readings. -/
def temperature (r : EpochReadings) (c : Nat) : Nat := (r.clusterTemp[c]?).getD 0

/-- Set a cluster's clock; one that is thermally throttled is held at 1.5 GHz (R537). -/
def setClock (r : EpochReadings) (s : State) (p : Nat × Nat) : State :=
  let hot := if 95 ≤ temperature r p.1 then true else if temperature r p.1 < 90 then false else (clusterAt s p.1).throttled
  withCluster s p.1 (fun x => { x with throttled := hot, clock := if hot then 1500 else p.2 })

/-- The hottest cluster within a die, the lowest number at a tie. -/
def hottest (r : EpochReadings) (die : Nat) : Nat :=
  (List.range 8).foldl (fun m i => if temperature r (8 * die + m) < temperature r (8 * die + i) then i else m) 0

/-- The module's estimate of an epoch: those of the two dies with HBM and serdes (R535). -/
def modulePower (r : EpochReadings) : Nat := r.die0Power.headD 0 + r.die1Power.headD 0 + r.hbmPower + r.serdesPower

/-- What PWRSTAT shows of an epoch (R536). -/
def setReadings (r : EpochReadings) (die : Nat) (powers : List Nat) (s : State) : State :=
  let h := hottest r die
  withDie s die (fun d => { d with tmax := BitVec.ofNat 8 (temperature r (8 * die + h)), hot := BitVec.ofNat 4 h
                                   modpwr := BitVec.ofNat 16 (modulePower r)
                                   diepwr := BitVec.ofNat 16 (powers.headD 0) })

/-! ### Power (R527, R529, R532, R538) -/

/-- The device after power-on reset, with what outlives it: the security version fuse, the trip latch, and the model's own
record of the outside world. -/
def afterReset (s : State) : State :=
  { State.reset with tripped := s.tripped, svn := s.svn, fresh := s.fresh, agenda := s.agenda, answers := s.answers }

/-- THERMAL_TRIP: die power is removed and every launch is lost (R538). -/
def execThermalTrip (s : State) : Host.Outcome State Fault Refusal :=
  .next { afterReset s with tripped := true, powered := false }

/-- POWER_ON_RESET: the device enters POWER_ON with its registers at their Reset values (R11, R527). -/
def execPowerOnReset (s : State) : Host.Outcome State Fault Refusal := .next (afterReset s)

/-- A sensor reads 110 °C or more (R538). -/
def tripReading (r : EpochReadings) : Bool := (List.range 16).any (fun c => decide (110 ≤ temperature r c))

/-- The clocks and readings of an epoch (R427, R535 to R537). -/
def setEpoch (r : EpochReadings) (s : State) : State :=
  let a := underLimit (dieLimit (dieAt s 0)) 48 ⟨clocksByDepth s 0, r.die0Power⟩
  let b := underLimit (dieLimit (dieAt s 1)) 48 ⟨clocksByDepth s 1, r.die1Power⟩
  let (a, b) := underModule (r.hbmPower + r.serdesPower) 96 a b
  let s := (a.clocks ++ b.clocks).foldl (setClock r) { s with epochs := s.epochs + 1 }
  setReadings r 1 r.die1Power (setReadings r 0 r.die0Power s)

/-- CLOCK_EPOCH: every 65,536 ticks clocks follow depth, power and temperature; a reading of 110 °C or more is a thermal trip (R427,
R535 to R538). -/
def execClockEpoch (r : EpochReadings) (s : State) : Host.Outcome State Fault Refusal :=
  if s.time / 65536 ≤ s.epochs then .next s
  else if tripReading r then execThermalTrip s
  else .next (setEpoch r s)

/-- A measurement register; zero until extended (R532). -/
def measOf (s : State) (k : Nat) : List Byte := (Tbl.find s.meas k).getD (List.replicate 64 0)

/-- Extend a measurement register (R532). -/
def extend (s : State) (k : Nat) (component : List Byte) : State :=
  { s with meas := Tbl.put s.meas k (shake256 (measOf s k ++ shake256 component 64) 64) }

/-- CODE of a failure at power-on; 0x00 is none (R529). -/
def failureCode : Option PowerOnFailure → BitVec 8
  | none => 0
  | some .selfTest => 1
  | some .fuseRead => 2
  | some .training => 3

/-- POWER_ON_COMPLETE: fuses are read, the boot ROM is measured and HBM is trained, within 2 s; the device enters IDENTITY
(R527, R529, R532). The security version fuse never goes down. -/
def execPowerOnComplete (f : PowerOnFindings) (s : State) : Host.Outcome State Fault Refusal :=
  if s.bringup = .powerOn ∧ s.powered then
    let s := extend (extend s 0 f.rom) 1 (toBytes 512 f.fuses.toNat)
    .next { s with bringup := .identity, failCode := if f.failure.isNone then s.failCode else failureCode f.failure
                   step := f.step, serial := f.serial, svn := if s.svn.toNat ≤ f.svn.toNat then f.svn else s.svn
                   vendorKeyHash := f.vendorKeyHash }
  else .next s

/-! ### Firmware (R529, R530) -/

/-- A little-endian field of an image. -/
def imageField (b : List Byte) (off n : Nat) : Nat := ofBytes ((b.drop off).take n)

/-- Body length of an image. -/
def imageBody (b : List Byte) : Nat := imageField b 16 8

/-- Bytes of the signature. -/
def sigBytes : Nat := slhSigBytes

/-- Check 1: the magic, the lengths, L, and a security version in its range. -/
def imageFormed (b : List Byte) : Bool :=
  decide (88 ≤ b.length ∧ imageField b 0 8 = 0x5357464158563936 ∧ 0 < imageBody b ∧ imageBody b % 64 = 0 ∧
    b.length = 88 + imageBody b + sigBytes ∧ imageField b 12 4 ≤ 255)

/-- The vendor key of an image. -/
def imageKey (b : List Byte) : List Byte := (b.drop 24).take 64

/-- The code of the first check that fails; 0 when all pass (R530). -/
def imageCode (s : State) (b : List Byte) : BitVec 8 :=
  if !imageFormed b then 0x10
  else if shake256 (imageKey b) 32 ≠ toBytes 32 s.vendorKeyHash.toNat then 0x11
  else if !slhVerify (imageKey b) (b.take (88 + imageBody b)) (b.drop (88 + imageBody b)) then 0x12
  else if imageField b 12 4 < s.svn.toNat then 0x13
  else 0

/-- FIRMWARE_AUTH: in AUTH the received image is checked; the device becomes operational or goes back to IDENTITY (R527,
R529, R530, R532). -/
def execFirmwareAuth (s : State) : Host.Outcome State Fault Refusal :=
  if s.bringup = .auth then
    let c := imageCode s s.image
    if c = 0 then
      let body := (s.image.drop 88).take (imageBody s.image)
      .next { extend s 2 body with bringup := .operational, failCode := 0, runSvn := BitVec.ofNat 8 (imageField s.image 12 4), image := [] }
    else .next { s with bringup := .identity, failCode := c, image := [] }
  else .next s

/-! ### Scratchpad units (R379 to R381) -/

/-- Bytes of a scratchpad unit. -/
def unitBytes : Nat := 0x40000

/-- Slots whose bytes lie in a unit. -/
def slotInUnit (u i : Nat) : Bool := slotOffset i / unitBytes == u

/-- Whether a carve in progress changes a unit's role. -/
def carveChanges (k : CoreSt) (u : Nat) : Bool :=
  match k.carve with
  | some c => (carveUnits k.tu c.tu).contains u
  | none => false

/-- An access to a unit of a scratchpad is in flight: a request that has still to perform there (R380). -/
def unitAccessed (s : State) (core u : Nat) : Bool :=
  s.reqs.any (fun r => !r.performed && r.pas.any (fun a =>
    decide (spmAddr core (unitBytes * u) ≤ a ∧ a < spmAddr core (unitBytes * (u + 1)))))

/-- SPM_UNIT_GATE: a unit that GATE names loses its power and contents, unless a carve changes its role or an access to it is in
flight; its slots become invalid (R380, R381). -/
def execSpmUnitGate (core u : Nat) (s : State) : Host.Outcome State Fault Refusal :=
  let k := coreOf s core
  if core < Config.numCores ∧ u < 12 ∧ k.spgGate.getLsbD u ∧ k.spgAwake.getLsbD u ∧ !carveChanges k u ∧ !unitAccessed s core u then
    let s := dropSlots s core 7 (slotInUnit u)
    let s := { s with mem := memClear s.mem (spmAddr core (unitBytes * u)) unitBytes }
    .next (withCore s core (fun k => { k with spgAwake := k.spgAwake &&& ~~~ (1#12 <<< u) }))
  else .next s

/-- SPM_UNIT_WAKE: 256 cycles after the access that woke it a unit is awake, every byte zero (R380). -/
def execSpmUnitWake (core u : Nat) (s : State) : Host.Outcome State Fault Refusal :=
  match Tbl.find (coreOf s core).spgWake u with
  | some t =>
    if u < 12 ∧ t ≤ s.time then
      let s := { s with mem := memClear s.mem (spmAddr core (unitBytes * u)) unitBytes }
      .next (withCore s core (fun k => { k with spgAwake := k.spgAwake ||| (1#12 <<< u), spgWake := Tbl.del k.spgWake u }))
    else .next s
  | none => .next s

/-! ### The trace buffer (R518) -/

/-- TRACE_FREEZE: POST records after the trigger, the buffer is frozen (R518). -/
def execTraceFreeze (core : Nat) (s : State) : Host.Outcome State Fault Refusal :=
  if (coreOf s core).postLeft = some 0 then .next (withCore s core (fun k => { k with trcctl := k.trcctl ||| 4, postLeft := none }))
  else .next s

end Sys2Proof.Machine
end

