-- ==== Sys2Proof/Machine/Manage.lean ====
section
/-! DEFINITION. Management requests (R367, R379, R390, R393, R418, R475, R479, R493, R495, R509, R510, R518, R526 to R536). -/

namespace Sys2Proof.Machine

/-! ### Answers (R526, R527) -/

/-- Answer a request on the path on which it arrived (R526). -/
def replyTo (s : State) (r : Reply) : State := answer s (.mgmt s.via r)

/-- A request that the device answers only when operational; before that it is answered NOTREADY, and a device without
power answers nothing (R527, R538). -/
def whenOperational (s : State) (r : State) : Host.Outcome State Fault Refusal :=
  if s.bringup = .operational then .next r
  else if s.powered then .next (replyTo s .notReady) else .next s

/-- A request that is done. -/
def done (s : State) : State := replyTo s .ok

/-! ### Tenants (R367, R393, R504, R532, R534) -/

/-- A directory root entry (R367). -/
def rootImage (valid : Bool) (base cap count : Nat) : BitVec 128 :=
  (0 : BitVec 14) ++ BitVec.ofNat 17 cap ++ BitVec.ofNat 17 count ++ (0 : BitVec 15) ++ BitVec.ofBool valid ++ (0 : BitVec 16) ++
    BitVec.ofNat 43 (base / 32) ++ (0 : BitVec 5)

/-- A queue descriptor (R393). -/
def queueImage (r : AdmitRecord) : BitVec 192 :=
  r.ringVa ++ r.dbVa ++ (0 : BitVec 32) ++ r.asid ++ (0 : BitVec 24) ++ BitVec.ofNat 4 r.log2s ++ (0 : BitVec 3) ++ (1 : BitVec 1)

/-- Some launch of an ASID has not ended. -/
def asidBusy (s : State) (asid : BitVec 16) : Bool := s.launches.any (fun p => p.2.asid == asid && p.2.status != .ended)

/-- Bytes of the trap area: a record for each context of each core (R502). -/
def trapBytes : Nat := 64 * 5 * Config.numCores

/-- A record's ranges map an address, with the permissions that its use needs. -/
def recordMaps (r : AdmitRecord) (va : Nat) (need : List Nat) : Bool :=
  r.ranges.any (fun d => covers d (va / 4096) && permits d need)

/-- First addresses of the pages that hold `n` bytes from an address. -/
def pagesOf (va n : Nat) : List Nat := (List.range ((va + n - 1) / 4096 - va / 4096 + 1)).map (fun i => 4096 * (va / 4096 + i))

/-- The maps of TRAPVA and HVEC, every page of the trap area among them, which the record gives among its ranges (R502, R504, R534; DESIGN CHOICE, Assumption 109). -/
def mapsTraps (s : State) (r : AdmitRecord) : Bool :=
  recordMaps r s.hvec.toNat [permEx] && (pagesOf s.trapva.toNat trapBytes).all (fun a => recordMaps r a [permRd, permWr])

/-- A tenant record that can be taken: a free queue and ASID, sizes and alignments as R367 and R393 state them, and the maps
of TRAPVA and HVEC. -/
def admissible (s : State) (r : AdmitRecord) : Bool :=
  decide (r.queue < 16 ∧ 4 ≤ r.log2s ∧ r.log2s ≤ 12 ∧ r.cap ≤ 65536 ∧ r.ranges.length ≤ r.cap ∧ r.arrayBase % 32 = 0 ∧
    r.arrayBase < 2 ^ 48 ∧ r.ringVa.toNat % 32 = 0 ∧ r.dbVa.toNat % 16 = 0) &&
    !qValid (queueOf s r.queue).desc && (rootOf s r.asid).isNone && mapsTraps s r

/-- A write of the management processor itself, as a normal access with its unit's NETSLK (R468). -/
def mgmtWrite (s : State) (cells : List Host.Cell) : State :=
  let pas := cells.map (·.1)
  touchLines ((insideChunks s pas).foldl (fun s c => sendUnitAccess s mgmtEndpoint true (endpointOf s 0 (c.headD 0)) (c.headD 0) c.length)
    (homeWrite s cells)) pas plainHint true

/-- The directory of a tenant, as its record gives it: the array with the maps of TRAPVA and HVEC, and the root entry. -/
def writeTenant (s : State) (r : AdmitRecord) : State :=
  let s := mgmtWrite s (cellsAt r.arrayBase (r.ranges.flatMap (fun d => toBytes 32 d.toNat)))
  mgmtWrite s (cellsAt (rootAddr s r.asid) (toBytes 16 (rootImage true r.arrayBase r.cap r.ranges.length).toNat))

/-- The bytes of a record that MEAS3 measures (R532). -/
def measuredRecord (r : AdmitRecord) : List Byte :=
  Config.admissionRecord [r.asid.toNat, r.queue, r.ringVa.toNat, r.dbVa.toNat, r.log2s, r.cap, r.arrayBase] r.ranges

/-- ADMIT: a tenant gets an ASID, a launch queue and a directory; MEAS3 is extended (R393, R532, R534). -/
def execAdmitReq (r : AdmitRecord) (s : State) : Host.Outcome State Fault Refusal :=
  whenOperational s
    (if admissible s r then
      let s := extend (writeTenant s r) 3 (measuredRecord r)
      done (setQueue s r.queue { desc := queueImage r, consumer := 0, producer := 0, taken := 0 })
    else replyTo s .refused)

/-- RETIRE: once its launches have ended, a tenant's queue and root entry become invalid (R534). -/
def execRetire (asid : BitVec 16) (s : State) : Host.Outcome State Fault Refusal :=
  whenOperational s
    (if asidBusy s asid then replyTo s .busy
    else
      let mine (q : Queue) : Bool := qValid q.desc && qAsid q.desc == asid
      let qs := (s.queues.filter (fun q => mine q.2)).map (·.1)
      let s := { s with queues := s.queues.map (fun q => if mine q.2 then (q.1, Queue.init) else q)
                        launches := s.launches.filter (fun p => !qs.contains p.2.queue) }
      match rootOf s asid with
      | some e => done (mgmtWrite s (cellsAt (rootAddr s asid) (toBytes 16 (rootImage false e.base e.cap e.count).toNat)))
      | none => done s)

/-! ### Launches (R418, R420, R510) -/

/-- Launches of a COOKIE that have not ended (R564). -/
def launchesNamed (s : State) (cookie : BitVec 64) : List Nat :=
  (s.launches.filter (fun p => p.2.entry.extractLsb' 0 64 == cookie &&
    (match p.2.status with | .ending _ => false | .ended => false | _ => true))).map (·.1)

/-- ABORT: the launches of a COOKIE end with STATUS ABORTED (R418, R534). -/
def execAbort (cookie : BitVec 64) (s : State) : Host.Outcome State Fault Refusal :=
  whenOperational s
    (match launchesNamed s cookie with
     | [] => replyTo s .refused
     | l => done (l.foldl (fun s lid => endLaunch s lid { status := 5, code := 0, cause := 0 }) s))

/-- Request the pre-emption of a task context: f15 is set and its time starts to run (R510, R521). A context that waits
after `done` ignores it (R177); one that is asked already keeps its time. -/
def requestSave (s : State) (core ctx : Nat) : State :=
  let c := ctxOf s core ctx
  if c.preempt.isSome || replaysIn s core ctx then s
  else
    match c.status with
    | .running =>
      logAt (withCtx s core ctx (fun c => { c with flags := c.flags ||| 0x8000, preempt := some (s.time + s.prewait.toNat) }))
        core ctx 0x0A 0 0 0 []
    | .frozen =>
      if c.ended then s
      else logAt (withCtx s core ctx (fun c => { c with flags := c.flags ||| 0x8000, preempt := some s.prewait.toNat }))
        core ctx 0x0A 0 0 0 []
    | _ => s

/-- Pre-empt the task contexts of a core that hold a task. -/
def requestCore (s : State) (core : Nat) : State :=
  (List.range 4).foldl (fun s k => if (ctxOf s core k).task.isSome then requestSave s core k else s) s

/-- The running launch of a COOKIE. -/
def runningNamed (s : State) (cookie : BitVec 64) : Option (Nat × Launch) :=
  s.launches.find? (fun p => p.2.entry.extractLsb' 0 64 == cookie && p.2.status == .running)

/-- PREEMPT: of a launch, which is then suspended; of named cores, which bind nothing until they are released; or the
release of cores (R419, R420, R510, R534). -/
def execPreempt (r : PreemptRequest) (s : State) : Host.Outcome State Fault Refusal :=
  whenOperational s
    (match r with
     | .cores l =>
       done ((l.filter (fun n => decide (n < Config.numCores))).foldl (fun s n =>
         requestCore (withCore s n (fun k => { k with held := true })) n) s)
     | .release l =>
       done ((l.filter (fun n => decide (n < Config.numCores))).foldl (fun s n => withCore s n (fun k => { k with held := false })) s)
     | .launch cookie =>
       match runningNamed s cookie with
       | none => replyTo s .refused
       | some (lid, l) =>
         let s := setLaunch s lid { l with status := .suspending }
         done ((contextsOf s lid).foldl (fun s p => requestSave s p.1 p.2) s))

/-! ### Tables (R479, R493, R495) -/

/-- A queue pair enters the error state as its entry is written (R493, R496). -/
def entersError (s : State) (i : Nat) (e : BitVec 256) : Bool := e.extractLsb' 32 2 == 2 && qpState s i != 2

/-- QPSET: an entry of the queue pair table; one whose STATE becomes 2 ends every access queued on it (R493, R496). -/
def execQpset (i : Nat) (e : BitVec 256) (s : State) : Host.Outcome State Fault Refusal :=
  whenOperational s
    (if i < 1024 then done (if entersError s i e then failQp s i e else { s with qps := Tbl.put s.qps i e })
     else replyTo s .refused)

/-- WINSET: an entry of the window table (R495). -/
def execWinset (i : Nat) (e : BitVec 256) (s : State) : Host.Outcome State Fault Refusal :=
  whenOperational s (if i < 64 then done { s with windows := Tbl.put s.windows i e } else replyTo s .refused)

/-- A generation of a group is open: a contribution to it is on its way or waits for its release (R479, R481). -/
def groupOpen (s : State) (i : Nat) : Bool :=
  s.ops.any (fun o => (o.contribution.map (·.1)) == some i) || s.packets.any (fun p => p.pkt.typ == 7 && auxGroup p.pkt.aux == i)

/-- RGSET: an entry of the reduction group table, whose GEN keeps its value; not while a generation is open (R479). -/
def execRgset (i : Nat) (e : BitVec 384) (s : State) : Host.Outcome State Fault Refusal :=
  whenOperational s
    (let g := Tbl.look RGroup.init s.groups i
     if 16 ≤ i then replyTo s .refused
     else if g.parts ≠ [] ∨ groupOpen s i then replyTo s .busy
     else
       let gen : BitVec 384 := 0xFFFF#384 <<< 48
       done { s with groups := Tbl.put s.groups i { g with entry := (e &&& ~~~gen) ||| (g.entry &&& gen) } })

/-! ### Registers (R379, R390, R475, R509, R528, R536) -/

/-- DSTAT.STATE (R528). -/
def stateCode : Bringup → BitVec 3
  | .powerOn => 0
  | .identity => 1
  | .auth => 2
  | .operational => 3

def devidWord (s : State) : Word := 0x4158#16 ++ 0x0960#16 ++ s.step ++ (0 : BitVec 16)

def dstatWord (s : State) : Word :=
  (0 : BitVec 32) ++ s.failCode ++ s.svn ++ (0 : BitVec 12) ++ BitVec.ofBool s.tripped ++ stateCode s.bringup

/-- CLKMAP of a die (R536). -/
def clkMap (s : State) (die : Nat) : BitVec 16 :=
  (List.range 8).foldl (fun m i => if (clusterAt s (8 * die + i)).throttled then m ||| (1#16 <<< i) else m) 0

/-- Whether a register exists. -/
def regExists : MgmtReg → Bool
  | .wpa core n | .wpc core n => decide (core < Config.numCores ∧ n < 4)
  | .trcpost core | .trgval core | .spg core | .latecntCore core | .netslkCore core | .age core | .trcctl core | .tollbal core =>
    decide (core < Config.numCores)
  | .slwg k | .latecntPort k | .netslkPort k | .pinOver k | .corrected (.slice k) => decide (k < 64)
  | .corrected (.tagArray core) | .corrected (.scratchpad core) | .corrected (.rangeTable core) => decide (core < Config.numCores)
  | .netslkUnit e => decide (192 ≤ e ∧ e ≤ 228)
  | .pwrctl d | .pwrstat d | .discards d => decide (d < 2)
  | .retrans p => decide (p < 48)
  | _ => true

/-- What a management register reads. -/
def readReg (s : State) : MgmtReg → Word
  | .devid => devidWord s
  | .serial => s.serial
  | .dstat => dstatWord s
  | .trapva => s.trapva
  | .hvec => s.hvec
  | .prewait => s.prewait.setWidth 64
  | .rlogb => s.rlogb
  | .rlogl => s.rlogl
  | .rplctl => if s.replay then 1 else 0
  | .hyst => s.hyst.setWidth 64
  | .ftimeout => BitVec.ofNat 64 s.ftimeout
  | .wpa core n => Tbl.look 0 (coreOf s core).wpa n
  | .wpc core n => Tbl.look 0 (coreOf s core).wpc n
  | .trcpost core => (coreOf s core).trcpost.setWidth 64
  | .trgval core => (coreOf s core).trgval.setWidth 64
  | .spg core => (0 : BitVec 36) ++ (coreOf s core).spgAwake ++ (0 : BitVec 4) ++ (coreOf s core).spgGate
  | .slwg k => (0 : BitVec 32) ++ (sliceOf s k).awake ++ (0 : BitVec 4) ++ (sliceOf s k).gate ++ (0 : BitVec 4)
  | .latecntCore core => (coreOf s core).latecnt
  | .latecntPort k => (sliceOf s k).latecnt
  | .netslkCore core => (coreOf s core).netslk
  | .netslkPort k => (sliceOf s k).netslk
  | .age core => (coreOf s core).age.setWidth 64
  | .trcctl core => (coreOf s core).trcctl
  | .pwrctl d => (0 : BitVec 16) ++ (dieAt s d).floor ++ (dieAt s d).budget ++ (dieAt s d).dlim
  | .pwrstat d =>
    (dieAt s d).tmax ++ (dieAt s d).hot ++ (0 : BitVec 4) ++ (dieAt s d).modpwr ++ (dieAt s d).diepwr ++ clkMap s d
  | .tollbal core => BitVec.ofNat 64 (coreOf s core).balance
  | .drtb => s.drtb
  | .device => s.device.setWidth 64
  | .dropped => BitVec.ofNat 64 s.dropped
  | .pinOver k => BitVec.ofNat 64 (sliceOf s k).pinOver
  | .netslkUnit e => Tbl.look 0x3FF s.edgeSlk e
  | .lateUnits => BitVec.ofNat 64 s.mgmtLate
  | .pfc => if s.pfc then 1 else 0
  | .corrected u => BitVec.ofNat 64 (((s.corrected.find? (fun e => e.1 == u)).map (·.2)).getD 0)
  | .discards e => BitVec.ofNat 64 (Tbl.look 0 s.edges e)
  | .retrans p => BitVec.ofNat 64 (portState s p).retrans

/-- A write of SPG (R379). -/
def writeSpg (s : State) (core : Nat) (v : Word) : State := withCore s core (fun k => { k with spgGate := v.extractLsb' 0 12 })

/-- A write of SLWG (R390). -/
def writeSlwg (s : State) (slice : Nat) (v : Word) : State := withSlice s slice (fun k => { k with gate := v.extractLsb' 4 12 })

/-- Bits of a late-event count that a write clears (R475). -/
def clearBits (c v : Word) : Word := c &&& ~~~(v &&& 0xFFFFFFFF)

/-- A write of LATECNT of a core or of a memory port (R475). -/
def writeLatecnt (s : State) (port : Bool) (n : Nat) (v : Word) : State :=
  if port then withSlice s n (fun k => { k with latecnt := clearBits k.latecnt v })
  else withCore s n (fun k => { k with latecnt := clearBits k.latecnt v })

/-- A write of PWRCTL (R536). -/
def writePwrctl (s : State) (die : Nat) (v : Word) : State :=
  withDie s die (fun d => { d with floor := v.extractLsb' 32 16, budget := v.extractLsb' 16 16, dlim := v.extractLsb' 0 16 })

/-- A write of DSTAT: writing 1 to TRIPPED clears it (R528). -/
def writeDstat (s : State) (v : Word) : State := { s with tripped := s.tripped && !v.getLsbD 3 }

/-- A write of TRCCTL, AGE or HYST, as the service context's `ctl.wr` makes it (R10, R53, R54). -/
def writeCtl (s : State) (core crn : Nat) (v : Word) : State := (ctlStore core s Ctx.init crn v).1

/-- A write of a management register; read-only registers keep their value. -/
def writeReg (s : State) (r : MgmtReg) (v : Word) : State :=
  match r with
  | .dstat => writeDstat s v
  | .trapva => { s with trapva := v &&& 0xFFFFFFFFFFFFFF }
  | .hvec => { s with hvec := v &&& 0xFFFFFFFFFFFFFF }
  | .prewait => { s with prewait := v.extractLsb' 0 32 }
  | .rlogb => { s with rlogb := v &&& 0xFFFFFFFFF000 }
  | .rlogl => { s with rlogl := v &&& 0xFFFFFFF000 }
  | .rplctl => { s with replay := v.getLsbD 0 }
  | .hyst => writeCtl s 0 0x06 v
  | .ftimeout => { s with ftimeout := v.toNat }
  | .wpa core n => withCore s core (fun k => { k with wpa := Tbl.put k.wpa n (v &&& 0xFFFFFFFFFFFFFF) })
  | .wpc core n => withCore s core (fun k => { k with wpc := Tbl.put k.wpc n (v &&& 0xFF071F) })
  | .trcpost core => withCore s core (fun k => { k with trcpost := v.extractLsb' 0 12 })
  | .trgval core => withCore s core (fun k => { k with trgval := v.extractLsb' 0 16 })
  | .spg core => writeSpg s core v
  | .slwg k => writeSlwg s k v
  | .latecntCore core => writeLatecnt s false core v
  | .latecntPort k => writeLatecnt s true k v
  | .netslkCore core => withCore s core (fun k => { k with netslk := v &&& 0x3FF })
  | .netslkPort k => withSlice s k (fun x => { x with netslk := v &&& 0x3FF })
  | .age core => writeCtl s core 0x04 v
  | .trcctl core => writeCtl s core 0x05 v
  | .pwrctl d => writePwrctl s d v
  | .drtb => { s with drtb := v &&& 0xFFFFFFF00000 }
  | .device => { s with device := v.extractLsb' 0 10 }
  | .netslkUnit e => { s with edgeSlk := Tbl.put s.edgeSlk e (v &&& 0x3FF) }
  | .pfc => { s with pfc := v.getLsbD 0 }
  | .lateUnits | .devid | .serial | .pwrstat _ | .tollbal _ | .dropped | .pinOver _ | .corrected _ | .discards _ | .retrans _ => s

/-- Registers that answer before the device is operational (R527). -/
def earlyReg : MgmtReg → Bool
  | .devid | .serial | .dstat => true
  | _ => false

/-- REGRD: read a management register (R527, R534). -/
def execRegrd (r : MgmtReg) (s : State) : Host.Outcome State Fault Refusal :=
  if earlyReg r && s.bringup != .powerOn then .next (replyTo s (.value (readReg s r)))
  else whenOperational s (replyTo s (if regExists r then .value (readReg s r) else .refused))

/-- REGWR: write a management register (R534). -/
def execRegwr (r : MgmtReg) (v : BitVec 64) (s : State) : Host.Outcome State Fault Refusal :=
  whenOperational s (if regExists r then done (writeReg s r v) else replyTo s .refused)

/-- SPG_WRITE: request gating of scratchpad units (R379). -/
def execSpgWrite (core : Nat) (v : BitVec 64) (s : State) : Host.Outcome State Fault Refusal :=
  whenOperational s (if core < Config.numCores then done (writeSpg s core v) else replyTo s .refused)

/-- SLWG_WRITE: request gating or power-up of cache ways (R390, R391). -/
def execSlwgWrite (slice : Nat) (v : BitVec 64) (s : State) : Host.Outcome State Fault Refusal :=
  whenOperational s (if slice < 64 then done (writeSlwg s slice v) else replyTo s .refused)

/-- LATECNT_CLEAR: ones clear bits of a late-event count (R475). -/
def execLatecntClear (port : Bool) (n : Nat) (v : BitVec 64) (s : State) : Host.Outcome State Fault Refusal :=
  whenOperational s (if n < (if port then 64 else Config.numCores) then done (writeLatecnt s port n v) else replyTo s .refused)

/-- PWRCTL_WRITE: floor, budget and limit of a die, read at its next refill or epoch (R536). -/
def execPwrctlWrite (die : Nat) (v : BitVec 64) (s : State) : Host.Outcome State Fault Refusal :=
  whenOperational s (if die < 2 then done (writePwrctl s die v) else replyTo s .refused)

/-- TRIPPED_CLEAR: writing 1 to DSTAT.TRIPPED clears the latch (R528). -/
def execTrippedClear (v : BitVec 64) (s : State) : Host.Outcome State Fault Refusal :=
  whenOperational s (done (writeDstat s v))

/-- TRCRD: a core's trace buffer, oldest record first (R516, R518, R534). -/
def execTrcrd (core : Nat) (s : State) : Host.Outcome State Fault Refusal :=
  whenOperational s (replyTo s (if core < Config.numCores then .trace ((coreOf s core).trace.reverse.map TraceRec.bits) else .refused))

/-! ### Identity and firmware requests (R530, R531, R533, R534) -/

/-- FUSESVN: the fuse rises to the running image's SVN (R530, R534). -/
def execFusesvn (s : State) : Host.Outcome State Fault Refusal :=
  whenOperational s (done { s with svn := if s.svn.toNat ≤ s.runSvn.toNat then s.runSvn else s.svn })

/-- The identity key: SK.seed, SK.prf and PK.seed, one after another (R531). The text VS960-ID follows the fused secret, so that a
part has one key. -/
def identityKey : List Byte :=
  shake256 (toBytes 32 Config.fusedSecret.toNat ++ [0x56, 0x53, 0x39, 0x36, 0x30, 0x2D, 0x49, 0x44]) 96

/-- What ATTEST signs (R533). -/
def attestBody (s : State) (nonce : BitVec 256) : List Byte :=
  toBytes 8 (devidWord s).toNat ++ toBytes 8 s.serial.toNat ++ toBytes 8 (dstatWord s).toNat ++
    (List.range 4).flatMap (measOf s) ++ toBytes 32 nonce.toNat ++ Config.identityCertificate

/-- ATTEST (R527, R533). The signature's randomness is free (Assumption 6). -/
def execAttest (nonce : BitVec 256) (s : State) : Host.Outcome State Fault Refusal :=
  match s.bringup with
  | .powerOn => .next (if s.powered then replyTo s .notReady else s)
  | .auth => .next (replyTo s .busy)
  | .identity | .operational =>
    let b := attestBody s nonce
    let r := toBytes 32 (Config.signatureRandom s.fresh).toNat
    .next (replyTo { s with fresh := s.fresh + 1 } (.attestation (b ++ slhSign identityKey r b)))

/-- LOADFW: an image received whole takes the device to AUTH (R527, R530). -/
def execLoadfw (image : List Byte) (s : State) : Host.Outcome State Fault Refusal :=
  match s.bringup with
  | .identity =>
    if s.failCode = 3 then .next (replyTo s .notReady)
    else .next (done { s with image := image, bringup := .auth })
  | .powerOn => .next (if s.powered then replyTo s .notReady else s)
  | .auth | .operational => .next (replyTo s .notReady)

end Sys2Proof.Machine
end

