-- ==== Sys2Proof/Machine/Dispatch.lean ====
section
/-! DEFINITION. One arm per row of spec/opcode_table.json: an instruction's or event's meaning. -/

namespace Sys2Proof.Machine

/-- The meaning of every instruction and event. -/
def exec (i : Instr) (s : State) : Host.Outcome State Fault Refusal :=
  match i with
  | .bundleIssue core ctx => Sys2Proof.Machine.execBundleIssue core ctx s
  | .pendingStop core ctx => Sys2Proof.Machine.execPendingStop core ctx s
  | .add d a b imm => Sys2Proof.Machine.execAdd d a b imm s
  | .sub d a b imm => Sys2Proof.Machine.execSub d a b imm s
  | .mul d a b imm => Sys2Proof.Machine.execMul d a b imm s
  | .mulh d a b imm => Sys2Proof.Machine.execMulh d a b imm s
  | .mulhu d a b imm => Sys2Proof.Machine.execMulhu d a b imm s
  | .div d a b imm => Sys2Proof.Machine.execDiv d a b imm s
  | .divu d a b imm => Sys2Proof.Machine.execDivu d a b imm s
  | .rem d a b imm => Sys2Proof.Machine.execRem d a b imm s
  | .remu d a b imm => Sys2Proof.Machine.execRemu d a b imm s
  | .and d a b imm => Sys2Proof.Machine.execAnd d a b imm s
  | .or d a b imm => Sys2Proof.Machine.execOr d a b imm s
  | .xor d a b imm => Sys2Proof.Machine.execXor d a b imm s
  | .andn d a b imm => Sys2Proof.Machine.execAndn d a b imm s
  | .shl d a b imm => Sys2Proof.Machine.execShl d a b imm s
  | .shr d a b imm => Sys2Proof.Machine.execShr d a b imm s
  | .sra d a b imm => Sys2Proof.Machine.execSra d a b imm s
  | .rotl d a b imm => Sys2Proof.Machine.execRotl d a b imm s
  | .min d a b imm => Sys2Proof.Machine.execMin d a b imm s
  | .max d a b imm => Sys2Proof.Machine.execMax d a b imm s
  | .minu d a b imm => Sys2Proof.Machine.execMinu d a b imm s
  | .maxu d a b imm => Sys2Proof.Machine.execMaxu d a b imm s
  | .cmp d a b cond imm => Sys2Proof.Machine.execCmp d a b cond imm s
  | .sel d a b c imm => Sys2Proof.Machine.execSel d a b c imm s
  | .clz d a => Sys2Proof.Machine.execClz d a s
  | .ctz d a => Sys2Proof.Machine.execCtz d a s
  | .popc d a => Sys2Proof.Machine.execPopc d a s
  | .ext d a sgn width lsb => Sys2Proof.Machine.execExt d a sgn width lsb s
  | .ins d a c width lsb => Sys2Proof.Machine.execIns d a c width lsb s
  | .li d imm => Sys2Proof.Machine.execLi d imm s
  | .lih d a imm => Sys2Proof.Machine.execLih d a imm s
  | .addi d a imm => Sys2Proof.Machine.execAddi d a imm s
  | .mov d a => Sys2Proof.Machine.execMov d a s
  | .lea d a b sh imm => Sys2Proof.Machine.execLea d a b sh imm s
  | .fadd d a b r => Sys2Proof.Machine.execFadd d a b r s
  | .fsub d a b r => Sys2Proof.Machine.execFsub d a b r s
  | .fmul d a b r => Sys2Proof.Machine.execFmul d a b r s
  | .fma d a b c r => Sys2Proof.Machine.execFma d a b c r s
  | .fmin d a b => Sys2Proof.Machine.execFmin d a b s
  | .fmax d a b => Sys2Proof.Machine.execFmax d a b s
  | .fcmp d a b cnd => Sys2Proof.Machine.execFcmp d a b cnd s
  | .fcvt d a ft fs r => Sys2Proof.Machine.execFcvt d a ft fs r s
  | .br a cond off => Sys2Proof.Machine.execBr a cond off s
  | .jmp off => Sys2Proof.Machine.execJmp off s
  | .jr a disp => Sys2Proof.Machine.execJr a disp s
  | .call a off => Sys2Proof.Machine.execCall a off s
  | .callI a b disp => Sys2Proof.Machine.execCallI a b disp s
  | .ret a => Sys2Proof.Machine.execRet a s
  | .loop a n cnt off => Sys2Proof.Machine.execLoop a n cnt off s
  | .loopLv n off => Sys2Proof.Machine.execLoopLv n off s
  | .yld cycles => Sys2Proof.Machine.execYld cycles s
  | .done => Sys2Proof.Machine.execDone s
  | .taskComplete core ctx => Sys2Proof.Machine.execTaskComplete core ctx s
  | .halt code => Sys2Proof.Machine.execHalt code s
  | .bar scope level id => Sys2Proof.Machine.execBar scope level id s
  | .barArr scope level id => Sys2Proof.Machine.execBarArr scope level id s
  | .barWt level id => Sys2Proof.Machine.execBarWt level id s
  | .flagSet mask => Sys2Proof.Machine.execFlagSet mask s
  | .flagSetCore a mask => Sys2Proof.Machine.execFlagSetCore a mask s
  | .flagSetRmt a sl mask => Sys2Proof.Machine.execFlagSetRmt a sl mask s
  | .flagClr mask => Sys2Proof.Machine.execFlagClr mask s
  | .ctlRd a crn => Sys2Proof.Machine.execCtlRd a crn s
  | .ctlWr a crn => Sys2Proof.Machine.execCtlWr a crn s
  | .prePt off => Sys2Proof.Machine.execPrePt off s
  | .trap code => Sys2Proof.Machine.execTrap code s
  | .rte a => Sys2Proof.Machine.execRte a s
  | .ifence => Sys2Proof.Machine.execIfence s
  | .toll a amount => Sys2Proof.Machine.execToll a amount s
  | .trcMk payload => Sys2Proof.Machine.execTrcMk payload s
  | .nop => Sys2Proof.Machine.execNop s
  | .ld d a h sp sx sz off => Sys2Proof.Machine.execLd d a h sp sx sz off s
  | .loadDataReturn core ctx seq => Sys2Proof.Machine.execLoadDataReturn core ctx seq s
  | .st d a h sp sz off => Sys2Proof.Machine.execSt d a h sp sz off s
  | .ldX d a h sp sc pat off => Sys2Proof.Machine.execLdX d a h sp sc pat off s
  | .stX d a h sp sc off => Sys2Proof.Machine.execStX d a h sp sc off s
  | .ldXg d a pat off => Sys2Proof.Machine.execLdXg d a pat off s
  | .xpSet slot a off => Sys2Proof.Machine.execXpSet slot a off s
  | .spmCarve t n => Sys2Proof.Machine.execSpmCarve t n s
  | .carveComplete core => Sys2Proof.Machine.execCarveComplete core s
  | .tagLk d a off => Sys2Proof.Machine.execTagLk d a off s
  | .tagFl t a b h => Sys2Proof.Machine.execTagFl t a b h s
  | .tagFillDone core slot => Sys2Proof.Machine.execTagFillDone core slot s
  | .tagEv t a sl => Sys2Proof.Machine.execTagEv t a sl s
  | .tagEvWb t a sl => Sys2Proof.Machine.execTagEvWb t a sl s
  | .tagInv a off => Sys2Proof.Machine.execTagInv a off s
  | .tdMk t a b sp h => Sys2Proof.Machine.execTdMk t a b sp h s
  | .tdRel a off => Sys2Proof.Machine.execTdRel a off s
  | .qBind t a b c dir win len h => Sys2Proof.Machine.execQBind t a b c dir win len h s
  | .streamRowFetch core ctx q => Sys2Proof.Machine.execStreamRowFetch core ctx q s
  | .streamRowWrite core ctx q => Sys2Proof.Machine.execStreamRowWrite core ctx q s
  | .qAdv q a off => Sys2Proof.Machine.execQAdv q a off s
  | .qAdvRp q a off => Sys2Proof.Machine.execQAdvRp q a off s
  | .qWait q a off => Sys2Proof.Machine.execQWait q a off s
  | .qDrain t c => Sys2Proof.Machine.execQDrain t c s
  | .cp t a b c ds ss len h => Sys2Proof.Machine.execCp t a b c ds ss len h s
  | .cpKvchk t a b c ds ss len h => Sys2Proof.Machine.execCpKvchk t a b c ds ss len h s
  | .cpG t a b c ds ss clamp rsz cnt h => Sys2Proof.Machine.execCpG t a b c ds ss clamp rsz cnt h s
  | .cpS t a b c ds ss clamp rsz cnt h => Sys2Proof.Machine.execCpS t a b c ds ss clamp rsz cnt h s
  | .copyComplete core ctx seq => Sys2Proof.Machine.execCopyComplete core ctx seq s
  | .commandSuspend core ctx seq => Sys2Proof.Machine.execCommandSuspend core ctx seq s
  | .pfT t a scl sl evp => Sys2Proof.Machine.execPfT t a scl sl evp s
  | .pin t a b c w => Sys2Proof.Machine.execPin t a b c w s
  | .unpin t w => Sys2Proof.Machine.execUnpin t w s
  | .am t a b c aop ty scope ord disp h => Sys2Proof.Machine.execAm t a b c aop ty scope ord disp h s
  | .red t a b aop ty scope ord disp h => Sys2Proof.Machine.execRed t a b aop ty scope ord disp h s
  | .drain scope => Sys2Proof.Machine.execDrain scope s
  | .put t a b c ss rows sl => Sys2Proof.Machine.execPut t a b c ss rows sl s
  | .get t a b c ds rows sl => Sys2Proof.Machine.execGet t a b c ds rows sl s
  | .mcast t a b c len sl => Sys2Proof.Machine.execMcast t a b c len sl s
  | .acSet t a watch ctr => Sys2Proof.Machine.execAcSet t a watch ctr s
  | .acAdd t a sl => Sys2Proof.Machine.execAcAdd t a sl s
  | .acWait ctr => Sys2Proof.Machine.execAcWait ctr s
  | .kvChk t a b watch cnt sl => Sys2Proof.Machine.execKvChk t a b watch cnt sl s
  | .rngIns t a b sl => Sys2Proof.Machine.execRngIns t a b sl s
  | .rngDel t a b sl => Sys2Proof.Machine.execRngDel t a b sl s
  | .rngSplit t a b sl => Sys2Proof.Machine.execRngSplit t a b sl s
  | .rngMerge t a b sl => Sys2Proof.Machine.execRngMerge t a b sl s
  | .rngInv t a b c all sl => Sys2Proof.Machine.execRngInv t a b c all sl s
  | .rngReloc t a b c sl => Sys2Proof.Machine.execRngReloc t a b c sl s
  | .relocChunkMove core ctx seq => Sys2Proof.Machine.execRelocChunkMove core ctx seq s
  | .rngResOr t a b c sl => Sys2Proof.Machine.execRngResOr t a b c sl s
  | .rngResAndn t a b c sl => Sys2Proof.Machine.execRngResAndn t a b c sl s
  | .rngResWr t a b c sl => Sys2Proof.Machine.execRngResWr t a b c sl s
  | .rngRd t a b c sl => Sys2Proof.Machine.execRngRd t a b c sl s
  | .rangeCmdComplete core ctx seq => Sys2Proof.Machine.execRangeCmdComplete core ctx seq s
  | .vadd d a b pm r bs dt => Sys2Proof.Machine.execVadd d a b pm r bs dt s
  | .vsub d a b pm r bs dt => Sys2Proof.Machine.execVsub d a b pm r bs dt s
  | .vmul d a b pm r bs dt => Sys2Proof.Machine.execVmul d a b pm r bs dt s
  | .vfma d a b c pm r bs dt => Sys2Proof.Machine.execVfma d a b c pm r bs dt s
  | .vmin d a b pm r bs dt => Sys2Proof.Machine.execVmin d a b pm r bs dt s
  | .vmax d a b pm r bs dt => Sys2Proof.Machine.execVmax d a b pm r bs dt s
  | .vabs d a pm r dt => Sys2Proof.Machine.execVabs d a pm r dt s
  | .vneg d a pm r dt => Sys2Proof.Machine.execVneg d a pm r dt s
  | .vexp2 d a pm r dt => Sys2Proof.Machine.execVexp2 d a pm r dt s
  | .vlog2 d a pm r dt => Sys2Proof.Machine.execVlog2 d a pm r dt s
  | .vrcp d a pm r dt => Sys2Proof.Machine.execVrcp d a pm r dt s
  | .vrsq d a pm r dt => Sys2Proof.Machine.execVrsq d a pm r dt s
  | .vtanh d a pm r dt => Sys2Proof.Machine.execVtanh d a pm r dt s
  | .vsig d a pm r dt => Sys2Proof.Machine.execVsig d a pm r dt s
  | .vsin d a pm r dt => Sys2Proof.Machine.execVsin d a pm r dt s
  | .vcmp d a b pm bs cond => Sys2Proof.Machine.execVcmp d a b pm bs cond s
  | .vsel d a b c pm => Sys2Proof.Machine.execVsel d a b c pm s
  | .vcvt d a pm r dt => Sys2Proof.Machine.execVcvt d a pm r dt s
  | .cvtPk d a pm r dt part => Sys2Proof.Machine.execCvtPk d a pm r dt part s
  | .cvtUp d a pm r dt part => Sys2Proof.Machine.execCvtUp d a pm r dt part s
  | .vq d a b pm r dt part => Sys2Proof.Machine.execVq d a b pm r dt part s
  | .vdq d a pm r nosc dt part => Sys2Proof.Machine.execVdq d a pm r nosc dt part s
  | .vred d a pm r dt op e => Sys2Proof.Machine.execVred d a pm r dt op e s
  | .vcred d a pm r dt op row => Sys2Proof.Machine.execVcred d a pm r dt op row s
  | .vbcastRow d a pm k => Sys2Proof.Machine.execVbcastRow d a pm k s
  | .vbcastEl d a pm e => Sys2Proof.Machine.execVbcastEl d a pm e s
  | .vtr d a c => Sys2Proof.Machine.execVtr d a c s
  | .vsh d a b pm rot imm => Sys2Proof.Machine.execVsh d a b pm rot imm s
  | .vshRows d a b pm rot imm => Sys2Proof.Machine.execVshRows d a b pm rot imm s
  | .vperm d a b pm => Sys2Proof.Machine.execVperm d a b pm s
  | .vmov d a pm => Sys2Proof.Machine.execVmov d a pm s
  | .vzero d pm tag => Sys2Proof.Machine.execVzero d pm tag s
  | .viadd d a b pm bs sati => Sys2Proof.Machine.execViadd d a b pm bs sati s
  | .vimul d a b pm bs sati => Sys2Proof.Machine.execVimul d a b pm bs sati s
  | .vand d a b pm bs => Sys2Proof.Machine.execVand d a b pm bs s
  | .vor d a b pm bs => Sys2Proof.Machine.execVor d a b pm bs s
  | .vxor d a b pm bs => Sys2Proof.Machine.execVxor d a b pm bs s
  | .vshl d a b pm bs => Sys2Proof.Machine.execVshl d a b pm bs s
  | .vshr d a b pm bs arith => Sys2Proof.Machine.execVshr d a b pm bs arith s
  | .vidot d a b c pm brow k => Sys2Proof.Machine.execVidot d a b c pm brow k s
  | .vsmMerge d a pm r => Sys2Proof.Machine.execVsmMerge d a pm r s
  | .chain t a => Sys2Proof.Machine.execChain t a s
  | .chainComplete core ctx seq => Sys2Proof.Machine.execChainComplete core ctx seq s
  | .shp fromReg a rows cols => Sys2Proof.Machine.execShp fromReg a rows cols s
  | .fmtTag d tag => Sys2Proof.Machine.execFmtTag d tag s
  | .rcwSet d a pm => Sys2Proof.Machine.execRcwSet d a pm s
  | .rcwSetSt d pm state => Sys2Proof.Machine.execRcwSetSt d pm state s
  | .rcwSetCp d a pm => Sys2Proof.Machine.execRcwSetCp d a pm s
  | .rcwUpd d a pm rule mode col => Sys2Proof.Machine.execRcwUpd d a pm rule mode col s
  | .rcwCnt d a pm acc n => Sys2Proof.Machine.execRcwCnt d a pm acc n s
  | .rcwMask d a set => Sys2Proof.Machine.execRcwMask d a set s
  | .ruleSet a n => Sys2Proof.Machine.execRuleSet a n s
  | .cmxPack t a b c sp nt set => Sys2Proof.Machine.execCmxPack t a b c sp nt set s
  | .cmxRest t a b c sp nt => Sys2Proof.Machine.execCmxRest t a b c sp nt s
  | .cmxStart cluster => Sys2Proof.Machine.execCmxStart cluster s
  | .cmxComplete cluster => Sys2Proof.Machine.execCmxComplete cluster s
  | .kvSv t a b c h => Sys2Proof.Machine.execKvSv t a b c h s
  | .ntfX t a b c set sl => Sys2Proof.Machine.execNtfX t a b c set sl s
  | .moeRoute t a b k norm renorm h => Sys2Proof.Machine.execMoeRoute t a b k norm renorm h s
  | .routePassStart die => Sys2Proof.Machine.execRoutePassStart die s
  | .routePassComplete die => Sys2Proof.Machine.execRoutePassComplete die s
  | .mmIp cd xa xb t bs ag bf kh scb noswap off => Sys2Proof.Machine.execMmIp cd xa xb t bs ag bf kh scb noswap off s
  | .mmOp cd xa xb t bs ag bf kh scb noswap off => Sys2Proof.Machine.execMmOp cd xa xb t bs ag bf kh scb noswap off s
  | .mmRw xa xb t bs ag bf kh scb noswap off => Sys2Proof.Machine.execMmRw xa xb t bs ag bf kh scb noswap off s
  | .mmZIp cd xa xb t bs ag bf kh scb noswap off => Sys2Proof.Machine.execMmZIp cd xa xb t bs ag bf kh scb noswap off s
  | .mmZRw xa xb t bs ag bf kh scb noswap off => Sys2Proof.Machine.execMmZRw xa xb t bs ag bf kh scb noswap off s
  | .mmMerge cd xb t np zc off => Sys2Proof.Machine.execMmMerge cd xb t np zc off s
  | .mmOut q t => Sys2Proof.Machine.execMmOut q t s
  | .bmpMk xa xb t kh bmode off => Sys2Proof.Machine.execBmpMk xa xb t kh bmode off s
  | .bmpCnt xb t wide off => Sys2Proof.Machine.execBmpCnt xb t wide off s
  | .spzPack cd xa t kh => Sys2Proof.Machine.execSpzPack cd xa t kh s
  | .spzPackB xa xb t kh off => Sys2Proof.Machine.execSpzPackB xa xb t kh off s
  | .spzUnpk cd xa t kh => Sys2Proof.Machine.execSpzUnpk cd xa t kh s
  | .mtxComplete core => Sys2Proof.Machine.execMtxComplete core s
  | .memoryPortGrant g => Sys2Proof.Machine.execMemoryPortGrant g s
  | .rangeWalk core ctx asid vp => Sys2Proof.Machine.execRangeWalk core ctx asid vp s
  | .routerGrant p out => Sys2Proof.Machine.execRouterGrant p out s
  | .slackDecrement id => Sys2Proof.Machine.execSlackDecrement id s
  | .flagPacketArrive p => Sys2Proof.Machine.execFlagPacketArrive p s
  | .noticeArrive p => Sys2Proof.Machine.execNoticeArrive p s
  | .acaddArrive p => Sys2Proof.Machine.execAcaddArrive p s
  | .contribCombine group a b => Sys2Proof.Machine.execContribCombine group a b s
  | .reductionComplete group => Sys2Proof.Machine.execReductionComplete group s
  | .launchValidate queue => Sys2Proof.Machine.execLaunchValidate queue s
  | .launchStart queue => Sys2Proof.Machine.execLaunchStart queue s
  | .phaseStart launch => Sys2Proof.Machine.execPhaseStart launch s
  | .taskBind launch => Sys2Proof.Machine.execTaskBind launch s
  | .raggedClaim launch cluster => Sys2Proof.Machine.execRaggedClaim launch cluster s
  | .computeStepClose launch => Sys2Proof.Machine.execComputeStepClose launch s
  | .commStepClose launch => Sys2Proof.Machine.execCommStepClose launch s
  | .launchComplete launch => Sys2Proof.Machine.execLaunchComplete launch s
  | .launchEnd launch => Sys2Proof.Machine.execLaunchEnd launch s
  | .launchSuspend launch => Sys2Proof.Machine.execLaunchSuspend launch s
  | .launchResume launch => Sys2Proof.Machine.execLaunchResume launch s
  | .tollRefill => Sys2Proof.Machine.execTollRefill s
  | .thermalTrip => Sys2Proof.Machine.execThermalTrip s
  | .powerOnReset => Sys2Proof.Machine.execPowerOnReset s
  | .powerOnComplete f => Sys2Proof.Machine.execPowerOnComplete f s
  | .firmwareAuth => Sys2Proof.Machine.execFirmwareAuth s
  | .handlerStart core => Sys2Proof.Machine.execHandlerStart core s
  | .prewaitExpiry core ctx => Sys2Proof.Machine.execPrewaitExpiry core ctx s
  | .saveSequence core ctx => Sys2Proof.Machine.execSaveSequence core ctx s
  | .restore core ctx => Sys2Proof.Machine.execRestore core ctx s
  | .fillDispatch die => Sys2Proof.Machine.execFillDispatch die s
  | .fillSettle core => Sys2Proof.Machine.execFillSettle core s
  | .fillFail core => Sys2Proof.Machine.execFillFail core s
  | .spmUnitGate core u => Sys2Proof.Machine.execSpmUnitGate core u s
  | .spmUnitWake core u => Sys2Proof.Machine.execSpmUnitWake core u s
  | .wayGate slice k => Sys2Proof.Machine.execWayGate slice k s
  | .wayPowerUp slice k => Sys2Proof.Machine.execWayPowerUp slice k s
  | .traceFreeze core => Sys2Proof.Machine.execTraceFreeze core s
  | .atomicReply core ctx seq => Sys2Proof.Machine.execAtomicReply core ctx seq s
  | .fabricCommandComplete core ctx seq => Sys2Proof.Machine.execFabricCommandComplete core ctx seq s
  | .exitSaveComplete core ctx seq => Sys2Proof.Machine.execExitSaveComplete core ctx seq s
  | .streamBindComplete core ctx seq => Sys2Proof.Machine.execStreamBindComplete core ctx seq s
  | .peerAcknowledgement qp => Sys2Proof.Machine.execPeerAcknowledgement qp s
  | .fabricTimeout id => Sys2Proof.Machine.execFabricTimeout id s
  | .fabricDiscard port p => Sys2Proof.Machine.execFabricDiscard port p s
  | .flitRetransmit port => Sys2Proof.Machine.execFlitRetransmit port s
  | .portFailure port => Sys2Proof.Machine.execPortFailure port s
  | .roceInboundWrite r data => Sys2Proof.Machine.execRoceInboundWrite r data s
  | .roceInboundRead r len => Sys2Proof.Machine.execRoceInboundRead r len s
  | .roceInboundAtomic r op => Sys2Proof.Machine.execRoceInboundAtomic r op s
  | .roceUnsupportedOp qp opcode => Sys2Proof.Machine.execRoceUnsupportedOp qp opcode s
  | .roceNakReceived id => Sys2Proof.Machine.execRoceNakReceived id s
  | .qpError qp => Sys2Proof.Machine.execQpError qp s
  | .congestionNotificationReceipt qp => Sys2Proof.Machine.execCongestionNotificationReceipt qp s
  | .doorbellWrite queue => Sys2Proof.Machine.execDoorbellWrite queue s
  | .clockEpoch r => Sys2Proof.Machine.execClockEpoch r s
  | .admitReq r => Sys2Proof.Machine.execAdmitReq r s
  | .retire asid => Sys2Proof.Machine.execRetire asid s
  | .abort cookie => Sys2Proof.Machine.execAbort cookie s
  | .preempt r => Sys2Proof.Machine.execPreempt r s
  | .qpset idx e => Sys2Proof.Machine.execQpset idx e s
  | .winset idx e => Sys2Proof.Machine.execWinset idx e s
  | .rgset idx e => Sys2Proof.Machine.execRgset idx e s
  | .regrd r => Sys2Proof.Machine.execRegrd r s
  | .regwr r v => Sys2Proof.Machine.execRegwr r v s
  | .spgWrite core v => Sys2Proof.Machine.execSpgWrite core v s
  | .slwgWrite slice v => Sys2Proof.Machine.execSlwgWrite slice v s
  | .latecntClear port n v => Sys2Proof.Machine.execLatecntClear port n v s
  | .pwrctlWrite die v => Sys2Proof.Machine.execPwrctlWrite die v s
  | .trippedClear v => Sys2Proof.Machine.execTrippedClear v s
  | .trcrd core => Sys2Proof.Machine.execTrcrd core s
  | .fusesvn => Sys2Proof.Machine.execFusesvn s
  | .attest nonce => Sys2Proof.Machine.execAttest nonce s
  | .loadfw image => Sys2Proof.Machine.execLoadfw image s

end Sys2Proof.Machine
end

