-- ==== Sys2Proof/Machine/Schedule.lean ====
section
/-! DEFINITION. Which event comes next when the outside world brings none, and how a program is placed for the next step.
The manual orders the device's parties only where it says so; this order is the model's choice (Assumption 14). -/

namespace Sys2Proof.Machine

/-! ### The device's own events -/

/-- An event would change something: it is not one that does not come about. -/
def comesAbout (s : State) (i : Instr) : Bool :=
  match exec i s with
  | .next t => t != s
  | _ => true

/-- The cores that have state, rotated with time. -/
def coreOrder (s : State) : List Nat :=
  let l := s.cores.map (·.1)
  let k := if l.length = 0 then 0 else s.time % l.length
  l.drop k ++ l.take k

/-- The next bundle: the first core in order whose sequencer finds a ready context (R421). -/
def nextBundle (s : State) : Option Instr :=
  (coreOrder s).findSome? (fun n => (chooseCtx s n).map (fun k => .bundleIssue n k))

/-- Events of a context. -/
def ctxEvents (core ctx : Nat) : List Instr :=
  [.pendingStop core ctx, .taskComplete core ctx, .prewaitExpiry core ctx, .saveSequence core ctx, .restore core ctx] ++
    (List.range 8).flatMap (fun q => [.streamRowFetch core ctx q, .streamRowWrite core ctx q])

/-- Faults of the streams of a context (R198). -/
def streamEvents (c : Ctx) (core ctx : Nat) : List Instr := c.streams.map (fun q => .commandSuspend core ctx q.2.seq)

/-- The bundle of a context that holds: its attempt may wake a scratchpad unit (R380). -/
def heldEvents (s : State) (core ctx : Nat) : List Instr := if isReady s core ctx then [] else [.bundleIssue core ctx]

/-- Events of a core. -/
def coreEvents (s : State) (core : Nat) : List Instr :=
  (List.range 5).flatMap (fun k => ctxEvents core k ++ streamEvents (ctxOf s core k) core k ++ heldEvents s core k) ++
    [.handlerStart core, .fillSettle core, .fillFail core, .mtxComplete core, .carveComplete core, .traceFreeze core] ++
    (List.range 12).flatMap (fun u => [.spmUnitGate core u, .spmUnitWake core u]) ++
    ((coreOf s core).tags.map (fun t => .tagFillDone core t.1))

/-- Events of an operation. -/
def opEvents (o : Op) : List Instr :=
  [.loadDataReturn o.core o.ctx o.seq, .copyComplete o.core o.ctx o.seq, .rangeCmdComplete o.core o.ctx o.seq,
   .chainComplete o.core o.ctx o.seq, .atomicReply o.core o.ctx o.seq, .fabricCommandComplete o.core o.ctx o.seq,
   .exitSaveComplete o.core o.ctx o.seq, .streamBindComplete o.core o.ctx o.seq, .relocChunkMove o.core o.ctx o.seq,
   .commandSuspend o.core o.ctx o.seq]

/-- Events of a launch. -/
def launchEvents (l : Nat) : List Instr :=
  [.launchSuspend l, .phaseStart l, .taskBind l] ++ (List.range 16).map (fun c => .raggedClaim l c) ++
    [.computeStepClose l, .commStepClose l, .launchComplete l, .launchEnd l, .launchResume l]

/-- The packets that may combine with a packet of a reduction (R482). -/
def combineEvents (s : State) (p : NetPacket) : List Instr :=
  if p.pkt.typ = 7
  then ((s.packets.filter (fun q => q.pkt.typ == 7 && q.place == p.place && decide (p.id < q.id))).map (fun q => .contribCombine (auxGroup p.pkt.aux) p.id q.id))
  else []

/-- Events of a packet: its grant at the point where it stands, its performing, its arrival, its slack, the answer of
another device, and its timeout. -/
def packetEvents (s : State) (p : NetPacket) : List Instr :=
  .slackDecrement p.id :: combineEvents s p ++
    (match wants s p with | some out => [.routerGrant p.place out] | none => []) ++
    [.memoryPortGrant (.request p.id), .flagPacketArrive (.own p.id), .noticeArrive (.own p.id), .acaddArrive (.own p.id),
     .peerAcknowledgement ⟨1024 + p.id, false⟩, .fabricTimeout p.id]

/-- The next chunks of a command that have still to be done. -/
def chunkEvents (o : Op) : List Instr :=
  (((opChunks o).filter (fun k => !o.done.contains k)).take 8).map (fun k => .memoryPortGrant (.chunk o.core o.ctx o.seq k))

/-- What a replayed log delivers (R523). -/
def loggedEvents (s : State) : List Instr :=
  if s.rplay.isSome
  then [.memoryPortGrant .logged, .flagPacketArrive .logged, .noticeArrive .logged, .acaddArrive .logged] else []

/-- Everything of the device's own that might come next, in the order in which it is tried. -/
def deviceEvents (s : State) : List Instr :=
  .tollRefill :: loggedEvents s ++ s.packets.flatMap (packetEvents s) ++
    (List.range s.inbox.length).map (fun k => .memoryPortGrant (.inbound k)) ++ s.outbound.map (fun x => .peerAcknowledgement ⟨x.qp, false⟩) ++ s.ops.flatMap (fun o => chunkEvents o ++ opEvents o) ++
    (s.cores.map (·.1)).flatMap (coreEvents s) ++
    (List.range 16).flatMap (fun c => [.cmxStart c, .cmxComplete c]) ++
    (List.range 2).flatMap (fun d => [.routePassStart d, .routePassComplete d, .fillDispatch d]) ++
    s.groups.map (fun g => .reductionComplete g.1) ++
    (List.range 16).flatMap (fun q => [.launchValidate q, .launchStart q]) ++
    s.launches.flatMap (fun l => launchEvents l.1)

/-- The next of these that comes about. -/
def nextOther (s : State) : Option Instr := (deviceEvents s).find? (comesAbout s)

/-- The next event of the device's own; none when nothing can come about but time. Bundles and the other events take turns
in being tried first, so that neither waits for the other for ever. -/
def nextEvent (s : State) : Option Instr :=
  if s.time % 2 = 0 then (match nextBundle s with | some i => some i | none => nextOther s)
  else (match nextOther s with | some i => some i | none => nextBundle s)

/-- A tick in which nothing comes about: a cycle without an issue on every core (R423). -/
def tick (s : State) : State :=
  passTime ((s.cores.map (·.1)).foldl idleCycle s)

/-! ### Arrivals (R526) -/

/-- A request of the management processor (R526, R534). -/
def isRequest : Instr → Bool
  | .admitReq _ | .retire _ | .abort _ | .preempt _ | .qpset _ _ | .winset _ _ | .rgset _ _ | .regrd _ | .regwr _ _
  | .spgWrite _ _ | .slwgWrite _ _ | .latecntClear _ _ _ | .pwrctlWrite _ _ | .trippedClear _ | .trcrd _ | .fusesvn
  | .attest _ | .loadfw _ => true
  | _ => false

/-- A request that arrived on a path (R526). -/
def Incoming.requestOn (x : Incoming) (via : MgmtPath) : Bool := isRequest x.event && x.via == via

/-- What is served next of what has arrived: management requests that stand side by side arrived in one cycle, and those of
the management port come first (R526; DESIGN CHOICE, Assumption 110). -/
def nextArrival : List Incoming → Option (Incoming × List Incoming)
  | [] => none
  | x :: rest =>
    if x.requestOn .ethernet then
      match ((x :: rest).takeWhile (fun y => isRequest y.event)).find? (fun y => y.requestOn .smbus) with
      | some y => some (y, (x :: rest).erase y)
      | none => some (x, rest)
    else some (x, rest)

/-! ### Placing a program (Assumption 2) -/

/-- The bytes of a bundle given as a number, in doublewords (R108). -/
def bundleBytes (nbits w : Nat) : List Byte := toBytes 56 (w % 2 ^ nbits)

/-- The virtual and physical address at which `State.withFetchWord` places a bundle. -/
def fetchVa : Nat := 0x10000
def fetchPa : Nat := 0x10000

/-- A descriptor of eight units from `fetchVa`, backed by the same physical units, with RD, WR and EX (R365). -/
def fetchDesc : BitVec 256 :=
  BitVec.ofNat 256 (0x10 + 8 * 2 ^ 64 + 7 * 2 ^ 109 + 1 * 2 ^ 116 + 1 * 2 ^ 192)

/-- The device, operational, with context 0 of core 0 about to issue a given bundle and nothing else before it. -/
def placeBundle (s : State) (nbits w : Nat) : State :=
  let mem := memPuts s.mem (cellsAt fetchPa (bundleBytes nbits w))
  let e : RtEntry := { asid := 0, desc := fetchDesc, pos := 0, used := 0 }
  let c := { Ctx.init with status := .running, pc := BitVec.ofNat 56 fetchVa, lastBundle := BitVec.ofNat 56 fetchVa, wsize := 60
                           ibuf := mem }
  let k := { coreOf s 0 with ctxs := [(0, c)], rtask := [e], service := none, work := [] }
  { setCore s 0 k with mem := mem, agenda := [⟨.smbus, .bundleIssue 0 0⟩], ops := [], reqs := [], packets := [], outbound := [], bringup := .operational }

end Sys2Proof.Machine
end

