-- ==== Sys2Proof/Machine/Step.lean ====
section
/-! DEFINITION. One step of the device: what the outside world and the schedule bring next, else the device's own
next event, else a tick. -/

namespace Sys2Proof.Machine

/-- One step. -/
def step (s : State) : Host.Outcome State Fault Refusal :=
  match nextArrival s.agenda with
  | some (x, rest) => exec x.event { s with agenda := rest, via := x.via }
  | none =>
    match nextEvent s with
    | some i => exec i s
    | none => .next (tick s)

/-- The device with a bundle placed where its next step fetches it (Assumption 2: a program is loaded from outside). -/
def State.withFetchWord (s : State) (nbits w : Nat) : State := placeBundle s nbits w

end Sys2Proof.Machine
end

