-- ==== Sys2Proof/Safety.lean ====
section
/-! DEFINITION. What a safe run of the device keeps, and the conditions in which the statements speak: registers that
can be read, tile registers that are free, commands that are issued, and what an instruction leaves as it was. -/

namespace Sys2Proof

/-- The device's memory is in canonical form. -/
def MemSafe (s : Machine.State) : Prop := Machine.Memory.wf s.mem = true

namespace Machine

/-! ### Scalars -/

/-- None of these scalars awaits a token or data, so that the bundle may read them (R17, R144). -/
def Readable (s : State) (l : List Reg) : Prop := ∀ r ∈ l, isPending s r.toNat = false

/-- The value of a scalar in the executing context (R16). -/
def sv (s : State) (r : Reg) : Word := scalarOf (me s) r

/-- The second operand of format S: the scalar, or the sign-extended constant where B names s0 (R158). -/
def sb (s : State) (b : Reg) (imm : Imm) : Word := if b = 0 then imm.signExtend 64 else sv s b

/-- The instruction answers a next state in which the value is on its way to the scalar, with the latency given (R141). A
write to s0 is no write (R16). -/
def Writes (i : Instr) (s : State) (lat : Nat) (d : Reg) (v : Word) : Prop :=
  exec i s = .next (result s lat (.scalar d.toNat v))

/-! ### Frames -/

/-- What an instruction that only writes registers of its own context leaves as it was: every byte of memory, every other
context, every operation and request, and every register of its own context and core but the parts named (R142) and the
generator of R82. Writes of parts not named that are on their way stay on their way. -/
structure Frame (s t : State) (part : Nat × Nat × Nat → Prop) : Prop where
  memory : ∀ a, memByte t.mem a = memByte s.mem a
  others : ∀ n k, (n, k) ≠ s.cur → ctxOf t n k = ctxOf s n k
  cores : ∀ n, ({ coreOf t n with ctxs := [] } : CoreSt) = { coreOf s n with ctxs := [] }
  own : me t = { me s with pend := (me t).pend, seed := (me t).seed }
  kept : ∀ p ∈ (me s).pend, ¬ part p.w.part → p ∈ (me t).pend
  added : ∀ p ∈ (me t).pend, p ∈ (me s).pend ∨ part p.w.part
  ops : t.ops = s.ops
  reqs : t.reqs = s.reqs
  fly : t.fly = s.fly
  launches : t.launches = s.launches

/-! ### Bundles -/

/-- The context's next bundle holds one new word `w`, which stands in slot `slot` and decodes to `i`; its header `hw` and its
word are fetched in turn, passing from the state to `m` and then to the state `r` on which the slot runs, but for the
address of the next bundle. Nothing holds it: no wait, flag or unit. -/
structure OneWord (s : State) (core ctx : Nat) (hw w : Word) (slot : Slot) (i : Instr) (m r : State) : Prop where
  mayIssue : mayIssue s core ctx = true
  notTarget : (ctxOf s core ctx).target = none
  aligned : (ctxOf s core ctx).pc.extractLsb' 0 3 = 0
  header : fetchWord (beginBundle s core ctx) (ctxOf s core ctx).pc (ctxOf s core ctx).pc.toNat = .ok (hw, m)
  headerOk : sequentialCheck (ctxOf s core ctx).pc hw = none
  words : fetchWords m (me m).pc (headerOf hw).words ((me m).pc.toNat + 8) = .ok ([w], r)
  samePc : (me m).pc = (ctxOf s core ctx).pc
  onlySlot : ∀ c, lanesOf c (allSlots.zip (headerOf hw).pres) [w] = [laneOf slot w]
  decoded : decodeSlot slot w = .ok i
  flags : (headerOf hw).sync = 0 ∨ syncMet (me r).flags (headerOf hw).sync = true
  unit : unitBusy r slot i = false

/-- The state on which the slots of a bundle run once its words are fetched. -/
def slotState (s : State) (core ctx : Nat) (hw : Word) (r : State) : State :=
  { withMe r (fun c => { c with target := none }) with
    fly := { r.fly with nx := (ctxOf s core ctx).pc + bundleLength hw } }

/-- A bundle neither transfers, ends its task, saves, stops, nor sends flags, and no loop ends at it. -/
structure PlainBundle (t : State) (c : Ctx) (hw : Word) : Prop where
  target : t.fly.target = none
  ended : t.fly.ended = none
  rte : t.fly.rte = none
  save : t.fly.save = none
  stop : t.fly.stop = none
  sends : t.fly.sends = []
  noLoop : ∀ n, n < 4 → (Tbl.look LoopCtr.init c.loops n).active = false ∨
    (Tbl.look LoopCtr.init c.loops n).stop ≠ t.fly.ba
  noWatch : ∀ n, n < 4 → Tbl.look 0 (here t).wpc n = 0

/-! ### Operands -/

/-- The bytes `[off, off + n)` lie in the executing core's scratchpad, in units that are awake, while no carve is in
progress (R57, R211, R379). -/
structure Local (s : State) (off n : Nat) : Prop where
  inside : off + n ≤ Config.spmBytes
  awake : ∀ u, u < 12 → off < 0x40000 * (u + 1) → 0x40000 * u < off + n → (here s).spgAwake.getLsbD u = true
  steady : (here s).carve = none

/-- A tile operand of the executing context lies in its window at physical number `p` and is not busy (R31, R34, R35). -/
structure TileAt (s : State) (x : Reg) (p : Nat) : Prop where
  number : if s.cur.2 = 4 then p = x.toNat else x.toNat < (me s).wsize ∧ p = (me s).wbase + x.toNat
  free : busyIn (opsBefore s) s.cur.1 p = false

/-- ROWS of SHAPE is 1 to 64 (R43). -/
def RowsOk (s : State) : Prop := 1 ≤ rowsOf (me s) ∧ rowsOf (me s) ≤ 64

/-! ### Commands -/

/-- The context has fewer than 32 operations outstanding (R197). -/
def HasRoom (s : State) : Prop := (outstanding s s.cur.1 s.cur.2).length < 32

/-- The executing context has issued one operation: it is the youngest, carries the context's next sequence number, has done nothing yet, and the context's scalars, and but for a replay log the memory, are as before (R194, R197,
R507). -/
structure Issued (s t : State) (o : Op) : Prop where
  ops : t.ops = s.ops ++ [o]
  core : o.core = s.cur.1
  ctx : o.ctx = s.cur.2
  seq : o.seq = ((me s).cseq + 1).toNat
  cseq : (me t).cseq = (me s).cseq + 1
  scalars : (me t).scalars = (me s).scalars
  pend : (me t).pend = (me s).pend
  mem : s.rlog = none → t.mem = s.mem
  fresh : o.done = [] ∧ o.started = false ∧ o.susp = none

/-- The instruction answers a next state in which it is the youngest operation outstanding, to complete into the token
scalar named. -/
def Starts (i : Instr) (s : State) (tok : Reg) (q : Op → State → Prop) : Prop :=
  ∃ t o, exec i s = .next t ∧ Issued s t o ∧ o.instr = i ∧ o.tok = tok.toNat ∧ q o t

/-- No slot of the executing core's tagged region waits for a fill. -/
def NoFill (s : State) : Prop := ∀ e ∈ (here s).tags, e.2.fill = none

/-- An operation is over: it is no longer outstanding, its token scalar holds the token, and no other operation, no other
scalar of its context and no other context has changed by it; memory is as before. -/
structure Finished (s t : State) (o : Op) (token : Word) : Prop where
  gone : findOp t o.core o.ctx o.seq = none
  token : o.tok ≠ 0 → Tbl.look 0 (ctxOf t o.core o.ctx).scalars o.tok = token
  scalars : ∀ r, r ≠ o.tok → Tbl.look 0 (ctxOf t o.core o.ctx).scalars r = Tbl.look 0 (ctxOf s o.core o.ctx).scalars r
  others : ∀ n k, (n, k) ≠ (o.core, o.ctx) → ctxOf t n k = ctxOf s n k
  rest : ∀ p ∈ s.ops, sameOp p o = false → p ∈ t.ops
  mem : t.mem = s.mem

/-- No context waits for accesses to perform: none has an arrival to count or an `rte` to complete (R180, R360). -/
def Quiet (s : State) : Prop := ∀ n k, (ctxOf s n k).arrivals = [] ∧ ∀ j, (ctxOf s n k).status ≠ .returning j

/-! ### The tile/vector unit -/

/-- A tile source of the executing context, in its window, not busy, with an accepted tag (R30, R31, R34). -/
def SourceTile (s : State) (x : Reg) (ok : List Nat) (t : Tile) : Prop :=
  ∃ p, TileAt s x p ∧ t = tileOf (here s) p ∧ t.tag.toNat ∈ ok

/-- A B operand: a tile source, or with BS a scalar that can be read (R255). -/
def SourceB (s : State) (b : Reg) (bs : Bool) (ok : List Nat) (v : VecB) : Prop :=
  if bs then Readable s [b] ∧ v = .scalar (sv s b) else ∃ t, SourceTile s b ok t ∧ v = .tile t

/-- N of R257: COLS of SHAPE, or the whole row of `e` elements, which every source must hold. -/
def Columns (s : State) (e : Nat) (srcs : List Tile) (n : Nat) : Prop :=
  n = (if colsOf (me s) = 0 then e else colsOf (me s)) ∧ n ≤ e ∧ ∀ t ∈ srcs, n ≤ elemsPerRow t.tag.toNat

/-! ### The matrix engine -/

/-- The instruction is issued to the matrix engine, which takes its next one `d` cycles later; its cost comes from the
context's reservation first and else from the core's balance, which covers it (R307, R328). -/
def MtxStarts (i : Instr) (s : State) (tok : Reg) (d cost : Nat) (q : Op → Prop) : Prop :=
  cost ≤ (me s).tollHave + (here s).balance →
    Starts i s tok (fun o u => q o ∧ Tbl.look 0 (here u).units 4 = s.time + d ∧
      (me u).tollHave = (me s).tollHave - min (me s).tollHave cost ∧
      (here u).balance = (here s).balance - (cost - min (me s).tollHave cost))

/-- The engine takes an instruction: it is idle, and the context has room for an operation (R197, R307). -/
def MtxIdle (s : State) : Prop := HasRoom s ∧ Tbl.look 0 (here s).units 4 ≤ s.time

/-- No `mm.out` of the core is outstanding, and the row merge buffer is free or the context's own (R315, R316). -/
def MergeFree (s : State) : Prop :=
  outPending s = false ∧ ((here s).merge.owner = none ∨ (here s).merge.owner = some s.cur.2)

/-- What `mm` and `mm.z` ask of the state before they are issued (R297 to R305, R308, R315, R319): the operands at hand,
tags of one class `cls`, alignment, extents, formed sparse maps, no bank in transition and scales without a sign. `boff` is the offset of B, `h`
the header of a block-sparse B, `st` the stream B comes from, `x` and `c` the tiles A and C. -/
structure MmReady (s : State) (f : MmForm) (boff rec : Word) (x c cls : Nat) (h : Option Nat) (st : Option Stream)
    (a : Tile) (bytes : List Byte) : Prop where
  idle : MtxIdle s
  base : if f.bs then boff = BitVec.ofNat 64 (64 * f.off.toNat)
    else Readable s [f.xb] ∧ boff = sv s f.xb + BitVec.ofNat 64 (64 * f.off.toNat)
  record : if f.df = 1 then Readable s [f.cd] ∧ rec = sv s f.cd else rec = 0
  tileA : TileAt s f.xa x
  tileC : if f.df = 0 then TileAt s f.cd c ∧ c ≠ x else c = 0
  buffer : f.df = 2 → MergeFree s
  rows : RowsOk s
  half : f.ag = true ∨ (tileCapture s x).tag ≠ 12 ∨ f.kh = 0
  tags : mmTags s f (tileCapture s x) boff = .ok (cls, h, none)
  oldTag : mmOldTag s f c cls = .ok ()
  aligned : mmAligned f ((tileCapture s x).row 0) boff rec = .ok ()
  extents : mmExtents f ((tileCapture s x).row 0) (rowsOf (me s)) h boff rec = .ok ()
  still : latchedSpans s (if f.ag then gatherSpans ((tileCapture s x).row 0) f.kh (gatherRows ((tileCapture s x).row 0) (rowsOf (me s)))
    else []) = .ok none
  stream : mmStream s f = .ok st
  source : a = if f.ag then gatherTile s ((tileCapture s x).row 0) f.kh (rowsOf (me s)) else tileCapture s x
  sparseA : a.tag ≠ 12 ∨ mapFormed (bspMap a) (bspNzb a) (8 * mtxGroups (tagOfA a)) = true
  sparseB : ∀ v ∈ h, mapFormed (imageMap v) (imageNzb v) (16 * mtxGroups (imageTag v)) = true
  input : bytes = match st with
    | some q => streamBytes s q f.streamRows
    | none => toBytes (if h.isSome then 192 else 0) (h.getD 0)
  steady : streamCarve s st f.streamRows = .ok none
  scalesA : badScaleA a f.kh (if f.ag then gatherPads ((tileCapture s x).row 0) (rowsOf (me s)) else 0)
    (rowsOf (me s)) (liveGroupsB (tagOfA a) (some (mapOfB (tagOfA a) h))) = none
  scalesB : f.bs = true → (denseB f bytes).badScale (liveGroupsA a
    (if f.ag then gatherPads ((tileCapture s x).row 0) (rowsOf (me s)) else 0) (rowsOf (me s))) = none

end Machine

end Sys2Proof
end

