-- ==== Sys2Proof/Certificates/Slice0/Obligations.lean ====
section
/-! DEFINITION. The statements for the provers. -/

open Sys2Proof Sys2Proof.Machine

/-- For every instruction of a slot whose fields hold no reserved value, every operand at every value, decoding its word in
any slot that it may stand in gives the instruction back. -/
def Obligations.DecodeEncode : Prop :=
  ∀ (i : Instr) (sl : Slot) (w : Word), sl ∈ slotsOf i → WellFormed i = true → encode i = some w → decodeSlot sl w = .ok i

/-- What the decoder answers is an instruction of that slot without a reserved value, and its encoding is the word read: no
bit of a word is ignored. -/
def Obligations.DecodedWordIsTheEncoding : Prop :=
  ∀ (sl : Slot) (w : Word) (i : Instr), decodeSlot sl w = .ok i →
    WellFormed i = true ∧ sl ∈ slotsOf i ∧ encode i = some w

/-- Each two-operand integer instruction whose scalars can be read answers a next state with its result on its way to sD,
at latency 1, or 3 for the products: the sum, difference and products of R161 modulo 2^64 or their high halves, the bitwise
results, the shifts by the low six bits of the second operand, the lesser and greater signed and unsigned values, the
comparison of R163 as 0 or 1, the selection, and the scaled sum; likewise `li` the sign-extended constant, `lih` the constant
above the low half of sA, `addi` the sum with the sign-extended constant, and `mov` the value of sA. -/
def Obligations.IntegerResults : Prop :=
  ∀ (d a b c : Reg) (imm : Imm) (s : State), Readable s [a, b] →
    let x := sv s a
    let y := sb s b imm
    let k := y.toNat % 64
    Writes (.add d a b imm) s 1 d (BitVec.ofNat 64 (x.toNat + y.toNat)) ∧
    Writes (.sub d a b imm) s 1 d (BitVec.ofInt 64 (x.toNat - y.toNat)) ∧
    Writes (.mul d a b imm) s 3 d (BitVec.ofNat 64 (x.toNat * y.toNat)) ∧
    Writes (.mulh d a b imm) s 3 d (BitVec.ofInt 64 (x.toInt * y.toInt / 2 ^ 64)) ∧
    Writes (.mulhu d a b imm) s 3 d (BitVec.ofNat 64 (x.toNat * y.toNat / 2 ^ 64)) ∧
    Writes (.and d a b imm) s 1 d (x &&& y) ∧
    Writes (.or d a b imm) s 1 d (x ||| y) ∧
    Writes (.xor d a b imm) s 1 d (x ^^^ y) ∧
    Writes (.andn d a b imm) s 1 d (x &&& ~~~ y) ∧
    Writes (.shl d a b imm) s 1 d (BitVec.ofNat 64 (x.toNat * 2 ^ k)) ∧
    Writes (.shr d a b imm) s 1 d (BitVec.ofNat 64 (x.toNat / 2 ^ k)) ∧
    Writes (.sra d a b imm) s 1 d (BitVec.ofInt 64 (x.toInt / 2 ^ k)) ∧
    Writes (.rotl d a b imm) s 1 d (BitVec.ofNat 64 (x.toNat * 2 ^ k + x.toNat / 2 ^ (64 - k))) ∧
    Writes (.min d a b imm) s 1 d (if x.toInt < y.toInt then x else y) ∧
    Writes (.max d a b imm) s 1 d (if x.toInt < y.toInt then y else x) ∧
    Writes (.minu d a b imm) s 1 d (if x.toNat < y.toNat then x else y) ∧
    Writes (.maxu d a b imm) s 1 d (if x.toNat < y.toNat then y else x) ∧
    (∀ sh : BitVec 3, Writes (.lea d a b sh imm) s 1 d (BitVec.ofNat 64 (x.toNat + y.toNat * 2 ^ sh.toNat))) ∧
    (∀ p, p ∈ [((0 : BitVec 6), decide (x = y)), (1, decide (x ≠ y)), (2, decide (x.toInt < y.toInt)),
        (3, decide (x.toNat < y.toNat)), (4, decide (x.toInt ≤ y.toInt)), (5, decide (x.toNat ≤ y.toNat))] →
      Writes (.cmp d a b p.1 imm) s 1 d (if p.2 then 1 else 0)) ∧
    (Readable s [c] → Writes (.sel d a b c imm) s 1 d (if sv s c = 0 then y else x)) ∧
    Writes (.li d imm) s 1 d (imm.signExtend 64) ∧
    Writes (.lih d a imm) s 1 d (BitVec.ofNat 64 (imm.toNat * 2 ^ 32 + x.toNat % 2 ^ 32)) ∧
    Writes (.addi d a imm) s 1 d (BitVec.ofInt 64 (x.toInt + imm.toInt)) ∧
    Writes (.mov d a) s 1 d x

/-- `div` and `rem` give the quotient truncated toward zero and a remainder with the sign of the dividend, `divu` and
`remu` the unsigned ones; for a zero divisor and for the most negative dividend by minus one they give the fixed results
of R162. All four answer a next state, with latency 20. -/
def Obligations.DivisionResults : Prop :=
  ∀ (d a b : Reg) (imm : Imm) (s : State), Readable s [a, b] →
    let x := sv s a
    let y := sb s b imm
    ∃ q r qu ru : Word,
      Writes (.div d a b imm) s 20 d q ∧ Writes (.rem d a b imm) s 20 d r ∧
      Writes (.divu d a b imm) s 20 d qu ∧ Writes (.remu d a b imm) s 20 d ru ∧
      (y = 0 → q = BitVec.ofInt 64 (-1) ∧ qu = BitVec.ofInt 64 (-1) ∧ r = x ∧ ru = x) ∧
      (x.toInt = -2 ^ 63 ∧ y.toInt = -1 → q.toInt = -2 ^ 63 ∧ r = 0) ∧
      (y ≠ 0 → ¬ (x.toInt = -2 ^ 63 ∧ y.toInt = -1) →
        q.toInt * y.toInt + r.toInt = x.toInt ∧ r.toInt.natAbs < y.toInt.natAbs ∧
        (x.toInt < 0 → r.toInt ≤ 0) ∧ (0 ≤ x.toInt → 0 ≤ r.toInt)) ∧
      (y ≠ 0 → qu.toNat * y.toNat + ru.toNat = x.toNat ∧ ru.toNat < y.toNat)

/-- `clz`, `ctz` and `popc` count leading zeros, trailing zeros and ones, 64 zeros for a zero operand; `ext` gives the
field of WIDTH bits from LSB on, zero- or sign-extended; `ins` replaces that field of sA by the low bits of sC and keeps the
other bits. Each answers a next state with latency 1 where its scalars can be read. -/
def Obligations.BitCountsAndFields : Prop :=
  ∀ (d a c : Reg) (sgn : Bool) (width : BitVec 7) (lsb : BitVec 6) (s : State), Readable s [a] →
    let x := sv s a
    (∃ v, Writes (.clz d a) s 1 d v ∧ v.toNat ≤ 64 ∧ (∀ i, 64 - v.toNat ≤ i → x.getLsbD i = false) ∧
      (v.toNat < 64 → x.getLsbD (63 - v.toNat) = true)) ∧
    (∃ v, Writes (.ctz d a) s 1 d v ∧ v.toNat ≤ 64 ∧ (∀ i, i < v.toNat → x.getLsbD i = false) ∧
      (v.toNat < 64 → x.getLsbD v.toNat = true)) ∧
    (∃ v, Writes (.popc d a) s 1 d v ∧ v.toNat = ((List.range 64).map (fun i => (x.getLsbD i).toNat)).sum) ∧
    (1 ≤ width.toNat → lsb.toNat + width.toNat ≤ 64 →
      (∃ v, Writes (.ext d a sgn width lsb) s 1 d v ∧
        ∀ i, i < 64 → v.getLsbD i =
          if i < width.toNat then x.getLsbD (lsb.toNat + i) else sgn && x.getLsbD (lsb.toNat + width.toNat - 1)) ∧
      (Readable s [c] →
        ∃ v, Writes (.ins d a c width lsb) s 1 d v ∧
          ∀ i, i < 64 → v.getLsbD i =
            if lsb.toNat ≤ i ∧ i < lsb.toNat + width.toNat then (sv s c).getLsbD (i - lsb.toNat) else x.getLsbD i))

/-- `fadd`, `fsub`, `fmul` and `fma` round the exact sum, difference, product and fused sum of their FP32 operands once, in
the mode that RM names or, for DYN, in RND.MODE, with latency 4, or 5 for `fma`; an SR rounding draws one generator state
and rounds with it, and the other modes leave the generator as it was. `fmin` and `fmax` round nothing. `fcmp` gives
0 or 1, and every ordered condition is false where an operand is a NaN. `fcvt` rounds the element of sA to the other
format, integers sign-extended. -/
def Obligations.FloatResults : Prop :=
  ∀ (d a b c : Reg) (r : Rnd) (ft fs : BitVec 4) (s : State), Readable s [a, b] →
    let x := fp32Of (sv s a)
    let y := fp32Of (sv s b)
    let mode := if r.rm = 6 then (me s).rndMode.toNat else r.rm.toNat
    let w : BitVec 32 := if mode = 5 then stepSeed (me s).seed else 0
    let s' := if mode = 5 then withMe s (fun k => { k with seed := w }) else s
    let R : Val → Word := fun v => BitVec.ofNat 64 (roundFloat 1 ⟨mode, r.sat, w.toNat⟩ v)
    let N : Val → Word := fun v => BitVec.ofNat 64 (roundFloat 1 rne v)
    let out : Nat → Word → Host.Outcome State Fault Refusal := fun lat v => .next (result s' lat (.scalar d.toNat v))
    exec (.fadd d a b r) s = out 4 (R (x.add y)) ∧
    exec (.fsub d a b r) s = out 4 (R (x.add y.negate)) ∧
    exec (.fmul d a b r) s = out 4 (R (x.mul y)) ∧
    (Readable s [c] → exec (.fma d a b c r) s = out 5 (R ((x.mul y).add (fp32Of (sv s c))))) ∧
    exec (.fcvt d a ft fs r) s =
      out 4 (fcvtExtend ft.toNat (roundTo ft.toNat ⟨mode, r.sat, w.toNat⟩
        (elementValue fs.toNat ((sv s a).toNat % 2 ^ elemBits fs.toNat)))) ∧
    Writes (.fmin d a b) s 4 d (N (x.min y)) ∧
    Writes (.fmax d a b) s 4 d (N (x.max y)) ∧
    (∀ cnd : BitVec 4, ∃ v : Bool, Writes (.fcmp d a b cnd) s 4 d (if v then 1 else 0) ∧
      ((x.isNan || y.isNan) = true → cnd.toNat < 6 → (v = true ↔ cnd = 1 ∨ cnd = 4)) ∧
      ((x.isNan || y.isNan) = false → (cnd = 4 → v = false) ∧ (cnd = 5 → v = true) ∧
        (cnd = 0 → v = x.eqv y) ∧ (cnd = 1 → v = !x.eqv y) ∧ (cnd = 2 → v = (x.lt y && !x.eqv y)) ∧
        (cnd = 3 → v = (x.lt y || x.eqv y))))

/-- Scalar 0 reads as zero in every context whatever the table holds, it is never pending, and a result for it, or a
token, leaves the state as it was. -/
def Obligations.ScalarZero : Prop :=
  ∀ (s : State) (c : Ctx) (lat n k : Nat) (v : Word),
    scalarOf c 0 = 0 ∧ isPending s 0 = false ∧ result s lat (.scalar 0 v) = s ∧ writeScalarNow s n k 0 v = s

/-- A result with latency L is visible to the bundles of its context whose issue count is at least L more than that of the
bundle that wrote it, and the bundles before read the value of before: making visible what is due k issue counts later
gives the new value exactly when L is at most k, and a write to the same scalar that was on its way never shows (R142). -/
def Obligations.ResultVisibility : Prop :=
  ∀ (s : State) (lat k : Nat) (r : Reg) (v : Word), r ≠ 0 →
    let t := result s lat (.scalar r.toNat v)
    let later := withMe t (fun c => { c with icount := c.icount + k })
    sv (promote later s.cur.1 s.cur.2) r = if lat ≤ k then v else sv s r

/-- An instruction of the scalar units never stops: it holds, changing nothing, or gives a next state in which only its
destination scalar's value is on its way and at most the generator has stepped. Memory, flags, masks, tile registers,
control registers, every other context and the program counter are as before. -/
def Obligations.ScalarFrame : Prop :=
  ∀ (i : Instr) (s : State), .s1 ∈ slotsOf i →
    ∃ t, exec i s = .next t ∧ Frame s t (fun p => ∃ d ∈ scalarDest i, p = (0, d.toNat, 0))

/-- A step runs the first thing that the outside world and the schedule have put on the agenda, with the rest of the agenda
left, but that of management requests that stand side by side one of the management port goes before those of the Ethernet
channel; with an empty agenda it runs the device's own next event; and where none can come about, time advances by one, and
memory, commands, requests, launches and every context's registers and status stay. The order among the device's events, and
that requests side by side arrived in one cycle, are the model's choices (Assumptions 14 and 110). -/
def Obligations.StepRunsNext : Prop :=
  ∀ s : State,
    (∀ x rest, s.agenda = x :: rest → x.requestOn .ethernet = false ∨ (∀ y ∈ rest, y.requestOn .smbus = false) →
      step s = exec x.event { s with agenda := rest, via := x.via }) ∧
    (∀ x y rest, s.agenda = x :: y :: rest → x.requestOn .ethernet = true → y.requestOn .smbus = true →
      step s = exec y.event { s with agenda := x :: rest, via := y.via }) ∧
    (s.agenda = [] → ∀ i, nextEvent s = some i → step s = exec i s) ∧
    (s.agenda = [] → nextEvent s = none →
      ∃ t, step s = .next t ∧ t.time = s.time + 1 ∧ t.mem = s.mem ∧ t.ops = s.ops ∧ t.reqs = s.reqs ∧
        t.launches = s.launches ∧ t.agenda = [] ∧
        ∀ n k, (ctxOf t n k).scalars = (ctxOf s n k).scalars ∧ (ctxOf t n k).masks = (ctxOf s n k).masks ∧
          (ctxOf t n k).pc = (ctxOf s n k).pc ∧ (ctxOf t n k).flags = (ctxOf s n k).flags ∧
          (ctxOf t n k).status = (ctxOf s n k).status)

/-- For every instruction that a slot may hold, `exec` is the effect the bundle's slot has: where the effect comes about it
answers that next state, where a check fails it takes the trap at the bundle's address, and where the instruction holds it
leaves the state as it is. -/
def Obligations.ExecIsSlotEffect : Prop :=
  ∀ (i : Instr) (s : State), slotsOf i ≠ [] →
    (∀ t, slotEffect i s = .ok t → exec i s = .next t) ∧
    (∀ t, slotEffect i s = .error (.trap t) →
      exec i s = .next (takeTrap s s.cur.1 s.cur.2 t s.fly.ba s.fly.ba false)) ∧
    (slotEffect i s = .error .hold → exec i s = .next s) ∧
    (∀ n u, slotEffect i s = .error (.wake n u) → exec i s = .next (startWake s n u))

/-- Where the next thing on the agenda is the issue of a context's bundle, the bundle at the context's program counter holds
one word that decodes to an instruction, nothing holds it (no wait, flag, unit, followed log or early scope), the core's
sequencer chooses the context among those that are ready, and the instruction's effect comes about, the step runs exactly
that instruction on the fetched state, then commits the bundle and settles the sequencer. That a bundle may be held while an
earlier access has been told to its scope alone is the model's choice (Assumption 108). -/
def Obligations.StepRunsDecodedBundle : Prop :=
  ∀ (s : State) (core ctx : Nat) (via : MgmtPath) (rest : List Incoming) (hw w : Word) (slot : Slot) (i : Instr) (m r t : State),
    s.agenda = ⟨via, .bundleIssue core ctx⟩ :: rest →
    let s0 := { s with agenda := rest, via := via }
    OneWord s0 core ctx hw w slot i m r →
    let r' := slotState s0 core ctx hw r
    slotEffect i r' = .ok t →
    (ctx = 4 ∨ supervisorOnlyInstr i = false) →
    let as : List Active := [{ slot := slot, word := w, instr := i, alone := .ok t }]
    conflictStop r' as = none → localHeld t (me r') as = false → tellsHeld r' t as = false →
    r'.cur = (core, ctx) → unitBusy r' slot i = false →
    let ready := (List.range 5).filter (fun k => k == ctx || isReady s0 core k)
    chooseAmong s0 core ready = some ctx →
    step s = .next (settleIssue (commitBundle t (me r') hw [laneOf slot w] as) core ctx
      (ownerNow s0 core ready) (ready.filter (· != ctx)))

/-- A bundle that neither transfers nor ends its task, at which no loop ends and nothing stops, leaves its context at the
next sequential bundle, its issue count greater by one and the header's gap, its previous slot words those that it executed,
and its status as it was; one cycle has passed. That the issue of a bundle takes the time one cycle on is the model's reading
of time (Assumptions 24 and 42). -/
def Obligations.PlainBundleAdvances : Prop :=
  ∀ (t : State) (c : Ctx) (hw : Word) (ls : List Lane) (as : List Active),
    PlainBundle t c hw → (me t).status = .running →
    let u := commitBundle t c hw ls as
    (me u).pc = t.fly.nx ∧ (me u).icount = (me t).icount + 1 + (headerOf hw).gap.toNat ∧
      (me u).psw = pswAfter ls ∧ (me u).status = .running ∧ (me u).lastBundle = t.fly.ba ∧ u.time = t.time + 1 ∧
      u.cur = t.cur

/-- When a set and a clear of one flag fall together the flag ends set; a clear without a set clears; other flags stay. A
sync consume and `flag.clr` clear the flags they name but never f9 and f15. -/
def Obligations.FlagRules : Prop :=
  ∀ (f clr set m : BitVec 16) (k : Nat), k < 16 →
    (set.getLsbD k = true → (flagsAfter f clr set).getLsbD k = true) ∧
    (set.getLsbD k = false → clr.getLsbD k = true → (flagsAfter f clr set).getLsbD k = false) ∧
    (set.getLsbD k = false → clr.getLsbD k = false → (flagsAfter f clr set).getLsbD k = f.getLsbD k) ∧
    (consumed m).getLsbD k = (m.getLsbD k && k != 9 && k != 15) ∧
    (clearable m).getLsbD k = (m.getLsbD k && k != 9 && k != 15)

/-- CHK is right exactly when each of its bits is the complement of the exclusive or of the same bit of the seven bytes
below; and a header as encoded, with any presence codes, mask and control bits, has a right check byte. -/
def Obligations.CheckByte : Prop :=
  (∀ w : Word, chkOk w = true ↔ ∀ k, k < 8 → w.getLsbD (56 + k) =
    !(w.getLsbD k ^^ w.getLsbD (8 + k) ^^ w.getLsbD (16 + k) ^^ w.getLsbD (24 + k) ^^ w.getLsbD (32 + k) ^^
      w.getLsbD (40 + k) ^^ w.getLsbD (48 + k))) ∧
  (∀ (p0 p1 pm pv px pc : BitVec 2) (sync : BitVec 16) (cons : Bool) (gap : BitVec 3) (sw land trc : Bool),
    chkOk (encodeHeader p0 p1 pm pv px pc sync cons gap sw land trc) = true)

/-- Every field of a trap record stands at the bits that R501 gives it, the reserved bits are zero, and MORE saturates at
15. -/
def Obligations.TrapRecordLayout : Prop :=
  ∀ (t : TrapInfo) (resume baddr : BitVec 56) (icnt ctx more : Nat) (after susp : Bool),
    let r := trapRecord t resume baddr icnt after ctx susp more
    r.extractLsb' 448 64 = t.addr ∧ r.extractLsb' 384 64 = t.detail ∧ r.extractLsb' 352 32 = t.index ∧
    r.extractLsb' 320 32 = t.estat ∧ r.extractLsb' 288 32 = t.cseq ∧ r.extractLsb' 232 56 = resume ∧
    r.extractLsb' 176 56 = baddr ∧ r.extractLsb' 128 48 = BitVec.ofNat 48 icnt ∧ r.extractLsb' 32 96 = 0 ∧
    r.extractLsb' 24 8 = BitVec.ofNat 8 t.cause ∧ r.extractLsb' 20 4 = BitVec.ofNat 4 t.engine ∧
    r.extractLsb' 17 3 = BitVec.ofNat 3 t.slot ∧ r.getLsbD 16 = after ∧ r.extractLsb' 13 3 = BitVec.ofNat 3 ctx ∧
    r.getLsbD 12 = susp ∧ (r.extractLsb' 8 4).toNat = min more 15 ∧ r.extractLsb' 0 8 = 0

/-- When a context 0 to 3 takes a trap, it is frozen at the resume address with its trap record kept, holding the cause's
fields, that address, the bundle's address and the issue count; no write is on its way any longer; its flags stay as they
are; the core's service context has a handler for it as its youngest work; and the other contexts keep their registers. -/
def Obligations.TrapEntry : Prop :=
  ∀ (s : State) (core ctx : Nat) (t : TrapInfo) (resume baddr : BitVec 56) (after : Bool), ctx < 4 →
    let u := takeTrap s core ctx t resume baddr after
    let c := ctxOf u core ctx
    c.status = .frozen ∧ c.pc = resume ∧ c.resume = resume ∧ c.pend = [] ∧
    c.flags = (ctxOf s core ctx).flags ∧ c.icount = (ctxOf s core ctx).icount ∧
    (∃ susp more, c.record = some (trapRecord t resume baddr (ctxOf s core ctx).icount after ctx susp more)) ∧
    (coreOf u core).work = (coreOf s core).work ++ [.handler ctx] ∧
    (∀ n k, (n, k) ≠ (core, ctx) → ctxOf u n k = ctxOf s n k)

/-- Returning lets the frozen context run again from its resume address, or wait again after its `done`, and forgets the
record; a suspended command whose stop has been handled restarts, and one whose stop is still pending stays suspended (the
latter is the model's reading, Assumption 40).
Memory and the other contexts are as before. -/
def Obligations.TrapReturn : Prop :=
  ∀ (s : State) (core ctx : Nat),
    let u := returnFromTrap s core ctx
    let c := ctxOf s core ctx
    (ctxOf u core ctx).status = (if c.ended then .finishing else .running) ∧
    (ctxOf u core ctx).pc = c.resume ∧ (ctxOf u core ctx).record = none ∧
    (ctxOf u core ctx).scalars = c.scalars ∧ (ctxOf u core ctx).flags = c.flags ∧ u.mem = s.mem ∧
    (∀ n k, (n, k) ≠ (core, ctx) → ctxOf u n k = ctxOf s n k) ∧
    (∀ o ∈ s.ops, o.core = core → o.ctx = ctx → (∀ x ∈ c.stops, x.cseq.toNat ≠ o.seq) →
      { o with susp := none } ∈ u.ops) ∧
    (∀ o ∈ s.ops, (o.core ≠ core ∨ o.ctx ≠ ctx ∨ ∃ x ∈ c.stops, x.cseq.toNat = o.seq) → o ∈ u.ops)

/-- A `ld` or `st` whose address is not a multiple of its size takes ALIGN at its bundle with the address (a virtual `ld`
once the context has fewer than 32 operations outstanding), and `rte` in a
task context takes PRIV with its opcode as detail; the bundle's address is where the context resumes. Which unit the record's
ENGINE names, 2 for a direct access and 0 for `rte`, is the model's reading (Assumption 23). -/
def Obligations.AlignAndPrivTrap : Prop :=
  ∀ (s : State) (a d : Reg) (h : Hint) (sp sx : Bool) (sz : BitVec 2) (off : Imm), Readable s [a, d] →
    ((effAddr (sv s a) off).toNat % 2 ^ sz.toNat ≠ 0 →
      let t : TrapInfo := { cause := 0x13, addr := effAddr (sv s a) off, detail := 0, index := 0, engine := 2, slot := 2,
                            cseq := 0, estat := 0 }
      (sp = true ∨ HasRoom s →
        exec (.ld d a h sp sx sz off) s = .next (takeTrap s s.cur.1 s.cur.2 t s.fly.ba s.fly.ba false)) ∧
      exec (.st d a h sp sz off) s = .next (takeTrap s s.cur.1 s.cur.2 t s.fly.ba s.fly.ba false)) ∧
    (s.cur.2 ≠ 4 →
      exec (.rte a) s = .next (takeTrap s s.cur.1 s.cur.2
        { cause := 0x04, addr := s.fly.ba.setWidth 64, detail := 0x22, index := 0, engine := 0, slot := 5, cseq := 0,
          estat := 0 } s.fly.ba s.fly.ba false))

/-- A taken transfer names its target and whether it must be a landing bundle: `br` when its scalar is or is not zero, or
when any, all, none or not all of the rows in range of a mask are set; `jmp`, `jr`, `call` in both forms and `ret` always.
A relative target is the bundle's address plus the offset; a register target is the scalar, plus the displacement, both
in 64 bits (Assumption 8). The calls put the address of the next bundle on its way to the link scalar; `ret` alone needs no
landing bundle. A branch that is not taken changes nothing. -/
def Obligations.ControlTransfers : Prop :=
  ∀ (s : State) (a b : Reg) (off : Imm),
    let go : State → Word → TargetKind → Host.Outcome State Fault Refusal := fun s t k =>
      .next { s with fly := { s.fly with target := some (t, k), noBackEdge := true } }
    let rel : Word := s.fly.ba.setWidth 64 + off.signExtend 64
    let linked := result s 1 (.scalar a.toNat (s.fly.nx.setWidth 64))
    exec (.jmp off) s = go s rel .land ∧
    exec (.call a off) s = go linked rel .land ∧
    (Readable s [a] →
      exec (.br a 0 off) s = (if sv s a ≠ 0 then go s rel .land else .next s) ∧
      exec (.br a 1 off) s = (if sv s a = 0 then go s rel .land else .next s) ∧
      exec (.jr a off) s = go s (sv s a + off.signExtend 64) .land ∧ exec (.ret a) s = go s (sv s a) .plain) ∧
    (Readable s [b] → exec (.callI a b off) s = go linked (sv s b + off.signExtend 64) .land) ∧
    (1 ≤ rowsOf (me s) → rowsOf (me s) ≤ 64 →
      let inRange : (Nat → Bool) → Prop := fun p => ∀ i, i < rowsOf (me s) → p i = true
      let bit : Nat → Bool := fun i => (maskOf (me s) a.toNat).getLsbD i
      (exec (.br a 2 off) s = if inRange (fun i => !bit i) then .next s else go s rel .land) ∧
      (exec (.br a 3 off) s = if inRange bit then go s rel .land else .next s) ∧
      (exec (.br a 4 off) s = if inRange (fun i => !bit i) then go s rel .land else .next s) ∧
      (exec (.br a 5 off) s = if inRange bit then .next s else go s rel .land))

/-- A running context's bundle that has taken a transfer, and that neither ends its task, returns, saves, stops nor sends
flags, leaves the program counter at the target, whether or not the checks of the target then stop the context there; a
loop's back edge at that bundle is not evaluated. A misaligned target freezes a task's context with BAD_TARGET, and an
aligned one that does not fit 56 bits with RANGE_MISS at that address (the latter is the model's choice, Assumption 8). -/
def Obligations.TransferSetsPc : Prop :=
  ∀ (t : State) (c : Ctx) (hw : Word) (ls : List Lane) (as : List Active) (target : Word) (k : TargetKind),
    t.fly.target = some (target, k) → t.fly.noBackEdge = true → k ≠ .zeroTrip →
    t.fly.ended = none → t.fly.rte = none → t.fly.save = none → t.fly.stop = none → t.fly.sends = [] →
    (∀ n, n < 4 → Tbl.look 0 (here t).wpc n = 0) → t.cur.2 ≠ 4 → (me t).status = .running →
    let u := commitBundle t c hw ls as
    let frozen : Nat → Prop := fun cause => (me u).status = .frozen ∧ ∃ r, (me u).record = some r ∧
      r.extractLsb' 24 8 = BitVec.ofNat 8 cause ∧ r.extractLsb' 448 64 = target
    (me u).pc = target.setWidth 56 ∧ (target.toNat % 8 ≠ 0 → frozen 0x02) ∧
    (target.toNat % 8 = 0 → 2 ^ 56 ≤ target.toNat → frozen 0x10)

/-- `loop` takes its count from CNT, or from a scalar saturated at 2^32 - 1, and `loop.lv` the live rows in groups of 64;
each sets the counter, its start at the next bundle, its end and its active bit, with latency 1, and with a count of zero
jumps to the end at once. After a bundle the counters are examined from lc3 down to lc0: of an active loop that ends there a
count above one goes down by one and execution goes back to its start, and the lower counters keep their place; a lower count
ends the loop, which falls through, and the next counter is examined, so that the inner one of two loops that end at one
bundle runs out before the outer one goes on; a counter that is inactive or ends elsewhere is passed over. -/
def Obligations.HardwareLoops : Prop :=
  (∀ (s : State) (a : Reg) (n : BitVec 2) (cnt : BitVec 12) (off : Imm), Readable s [a] →
    let stop : Word := s.fly.ba.setWidth 64 + off.signExtend 64
    let begin_ : BitVec 32 → State := fun c =>
      let t := result (result s 1 (.loopSet n.toNat s.fly.nx (stop.setWidth 56) (c != 0))) 1 (.count n.toNat c)
      { t with fly := { t.fly with noBackEdge := true
                                   target := if c = 0 then some (stop, .zeroTrip) else t.fly.target } }
    exec (.loop a n cnt off) s = .next (begin_ (if a = 0 then cnt.setWidth 32
      else BitVec.ofNat 32 (min (sv s a).toNat (2 ^ 32 - 1)))) ∧
    exec (.loopLv n off) s = .next (begin_ (BitVec.ofNat 32 (((me s).live.toNat % 2 ^ 32 + 63) / 64)))) ∧
  (∀ (c : Ctx) (ba : BitVec 56),
    let ctr := Tbl.look LoopCtr.init c.loops
    let ends : Nat → Prop := fun n => (ctr n).active = true ∧ (ctr n).stop = ba
    let finish : Nat → List Write := fun n => [.count n 0, .loopSet n (ctr n).start (ctr n).stop false]
    let again : Nat → List Write := fun n => [.count n ((ctr n).count - 1)]
    let out : List Nat → List Write := fun l => l.flatMap finish
    -- `l` are the counters, the highest first, whose loops end at the bundle with their last pass
    (∀ l : List Nat, l.Pairwise (· > ·) → (∀ n ∈ l, n < 4 ∧ ends n ∧ (ctr n).count.toNat ≤ 1) →
      ((∀ n, n < 4 → n ∉ l → ¬ ends n) → backEdge c ba 4 = (out l, none)) ∧
      (∀ k, k < 4 → ends k → 1 < (ctr k).count.toNat → (∀ n ∈ l, k < n) → (∀ n, k < n → n < 4 → n ∉ l → ¬ ends n) →
        backEdge c ba 4 = (out l ++ again k, some (ctr k).start))))

/-- `nop` changes nothing. `yld` lets nothing issue for its cycles, at least one; `done` and `halt` end the task, `trap`
stops after the bundle with TRAP_INSN and its code, `ifence` makes later bundles be fetched after it, `trc.mk` leaves a
mark, `flag.set` and `flag.clr` change the context's own flags, and `flag.set.core` sends its flags to a context of the
core: all when the bundle commits. ENGINE 0 in the record of TRAP_INSN is the model's reading (Assumption 23). -/
def Obligations.ControlNotes : Prop :=
  ∀ (s : State) (a : Reg) (n : BitVec 16) (m : Byte),
    let note : (Fly → Fly) → Host.Outcome State Fault Refusal := fun f => .next { s with fly := f s.fly }
    let insn : TrapInfo := { cause := 0x42, addr := s.fly.ba.setWidth 64, detail := n.setWidth 64, index := 0, engine := 0,
                             slot := 5, cseq := 0, estat := 0 }
    exec .nop s = .next s ∧
    exec (.yld n) s = note (fun f => { f with quiet := max 1 n.toNat, yields := true }) ∧
    exec .done s = note (fun f => { f with ended := some none, noBackEdge := true }) ∧
    exec (.halt n) s = note (fun f => { f with ended := some (some n), noBackEdge := true }) ∧
    exec (.trap n) s = note (fun f => { f with stop := some insn }) ∧
    exec .ifence s = note (fun f => { f with fence := true }) ∧
    exec (.trcMk n) s = note (fun f => { f with marks := f.marks ++ [(1, n.setWidth 64)] }) ∧
    exec (.flagSet m) s = note (fun f => { f with set := f.set ||| m.setWidth 16 }) ∧
    exec (.flagClr n) s = note (fun f => { f with clr := f.clr ||| (n &&& 0x7DFF) }) ∧
    (Readable s [a] → exec (.flagSetCore a m) s = note (fun f => { f with
      sends := f.sends ++ [(ctxidOf s.device (me s).asid s.cur.1 ((sv s a).toNat % 8), m)] }))

/-- `done` leaves its context waiting to finish, with f15 clear and no write on its way; `halt` leaves the
service context halted with its code and f15 clear, and leaves a task's context halted with its code and ends the task's
launch with STATUS HALT and that code where it had not ended. -/
def Obligations.EndOfTaskBundle : Prop :=
  ∀ (s : State),
    (let c := me (endBundle s none)
     c.status = .finishing ∧ c.ended = true ∧ c.pend = [] ∧ c.flags = (me s).flags &&& 0x7FFF) ∧
    (∀ code, s.cur.2 = 4 → (me (endBundle s (some code))).status = .halted code ∧
      (me (endBundle s (some code))).flags = (me s).flags &&& 0x7FFF) ∧
    (∀ code r l, s.cur.2 ≠ 4 → (me s).task = some r → Tbl.find s.launches r.launch = some l → l.status = .running →
      (Tbl.find (endBundle s (some code)).launches r.launch).map (·.status) =
        some (.ending { status := 1, code := code, cause := 0 }) ∧
      (me (endBundle s (some code))).status = .halted code)

/-- In a task context, at a level that its launch declares and once the previous generation is released, `bar.arr` clears f8
and lets the arrival wait for the accesses issued before, `bar.wt` holds the next bundle until the release, and `bar` does
both. `pre.pt` remembers a valid liveness record, and asks for a save when f15 is set; in the service context it does nothing.
The arrival's
SCOPE orders no less than the whole device (the model's choice, Assumption 108).
`rte` names the context whose handler runs, once the accesses of the handler's earlier bundles have performed. `toll` adds its
amount to the request, or cancels it with zero. `flag.set.rmt` sends one flag packet to the context that its scalar names. -/
def Obligations.BarriersTollsRemoteFlags : Prop :=
  ∀ (s : State) (a : Reg) (scope level : BitVec 3) (id sl : BitVec 4) (m : Byte) (off : Imm) (amount : BitVec 24),
    (∀ x, taskOf s s.cur.1 s.cur.2 = some x → s.cur.2 ≠ 4 → level.toNat ≤ declaredLevels x.2.1 →
      let waits : State → State := fun s => withMe s (fun c => { c with waits := c.waits ++ [.barrier level.toNat id.toNat] })
      let s1 := { s with fly := { s.fly with clr := s.fly.clr ||| 0x100 } }
      let arrived := withMe s1 (fun c => { c with arrivals := c.arrivals ++ [(level.toNat, id.toNat, reqBefore s)] })
      exec (.barWt level id) s = .next (waits s) ∧
      (barrierOpen s s.cur.1 s.cur.2 (level.toNat, id.toNat) = true →
        exec (.barArr scope level id) s = .next arrived ∧ exec (.bar scope level id) s = .next (waits arrived))) ∧
    (let va : Word := s.fly.ba.setWidth 64 + off.signExtend 64
     exec (.prePt off) s = .next (if s.cur.2 = 4 then s else
        let s1 := if (livenessAt s s.cur.1 s.cur.2 va).isSome then withMe s (fun c => { c with liveRec := some va }) else s
        if (me s).flags.getLsbD 15 then { s1 with fly := { s1.fly with save := some va } } else s1)) ∧
    (Readable s [a] →
      (∀ k, s.cur.2 = 4 → (sv s a).toNat % 8 = k → k < 4 → (here s).service = some (.handler k) →
        drained s s.cur.1 4 (reqBefore s) = true →
        exec (.rte a) s = .next { s with fly := { s.fly with rte := some k, noBackEdge := true } }) ∧
      (let n := if a = 0 then amount.toNat else (sv s a).toNat % 2 ^ 24
       exec (.toll a amount) s = .next (if n = 0 then cancelToll s s.cur.1 s.cur.2 else withMe s (fun c =>
         { c with tollWant := c.tollWant + n, tollAge := if c.tollWant = 0 then s.time else c.tollAge }))) ∧
      (∃ t, exec (.flagSetRmt a sl m) s = .next t ∧ t.nextReq = s.nextReq + 1 ∧ (s.rlog = none → t.mem = s.mem) ∧ t.ops = s.ops ∧
        ∃ r p, t.reqs = s.reqs ++ [r] ∧ r.kind = .flag (sv s a) m ∧ r.id = s.nextReq ∧ r.core = s.cur.1 ∧ r.ctx = s.cur.2 ∧
          t.packets = s.packets ++ [p] ∧ p.id = s.nextReq ∧ p.pkt.typ = 4 ∧ p.pkt.aux.extractLsb' 0 8 = m ∧
          p.pkt.aux.extractLsb' 8 3 = (sv s a).extractLsb' 0 3))

/-- `ctl.rd` puts the value of every assigned control register on its way to its scalar with latency 2, and `ctl.wr` sends
the scalar's value to the register, with latency 2; a task's write to a register that only a supervisor may write, or that
is read-only, is ignored, and an unassigned number takes ILLEGAL_BUNDLE in both, at the bundle's address. A read of AGE, TRCCTL or HYST less than 16
cycles after another context's write gives the new value or one that such a write replaced. Both instructions complete for
every assigned number, in every mode. -/
def Obligations.ControlRegisters : Prop :=
  ∀ (s : State) (a : Reg),
    let c := me s
    let k := here s
    let assigned : Byte → Prop := fun crn => crn.toNat ≤ 0x09 ∨ (0x10 ≤ crn.toNat ∧ crn.toNat ≤ 0x15) ∨
      (0x18 ≤ crn.toNat ∧ crn.toNat ≤ 0x3B)
    let rd : Nat → Word → Prop := fun crn v => Writes (.ctlRd a (BitVec.ofNat 8 crn)) s 2 a v
    let wr : Nat → State → Prop := fun crn t => exec (.ctlWr a (BitVec.ofNat 8 crn)) s = .next t
    (∀ crn : Byte, assigned crn →
      (∃ n v, exec (.ctlRd a crn) s = .next (result { s with fresh := n } 2 (.scalar a.toNat v))) ∧
      (Readable s [a] → ∃ l : List Write, l.length ≤ 1 ∧ exec (.ctlWr a crn) s = .next (results s 2 l))) ∧
    rd 0x00 c.shape ∧ rd 0x01 c.live ∧ rd 0x02 (seedBefore s ++ (0 : BitVec 29) ++ c.rndMode) ∧ rd 0x03 c.swapth ∧
    (∀ crn v, (crn, v) ∈ [(0x04, k.age.setWidth 64), (0x05, k.trcctl), (0x06, s.hyst.setWidth 64)] →
      (olderValues s crn = [] → rd crn v) ∧
      (∃ w, w ∈ v :: olderValues s crn ∧ exec (.ctlRd a (BitVec.ofNat 8 crn)) s =
        .next (result { s with fresh := s.fresh + (olderValues s crn).length } 2 (.scalar a.toNat w)))) ∧
    rd 0x07 ((0 : BitVec 32) ++ c.pinUsed ++ c.pinCap) ∧ rd 0x08 c.ten ∧ rd 0x09 c.ctxid ∧
    (∀ n, n < 6 → rd (0x10 + n) ((Tbl.look 0 c.dlt n).signExtend 64)) ∧
    (∀ n, n < 8 → rd (0x18 + n) (Tbl.look 0 c.tc n)) ∧
    (∀ n, n < 16 → rd (0x20 + n) ((Tbl.look 0x3FF c.slkt n).setWidth 64)) ∧
    (∀ n, n < 8 → rd (0x30 + n) (patternHeader (Tbl.look Pattern.init c.patterns n))) ∧
    (∀ n, n < 4 → rd (0x38 + n) ((Tbl.look LoopCtr.init c.loops n).count.setWidth 64)) ∧
    (Readable s [a] →
      (∀ crn, crn ∈ [0x00, 0x01, 0x02, 0x03, 0x08] → wr crn (result s 2 (.ctl crn (sv s a)))) ∧
      (∀ n, n < 6 → wr (0x10 + n) (result s 2 (.ctl (0x10 + n) (sv s a)))) ∧
      (∀ n, n < 16 → wr (0x20 + n) (result s 2 (.ctl (0x20 + n) (sv s a)))) ∧
      (∀ n, n < 4 → wr (0x38 + n) (result s 2 (.count n ((sv s a).setWidth 32)))) ∧
      (∀ crn, crn ∈ [0x04, 0x05, 0x06, 0x07] →
        wr crn (if s.cur.2 = 4 then result s 2 (.ctl crn (sv s a)) else s)) ∧
      wr 0x09 s ∧ (∀ n, n < 8 → wr (0x18 + n) s ∧ wr (0x30 + n) s)) ∧
    (∀ crn : Byte, ¬ assigned crn →
      let stops : Instr → Prop := fun i => ∃ t : TrapInfo, exec i s = .next (takeTrap s s.cur.1 s.cur.2 t s.fly.ba s.fly.ba false) ∧
        t.cause = 0x01 ∧ t.addr = s.fly.ba.setWidth 64 ∧ t.slot = 5
      stops (.ctlRd a crn) ∧ (Readable s [a] → stops (.ctlWr a crn)))

/-- A write that becomes visible keeps the fields of SHAPE, LIVE, SWAPTH, TEN, HYST, a delta and a slack entry, drops reserved
bits, stores AGE 1 for AGE 0 and a seed of 1 for a seed of 0, and leaves RND.MODE as it was for a
reserved mode. A write of TRCCTL keeps CLASS, TRIG, MARK and EN, and clears FROZEN where it writes 1 there, which also forgets
a trigger still running out; a write of PINCAP keeps CAP and leaves USED; a write of a loop counter's count leaves its
start, its end and its active bit. -/
def Obligations.ControlRegisterFields : Prop :=
  ∀ (s : State) (core ctx : Nat) (v : Word),
    let t : Nat → State := fun crn => applyWrite s core ctx (.ctl crn v)
    let c : Nat → Ctx := fun crn => ctxOf (t crn) core ctx
    (c 0x00).shape.extractLsb' 0 7 = v.extractLsb' 0 7 ∧ (c 0x00).shape.extractLsb' 16 11 = v.extractLsb' 16 11 ∧
    (c 0x00).shape.extractLsb' 7 9 = 0 ∧ (c 0x00).shape.extractLsb' 27 37 = 0 ∧
    (c 0x01).live = (v.extractLsb' 0 32).setWidth 64 ∧ (c 0x03).swapth = (v.extractLsb' 0 7).setWidth 64 ∧
    (c 0x02).seed = (if v.extractLsb' 32 32 = 0 then 1 else v.extractLsb' 32 32) ∧
    (c 0x02).rndMode = (if v.toNat % 8 < 6 then v.extractLsb' 0 3 else (ctxOf s core ctx).rndMode) ∧
    (coreOf (t 0x04) core).age = (if v.extractLsb' 0 16 = 0 then 1 else v.extractLsb' 0 16) ∧
    (c 0x08).ten = (v.extractLsb' 0 2).setWidth 64 ∧ (t 0x06).hyst = v.extractLsb' 0 10 ∧
    (let x := (coreOf (t 0x05) core).trcctl
     let old := coreOf s core
     x.extractLsb' 8 16 = v.extractLsb' 8 16 ∧ x.extractLsb' 0 2 = v.extractLsb' 0 2 ∧ x.extractLsb' 24 40 = 0 ∧
     x.extractLsb' 3 5 = 0 ∧ x.getLsbD 2 = (old.trcctl.getLsbD 2 && !v.getLsbD 2) ∧
     (coreOf (t 0x05) core).postLeft = if old.trcctl.getLsbD 2 && v.getLsbD 2 then none else old.postLeft) ∧
    (c 0x07).pinCap = v.extractLsb' 0 16 ∧ (c 0x07).pinUsed = (ctxOf s core ctx).pinUsed ∧
    (∀ n w, n < 4 → Tbl.look LoopCtr.init (ctxOf (applyWrite s core ctx (.count n w)) core ctx).loops n =
      { Tbl.look LoopCtr.init (ctxOf s core ctx).loops n with count := w }) ∧
    (∀ n, n < 6 → Tbl.look 0 (c (0x10 + n)).dlt n = v.extractLsb' 0 32) ∧
    (∀ n, n < 16 → Tbl.look 0x3FF (c (0x20 + n)).slkt n = v.extractLsb' 0 10)

/-- A scratchpad `ld` at an aligned offset puts the bytes there, little-endian, zero- or sign-extended, on their way to its
scalar with latency 6; a scratchpad `st` stages the low bytes of its scalar, which the end of the bundle stores at that
offset. -/
def Obligations.ScratchpadScalars : Prop :=
  ∀ (s : State) (d a : Reg) (h : Hint) (sx : Bool) (sz : BitVec 2) (off : Imm), Readable s [a] →
    let addr := (sv s a + off.signExtend 64).toNat
    let n := 2 ^ sz.toNat
    addr % n = 0 → Local s addr n →
    let v := ofBytes (memBytes s.mem (spmAddr s.cur.1 addr) n)
    Writes (.ld d a h true sx sz off) s 6 d
      (if sx then (BitVec.ofNat (8 * n) v).signExtend 64 else BitVec.ofNat 64 v) ∧
    (Readable s [d] → exec (.st d a h true sz off) s =
      .next { s with fly := { s.fly with stores := s.fly.stores ++ cellsAt addr (toBytes n (sv s d).toNat) } })

/-- When the bundle's stores perform, the bytes stored at a scratchpad offset read back as the bytes stored, every byte of
memory outside them reads as before, and memory stays canonical. -/
def Obligations.StagedStoresPerform : Prop :=
  ∀ (s : State) (off : Nat) (b : List Byte), s.rlog = none → s.rplay = none → Memory.wf s.mem = true →
    s.fly.stores = cellsAt off b →
    let t := performStores s
    memBytes t.mem (spmAddr s.cur.1 off) b.length = b ∧
    (∀ x, x < spmAddr s.cur.1 off ∨ spmAddr s.cur.1 off + b.length ≤ x → memByte t.mem x = memByte s.mem x) ∧
    Memory.wf t.mem = true

/-- With ROWS from 1 to 64, a tile operand in the window and not busy, a valid pattern and aligned addresses in the
scratchpad, `ld.x` puts the extracted rows, the tag and the scales on their way with latency 12, `st.x` stages the tile's
rows, and `ld.xg` the gathered rows, a row of index 0xFFFF as zeros in STATE PAD; `xp.set` puts the image's pattern on its
way with latency 6. Row r of `ld.x` is extracted from the `rb` bytes at the address plus r × rb; its block scales are the
16 bytes at sb + 16 r and the superblock scales those at sb + 16 ROWS, sb being the first multiple of 64 past the rows. That
a row whose scales are kept carries them with it is the model's reading (Assumption 33), that an image of more than 32 fields
leaves a pattern whose FIELDS and PERIOD read 0 its choice (Assumption 100). -/
def Obligations.ScratchpadRows : Prop :=
  ∀ (s : State) (d a : Reg) (h : Hint) (sc : Bool) (pat slot : BitVec 3) (off : Imm) (x : Nat), Readable s [a] →
    let addr := (sv s a + off.signExtend 64).toNat
    let p := Tbl.look Pattern.init (me s).patterns pat.toNat
    let rows := rowsOf (me s)
    let tile := tileOf (here s) x
    let rb := ((elemsPerRow p.tag + p.group - 1) / p.group * p.period + 7) / 8
    let sb := 64 * ((rows * rb + 63) / 64)
    let read : Nat → Nat → Nat := fun o n => ofBytes (memBytes s.mem (spmAddr s.cur.1 (addr + o)) n)
    (RowsOk s → TileAt s d x → addr % 64 = 0 →
      (p.valid = true → Local s addr (if sc then sb + 16 * rows + 16 else rows * rb) →
        exec (.ldX d a h true sc pat off) s = .next (results s 12
          ((List.range rows).map (fun r => Write.tileRow x r (p.extract (read (r * rb) rb))
              (if sc then BitVec.ofNat 128 (read (sb + 16 * r) 16)
               else if isScaled p.tag then defaultScales else tile.scales r)) ++
            [.tileTag x (BitVec.ofNat 4 p.tag)] ++
            (if sc then [.tileSsc x (BitVec.ofNat 128 (read (sb + 16 * rows) 16))]
             else if isScaled p.tag then [.tileSsc x defaultSuper] else [])))) ∧
      (Local s addr (512 * rows + if sc then 16 * rows + 16 else 0) →
        ∃ b, exec (.stX d a h true sc off) s =
            .next { s with fly := { s.fly with stores := s.fly.stores ++ cellsAt addr b } } ∧
          b.length = 512 * rows + (if sc then 16 * rows + 16 else 0) ∧
          (∀ r, r < rows → (b.drop (512 * r)).take 512 = rowBytes (tile.row r)))) ∧
    (RowsOk s → TileAt s d x → p.valid = true → off.toNat % 64 = 0 → (sv s a).toNat % 2 = 0 →
      Local s (sv s a).toNat (2 * rows) →
      let index : Nat → Nat := fun r => ofBytes (memBytes s.mem (spmAddr s.cur.1 ((sv s a).toNat + 2 * r)) 2)
      (∀ r, r < rows → index r ≠ 0xFFFF → Local s (off.toNat + index r * p.rowBytes) p.rowBytes) →
      exec (.ldXg d a pat off) s = .next (results s 12
        ((List.range rows).flatMap (fun r =>
          let sc := if isScaled p.tag then defaultScales else tile.scales r
          if index r = 0xFFFF then [.tileRow x r 0 sc, .tileRcw x r 5]
          else [.tileRow x r (p.extract (ofBytes (memBytes s.mem
            (spmAddr s.cur.1 (off.toNat + index r * p.rowBytes)) p.rowBytes))) sc]) ++
          [.tileTag x (BitVec.ofNat 4 p.tag)] ++ if isScaled p.tag then [.tileSsc x defaultSuper] else []))) ∧
    (addr % 8 = 0 → Local s addr 8 →
      let hd : Word := BitVec.ofNat 64 (ofBytes (memBytes s.mem (spmAddr s.cur.1 addr) 8))
      let nf := hd.toNat / 256 % 64
      (nf ≤ 32 → Local s (addr + 8) (4 * nf) →
        exec (.xpSet slot a off) s = .next (result s 6 (.pattern slot.toNat (patternOf hd ((List.range nf).map
          (fun k => BitVec.ofNat 32 (ofBytes (memBytes s.mem (spmAddr s.cur.1 (addr + 8 + 4 * k)) 4)))))))) ∧
      (32 < nf → exec (.xpSet slot a off) s = .next (result s 6 (.pattern slot.toNat Pattern.init))))

/-- Element j of a row that a valid pattern extracts is the field of lane j modulo the group, in the period of its group,
zero- or sign-extended to the element's width; an element whose lane no field names is zero. -/
def Obligations.PatternExtraction : Prop :=
  ∀ (hd : Word) (ents : List (BitVec 32)) (src j : Nat),
    let p := patternOf hd ents
    p.valid = true → j < elemsPerRow p.tag →
    elemOf p.tag (p.extract src) j =
      match p.fields.find? (fun f => f.lane = j % p.group) with
      | none => 0
      | some f =>
        let v := src / 2 ^ (j / p.group * p.period + f.offset) % 2 ^ f.width
        if f.sgn ∧ 2 ^ (f.width - 1) ≤ v then v + 2 ^ elemBits p.tag - 2 ^ f.width else v

/-- Where the virtual address is aligned and its bytes translate with RD, or with WR and outside every reduction target,
`ld` and `ld.x` issue an operation that will write their register, with one read for each 64-byte unit of the physical
bytes, and `st` and `st.x` one write for each, together with the scalar's or the tile's bytes; each is sent as a packet.
Registers and, but for a replay log, memory are as before. When every read of a load has performed and its response has come
back, the data reaches its destination and the operation is over: the scalar of `ld` holds the bytes read; the rows of `ld.x`
hold what the pattern extracts from theirs, with the scales read, the default ones or their own, the other rows and all
control words are as before, and the tag is the pattern's. -/
def Obligations.VirtualLoadsAndStores : Prop :=
  (∀ (s : State) (d a : Reg) (h : Hint) (sx sc : Bool) (sz : BitVec 2) (pat : BitVec 3) (off : Imm) (x : Nat)
    (pas : List Nat), Readable s [a] →
    let va := sv s a + off.signExtend 64
    let p := Tbl.look Pattern.init (me s).patterns pat.toNat
    let rows := rowsOf (me s)
    let sent : State → Nat → Prop := fun t typ => ∀ r ∈ t.reqs.drop s.reqs.length,
      ∃ p ∈ t.packets, p.id = r.id ∧ p.pkt.typ.toNat = typ ∧ p.pkt.pa = BitVec.ofNat 48 (r.pas.headD 0)
    let reads : Instr → Nat → List (Nat × Nat) → Prop := fun i data busy =>
      ∃ t o, exec i s = .next t ∧ Issued s t o ∧ o.instr = i ∧ o.data = data ∧ o.busy = busy ∧ o.pas = pas ∧ sent t 1 ∧
        (t.reqs.drop s.reqs.length).map (·.pas) = chunksOf pas ∧
        (∀ r ∈ t.reqs.drop s.reqs.length, r.kind = .load o.seq ∧ r.performed = false)
    let writes : Instr → List Byte → Prop := fun i b =>
      ∃ t, ∃ parts : List (List (Nat × Byte)), exec i s = .next t ∧ t.ops = s.ops ∧ (s.rlog = none → t.mem = s.mem) ∧ (me t).scalars = (me s).scalars ∧
        sent t 2 ∧ (t.reqs.drop s.reqs.length).map (·.pas) = chunksOf pas ∧
        (t.reqs.drop s.reqs.length).map (·.kind) = parts.map .store ∧ parts.flatten = pas.zip b ∧
        parts.map (fun l => l.map (·.1)) = chunksOf pas
    (HasRoom s → va.toNat % 2 ^ sz.toNat = 0 → directSpan s va (2 ^ sz.toNat) [permRd] = .ok pas →
      reads (.ld d a h false sx sz off) d.toNat []) ∧
    (Readable s [d] → va.toNat % 2 ^ sz.toNat = 0 → directSpan s va (2 ^ sz.toNat) [permWr] = .ok pas →
      (∀ q ∈ pas, inTarget s q = false) → writes (.st d a h false sz off) (toBytes (2 ^ sz.toNat) (sv s d).toNat)) ∧
    (RowsOk s → TileAt s d x → va.toNat % 64 = 0 →
      (HasRoom s → p.valid = true → directSpan s va (loadSpan p rows sc) [permRd] = .ok pas →
        reads (.ldX d a h false sc pat off) 0 [(s.cur.1, x)]) ∧
      (directSpan s va (storeBytes (tileOf (here s) x) rows sc).length [permWr] = .ok pas →
        (∀ q ∈ pas, inTarget s q = false) →
        writes (.stX d a h false sc off) (storeBytes (tileOf (here s) x) rows sc)))) ∧
  (∀ (s : State) (core ctx seq : Nat) (o : Op) (d a : Reg) (h : Hint) (sp sx : Bool) (sz : BitVec 2) (off : Imm),
    findOp s core ctx seq = some o → o.instr = .ld d a h sp sx sz off → o.data = d.toNat → d ≠ 0 →
    loadReqs s o ≠ [] → (∀ r ∈ loadReqs s o, landed s r = true) →
    ∃ t, exec (.loadDataReturn core ctx seq) s = .next t ∧ findOp t core ctx seq = none ∧ t.mem = s.mem ∧
      let b := (loadReqs s o).flatMap (·.value)
      scalarOf (ctxOf t core ctx) d = loadValue sx b.length b) ∧
  (∀ (s : State) (core ctx seq x : Nat) (o : Op) (d a : Reg) (h : Hint) (sp sc : Bool) (pat : BitVec 3) (off : Imm),
    findOp s core ctx seq = some o → o.instr = .ldX d a h sp sc pat off → o.nums = [x] →
    loadReqs s o ≠ [] → (∀ r ∈ loadReqs s o, landed s r = true) →
    ∃ t, exec (.loadDataReturn core ctx seq) s = .next t ∧ findOp t core ctx seq = none ∧ t.mem = s.mem ∧
      let p := o.pattern
      let b := (loadReqs s o).flatMap (·.value)
      let read : Nat → Nat → Nat := fun o n => ofBytes ((b.drop o).take n)
      let rb := ((elemsPerRow p.tag + p.group - 1) / p.group * p.period + 7) / 8
      let sb := 64 * ((o.rows * rb + 63) / 64)
      let old := tileOf (coreOf s core) x
      let new := tileOf (coreOf t core) x
      new.tag = BitVec.ofNat 4 p.tag ∧ (∀ r, new.word r = old.word r) ∧
      (∀ r, r < o.rows → new.row r = p.extract (read (r * rb) rb) ∧
        new.scales r = if sc then BitVec.ofNat 128 (read (sb + 16 * r) 16)
          else if isScaled p.tag then defaultScales else old.scales r) ∧
      (∀ r, o.rows ≤ r → new.row r = old.row r ∧ new.scales r = old.scales r) ∧
      new.ssc = if sc then BitVec.ofNat 128 (read (sb + 16 * o.rows) 16)
        else if isScaled p.tag then defaultSuper else old.ssc)

/-- `tag.lk` gives the lowest slot that holds the address's tag under the context's ASID, with bit 62 set while it is pending,
or all ones; `tag.fl` marks a slot of the region pending on its fill; `tag.ev` and `tag.ev.wb` make a slot invalid, the latter
to write a resident one back; `tag.inv` makes it invalid for later bundles, and traces its eviction; `spm.carve` starts the carve of N units; `td.mk`
reads a template and `td.rel` clears VALID of a descriptor for later bundles. Each answers a next state under these
conditions; a carve or eviction here cancels no fill. -/
def Obligations.TaggedRegion : Prop :=
  ∀ (s : State) (d t a b : Reg) (n sl : BitVec 4) (sp : Bool) (h : Hint) (off : Imm), Readable s [a] →
    let x := sv s a
    let k := here s
    let va := x + off.signExtend 64
    (∃ v, Writes (.tagLk d a off) s 4 d v ∧
      (v = BitVec.ofInt 64 (-1) ∧ (∀ e ∈ k.tags, e.2.asid = (me s).asid → e.2.vtag ≠ va.extractLsb' 11 45) ∨
        ∃ e ∈ k.tags, e.2.asid = (me s).asid ∧ e.2.vtag = va.extractLsb' 11 45 ∧
          (∀ f ∈ k.tags, f.2.asid = (me s).asid → f.2.vtag = va.extractLsb' 11 45 → e.1 ≤ f.1) ∧
          v = BitVec.ofNat 64 (e.1 + if e.2.pend then 2 ^ 62 else 0))) ∧
    (va.toNat % 64 = 0 → Local s va.toNat 64 →
      exec (.tdRel a off) s = .next (result s 1 (.tdInvalid va.toNat))) ∧
    (va.toNat < 128 * k.tu → NoFill s →
      exec (.tagInv a off) s = .next (result (traceEviction s s.cur.1 s.cur.2 va.toNat) 1 (.tagInvalid va.toNat))) ∧
    (HasRoom s →
      (Readable s [b] → (sv s b).toNat % 2048 = 0 → x.toNat < 128 * k.tu →
        (∀ e, Tbl.find k.tags x.toNat = some e → e.pend = false) →
        Starts (.tagFl t a b h) s t (fun o u => o.a = sv s b ∧ ∃ e, Tbl.find (here u).tags x.toNat = some e ∧
          e.pend = true ∧ e.asid = (me s).asid ∧ e.vtag = (sv s b).extractLsb' 11 45 ∧ e.fill = some (o.ctx, o.seq))) ∧
      (x.toNat < 128 * k.tu → NoFill s → (k.tags.map (·.1)).Nodup →
        Starts (.tagEv t a sl) s t (fun _ u => Tbl.find (here u).tags x.toNat = none) ∧
        Starts (.tagEvWb t a sl) s t (fun o u => Tbl.find (here u).tags x.toNat = none ∧
          ∀ e, Tbl.find k.tags x.toNat = some e → e.pend = false →
            o.asid = e.asid ∧ o.a = (e.vtag ++ (0 : BitVec 11)).setWidth 64 ∧ o.nums = [x.toNat, 1])) ∧
      (k.carve = none → (∀ u, u < 12 → k.spgAwake.getLsbD u = true) → NoFill s → n.toNat ≤ 12 →
        Starts (.spmCarve t n) s t (fun o u =>
          (here u).carve = some { ctx := s.cur.2, seq := o.seq, tu := n.toNat } ∧ (here u).tu = k.tu)) ∧
      (Readable s [b] → x.toNat % 64 = 0 → x.toNat + 64 ≤ Config.spmBytes →
        (sp = true → (sv s b).toNat + 64 ≤ Config.spmBytes) →
        Starts (.tdMk t a b sp h) s t (fun o _ => o.a = x ∧ o.b = sv s b)))

/-- `q.bind` of an unbound stream with an aligned buffer of 1 to 4,096 rows in the scratchpad starts the bind; `q.adv` frees
or skips its rows within the limits, `q.adv.rp` moves a window's read pointer within them, each visible one issue count later;
`q.wait` of at most LEN rows holds the next bundle until they are there; `q.drain` unbinds the register for later bundles
and joins the rows appended. A count outside the limits takes STREAM with the register's number: for `q.adv` a negative one,
one past the read pointer of a window, and one past the stream's rows otherwise; for `q.adv.rp` one that leaves the window's
resident rows; for `q.wait` one above LEN; and so does each of the three on an out-stream or an unbound register. That a
negative count of `q.wait` never holds (Assumption 29) and that the record's ENGINE is 4 (Assumption 23) are the model's
readings. -/
def Obligations.StreamInstructions : Prop :=
  ∀ (s : State) (t a b : Reg) (q : BitVec 3) (dir win : Bool) (len : BitVec 13) (h : Hint) (off : Imm),
    Readable s [a] →
    let n := (sv s a + off.signExtend 64).toInt
    (HasRoom s → Readable s [b] → (sv s a).toNat % 64 = 0 → (sv s a).toNat + 64 ≤ Config.spmBytes →
      (sv s b).toNat % 512 = 0 → 1 ≤ len.toNat → len.toNat ≤ 4096 → (sv s b).toNat + 512 * len.toNat ≤ Config.spmBytes →
      Tbl.find (me s).streams q.toNat = none → bindPending s q.toNat = false →
      Starts (.qBind t a b q dir win len h) s t (fun o _ => o.a = sv s a ∧ o.b = sv s b)) ∧
    (HasRoom s → ∃ u o, exec (.qDrain t q) s = .next u ∧ u.ops = s.ops ++ [o] ∧ o.instr = .qDrain t q ∧
      o.tok = t.toNat ∧ u.mem = s.mem ∧ { due := (me s).icount + 1, w := .unbind q.toNat } ∈ (me u).pend) ∧
    let stops : Instr → Prop := fun i => exec i s = .next (takeTrap s s.cur.1 s.cur.2
      { cause := 0x25, addr := 0, detail := 0, index := BitVec.ofNat 32 q.toNat, engine := 4, slot := 2, cseq := 0,
        estat := 0 } s.fly.ba s.fly.ba false)
    ((∀ st, Tbl.find (me s).streams q.toNat = some st → st.out = true) →
      stops (.qAdv q a off) ∧ stops (.qAdvRp q a off) ∧ stops (.qWait q a off)) ∧
    (∀ st, Tbl.find (me s).streams q.toNat = some st → st.out = false →
      (0 ≤ n → n ≤ (if st.win then (st.rp : Int) - st.freed else (st.total : Int) - st.rp) →
        exec (.qAdv q a off) s = .next (result s 1 (.advance q.toNat false n))) ∧
      (st.win = true → (st.freed : Int) ≤ st.rp + n → st.rp + n ≤ st.fetched →
        exec (.qAdvRp q a off) s = .next (result s 1 (.advance q.toNat true n))) ∧
      (n ≤ st.len → exec (.qWait q a off) s =
        .next (withMe s (fun c => { c with waits := c.waits ++ [.stream q.toNat n.toNat] }))) ∧
      (n < 0 ∨ (if st.win then (st.rp : Int) - st.freed else (st.total : Int) - st.rp) < n → stops (.qAdv q a off)) ∧
      (st.win = true → st.rp + n < (st.freed : Int) ∨ (st.fetched : Int) < st.rp + n → stops (.qAdvRp q a off)) ∧
      ((st.len : Int) < n → stops (.qWait q a off)))

/-- With room for one more operation and its scratchpad operands inside the scratchpad and aligned, each copy-engine command
is issued with what it captures: `cp` and `cp.kvchk` their addresses and length, `cp.g` and `cp.s` their addresses, index
list, count and row size, `pf.t` its descriptor's offset. `pin` of an aligned range within the context's cap, less what the
context already holds in the window, and of a window that is free or its own assigns the window; above the cap or owned by
another it is issued to end with PIN_CAP. `unpin` of the context's own window releases it and lowers USED; of a window that the
context does not hold it changes none. That a length of zero or of no multiple of 4 KiB follows the same formula is the
model's reading (Assumption 28). -/
def Obligations.CopyEngineIssue : Prop :=
  ∀ (s : State) (t a b c : Reg) (ds ss clamp scl : Bool) (len : Imm20) (rsz : BitVec 6) (cnt : BitVec 14)
    (sl : BitVec 4) (evp : BitVec 2) (w : BitVec 3) (h : Hint), Readable s [a, b, c] → HasRoom s →
    let x := sv s a
    let y := sv s b
    let z := sv s c
    let n := if c = 0 then len.toNat else z.toNat % 2 ^ 32
    let row := if rsz = 0 then 4096 else 64 * rsz.toNat
    let inside : Word → Nat → Prop := fun w k => k = 0 ∨ w.toNat + k ≤ Config.spmBytes
    (inside x (if ds then n else 0) → inside y (if ss then n else 0) →
      Starts (.cp t a b c ds ss len h) s t (fun o _ => o.a = x ∧ o.b = y ∧ o.nums = [n])) ∧
    (z.toNat % 64 = 0 → inside x (if ds then len.toNat else 0) → inside y (if ss then len.toNat else 0) →
      Starts (.cpKvchk t a b c ds ss len h) s t (fun o _ => o.a = x ∧ o.b = y ∧ o.c = z ∧ o.nums = [len.toNat])) ∧
    (x.toNat % 64 = 0 → y.toNat % 64 = 0 → z.toNat % 4 = 0 → inside z (4 * cnt.toNat) →
      (inside x (if ds then cnt.toNat * row else 0) →
        Starts (.cpG t a b c ds ss clamp rsz cnt h) s t (fun o _ =>
          o.a = x ∧ o.b = y ∧ o.c = z ∧ o.nums = [cnt.toNat, row])) ∧
      (inside y (if ss then cnt.toNat * row else 0) →
        Starts (.cpS t a b c ds ss clamp rsz cnt h) s t (fun o _ =>
          o.a = x ∧ o.b = y ∧ o.c = z ∧ o.nums = [cnt.toNat, row]))) ∧
    (x.toNat % 64 = 0 → x.toNat + 64 ≤ Config.spmBytes → Starts (.pfT t a scl sl evp) s t (fun o _ => o.a = x)) ∧
    (let p := Tbl.look PinWin.init s.pins w.toNat
     let mine := pinMine p s.cur.1 s.cur.2 (me s)
     let used := (me s).pinUsed.toNat - (if mine then p.usedMib else 0) + (y.toNat + 2 ^ 20 - 1) / 2 ^ 20
     (x.toNat % 4096 = 0 →
      (p.owner = none ∨ mine = true → used ≤ (me s).pinCap.toNat →
        Starts (.pin t a b c w) s t (fun o u => o.nums = [(y.toNat + 2 ^ 20 - 1) / 2 ^ 20, 0] ∧
          (me u).pinUsed = BitVec.ofNat 16 used ∧ ∃ v, Tbl.find u.pins w.toNat = some v ∧
          v.owner = some s.cur ∧ v.asid = (me s).asid ∧ v.base = x.toNat ∧ v.len = y.toNat ∧ v.mask = z)) ∧
      ((p.owner ≠ none ∧ mine = false) ∨ (me s).pinCap.toNat < used →
        Starts (.pin t a b c w) s t (fun o u => o.nums = [0x15, 1] ∧ u.pins = s.pins))) ∧
     (mine = true → Starts (.unpin t w) s t (fun o u => o.nums.drop 1 = [0] ∧
        (Tbl.look PinWin.init u.pins w.toNat).owner = none ∧ (me u).pinUsed = (me s).pinUsed - BitVec.ofNat 16 p.usedMib)) ∧
     (mine = false → Starts (.unpin t w) s t (fun o u => o.nums = [0, 0] ∧ u.pins = s.pins)))

/-- A copy-engine command that has performed all its chunks, waits for no contribution or key-value pair and is neither
suspended nor ending completes: it is outstanding no longer and its token scalar holds OK with the count its rule gives.
Likewise `tag.fl` makes its slot resident with the bytes it fetched, `spm.carve` leaves the new carve with the count of banks
that changed role, and `q.bind` ends with the count of the stream's rows. -/
def Obligations.CommandsComplete : Prop :=
  (∀ (s : State) (o : Op), findOp s o.core o.ctx o.seq = some o → o.susp = none → o.ending = none →
    (isCopyCommand o.instr = true → o.contribution = none → o.waits = [] →
      (∀ k ∈ copyEngineChunks o, k ∈ o.done) → (∀ t a b w cnt sl, o.instr ≠ .kvChk t a b w cnt sl) →
      (copyToken o).extractLsb' 62 2 = 0 →
      ∃ u, exec (.copyComplete o.core o.ctx o.seq) s = .next u ∧ Finished s u o (copyToken o)) ∧
    (∀ t a b c ds ss len h, o.instr = .cp t a b c ds ss len h ∨ o.instr = .cpKvchk t a b c ds ss len h →
      copyToken o = tokenOk (o.nums.headD 0)) ∧
    (∀ t a b c ds ss cl rsz cnt h, o.instr = .cpG t a b c ds ss cl rsz cnt h ∨ o.instr = .cpS t a b c ds ss cl rsz cnt h →
      copyToken o = tokenOk o.count) ∧
    (∀ t a b c dir win len h, o.instr = .qBind t a b c dir win len h → 0 ∈ o.done →
      ∃ u, exec (.streamBindComplete o.core o.ctx o.seq) s = .next u ∧ Finished s u o (tokenOk o.count)) ∧
    (∀ t a b h slot e, o.instr = .tagFl t a b h → Tbl.find (coreOf s o.core).tags slot = some e →
      e.fill = some (o.ctx, o.seq) → 0 ∈ o.done →
      ∃ u, exec (.tagFillDone o.core slot) s = .next u ∧ findOp u o.core o.ctx o.seq = none ∧
        (o.tok ≠ 0 → Tbl.look 0 (ctxOf u o.core o.ctx).scalars o.tok = tokenOk 2048) ∧
        (s.rlog = none → s.relocs = [] → u.mem = (physWrite s (cellsAt (spmAddr o.core (slotOffset slot)) o.bytes)).mem) ∧
        ∃ e', Tbl.find (coreOf u o.core).tags slot = some e' ∧ e'.pend = false ∧ e'.vtag = e.vtag)) ∧
  (∀ (s : State) (core : Nat) (c : Carve) (o : Op), (coreOf s core).carve = some c → o.core = core →
    (coreOf s core).tags = [] → findOp s core c.ctx c.seq = some o →
    ∃ u, exec (.carveComplete core) s = .next u ∧ findOp u core c.ctx c.seq = none ∧ (coreOf u core).tu = c.tu ∧
      (coreOf u core).carve = none ∧ (o.tok ≠ 0 → Tbl.look 0 (ctxOf u core c.ctx).scalars o.tok =
        tokenOk (32 * (max (coreOf s core).tu c.tu - min (coreOf s core).tu c.tu))))

/-- An aligned `am` or `red` whose bytes translate with RD and WR issues one access with its type's bytes and one packet with
its SCOPE; a release lets every earlier direct access of the context come first, and an acquire
holds the next bundle until it has performed; `drain` and `ac.wait` hold it until the accesses issued before have performed,
or the counter has reached its expected value. `put`, `get` and `mcast` are issued with their addresses and lengths,
`ac.set` sets the counter at once, `ac.add` sends one notice packet when its target word is enabled, and `kv.chk` is issued
with its descriptor and slots. -/
def Obligations.AtomicsAndFabricIssue : Prop :=
  ∀ (s : State) (t a b c : Reg) (aop scope : BitVec 3) (ty ord : BitVec 2) (disp : BitVec 12) (h : Hint)
    (ss watch : Bool) (rows : BitVec 7) (sl ctr : BitVec 4) (len : Imm20) (cnt : BitVec 16) (pas : List Nat),
    exec (.drain scope) s = .next (withMe s (fun k =>
      { k with waits := k.waits ++ [.drain scope.toNat (reqBefore s)] })) ∧
    exec (.acWait ctr) s = .next (withMe s (fun k => { k with waits := k.waits ++ [.arrivals ctr.toNat] })) ∧
    (Readable s [a, b, c] → HasRoom s →
      let x := sv s a
      let y := sv s b
      let z := sv s c
      let n := if ty = 1 then 8 else 4
      let va := x + disp.signExtend 64
      let inside : Word → Nat → Prop := fun w k => k = 0 ∨ w.toNat + k ≤ Config.spmBytes
      let accesses : Instr → Nat → Prop := fun i data =>
        ∃ u o r, exec i s = .next u ∧ Issued s u o ∧ o.instr = i ∧ o.tok = t.toNat ∧ o.data = data ∧ o.b = y ∧
          u.reqs = s.reqs ++ [r] ∧ r.kind = .atomic o.seq (ord.getLsbD 0) ∧ r.pas = pas ∧ r.performed = false ∧
          (ord.getLsbD 0 = true → .acquire r.id ∈ (me u).waits) ∧
          (∃ p ∈ u.packets, p.id = r.id ∧ p.pkt.typ = 3 ∧ p.pkt.scope = scope) ∧
          (ord.getLsbD 1 = true → ∀ q ∈ s.reqs, q.directOf s.cur.1 s.cur.2 = true → q.performed = false → q.id ∈ r.after)
      (va.toNat % n = 0 → directSpan s va n [permRd, permWr] = .ok pas → (∀ q ∈ pas, inTarget s q = false) →
        accesses (.am t a b c aop ty scope ord disp h) c.toNat ∧ accesses (.red t a b aop ty scope ord disp h) 0) ∧
      (x.toNat % 64 = 0 → y.toNat % 64 = 0 →
        (inside y (if ss then 512 * rows.toNat else 0) →
          Starts (.put t a b c ss rows sl) s t (fun o _ => o.a = x ∧ o.b = y ∧ o.c = z)) ∧
        (inside x (if ss then 512 * rows.toNat else 0) →
          Starts (.get t a b c ss rows sl) s t (fun o _ => o.a = x ∧ o.b = y ∧ o.c = z))) ∧
      (z.toNat < 2 ^ 16 → z.extractLsb' 0 16 &&& ~~~ (partitionOf s s.cur.1 s.cur.2) = 0 →
        z = 0 ∨ (inside x len.toNat ∧ inside y len.toNat) → Starts (.mcast t a b c len sl) s t (fun o _ => o.a = x ∧ o.b = y ∧ o.c = z)) ∧
      Starts (.acSet t a watch ctr) s t (fun _ u => Tbl.find (here u).ctrs ctr.toNat =
        some { expect := x.setWidth 32, count := 0, bitmap := 0, watch := if watch then some s.cur.2 else none }) ∧
      Starts (.acAdd t a sl) s t (fun o u => o.a = x ∧ (atwEn x = true → ∃ p, u.packets = s.packets ++ [p] ∧
        p.pkt.typ = 6 ∧ p.pkt.dst.toNat = atwCore x ∧ p.pkt.dstDev.toNat = atwDevice x ∧ p.pkt.atw = x ∧ p.op = some o.key)) ∧
      (x.toNat % 64 = 0 → Starts (.kvChk t a b watch cnt sl) s t (fun o _ => o.a = x ∧ o.b = y ∧ o.nums = [cnt.toNat])))

/-- When an atomic has performed and its reply has come back, `am` gives the old value to its data scalar, sign-extended for i32, and its token reads
OK with count 1. A fabric command that has performed all its pieces, and whose packets have arrived, ends with its token. A
key-value check whose slots are all present ends with its count, and sets f11 when it watches. Two CONTRIB packets of one
generation of an exact group that meet at a combining point become one over both sets of ranks, with the smaller slack (the
latter is the model's choice, Assumption 90). When the partials at the root cover every rank, the root writes their elements
to the target, advances the generation and sends a REL packet to every contributing core; and a REL packet ends that core's
contribution with the target's length. -/
def Obligations.AtomicsAndFabricComplete : Prop :=
  (∀ (s : State) (o : Op) (r : Req) (t a b c : Reg) (aop scope : BitVec 3) (ty ord : BitVec 2) (disp : BitVec 12)
    (h : Hint), findOp s o.core o.ctx o.seq = some o → o.instr = .am t a b c aop ty scope ord disp h →
    o.tok = t.toNat → o.data = c.toNat → t ≠ 0 → c ≠ 0 → t ≠ c → atomicReq s o = some r → landed s r = true →
    ∃ u, exec (.atomicReply o.core o.ctx o.seq) s = .next u ∧ findOp u o.core o.ctx o.seq = none ∧ u.mem = s.mem ∧
      scalarOf (ctxOf u o.core o.ctx) t = 1 ∧
      scalarOf (ctxOf u o.core o.ctx) c =
        (if ty = 0 then (BitVec.ofNat 32 (ofBytes r.value)).signExtend 64 else BitVec.ofNat 64 (ofBytes r.value))) ∧
  (∀ (s : State) (o : Op), findOp s o.core o.ctx o.seq = some o → o.susp = none → o.ending = none →
    (isFabricCommand o.instr = true → packetsOf s o = false → (∀ k ∈ fabricChunks o, k ∈ o.done) →
      ∃ u, exec (.fabricCommandComplete o.core o.ctx o.seq) s = .next u ∧ Finished s u o (fabricToken o)) ∧
    (∀ t a b w cnt sl, o.instr = .kvChk t a b w cnt sl → o.waits = [] →
      (∀ k ∈ copyEngineChunks o, k ∈ o.done) →
      ∃ u, exec (.copyComplete o.core o.ctx o.seq) s = .next u ∧ findOp u o.core o.ctx o.seq = none ∧
        (o.tok ≠ 0 → Tbl.look 0 (ctxOf u o.core o.ctx).scalars o.tok = tokenOk o.count) ∧
        (w = true → (ctxOf u o.core o.ctx).flags.getLsbD 11 = true))) ∧
  (∀ (s : State) (p q : NetPacket), findPacket s p.id = some p → findPacket s q.id = some q → p.id ≠ q.id →
    p.pkt.typ = 7 → q.pkt.typ = 7 → p.place = q.place → combinesAt p.place = true → accTaken s p = false →
    auxGroup q.pkt.aux = auxGroup p.pkt.aux → auxGen q.pkt.aux = auxGen p.pkt.aux → p.pkt.dstDev = q.pkt.dstDev →
    p.pkt.exact = true → q.pkt.exact = true → rgFast (Tbl.look RGroup.init s.groups (auxGroup p.pkt.aux)).entry = false →
    (partOf p).first = (partOf q).first → (partOf p).vals.length = 8 → (partOf q).vals.length = 8 →
    (∀ r ∈ (partOf p).ranks, r ∉ (partOf q).ranks) →
    ∃ u c, exec (.contribCombine (auxGroup p.pkt.aux) p.id q.id) s = .next u ∧ findPacket u p.id = some c ∧ findPacket u q.id = none ∧
      (partOf c).vals = (partOf p).vals.zipWith combineExact (partOf q).vals ∧
      (partOf c).ranks = (partOf p).ranks ++ (partOf q).ranks ∧ c.place = p.place ∧
      c.pkt.slack.toNat = min p.pkt.slack.toNat q.pkt.slack.toNat ∧ u.mem = s.mem) ∧
  (∀ (s : State) (group : Nat),
    let g := Tbl.look RGroup.init s.groups group
    let parts := settleParts g.entry g.parts
    rgValid g.entry = true → rgRoot g.entry = s.device.toNat → complete g.entry parts = true → s.relocs = [] →
    s.rlog = none →
    ∃ u, exec (.reductionComplete group) s = .next u ∧
      u.mem = (physWrite s (cellsAt (rgHome g.entry) (resultBytes g.entry (wholePart g.entry parts)))).mem ∧
      (Tbl.look RGroup.init u.groups group).parts = [] ∧
      (Tbl.look RGroup.init u.groups group).entry.extractLsb' 48 16 = g.entry.extractLsb' 48 16 + 1 ∧
      ∀ d c, (d, c) ∈ giversOf parts → d < 1024 → c < 2 ^ 16 →
        ∃ p ∈ u.packets, p.pkt.typ = 0x13 ∧ p.pkt.dst.toNat = c ∧ p.pkt.dstDev.toNat = d) ∧
  (∀ (s : State) (core : Nat) (aux : BitVec 32) (o : Op),
    s.ops.find? (fun o => o.core == core && o.contribution == some (auxGroup aux, auxGen aux)) = some o →
    let u := releaseAt s core aux
    findOp u o.core o.ctx o.seq = none ∧ (o.tok ≠ 0 → Tbl.look 0 (ctxOf u o.core o.ctx).scalars o.tok =
      tokenOk (rgBytes (Tbl.look RGroup.init s.groups (auxGroup aux)).entry)))

/-- Combining two exact partials adds ACC in 320-bit two's complement, joins NAN, PINF and NINF, meets NZ and adds COUNT,
saturating; the combination is associative and commutative. An FP32 contribution enters with COUNT 1, with NZ for a negative
zero, with NAN, PINF or NINF for a NaN or an infinity, and with its exact value times 2^160 in ACC, or 0 where it is not finite;
a BF16 contribution enters as the FP32 one of the same value. Over up to 2^31 finite FP32 contributions ACC holds the exact sum
times 2^160, below 2^159 × 2^160 in magnitude. -/
def Obligations.ExactReduction : Prop :=
  (∀ a b : BitVec 384,
    let p := combineExact a b
    p.extractLsb' 0 320 = a.extractLsb' 0 320 + b.extractLsb' 0 320 ∧
    p.extractLsb' 320 3 = a.extractLsb' 320 3 ||| b.extractLsb' 320 3 ∧
    p.extractLsb' 323 1 = a.extractLsb' 323 1 &&& b.extractLsb' 323 1 ∧ p.extractLsb' 324 28 = 0 ∧
    (p.extractLsb' 352 32).toNat = min ((a.extractLsb' 352 32).toNat + (b.extractLsb' 352 32).toNat) (2 ^ 32 - 1) ∧
    combineExact b a = p) ∧
  (∀ a b c : BitVec 384, combineExact (combineExact a b) c = combineExact a (combineExact b c)) ∧
  let exact : BitVec 32 → Int := fun w =>
    let e := (w.extractLsb' 23 8).toNat
    let m : Nat := (w.extractLsb' 0 23).toNat + if e = 0 then 0 else 2 ^ 23
    (if w.getLsbD 31 then -1 else 1) * (m * 2 ^ (max e 1 + 10) : Nat)
  (∀ w : BitVec 32,
    let p := enterExact (elementValue 1 w.toNat)
    let special : Bool := w.extractLsb' 23 8 == 0xFF
    p.extractLsb' 352 32 = 1 ∧ p.extractLsb' 324 28 = 0 ∧ p.getLsbD 323 = (w == 0x80000000) ∧
    p.getLsbD 322 = (w == 0xFF800000) ∧ p.getLsbD 321 = (w == 0x7F800000) ∧
    p.getLsbD 320 = (special && w.extractLsb' 0 23 != 0) ∧ accOf p = if special then 0 else exact w) ∧
  (∀ l : List (BitVec 32), l.length ≤ 2 ^ 31 → (∀ w ∈ l, (w.extractLsb' 23 8).toNat < 255) →
    let total := (l.map exact).sum
    accOf (l.foldl (fun p w => combineExact p (enterExact (elementValue 1 w.toNat))) 0) = total ∧
    total.natAbs < 2 ^ 159 * 2 ^ 160) ∧
  (∀ w : BitVec 16, enterExact (elementValue 2 w.toNat) = enterExact (elementValue 1 (w.toNat * 2 ^ 16)))

/-- An integer atomic's new value is the sum modulo the width, the signed lesser or greater, the bitwise result, the
operand, or for compare-and-swap the operand where the old value equals sC's low bits and the old value where it does
not; it fits the width, and bits of the operands above the width do not matter. -/
def Obligations.AtomicNewValue : Prop :=
  ∀ (ty : BitVec 2) (old b c : Nat), ty ≠ 2 → ty ≠ 3 →
    let w := if ty = 1 then 64 else 32
    let sgn : Nat → Int := fun v => if 2 ^ (w - 1) ≤ v % 2 ^ w then (v % 2 ^ w : Nat) - 2 ^ w else (v % 2 ^ w : Nat)
    old < 2 ^ w →
    atomicNew 0 ty old b c = (old + b) % 2 ^ w ∧
    atomicNew 1 ty old b c = (if sgn old < sgn b then old else b % 2 ^ w) ∧
    atomicNew 2 ty old b c = (if sgn old < sgn b then b % 2 ^ w else old) ∧
    (∀ i, i < w → (atomicNew 3 ty old b c).testBit i = (old.testBit i && b.testBit i) ∧
      (atomicNew 4 ty old b c).testBit i = (old.testBit i || b.testBit i) ∧
      (atomicNew 5 ty old b c).testBit i = (old.testBit i ^^ b.testBit i)) ∧
    atomicNew 6 ty old b c = b % 2 ^ w ∧
    atomicNew 7 ty old b c = (if old = c % 2 ^ w then b % 2 ^ w else old) ∧
    (∀ aop : BitVec 3, atomicNew aop ty old b c < 2 ^ w)

/-- In supervisor mode each range instruction is issued with the address space and the operands of its scalars, an aligned
address where it needs one; in a task context it takes PRIV at its bundle. Once the accesses that it must wait for have
performed, and its reads of the directory and of an image have returned, a range command takes effect and completes with its
count, or changes nothing and completes with its failure code in an error token: `rng.ins` puts the image's descriptor in its
sorted place, `rng.del` takes the range away, `rng.split` puts two ranges in its place, `rng.merge` one in the place of two,
`rng.res` changes its residency, `rng.reloc` its offset, each under the advanced generation number; `rng.inv` advances it and
drops the table entries of its span; `rng.rd` writes the descriptor to the scratchpad. A changed directory is written to
memory, entry by entry and with its count, nothing else there changes, and no table entry of the span is left. A relocation first
moves every chunk of its range, one chunk an event. A walk sends its reads and installs the descriptor that covers the unit.
The order of the failure codes of `rng.ins` (Assumption 94) and that ALL does not look at the ASID's entry (Assumption 95) are
the model's choices. -/
def Obligations.RangeCommands : Prop :=
  (∀ (s : State) (t a b c : Reg) (all : Bool) (sl : BitVec 4), Readable s [a, b, c] → HasRoom s →
    let x := sv s a
    let y := sv s b
    let z := sv s c
    let cmd : Instr → Prop := fun i => Starts i s t (fun o _ => o.asid = x.extractLsb' 0 16 ∧ o.b = y)
    let cmd3 : Instr → Prop := fun i => Starts i s t (fun o _ => o.asid = x.extractLsb' 0 16 ∧ o.b = y ∧ o.c = z)
    (s.cur.2 = 4 →
      (y.toNat % 32 = 0 → cmd (.rngIns t a b sl)) ∧ cmd (.rngDel t a b sl) ∧
      (y.toNat % 4096 = 0 → cmd (.rngSplit t a b sl)) ∧ cmd (.rngMerge t a b sl) ∧
      cmd3 (.rngInv t a b c all sl) ∧ cmd3 (.rngReloc t a b c sl) ∧ cmd3 (.rngResOr t a b c sl) ∧
      cmd3 (.rngResAndn t a b c sl) ∧ cmd3 (.rngResWr t a b c sl) ∧
      (z.toNat % 8 = 0 → z.toNat + 32 ≤ Config.spmBytes → cmd3 (.rngRd t a b c sl))) ∧
    (s.cur.2 ≠ 4 → ∀ p : Instr × Nat, p ∈ [(Instr.rngIns t a b sl, 0x40), (.rngDel t a b sl, 0x41),
        (.rngSplit t a b sl, 0x42), (.rngMerge t a b sl, 0x43), (.rngInv t a b c all sl, 0x44),
        (.rngReloc t a b c sl, 0x45), (.rngResOr t a b c sl, 0x46), (.rngResAndn t a b c sl, 0x46),
        (.rngResWr t a b c sl, 0x46), (.rngRd t a b c sl, 0x47)] →
      ∃ stop : TrapInfo, exec p.1 s = .next (takeTrap s s.cur.1 s.cur.2 stop s.fly.ba s.fly.ba false) ∧
        stop.cause = 0x04 ∧ stop.addr = s.fly.ba.setWidth 64 ∧ stop.detail = BitVec.ofNat 64 p.2)) ∧
  (∀ (s : State) (o : Op), findOp s o.core o.ctx o.seq = some o → o.live = true →
    let done : Nat → State → Prop := fun n u =>
      exec (.rangeCmdComplete o.core o.ctx o.seq) s = .next (finishOp u o (tokenOk n))
    let fails : Nat → Prop := fun n => exec (.rangeCmdComplete o.core o.ctx o.seq) s = .next (finishOp s o (tokenError n))
    let l := directoryOf s o.asid
    let vp := o.b.toNat / 4096
    let quiet : Prop := readDirectory s o vp = .ok () ∧ accessesDone s o = true
    let found : BitVec 256 → Prop := fun d => o.b.toNat < 2 ^ 56 ∧ (rootOf s o.asid).isSome = true ∧ rangeHolding l vp = some d
    let missing : Prop := 2 ^ 56 ≤ o.b.toNat ∨ rootOf s o.asid = none ∨ rangeHolding l vp = none
    let replaced : BitVec 256 → (BitVec 32 → List (BitVec 256)) → State := fun d by_ =>
      commitRange s o (fun g => replaceDesc l d (by_ g)) (dVbase d) (dLen d)
    let edits : Prop := ∃ t a b c sl, o.instr ∈ [Instr.rngDel t a b sl, .rngSplit t a b sl, .rngMerge t a b sl,
      .rngResOr t a b c sl, .rngResAndn t a b c sl, .rngResWr t a b c sl]
    (edits → quiet → (missing → fails 3) ∧ (∀ d, found d → relocating s o.asid d = true → fails 6)) ∧
    (∀ t a b sl d u r, o.instr = .rngIns t a b sl → readImage s o = .ok (d, u) → readDirectory u o (dVbase d) = .ok () →
      accessesDone u o = true → rootOf u o.asid = some r →
      let l := directoryOf u o.asid
      (imageOk u d = false → fails 7) ∧
      (imageOk u d = true → (∃ e ∈ l, rangesMeet d e = true) → fails 1) ∧
      (imageOk u d = true → (∀ e ∈ l, rangesMeet d e = false) → (r.cap ≤ r.count → fails 2) ∧
        (r.count < r.cap → done (r.count + 1)
          (commitRange u o (fun g => insertDesc (stamp g d) l) (dVbase d) (dLen d))))) ∧
    (∀ d t a b c sl, quiet → found d → relocating s o.asid d = false →
      (o.instr = .rngDel t a b sl → done (l.length - 1) (replaced d (fun _ => []))) ∧
      (∀ r, o.instr = .rngSplit t a b sl → rootOf s o.asid = some r →
        let u := vp - dVbase d
        (u = 0 → fails 4) ∧ (0 < u → r.cap ≤ r.count → fails 2) ∧
        (0 < u → r.count < r.cap → done 2 (replaced d (fun g => (splitRange d u).map (stamp g))))) ∧
      (o.instr = .rngMerge t a b sl →
        let next := l.find? (fun e => dVbase e == dVbase d + dLen d)
        (next = none → fails 5) ∧
        (∀ e, next = some e → (relocating s o.asid e = true → fails 6) ∧
          (relocating s o.asid e = false → mergeable d e = false → fails 5) ∧
          (relocating s o.asid e = false → mergeable d e = true → done 1 (commitRange s o
            (fun g => replaceDesc (replaceDesc l e []) d [stamp g (mergeRange d e)]) (dVbase d) (dLen d + dLen e))))) ∧
      (∀ p : Instr × BitVec 64, p ∈ [(Instr.rngResOr t a b c sl, dRes d ||| o.c), (.rngResAndn t a b c sl, dRes d &&& ~~~ o.c),
          (.rngResWr t a b c sl, o.c)] → o.instr = p.1 →
        done ((List.range 64).filter (fun i => (trimRes d p.2).getLsbD i)).length
          (replaced d (fun g => [stamp g (withRes d (trimRes d p.2))])))) ∧
    (∀ t a b c all sl, o.instr = .rngInv t a b c all sl → accessesDone s o = true →
      let end_ := (o.b.toNat + o.c.toNat + 4095) / 4096
      (all = true ∨ (readDirectory s o vp = .ok () ∧ (rootOf s o.asid).isSome = true) →
        done (s.gen + 1).toNat (dropEntries { s with gen := s.gen + 1 } all o.asid vp (end_ - vp))) ∧
      (all = false → readDirectory s o vp = .ok () → rootOf s o.asid = none → fails 3)) ∧
    (∀ t a b c sl, o.instr = .rngRd t a b c sl → readDirectory s o vp = .ok () → (missing → fails 3) ∧
      ∀ d u, found d → engineWrite s o true o.c.toNat (toBytes 32 d.toNat) [] = .ok u → done 32 u) ∧
    (∀ t a b c sl r d, o.instr = .rngReloc t a b c sl → relocOf s o = some r → rangeHolding (directoryOf s r.1) r.2.1 = some d →
      (relocChunks d ≤ r.2.2.2 → accessesDone s o = true → done (relocChunks d)
        (commitRange { s with relocs := s.relocs.filter (fun x => x ≠ r) } o
          (fun g => replaceDesc (directoryOf s r.1) d [stamp g (withOff d r.2.2.1)]) (dVbase d) (dLen d))) ∧
      (r.2.2.2 < relocChunks d →
        let n := 4096 * min 16 (dLen d - 16 * r.2.2.2)
        let src := unitAddr (dVbase d + 16 * r.2.2.2) (dOff d)
        let dst := unitAddr (dVbase d + 16 * r.2.2.2) r.2.2.1.toInt
        MemSafe s → (∀ i, i < n → (∃ k, regionOf (src + i) = .hbm k) ∧ ∃ k, regionOf (dst + i) = .hbm k) →
        ∃ u, exec (.relocChunkMove o.core o.ctx o.seq) s = .next u ∧ memBytes u.mem dst n = memBytes s.mem src n ∧
          (∀ a, a < dst ∨ dst + n ≤ a → memByte u.mem a = memByte s.mem a) ∧
          (r.1, r.2.1, r.2.2.1, r.2.2.2 + 1) ∈ u.relocs)) ∧
    (∀ t a b c sl u, o.instr = .rngReloc t a b c sl → o.started = false → quiet → beginReloc s o = .ok u →
      exec (.relocChunkMove o.core o.ctx o.seq) s = .next u) ∧
    (∀ u token, findOp (finishOp u o token) o.core o.ctx o.seq = none ∧
      (o.tok ≠ 0 → Tbl.look 0 (ctxOf (finishOp u o token) o.core o.ctx).scalars o.tok = token))) ∧
  (∀ (s : State) (o : Op) (f : BitVec 32 → List (BitVec 256)) (lo len : Nat) (r : Root), rootOf s o.asid = some r → MemSafe s →
    let u := commitRange s o f lo len
    let l := f (s.gen + 1)
    let root := rootAddr s o.asid
    let entry : State → BitVec 128 := fun s => BitVec.ofNat 128 (ofBytes (memBytes s.mem root 16))
    let left : RtEntry → Prop := fun e => e.asid = o.asid → ¬ (dVbase e.desc < lo + len ∧ lo < dVbase e.desc + dLen e.desc)
    u.gen = s.gen + 1 ∧ (∀ n, ∀ e ∈ (coreOf u n).rtask ++ (coreOf u n).rserv, left e) ∧
    (r.base + 32 * l.length ≤ root ∨ root + 16 ≤ r.base → l.length < 2 ^ 17 →
      (∀ a, (r.base ≤ a ∧ a < r.base + 32 * l.length) ∨ (root ≤ a ∧ a < root + 16) → ∃ k, regionOf a = .hbm k) →
      memBytes u.mem r.base (32 * l.length) = l.flatMap (fun d => toBytes 32 d.toNat) ∧
      (entry u).extractLsb' 80 17 = BitVec.ofNat 17 l.length ∧ (entry u).extractLsb' 0 80 = (entry s).extractLsb' 0 80 ∧
      (entry u).extractLsb' 97 31 = (entry s).extractLsb' 97 31 ∧
      ∀ a, a < r.base ∨ r.base + 32 * l.length ≤ a → a < root ∨ root + 16 ≤ a → memByte u.mem a = memByte s.mem a)) ∧
  (∀ (s : State) (core ctx : Nat) (asid : BitVec 16) (vp : Nat),
    exec (.rangeWalk core ctx asid vp) s =
      .next (installEntry (sendWalk s core 7 (netSlackOf s core) asid vp) core ctx asid vp))

/-- Where a split at unit u of a range gives two ranges, they cover between them exactly the units of the range, none twice,
with the same offset and permissions. -/
def Obligations.SplitCoversTheRange : Prop :=
  ∀ (d : BitVec 256) (u vp : Nat), 0 < u → u < dLen d → dVbase d + dLen d ≤ 2 ^ 44 → dLen d < 2 ^ 44 →
    ∃ e f, splitRange d u = [e, f] ∧
      (covers d vp = true ↔ covers e vp = true ∨ covers f vp = true) ∧ ¬ (covers e vp = true ∧ covers f vp = true) ∧
      dOff e = dOff d ∧ dOff f = dOff d ∧
      (∀ need, (∀ k ∈ need, permRd ≤ k ∧ k ≤ permKv) → permits e need = permits d need ∧ permits f need = permits d need)

/-- With its tile operands in the window and not busy, floating tags, ROWS from 1 to 64 and a COLS that every operand holds,
each element-wise floating instruction puts on their way, for every included row, the N results rounded once into the
destination format with the source row's control word, and the tag: latency 4 + K, and 8 + K for the special functions. The
generator steps once for each element where the mode is SR. The special functions' values follow Config's functions
(Assumption 7). -/
def Obligations.VectorFloat : Prop :=
  ∀ (s : State) (d a b c : Reg) (pm : BitVec 3) (r : Rnd) (bs : Bool) (dt : BitVec 4) (x n : Nat) (ta tc : Tile)
    (vb : VecB), TileAt s d x → SourceTile s a [1, 2, 3] ta → RowsOk s →
    let rows := included s pm (rowsOf (me s))
    let k := (rowsOf (me s) + 7) / 8
    let out : Instr → Nat → (Nat → Nat → Val) → Prop := fun i base f =>
      let p := roundRows s (resolveMode (me s) r) r dt.toNat rows n f
      exec i s = .next (results p.2 (base + k)
        (elementWrites x (tileOf (here s) x) ta (elemBits dt.toNat) 0 p.1 ++ [.tileTag x dt]))
    (Columns s (elemsPerRow dt.toNat) [ta] n →
      let f : (Val → Val) → Nat → Nat → Val := fun g i j => g (tileValue ta i j)
      out (.vabs d a pm r dt) 4 (f Val.abs) ∧ out (.vneg d a pm r dt) 4 (f Val.negate) ∧
      out (.vexp2 d a pm r dt) 8 (f valExp2) ∧ out (.vlog2 d a pm r dt) 8 (f valLog2) ∧
      out (.vrcp d a pm r dt) 8 (f valRcp) ∧ out (.vrsq d a pm r dt) 8 (f valRsq) ∧
      out (.vtanh d a pm r dt) 8 (f valTanh) ∧ out (.vsig d a pm r dt) 8 (f valSig) ∧
      out (.vsin d a pm r dt) 8 (f valSin)) ∧
    (SourceB s b bs [1, 2, 3] vb →
      let f : (Val → Val → Val) → Nat → Nat → Val := fun g i j => g (tileValue ta i j) (vb.value i j)
      (Columns s (elemsPerRow dt.toNat) (ta :: vb.tiles) n →
        out (.vadd d a b pm r bs dt) 4 (f Val.add) ∧ out (.vsub d a b pm r bs dt) 4 (f (fun u v => u.add v.negate)) ∧
        out (.vmul d a b pm r bs dt) 4 (f Val.mul) ∧ out (.vmin d a b pm r bs dt) 4 (f Val.min) ∧
        out (.vmax d a b pm r bs dt) 4 (f Val.max)) ∧
      (SourceTile s c [1, 2, 3] tc → Columns s (elemsPerRow dt.toNat) (ta :: tc :: vb.tiles) n →
        out (.vfma d a b c pm r bs dt) 4 (fun i j => ((tileValue ta i j).mul (vb.value i j)).add (tileValue tc i j))))

/-- With operands as their rules ask, `vcmp` gives INT8 elements of 1 and 0 with default scales; `vsel` chooses elements by
an INT8 register; the integer instructions work on the low bits of the codes, wrapping or saturating, a shift of the width
or more giving zeros or signs; `vidot` adds groups of products to the INT32 elements of C and saturates. Latency 4 + K, and
8 + K for `vidot`. -/
def Obligations.VectorInteger : Prop :=
  ∀ (s : State) (d a b c : Reg) (pm : BitVec 3) (bs sat brow : Bool) (cond : BitVec 3) (k : BitVec 4) (x n : Nat)
    (ta tb tc : Tile) (vb : VecB), TileAt s d x → RowsOk s →
    let rows := included s pm (rowsOf (me s))
    let lat := 4 + (rowsOf (me s) + 7) / 8
    let old := tileOf (here s) x
    let tag := ta.tag.toNat
    let w := elemBits tag
    let go : Instr → Nat → List Write → Prop := fun i l ws => exec i s = .next (results s l ws)
    (SourceTile s a [8, 9, 10] ta → SourceB s b bs [tag] vb → Columns s (elemsPerRow tag) (ta :: vb.tiles) n →
      let out : Instr → (Nat → Nat → Nat) → Prop := fun i f => go i lat
        (scaledWrites x old ta w 0 ta.scales
          (eachElement rows n (fun i j => f (elemOf tag (ta.row i) j) (vb.bits tag i j))) ++
          [.tileTag x ta.tag, .tileSsc x ta.ssc])
      out (.viadd d a b pm bs sat) (fun u v => intResult w sat (signedOf w u + signedOf w v)) ∧
      out (.vimul d a b pm bs sat) (fun u v => intResult w sat (signedOf w u * signedOf w v)) ∧
      out (.vand d a b pm bs) (fun u v => u &&& v) ∧ out (.vor d a b pm bs) (fun u v => u ||| v) ∧
      out (.vxor d a b pm bs) (fun u v => u ^^^ v) ∧
      out (.vshl d a b pm bs) (fun u v => if w ≤ v then 0 else u * 2 ^ v % 2 ^ w) ∧
      out (.vshr d a b pm bs false) (fun u v => if w ≤ v then 0 else u / 2 ^ v) ∧
      out (.vshr d a b pm bs true) (fun u v => (BitVec.ofInt w (signedOf w u / 2 ^ min v w)).toNat) ∧
      (n ≤ 512 → go (.vcmp d a b pm bs cond) lat (scaledWrites x old ta 8 0 (fun _ => defaultScales)
        (eachElement rows n (fun i j =>
          if vcmpInt cond.toNat (signedOf w (elemOf tag (ta.row i) j)) (signedOf w (vb.bits tag i j)) then 1 else 0)) ++
        [.tileTag x 9, .tileSsc x defaultSuper]))) ∧
    (SourceTile s a [1, 2, 3] ta → SourceB s b bs [1, 2, 3] vb → Columns s (elemsPerRow tag) (ta :: vb.tiles) n →
      n ≤ 512 → go (.vcmp d a b pm bs cond) lat (scaledWrites x old ta 8 0 (fun _ => defaultScales)
        (eachElement rows n (fun i j => if vcmpFloat cond.toNat (tileValue ta i j) (vb.value i j) then 1 else 0)) ++
        [.tileTag x 9, .tileSsc x defaultSuper])) ∧
    (SourceTile s a [1, 2, 3, 8, 11] ta → SourceTile s b [tag] tb → SourceTile s c [9] tc →
      Columns s (elemsPerRow tag) [ta, tb, tc] n →
      go (.vsel d a b c pm) lat (elementWrites x old ta w 0 (eachElement rows n (fun i j =>
        if elemOf 9 (tc.row i) j ≠ 0 then elemOf tag (ta.row i) j else elemOf tag (tb.row i) j)) ++ [.tileTag x ta.tag])) ∧
    (SourceTile s a [9, 10] ta → SourceTile s b [9, 10] tb → SourceTile s c [8] tc →
      Columns s (elemsPerRow tag) [ta, tb] n →
      let g := 2 ^ (k.toNat + 2)
      let code : Tile → Nat → Nat → Int := fun t i j =>
        signedOf (elemBits t.tag.toNat) (elemOf t.tag.toNat (t.row i) j)
      n % g = 0 → n / g ≤ 128 → go (.vidot d a b c pm brow k) (4 + lat)
        (elementWrites x old ta 32 0 (eachElement rows (n / g) (fun i q => intResult 32 true
          (((List.range g).map (fun j => code ta i (q * g + j) * code tb (if brow then 0 else i) (q * g + j))).sum +
            signedOf 32 (elemOf 8 (tc.row i) q)))) ++ [.tileTag x 8]))

/-- With operands as their rules ask, the movement instructions put on their way the moved rows with their scales and
control words and the source's tag: one row to every included row, one element to all of a row, a block of 64 columns
transposed, elements or rows shifted or rotated, rows permuted by an INT8 register with an index of 64 or more giving a row
of zeros in STATE PAD, rows copied, and rows of zeros under a tag. `shp` writes SHAPE with latency 2, and `fmt.tag` the tag
with latency 1. That `vbcast.row`, `vsh.rows`, `vperm` and `vzero` ask nothing of COLS is the model's choice (Assumption 103). -/
def Obligations.VectorMovement : Prop :=
  ∀ (s : State) (d a b : Reg) (pm cb : BitVec 3) (k : BitVec 6) (e cols : BitVec 11) (rws : BitVec 7) (rot : Bool)
    (imm : Imm20) (tag4 : BitVec 4) (x n : Nat) (ta tb : Tile),
    (exec (.shp false a rws cols) s = .next (result s 2 (.ctl 0 (BitVec.ofNat 64 (rws.toNat + 65536 * cols.toNat)))) ∧
      (Readable s [a] → exec (.shp true a rws cols) s = .next (result s 2 (.ctl 0 (sv s a))))) ∧
    (TileAt s d x →
      exec (.fmtTag d tag4) s = .next (result s 1 (.tileTag x tag4)) ∧
      (let any := [1, 2, 3, 4, 5, 6, 7, 8, 9, 10, 11, 12]
       let rows := included s pm (rowsOf (me s))
       let lat := 2 + (rowsOf (me s) + 7) / 8
       let old := tileOf (here s) x
       let tag := ta.tag.toNat
       let w := elemBits tag
       let elements : Instr → (Nat → Nat → Nat) → Prop := fun i f => exec i s = .next (results s lat
         (elementWrites x old ta w 0 (eachElement rows n f) ++ [.tileTag x ta.tag]))
       let moved : Instr → (Nat → List Write) → Prop := fun i f => exec i s = .next (results s lat
         (rows.flatMap f ++ [.tileTag x ta.tag, .tileSsc x ta.ssc]))
       let row : Nat → Nat → List Write := fun i j => [.tileRow x i (ta.row j) (ta.scales j), .tileRcw x i (ta.word j)]
       (RowsOk s → exec (.vzero d pm tag4) s = .next (results s lat
         (rows.map (fun i => .tileRow x i (zeroRow tag4.toNat) defaultScales) ++
           [.tileTag x tag4, .tileSsc x defaultSuper]))) ∧
       (RowsOk s → SourceTile s a any ta →
         moved (.vbcastRow d a pm k) (fun i => row i k.toNat) ∧ moved (.vmov d a pm) (fun i => row i i) ∧
         (SourceTile s b [9] tb → moved (.vperm d a b pm) (fun i =>
           if elemOf 9 (tb.row 0) i < 64 then row i (elemOf 9 (tb.row 0) i)
           else [.tileRow x i 0 defaultScales, .tileRcw x i 5])) ∧
         (Readable s [b] →
           let amt : Int := if b = 0 then imm.toInt else (sv s b).toInt
           moved (.vshRows d a b pm rot imm) (fun i =>
             match shiftSource rot (rowsOf (me s)) amt i with
             | some j => row i j
             | none => [.tileRow x i 0 defaultScales]))) ∧
       (RowsOk s → SourceTile s a [1, 2, 3, 8, 11] ta → Columns s (elemsPerRow tag) [ta] n →
         (e.toNat < elemsPerRow tag → elements (.vbcastEl d a pm e) (fun i _ => elemOf tag (ta.row i) e.toNat)) ∧
         (Readable s [b] →
           let amt : Int := if b = 0 then imm.toInt else (sv s b).toInt
           elements (.vsh d a b pm rot imm) (fun i j =>
             match shiftSource rot n amt j with
             | some q => elemOf tag (ta.row i) q
             | none => 0))) ∧
       (SourceTile s a [1, 2, 3, 4, 5, 8, 9, 11] ta → cb.toNat < elemsPerRow tag / 64 →
         exec (.vtr d a cb) s = .next (results s 12
           ((List.range 64).map (fun i => Write.tileRow x i
             (putElems w (64 * cb.toNat) (old.row i)
               ((List.range 64).map (fun j => elemOf tag (ta.row j) (64 * cb.toNat + i))))
             (if isScaled tag then defaultScales else old.scales i)) ++
             [.tileTag x ta.tag] ++ (if isScaled tag then [.tileSsc x defaultSuper] else []))))))

/-- Elements of a format put into a row from a first one on are what the row's elements there then read as, modulo their
width, and every other element of the row reads as before. -/
def Obligations.ElementsOfARow : Prop :=
  ∀ (tag first : Nat) (old : Row) (l : List Nat) (j : Nat), 1 ≤ tag → tag ≤ 11 → first + l.length ≤ elemsPerRow tag →
    j < elemsPerRow tag →
    elemOf tag (putElems (elemBits tag) first old l) j =
      if first ≤ j ∧ j < first + l.length then l.getD (j - first) 0 % 2 ^ elemBits tag else elemOf tag old j

/-- A fixed-latency instruction of the VEC slot takes a trap, or wakes a scratchpad unit, or answers a next state that differs at most in writes on
their way to the parts of the tile register that its destination names, in the generator, and in the masks, live count,
SHAPE and rule tables that the row-control instructions and `shp` write: memory, flags, scalars but a count's, operations
and every other context are as before. -/
def Obligations.VectorFrame : Prop :=
  ∀ (i : Instr) (s t : State), .vec ∈ slotsOf i → tokenDest i = [] → exec i s = .next t →
    (∃ stop, t = takeTrap s s.cur.1 s.cur.2 stop s.fly.ba s.fly.ba false) ∨ (∃ u, t = startWake s s.cur.1 u) ∨
    Frame s t (fun p =>
      (∃ d ∈ tileDest i, ∃ x, TileAt s d x ∧ 5 ≤ p.1 ∧ p.1 ≤ 8 ∧ p.2.1 = x) ∨
      (∃ d ∈ scalarDest i, p = (0, d.toNat, 0)) ∨
      (∃ q ∈ otherDest i, p = (1, q.number, 0) ∨ p = (4, q.number, 0)) ∨
      (∃ a n, i = .ruleSet a n ∧ p = (10, n.toNat, 0)))

/-- With operands as their rules ask and no negative scale to decode, `vcvt`, `cvt.pk`, `cvt.up` and `vdq` put the
converted elements of each included row on their way with latency 5 + K, or 8 + K; `vred` and `vcred` the reductions of
rows and of columns with latency 10 + K; and `vq` and `vsm.merge` answer a next state that changes only the rows on their
way to their destinations and the generator. -/
def Obligations.VectorConversions : Prop :=
  ∀ (s : State) (d a b : Reg) (pm part : BitVec 3) (r : Rnd) (dt : BitVec 4) (op : BitVec 2) (e : BitVec 11)
    (row : BitVec 6) (nosc : Bool) (x n : Nat) (ta : Tile), TileAt s d x → RowsOk s →
    let inc := included s pm (rowsOf (me s))
    let k := (rowsOf (me s) + 7) / 8
    let old := tileOf (here s) x
    let tag := ta.tag.toNat
    let ea := elemsPerRow tag
    let ed := elemsPerRow dt.toNat
    let conv : Instr → Nat → Nat → Nat → (Nat → Nat → Val) → Prop := fun i lo first lat f =>
      let p := roundRows s (resolveMode (me s) r) r dt.toNat inc n (fun i j => f i (lo + j))
      exec i s = .next (results p.2 (lat + k) (convertWrites x old ta dt.toNat first p.1))
    let scaled : Nat → Nat → Val := fun i j => tileValue ta i j
    (SourceTile s a [1, 2, 3, 4, 5, 6, 8, 9, 10, 11] ta →
      (Columns s (min ea ed) [] n → badScale ta inc 0 n = none → conv (.vcvt d a pm r dt) 0 0 5 scaled) ∧
      (2 * ea ≤ ed → (part.toNat + 1) * ea ≤ ed → Columns s ea [] n → badScale ta inc 0 n = none →
        conv (.cvtPk d a pm r dt part) 0 (part.toNat * ea) 5 scaled) ∧
      (2 * ed ≤ ea → (part.toNat + 1) * ed ≤ ea → Columns s ed [] n → badScale ta inc (part.toNat * ed) n = none →
        conv (.cvtUp d a pm r dt part) (part.toNat * ed) 0 5 scaled)) ∧
    (SourceTile s a [4, 5, 6, 7, 9, 10] ta → 2 * ed ≤ ea → (part.toNat + 1) * ed ≤ ea → Columns s ed [] n →
      (nosc = false → badScale ta inc (part.toNat * ed) n = none) →
      conv (.vdq d a pm r nosc dt part) (part.toNat * ed) 0 8
        (if nosc then fun i j => elementValue tag (elemOf tag (ta.row i) j) else scaled)) ∧
    (SourceTile s a [1, 2, 3, 4, 5, 6, 7, 8, 9, 10, 11] ta → classMatch tag dt.toNat = true → Columns s ea [] n →
      (isIntTag tag = false → badScale ta inc 0 n = none) →
      (e.toNat < ed →
        let p := reduceAll s ta r dt.toNat op.toNat (inc.map (fun i => (List.range n).map (fun j => (i, j))))
        exec (.vred d a pm r dt op e) s = .next (results p.2 (10 + k) (elementWrites x old ta (elemBits dt.toNat) e.toNat
          ((inc.zip p.1).map (fun q => (q.1, [q.2]))) ++ [.tileTag x dt]))) ∧
      (n ≤ ed →
        let p := reduceAll s ta r dt.toNat op.toNat ((List.range n).map (fun j => inc.map (fun i => (i, j))))
        exec (.vcred d a pm r dt op row) s = .next (results p.2 (10 + k)
          [.tileRow x row.toNat (putElems (elemBits dt.toNat) 0 (old.row row.toNat) p.1) (old.scales row.toNat),
           .tileTag x dt]))) ∧
    (SourceTile s a [1, 2, 3] ta → Readable s [b] → 2 * ea ≤ ed → (part.toNat + 1) * ea ≤ ed → Columns s ea [] n →
      n % 64 = 0 →
      ∃ t, exec (.vq d a b pm r dt part) s = .next t ∧
        Frame s t (fun p => 5 ≤ p.1 ∧ p.1 ≤ 8 ∧ p.2.1 = x) ∧
        { due := (me s).icount + 8 + k, w := .tileTag x dt } ∈ (me t).pend ∧
        (∀ i ∈ inc, ∃ q sc, { due := (me s).icount + 8 + k, w := .tileRow x i q sc } ∈ (me t).pend)) ∧
    (∀ xs y ys, d.toNat < 63 → a.toNat < 63 → TileAt s (d + 1) xs → TileAt s a y → TileAt s (a + 1) ys →
      (∀ q ∈ [x, xs, y, ys], (tileOf (here s) q).tag = 1) → Columns s 128 [] n →
      ∃ t, exec (.vsmMerge d a pm r) s = .next t ∧
        Frame s t (fun p => p.1 = 5 ∧ (p.2.1 = x ∨ p.2.1 = xs)) ∧
        (∀ i ∈ inc, ∃ q sc q' sc', { due := (me s).icount + 10 + k, w := .tileRow x i q sc } ∈ (me t).pend ∧
          { due := (me s).icount + 10 + k, w := .tileRow xs i q' sc' } ∈ (me t).pend))

/-- With its tile in the window and not busy and ROWS from 1 to 64, `rcw.set` writes the control words of the included rows
with latency 3, from a scalar, from a state value or from another tile; `rcw.cnt` counts the live rows of a run of tiles
into a scalar and LIVE with latency 4; `rcw.mask` sets a mask's bits for the rows in a set of states with latency 3;
`rcw.upd` applies a valid rule to the rows that its mode selects with latency 12: a row in CONT or RECUR leaves at the exit
test; else CONT recurs or skips by its bands or goes on, RECUR recurs while its depth lasts and then goes on, SKIP counts down
and goes on; a row that would go past LASTB is DONE. `rule.set` loads a rule record, or an empty entry for one that breaks
R283, with latency 6. Tiles that are read carry a tag from 1 to 12. A scalar with a reserved STATE takes RCW_RULE. That
`rcw.mask` has no PM is the model's choice (Assumption 102). -/
def Obligations.RowControl : Prop :=
  ∀ (s : State) (d a : Reg) (p3 pm st rule : BitVec 3) (acc : Bool) (n : BitVec 6) (set : Byte) (mode : BitVec 2)
    (col : BitVec 10) (x : Nat) (ta : Tile) (xs : List Nat) (img : BitVec 256), RowsOk s →
    let inc := included s pm (rowsOf (me s))
    let t := tileOf (here s) x
    let any := [1, 2, 3, 4, 5, 6, 7, 8, 9, 10, 11, 12]
    let state : BitVec 32 → Nat := fun w => w.toNat % 8
    let live : BitVec 32 → Bool := fun w => state w == 0 || state w == 3
    let words : Instr → (Nat → BitVec 32) → Prop := fun i f =>
      exec i s = .next (results s 3 (inc.map (fun r => .tileRcw x r (f r))))
    let sound : Tile → List Nat → Prop := fun t l => ∀ r ∈ l, state (t.word r) < 6
    let num : Nat → Nat → Nat := fun k m => (img.extractLsb' k m).toNat
    let fp : Nat → Val := fun k => ofFp32 (num k 32)
    let image := [img.extractLsb' 0 64, img.extractLsb' 64 64, img.extractLsb' 128 64, img.extractLsb' 192 64]
    let valid : Bool := num 190 66 == 0 && (!img.getLsbD 182 || num 176 5 != 0) && (!img.getLsbD 183 || num 172 4 != 0) &&
      decide (num 160 6 ≤ num 184 6)
    -- the control word after a row's transition under the rule, from its word and its score; none where it keeps its word
    let moved : BitVec 32 → Val → Option (BitVec 32) := fun w g =>
      let b := (w.extractLsb' 8 6).toNat
      let depth := (w.extractLsb' 14 4).toNat
      let skip := (w.extractLsb' 3 5).toNat
      let epoch := (w.extractLsb' 24 8).toNat
      let exitb := (w.extractLsb' 18 6).toNat
      let put : Nat → Nat → Nat → Nat → Nat → Nat → BitVec 32 := fun epoch exitb depth nextb skip state =>
        BitVec.ofNat 8 epoch ++ BitVec.ofNat 6 exitb ++ BitVec.ofNat 4 depth ++ BitVec.ofNat 6 nextb ++ BitVec.ofNat 5 skip ++
          BitVec.ofNat 3 state
      let on : Nat → Nat → BitVec 32 := fun state skip =>
        if num 184 6 < b + 1 then put epoch (num 184 6) depth b skip 4 else put (epoch + 1) exitb depth (b + 1) skip state
      let exits := img.getLsbD 181 && decide (num 160 6 ≤ b) && (fp 0).le g
      match state w with
      | 0 => some (if exits then put epoch b depth b skip 2
          else if img.getLsbD 183 && (fp 96).le g && g.below (fp 128) then put (epoch + 1) exitb (num 172 4 - 1) (num 166 6) skip 3
          else if img.getLsbD 182 && (fp 32).le g && g.below (fp 64) then on 1 (num 176 5) else on 0 skip)
      | 3 => some (if exits then put epoch b depth b skip 2
          else if 0 < depth then put (epoch + 1) exitb (depth - 1) (num 166 6) skip 3 else on 0 skip)
      | 1 => some (if skip ≤ 1 then on 0 0 else on 1 (skip - 1))
      | _ => none
    (TileAt s d x →
      (st.toNat < 6 → words (.rcwSetSt d pm st) (fun r => (t.word r).extractLsb' 3 29 ++ st)) ∧
      (Readable s [a] →
        ((sv s a).toNat % 8 < 6 → words (.rcwSet d a pm) (fun _ => (sv s a).extractLsb' 0 32)) ∧
        (6 ≤ (sv s a).toNat % 8 → ∃ stop, exec (.rcwSet d a pm) s =
          .next (takeTrap s s.cur.1 s.cur.2 stop s.fly.ba s.fly.ba false) ∧ stop.cause = 0x30 ∧
          stop.detail = ((sv s a).extractLsb' 0 32).setWidth 64)) ∧
      (SourceTile s a any ta → words (.rcwSetCp d a pm) (fun r => ta.word r)) ∧
      (SourceTile s a [1, 2, 3] ta → col.toNat < elemsPerRow ta.tag.toNat → mode ≠ 3 → valid = true →
        Tbl.look [] (me s).rules rule.toNat = image → sound t inc →
        exec (.rcwUpd d a pm rule mode col) s = .next (results s 12 (inc.filterMap (fun r =>
          if (if mode = 0 then true else if mode = 1 then live (t.word r) else state (t.word r) == 1) then
            (moved (t.word r) (tileValue ta r col.toNat)).map (.tileRcw x r)
          else none))))) ∧
    (xs.length = n.toNat + 1 → (∀ k q, xs[k]? = some q → a.toNat + k < 64 ∧ TileAt s (a + BitVec.ofNat 6 k) q) →
      (∀ q ∈ xs, (tileOf (here s) q).tag.toNat ∈ any ∧ sound (tileOf (here s) q) inc) →
      let c := (xs.map (fun q => (inc.filter (fun r => live ((tileOf (here s) q).word r))).length)).sum
      exec (.rcwCnt d a pm acc n) s = .next (results s 4 [.scalar d.toNat (BitVec.ofNat 64 c),
        .ctl 0x01 (BitVec.ofNat 64 (((if acc then (me s).live.toNat % 2 ^ 32 else 0) + c) % 2 ^ 32))])) ∧
    (SourceTile s a any ta → sound ta (List.range (rowsOf (me s))) →
      ∃ m : Word, exec (.rcwMask p3 a set) s = .next (result s 3 (.mask p3.toNat m)) ∧
        ∀ r, r < 64 → m.getLsbD r = (decide (r < rowsOf (me s)) && set.getLsbD (state (ta.word r)))) ∧
    (Readable s [a] → (sv s a).toNat % 32 = 0 → Local s (sv s a).toNat 32 →
      img = BitVec.ofNat 256 (ofBytes (memBytes s.mem (spmAddr s.cur.1 (sv s a).toNat) 32)) →
      exec (.ruleSet a p3) s = .next (result s 6 (.rules p3.toNat (if valid then image else []))))

/-- With their scalars readable, their tiles in the window and not busy, their scratchpad operands aligned and inside, and
room for one more operation, `chain` of a valid block is issued and holds its destination busy, `cmx.pack` and `cmx.rest`
enter their cluster's queue and start at once on an idle network whose list they can read, `kv.sv` holds its source busy, `ntf.x` sends one packet for each row of its set when its target
word is enabled, and `moe.route` enters its die's queue. -/
def Obligations.EngineFormatIssue : Prop :=
  ∀ (s : State) (t a b c : Reg) (pm : BitVec 3) (norm renorm : Bool) (nt : BitVec 5) (set : Byte) (sl k : BitVec 4)
    (h : Hint) (x : Nat), Readable s [a, b, c] → HasRoom s →
    (∀ blk d, (sv s a).toNat % 8 = 0 → Local s (sv s a).toNat 72 →
      let hd := memBytes s.mem (spmAddr s.cur.1 (sv s a).toNat) 8
      let nst := ((byteWord hd 0).extractLsb' 0 4).toNat
      1 ≤ nst → nst ≤ 8 →
      blk = blockOf (memBytes s.mem (spmAddr s.cur.1 (sv s a).toNat) (8 + 8 * nst)) →
      (∀ i ∈ blk.src, chainFree s i = .ok ()) → chainFree s blk.dst = .ok () → blockValid s blk = true → RowsOk s →
      (∃ n, vecCount s (elemsPerRow blk.dfmt)
        (((capturedSources s blk).filter (fun p => (usedSources blk).contains p.1)).map (·.2)) = .ok n) →
      inWindow s blk.dst = some d →
      ∃ u o, exec (.chain t a) s = .next u ∧ u.ops = s.ops ++ [o] ∧ o.instr = .chain t a ∧ o.tok = t.toNat ∧
        o.busy = [(s.cur.1, d)] ∧ u.mem = s.mem) ∧
    (TileAt s a x → RowsOk s → (tileCapture s x).tag.toNat ∈ [1, 2, 3] → (sv s b).toNat % 4 = 0 →
      (sv s c).toNat % 64 = 0 → (sv s b).toNat + 4 * rowsOf (me s) ≤ Config.spmBytes →
      Starts (.kvSv t a b c h) s t (fun o _ => o.a = sv s c ∧ o.b = sv s b ∧ o.busy = [(s.cur.1, x)])) ∧
    (TileAt s a x → RowsOk s → (tileCapture s x).tag.toNat ∈ [1, 2, 3, 4, 5, 6, 7, 8, 9, 10, 11, 12] →
      (∀ r ∈ included s pm (rowsOf (me s)), ((tileCapture s x).word r).toNat % 8 < 6) →
      ∃ u o, exec (.ntfX t a pm c set sl) s = .next u ∧ u.ops = s.ops ++ [o] ∧ o.instr = .ntfX t a pm c set sl ∧
        o.tok = t.toNat ∧ u.packets.length = s.packets.length + o.count ∧
        (atwEn (sv s c) = false → o.count = 0)) ∧
    ((sv s a).toNat % 64 = 0 → (sv s b).toNat % 64 = 0 → (sv s a).toNat + 64 ≤ Config.spmBytes →
      routesWaiting s (dieOf s.cur.1) < 32 →
      Starts (.moeRoute t a b k norm renorm h) s t (fun o u => o.a = sv s a ∧ o.b = sv s b ∧
        (dieAt u (dieOf s.cur.1)).routes = (dieAt s (dieOf s.cur.1)).routes ++
          [{ core := o.core, ctx := o.ctx, seq := o.seq }])) ∧
    (let cl := clusterOf s.cur.1
     let shape : Op → State → List Nat → Prop := fun o u xs => o.a = sv s a ∧ o.c = sv s c ∧
       (∀ x ∈ xs, (s.cur.1, x) ∈ o.busy) ∧ (clusterAt u cl).queue = (clusterAt s cl).queue ++
         [{ core := o.core, ctx := o.ctx, seq := o.seq }]
     let queued : Instr → List Nat → Prop := fun i xs =>
       ((clusterAt s cl).queue ≠ [] → Starts i s t (fun o u => shape o u xs)) ∧
       ((clusterAt s cl).queue = [] → findOp s s.cur.1 s.cur.2 ((me s).cseq + 1).toNat = none → ∃ u o, exec i s = .next u ∧ u.ops = s.ops ++ [o] ∧ o.instr = i ∧ o.tok = t.toNat ∧
         shape o u xs ∧ (s.rlog = none → u.mem = s.mem) ∧
         ((sv s a).toNat + 136 ≤ Config.spmBytes → (here s).carve = none → s.rplay = none →
           o.started = true ∧ (clusterAt u cl).running = true))
     cmxWaiting (clusterAt s cl) < 16 → (sv s a).toNat + 8 ≤ Config.spmBytes →
      ((sv s b).toNat % 64 = 0 → (sv s b).toNat + nt.toNat * cmxArea ≤ Config.spmBytes →
        queued (.cmxPack t a b c true nt set) [] ∧ queued (.cmxRest t a b c true nt) []) ∧
      (∀ xs, xs.length = nt.toNat →
        (∀ k q, xs[k]? = some q → b.toNat + k < 64 ∧ TileAt s (b + BitVec.ofNat 6 k) q) →
        queued (.cmxPack t a b c false nt set) xs ∧
        ((∀ q ∈ xs, (tileCapture s q).tag.toNat ∈ [1, 2, 3, 4, 5, 6, 7, 8, 9, 10, 11, 12]) →
          queued (.cmxRest t a b c false nt) xs)))

/-- On an idle matrix engine, with room for one more operation and a balance that covers the cost, every matrix instruction
whose operands pass its checks is issued: `mm` and `mm.z` in each dataflow hold the tile C busy for the inner product, read
their B from the scratchpad or from a stream, and take the row merge buffer in the row-wise dataflow; `mm.merge`, `mm.out`,
`bmp.mk`, `bmp.cnt`, `spz.pack`, its B form and `spz.unpk` likewise. The engine is then taken for the duration of the
instruction, and the cost is drawn from the reservation first and then from the balance. An `mm.merge` that keeps its C needs a
C with a tag; one whose first record has another tag than 1 and 8 is issued all the same (Assumption 49), and the engine's
hold counts ticks of the device (Assumption 42): both are the model's readings. -/
def Obligations.MatrixIssue : Prop :=
  ∀ (s : State) (cd xa xb t : Reg) (bs ag : Bool) (bf np : BitVec 4) (kh scb noswap zc wide : Bool)
    (off : BitVec 16) (qn : BitVec 3) (x y c : Nat),
    (∀ boff rec cls h st a bytes,
      let mm : Instr → Nat → Bool → Reg → Prop := fun i df z cd =>
        let f := MmForm.of df z cd xa xb bs ag bf kh scb noswap off
        let g := mtxGroups (tagOfA a)
        let bmap := match h with
          | some v => imageMap v
          | none => 2 ^ (16 * g) - 1
        let d := mmDuration (roleSwap (me s) df (rowsOf (me s)) (a.tag != 12) noswap) (rowsOf (me s))
          (blockPairs (mapOfA a) bmap g) (elemBits (tagOfA a))
        MmReady s f boff rec x c cls h st a bytes →
          MtxStarts i s t d (mmCost cls df d ag) (fun o => o.a = boff ∧ o.b = rec ∧ o.bytes = bytes ∧
            o.busy = if df = 0 then [(s.cur.1, c)] else [])
      mm (.mmIp cd xa xb t bs ag bf kh scb noswap off) 0 false cd ∧
      mm (.mmOp cd xa xb t bs ag bf kh scb noswap off) 1 false cd ∧
      mm (.mmRw xa xb t bs ag bf kh scb noswap off) 2 false 0 ∧
      mm (.mmZIp cd xa xb t bs ag bf kh scb noswap off) 0 true cd ∧
      mm (.mmZRw xa xb t bs ag bf kh scb noswap off) 2 true 0) ∧
    (MtxIdle s →
      let dst := sv s xb + BitVec.ofNat 64 (64 * off.toNat)
      let inside : Nat → Prop := fun n => dst.toNat % 64 = 0 ∧ dst.toNat + n ≤ Config.spmBytes
      let tx := tileCapture s x
      let ty := tileCapture s y
      let matrix : Tile → Prop := fun u => (mtxClass u.tag.toNat).isSome = true
      (Readable s [xb] →
        (inside (if wide then 128 else 64) →
          MtxStarts (.bmpCnt xb t wide off) s t 4 8 (fun o => o.a = dst ∧ o.busy = [])) ∧
        (TileAt s xa x → matrix tx → inside 64 →
          MtxStarts (.bmpMk xa xb t kh false off) s t 8 8 (fun o => o.a = dst ∧ o.busy = [])) ∧
        (TileAt s xa x → xa.toNat < 63 → TileAt s (xa + 1) y → matrix tx → ty.tag = tx.tag →
          (inside 128 → MtxStarts (.bmpMk xa xb t kh true off) s t 8 8 (fun o => o.a = dst ∧ o.busy = [])) ∧
          (let tag := tx.tag.toNat
           (isScaled tag = true → ∀ u ∈ [tx, ty], ∀ k, k < 4 → u.super k = tx.super 0) →
           inside (imageLen (elemBits tag) (bitsSet (bitmapOf [tx, ty] (if kh then 1 else 0)) 1024).length
             (isScaled tag)) →
           MtxStarts (.spzPackB xa xb t kh off) s t 24 8 (fun o => o.a = dst ∧ o.busy = []))) ∧
        (TileAt s cd c → RowsOk s →
          let recs := recordsAt dst.toNat (np.toNat + 1)
          let ptag := ofBytes (spmSlice s (dst.toNat + 32784) 1)
          inside (recordLen * (np.toNat + 1)) → Local s dst.toNat (recordLen * (np.toNat + 1)) →
          (zc = false → (tileCapture s c).tag.toNat ∈ [1, 2, 3, 4, 5, 6, 7, 8, 9, 10, 11, 12] ∧
            (ptag = 1 ∨ ptag = 8 → (tileCapture s c).tag.toNat = ptag)) →
          let d := 8 + ceilDiv (touchCount s s.cur.1 recs) 8
          MtxStarts (.mmMerge cd xb t np zc off) s t d (2 * d) (fun o => o.a = dst ∧ o.busy = [(s.cur.1, c)]))) ∧
      (TileAt s cd c → TileAt s xa x → c ≠ x →
        (matrix tx → MtxStarts (.spzPack cd xa t kh) s t 16 8 (fun o => o.busy = [(s.cur.1, c)])) ∧
        (tx.tag = 12 → (mtxClass (bspTag tx)).isSome = true →
          mapFormed (bspMap tx) (bspNzb tx) (8 * mtxGroups (bspTag tx)) = true →
          MtxStarts (.spzUnpk cd xa t kh) s t 16 8 (fun o => o.busy = [(s.cur.1, c)]))) ∧
      (∀ st, Tbl.find (me s).streams qn.toNat = some st → RowsOk s → MergeFree s → st.out = true →
        let m := rowsOf (me s)
        m ≤ st.len → st.fetched + m ≤ st.total → m ≤ st.len - (st.fetched - st.freed) →
        MtxStarts (.mmOut qn t) s t (max 8 m) 8 (fun o => o.busy = [])))

/-- A chain that is outstanding writes its destination and its token. The compaction network starts the oldest command of
its queue when it is idle; the running one reads its scratchpad units, and once no tile of it is busy otherwise it completes,
and the next one starts. The
routing engine of a die runs a pass and writes its token. An exit save whose chunks have performed, and a matrix instruction
that is due and has read what it reads, end with their counts. A command that meets a translation fault at its next chunk
stays outstanding, suspended, with its stop pending; one that meets another fault ends with an error token once its accesses
have performed. A stream row moves to or from the scratchpad, and the last one of a drained stream brings its token; a task
past its `done` with nothing outstanding frees its context; the first pending stop of a running context takes its trap; a
bundle that is ready and chosen is issued. Which completion event performs what a command has left (Assumption 31) and when a
pending stop's record has AFTER (Assumption 27) are the model's readings. -/
def Obligations.EngineEventsComplete : Prop :=
  (∀ (s : State) (o : Op), findOp s o.core o.ctx o.seq = some o →
    let ended : State → Word → Prop := fun u token => findOp u o.core o.ctx o.seq = none ∧
      (o.tok ≠ 0 → Tbl.look 0 (ctxOf u o.core o.ctx).scalars o.tok = token)
    let here : CmxCmd := { core := o.core, ctx := o.ctx, seq := o.seq }
    let same : Op → Prop := fun p => p.key = o.key ∧ p.tok = o.tok
    (∀ t a, o.instr = .chain t a →
      ∃ u, exec (.chainComplete o.core o.ctx o.seq) s = .next u ∧ Finished s u o (tokenOk o.count) ∧
        (tileOf (coreOf u o.core) (o.nums.headD 0)).tag = BitVec.ofNat 4 (blockOf o.bytes).dfmt) ∧
    (∀ cl rest, (clusterAt s cl).queue = here :: rest →
      let ends : State → Op → Word → Prop := fun r p token =>
        let v := popCmx (finishOp r p token) cl
        ended v token ∧ (clusterAt v cl).running = false ∧
          (rest = [] → exec (.cmxComplete cl) s = .next v) ∧
          (∀ c l p b v', (clusterAt v cl).queue = c :: l → findOp v c.core c.ctx c.seq = some p →
            readPackList v p = .ok (b, v') → exec (.cmxComplete cl) s = .next (startCmd v' cl p b))
      (∀ b r, (clusterAt s cl).running = false → readPackList s o = .ok (b, r) →
        ∃ u p, exec (.cmxStart cl) s = .next u ∧ (clusterAt u cl).running = true ∧
          (clusterAt u cl).queue = (clusterAt r cl).queue ∧ u.mem = r.mem ∧ p.bytes = b ∧ p.started = true ∧
          (findOp r o.core o.ctx o.seq = some o → findOp u o.core o.ctx o.seq = some p)) ∧
      (∀ r p n v, (clusterAt s cl).running = true → runChunks cmxChunk s o (cmxChunks o) = .done r p → same p →
        (clusterAt v cl).queue = here :: rest →
        (∀ t a b c sp nt set, p.instr = .cmxPack t a b c sp nt set → cmxBlocked r p (listTiles p) = false →
          runPack r p = .ok (v, n) → ends v p (tokenOk n)) ∧
        (∀ t a b c sp nt, p.instr = .cmxRest t a b c sp nt → cmxBlocked r p (restTargets r p) = false →
          runRest r p = (v, .ok n) → ends (restTrace r v p) p (tokenOk n)))) ∧
    (o.susp = none → o.ending = none →
      (∀ die rest r p, (dieAt s die).routing = true → (dieAt s die).routes = here :: rest →
        runChunks routeChunk s o [0, 1, 2, 3] = .done r p → same p →
        ∃ u, exec (.routePassComplete die) s = .next u ∧ ended u (tokenOk p.count) ∧ (dieAt u die).routing = false) ∧
      (∀ t a b c h, o.instr = .kvSv t a b c h → (∀ k ∈ kvSvChunks o, k ∈ o.done) →
        ∃ u, exec (.exitSaveComplete o.core o.ctx o.seq) s = .next u ∧ Finished s u o (tokenOk o.count)) ∧
      (∀ r p, same p → findOp r o.core o.ctx o.seq = some p →
        (∀ f, runChunks opChunk s o (opChunks o) = .stopped r p (.suspend f) → p.orphan = false →
          ∃ u q, exec (.commandSuspend o.core o.ctx o.seq) s = .next u ∧ findOp u o.core o.ctx o.seq = some q ∧
            q.susp.isSome = true ∧ u.mem = r.mem ∧
            ∃ t ∈ (ctxOf u o.core o.ctx).stops, t.cause = f.cause ∧ t.addr = BitVec.ofNat 64 f.addr) ∧
        (∀ cause addr detail index, runChunks opChunk s o (opChunks o) = .stopped r p (.fail cause addr detail index) →
          (accessPending r o.core o.ctx o.seq = true →
            ∃ u q, exec (.commandSuspend o.core o.ctx o.seq) s = .next u ∧ findOp u o.core o.ctx o.seq = some q ∧
              q.ending.map (·.1) = some (tokenError 0)) ∧
          (accessPending r o.core o.ctx o.seq = false → p.orphan = false →
            ∃ u, exec (.commandSuspend o.core o.ctx o.seq) s = .next u ∧ ended u (tokenError 0) ∧
              ∃ t ∈ (ctxOf u o.core o.ctx).stops, t.cause = cause ∧ t.addr = addr ∧ t.detail = detail)))) ∧
    (∀ token stop, o.ending = some (token, stop) → accessPending s o.core o.ctx o.seq = false →
      ∃ u, exec (.commandSuspend o.core o.ctx o.seq) s = .next u ∧ ended u token) ∧
    (∀ r p t n, mtxHead s o.core = some o → mtxDue o ≤ s.time → runChunks mtxChunk s o (mtxChunks o) = .done r p → same p →
      (p.nums[4]?).getD 0 = 0 → runMtx r p = .ok (t, n) →
      ∃ u, exec (.mtxComplete o.core) s = .next u ∧ ended u (tokenOk n) ∧ u.mem = t.mem)) ∧
  (∀ (s : State) (die core ctx q : Nat),
    (∀ c l, (dieAt s die).routing = false → resumedRoutes s die ++ (dieAt s die).routes = c :: l →
      ∃ u, exec (.routePassStart die) s = .next u ∧ (dieAt u die).routes = c :: l ∧ (dieAt u die).routing = true ∧
        u.mem = s.mem ∧ ∀ o, findOp s c.core c.ctx c.seq = some o →
          findOp u c.core c.ctx c.seq = some { o with done := [], nums := [o.nums.headD 0] }) ∧
    (∀ st, Tbl.find (ctxOf s core ctx).streams q = some st →
      (∀ r st', fetchRow (discardSkipped s core ctx st) core ctx st = .ok (r, st') →
        exec (.streamRowFetch core ctx q) s = .next (putStream r core ctx q st')) ∧
      (∀ r st', writeRow s core ctx st = .ok (r, st') →
        let v := putStream r core ctx q st'
        (st'.drain = none → exec (.streamRowWrite core ctx q) s = .next v) ∧
        (∀ seq o, st'.drain = some seq → st'.fetched = st'.freed → accessPending v core ctx st'.seq = false →
          appending v core ctx st'.seq = false → stillBound v core ctx st' = false → findOp v core ctx seq = some o →
          ∃ u, exec (.streamRowWrite core ctx q) s = .next u ∧ findOp u core ctx seq = none ∧
            (o.tok ≠ 0 → Tbl.look 0 (ctxOf u core ctx).scalars o.tok = tokenOk st'.consumed)))) ∧
    (∀ t, settled s core ctx = true → stopCount (ctxOf s core ctx) = 0 → ctx < 4 →
      (ctxOf s core ctx).status = .finishing → (ctxOf s core ctx).task = some t →
      ∃ u, exec (.taskComplete core ctx) s = .next u ∧ (ctxOf u core ctx).task = none ∧
        (ctxOf u core ctx).scalars = [] ∧ (ctxOf u core ctx).status = Ctx.init.status ∧ u.mem = s.mem) ∧
    (∀ t c', (ctxOf s core ctx).status = .running → nextStop (ctxOf s core ctx) = some (t, c') → ctx < 4 →
      let c := ctxOf s core ctx
      exec (.pendingStop core ctx) s = .next (takeTrap (setCtx s core ctx c') core ctx t c.pc c.lastBundle
        (c.icount != 0 || c.lastBundle != c.pc))) ∧
    (∀ t, mayIssue s core ctx = true → issueAt s (beginBundle s core ctx) = .went (.next t) →
      let ready := (List.range 5).filter (fun k => k == ctx || isReady s core k)
      chooseAmong s core ready = some ctx →
      exec (.bundleIssue core ctx) s =
        .next (settleIssue t core ctx (ownerNow s core ready) (ready.filter (· != ctx)))))

/-- While no context waits for accesses to perform: a packet that its home lets perform does: a write's bytes enter memory,
a read takes its data, and the packet becomes its response. An arbitration point moves the packet that it chooses: into the
next buffer, to its endpoint, out of the device with its header flit and data flits, or into the send work of a queue pair.
A wrap of QRES takes one from a packet's slack, and at 0 it is late. A flag packet sets its target's flags and a notice
or an arrival resolution resolves its row. A peer's acknowledgement takes its oldest send work off the list; a
timeout ends a direct access with UNCORRECTABLE, a refusal with RANGE_PERM; a packet of another device enters at its port;
a malformed flit, a retransmission, a port failure, a queue pair's error, a congestion notification and a corrected error
change their own counts and states. -/
def Obligations.NetworkEvents : Prop :=
  ∀ (s : State), Quiet s →
    let direct : Req → Prop := fun r => r.kind.engineSeq = none ∧ r.orphan = false
    (∀ (p : NetPacket) (r : Req) (g : Contender), findPacket s p.id = some p → findReq s p.id = some r →
      grantable s p = some g → p.pkt.typ ≠ 7 → (∀ a ∈ r.pas, outsideCheck s a = .ok ()) → s.rlog = none → s.rplay = none → s.relocs = [] →
      let performs : (State → List Byte → Prop) → Prop := fun q =>
        ∃ u x, exec (.memoryPortGrant (.request p.id)) s = .next u ∧ findPacket u p.id = some x ∧ x.pkt.vc = 1 ∧
          x.pkt.slack = p.pkt.slack ∧ q u x.data
      let value := r.pas.map (memByte s.mem)
      (∀ cells, r.kind = .store cells →
        performs (fun u _ => u.mem = (physWrite s cells).mem ∧ findReq u r.id = none)) ∧
      (∀ q tag a cells, r.kind = .write q tag a cells → performs (fun u _ => u.mem = (physWrite s cells).mem ∧
        findReq u r.id = some { r with performed := true })) ∧
      (∀ q tag a, r.kind = .load q ∨ r.kind = .read q tag a → performs (fun u b => u.mem = s.mem ∧ b = value ∧
        findReq u r.id = some { r with value := value, performed := true }))) ∧
    (∀ n out c, choose ((contenders s n out).map NetPacket.contender) (grantsSince s n out) = some c → s.rplay = none →
      let p := c.p
      let moves : (State → Prop) → Prop := fun q => ∃ u, exec (.routerGrant n out) s = .next u ∧ u.mem = s.mem ∧ q u
      let stands : NetPoint → Nat → State → Prop := fun place input u =>
        findPacket u p.id = some { p with place := place, input := input, acc := false }
      (∀ x y i, nextBuffer s p out = some (x, y, i) → moves (stands (.router x y) i)) ∧
      (∀ x y place input, nextBuffer s p out = none → p.place = .router x y → restAt s p.pkt = some (place, input) →
        moves (stands place input)) ∧
      (∀ e, p.place = .fabricEdge e → moves (fun u =>
        u.answers = .packet out (Packet.header p.pkt) (flitsOf p.pkt p.data) p.cause :: s.answers ∧
          if p.pkt.vc = 1 then findPacket u p.id = none else stands .away 0 u)) ∧
      (∀ e r k w, p.place = .hostQueue e → findReq s p.id = some r → (∀ a ∈ r.pas, outsideCheck s a = .ok ()) →
        rdmaOf s r = some k → windowAt s (r.pas.headD 0) = some w → moves (fun u => stands .away 0 u ∧
          u.outbound = s.outbound ++ [{ qp := windowQp w, va := windowVa w (r.pas.headD 0), rkey := windowKey w, kind := k
                                        req := some r.id, note := none }]))) ∧
    (∀ p, findPacket s p.id = some p → p.owed ≠ 0 → p.pkt.slack ≠ 0 →
      ∃ u q, exec (.slackDecrement p.id) s = .next u ∧ findPacket u p.id = some q ∧ q.owed = p.owed - 1 ∧
        q.pkt.slack = p.pkt.slack - 1 ∧ q.pkt.late = (p.pkt.late || p.pkt.slack == 1)) ∧
    (∀ p : NetPacket, findPacket s p.id = some p → p.place = .unit p.pkt.dst.toNat → s.rplay = none →
      let ctx := (p.pkt.aux.extractLsb' 8 3).toNat
      let core := atwCore p.pkt.atw
      let resolves : Instr → Prop := fun i => atwDevice p.pkt.atw = s.device.toNat → coreRuns s core p.pkt.cookie = true →
        suspendedLaunch s p.pkt.cookie = none → ∃ u, exec i s = .next u ∧ findPacket u p.id = none ∧
          (Tbl.look Arrival.init (coreOf u core).ctrs (atwCtr p.pkt.atw)).bitmap.getLsbD (atwRow p.pkt.atw) = true
      (p.pkt.typ = 4 → p.pkt.dst.toNat < Config.numCores → ctx < 5 → (ctxOf s p.pkt.dst.toNat ctx).task.isSome = true →
        cookieOf s p.pkt.dst.toNat ctx = p.pkt.cookie →
        ∃ u, exec (.flagPacketArrive (.own p.id)) s = .next u ∧ findPacket u p.id = none ∧
          (ctxOf u p.pkt.dst.toNat ctx).flags =
            (ctxOf s p.pkt.dst.toNat ctx).flags ||| (p.pkt.aux.extractLsb' 0 8).setWidth 16) ∧
      (p.pkt.typ = 5 → resolves (.noticeArrive (.own p.id))) ∧ (p.pkt.typ = 6 → resolves (.acaddArrive (.own p.id)))) ∧
    (∀ qp ecn x, qp < 1024 → s.outbound.find? (fun x => x.qp == qp) = some x →
      (x.req = none → ∃ u, exec (.peerAcknowledgement ⟨qp, ecn⟩) s = .next u ∧ u.outbound = s.outbound.erase x ∧
        u.mem = s.mem ∧ u.answers = (if ecn then [.congestion qp] else []) ++ s.answers) ∧
      (∀ p r q tag a cells, x.req = some p.id → findPacket s p.id = some p → findReq s p.id = some r → s.relocs = [] →
        r.kind = .write q tag a cells → ∃ u, exec (.peerAcknowledgement ⟨qp, ecn⟩) s = .next u ∧ u.mem = s.mem ∧
          findReq u r.id = some { r with value := [0], performed := true })) ∧
    (∀ p r, findPacket s p.id = some p → findReq s p.id = some r → direct r → p.pkt.dstDev ≠ s.device → p.pkt.vc = 0 →
      p.pkt.typ ≠ 7 → p.sent + timeoutTicks s ≤ s.time →
      ∃ u, exec (.fabricTimeout p.id) s = .next u ∧ findReq u r.id = none ∧
        ∃ t ∈ (ctxOf u r.core r.ctx).unc, t.cause = 0x50 ∧ t.addr = BitVec.ofNat 64 (r.pas.headD 0)) ∧
    (∀ k ecn x r cells, s.outbound[k]? = some x → x.note = none → x.req = some r.id → findReq s r.id = some r → direct r →
      r.kind = .store cells → ∃ u, exec (.roceNakReceived ⟨k, ecn⟩) s = .next u ∧ findReq u r.id = none ∧
        ∃ t ∈ (ctxOf u r.core r.ctx).stops, t.cause = 0x11 ∧ t.addr = BitVec.ofNat 64 (r.pas.headD 0)) ∧
    (∀ port h flits cause, port < 48 → (portState s port).failed = false → s.powered = true →
      let edge := port / 24
      let p := packetOfHeader h
      (malformed h = true → exec (.fabricDiscard port ⟨h, flits, cause⟩) s =
        .next (logEvent { s with edges := Tbl.put s.edges edge (Tbl.look 0 s.edges edge + 1) } (.discarded edge))) ∧
      (malformed h = false → s.bringup = .operational → s.rplay = none → p.dstDev = s.device → p.srcDev ≠ s.device →
        flits.length = p.ndata.toNat → p.vc ≠ 1 →
        ∃ u x, exec (.fabricDiscard port ⟨h, flits, cause⟩) s = .next u ∧ u.packets = s.packets ++ [x] ∧
          x.place = .fabricIn edge ∧ x.input = port % 24 ∧ (Packet.header x.pkt).extractLsb' 0 144 = (Packet.header p).extractLsb' 0 144 ∧
          x.pkt.atw = p.atw)) ∧
    (∀ port, port < 48 → (portState s port).failed = false →
      exec (.flitRetransmit port) s =
        .next { s with ports := Tbl.put s.ports port { portState s port with retrans := (portState s port).retrans + 1 } } ∧
      exec (.portFailure port) s =
        .next (logEvent { s with ports := Tbl.put s.ports port { portState s port with failed := true } } (.portFailed port))) ∧
    (∀ qp, qp < 1024 →
      exec (.congestionNotificationReceipt qp) s = .next { s with qpRate := Tbl.put s.qpRate qp (Tbl.look 0 s.qpRate qp + 1) } ∧
      (qpState s qp = 1 → ∃ u, exec (.qpError qp) s = .next u ∧ qpState u qp = 2 ∧ ∀ x ∈ u.outbound, x.qp ≠ qp)) ∧
    (∀ w, let count : State → Nat := fun s => ((s.corrected.find? (fun e => e.1 == w)).map (·.2)).getD 0
      ∃ u, exec (.memoryPortGrant (.corrected w)) s = .next u ∧ count u = count s + 1)

/-- On an operational device with its queue pair ready, a write whose key matches and whose bytes all translate with the
permissions it needs enters memory and is acknowledged; a read is answered with the bytes; an atomic at an aligned address
of a system-atomic range is answered with the old value and leaves the new one, and its retransmission with the held value;
another operation is answered NAK invalid request and one of another transport dropped and counted; a request with a wrong
key, and a read that cannot reach its target, is answered NAK remote access error and changes no memory. A write that meets a
conflicting request at its port waits for it. A packet with a
congestion mark is answered with a notification besides. That bits 7 to 5 of the opcode name the transport is presumed
(Assumption 60). -/
def Obligations.InboundRoce : Prop :=
  ∀ (s : State) (r : RoceRequest) (data : List Byte) (len : Nat) (op : RoceAtomic) (opcode : Byte) (pas : List Nat),
    s.bringup = .operational → s.rplay = none → s.rlog = none → s.relocs = [] → r.qp < 1024 → qpState s r.qp = 1 →
    (∀ i ∈ s.inbox, i.req.qp ≠ r.qp) →
    let note : List Answer := if r.ecn then [.congestion r.qp] else []
    let outcome : Instr → List Byte → State → Prop := fun i b u => exec i s = .next u ∧
      u.answers = note ++ .ack r.qp b :: s.answers
    let reached : Prop := portTaken s true pas = false ∧ r.unreadable = false ∧ targetFails s pas = false ∧
      ∀ a ∈ pas, inTarget s a = false ∧ isOutside s a = false
    let old := pas.map (memByte s.mem)
    (inboundSpan s r data.length [permWr, permRa] = some pas → reached →
      ∃ u, outcome (.roceInboundWrite r data) [] u ∧ u.mem = (physWrite s (pas.zip data)).mem) ∧
    (inboundSpan s r data.length [permWr, permRa] = some pas → portTaken s true pas = true → (∀ a ∈ pas, inTarget s a = false) →
      exec (.roceInboundWrite r data) s = .next { s with inbox := s.inbox ++ [.write r data] }) ∧
    (inboundSpan s r len [permRd, permRa] = some pas → reached →
      ∃ u, outcome (.roceInboundRead r len) old u ∧ u.mem = s.mem) ∧
    (inboundSpan s r 8 [permRd, permWr, permRa, permSa] = some pas → reached → r.va.toNat % 8 = 0 →
      (heldResult s (pas.headD 0) (peerParty r.qp) r.psn = none → replayFull s (pas.headD 0) = false →
        ∃ u, outcome (.roceInboundAtomic r op) old u ∧ u.mem = (physWrite s (pas.zip
          (toBytes 8 (roceAtomicNew op (BitVec.ofNat 64 (ofBytes old))).toNat))).mem) ∧
      (∀ v, heldResult s (pas.headD 0) (peerParty r.qp) r.psn = some v →
        ∃ u, outcome (.roceInboundAtomic r op) (toBytes 8 v.toNat) u ∧ u.mem = s.mem)) ∧
    (exec (.roceUnsupportedOp ⟨r.qp, r.ecn⟩ opcode) s = .next (if opcode.extractLsb' 5 3 = 0
      then { s with answers := note ++ .nakInvalid r.qp :: s.answers } else { s with dropped := s.dropped + 1 })) ∧
    ((Tbl.look 0 s.qps r.qp).extractLsb' 64 32 ≠ r.rkey → ∀ i ∈ [Instr.roceInboundWrite r data, .roceInboundRead r len,
        .roceInboundAtomic r op],
      exec i s = .next { s with answers := note ++ .nakAccess r.qp :: s.answers, mlog := .roceRefused r.qp :: s.mlog }) ∧
    (inboundSpan s r len [permRd, permRa] = some pas → portTaken s false pas = false →
      r.unreadable = true ∨ targetFails s pas = true →
      exec (.roceInboundRead r len) s =
        .next { s with answers := note ++ .nakAccess r.qp :: s.answers, mlog := .roceFailed r.qp :: s.mlog })

/-- A doorbell whose producer is in range is taken over; the oldest entry is read, checked and numbered; a queue's launch
starts on its free partition with every core's scratchpad, tag table, TU, tile registers, merge buffer and arrival counters
cleared and its balance full (of a launch that records, the scratchpad's bytes are left open: its log's header may lie
there); a phase begins with its static tasks or its
records' tasks; a task is bound with its entry, address space and arguments, and with the last communication task the
window opens; a cluster claims a whole group; the compute
step closes into the communication step and that one into the next phase, pass or end; a launch that is over gets its
completion record, once its queued fills and open reductions are cancelled and the cycle of its end is over (TIME 0 where it
never started: Assumption 67); one all of whose tasks are saved is suspended with its partition freed, and resumes with its counters and
TU written back. -/
def Obligations.LaunchEvents : Prop :=
  (∀ (s : State) (queue : Nat), queue < 16 → qValid (queueOf s queue).desc = true →
    let q := queueOf s queue
    (∀ b r, s.bringup = .operational → doorbellUsable s q.desc = true →
      tenantRead s (qAsid q.desc) (qDoorbell q.desc) 8 = .ok (b, r) → q.consumer ≤ ofBytes b →
      ofBytes b ≤ q.consumer + 2 ^ qLog2 q.desc →
      exec (.doorbellWrite queue) s = .next (setQueue r queue { q with producer := ofBytes b })) ∧
    (∀ b r, q.taken < q.producer → unstarted s queue = none →
      tenantRead s (qAsid q.desc) (qRing q.desc + 32 * (q.taken % 2 ^ qLog2 q.desc)) 32 = .ok (b, r) →
      let l := (validated r queue q.taken (BitVec.ofNat 256 (ofBytes b))).1
      ∃ u, exec (.launchValidate queue) s = .next u ∧ launchAt u s.nextLaunch = some l ∧ l.index = q.taken ∧
        l.queue = queue ∧ (queueOf u queue).taken = q.taken + 1) ∧
    (∀ lid l, servedQueue s = some queue → unstarted s queue = some (lid, l) →
      ∃ u l', exec (.launchStart queue) s = .next u ∧ launchAt u lid = some l' ∧ l'.status = .running ∧
        l'.stage = .idle ∧ l'.phases = l.phases ∧ l'.tsStart = s.time ∧ u.rr = (queue + 1) % 16 ∧
        ∀ n ∈ (partClusters (lPart l.header)).flatMap coresOfCluster, (coreOf u n).balance = 4096 ∧
          (coreOf u n).age = ageOf l.header ∧ (coreOf u n).tags = [] ∧ (coreOf u n).tu = 0 ∧ (coreOf u n).carve = none ∧
          (coreOf u n).tiles = [] ∧ (coreOf u n).merge = MergeBuf.init ∧ (coreOf u n).ctrs = [] ∧
          (l.header.getLsbD 349 = false → ∀ off, off < Config.spmBytes → memByte u.mem (spmAddr n off) = 0))) ∧
  (∀ (s : State) (lid : Nat) (l : Launch), launchAt s lid = some l →
    let becomes : Instr → (Launch → Prop) → Prop := fun i q => ∃ u l', exec i s = .next u ∧ launchAt u lid = some l' ∧ q l'
    (l.status = .running → l.stage = .idle →
      (phRagged l.record = false → becomes (.phaseStart lid) (fun l' => l'.stage = .compute ∧ l'.bound = false ∧
        l'.tasks = staticTasks l l.record l'.sched ∧ (phNsched l.record < 2 → l'.sched = 0))) ∧
      (∀ b r rs r', phRagged l.record = true → tenantRead s l.asid (phCntva l.record) 4 = .ok (b, r) →
        ofBytes b ≤ phMaxrec l.record → readRecords r l (ofBytes b) 0 = .ok (rs, r') →
        becomes (.phaseStart lid) (fun l' => l'.stage = .compute ∧ l'.tasks = raggedTasks (closeLast rs)))) ∧
    (∀ n t core ctx, l.status = .running → l.stage ≠ .idle → s.rplay = none → chooseBind s lid l = some (n, t, core, ctx) →
      ∃ u, exec (.taskBind lid) s = .next u ∧
        let c := ctxOf u core ctx
        c.status = .running ∧ c.task = some { launch := lid, task := n } ∧ c.asid = l.asid ∧
        c.pc = (if t.comm then phCentry l.record else phEntry l.record) ∧ c.scalars = bindScalars l.record t ∧
        c.wbase = lWinBase l.header ctx ∧ c.wsize = lWinSize l.header ctx ∧
        (t.comm = true → l.stage = .communicate → (∀ x ∈ l.tasks, x.comm = true) →
          ((∀ m x, m ≠ n → l.tasks[m]? = some x → x.status ≠ .unbound) → c.flags = 0x200) ∧
          ((∃ m x, m ≠ n ∧ l.tasks[m]? = some x ∧ x.status = .unbound) → c.flags = 0))) ∧
    (∀ cluster g, l.status = .running → l.stage = .compute → claimant s lid l = some cluster → unclaimedGroup l = some g →
      becomes (.raggedClaim lid cluster) (fun l' => l'.tasks = l.tasks.map (fun t =>
        if t.rgroup == g && t.tileRec.isSome then { t with claimed := some cluster } else t))) ∧
    (l.status = .running → l.stage = .compute → allFinished l = true →
      becomes (.computeStepClose lid) (fun l' => l'.stage = .communicate ∧
        l'.tasks.length = if phCentry l.record = 0 then 0 else (commTasks l).length)) ∧
    (l.status = .running → l.stage = .communicate → allFinished l = true →
      launchQuiet s (l.entry.extractLsb' 0 64) = true →
      becomes (.commStepClose lid) (fun l' => l'.execs = l.execs + 1 ∧ l'.tasks = [] ∧ l'.stage = .idle ∧
        (l.phase + 1 < lNph l.header → l'.phase = l.phase + 1 ∧ l'.pass = l.pass ∧ l'.status = .running) ∧
        (lNph l.header ≤ l.phase + 1 → l.pass + 1 < lIter l.header →
          l'.phase = lLoopst l.header ∧ l'.pass = l.pass + 1 ∧ l'.status = .running) ∧
        (lNph l.header ≤ l.phase + 1 → lIter l.header ≤ l.pass + 1 →
          l'.status = .ending { status := 0, code := 0, cause := 0 }))) ∧
    (∀ e l', l.status = .ending e →
      let r := completionRecord s l e
      let v := discardOpen (cancelFills s lid) lid
      (launchAt v lid = some l' → launchOver v lid l' = true →
        (e.status = 0 ∨ e.status = 3 ∨ e.status = 4 → exec (.launchComplete lid) s = .next (closeLaunch v lid l' e)) ∧
        (e.status = 1 ∨ e.status = 2 ∨ e.status = 5 → endsNow s l = false →
          exec (.launchEnd lid) s = .next (closeLaunch v lid l' e))) ∧
      r.extractLsb' 0 8 = e.status ∧ r.extractLsb' 8 24 = 0 ∧ r.extractLsb' 32 32 = BitVec.ofNat 32 l.ovr ∧
      r.extractLsb' 96 8 = e.cause ∧ r.extractLsb' 104 8 = BitVec.ofNat 8 l.phase ∧ r.extractLsb' 112 16 = e.code ∧
      r.extractLsb' 128 64 = BitVec.ofNat 64 (if l.started then s.time - l.tsStart else 0) ∧
      r.extractLsb' 192 64 = l.entry.extractLsb' 0 64) ∧
    (l.status = .suspending → allSaved l = true → fillsRun s lid = false →
      ∃ u l', exec (.launchSuspend lid) s = .next u ∧ launchAt u lid = some l' ∧ l'.status = .suspended ∧
        l'.susp = some (suspendedState s lid l) ∧ u.mem = s.mem ∧
        ∀ p ∈ u.pins, ¬ (p.2.owner.isSome = true ∧ p.2.launch = lid)) ∧
    (∀ k, l.status = .suspended → l.susp = some k → partitionFree s (lPart l.header) = true → pinsTaken s k = false →
      ∃ u l', exec (.launchResume lid) s = .next u ∧ launchAt u lid = some l' ∧ l'.status = .running ∧ l'.susp = none ∧
        ∀ n ∈ coresOf l, (coreOf u n).ctrs = Tbl.look [] k.ctrs n ∧ (coreOf u n).tu = Tbl.look 0 k.tus n ∧
          (coreOf u n).tags = []))

/-- On an operational device every management request that can be met is done and answered: an admission writes the tenant's
directory and queue, a retirement of an idle tenant frees them, an abort ends the launches of its COOKIE with status 5, a
pre-emption holds cores or suspends a launch, the table requests put their entries, register reads and writes and the
special writes change exactly their fields, and the identity requests answer, each on the path on which it arrived. The form of
ATTEST's signature is Assumption 6, and that PREEMPT of a launch is its suspension Assumption 76. Before
the device is operational they are answered NOTREADY there and change nothing. -/
def Obligations.ManagementRequests : Prop :=
  ∀ (s : State) (asid : BitVec 16) (cookie : BitVec 64) (i n : Nat) (e : BitVec 256) (g : BitVec 384) (v : Word)
    (nonce : BitVec 256) (image : List Byte) (a : AdmitRecord) (reg : MgmtReg) (port : Bool) (l : List Nat) (p : PreemptRequest),
    let answers : Instr → State → Reply → Prop := fun i t r => exec i s = .next { t with answers := .mgmt s.via r :: t.answers }
    let ok : State → Prop := fun u => u.answers = .mgmt s.via .ok :: s.answers
    let sets : Instr → State → Prop := fun i t => answers i t .ok
    (s.bringup = .operational →
      (admissible s a = true → ∃ u, exec (.admitReq a) s = .next u ∧ ok u ∧ u.mem = (writeTenant s a).mem ∧
        queueOf u a.queue = { desc := queueImage a, consumer := 0, producer := 0, taken := 0 }) ∧
      (asidBusy s asid = false → ∃ u, exec (.retire asid) s = .next u ∧ ok u ∧
        ∀ q ∈ u.queues, ¬ (qValid q.2.desc = true ∧ qAsid q.2.desc = asid)) ∧
      (launchesNamed s cookie ≠ [] → ∃ u, exec (.abort cookie) s = .next u ∧ ok u ∧
        ∀ lid x, launchAt s lid = some x → lid ∈ launchesNamed s cookie →
          (match x.status with | .ending _ => False | .ended => False | _ => True) →
          ∃ x', launchAt u lid = some x' ∧ x'.status = .ending { status := 5, code := 0, cause := 0 }) ∧
      (∃ u, exec (.preempt (.cores l)) s = .next u ∧ ok u ∧ ∀ k ∈ l, k < Config.numCores → (coreOf u k).held = true) ∧
      (∃ u, exec (.preempt (.release l)) s = .next u ∧ ok u ∧ ∀ k ∈ l, k < Config.numCores → (coreOf u k).held = false) ∧
      (∀ lid x, runningNamed s cookie = some (lid, x) → ∃ u, exec (.preempt (.launch cookie)) s = .next u ∧ ok u ∧
        launchAt u lid = some { x with status := .suspending }) ∧
      (i < 1024 → (e.extractLsb' 32 2 ≠ 2 ∨ qpState s i = 2) → sets (.qpset i e) { s with qps := Tbl.put s.qps i e }) ∧
      (i < 1024 → e.extractLsb' 32 2 = 2 → qpState s i ≠ 2 → s.outbound = [] → s.packets = [] →
        sets (.qpset i e) { s with qps := Tbl.put s.qps i e, mlog := .qpFailed i :: s.mlog }) ∧
      (i < 64 → sets (.winset i e) { s with windows := Tbl.put s.windows i e }) ∧
      (i < 16 → (Tbl.look RGroup.init s.groups i).parts = [] → groupOpen s i = false →
        ∃ u x, exec (.rgset i g) s = .next u ∧ ok u ∧ Tbl.find u.groups i = some x ∧
          x.entry.extractLsb' 48 16 = (Tbl.look RGroup.init s.groups i).entry.extractLsb' 48 16 ∧
          x.entry.extractLsb' 0 48 = g.extractLsb' 0 48 ∧ x.entry.extractLsb' 64 320 = g.extractLsb' 64 320) ∧
      (regExists reg = true →
        answers (.regrd reg) s (.value (readReg s reg)) ∧
        sets (.regwr reg v) (writeReg s reg v)) ∧
      (∀ u, exec (.regwr .prewait v) s = .next u → readReg u .prewait = (v.extractLsb' 0 32).setWidth 64) ∧
      (∀ u, exec (.regwr .hvec v) s = .next u → readReg u .hvec = v &&& 0xFFFFFFFFFFFFFF) ∧
      (n < Config.numCores → sets (.spgWrite n v)
        { s with cores := Tbl.put s.cores n { coreOf s n with spgGate := v.extractLsb' 0 12 } }) ∧
      (n < 64 → sets (.slwgWrite n v) { s with slices := Tbl.put s.slices n { sliceOf s n with gate := v.extractLsb' 4 12 } }) ∧
      (n < Config.numCores → sets (.latecntClear false n v)
        { s with cores := Tbl.put s.cores n { coreOf s n with latecnt := (coreOf s n).latecnt &&& ~~~(v &&& 0xFFFFFFFF) } }) ∧
      (n < 64 → sets (.latecntClear true n v)
        { s with slices := Tbl.put s.slices n { sliceOf s n with latecnt := (sliceOf s n).latecnt &&& ~~~(v &&& 0xFFFFFFFF) } }) ∧
      (n < 2 → sets (.pwrctlWrite n v) { s with dies := Tbl.put s.dies n { dieAt s n with
        floor := v.extractLsb' 32 16, budget := v.extractLsb' 16 16, dlim := v.extractLsb' 0 16 } }) ∧
      sets (.trippedClear v) { s with tripped := s.tripped && !v.getLsbD 3 } ∧
      (n < Config.numCores → answers (.trcrd n) s (.trace ((coreOf s n).trace.reverse.map TraceRec.bits))) ∧
      (∃ u, exec .fusesvn s = .next u ∧ ok u ∧ u.svn.toNat = max s.svn.toNat s.runSvn.toNat) ∧
      (∃ r : List Byte, r.length = 32 ∧ answers (.attest nonce) { s with fresh := s.fresh + 1 } (.attestation
        (attestBody s nonce ++ slhSign identityKey r (attestBody s nonce))))) ∧
    (s.bringup = .identity → s.failCode ≠ 3 →
      sets (.loadfw image) { s with image := image, bringup := .auth }) ∧
    (s.bringup ≠ .operational → s.powered = true →
      ∀ x ∈ [Instr.admitReq a, .retire asid, .abort cookie, .preempt p, .qpset i e, .winset i e, .rgset i g,
          .regwr reg v, .spgWrite n v, .slwgWrite n v, .latecntClear port n v, .pwrctlWrite n v, .trippedClear v,
          .trcrd n, .fusesvn],
        answers x s .notReady)

/-- Refills and clock epochs that are due happen and are counted, a cluster at 95 degrees runs at 1.5 GHz, and one at 110 trips
the device; power-on, a trip and the end of bring-up leave the device in the state their rules give, with memory as reset
leaves it (Assumptions 78, 72, 77); gated and woken scratchpad units read zero
and other memory stays; cache ways lose or gain power; the trace freezes. A handler starts with its number and cause; an
expired pre-emption stops its context; a save holds the service context until the stopped context is settled, and then
saves and frees it; a saved task is restored to run by the service context that takes it up; a fill is dispatched, settles
or fails and leaves its engine. -/
def Obligations.PowerAndService : Prop :=
  (∀ (s : State) (r : EpochReadings) (f : PowerOnFindings) (core u n k : Nat),
    (s.refills < s.time / 64 → ∃ t, exec .tollRefill s = .next t ∧ t.refills = s.refills + 1 ∧ t.mem = s.mem ∧
      ∀ c, (coreOf t c).balance ≤ max 4096 (coreOf s c).balance) ∧
    (s.epochs < s.time / 65536 → (∀ c, c < 16 → temperature r c < 110) →
      ∃ t, exec (.clockEpoch r) s = .next t ∧ t.epochs = s.epochs + 1 ∧ t.mem = s.mem ∧
        ∀ c, c < 16 → 95 ≤ temperature r c → (clusterAt t c).clock = 1500 ∧ (clusterAt t c).throttled = true) ∧
    (∃ t, exec .thermalTrip s = .next t ∧ t.tripped = true ∧ t.powered = false ∧ t.launches = [] ∧ t.mem = [] ∧
      t.svn = s.svn ∧
      (s.epochs < s.time / 65536 → (∃ c, c < 16 ∧ 110 ≤ temperature r c) → exec (.clockEpoch r) s = .next t)) ∧
    (∃ t, exec .powerOnReset s = .next t ∧ t.bringup = .powerOn ∧ t.powered = true ∧ t.mem = [] ∧ t.cores = [] ∧
      t.launches = [] ∧ t.svn = s.svn ∧ t.tripped = s.tripped) ∧
    (s.bringup = .powerOn → s.powered = true → ∃ t, exec (.powerOnComplete f) s = .next t ∧ t.bringup = .identity ∧
      t.serial = f.serial ∧ t.step = f.step ∧ t.svn.toNat = max s.svn.toNat f.svn.toNat ∧
      (f.failure = none → t.failCode = s.failCode) ∧ (f.failure = some .selfTest → t.failCode = 1) ∧
      (f.failure = some .fuseRead → t.failCode = 2) ∧ (f.failure = some .training → t.failCode = 3)) ∧
    (s.bringup = .auth → ∃ t, exec .firmwareAuth s = .next t ∧ t.image = [] ∧
      (imageCode s s.image = 0 → t.bringup = .operational ∧ t.failCode = 0) ∧
      (imageCode s s.image ≠ 0 → t.bringup = .identity ∧ t.failCode = imageCode s s.image)) ∧
    (let inUnit : Nat → Bool := fun a => decide (spmAddr core (unitBytes * u) ≤ a ∧ a < spmAddr core (unitBytes * u) + unitBytes)
     u < 12 →
      (core < Config.numCores → (coreOf s core).spgGate.getLsbD u = true → (coreOf s core).spgAwake.getLsbD u = true →
        carveChanges (coreOf s core) u = false → unitAccessed s core u = false →
        ∃ t, exec (.spmUnitGate core u) s = .next t ∧ (coreOf t core).spgAwake.getLsbD u = false ∧
          ∀ a, memByte t.mem a = if inUnit a then 0 else memByte s.mem a) ∧
      (∀ w, Tbl.find (coreOf s core).spgWake u = some w → w ≤ s.time →
        ∃ t, exec (.spmUnitWake core u) s = .next t ∧ (coreOf t core).spgAwake.getLsbD u = true ∧
          ∀ a, memByte t.mem a = if inUnit a then 0 else memByte s.mem a)) ∧
    (n < 64 → k < 12 →
      ((sliceOf s n).gate.getLsbD k = true → (sliceOf s n).awake.getLsbD k = true →
        ∃ t, exec (.wayGate n k) s = .next t ∧ (sliceOf t n).awake = (sliceOf s n).awake &&& ~~~ (1#12 <<< k) ∧
          (∀ x ∈ (sliceOf t n).lines, x.way ≠ k + 4) ∧ t.mem = s.mem) ∧
      ((sliceOf s n).gate.getLsbD k = false → (sliceOf s n).awake.getLsbD k = false →
        ∃ t, exec (.wayPowerUp n k) s = .next t ∧ (sliceOf t n).awake = (sliceOf s n).awake ||| (1#12 <<< k) ∧
          (sliceOf t n).lines = (sliceOf s n).lines ∧ t.mem = s.mem)) ∧
    ((coreOf s core).postLeft = some 0 → ∃ t, exec (.traceFreeze core) s = .next t ∧
      coreOf t core = { coreOf s core with trcctl := (coreOf s core).trcctl ||| 4, postLeft := none })) ∧
  (∀ (s : State) (core ctx : Nat),
    (∀ k rcd r, serviceFree s core = true → handlerWaiting s core = some k → (ctxOf s core k).record = some rcd →
      drained s core k s.nextReq = true → writeRecord s core k rcd = .ok r →
      ∃ t, exec (.handlerStart core) s = .next t ∧ (coreOf t core).service = some (.handler k) ∧ t.mem = r.mem ∧
        (ctxOf t core 4).status = .running ∧ (ctxOf t core 4).pc = s.hvec.setWidth 56 ∧
        scalarOf (ctxOf t core 4) 2 = BitVec.ofNat 64 k ∧
        scalarOf (ctxOf t core 4) 3 = (rcd.extractLsb' 24 8).setWidth 64) ∧
    (∀ d, (ctxOf s core ctx).preempt = some d → d ≤ s.time → ctx < 4 → (ctxOf s core ctx).status = .running →
      (ctxOf s core ctx).flags.getLsbD 15 = true → (ctxOf s core ctx).stops = [] → (ctxOf s core ctx).unc = [] →
      (∀ o ∈ outstanding s core ctx, o.susp = none) → (∀ q ∈ (ctxOf s core ctx).streams, q.2.susp = false) →
      ∃ t, exec (.prewaitExpiry core ctx) s = .next t ∧ (ctxOf t core ctx).status = .saving ∧
        (ctxOf t core ctx).toSave = some none ∧ (coreOf t core).work = (coreOf s core).work ++ [.save ctx]) ∧
    (∀ named r l t, (ctxOf s core ctx).status = .saving → (ctxOf s core ctx).toSave = some named →
      (ctxOf s core ctx).task = some r → (ctxOf s core ctx).stops = [] → (ctxOf s core ctx).unc = [] →
      savesNow s core ctx = true →
      (settled s core ctx = false →
        exec (.saveSequence core ctx) s = .next (holdService s core (.save ctx) r (ctxOf s core ctx).asid)) ∧
      (settled s core ctx = true → (ctxOf s core ctx).arrivals = [] → (ctxOf s core ctx).pend = [] →
        launchAt s r.launch = some l → l.tasks[r.task]? = some t →
        ∃ u l' t', exec (.saveSequence core ctx) s = .next u ∧ (ctxOf u core ctx).status = .free ∧
          (ctxOf u core ctx).task = none ∧ launchAt u r.launch = some l' ∧ l'.tasks[r.task]? = some t' ∧
          t'.status = .saved core ctx ∧ t'.image.isSome = true ∧ u.mem = s.mem)) ∧
    (∀ lid l n t, s.rplay = none →
      ((coreOf s core).service ≠ some (.restore ctx) → restorable s core ctx = some (lid, l, n, t) →
        restoreStarts s core ctx = true →
        exec (.restore core ctx) s = .next (holdService s core (.restore ctx) { launch := lid, task := n } l.asid)) ∧
      (∀ im c0 k0, (coreOf s core).service = some (.restore ctx) → ctx < 4 →
        restorable (freeService s core) core ctx = some (lid, l, n, t) → t.status = .saved c0 k0 → t.image = some im →
        ∃ u, exec (.restore core ctx) s = .next u ∧ (ctxOf u core ctx).task = some { launch := lid, task := n } ∧
          (ctxOf u core ctx).status = (if im.ctx.ended then .finishing else .running) ∧ (ctxOf u core ctx).pc = im.ctx.pc ∧
          (ctxOf u core ctx).scalars = im.ctx.scalars ∧ (ctxOf u core ctx).masks = im.ctx.masks ∧
          (coreOf u core).service = none)) ∧
    (∀ die f n, nextFill s die = some f → fillCore s f = some n →
      ∃ u, exec (.fillDispatch die) s = .next u ∧ (coreOf u n).service = some (.fill f.id) ∧
        (ctxOf u n 4).status = .running ∧ (ctxOf u n 4).pc = BitVec.ofNat 56 (kvDescOf f.desc).fkentry ∧
        (ctxOf u n 4).scalars = fillScalars f) ∧
    (∀ die f, runningFill s core = some (die, f) →
      let leaves : Instr → Prop := fun i => ∃ u, exec i s = .next u ∧ (coreOf u core).service = none ∧
        ∀ x ∈ (dieAt u die).fills, x.id ≠ f.id
      ((ctxOf s core 4).status = .finishing → settled s core 4 = true → stopCount (ctxOf s core 4) = 0 →
        leaves (.fillSettle core)) ∧
      (fillFailed (ctxOf s core 4) = true → settled (cancelSuspended s core 4) core 4 = true → leaves (.fillFail core))))

/-- Whatever the next event is, and from any state whose memory is in canonical form, a step that answers a next state leaves
memory in canonical form: addresses strictly rising and no entry equal to what an unlisted address reads as. -/
def Obligations.StepKeepsMemoryCanonical : Prop :=
  ∀ s t : State, MemSafe s → step s = .next t → MemSafe t

/-- After power-on reset the device is in POWER_ON with CODE 0; every core, context, cluster and die holds the Reset values of
their maps; no operation, request, packet or launch exists; and memory is in canonical form. That memory nothing has written
reads as zero is the model's choice (Assumption 1). -/
def Obligations.ResetState : Prop :=
  let s := State.reset
  MemSafe s ∧ (∀ a, memByte s.mem a = 0) ∧ s.bringup = .powerOn ∧ s.failCode = 0 ∧ s.hyst = 50 ∧
  s.prewait = 0x00100000 ∧ s.trapva = 0 ∧ s.hvec = 0 ∧ s.rlogb = 0 ∧ s.rlogl = 0 ∧ s.replay = false ∧ s.ftimeout = 10000 ∧
  s.ops = [] ∧ s.reqs = [] ∧ s.packets = [] ∧ s.launches = [] ∧
  (∀ n, (coreOf s n).age = 256 ∧ (coreOf s n).trcctl = 0 ∧ (coreOf s n).trcpost = 2048 ∧ (coreOf s n).trgval = 0 ∧
    (coreOf s n).latecnt = 0 ∧ (coreOf s n).netslk = 0x3FF ∧ (coreOf s n).balance = 4096 ∧ (coreOf s n).spgGate = 0 ∧
    (∀ k, Tbl.look 0 (coreOf s n).wpa k = 0 ∧ Tbl.look 0 (coreOf s n).wpc k = 0)) ∧
  (∀ n k, let c := ctxOf s n k
    c.shape = 0x40 ∧ c.live = 0 ∧ c.seed = 1 ∧ c.rndMode = 0 ∧ c.swapth = 16 ∧ c.ten = 0 ∧ c.status = .free ∧ c.flags = 0 ∧
    (∀ i, Tbl.look 0 c.dlt i = 0) ∧ maskOf c 0 = 0xFFFFFFFFFFFFFFFF ∧ (∀ i, 1 ≤ i → maskOf c i = 0) ∧
    (∀ r : Reg, scalarOf c r = 0)) ∧
  (∀ d, (dieAt s d).floor = 4 ∧ (dieAt s d).budget = 16384 ∧ (dieAt s d).dlim = 850)

/-- The slot words that the manual's worked examples encode to the bit decode, each in its slot, to the instruction the manual
says: one or more of every format. -/
def Obligations.WorkedWordsDecode : Prop :=
  decodeSlot .s0 0x011461C000000000 = .ok (.add 5 6 7 0) ∧
  decodeSlot .s1 0x1F24900000000040 = .ok (.addi 9 9 0x40) ∧
  decodeSlot .ctl 0x0600100200000010 = .ok (.loop 0 1 2 0x10) ∧
  decodeSlot .ctl 0x2000000000000040 = .ok (.prePt 0x40) ∧
  decodeSlot .mem 0x0314601200000800 = .ok (.ldX 5 6 ⟨0, 0, false⟩ true false 2 0x800) ∧
  decodeSlot .mem 0x0304224000000000 = .ok (.ldX 1 2 ⟨2, 1, false⟩ false false 0 0) ∧
  decodeSlot .mem 0x1964F1C925420040 = .ok (.cpG 25 15 7 9 true false true 8 64 ⟨2, 1, false⟩) ∧
  decodeSlot .mem 0x4671A6D900000000 = .ok (.rngResOr 28 26 27 25 0) ∧
  decodeSlot .vec 0x24144000000FFF80 = .ok (.vsh 5 4 0 0 false 0xFFF80) ∧
  decodeSlot .vec 0x3910900000000000 = .ok (.rcwUpd 4 9 0 0 0 0) ∧
  decodeSlot .vec 0x4030A10B00000002 = .ok (.cmxPack 12 10 4 11 false 2 0) ∧
  decodeSlot .vec 0x4360004610000000 = .ok (.ntfX 24 0 1 6 0 1) ∧
  decodeSlot .mtx 0x0118200704000040 = .ok (.mmIp 6 2 0 7 false false 4 false false false 0x40) ∧
  decodeSlot .mtx 0x0118200904010440 = .ok (.mmIp 6 2 0 9 false false 4 true false false 0x440) ∧
  decodeSlot .mtx 0x011C535C4C000010 = .ok (.mmOp 7 5 13 28 false false 12 false false false 0x10)
end

