-- ==== Sys2Proof/Laws/Memory.lean ====
section
/-! SUPPORT. Laws of tables and of memory: reading after writing, and the canonical form that every memory operation
keeps. -/

namespace Sys2Proof.Machine

/-! ### Tables -/

@[simp] theorem Tbl.look_nil {α : Type} (d : α) (k : Nat) : Tbl.look d [] k = d := rfl

@[simp] theorem Tbl.look_put_same {α : Type} (d : α) (t : Tbl α) (k : Nat) (v : α) :
    Tbl.look d (Tbl.put t k v) k = v := by
  induction t with
  | nil => simp [Tbl.put, Tbl.look]
  | cons e t ih =>
    obtain ⟨j, w⟩ := e
    simp only [Tbl.put]
    split
    · simp [Tbl.look]
    · split
      · simp [Tbl.look]
      · simp [Tbl.look, *]

theorem Tbl.look_put_other {α : Type} (d : α) (t : Tbl α) {k j : Nat} (v : α) (h : j ≠ k) :
    Tbl.look d (Tbl.put t k v) j = Tbl.look d t j := by
  induction t with
  | nil => simp [Tbl.put, Tbl.look, Ne.symm h]
  | cons e t ih =>
    obtain ⟨i, w⟩ := e
    simp only [Tbl.put]
    split
    · subst_vars; simp [Tbl.look, Ne.symm h]
    · split
      · simp [Tbl.look, Ne.symm h]
      · simp only [Tbl.look, ih]

theorem Tbl.look_put {α : Type} (d : α) (t : Tbl α) (k j : Nat) (v : α) :
    Tbl.look d (Tbl.put t k v) j = if j = k then v else Tbl.look d t j := by
  split
  · subst_vars; simp
  · exact Tbl.look_put_other d t v ‹_›

@[simp] theorem Tbl.find_put_same {α : Type} (t : Tbl α) (k : Nat) (v : α) : Tbl.find (Tbl.put t k v) k = some v := by
  induction t with
  | nil => simp [Tbl.put, Tbl.find]
  | cons e t ih =>
    obtain ⟨j, w⟩ := e
    simp only [Tbl.put]
    split
    · simp [Tbl.find]
    · split
      · simp [Tbl.find]
      · simp [Tbl.find, *]

theorem Tbl.find_put_other {α : Type} (t : Tbl α) {k j : Nat} (v : α) (h : j ≠ k) :
    Tbl.find (Tbl.put t k v) j = Tbl.find t j := by
  induction t with
  | nil => simp [Tbl.put, Tbl.find, Ne.symm h]
  | cons e t ih =>
    obtain ⟨i, w⟩ := e
    simp only [Tbl.put]
    split
    · subst_vars; simp [Tbl.find, Ne.symm h]
    · split
      · simp [Tbl.find, Ne.symm h]
      · simp only [Tbl.find, ih]

theorem Tbl.look_find {α : Type} (d : α) (t : Tbl α) (k : Nat) : Tbl.look d t k = (Tbl.find t k).getD d := by
  induction t with
  | nil => rfl
  | cons e t ih =>
    obtain ⟨i, w⟩ := e
    simp only [Tbl.look, Tbl.find]
    split <;> simp [*]

/-! ### The canonical form -/

theorem memWfFrom_mono {lo lo' : Nat} {m : List Host.Cell} (h : memWfFrom lo m = true) (hl : lo' ≤ lo) :
    memWfFrom lo' m = true := by
  cases m with
  | nil => rfl
  | cons c m =>
    obtain ⟨a, v⟩ := c
    simp only [memWfFrom, Bool.and_eq_true, decide_eq_true_eq] at h ⊢
    exact ⟨⟨by omega, h.1.2⟩, h.2⟩

/-- Storing one byte keeps the canonical form. -/
theorem memPut_wfFrom {lo a : Nat} {m : List Host.Cell} {v : Byte} (h : memWfFrom lo m = true) (hl : lo ≤ a) :
    memWfFrom lo (memPut m a v) = true := by
  induction m generalizing lo with
  | nil =>
    simp only [memPut]
    split
    · rfl
    · simpa [memWfFrom] using ⟨hl, ‹_›⟩
  | cons c m ih =>
    obtain ⟨b, w⟩ := c
    have h' := h
    simp only [memWfFrom, Bool.and_eq_true, decide_eq_true_eq] at h
    simp only [memPut]
    split
    · split
      · exact h'
      · simp only [memWfFrom, Bool.and_eq_true, decide_eq_true_eq, bne_iff_ne, ne_eq]
        exact ⟨⟨hl, ‹_›⟩, ⟨by omega, by simpa using h.1.2⟩, h.2⟩
    · split
      · split
        · exact memWfFrom_mono h.2 (by omega)
        · simp only [memWfFrom, Bool.and_eq_true, decide_eq_true_eq, bne_iff_ne, ne_eq]
          subst_vars
          exact ⟨⟨hl, ‹_›⟩, h.2⟩
      · simp only [memWfFrom, Bool.and_eq_true, decide_eq_true_eq]
        exact ⟨⟨h.1.1, h.1.2⟩, ih h.2 (by omega)⟩

theorem memPut_wf {m : List Host.Cell} (a : Nat) (v : Byte) (h : Memory.wf m = true) : Memory.wf (memPut m a v) = true :=
  memPut_wfFrom h (Nat.zero_le a)

/-- Storing bytes in order keeps the canonical form. -/
theorem memPuts_wf {m : List Host.Cell} (l : List Host.Cell) (h : Memory.wf m = true) :
    Memory.wf (memPuts m l) = true := by
  induction l generalizing m with
  | nil => exact h
  | cons c l ih => exact ih (memPut_wf c.1 c.2 h)

theorem memWfFrom_filter {lo : Nat} {m : List Host.Cell} (p : Host.Cell → Bool) (h : memWfFrom lo m = true) :
    memWfFrom lo (m.filter p) = true := by
  induction m generalizing lo with
  | nil => rfl
  | cons c m ih =>
    obtain ⟨a, v⟩ := c
    simp only [memWfFrom, Bool.and_eq_true, decide_eq_true_eq] at h
    simp only [List.filter_cons]
    split
    · simp only [memWfFrom, Bool.and_eq_true, decide_eq_true_eq]
      exact ⟨h.1, ih h.2⟩
    · exact memWfFrom_mono (ih h.2) (by omega)

/-- Clearing a span keeps the canonical form. -/
theorem memClear_wf {m : List Host.Cell} (a n : Nat) (h : Memory.wf m = true) : Memory.wf (memClear m a n) = true :=
  memWfFrom_filter _ h

@[simp] theorem wf_nil : Memory.wf [] = true := rfl

/-! ### Reading after writing -/

theorem memByte_below {lo a : Nat} {m : List Host.Cell} (h : memWfFrom lo m = true) (ha : a < lo) :
    memByte m a = unlisted := by
  induction m generalizing lo with
  | nil => rfl
  | cons c m ih =>
    obtain ⟨b, w⟩ := c
    simp only [memWfFrom, Bool.and_eq_true, decide_eq_true_eq] at h
    simp only [memByte]
    split
    · omega
    · exact ih h.2 (by omega)

theorem memByte_memPut_same {lo : Nat} {m : List Host.Cell} (a : Nat) (v : Byte) (h : memWfFrom lo m = true) :
    memByte (memPut m a v) a = v := by
  induction m generalizing lo with
  | nil =>
    simp only [memPut]
    split
    · simp [memByte, *]
    · simp [memByte]
  | cons c m ih =>
    obtain ⟨b, w⟩ := c
    simp only [memWfFrom, Bool.and_eq_true, decide_eq_true_eq] at h
    simp only [memPut]
    split
    · split
      · simp only [memByte]
        split
        · omega
        · exact (memByte_below h.2 (by omega)).trans (Eq.symm ‹_›)
      · simp [memByte]
    · split
      · split
        · subst_vars; exact memByte_below h.2 (by omega)
        · simp [memByte]
      · simp only [memByte]
        split
        · omega
        · exact ih h.2

theorem memByte_memPut_other (m : List Host.Cell) {a x : Nat} (v : Byte) (hx : x ≠ a) :
    memByte (memPut m a v) x = memByte m x := by
  induction m with
  | nil =>
    simp only [memPut]
    split
    · rfl
    · simp [memByte, Ne.symm hx]
  | cons c m ih =>
    obtain ⟨b, w⟩ := c
    simp only [memPut]
    split
    · split
      · rfl
      · simp [memByte, Ne.symm hx]
    · split
      · subst_vars
        split
        · simp [memByte, Ne.symm hx]
        · simp [memByte, Ne.symm hx]
      · simp only [memByte, ih]

/-- Storing bytes leaves every address that the store does not name as it was. -/
theorem memByte_memPuts_other (m : List Host.Cell) (l : List Host.Cell) {x : Nat} (hx : ∀ c ∈ l, c.1 ≠ x) :
    memByte (memPuts m l) x = memByte m x := by
  induction l generalizing m with
  | nil => rfl
  | cons c l ih =>
    obtain ⟨a, v⟩ := c
    rw [memPuts, ih _ (fun c hc => hx c (List.mem_cons_of_mem _ hc)),
      memByte_memPut_other _ _ (Ne.symm (hx (a, v) (List.mem_cons_self ..)))]

theorem mem_cellsAt {a : Nat} {b : List Byte} {c : Host.Cell} (h : c ∈ cellsAt a b) : a ≤ c.1 ∧ c.1 < a + b.length := by
  induction b generalizing a with
  | nil => simp [cellsAt] at h
  | cons v b ih =>
    simp only [cellsAt, List.mem_cons] at h
    rcases h with rfl | h
    · simp
    · have := ih h
      simp only [List.length_cons]
      omega

/-- Storing bytes from `a` on leaves every other address as it was. -/
theorem memByte_store_other (m : List Host.Cell) (a : Nat) (b : List Byte) {x : Nat} (hx : x < a ∨ a + b.length ≤ x) :
    memByte (memPuts m (cellsAt a b)) x = memByte m x :=
  memByte_memPuts_other m _ (fun c hc => by have := mem_cellsAt hc; omega)

/-- What is stored from `a` on is what is read there. -/
theorem memBytes_store {m : List Host.Cell} (a : Nat) (b : List Byte) (h : Memory.wf m = true) :
    memBytes (memPuts m (cellsAt a b)) a b.length = b := by
  induction b generalizing m a with
  | nil => rfl
  | cons v b ih =>
    simp only [cellsAt, memPuts, List.length_cons, memBytes]
    have hw : Memory.wf (memPut m a v) = true := memPut_wf a v h
    rw [memByte_store_other _ _ _ (Or.inl (by omega)), memByte_memPut_same a v h, ih (a + 1) hw]

@[simp] theorem memBytes_length (m : List Host.Cell) (a n : Nat) : (memBytes m a n).length = n := by
  induction n generalizing a with
  | zero => rfl
  | succ n ih => simp [memBytes, ih]

@[simp] theorem toBytes_length (n v : Nat) : (toBytes n v).length = n := by
  induction n generalizing v with
  | zero => rfl
  | succ n ih => simp [toBytes, ih]

theorem ofBytes_toBytes (n v : Nat) : ofBytes (toBytes n v) = v % 256 ^ n := by
  induction n generalizing v with
  | zero => simp [toBytes, ofBytes, Nat.mod_one]
  | succ n ih =>
    simp only [toBytes, ofBytes, ih, BitVec.toNat_ofNat]
    rw [show 256 ^ (n + 1) = 256 * 256 ^ n by ring, Nat.mod_mul]

end Sys2Proof.Machine
end

