-- ==== Sys2Proof/Laws/State.lean ====
section
/-! SUPPORT. What each update of the state leaves: one lemma for each field and update, and what a core, a context and
the executing context are after it. -/

namespace Sys2Proof.Machine

/-! ### `setCore` -/

@[simp] theorem setCore_time (s : State) (n : Nat) (c : CoreSt) : (setCore s n c).time = s.time := rfl
@[simp] theorem setCore_refills (s : State) (n : Nat) (c : CoreSt) : (setCore s n c).refills = s.refills := rfl
@[simp] theorem setCore_epochs (s : State) (n : Nat) (c : CoreSt) : (setCore s n c).epochs = s.epochs := rfl
@[simp] theorem setCore_mem (s : State) (n : Nat) (c : CoreSt) : (setCore s n c).mem = s.mem := rfl
@[simp] theorem setCore_cur (s : State) (n : Nat) (c : CoreSt) : (setCore s n c).cur = s.cur := rfl
@[simp] theorem setCore_fly (s : State) (n : Nat) (c : CoreSt) : (setCore s n c).fly = s.fly := rfl
@[simp] theorem setCore_agenda (s : State) (n : Nat) (c : CoreSt) : (setCore s n c).agenda = s.agenda := rfl
@[simp] theorem setCore_via (s : State) (n : Nat) (c : CoreSt) : (setCore s n c).via = s.via := rfl
@[simp] theorem setCore_fresh (s : State) (n : Nat) (c : CoreSt) : (setCore s n c).fresh = s.fresh := rfl
@[simp] theorem setCore_ops (s : State) (n : Nat) (c : CoreSt) : (setCore s n c).ops = s.ops := rfl
@[simp] theorem setCore_reqs (s : State) (n : Nat) (c : CoreSt) : (setCore s n c).reqs = s.reqs := rfl
@[simp] theorem setCore_nextReq (s : State) (n : Nat) (c : CoreSt) : (setCore s n c).nextReq = s.nextReq := rfl
@[simp] theorem setCore_clusters (s : State) (n : Nat) (c : CoreSt) : (setCore s n c).clusters = s.clusters := rfl
@[simp] theorem setCore_dies (s : State) (n : Nat) (c : CoreSt) : (setCore s n c).dies = s.dies := rfl
@[simp] theorem setCore_slices (s : State) (n : Nat) (c : CoreSt) : (setCore s n c).slices = s.slices := rfl
@[simp] theorem setCore_packets (s : State) (n : Nat) (c : CoreSt) : (setCore s n c).packets = s.packets := rfl
@[simp] theorem setCore_grants (s : State) (n : Nat) (c : CoreSt) : (setCore s n c).grants = s.grants := rfl
@[simp] theorem setCore_groups (s : State) (n : Nat) (c : CoreSt) : (setCore s n c).groups = s.groups := rfl
@[simp] theorem setCore_pins (s : State) (n : Nat) (c : CoreSt) : (setCore s n c).pins = s.pins := rfl
@[simp] theorem setCore_outbound (s : State) (n : Nat) (c : CoreSt) : (setCore s n c).outbound = s.outbound := rfl
@[simp] theorem setCore_edges (s : State) (n : Nat) (c : CoreSt) : (setCore s n c).edges = s.edges := rfl
@[simp] theorem setCore_ports (s : State) (n : Nat) (c : CoreSt) : (setCore s n c).ports = s.ports := rfl
@[simp] theorem setCore_qps (s : State) (n : Nat) (c : CoreSt) : (setCore s n c).qps = s.qps := rfl
@[simp] theorem setCore_qpRate (s : State) (n : Nat) (c : CoreSt) : (setCore s n c).qpRate = s.qpRate := rfl
@[simp] theorem setCore_windows (s : State) (n : Nat) (c : CoreSt) : (setCore s n c).windows = s.windows := rfl
@[simp] theorem setCore_dropped (s : State) (n : Nat) (c : CoreSt) : (setCore s n c).dropped = s.dropped := rfl
@[simp] theorem setCore_gen (s : State) (n : Nat) (c : CoreSt) : (setCore s n c).gen = s.gen := rfl
@[simp] theorem setCore_relocs (s : State) (n : Nat) (c : CoreSt) : (setCore s n c).relocs = s.relocs := rfl
@[simp] theorem setCore_drtb (s : State) (n : Nat) (c : CoreSt) : (setCore s n c).drtb = s.drtb := rfl
@[simp] theorem setCore_launches (s : State) (n : Nat) (c : CoreSt) : (setCore s n c).launches = s.launches := rfl
@[simp] theorem setCore_nextLaunch (s : State) (n : Nat) (c : CoreSt) : (setCore s n c).nextLaunch = s.nextLaunch := rfl
@[simp] theorem setCore_queues (s : State) (n : Nat) (c : CoreSt) : (setCore s n c).queues = s.queues := rfl
@[simp] theorem setCore_rr (s : State) (n : Nat) (c : CoreSt) : (setCore s n c).rr = s.rr := rfl
@[simp] theorem setCore_fills (s : State) (n : Nat) (c : CoreSt) : (setCore s n c).fills = s.fills := rfl
@[simp] theorem setCore_hyst (s : State) (n : Nat) (c : CoreSt) : (setCore s n c).hyst = s.hyst := rfl
@[simp] theorem setCore_shared (s : State) (n : Nat) (c : CoreSt) : (setCore s n c).shared = s.shared := rfl
@[simp] theorem setCore_trapva (s : State) (n : Nat) (c : CoreSt) : (setCore s n c).trapva = s.trapva := rfl
@[simp] theorem setCore_hvec (s : State) (n : Nat) (c : CoreSt) : (setCore s n c).hvec = s.hvec := rfl
@[simp] theorem setCore_prewait (s : State) (n : Nat) (c : CoreSt) : (setCore s n c).prewait = s.prewait := rfl
@[simp] theorem setCore_rlogb (s : State) (n : Nat) (c : CoreSt) : (setCore s n c).rlogb = s.rlogb := rfl
@[simp] theorem setCore_edgeSlk (s : State) (n : Nat) (c : CoreSt) : (setCore s n c).edgeSlk = s.edgeSlk := rfl
@[simp] theorem setCore_mgmtLate (s : State) (n : Nat) (c : CoreSt) : (setCore s n c).mgmtLate = s.mgmtLate := rfl
@[simp] theorem setCore_corrected (s : State) (n : Nat) (c : CoreSt) : (setCore s n c).corrected = s.corrected := rfl
@[simp] theorem setCore_pfc (s : State) (n : Nat) (c : CoreSt) : (setCore s n c).pfc = s.pfc := rfl
@[simp] theorem setCore_rlogl (s : State) (n : Nat) (c : CoreSt) : (setCore s n c).rlogl = s.rlogl := rfl
@[simp] theorem setCore_replay (s : State) (n : Nat) (c : CoreSt) : (setCore s n c).replay = s.replay := rfl
@[simp] theorem setCore_ftimeout (s : State) (n : Nat) (c : CoreSt) : (setCore s n c).ftimeout = s.ftimeout := rfl
@[simp] theorem setCore_rlog (s : State) (n : Nat) (c : CoreSt) : (setCore s n c).rlog = s.rlog := rfl
@[simp] theorem setCore_rplay (s : State) (n : Nat) (c : CoreSt) : (setCore s n c).rplay = s.rplay := rfl
@[simp] theorem setCore_device (s : State) (n : Nat) (c : CoreSt) : (setCore s n c).device = s.device := rfl
@[simp] theorem setCore_bringup (s : State) (n : Nat) (c : CoreSt) : (setCore s n c).bringup = s.bringup := rfl
@[simp] theorem setCore_failCode (s : State) (n : Nat) (c : CoreSt) : (setCore s n c).failCode = s.failCode := rfl
@[simp] theorem setCore_svn (s : State) (n : Nat) (c : CoreSt) : (setCore s n c).svn = s.svn := rfl
@[simp] theorem setCore_runSvn (s : State) (n : Nat) (c : CoreSt) : (setCore s n c).runSvn = s.runSvn := rfl
@[simp] theorem setCore_tripped (s : State) (n : Nat) (c : CoreSt) : (setCore s n c).tripped = s.tripped := rfl
@[simp] theorem setCore_step (s : State) (n : Nat) (c : CoreSt) : (setCore s n c).step = s.step := rfl
@[simp] theorem setCore_serial (s : State) (n : Nat) (c : CoreSt) : (setCore s n c).serial = s.serial := rfl
@[simp] theorem setCore_vendorKeyHash (s : State) (n : Nat) (c : CoreSt) : (setCore s n c).vendorKeyHash = s.vendorKeyHash := rfl
@[simp] theorem setCore_meas (s : State) (n : Nat) (c : CoreSt) : (setCore s n c).meas = s.meas := rfl
@[simp] theorem setCore_image (s : State) (n : Nat) (c : CoreSt) : (setCore s n c).image = s.image := rfl
@[simp] theorem setCore_powered (s : State) (n : Nat) (c : CoreSt) : (setCore s n c).powered = s.powered := rfl
@[simp] theorem setCore_inbox (s : State) (n : Nat) (c : CoreSt) : (setCore s n c).inbox = s.inbox := rfl
@[simp] theorem setCore_mlog (s : State) (n : Nat) (c : CoreSt) : (setCore s n c).mlog = s.mlog := rfl
@[simp] theorem setCore_answers (s : State) (n : Nat) (c : CoreSt) : (setCore s n c).answers = s.answers := rfl

/-! ### `setCtx` -/

@[simp] theorem setCtx_time (s : State) (n k : Nat) (x : Ctx) : (setCtx s n k x).time = s.time := rfl
@[simp] theorem setCtx_refills (s : State) (n k : Nat) (x : Ctx) : (setCtx s n k x).refills = s.refills := rfl
@[simp] theorem setCtx_epochs (s : State) (n k : Nat) (x : Ctx) : (setCtx s n k x).epochs = s.epochs := rfl
@[simp] theorem setCtx_mem (s : State) (n k : Nat) (x : Ctx) : (setCtx s n k x).mem = s.mem := rfl
@[simp] theorem setCtx_cur (s : State) (n k : Nat) (x : Ctx) : (setCtx s n k x).cur = s.cur := rfl
@[simp] theorem setCtx_fly (s : State) (n k : Nat) (x : Ctx) : (setCtx s n k x).fly = s.fly := rfl
@[simp] theorem setCtx_agenda (s : State) (n k : Nat) (x : Ctx) : (setCtx s n k x).agenda = s.agenda := rfl
@[simp] theorem setCtx_via (s : State) (n k : Nat) (x : Ctx) : (setCtx s n k x).via = s.via := rfl
@[simp] theorem setCtx_fresh (s : State) (n k : Nat) (x : Ctx) : (setCtx s n k x).fresh = s.fresh := rfl
@[simp] theorem setCtx_ops (s : State) (n k : Nat) (x : Ctx) : (setCtx s n k x).ops = s.ops := rfl
@[simp] theorem setCtx_reqs (s : State) (n k : Nat) (x : Ctx) : (setCtx s n k x).reqs = s.reqs := rfl
@[simp] theorem setCtx_nextReq (s : State) (n k : Nat) (x : Ctx) : (setCtx s n k x).nextReq = s.nextReq := rfl
@[simp] theorem setCtx_clusters (s : State) (n k : Nat) (x : Ctx) : (setCtx s n k x).clusters = s.clusters := rfl
@[simp] theorem setCtx_dies (s : State) (n k : Nat) (x : Ctx) : (setCtx s n k x).dies = s.dies := rfl
@[simp] theorem setCtx_slices (s : State) (n k : Nat) (x : Ctx) : (setCtx s n k x).slices = s.slices := rfl
@[simp] theorem setCtx_packets (s : State) (n k : Nat) (x : Ctx) : (setCtx s n k x).packets = s.packets := rfl
@[simp] theorem setCtx_grants (s : State) (n k : Nat) (x : Ctx) : (setCtx s n k x).grants = s.grants := rfl
@[simp] theorem setCtx_groups (s : State) (n k : Nat) (x : Ctx) : (setCtx s n k x).groups = s.groups := rfl
@[simp] theorem setCtx_pins (s : State) (n k : Nat) (x : Ctx) : (setCtx s n k x).pins = s.pins := rfl
@[simp] theorem setCtx_outbound (s : State) (n k : Nat) (x : Ctx) : (setCtx s n k x).outbound = s.outbound := rfl
@[simp] theorem setCtx_edges (s : State) (n k : Nat) (x : Ctx) : (setCtx s n k x).edges = s.edges := rfl
@[simp] theorem setCtx_ports (s : State) (n k : Nat) (x : Ctx) : (setCtx s n k x).ports = s.ports := rfl
@[simp] theorem setCtx_qps (s : State) (n k : Nat) (x : Ctx) : (setCtx s n k x).qps = s.qps := rfl
@[simp] theorem setCtx_qpRate (s : State) (n k : Nat) (x : Ctx) : (setCtx s n k x).qpRate = s.qpRate := rfl
@[simp] theorem setCtx_windows (s : State) (n k : Nat) (x : Ctx) : (setCtx s n k x).windows = s.windows := rfl
@[simp] theorem setCtx_dropped (s : State) (n k : Nat) (x : Ctx) : (setCtx s n k x).dropped = s.dropped := rfl
@[simp] theorem setCtx_gen (s : State) (n k : Nat) (x : Ctx) : (setCtx s n k x).gen = s.gen := rfl
@[simp] theorem setCtx_relocs (s : State) (n k : Nat) (x : Ctx) : (setCtx s n k x).relocs = s.relocs := rfl
@[simp] theorem setCtx_drtb (s : State) (n k : Nat) (x : Ctx) : (setCtx s n k x).drtb = s.drtb := rfl
@[simp] theorem setCtx_launches (s : State) (n k : Nat) (x : Ctx) : (setCtx s n k x).launches = s.launches := rfl
@[simp] theorem setCtx_nextLaunch (s : State) (n k : Nat) (x : Ctx) : (setCtx s n k x).nextLaunch = s.nextLaunch := rfl
@[simp] theorem setCtx_queues (s : State) (n k : Nat) (x : Ctx) : (setCtx s n k x).queues = s.queues := rfl
@[simp] theorem setCtx_rr (s : State) (n k : Nat) (x : Ctx) : (setCtx s n k x).rr = s.rr := rfl
@[simp] theorem setCtx_fills (s : State) (n k : Nat) (x : Ctx) : (setCtx s n k x).fills = s.fills := rfl
@[simp] theorem setCtx_hyst (s : State) (n k : Nat) (x : Ctx) : (setCtx s n k x).hyst = s.hyst := rfl
@[simp] theorem setCtx_shared (s : State) (n k : Nat) (x : Ctx) : (setCtx s n k x).shared = s.shared := rfl
@[simp] theorem setCtx_trapva (s : State) (n k : Nat) (x : Ctx) : (setCtx s n k x).trapva = s.trapva := rfl
@[simp] theorem setCtx_hvec (s : State) (n k : Nat) (x : Ctx) : (setCtx s n k x).hvec = s.hvec := rfl
@[simp] theorem setCtx_prewait (s : State) (n k : Nat) (x : Ctx) : (setCtx s n k x).prewait = s.prewait := rfl
@[simp] theorem setCtx_rlogb (s : State) (n k : Nat) (x : Ctx) : (setCtx s n k x).rlogb = s.rlogb := rfl
@[simp] theorem setCtx_edgeSlk (s : State) (n k : Nat) (x : Ctx) : (setCtx s n k x).edgeSlk = s.edgeSlk := rfl
@[simp] theorem setCtx_mgmtLate (s : State) (n k : Nat) (x : Ctx) : (setCtx s n k x).mgmtLate = s.mgmtLate := rfl
@[simp] theorem setCtx_corrected (s : State) (n k : Nat) (x : Ctx) : (setCtx s n k x).corrected = s.corrected := rfl
@[simp] theorem setCtx_pfc (s : State) (n k : Nat) (x : Ctx) : (setCtx s n k x).pfc = s.pfc := rfl
@[simp] theorem setCtx_rlogl (s : State) (n k : Nat) (x : Ctx) : (setCtx s n k x).rlogl = s.rlogl := rfl
@[simp] theorem setCtx_replay (s : State) (n k : Nat) (x : Ctx) : (setCtx s n k x).replay = s.replay := rfl
@[simp] theorem setCtx_ftimeout (s : State) (n k : Nat) (x : Ctx) : (setCtx s n k x).ftimeout = s.ftimeout := rfl
@[simp] theorem setCtx_rlog (s : State) (n k : Nat) (x : Ctx) : (setCtx s n k x).rlog = s.rlog := rfl
@[simp] theorem setCtx_rplay (s : State) (n k : Nat) (x : Ctx) : (setCtx s n k x).rplay = s.rplay := rfl
@[simp] theorem setCtx_device (s : State) (n k : Nat) (x : Ctx) : (setCtx s n k x).device = s.device := rfl
@[simp] theorem setCtx_bringup (s : State) (n k : Nat) (x : Ctx) : (setCtx s n k x).bringup = s.bringup := rfl
@[simp] theorem setCtx_failCode (s : State) (n k : Nat) (x : Ctx) : (setCtx s n k x).failCode = s.failCode := rfl
@[simp] theorem setCtx_svn (s : State) (n k : Nat) (x : Ctx) : (setCtx s n k x).svn = s.svn := rfl
@[simp] theorem setCtx_runSvn (s : State) (n k : Nat) (x : Ctx) : (setCtx s n k x).runSvn = s.runSvn := rfl
@[simp] theorem setCtx_tripped (s : State) (n k : Nat) (x : Ctx) : (setCtx s n k x).tripped = s.tripped := rfl
@[simp] theorem setCtx_step (s : State) (n k : Nat) (x : Ctx) : (setCtx s n k x).step = s.step := rfl
@[simp] theorem setCtx_serial (s : State) (n k : Nat) (x : Ctx) : (setCtx s n k x).serial = s.serial := rfl
@[simp] theorem setCtx_vendorKeyHash (s : State) (n k : Nat) (x : Ctx) : (setCtx s n k x).vendorKeyHash = s.vendorKeyHash := rfl
@[simp] theorem setCtx_meas (s : State) (n k : Nat) (x : Ctx) : (setCtx s n k x).meas = s.meas := rfl
@[simp] theorem setCtx_image (s : State) (n k : Nat) (x : Ctx) : (setCtx s n k x).image = s.image := rfl
@[simp] theorem setCtx_powered (s : State) (n k : Nat) (x : Ctx) : (setCtx s n k x).powered = s.powered := rfl
@[simp] theorem setCtx_inbox (s : State) (n k : Nat) (x : Ctx) : (setCtx s n k x).inbox = s.inbox := rfl
@[simp] theorem setCtx_mlog (s : State) (n k : Nat) (x : Ctx) : (setCtx s n k x).mlog = s.mlog := rfl
@[simp] theorem setCtx_answers (s : State) (n k : Nat) (x : Ctx) : (setCtx s n k x).answers = s.answers := rfl

/-! ### `withMe` -/

@[simp] theorem withMe_time (s : State) (f : Ctx → Ctx) : (withMe s f).time = s.time := rfl
@[simp] theorem withMe_refills (s : State) (f : Ctx → Ctx) : (withMe s f).refills = s.refills := rfl
@[simp] theorem withMe_epochs (s : State) (f : Ctx → Ctx) : (withMe s f).epochs = s.epochs := rfl
@[simp] theorem withMe_mem (s : State) (f : Ctx → Ctx) : (withMe s f).mem = s.mem := rfl
@[simp] theorem withMe_cur (s : State) (f : Ctx → Ctx) : (withMe s f).cur = s.cur := rfl
@[simp] theorem withMe_fly (s : State) (f : Ctx → Ctx) : (withMe s f).fly = s.fly := rfl
@[simp] theorem withMe_agenda (s : State) (f : Ctx → Ctx) : (withMe s f).agenda = s.agenda := rfl
@[simp] theorem withMe_via (s : State) (f : Ctx → Ctx) : (withMe s f).via = s.via := rfl
@[simp] theorem withMe_fresh (s : State) (f : Ctx → Ctx) : (withMe s f).fresh = s.fresh := rfl
@[simp] theorem withMe_ops (s : State) (f : Ctx → Ctx) : (withMe s f).ops = s.ops := rfl
@[simp] theorem withMe_reqs (s : State) (f : Ctx → Ctx) : (withMe s f).reqs = s.reqs := rfl
@[simp] theorem withMe_nextReq (s : State) (f : Ctx → Ctx) : (withMe s f).nextReq = s.nextReq := rfl
@[simp] theorem withMe_clusters (s : State) (f : Ctx → Ctx) : (withMe s f).clusters = s.clusters := rfl
@[simp] theorem withMe_dies (s : State) (f : Ctx → Ctx) : (withMe s f).dies = s.dies := rfl
@[simp] theorem withMe_slices (s : State) (f : Ctx → Ctx) : (withMe s f).slices = s.slices := rfl
@[simp] theorem withMe_packets (s : State) (f : Ctx → Ctx) : (withMe s f).packets = s.packets := rfl
@[simp] theorem withMe_grants (s : State) (f : Ctx → Ctx) : (withMe s f).grants = s.grants := rfl
@[simp] theorem withMe_groups (s : State) (f : Ctx → Ctx) : (withMe s f).groups = s.groups := rfl
@[simp] theorem withMe_pins (s : State) (f : Ctx → Ctx) : (withMe s f).pins = s.pins := rfl
@[simp] theorem withMe_outbound (s : State) (f : Ctx → Ctx) : (withMe s f).outbound = s.outbound := rfl
@[simp] theorem withMe_edges (s : State) (f : Ctx → Ctx) : (withMe s f).edges = s.edges := rfl
@[simp] theorem withMe_ports (s : State) (f : Ctx → Ctx) : (withMe s f).ports = s.ports := rfl
@[simp] theorem withMe_qps (s : State) (f : Ctx → Ctx) : (withMe s f).qps = s.qps := rfl
@[simp] theorem withMe_qpRate (s : State) (f : Ctx → Ctx) : (withMe s f).qpRate = s.qpRate := rfl
@[simp] theorem withMe_windows (s : State) (f : Ctx → Ctx) : (withMe s f).windows = s.windows := rfl
@[simp] theorem withMe_dropped (s : State) (f : Ctx → Ctx) : (withMe s f).dropped = s.dropped := rfl
@[simp] theorem withMe_gen (s : State) (f : Ctx → Ctx) : (withMe s f).gen = s.gen := rfl
@[simp] theorem withMe_relocs (s : State) (f : Ctx → Ctx) : (withMe s f).relocs = s.relocs := rfl
@[simp] theorem withMe_drtb (s : State) (f : Ctx → Ctx) : (withMe s f).drtb = s.drtb := rfl
@[simp] theorem withMe_launches (s : State) (f : Ctx → Ctx) : (withMe s f).launches = s.launches := rfl
@[simp] theorem withMe_nextLaunch (s : State) (f : Ctx → Ctx) : (withMe s f).nextLaunch = s.nextLaunch := rfl
@[simp] theorem withMe_queues (s : State) (f : Ctx → Ctx) : (withMe s f).queues = s.queues := rfl
@[simp] theorem withMe_rr (s : State) (f : Ctx → Ctx) : (withMe s f).rr = s.rr := rfl
@[simp] theorem withMe_fills (s : State) (f : Ctx → Ctx) : (withMe s f).fills = s.fills := rfl
@[simp] theorem withMe_hyst (s : State) (f : Ctx → Ctx) : (withMe s f).hyst = s.hyst := rfl
@[simp] theorem withMe_shared (s : State) (f : Ctx → Ctx) : (withMe s f).shared = s.shared := rfl
@[simp] theorem withMe_trapva (s : State) (f : Ctx → Ctx) : (withMe s f).trapva = s.trapva := rfl
@[simp] theorem withMe_hvec (s : State) (f : Ctx → Ctx) : (withMe s f).hvec = s.hvec := rfl
@[simp] theorem withMe_prewait (s : State) (f : Ctx → Ctx) : (withMe s f).prewait = s.prewait := rfl
@[simp] theorem withMe_rlogb (s : State) (f : Ctx → Ctx) : (withMe s f).rlogb = s.rlogb := rfl
@[simp] theorem withMe_edgeSlk (s : State) (f : Ctx → Ctx) : (withMe s f).edgeSlk = s.edgeSlk := rfl
@[simp] theorem withMe_mgmtLate (s : State) (f : Ctx → Ctx) : (withMe s f).mgmtLate = s.mgmtLate := rfl
@[simp] theorem withMe_corrected (s : State) (f : Ctx → Ctx) : (withMe s f).corrected = s.corrected := rfl
@[simp] theorem withMe_pfc (s : State) (f : Ctx → Ctx) : (withMe s f).pfc = s.pfc := rfl
@[simp] theorem withMe_rlogl (s : State) (f : Ctx → Ctx) : (withMe s f).rlogl = s.rlogl := rfl
@[simp] theorem withMe_replay (s : State) (f : Ctx → Ctx) : (withMe s f).replay = s.replay := rfl
@[simp] theorem withMe_ftimeout (s : State) (f : Ctx → Ctx) : (withMe s f).ftimeout = s.ftimeout := rfl
@[simp] theorem withMe_rlog (s : State) (f : Ctx → Ctx) : (withMe s f).rlog = s.rlog := rfl
@[simp] theorem withMe_rplay (s : State) (f : Ctx → Ctx) : (withMe s f).rplay = s.rplay := rfl
@[simp] theorem withMe_device (s : State) (f : Ctx → Ctx) : (withMe s f).device = s.device := rfl
@[simp] theorem withMe_bringup (s : State) (f : Ctx → Ctx) : (withMe s f).bringup = s.bringup := rfl
@[simp] theorem withMe_failCode (s : State) (f : Ctx → Ctx) : (withMe s f).failCode = s.failCode := rfl
@[simp] theorem withMe_svn (s : State) (f : Ctx → Ctx) : (withMe s f).svn = s.svn := rfl
@[simp] theorem withMe_runSvn (s : State) (f : Ctx → Ctx) : (withMe s f).runSvn = s.runSvn := rfl
@[simp] theorem withMe_tripped (s : State) (f : Ctx → Ctx) : (withMe s f).tripped = s.tripped := rfl
@[simp] theorem withMe_step (s : State) (f : Ctx → Ctx) : (withMe s f).step = s.step := rfl
@[simp] theorem withMe_serial (s : State) (f : Ctx → Ctx) : (withMe s f).serial = s.serial := rfl
@[simp] theorem withMe_vendorKeyHash (s : State) (f : Ctx → Ctx) : (withMe s f).vendorKeyHash = s.vendorKeyHash := rfl
@[simp] theorem withMe_meas (s : State) (f : Ctx → Ctx) : (withMe s f).meas = s.meas := rfl
@[simp] theorem withMe_image (s : State) (f : Ctx → Ctx) : (withMe s f).image = s.image := rfl
@[simp] theorem withMe_powered (s : State) (f : Ctx → Ctx) : (withMe s f).powered = s.powered := rfl
@[simp] theorem withMe_inbox (s : State) (f : Ctx → Ctx) : (withMe s f).inbox = s.inbox := rfl
@[simp] theorem withMe_mlog (s : State) (f : Ctx → Ctx) : (withMe s f).mlog = s.mlog := rfl
@[simp] theorem withMe_answers (s : State) (f : Ctx → Ctx) : (withMe s f).answers = s.answers := rfl

/-! ### `withHere` -/

@[simp] theorem withHere_time (s : State) (f : CoreSt → CoreSt) : (withHere s f).time = s.time := rfl
@[simp] theorem withHere_refills (s : State) (f : CoreSt → CoreSt) : (withHere s f).refills = s.refills := rfl
@[simp] theorem withHere_epochs (s : State) (f : CoreSt → CoreSt) : (withHere s f).epochs = s.epochs := rfl
@[simp] theorem withHere_mem (s : State) (f : CoreSt → CoreSt) : (withHere s f).mem = s.mem := rfl
@[simp] theorem withHere_cur (s : State) (f : CoreSt → CoreSt) : (withHere s f).cur = s.cur := rfl
@[simp] theorem withHere_fly (s : State) (f : CoreSt → CoreSt) : (withHere s f).fly = s.fly := rfl
@[simp] theorem withHere_agenda (s : State) (f : CoreSt → CoreSt) : (withHere s f).agenda = s.agenda := rfl
@[simp] theorem withHere_via (s : State) (f : CoreSt → CoreSt) : (withHere s f).via = s.via := rfl
@[simp] theorem withHere_fresh (s : State) (f : CoreSt → CoreSt) : (withHere s f).fresh = s.fresh := rfl
@[simp] theorem withHere_ops (s : State) (f : CoreSt → CoreSt) : (withHere s f).ops = s.ops := rfl
@[simp] theorem withHere_reqs (s : State) (f : CoreSt → CoreSt) : (withHere s f).reqs = s.reqs := rfl
@[simp] theorem withHere_nextReq (s : State) (f : CoreSt → CoreSt) : (withHere s f).nextReq = s.nextReq := rfl
@[simp] theorem withHere_clusters (s : State) (f : CoreSt → CoreSt) : (withHere s f).clusters = s.clusters := rfl
@[simp] theorem withHere_dies (s : State) (f : CoreSt → CoreSt) : (withHere s f).dies = s.dies := rfl
@[simp] theorem withHere_slices (s : State) (f : CoreSt → CoreSt) : (withHere s f).slices = s.slices := rfl
@[simp] theorem withHere_packets (s : State) (f : CoreSt → CoreSt) : (withHere s f).packets = s.packets := rfl
@[simp] theorem withHere_grants (s : State) (f : CoreSt → CoreSt) : (withHere s f).grants = s.grants := rfl
@[simp] theorem withHere_groups (s : State) (f : CoreSt → CoreSt) : (withHere s f).groups = s.groups := rfl
@[simp] theorem withHere_pins (s : State) (f : CoreSt → CoreSt) : (withHere s f).pins = s.pins := rfl
@[simp] theorem withHere_outbound (s : State) (f : CoreSt → CoreSt) : (withHere s f).outbound = s.outbound := rfl
@[simp] theorem withHere_edges (s : State) (f : CoreSt → CoreSt) : (withHere s f).edges = s.edges := rfl
@[simp] theorem withHere_ports (s : State) (f : CoreSt → CoreSt) : (withHere s f).ports = s.ports := rfl
@[simp] theorem withHere_qps (s : State) (f : CoreSt → CoreSt) : (withHere s f).qps = s.qps := rfl
@[simp] theorem withHere_qpRate (s : State) (f : CoreSt → CoreSt) : (withHere s f).qpRate = s.qpRate := rfl
@[simp] theorem withHere_windows (s : State) (f : CoreSt → CoreSt) : (withHere s f).windows = s.windows := rfl
@[simp] theorem withHere_dropped (s : State) (f : CoreSt → CoreSt) : (withHere s f).dropped = s.dropped := rfl
@[simp] theorem withHere_gen (s : State) (f : CoreSt → CoreSt) : (withHere s f).gen = s.gen := rfl
@[simp] theorem withHere_relocs (s : State) (f : CoreSt → CoreSt) : (withHere s f).relocs = s.relocs := rfl
@[simp] theorem withHere_drtb (s : State) (f : CoreSt → CoreSt) : (withHere s f).drtb = s.drtb := rfl
@[simp] theorem withHere_launches (s : State) (f : CoreSt → CoreSt) : (withHere s f).launches = s.launches := rfl
@[simp] theorem withHere_nextLaunch (s : State) (f : CoreSt → CoreSt) : (withHere s f).nextLaunch = s.nextLaunch := rfl
@[simp] theorem withHere_queues (s : State) (f : CoreSt → CoreSt) : (withHere s f).queues = s.queues := rfl
@[simp] theorem withHere_rr (s : State) (f : CoreSt → CoreSt) : (withHere s f).rr = s.rr := rfl
@[simp] theorem withHere_fills (s : State) (f : CoreSt → CoreSt) : (withHere s f).fills = s.fills := rfl
@[simp] theorem withHere_hyst (s : State) (f : CoreSt → CoreSt) : (withHere s f).hyst = s.hyst := rfl
@[simp] theorem withHere_shared (s : State) (f : CoreSt → CoreSt) : (withHere s f).shared = s.shared := rfl
@[simp] theorem withHere_trapva (s : State) (f : CoreSt → CoreSt) : (withHere s f).trapva = s.trapva := rfl
@[simp] theorem withHere_hvec (s : State) (f : CoreSt → CoreSt) : (withHere s f).hvec = s.hvec := rfl
@[simp] theorem withHere_prewait (s : State) (f : CoreSt → CoreSt) : (withHere s f).prewait = s.prewait := rfl
@[simp] theorem withHere_rlogb (s : State) (f : CoreSt → CoreSt) : (withHere s f).rlogb = s.rlogb := rfl
@[simp] theorem withHere_edgeSlk (s : State) (f : CoreSt → CoreSt) : (withHere s f).edgeSlk = s.edgeSlk := rfl
@[simp] theorem withHere_mgmtLate (s : State) (f : CoreSt → CoreSt) : (withHere s f).mgmtLate = s.mgmtLate := rfl
@[simp] theorem withHere_corrected (s : State) (f : CoreSt → CoreSt) : (withHere s f).corrected = s.corrected := rfl
@[simp] theorem withHere_pfc (s : State) (f : CoreSt → CoreSt) : (withHere s f).pfc = s.pfc := rfl
@[simp] theorem withHere_rlogl (s : State) (f : CoreSt → CoreSt) : (withHere s f).rlogl = s.rlogl := rfl
@[simp] theorem withHere_replay (s : State) (f : CoreSt → CoreSt) : (withHere s f).replay = s.replay := rfl
@[simp] theorem withHere_ftimeout (s : State) (f : CoreSt → CoreSt) : (withHere s f).ftimeout = s.ftimeout := rfl
@[simp] theorem withHere_rlog (s : State) (f : CoreSt → CoreSt) : (withHere s f).rlog = s.rlog := rfl
@[simp] theorem withHere_rplay (s : State) (f : CoreSt → CoreSt) : (withHere s f).rplay = s.rplay := rfl
@[simp] theorem withHere_device (s : State) (f : CoreSt → CoreSt) : (withHere s f).device = s.device := rfl
@[simp] theorem withHere_bringup (s : State) (f : CoreSt → CoreSt) : (withHere s f).bringup = s.bringup := rfl
@[simp] theorem withHere_failCode (s : State) (f : CoreSt → CoreSt) : (withHere s f).failCode = s.failCode := rfl
@[simp] theorem withHere_svn (s : State) (f : CoreSt → CoreSt) : (withHere s f).svn = s.svn := rfl
@[simp] theorem withHere_runSvn (s : State) (f : CoreSt → CoreSt) : (withHere s f).runSvn = s.runSvn := rfl
@[simp] theorem withHere_tripped (s : State) (f : CoreSt → CoreSt) : (withHere s f).tripped = s.tripped := rfl
@[simp] theorem withHere_step (s : State) (f : CoreSt → CoreSt) : (withHere s f).step = s.step := rfl
@[simp] theorem withHere_serial (s : State) (f : CoreSt → CoreSt) : (withHere s f).serial = s.serial := rfl
@[simp] theorem withHere_vendorKeyHash (s : State) (f : CoreSt → CoreSt) : (withHere s f).vendorKeyHash = s.vendorKeyHash := rfl
@[simp] theorem withHere_meas (s : State) (f : CoreSt → CoreSt) : (withHere s f).meas = s.meas := rfl
@[simp] theorem withHere_image (s : State) (f : CoreSt → CoreSt) : (withHere s f).image = s.image := rfl
@[simp] theorem withHere_powered (s : State) (f : CoreSt → CoreSt) : (withHere s f).powered = s.powered := rfl
@[simp] theorem withHere_inbox (s : State) (f : CoreSt → CoreSt) : (withHere s f).inbox = s.inbox := rfl
@[simp] theorem withHere_mlog (s : State) (f : CoreSt → CoreSt) : (withHere s f).mlog = s.mlog := rfl
@[simp] theorem withHere_answers (s : State) (f : CoreSt → CoreSt) : (withHere s f).answers = s.answers := rfl

/-! ### `withCtx` -/

@[simp] theorem withCtx_time (s : State) (n k : Nat) (f : Ctx → Ctx) : (withCtx s n k f).time = s.time := rfl
@[simp] theorem withCtx_refills (s : State) (n k : Nat) (f : Ctx → Ctx) : (withCtx s n k f).refills = s.refills := rfl
@[simp] theorem withCtx_epochs (s : State) (n k : Nat) (f : Ctx → Ctx) : (withCtx s n k f).epochs = s.epochs := rfl
@[simp] theorem withCtx_mem (s : State) (n k : Nat) (f : Ctx → Ctx) : (withCtx s n k f).mem = s.mem := rfl
@[simp] theorem withCtx_cur (s : State) (n k : Nat) (f : Ctx → Ctx) : (withCtx s n k f).cur = s.cur := rfl
@[simp] theorem withCtx_fly (s : State) (n k : Nat) (f : Ctx → Ctx) : (withCtx s n k f).fly = s.fly := rfl
@[simp] theorem withCtx_agenda (s : State) (n k : Nat) (f : Ctx → Ctx) : (withCtx s n k f).agenda = s.agenda := rfl
@[simp] theorem withCtx_via (s : State) (n k : Nat) (f : Ctx → Ctx) : (withCtx s n k f).via = s.via := rfl
@[simp] theorem withCtx_fresh (s : State) (n k : Nat) (f : Ctx → Ctx) : (withCtx s n k f).fresh = s.fresh := rfl
@[simp] theorem withCtx_ops (s : State) (n k : Nat) (f : Ctx → Ctx) : (withCtx s n k f).ops = s.ops := rfl
@[simp] theorem withCtx_reqs (s : State) (n k : Nat) (f : Ctx → Ctx) : (withCtx s n k f).reqs = s.reqs := rfl
@[simp] theorem withCtx_nextReq (s : State) (n k : Nat) (f : Ctx → Ctx) : (withCtx s n k f).nextReq = s.nextReq := rfl
@[simp] theorem withCtx_clusters (s : State) (n k : Nat) (f : Ctx → Ctx) : (withCtx s n k f).clusters = s.clusters := rfl
@[simp] theorem withCtx_dies (s : State) (n k : Nat) (f : Ctx → Ctx) : (withCtx s n k f).dies = s.dies := rfl
@[simp] theorem withCtx_slices (s : State) (n k : Nat) (f : Ctx → Ctx) : (withCtx s n k f).slices = s.slices := rfl
@[simp] theorem withCtx_packets (s : State) (n k : Nat) (f : Ctx → Ctx) : (withCtx s n k f).packets = s.packets := rfl
@[simp] theorem withCtx_grants (s : State) (n k : Nat) (f : Ctx → Ctx) : (withCtx s n k f).grants = s.grants := rfl
@[simp] theorem withCtx_groups (s : State) (n k : Nat) (f : Ctx → Ctx) : (withCtx s n k f).groups = s.groups := rfl
@[simp] theorem withCtx_pins (s : State) (n k : Nat) (f : Ctx → Ctx) : (withCtx s n k f).pins = s.pins := rfl
@[simp] theorem withCtx_outbound (s : State) (n k : Nat) (f : Ctx → Ctx) : (withCtx s n k f).outbound = s.outbound := rfl
@[simp] theorem withCtx_edges (s : State) (n k : Nat) (f : Ctx → Ctx) : (withCtx s n k f).edges = s.edges := rfl
@[simp] theorem withCtx_ports (s : State) (n k : Nat) (f : Ctx → Ctx) : (withCtx s n k f).ports = s.ports := rfl
@[simp] theorem withCtx_qps (s : State) (n k : Nat) (f : Ctx → Ctx) : (withCtx s n k f).qps = s.qps := rfl
@[simp] theorem withCtx_qpRate (s : State) (n k : Nat) (f : Ctx → Ctx) : (withCtx s n k f).qpRate = s.qpRate := rfl
@[simp] theorem withCtx_windows (s : State) (n k : Nat) (f : Ctx → Ctx) : (withCtx s n k f).windows = s.windows := rfl
@[simp] theorem withCtx_dropped (s : State) (n k : Nat) (f : Ctx → Ctx) : (withCtx s n k f).dropped = s.dropped := rfl
@[simp] theorem withCtx_gen (s : State) (n k : Nat) (f : Ctx → Ctx) : (withCtx s n k f).gen = s.gen := rfl
@[simp] theorem withCtx_relocs (s : State) (n k : Nat) (f : Ctx → Ctx) : (withCtx s n k f).relocs = s.relocs := rfl
@[simp] theorem withCtx_drtb (s : State) (n k : Nat) (f : Ctx → Ctx) : (withCtx s n k f).drtb = s.drtb := rfl
@[simp] theorem withCtx_launches (s : State) (n k : Nat) (f : Ctx → Ctx) : (withCtx s n k f).launches = s.launches := rfl
@[simp] theorem withCtx_nextLaunch (s : State) (n k : Nat) (f : Ctx → Ctx) : (withCtx s n k f).nextLaunch = s.nextLaunch := rfl
@[simp] theorem withCtx_queues (s : State) (n k : Nat) (f : Ctx → Ctx) : (withCtx s n k f).queues = s.queues := rfl
@[simp] theorem withCtx_rr (s : State) (n k : Nat) (f : Ctx → Ctx) : (withCtx s n k f).rr = s.rr := rfl
@[simp] theorem withCtx_fills (s : State) (n k : Nat) (f : Ctx → Ctx) : (withCtx s n k f).fills = s.fills := rfl
@[simp] theorem withCtx_hyst (s : State) (n k : Nat) (f : Ctx → Ctx) : (withCtx s n k f).hyst = s.hyst := rfl
@[simp] theorem withCtx_shared (s : State) (n k : Nat) (f : Ctx → Ctx) : (withCtx s n k f).shared = s.shared := rfl
@[simp] theorem withCtx_trapva (s : State) (n k : Nat) (f : Ctx → Ctx) : (withCtx s n k f).trapva = s.trapva := rfl
@[simp] theorem withCtx_hvec (s : State) (n k : Nat) (f : Ctx → Ctx) : (withCtx s n k f).hvec = s.hvec := rfl
@[simp] theorem withCtx_prewait (s : State) (n k : Nat) (f : Ctx → Ctx) : (withCtx s n k f).prewait = s.prewait := rfl
@[simp] theorem withCtx_rlogb (s : State) (n k : Nat) (f : Ctx → Ctx) : (withCtx s n k f).rlogb = s.rlogb := rfl
@[simp] theorem withCtx_edgeSlk (s : State) (n k : Nat) (f : Ctx → Ctx) : (withCtx s n k f).edgeSlk = s.edgeSlk := rfl
@[simp] theorem withCtx_mgmtLate (s : State) (n k : Nat) (f : Ctx → Ctx) : (withCtx s n k f).mgmtLate = s.mgmtLate := rfl
@[simp] theorem withCtx_corrected (s : State) (n k : Nat) (f : Ctx → Ctx) : (withCtx s n k f).corrected = s.corrected := rfl
@[simp] theorem withCtx_pfc (s : State) (n k : Nat) (f : Ctx → Ctx) : (withCtx s n k f).pfc = s.pfc := rfl
@[simp] theorem withCtx_rlogl (s : State) (n k : Nat) (f : Ctx → Ctx) : (withCtx s n k f).rlogl = s.rlogl := rfl
@[simp] theorem withCtx_replay (s : State) (n k : Nat) (f : Ctx → Ctx) : (withCtx s n k f).replay = s.replay := rfl
@[simp] theorem withCtx_ftimeout (s : State) (n k : Nat) (f : Ctx → Ctx) : (withCtx s n k f).ftimeout = s.ftimeout := rfl
@[simp] theorem withCtx_rlog (s : State) (n k : Nat) (f : Ctx → Ctx) : (withCtx s n k f).rlog = s.rlog := rfl
@[simp] theorem withCtx_rplay (s : State) (n k : Nat) (f : Ctx → Ctx) : (withCtx s n k f).rplay = s.rplay := rfl
@[simp] theorem withCtx_device (s : State) (n k : Nat) (f : Ctx → Ctx) : (withCtx s n k f).device = s.device := rfl
@[simp] theorem withCtx_bringup (s : State) (n k : Nat) (f : Ctx → Ctx) : (withCtx s n k f).bringup = s.bringup := rfl
@[simp] theorem withCtx_failCode (s : State) (n k : Nat) (f : Ctx → Ctx) : (withCtx s n k f).failCode = s.failCode := rfl
@[simp] theorem withCtx_svn (s : State) (n k : Nat) (f : Ctx → Ctx) : (withCtx s n k f).svn = s.svn := rfl
@[simp] theorem withCtx_runSvn (s : State) (n k : Nat) (f : Ctx → Ctx) : (withCtx s n k f).runSvn = s.runSvn := rfl
@[simp] theorem withCtx_tripped (s : State) (n k : Nat) (f : Ctx → Ctx) : (withCtx s n k f).tripped = s.tripped := rfl
@[simp] theorem withCtx_step (s : State) (n k : Nat) (f : Ctx → Ctx) : (withCtx s n k f).step = s.step := rfl
@[simp] theorem withCtx_serial (s : State) (n k : Nat) (f : Ctx → Ctx) : (withCtx s n k f).serial = s.serial := rfl
@[simp] theorem withCtx_vendorKeyHash (s : State) (n k : Nat) (f : Ctx → Ctx) : (withCtx s n k f).vendorKeyHash = s.vendorKeyHash := rfl
@[simp] theorem withCtx_meas (s : State) (n k : Nat) (f : Ctx → Ctx) : (withCtx s n k f).meas = s.meas := rfl
@[simp] theorem withCtx_image (s : State) (n k : Nat) (f : Ctx → Ctx) : (withCtx s n k f).image = s.image := rfl
@[simp] theorem withCtx_powered (s : State) (n k : Nat) (f : Ctx → Ctx) : (withCtx s n k f).powered = s.powered := rfl
@[simp] theorem withCtx_inbox (s : State) (n k : Nat) (f : Ctx → Ctx) : (withCtx s n k f).inbox = s.inbox := rfl
@[simp] theorem withCtx_mlog (s : State) (n k : Nat) (f : Ctx → Ctx) : (withCtx s n k f).mlog = s.mlog := rfl
@[simp] theorem withCtx_answers (s : State) (n k : Nat) (f : Ctx → Ctx) : (withCtx s n k f).answers = s.answers := rfl

/-! ### `withCore` -/

@[simp] theorem withCore_time (s : State) (n : Nat) (f : CoreSt → CoreSt) : (withCore s n f).time = s.time := rfl
@[simp] theorem withCore_refills (s : State) (n : Nat) (f : CoreSt → CoreSt) : (withCore s n f).refills = s.refills := rfl
@[simp] theorem withCore_epochs (s : State) (n : Nat) (f : CoreSt → CoreSt) : (withCore s n f).epochs = s.epochs := rfl
@[simp] theorem withCore_mem (s : State) (n : Nat) (f : CoreSt → CoreSt) : (withCore s n f).mem = s.mem := rfl
@[simp] theorem withCore_cur (s : State) (n : Nat) (f : CoreSt → CoreSt) : (withCore s n f).cur = s.cur := rfl
@[simp] theorem withCore_fly (s : State) (n : Nat) (f : CoreSt → CoreSt) : (withCore s n f).fly = s.fly := rfl
@[simp] theorem withCore_agenda (s : State) (n : Nat) (f : CoreSt → CoreSt) : (withCore s n f).agenda = s.agenda := rfl
@[simp] theorem withCore_via (s : State) (n : Nat) (f : CoreSt → CoreSt) : (withCore s n f).via = s.via := rfl
@[simp] theorem withCore_fresh (s : State) (n : Nat) (f : CoreSt → CoreSt) : (withCore s n f).fresh = s.fresh := rfl
@[simp] theorem withCore_ops (s : State) (n : Nat) (f : CoreSt → CoreSt) : (withCore s n f).ops = s.ops := rfl
@[simp] theorem withCore_reqs (s : State) (n : Nat) (f : CoreSt → CoreSt) : (withCore s n f).reqs = s.reqs := rfl
@[simp] theorem withCore_nextReq (s : State) (n : Nat) (f : CoreSt → CoreSt) : (withCore s n f).nextReq = s.nextReq := rfl
@[simp] theorem withCore_clusters (s : State) (n : Nat) (f : CoreSt → CoreSt) : (withCore s n f).clusters = s.clusters := rfl
@[simp] theorem withCore_dies (s : State) (n : Nat) (f : CoreSt → CoreSt) : (withCore s n f).dies = s.dies := rfl
@[simp] theorem withCore_slices (s : State) (n : Nat) (f : CoreSt → CoreSt) : (withCore s n f).slices = s.slices := rfl
@[simp] theorem withCore_packets (s : State) (n : Nat) (f : CoreSt → CoreSt) : (withCore s n f).packets = s.packets := rfl
@[simp] theorem withCore_grants (s : State) (n : Nat) (f : CoreSt → CoreSt) : (withCore s n f).grants = s.grants := rfl
@[simp] theorem withCore_groups (s : State) (n : Nat) (f : CoreSt → CoreSt) : (withCore s n f).groups = s.groups := rfl
@[simp] theorem withCore_pins (s : State) (n : Nat) (f : CoreSt → CoreSt) : (withCore s n f).pins = s.pins := rfl
@[simp] theorem withCore_outbound (s : State) (n : Nat) (f : CoreSt → CoreSt) : (withCore s n f).outbound = s.outbound := rfl
@[simp] theorem withCore_edges (s : State) (n : Nat) (f : CoreSt → CoreSt) : (withCore s n f).edges = s.edges := rfl
@[simp] theorem withCore_ports (s : State) (n : Nat) (f : CoreSt → CoreSt) : (withCore s n f).ports = s.ports := rfl
@[simp] theorem withCore_qps (s : State) (n : Nat) (f : CoreSt → CoreSt) : (withCore s n f).qps = s.qps := rfl
@[simp] theorem withCore_qpRate (s : State) (n : Nat) (f : CoreSt → CoreSt) : (withCore s n f).qpRate = s.qpRate := rfl
@[simp] theorem withCore_windows (s : State) (n : Nat) (f : CoreSt → CoreSt) : (withCore s n f).windows = s.windows := rfl
@[simp] theorem withCore_dropped (s : State) (n : Nat) (f : CoreSt → CoreSt) : (withCore s n f).dropped = s.dropped := rfl
@[simp] theorem withCore_gen (s : State) (n : Nat) (f : CoreSt → CoreSt) : (withCore s n f).gen = s.gen := rfl
@[simp] theorem withCore_relocs (s : State) (n : Nat) (f : CoreSt → CoreSt) : (withCore s n f).relocs = s.relocs := rfl
@[simp] theorem withCore_drtb (s : State) (n : Nat) (f : CoreSt → CoreSt) : (withCore s n f).drtb = s.drtb := rfl
@[simp] theorem withCore_launches (s : State) (n : Nat) (f : CoreSt → CoreSt) : (withCore s n f).launches = s.launches := rfl
@[simp] theorem withCore_nextLaunch (s : State) (n : Nat) (f : CoreSt → CoreSt) : (withCore s n f).nextLaunch = s.nextLaunch := rfl
@[simp] theorem withCore_queues (s : State) (n : Nat) (f : CoreSt → CoreSt) : (withCore s n f).queues = s.queues := rfl
@[simp] theorem withCore_rr (s : State) (n : Nat) (f : CoreSt → CoreSt) : (withCore s n f).rr = s.rr := rfl
@[simp] theorem withCore_fills (s : State) (n : Nat) (f : CoreSt → CoreSt) : (withCore s n f).fills = s.fills := rfl
@[simp] theorem withCore_hyst (s : State) (n : Nat) (f : CoreSt → CoreSt) : (withCore s n f).hyst = s.hyst := rfl
@[simp] theorem withCore_shared (s : State) (n : Nat) (f : CoreSt → CoreSt) : (withCore s n f).shared = s.shared := rfl
@[simp] theorem withCore_trapva (s : State) (n : Nat) (f : CoreSt → CoreSt) : (withCore s n f).trapva = s.trapva := rfl
@[simp] theorem withCore_hvec (s : State) (n : Nat) (f : CoreSt → CoreSt) : (withCore s n f).hvec = s.hvec := rfl
@[simp] theorem withCore_prewait (s : State) (n : Nat) (f : CoreSt → CoreSt) : (withCore s n f).prewait = s.prewait := rfl
@[simp] theorem withCore_rlogb (s : State) (n : Nat) (f : CoreSt → CoreSt) : (withCore s n f).rlogb = s.rlogb := rfl
@[simp] theorem withCore_edgeSlk (s : State) (n : Nat) (f : CoreSt → CoreSt) : (withCore s n f).edgeSlk = s.edgeSlk := rfl
@[simp] theorem withCore_mgmtLate (s : State) (n : Nat) (f : CoreSt → CoreSt) : (withCore s n f).mgmtLate = s.mgmtLate := rfl
@[simp] theorem withCore_corrected (s : State) (n : Nat) (f : CoreSt → CoreSt) : (withCore s n f).corrected = s.corrected := rfl
@[simp] theorem withCore_pfc (s : State) (n : Nat) (f : CoreSt → CoreSt) : (withCore s n f).pfc = s.pfc := rfl
@[simp] theorem withCore_rlogl (s : State) (n : Nat) (f : CoreSt → CoreSt) : (withCore s n f).rlogl = s.rlogl := rfl
@[simp] theorem withCore_replay (s : State) (n : Nat) (f : CoreSt → CoreSt) : (withCore s n f).replay = s.replay := rfl
@[simp] theorem withCore_ftimeout (s : State) (n : Nat) (f : CoreSt → CoreSt) : (withCore s n f).ftimeout = s.ftimeout := rfl
@[simp] theorem withCore_rlog (s : State) (n : Nat) (f : CoreSt → CoreSt) : (withCore s n f).rlog = s.rlog := rfl
@[simp] theorem withCore_rplay (s : State) (n : Nat) (f : CoreSt → CoreSt) : (withCore s n f).rplay = s.rplay := rfl
@[simp] theorem withCore_device (s : State) (n : Nat) (f : CoreSt → CoreSt) : (withCore s n f).device = s.device := rfl
@[simp] theorem withCore_bringup (s : State) (n : Nat) (f : CoreSt → CoreSt) : (withCore s n f).bringup = s.bringup := rfl
@[simp] theorem withCore_failCode (s : State) (n : Nat) (f : CoreSt → CoreSt) : (withCore s n f).failCode = s.failCode := rfl
@[simp] theorem withCore_svn (s : State) (n : Nat) (f : CoreSt → CoreSt) : (withCore s n f).svn = s.svn := rfl
@[simp] theorem withCore_runSvn (s : State) (n : Nat) (f : CoreSt → CoreSt) : (withCore s n f).runSvn = s.runSvn := rfl
@[simp] theorem withCore_tripped (s : State) (n : Nat) (f : CoreSt → CoreSt) : (withCore s n f).tripped = s.tripped := rfl
@[simp] theorem withCore_step (s : State) (n : Nat) (f : CoreSt → CoreSt) : (withCore s n f).step = s.step := rfl
@[simp] theorem withCore_serial (s : State) (n : Nat) (f : CoreSt → CoreSt) : (withCore s n f).serial = s.serial := rfl
@[simp] theorem withCore_vendorKeyHash (s : State) (n : Nat) (f : CoreSt → CoreSt) : (withCore s n f).vendorKeyHash = s.vendorKeyHash := rfl
@[simp] theorem withCore_meas (s : State) (n : Nat) (f : CoreSt → CoreSt) : (withCore s n f).meas = s.meas := rfl
@[simp] theorem withCore_image (s : State) (n : Nat) (f : CoreSt → CoreSt) : (withCore s n f).image = s.image := rfl
@[simp] theorem withCore_powered (s : State) (n : Nat) (f : CoreSt → CoreSt) : (withCore s n f).powered = s.powered := rfl
@[simp] theorem withCore_inbox (s : State) (n : Nat) (f : CoreSt → CoreSt) : (withCore s n f).inbox = s.inbox := rfl
@[simp] theorem withCore_mlog (s : State) (n : Nat) (f : CoreSt → CoreSt) : (withCore s n f).mlog = s.mlog := rfl
@[simp] theorem withCore_answers (s : State) (n : Nat) (f : CoreSt → CoreSt) : (withCore s n f).answers = s.answers := rfl

/-! ### `spmWrite` -/

@[simp] theorem spmWrite_time (s : State) (n o : Nat) (b : List Byte) : (spmWrite s n o b).time = s.time := rfl
@[simp] theorem spmWrite_refills (s : State) (n o : Nat) (b : List Byte) : (spmWrite s n o b).refills = s.refills := rfl
@[simp] theorem spmWrite_epochs (s : State) (n o : Nat) (b : List Byte) : (spmWrite s n o b).epochs = s.epochs := rfl
@[simp] theorem spmWrite_cur (s : State) (n o : Nat) (b : List Byte) : (spmWrite s n o b).cur = s.cur := rfl
@[simp] theorem spmWrite_fly (s : State) (n o : Nat) (b : List Byte) : (spmWrite s n o b).fly = s.fly := rfl
@[simp] theorem spmWrite_agenda (s : State) (n o : Nat) (b : List Byte) : (spmWrite s n o b).agenda = s.agenda := rfl
@[simp] theorem spmWrite_via (s : State) (n o : Nat) (b : List Byte) : (spmWrite s n o b).via = s.via := rfl
@[simp] theorem spmWrite_fresh (s : State) (n o : Nat) (b : List Byte) : (spmWrite s n o b).fresh = s.fresh := rfl
@[simp] theorem spmWrite_cores (s : State) (n o : Nat) (b : List Byte) : (spmWrite s n o b).cores = s.cores := rfl
@[simp] theorem spmWrite_ops (s : State) (n o : Nat) (b : List Byte) : (spmWrite s n o b).ops = s.ops := rfl
@[simp] theorem spmWrite_reqs (s : State) (n o : Nat) (b : List Byte) : (spmWrite s n o b).reqs = s.reqs := rfl
@[simp] theorem spmWrite_nextReq (s : State) (n o : Nat) (b : List Byte) : (spmWrite s n o b).nextReq = s.nextReq := rfl
@[simp] theorem spmWrite_clusters (s : State) (n o : Nat) (b : List Byte) : (spmWrite s n o b).clusters = s.clusters := rfl
@[simp] theorem spmWrite_dies (s : State) (n o : Nat) (b : List Byte) : (spmWrite s n o b).dies = s.dies := rfl
@[simp] theorem spmWrite_slices (s : State) (n o : Nat) (b : List Byte) : (spmWrite s n o b).slices = s.slices := rfl
@[simp] theorem spmWrite_packets (s : State) (n o : Nat) (b : List Byte) : (spmWrite s n o b).packets = s.packets := rfl
@[simp] theorem spmWrite_grants (s : State) (n o : Nat) (b : List Byte) : (spmWrite s n o b).grants = s.grants := rfl
@[simp] theorem spmWrite_groups (s : State) (n o : Nat) (b : List Byte) : (spmWrite s n o b).groups = s.groups := rfl
@[simp] theorem spmWrite_pins (s : State) (n o : Nat) (b : List Byte) : (spmWrite s n o b).pins = s.pins := rfl
@[simp] theorem spmWrite_outbound (s : State) (n o : Nat) (b : List Byte) : (spmWrite s n o b).outbound = s.outbound := rfl
@[simp] theorem spmWrite_edges (s : State) (n o : Nat) (b : List Byte) : (spmWrite s n o b).edges = s.edges := rfl
@[simp] theorem spmWrite_ports (s : State) (n o : Nat) (b : List Byte) : (spmWrite s n o b).ports = s.ports := rfl
@[simp] theorem spmWrite_qps (s : State) (n o : Nat) (b : List Byte) : (spmWrite s n o b).qps = s.qps := rfl
@[simp] theorem spmWrite_qpRate (s : State) (n o : Nat) (b : List Byte) : (spmWrite s n o b).qpRate = s.qpRate := rfl
@[simp] theorem spmWrite_windows (s : State) (n o : Nat) (b : List Byte) : (spmWrite s n o b).windows = s.windows := rfl
@[simp] theorem spmWrite_dropped (s : State) (n o : Nat) (b : List Byte) : (spmWrite s n o b).dropped = s.dropped := rfl
@[simp] theorem spmWrite_gen (s : State) (n o : Nat) (b : List Byte) : (spmWrite s n o b).gen = s.gen := rfl
@[simp] theorem spmWrite_relocs (s : State) (n o : Nat) (b : List Byte) : (spmWrite s n o b).relocs = s.relocs := rfl
@[simp] theorem spmWrite_drtb (s : State) (n o : Nat) (b : List Byte) : (spmWrite s n o b).drtb = s.drtb := rfl
@[simp] theorem spmWrite_launches (s : State) (n o : Nat) (b : List Byte) : (spmWrite s n o b).launches = s.launches := rfl
@[simp] theorem spmWrite_nextLaunch (s : State) (n o : Nat) (b : List Byte) : (spmWrite s n o b).nextLaunch = s.nextLaunch := rfl
@[simp] theorem spmWrite_queues (s : State) (n o : Nat) (b : List Byte) : (spmWrite s n o b).queues = s.queues := rfl
@[simp] theorem spmWrite_rr (s : State) (n o : Nat) (b : List Byte) : (spmWrite s n o b).rr = s.rr := rfl
@[simp] theorem spmWrite_fills (s : State) (n o : Nat) (b : List Byte) : (spmWrite s n o b).fills = s.fills := rfl
@[simp] theorem spmWrite_hyst (s : State) (n o : Nat) (b : List Byte) : (spmWrite s n o b).hyst = s.hyst := rfl
@[simp] theorem spmWrite_shared (s : State) (n o : Nat) (b : List Byte) : (spmWrite s n o b).shared = s.shared := rfl
@[simp] theorem spmWrite_trapva (s : State) (n o : Nat) (b : List Byte) : (spmWrite s n o b).trapva = s.trapva := rfl
@[simp] theorem spmWrite_hvec (s : State) (n o : Nat) (b : List Byte) : (spmWrite s n o b).hvec = s.hvec := rfl
@[simp] theorem spmWrite_prewait (s : State) (n o : Nat) (b : List Byte) : (spmWrite s n o b).prewait = s.prewait := rfl
@[simp] theorem spmWrite_rlogb (s : State) (n o : Nat) (b : List Byte) : (spmWrite s n o b).rlogb = s.rlogb := rfl
@[simp] theorem spmWrite_edgeSlk (s : State) (n o : Nat) (b : List Byte) : (spmWrite s n o b).edgeSlk = s.edgeSlk := rfl
@[simp] theorem spmWrite_mgmtLate (s : State) (n o : Nat) (b : List Byte) : (spmWrite s n o b).mgmtLate = s.mgmtLate := rfl
@[simp] theorem spmWrite_corrected (s : State) (n o : Nat) (b : List Byte) : (spmWrite s n o b).corrected = s.corrected := rfl
@[simp] theorem spmWrite_pfc (s : State) (n o : Nat) (b : List Byte) : (spmWrite s n o b).pfc = s.pfc := rfl
@[simp] theorem spmWrite_rlogl (s : State) (n o : Nat) (b : List Byte) : (spmWrite s n o b).rlogl = s.rlogl := rfl
@[simp] theorem spmWrite_replay (s : State) (n o : Nat) (b : List Byte) : (spmWrite s n o b).replay = s.replay := rfl
@[simp] theorem spmWrite_ftimeout (s : State) (n o : Nat) (b : List Byte) : (spmWrite s n o b).ftimeout = s.ftimeout := rfl
@[simp] theorem spmWrite_rlog (s : State) (n o : Nat) (b : List Byte) : (spmWrite s n o b).rlog = s.rlog := rfl
@[simp] theorem spmWrite_rplay (s : State) (n o : Nat) (b : List Byte) : (spmWrite s n o b).rplay = s.rplay := rfl
@[simp] theorem spmWrite_device (s : State) (n o : Nat) (b : List Byte) : (spmWrite s n o b).device = s.device := rfl
@[simp] theorem spmWrite_bringup (s : State) (n o : Nat) (b : List Byte) : (spmWrite s n o b).bringup = s.bringup := rfl
@[simp] theorem spmWrite_failCode (s : State) (n o : Nat) (b : List Byte) : (spmWrite s n o b).failCode = s.failCode := rfl
@[simp] theorem spmWrite_svn (s : State) (n o : Nat) (b : List Byte) : (spmWrite s n o b).svn = s.svn := rfl
@[simp] theorem spmWrite_runSvn (s : State) (n o : Nat) (b : List Byte) : (spmWrite s n o b).runSvn = s.runSvn := rfl
@[simp] theorem spmWrite_tripped (s : State) (n o : Nat) (b : List Byte) : (spmWrite s n o b).tripped = s.tripped := rfl
@[simp] theorem spmWrite_step (s : State) (n o : Nat) (b : List Byte) : (spmWrite s n o b).step = s.step := rfl
@[simp] theorem spmWrite_serial (s : State) (n o : Nat) (b : List Byte) : (spmWrite s n o b).serial = s.serial := rfl
@[simp] theorem spmWrite_vendorKeyHash (s : State) (n o : Nat) (b : List Byte) : (spmWrite s n o b).vendorKeyHash = s.vendorKeyHash := rfl
@[simp] theorem spmWrite_meas (s : State) (n o : Nat) (b : List Byte) : (spmWrite s n o b).meas = s.meas := rfl
@[simp] theorem spmWrite_image (s : State) (n o : Nat) (b : List Byte) : (spmWrite s n o b).image = s.image := rfl
@[simp] theorem spmWrite_powered (s : State) (n o : Nat) (b : List Byte) : (spmWrite s n o b).powered = s.powered := rfl
@[simp] theorem spmWrite_inbox (s : State) (n o : Nat) (b : List Byte) : (spmWrite s n o b).inbox = s.inbox := rfl
@[simp] theorem spmWrite_mlog (s : State) (n o : Nat) (b : List Byte) : (spmWrite s n o b).mlog = s.mlog := rfl
@[simp] theorem spmWrite_answers (s : State) (n o : Nat) (b : List Byte) : (spmWrite s n o b).answers = s.answers := rfl

/-! ### `physWrite` -/

@[simp] theorem physWrite_time (s : State) (l : List Host.Cell) : (physWrite s l).time = s.time := rfl
@[simp] theorem physWrite_refills (s : State) (l : List Host.Cell) : (physWrite s l).refills = s.refills := rfl
@[simp] theorem physWrite_epochs (s : State) (l : List Host.Cell) : (physWrite s l).epochs = s.epochs := rfl
@[simp] theorem physWrite_cur (s : State) (l : List Host.Cell) : (physWrite s l).cur = s.cur := rfl
@[simp] theorem physWrite_fly (s : State) (l : List Host.Cell) : (physWrite s l).fly = s.fly := rfl
@[simp] theorem physWrite_agenda (s : State) (l : List Host.Cell) : (physWrite s l).agenda = s.agenda := rfl
@[simp] theorem physWrite_via (s : State) (l : List Host.Cell) : (physWrite s l).via = s.via := rfl
@[simp] theorem physWrite_fresh (s : State) (l : List Host.Cell) : (physWrite s l).fresh = s.fresh := rfl
@[simp] theorem physWrite_cores (s : State) (l : List Host.Cell) : (physWrite s l).cores = s.cores := rfl
@[simp] theorem physWrite_ops (s : State) (l : List Host.Cell) : (physWrite s l).ops = s.ops := rfl
@[simp] theorem physWrite_reqs (s : State) (l : List Host.Cell) : (physWrite s l).reqs = s.reqs := rfl
@[simp] theorem physWrite_nextReq (s : State) (l : List Host.Cell) : (physWrite s l).nextReq = s.nextReq := rfl
@[simp] theorem physWrite_clusters (s : State) (l : List Host.Cell) : (physWrite s l).clusters = s.clusters := rfl
@[simp] theorem physWrite_dies (s : State) (l : List Host.Cell) : (physWrite s l).dies = s.dies := rfl
@[simp] theorem physWrite_slices (s : State) (l : List Host.Cell) : (physWrite s l).slices = s.slices := rfl
@[simp] theorem physWrite_packets (s : State) (l : List Host.Cell) : (physWrite s l).packets = s.packets := rfl
@[simp] theorem physWrite_grants (s : State) (l : List Host.Cell) : (physWrite s l).grants = s.grants := rfl
@[simp] theorem physWrite_groups (s : State) (l : List Host.Cell) : (physWrite s l).groups = s.groups := rfl
@[simp] theorem physWrite_pins (s : State) (l : List Host.Cell) : (physWrite s l).pins = s.pins := rfl
@[simp] theorem physWrite_outbound (s : State) (l : List Host.Cell) : (physWrite s l).outbound = s.outbound := rfl
@[simp] theorem physWrite_edges (s : State) (l : List Host.Cell) : (physWrite s l).edges = s.edges := rfl
@[simp] theorem physWrite_ports (s : State) (l : List Host.Cell) : (physWrite s l).ports = s.ports := rfl
@[simp] theorem physWrite_qps (s : State) (l : List Host.Cell) : (physWrite s l).qps = s.qps := rfl
@[simp] theorem physWrite_qpRate (s : State) (l : List Host.Cell) : (physWrite s l).qpRate = s.qpRate := rfl
@[simp] theorem physWrite_windows (s : State) (l : List Host.Cell) : (physWrite s l).windows = s.windows := rfl
@[simp] theorem physWrite_dropped (s : State) (l : List Host.Cell) : (physWrite s l).dropped = s.dropped := rfl
@[simp] theorem physWrite_gen (s : State) (l : List Host.Cell) : (physWrite s l).gen = s.gen := rfl
@[simp] theorem physWrite_relocs (s : State) (l : List Host.Cell) : (physWrite s l).relocs = s.relocs := rfl
@[simp] theorem physWrite_drtb (s : State) (l : List Host.Cell) : (physWrite s l).drtb = s.drtb := rfl
@[simp] theorem physWrite_launches (s : State) (l : List Host.Cell) : (physWrite s l).launches = s.launches := rfl
@[simp] theorem physWrite_nextLaunch (s : State) (l : List Host.Cell) : (physWrite s l).nextLaunch = s.nextLaunch := rfl
@[simp] theorem physWrite_queues (s : State) (l : List Host.Cell) : (physWrite s l).queues = s.queues := rfl
@[simp] theorem physWrite_rr (s : State) (l : List Host.Cell) : (physWrite s l).rr = s.rr := rfl
@[simp] theorem physWrite_fills (s : State) (l : List Host.Cell) : (physWrite s l).fills = s.fills := rfl
@[simp] theorem physWrite_hyst (s : State) (l : List Host.Cell) : (physWrite s l).hyst = s.hyst := rfl
@[simp] theorem physWrite_shared (s : State) (l : List Host.Cell) : (physWrite s l).shared = s.shared := rfl
@[simp] theorem physWrite_trapva (s : State) (l : List Host.Cell) : (physWrite s l).trapva = s.trapva := rfl
@[simp] theorem physWrite_hvec (s : State) (l : List Host.Cell) : (physWrite s l).hvec = s.hvec := rfl
@[simp] theorem physWrite_prewait (s : State) (l : List Host.Cell) : (physWrite s l).prewait = s.prewait := rfl
@[simp] theorem physWrite_rlogb (s : State) (l : List Host.Cell) : (physWrite s l).rlogb = s.rlogb := rfl
@[simp] theorem physWrite_edgeSlk (s : State) (l : List Host.Cell) : (physWrite s l).edgeSlk = s.edgeSlk := rfl
@[simp] theorem physWrite_mgmtLate (s : State) (l : List Host.Cell) : (physWrite s l).mgmtLate = s.mgmtLate := rfl
@[simp] theorem physWrite_corrected (s : State) (l : List Host.Cell) : (physWrite s l).corrected = s.corrected := rfl
@[simp] theorem physWrite_pfc (s : State) (l : List Host.Cell) : (physWrite s l).pfc = s.pfc := rfl
@[simp] theorem physWrite_rlogl (s : State) (l : List Host.Cell) : (physWrite s l).rlogl = s.rlogl := rfl
@[simp] theorem physWrite_replay (s : State) (l : List Host.Cell) : (physWrite s l).replay = s.replay := rfl
@[simp] theorem physWrite_ftimeout (s : State) (l : List Host.Cell) : (physWrite s l).ftimeout = s.ftimeout := rfl
@[simp] theorem physWrite_rlog (s : State) (l : List Host.Cell) : (physWrite s l).rlog = s.rlog := rfl
@[simp] theorem physWrite_rplay (s : State) (l : List Host.Cell) : (physWrite s l).rplay = s.rplay := rfl
@[simp] theorem physWrite_device (s : State) (l : List Host.Cell) : (physWrite s l).device = s.device := rfl
@[simp] theorem physWrite_bringup (s : State) (l : List Host.Cell) : (physWrite s l).bringup = s.bringup := rfl
@[simp] theorem physWrite_failCode (s : State) (l : List Host.Cell) : (physWrite s l).failCode = s.failCode := rfl
@[simp] theorem physWrite_svn (s : State) (l : List Host.Cell) : (physWrite s l).svn = s.svn := rfl
@[simp] theorem physWrite_runSvn (s : State) (l : List Host.Cell) : (physWrite s l).runSvn = s.runSvn := rfl
@[simp] theorem physWrite_tripped (s : State) (l : List Host.Cell) : (physWrite s l).tripped = s.tripped := rfl
@[simp] theorem physWrite_step (s : State) (l : List Host.Cell) : (physWrite s l).step = s.step := rfl
@[simp] theorem physWrite_serial (s : State) (l : List Host.Cell) : (physWrite s l).serial = s.serial := rfl
@[simp] theorem physWrite_vendorKeyHash (s : State) (l : List Host.Cell) : (physWrite s l).vendorKeyHash = s.vendorKeyHash := rfl
@[simp] theorem physWrite_meas (s : State) (l : List Host.Cell) : (physWrite s l).meas = s.meas := rfl
@[simp] theorem physWrite_image (s : State) (l : List Host.Cell) : (physWrite s l).image = s.image := rfl
@[simp] theorem physWrite_powered (s : State) (l : List Host.Cell) : (physWrite s l).powered = s.powered := rfl
@[simp] theorem physWrite_inbox (s : State) (l : List Host.Cell) : (physWrite s l).inbox = s.inbox := rfl
@[simp] theorem physWrite_mlog (s : State) (l : List Host.Cell) : (physWrite s l).mlog = s.mlog := rfl
@[simp] theorem physWrite_answers (s : State) (l : List Host.Cell) : (physWrite s l).answers = s.answers := rfl

/-! ### `result` -/

@[simp] theorem result_time (s : State) (lat : Nat) (w : Write) : (result s lat w).time = s.time := by unfold result; split <;> rfl
@[simp] theorem result_refills (s : State) (lat : Nat) (w : Write) : (result s lat w).refills = s.refills := by unfold result; split <;> rfl
@[simp] theorem result_epochs (s : State) (lat : Nat) (w : Write) : (result s lat w).epochs = s.epochs := by unfold result; split <;> rfl
@[simp] theorem result_mem (s : State) (lat : Nat) (w : Write) : (result s lat w).mem = s.mem := by unfold result; split <;> rfl
@[simp] theorem result_cur (s : State) (lat : Nat) (w : Write) : (result s lat w).cur = s.cur := by unfold result; split <;> rfl
@[simp] theorem result_fly (s : State) (lat : Nat) (w : Write) : (result s lat w).fly = s.fly := by unfold result; split <;> rfl
@[simp] theorem result_agenda (s : State) (lat : Nat) (w : Write) : (result s lat w).agenda = s.agenda := by unfold result; split <;> rfl
@[simp] theorem result_via (s : State) (lat : Nat) (w : Write) : (result s lat w).via = s.via := by unfold result; split <;> rfl
@[simp] theorem result_fresh (s : State) (lat : Nat) (w : Write) : (result s lat w).fresh = s.fresh := by unfold result; split <;> rfl
@[simp] theorem result_ops (s : State) (lat : Nat) (w : Write) : (result s lat w).ops = s.ops := by unfold result; split <;> rfl
@[simp] theorem result_reqs (s : State) (lat : Nat) (w : Write) : (result s lat w).reqs = s.reqs := by unfold result; split <;> rfl
@[simp] theorem result_nextReq (s : State) (lat : Nat) (w : Write) : (result s lat w).nextReq = s.nextReq := by unfold result; split <;> rfl
@[simp] theorem result_clusters (s : State) (lat : Nat) (w : Write) : (result s lat w).clusters = s.clusters := by unfold result; split <;> rfl
@[simp] theorem result_dies (s : State) (lat : Nat) (w : Write) : (result s lat w).dies = s.dies := by unfold result; split <;> rfl
@[simp] theorem result_slices (s : State) (lat : Nat) (w : Write) : (result s lat w).slices = s.slices := by unfold result; split <;> rfl
@[simp] theorem result_packets (s : State) (lat : Nat) (w : Write) : (result s lat w).packets = s.packets := by unfold result; split <;> rfl
@[simp] theorem result_grants (s : State) (lat : Nat) (w : Write) : (result s lat w).grants = s.grants := by unfold result; split <;> rfl
@[simp] theorem result_groups (s : State) (lat : Nat) (w : Write) : (result s lat w).groups = s.groups := by unfold result; split <;> rfl
@[simp] theorem result_pins (s : State) (lat : Nat) (w : Write) : (result s lat w).pins = s.pins := by unfold result; split <;> rfl
@[simp] theorem result_outbound (s : State) (lat : Nat) (w : Write) : (result s lat w).outbound = s.outbound := by unfold result; split <;> rfl
@[simp] theorem result_edges (s : State) (lat : Nat) (w : Write) : (result s lat w).edges = s.edges := by unfold result; split <;> rfl
@[simp] theorem result_ports (s : State) (lat : Nat) (w : Write) : (result s lat w).ports = s.ports := by unfold result; split <;> rfl
@[simp] theorem result_qps (s : State) (lat : Nat) (w : Write) : (result s lat w).qps = s.qps := by unfold result; split <;> rfl
@[simp] theorem result_qpRate (s : State) (lat : Nat) (w : Write) : (result s lat w).qpRate = s.qpRate := by unfold result; split <;> rfl
@[simp] theorem result_windows (s : State) (lat : Nat) (w : Write) : (result s lat w).windows = s.windows := by unfold result; split <;> rfl
@[simp] theorem result_dropped (s : State) (lat : Nat) (w : Write) : (result s lat w).dropped = s.dropped := by unfold result; split <;> rfl
@[simp] theorem result_gen (s : State) (lat : Nat) (w : Write) : (result s lat w).gen = s.gen := by unfold result; split <;> rfl
@[simp] theorem result_relocs (s : State) (lat : Nat) (w : Write) : (result s lat w).relocs = s.relocs := by unfold result; split <;> rfl
@[simp] theorem result_drtb (s : State) (lat : Nat) (w : Write) : (result s lat w).drtb = s.drtb := by unfold result; split <;> rfl
@[simp] theorem result_launches (s : State) (lat : Nat) (w : Write) : (result s lat w).launches = s.launches := by unfold result; split <;> rfl
@[simp] theorem result_nextLaunch (s : State) (lat : Nat) (w : Write) : (result s lat w).nextLaunch = s.nextLaunch := by unfold result; split <;> rfl
@[simp] theorem result_queues (s : State) (lat : Nat) (w : Write) : (result s lat w).queues = s.queues := by unfold result; split <;> rfl
@[simp] theorem result_rr (s : State) (lat : Nat) (w : Write) : (result s lat w).rr = s.rr := by unfold result; split <;> rfl
@[simp] theorem result_fills (s : State) (lat : Nat) (w : Write) : (result s lat w).fills = s.fills := by unfold result; split <;> rfl
@[simp] theorem result_hyst (s : State) (lat : Nat) (w : Write) : (result s lat w).hyst = s.hyst := by unfold result; split <;> rfl
@[simp] theorem result_shared (s : State) (lat : Nat) (w : Write) : (result s lat w).shared = s.shared := by unfold result; split <;> rfl
@[simp] theorem result_trapva (s : State) (lat : Nat) (w : Write) : (result s lat w).trapva = s.trapva := by unfold result; split <;> rfl
@[simp] theorem result_hvec (s : State) (lat : Nat) (w : Write) : (result s lat w).hvec = s.hvec := by unfold result; split <;> rfl
@[simp] theorem result_prewait (s : State) (lat : Nat) (w : Write) : (result s lat w).prewait = s.prewait := by unfold result; split <;> rfl
@[simp] theorem result_rlogb (s : State) (lat : Nat) (w : Write) : (result s lat w).rlogb = s.rlogb := by unfold result; split <;> rfl
@[simp] theorem result_edgeSlk (s : State) (lat : Nat) (w : Write) : (result s lat w).edgeSlk = s.edgeSlk := by unfold result; split <;> rfl
@[simp] theorem result_mgmtLate (s : State) (lat : Nat) (w : Write) : (result s lat w).mgmtLate = s.mgmtLate := by unfold result; split <;> rfl
@[simp] theorem result_corrected (s : State) (lat : Nat) (w : Write) : (result s lat w).corrected = s.corrected := by unfold result; split <;> rfl
@[simp] theorem result_pfc (s : State) (lat : Nat) (w : Write) : (result s lat w).pfc = s.pfc := by unfold result; split <;> rfl
@[simp] theorem result_rlogl (s : State) (lat : Nat) (w : Write) : (result s lat w).rlogl = s.rlogl := by unfold result; split <;> rfl
@[simp] theorem result_replay (s : State) (lat : Nat) (w : Write) : (result s lat w).replay = s.replay := by unfold result; split <;> rfl
@[simp] theorem result_ftimeout (s : State) (lat : Nat) (w : Write) : (result s lat w).ftimeout = s.ftimeout := by unfold result; split <;> rfl
@[simp] theorem result_rlog (s : State) (lat : Nat) (w : Write) : (result s lat w).rlog = s.rlog := by unfold result; split <;> rfl
@[simp] theorem result_rplay (s : State) (lat : Nat) (w : Write) : (result s lat w).rplay = s.rplay := by unfold result; split <;> rfl
@[simp] theorem result_device (s : State) (lat : Nat) (w : Write) : (result s lat w).device = s.device := by unfold result; split <;> rfl
@[simp] theorem result_bringup (s : State) (lat : Nat) (w : Write) : (result s lat w).bringup = s.bringup := by unfold result; split <;> rfl
@[simp] theorem result_failCode (s : State) (lat : Nat) (w : Write) : (result s lat w).failCode = s.failCode := by unfold result; split <;> rfl
@[simp] theorem result_svn (s : State) (lat : Nat) (w : Write) : (result s lat w).svn = s.svn := by unfold result; split <;> rfl
@[simp] theorem result_runSvn (s : State) (lat : Nat) (w : Write) : (result s lat w).runSvn = s.runSvn := by unfold result; split <;> rfl
@[simp] theorem result_tripped (s : State) (lat : Nat) (w : Write) : (result s lat w).tripped = s.tripped := by unfold result; split <;> rfl
@[simp] theorem result_step (s : State) (lat : Nat) (w : Write) : (result s lat w).step = s.step := by unfold result; split <;> rfl
@[simp] theorem result_serial (s : State) (lat : Nat) (w : Write) : (result s lat w).serial = s.serial := by unfold result; split <;> rfl
@[simp] theorem result_vendorKeyHash (s : State) (lat : Nat) (w : Write) : (result s lat w).vendorKeyHash = s.vendorKeyHash := by unfold result; split <;> rfl
@[simp] theorem result_meas (s : State) (lat : Nat) (w : Write) : (result s lat w).meas = s.meas := by unfold result; split <;> rfl
@[simp] theorem result_image (s : State) (lat : Nat) (w : Write) : (result s lat w).image = s.image := by unfold result; split <;> rfl
@[simp] theorem result_powered (s : State) (lat : Nat) (w : Write) : (result s lat w).powered = s.powered := by unfold result; split <;> rfl
@[simp] theorem result_inbox (s : State) (lat : Nat) (w : Write) : (result s lat w).inbox = s.inbox := by unfold result; split <;> rfl
@[simp] theorem result_mlog (s : State) (lat : Nat) (w : Write) : (result s lat w).mlog = s.mlog := by unfold result; split <;> rfl
@[simp] theorem result_answers (s : State) (lat : Nat) (w : Write) : (result s lat w).answers = s.answers := by unfold result; split <;> rfl

/-! ### Cores and contexts -/

@[simp] theorem coreOf_setCore (s : State) (n : Nat) (c : CoreSt) : coreOf (setCore s n c) n = c := by
  simp [coreOf, setCore]

theorem coreOf_setCore_other (s : State) {n m : Nat} (c : CoreSt) (h : m ≠ n) : coreOf (setCore s n c) m = coreOf s m := by
  simp [coreOf, setCore, Tbl.look_put_other _ _ _ h]

@[simp] theorem ctxOf_setCtx (s : State) (n k : Nat) (x : Ctx) : ctxOf (setCtx s n k x) n k = x := by
  simp [ctxOf, setCtx]

theorem ctxOf_setCtx_other (s : State) {n k m j : Nat} (x : Ctx) (h : m ≠ n ∨ j ≠ k) :
    ctxOf (setCtx s n k x) m j = ctxOf s m j := by
  by_cases hm : m = n
  · subst hm
    simp [ctxOf, setCtx, Tbl.look_put_other _ _ _ (h.resolve_left (fun h => h rfl))]
  · simp [ctxOf, setCtx, coreOf_setCore_other _ _ hm]

theorem coreOf_setCtx_other (s : State) {n k m : Nat} (x : Ctx) (h : m ≠ n) : coreOf (setCtx s n k x) m = coreOf s m := by
  simp [setCtx, coreOf_setCore_other _ _ h]

@[simp] theorem me_withMe (s : State) (f : Ctx → Ctx) : me (withMe s f) = f (me s) := by
  simp [me, withMe]

@[simp] theorem ctxOf_withCtx (s : State) (n k : Nat) (f : Ctx → Ctx) : ctxOf (withCtx s n k f) n k = f (ctxOf s n k) := by
  simp [withCtx]

theorem ctxOf_withMe_other (s : State) (f : Ctx → Ctx) {m j : Nat} (h : m ≠ s.cur.1 ∨ j ≠ s.cur.2) :
    ctxOf (withMe s f) m j = ctxOf s m j := ctxOf_setCtx_other s _ h

@[simp] theorem coreOf_withCore (s : State) (n : Nat) (f : CoreSt → CoreSt) : coreOf (withCore s n f) n = f (coreOf s n) := by
  simp [withCore]

@[simp] theorem here_withHere (s : State) (f : CoreSt → CoreSt) : here (withHere s f) = f (here s) := by
  simp [here, withHere]

/-- A core keeps everything but its contexts when one of them changes. -/
theorem coreOf_setCtx (s : State) (n k : Nat) (x : Ctx) :
    coreOf (setCtx s n k x) n = { coreOf s n with ctxs := Tbl.put (coreOf s n).ctxs k x } := by
  simp [setCtx]

/-! ### Memory kept -/

/-- The state's memory is in canonical form. -/
def State.memOk (s : State) : Prop := Memory.wf s.mem = true

theorem spmWrite_memOk {s : State} (n o : Nat) (b : List Byte) (h : s.memOk) : (spmWrite s n o b).memOk := memPuts_wf _ h

theorem physWrite_memOk {s : State} (l : List Host.Cell) (h : s.memOk) : (physWrite s l).memOk := memPuts_wf _ h

theorem reset_memOk : State.reset.memOk := rfl

/-! ### Results (R16, R141, R142) -/

/-- What a result of the executing bundle leaves: a pending write of the context, or nothing for s0. -/
theorem result_cases (s : State) (lat : Nat) (w : Write) :
    (result s lat w = s ∧ ∃ v, w = .scalar 0 v) ∨
    result s lat w = withMe s (fun c => { c with pend := pushWrite c.pend (c.icount + lat) w }) := by
  unfold result
  split
  · exact .inl ⟨rfl, _, rfl⟩
  · exact .inr rfl

theorem result_zero (s : State) (lat : Nat) (v : Word) : result s lat (.scalar 0 v) = s := rfl

theorem result_scalar (s : State) (lat : Nat) {d : Nat} (v : Word) (h : d ≠ 0) :
    result s lat (.scalar d v) = withMe s (fun c => { c with pend := pushWrite c.pend (c.icount + lat) (.scalar d v) }) := by
  unfold result
  split
  · simp_all
  · rfl

end Sys2Proof.Machine
end

