-- ==== Sys2Proof/Laws/Operands.lean ====
section
/-! SUPPORT. What each shared operand operation answers under the conditions that the statements name. -/

namespace Sys2Proof.Machine

/-! ### Settling -/

@[simp] theorem settle_ok (s t : State) : settle s (.ok t) = .next t := rfl

@[simp] theorem settle_trap (s : State) (t : TrapInfo) :
    settle s (.error (.trap t)) = .next (takeTrap s s.cur.1 s.cur.2 t s.fly.ba s.fly.ba false) := rfl

@[simp] theorem settle_hold (s : State) : settle s (.error .hold) = .next s := rfl

@[simp] theorem except_ok_bind {α β : Type} (x : α) (f : α → Except Stop β) : (Except.ok x >>= f) = f x := rfl

@[simp] theorem except_error_bind {α β : Type} (e : Stop) (f : α → Except Stop β) :
    ((Except.error e : Except Stop α) >>= f) = .error e := rfl

@[simp] theorem except_pure {α : Type} (x : α) : (pure x : Except Stop α) = .ok x := rfl

/-! ### Scalars -/

@[simp] theorem readable_nil (s : State) : Readable s [] := by intro r h; cases h

theorem readable_cons {s : State} {r : Reg} {l : List Reg} :
    Readable s (r :: l) ↔ isPending s r.toNat = false ∧ Readable s l := by
  constructor
  · intro h
    exact ⟨h r (by simp), fun q hq => h q (by simp [hq])⟩
  · rintro ⟨h, hl⟩ q hq
    rcases List.mem_cons.mp hq with rfl | hq
    · exact h
    · exact hl q hq

/-- A scalar that is not pending reads as its value (R16, R17). -/
theorem readS_ok {s : State} {r : Reg} (h : isPending s r.toNat = false) : readS s r = .ok (sv s r) := by
  simp [readS, h, sv]

/-- The second operand of format S reads as its value (R158). -/
theorem readB_ok {s : State} {b : Reg} (imm : Imm) (h : isPending s b.toNat = false) : readB s b imm = .ok (sb s b imm) := by
  unfold readB sb
  split
  · rfl
  · exact readS_ok h

theorem readS_hold {s : State} {r : Reg} (h : isPending s r.toNat = true) : readS s r = .error .hold := by
  simp [readS, h]

/-- A read of a scalar gives its value or holds. -/
theorem readS_cases (s : State) (r : Reg) : readS s r = .ok (sv s r) ∨ readS s r = .error .hold := by
  cases h : isPending s r.toNat with
  | false => exact .inl (readS_ok h)
  | true => exact .inr (readS_hold h)

theorem readB_cases (s : State) (b : Reg) (imm : Imm) : readB s b imm = .ok (sb s b imm) ∨ readB s b imm = .error .hold := by
  unfold readB sb
  split
  · exact .inl rfl
  · exact readS_cases s b

/-! ### Taking a chain of checks apart -/

/-- A bind answers exactly when its first part does and the rest does on that answer. -/
theorem bind_ok {α β : Type} {x : Except Stop α} {f : α → Except Stop β} {t : β} :
    (x >>= f) = .ok t ↔ ∃ a, x = .ok a ∧ f a = .ok t := by
  cases x <;> simp [bind, Except.bind]

theorem check_ok {c : Bool} {e : Except Stop Unit} (h : c = true) : check c e = .ok () := by simp [check, h]

/-! ### Scratchpad operands, SHAPE and tiles -/

theorem aligned_ok (engine slot : Nat) {addr : Word} {n : Nat} (h : addr.toNat % n = 0) :
    aligned engine slot addr n = .ok () := by simp [aligned, check, h]

/-- A local access inside the scratchpad, of units awake and outside a carve, passes its checks (R57, R211, R380). -/
theorem spmLocal_ok (engine slot : Nat) {s : State} {off n : Nat} (h : Local s off n) :
    spmLocal s engine slot off n = .ok () := by
  have awake : gatedUnit (here s) off n = none := by
    unfold gatedUnit
    split
    · rfl
    · simp only [List.find?_eq_none, List.mem_range]
      intro u hu
      have := h.awake u hu
      simp
      intro h1 h2
      by_contra h3
      simp at h3
      have := this h2 h3
      simp_all
  have steady : carveHit (here s) off n = none := by
    have := h.steady
    unfold here at this
    simp [carveHit, carveSpan, here, this]
  simp [spmLocal, awake, steady, spmBounds, check, h.inside]

theorem rowsCheck_ok (engine slot : Nat) {s : State} (h : RowsOk s) :
    rowsCheck s engine slot = .ok (rowsOf (me s)) := by
  simp [rowsCheck, h.1, h.2]

/-- A tile operand of the window has its physical number (R34, R35). -/
theorem tileReg_ok (engine slot : Nat) {s : State} {x : Reg} {p : Nat} (h : TileAt s x p) :
    tileReg s engine slot x = .ok p := by
  have := h.number
  unfold tileReg
  split at this <;> simp_all

/-- A tile operand that is not busy holds nothing up (R31). -/
theorem tileFree_ok {s : State} {x : Reg} {p : Nat} (h : TileAt s x p) : tileFree s x = .ok () := by
  have := h.number
  have := h.free
  unfold tileFree
  split at * <;> simp_all

/-- A tile operand that passes both checks is in its window and not busy. -/
theorem tileAt_of {s : State} {x : Reg} {p : Nat} {u : Unit} (hf : tileFree s x = .ok u) (hr : vecTile s x = .ok p) :
    TileAt s x p := by
  unfold tileFree at hf
  unfold vecTile tileReg at hr
  split at hr
  · rename_i hc
    simp at hr
    subst hr
    simp [hc] at hf
    constructor
    · simp [hc]
    · simpa using hf
  · split at hr
    · rename_i hc hw
      simp at hr
      subst hr
      simp [hc, hw] at hf
      constructor
      · simp [hc, hw]
      · simpa using hf
    · simp [trapping] at hr

/-! ### Operations -/

theorem opRoom_ok {s : State} (h : HasRoom s) : opRoom s = .ok () := by
  unfold HasRoom at h
  simp [opRoom]
  omega

/-- The state in which an operation has been issued. -/
def withOp (s : State) (o : Op) : State :=
  { withMe s (fun c =>
      { c with cseq := c.cseq + 1
               named := if o.tok = 0 || c.named.contains o.tok then c.named else c.named ++ [o.tok] }) with
    ops := s.ops ++ [o] }

/-- With room, a fresh operation of the executing context is issued: the youngest one, under the next sequence number
(R197, R507). -/
theorem issueOp_ok {s : State} {o : Op} (h : HasRoom s) (hc : o.core = s.cur.1) (hx : o.ctx = s.cur.2)
    (hq : o.seq = ((me s).cseq + 1).toNat) (hf : o.done = [] ∧ o.started = false ∧ o.susp = none) :
    issueOp s o = .ok (withOp s o) ∧ Issued s (withOp s o) o := by
  unfold HasRoom at h
  have own : ∀ (l : List Op) (f : Ctx → Ctx), me { withMe s f with ops := l } = f (me s) :=
    fun l f => (show me { withMe s f with ops := l } = me (withMe s f) from rfl).trans (me_withMe s f)
  constructor
  · rw [issueOp, if_neg (by omega)]
    rfl
  · constructor <;> simp_all [withOp]

/-- The same for an operation that an engine starts. -/
theorem startOp_ok {s : State} {o : Op} (h : HasRoom s) (hc : o.core = s.cur.1) (hx : o.ctx = s.cur.2)
    (hq : o.seq = ((me s).cseq + 1).toNat) (hf : o.done = [] ∧ o.started = false ∧ o.susp = none) :
    startOp s o = .ok (withOp s o) ∧ Issued s (withOp s o) o :=
  issueOp_ok h hc hx hq hf

end Sys2Proof.Machine
end

