-- ==== Sys2Proof/Laws/Frame.lean ====
section
/-! SUPPORT. Frames: writing results and drawing generator states leave everything else as it was. -/

namespace Sys2Proof.Machine

theorem frame_refl (s : State) (part : Nat × Nat × Nat → Prop) : Frame s s part := by
  constructor <;> simp_all

theorem frame_trans {s t u : State} {part : Nat × Nat × Nat → Prop} (h1 : Frame s t part) (h2 : Frame t u part)
    (hc : t.cur = s.cur) : Frame s u part := by
  constructor
  · intro a
    rw [h2.memory, h1.memory]
  · intro n k h
    rw [h2.others _ _ (hc ▸ h), h1.others _ _ h]
  · intro n
    rw [h2.cores, h1.cores]
  · rw [h2.own, h1.own]
  · intro p hp hn
    exact h2.kept p (h1.kept p hp hn) hn
  · intro p hp
    rcases h2.added p hp with h | h
    · exact h1.added p h
    · exact .inr h
  · rw [h2.ops, h1.ops]
  · rw [h2.reqs, h1.reqs]
  · rw [h2.fly, h1.fly]
  · rw [h2.launches, h1.launches]

/-- A change of the executing context leaves the cores' own parts. -/
theorem coreOf_withMe (s : State) (f : Ctx → Ctx) (n : Nat) :
    ({ coreOf (withMe s f) n with ctxs := [] } : CoreSt) = { coreOf s n with ctxs := [] } := by
  unfold withMe setCtx
  by_cases h : n = s.cur.1
  · subst h
    simp
  · rw [coreOf_setCore_other _ _ h]

theorem ctxOf_withMe_ne (s : State) (f : Ctx → Ctx) {n k : Nat} (h : (n, k) ≠ s.cur) :
    ctxOf (withMe s f) n k = ctxOf s n k := by
  apply ctxOf_withMe_other
  by_cases hn : n = s.cur.1
  · exact .inr (fun hk => h (Prod.ext hn hk))
  · exact .inl hn

/-- A step of the generator changes nothing that a frame names. -/
theorem frame_seed (s : State) (part : Nat × Nat × Nat → Prop) (w : BitVec 32) :
    Frame s (withMe s (fun c => { c with seed := w })) part := by
  constructor
  · intro a
    rfl
  · intro n k h
    exact ctxOf_withMe_ne s _ h
  · exact coreOf_withMe s _
  · simp
  · intro p hp _
    simpa using hp
  · intro p hp
    exact .inl (by simpa using hp)
  all_goals rfl

/-- A result changes at most the write on its way to its own part (R142). -/
theorem frame_result (s : State) {part : Nat × Nat × Nat → Prop} (lat : Nat) (w : Write) (h : part w.part) :
    Frame s (result s lat w) part := by
  rcases result_cases s lat w with ⟨e, -⟩ | e
  · rw [e]
    exact frame_refl s part
  · rw [e]
    constructor
    · intro a
      rfl
    · intro n k h
      exact ctxOf_withMe_ne s _ h
    · exact coreOf_withMe s _
    · simp
    · intro p hp hn
      simp [pushWrite, hp]
      exact .inl (fun he => hn (he ▸ h))
    · intro p hp
      simp [pushWrite] at hp
      rcases hp with ⟨hp, -⟩ | rfl
      · exact .inl hp
      · exact .inr h
    all_goals rfl

theorem frame_results (s : State) {part : Nat × Nat × Nat → Prop} (lat : Nat) (l : List Write)
    (h : ∀ w ∈ l, part w.part) : Frame s (results s lat l) part := by
  induction l generalizing s with
  | nil => exact frame_refl s part
  | cons w l ih =>
    exact frame_trans (frame_result s lat w (h w (by simp))) (ih _ (fun v hv => h v (by simp [hv]))) (by simp)

theorem frame_drawSeeds (s : State) (part : Nat × Nat × Nat → Prop) (mode n : Nat) :
    Frame s (drawSeeds s mode n).2 part := by
  unfold drawSeeds
  split
  · exact frame_seed s part _
  · exact frame_refl s part

theorem drawSeeds_cur (s : State) (mode n : Nat) : (drawSeeds s mode n).2.cur = s.cur := by
  unfold drawSeeds
  split <;> rfl

theorem frame_roundRows (s : State) (part : Nat × Nat × Nat → Prop) (mode : Nat) (r : Rnd) (dt : Nat) (rows : List Nat)
    (n : Nat) (v : Nat → Nat → Val) : Frame s (roundRows s mode r dt rows n v).2 part := frame_drawSeeds s part _ _

theorem roundRows_cur (s : State) (mode : Nat) (r : Rnd) (dt : Nat) (rows : List Nat) (n : Nat) (v : Nat → Nat → Val) :
    (roundRows s mode r dt rows n v).2.cur = s.cur := drawSeeds_cur s _ _

theorem frame_reduceAll (s : State) (part : Nat × Nat × Nat → Prop) (t : Tile) (r : Rnd) (dt op : Nat)
    (l : List (List (Nat × Nat))) : Frame s (reduceAll s t r dt op l).2 part := by
  unfold reduceAll
  simp only
  split
  · exact frame_refl s part
  · exact frame_drawSeeds s part _ _

theorem reduceAll_cur (s : State) (t : Tile) (r : Rnd) (dt op : Nat) (l : List (List (Nat × Nat))) :
    (reduceAll s t r dt op l).2.cur = s.cur := by
  unfold reduceAll
  simp only
  split
  · rfl
  · exact drawSeeds_cur s _ _

end Sys2Proof.Machine
end

