-- ==== Sys2Proof/Laws/Traffic.lean ====
section
/-! SUPPORT. Traffic that no context issues: what its packets and the lines that it touches leave as it was. -/

namespace Sys2Proof.Machine

/-- What packets of the device's units, cache lines and counters of late packets do not touch: memory, commands, requests,
launches, the agenda, the executing bundle, and every context. -/
structure TrafficOnly (s t : State) : Prop where
  mem : t.mem = s.mem
  ops : t.ops = s.ops
  reqs : t.reqs = s.reqs
  launches : t.launches = s.launches
  agenda : t.agenda = s.agenda
  time : t.time = s.time
  cur : t.cur = s.cur
  fly : t.fly = s.fly
  ctxs : ∀ n k, ctxOf t n k = ctxOf s n k

theorem TrafficOnly.refl (s : State) : TrafficOnly s s := ⟨rfl, rfl, rfl, rfl, rfl, rfl, rfl, rfl, fun _ _ => rfl⟩

theorem TrafficOnly.trans {s t u : State} (h : TrafficOnly s t) (g : TrafficOnly t u) : TrafficOnly s u :=
  ⟨g.mem.trans h.mem, g.ops.trans h.ops, g.reqs.trans h.reqs, g.launches.trans h.launches, g.agenda.trans h.agenda,
   g.time.trans h.time, g.cur.trans h.cur, g.fly.trans h.fly, fun n k => (g.ctxs n k).trans (h.ctxs n k)⟩

/-- A fold keeps what each of its steps keeps. -/
theorem TrafficOnly.foldl {α : Type} {f : State → α → State} (h : ∀ s x, TrafficOnly s (f s x)) (l : List α) (s : State) :
    TrafficOnly s (l.foldl f s) := by
  induction l generalizing s with
  | nil => exact .refl s
  | cons x l ih => exact (h s x).trans (ih _)

/-- A change of a core that keeps its contexts. -/
theorem traffic_withCore (s : State) (e : Nat) (f : CoreSt → CoreSt) (h : (f (coreOf s e)).ctxs = (coreOf s e).ctxs) :
    TrafficOnly s (withCore s e f) := by
  refine ⟨rfl, rfl, rfl, rfl, rfl, rfl, rfl, rfl, fun n k => ?_⟩
  simp only [withCore, ctxOf, coreOf, setCore, Tbl.look_put] at h ⊢
  split
  · next g => subst g; rw [h]
  · rfl

theorem traffic_traceRaw (s : State) (core : Nat) (r : TraceRec) : TrafficOnly s (traceRaw s core r) := by
  refine traffic_withCore s core _ ?_
  split <;> rfl

theorem traffic_traceEvent (s : State) (core cls ctx sub : Nat) (pay : Word) :
    TrafficOnly s (traceEvent s core cls ctx sub pay) := by
  unfold traceEvent
  split
  · exact traffic_traceRaw _ _ _
  · exact .refl s

theorem traffic_traceTrigger (s : State) (core source ctx : Nat) : TrafficOnly s (traceTrigger s core source ctx) := by
  unfold traceTrigger
  simp only
  split
  · exact (traffic_traceRaw _ _ _).trans (traffic_withCore _ _ _ rfl)
  · exact .refl s

theorem traffic_countLateUnit (s : State) (p : Packet) : TrafficOnly s (countLateUnit s p) := by
  unfold countLateUnit
  simp only
  split
  · exact ((traffic_withCore _ _ _ rfl).trans (traffic_traceEvent _ _ _ _ _ _)).trans (traffic_traceTrigger _ _ _ _)
  · split <;> exact ⟨rfl, rfl, rfl, rfl, rfl, rfl, rfl, rfl, fun _ _ => rfl⟩

theorem traffic_sendUnit (s : State) (p : NetPacket) : TrafficOnly s (sendUnit s p) := by
  have h : TrafficOnly s (addPacket s p) := ⟨rfl, rfl, rfl, rfl, rfl, rfl, rfl, rfl, fun _ _ => rfl⟩
  unfold sendUnit
  simp only
  split
  · exact h.trans (traffic_countLateUnit _ _)
  · exact h

theorem traffic_sendTraffic (s : State) (src typ dst pa : Nat) (aux : BitVec 32) (b : List Byte) :
    TrafficOnly s (sendTraffic s src typ dst pa aux b) := by
  have h (n : Nat) : TrafficOnly s { s with nextReq := n } := ⟨rfl, rfl, rfl, rfl, rfl, rfl, rfl, rfl, fun _ _ => rfl⟩
  exact (h _).trans (traffic_sendUnit _ _)

theorem traffic_sendUnitAccess (s : State) (src : Nat) (wr : Bool) (dst pa len : Nat) :
    TrafficOnly s (sendUnitAccess s src wr dst pa len) := traffic_sendTraffic _ _ _ _ _ _ _

theorem traffic_withLines (s : State) (n : Nat) (f : Slice → Slice) : TrafficOnly s (withLines s n f) := by
  have h : TrafficOnly s (withSlice s n f) := ⟨rfl, rfl, rfl, rfl, rfl, rfl, rfl, rfl, fun _ _ => rfl⟩
  exact h.trans (TrafficOnly.foldl (fun s l => traffic_sendUnitAccess s _ _ _ _ _) _ _)

theorem traffic_cacheAccess (s : State) (pa : Nat) (hint : CacheHint) (wr : Bool) :
    TrafficOnly s (cacheAccess s pa hint wr) := by
  unfold cacheAccess
  split
  · exact .refl s
  · exact traffic_withLines _ _ _

theorem traffic_touchLines (s : State) (pas : List Nat) (hint : CacheHint) (wr : Bool) :
    TrafficOnly s (touchLines s pas hint wr) := TrafficOnly.foldl (fun s _ => traffic_cacheAccess s _ _ _) _ _

theorem traffic_touchMapped (s : State) (t : List RtEntry) (asid : BitVec 16) (wr : Bool) (l : List (Nat × Nat)) :
    TrafficOnly s (touchMapped s t asid wr l) := TrafficOnly.foldl (fun s _ => traffic_cacheAccess s _ _ _) _ _

/-- The packets of the log's writes change nothing that a program sees but LATECNT. -/
theorem traffic_sendLog (s : State) : TrafficOnly s (sendLog s) := by
  unfold sendLog
  split
  · exact .refl s
  · next l _ =>
    have h : TrafficOnly s { s with rlog := some { l with unsent := [] } } :=
      ⟨rfl, rfl, rfl, rfl, rfl, rfl, rfl, rfl, fun _ _ => rfl⟩
    exact h.trans (TrafficOnly.foldl (fun s x => (traffic_touchLines s _ _ _).trans (traffic_sendUnitAccess _ _ _ _ _ _)) _ _)

end Sys2Proof.Machine
end

