-- ==== Sys2Proof/Tests/Slice0.lean ====
section
/-! SUPPORT. The model's own tests: every instruction word's decoding, the ill-formed terms that `WellFormed` refuses, and for
every statement with hypotheses a concrete state and operands that meet them. The words are written from the formats of R130,
the opcode maps of R134 to R138 and the field tables of the instruction rules. -/

namespace Sys2Proof.Tests

open Sys2Proof.Machine

/-- Words of the integer group, written from the formats of R130 and the opcode maps of R134 to R138. -/
theorem test_decode_integer :
    decodeSlot .s1 0x0114600080000001 = .ok (.add 5 6 0 0x80000001) ∧
    decodeSlot .s1 0x021461C000000000 = .ok (.sub 5 6 7 0) ∧
    decodeSlot .s1 0x0314600080000001 = .ok (.mul 5 6 0 0x80000001) ∧
    decodeSlot .s1 0x041461C000000000 = .ok (.mulh 5 6 7 0) ∧
    decodeSlot .s1 0x0514600080000001 = .ok (.mulhu 5 6 0 0x80000001) ∧
    decodeSlot .s1 0x061461C000000000 = .ok (.div 5 6 7 0) ∧
    decodeSlot .s1 0x0714600080000001 = .ok (.divu 5 6 0 0x80000001) ∧
    decodeSlot .s1 0x081461C000000000 = .ok (.rem 5 6 7 0) ∧
    decodeSlot .s1 0x0914600080000001 = .ok (.remu 5 6 0 0x80000001) ∧
    decodeSlot .s1 0x0A1461C000000000 = .ok (.and 5 6 7 0) := by decide

/-- Words of the logic group, written from the formats of R130 and the opcode maps of R134 to R138. -/
theorem test_decode_logic :
    decodeSlot .s1 0x0B14600080000001 = .ok (.or 5 6 0 0x80000001) ∧
    decodeSlot .s1 0x0C1461C000000000 = .ok (.xor 5 6 7 0) ∧
    decodeSlot .s1 0x0D14600080000001 = .ok (.andn 5 6 0 0x80000001) ∧
    decodeSlot .s1 0x0E1461C000000000 = .ok (.shl 5 6 7 0) ∧
    decodeSlot .s1 0x0F14600080000001 = .ok (.shr 5 6 0 0x80000001) ∧
    decodeSlot .s1 0x101461C000000000 = .ok (.sra 5 6 7 0) ∧
    decodeSlot .s1 0x1114600080000001 = .ok (.rotl 5 6 0 0x80000001) ∧
    decodeSlot .s1 0x121461C000000000 = .ok (.min 5 6 7 0) ∧
    decodeSlot .s1 0x1314600080000001 = .ok (.max 5 6 0 0x80000001) ∧
    decodeSlot .s1 0x141461C000000000 = .ok (.minu 5 6 7 0) ∧
    decodeSlot .s1 0x1514600080000001 = .ok (.maxu 5 6 0 0x80000001) ∧
    decodeSlot .s0 0x16146002FFFFFFFF = .ok (.cmp 5 6 0 2 0xFFFFFFFF) ∧
    decodeSlot .s0 0x171461C900000000 = .ok (.sel 5 6 7 9 0) := by decide

/-- Words of the fields group, written from the formats of R130 and the opcode maps of R134 to R138. -/
theorem test_decode_fields :
    decodeSlot .s0 0x1814600000000000 = .ok (.clz 5 6) ∧
    decodeSlot .s0 0x1914600000000000 = .ok (.ctz 5 6) ∧
    decodeSlot .s0 0x1A14600000000000 = .ok (.popc 5 6) ∧
    decodeSlot .s1 0x1B14600000002304 = .ok (.ext 5 6 true 12 4) ∧
    decodeSlot .s1 0x1C14600900001000 = .ok (.ins 5 6 9 64 0) ∧
    decodeSlot .s0 0x1D140000FFFF0000 = .ok (.li 5 0xFFFF0000) ∧
    decodeSlot .s0 0x1E14600000001234 = .ok (.lih 5 6 0x1234) ∧
    decodeSlot .s0 0x1FFFE00000000040 = .ok (.addi 63 62 0x40) ∧
    decodeSlot .s0 0x2014600000000000 = .ok (.mov 5 6) ∧
    decodeSlot .s0 0x2114600300000010 = .ok (.lea 5 6 0 3 0x10) := by decide

/-- Words of the float group, written from the formats of R130 and the opcode maps of R134 to R138. -/
theorem test_decode_float :
    decodeSlot .s0 0x301461C00000000E = .ok (.fadd 5 6 7 ⟨6, true⟩) ∧
    decodeSlot .s0 0x311461C00000000E = .ok (.fsub 5 6 7 ⟨6, true⟩) ∧
    decodeSlot .s0 0x321461C00000000E = .ok (.fmul 5 6 7 ⟨6, true⟩) ∧
    decodeSlot .s0 0x331461C900000005 = .ok (.fma 5 6 7 9 ⟨5, false⟩) ∧
    decodeSlot .s0 0x341461C000000000 = .ok (.fmin 5 6 7) ∧
    decodeSlot .s0 0x351461C000000000 = .ok (.fmax 5 6 7) ∧
    decodeSlot .s1 0x361461C000000050 = .ok (.fcmp 5 6 7 5) ∧
    decodeSlot .s1 0x3714600000004109 = .ok (.fcvt 5 6 4 1 ⟨1, true⟩) := by decide

/-- Words of the transfer group, written from the formats of R130 and the opcode maps of R134 to R138. -/
theorem test_decode_transfer :
    decodeSlot .ctl 0x01180001FFFFFFF8 = .ok (.br 6 1 0xFFFFFFF8) ∧
    decodeSlot .ctl 0x011C000500000008 = .ok (.br 7 5 8) ∧
    decodeSlot .ctl 0x0200000000000040 = .ok (.jmp 0x40) ∧
    decodeSlot .ctl 0x0318000000000040 = .ok (.jr 6 0x40) ∧
    decodeSlot .ctl 0x0418000000000040 = .ok (.call 6 0x40) ∧
    decodeSlot .ctl 0x0418700100000040 = .ok (.callI 6 7 0x40) ∧
    decodeSlot .ctl 0x0518000000000000 = .ok (.ret 6) ∧
    decodeSlot .ctl 0x06003FFF00000040 = .ok (.loop 0 3 4095 0x40) ∧
    decodeSlot .ctl 0x0700200000000040 = .ok (.loopLv 2 0x40) ∧
    decodeSlot .ctl 0x080000000000FFFF = .ok (.yld 0xFFFF) ∧
    decodeSlot .ctl 0x0900000000000000 = .ok (.done) ∧
    decodeSlot .ctl 0x0A00000000001234 = .ok (.halt 0x1234) := by decide

/-- Words of the control group, written from the formats of R130 and the opcode maps of R134 to R138. -/
theorem test_decode_control :
    decodeSlot .ctl 0x100000130000000F = .ok (.bar 3 2 15) ∧
    decodeSlot .ctl 0x1100002600000001 = .ok (.barArr 6 4 1) ∧
    decodeSlot .ctl 0x1200002800000002 = .ok (.barWt 5 2) ∧
    decodeSlot .ctl 0x1300000000000081 = .ok (.flagSet 0x81) ∧
    decodeSlot .ctl 0x1318000100000002 = .ok (.flagSetCore 6 2) ∧
    decodeSlot .ctl 0x1318009200000002 = .ok (.flagSetRmt 6 9 2) ∧
    decodeSlot .ctl 0x1400000000008001 = .ok (.flagClr 0x8001) ∧
    decodeSlot .ctl 0x1818000000000020 = .ok (.ctlRd 6 0x20) ∧
    decodeSlot .ctl 0x1918000000000002 = .ok (.ctlWr 6 2) ∧
    decodeSlot .ctl 0x2000000000000040 = .ok (.prePt 0x40) ∧
    decodeSlot .ctl 0x2100000000000077 = .ok (.trap 0x77) ∧
    decodeSlot .ctl 0x2218000000000000 = .ok (.rte 6) ∧
    decodeSlot .ctl 0x2800000000000000 = .ok (.ifence) ∧
    decodeSlot .ctl 0x2900000000ABCDEF = .ok (.toll 0 0xABCDEF) ∧
    decodeSlot .ctl 0x2A00000000000007 = .ok (.trcMk 7) ∧
    decodeSlot .ctl 0x2B00000000000000 = .ok (.nop) := by decide

/-- Words of the rows group, written from the formats of R130 and the opcode maps of R134 to R138. -/
theorem test_decode_rows :
    decodeSlot .mem 0x011463ACFFFFFFFC = .ok (.ld 5 6 ⟨3, 2, true⟩ false true 2 0xFFFFFFFC) ∧
    decodeSlot .mem 0x0214601600000008 = .ok (.st 5 6 ⟨0, 0, false⟩ true 3 8) ∧
    decodeSlot .mem 0x0314601F00000040 = .ok (.ldX 5 6 ⟨0, 0, false⟩ true true 7 64) ∧
    decodeSlot .mem 0x041463A800000040 = .ok (.stX 5 6 ⟨3, 2, true⟩ false true 64) ∧
    decodeSlot .mem 0x0514601300000800 = .ok (.ldXg 5 6 3 0x800) ∧
    decodeSlot .mem 0x0608000000000100 = .ok (.xpSet 2 0 0x100) := by decide

/-- Words of the tags group, written from the formats of R130 and the opcode maps of R134 to R138. -/
theorem test_decode_tags :
    decodeSlot .mem 0x0814600000000800 = .ok (.tagLk 5 6 0x800) ∧
    decodeSlot .mem 0x091461C03A000000 = .ok (.tagFl 5 6 7 ⟨3, 2, true⟩) ∧
    decodeSlot .mem 0x0A14600030000000 = .ok (.tagEv 5 6 3) ∧
    decodeSlot .mem 0x0A14600030100000 = .ok (.tagEvWb 5 6 3) ∧
    decodeSlot .mem 0x0B00600000000001 = .ok (.tagInv 6 1) ∧
    decodeSlot .mem 0x0C1400000000000C = .ok (.spmCarve 5 12) ∧
    decodeSlot .mem 0x201461C03A000000 = .ok (.tdMk 5 6 7 false ⟨3, 2, true⟩) ∧
    decodeSlot .mem 0x201461C001000000 = .ok (.tdMk 5 6 7 true ⟨0, 0, false⟩) ∧
    decodeSlot .mem 0x2100601000000040 = .ok (.tdRel 6 64) := by decide

/-- Words of the streams group, written from the formats of R130 and the opcode maps of R134 to R138. -/
theorem test_decode_streams :
    decodeSlot .mem 0x101461C33B801000 = .ok (.qBind 5 6 7 3 true true 4096 ⟨3, 2, true⟩) ∧
    decodeSlot .mem 0x110C600000000004 = .ok (.qAdv 3 6 4) ∧
    decodeSlot .mem 0x110C600100000004 = .ok (.qAdvRp 3 6 4) ∧
    decodeSlot .mem 0x120C600000000004 = .ok (.qWait 3 6 4) ∧
    decodeSlot .mem 0x1314000300000000 = .ok (.qDrain 5 3) := by decide

/-- Words of the copies group, written from the formats of R130 and the opcode maps of R134 to R138. -/
theorem test_decode_copies :
    decodeSlot .mem 0x181461C03B0FFFFF = .ok (.cp 5 6 7 0 true false 0xFFFFF ⟨3, 2, true⟩) ∧
    decodeSlot .mem 0x181461C93AC00040 = .ok (.cpKvchk 5 6 7 9 false true 64 ⟨3, 2, true⟩) ∧
    decodeSlot .mem 0x191461C93B40BFFF = .ok (.cpG 5 6 7 9 true false true 2 0x3FFF ⟨3, 2, true⟩) ∧
    decodeSlot .mem 0x1A1461C93A8FC001 = .ok (.cpS 5 6 7 9 false true false 63 1 ⟨3, 2, true⟩) ∧
    decodeSlot .mem 0x1B14600038100000 = .ok (.pfT 5 6 true 3 2) ∧
    decodeSlot .mem 0x1C1461C900000007 = .ok (.pin 5 6 7 9 7) ∧
    decodeSlot .mem 0x1D14000000000007 = .ok (.unpin 5 7) := by decide

/-- Words of the fabric group, written from the formats of R130 and the opcode maps of R134 to R138. -/
theorem test_decode_fabric :
    decodeSlot .mem 0x281461C93BDD8FFF = .ok (.am 5 6 7 9 7 1 6 3 0xFFF ⟨3, 2, true⟩) ∧
    decodeSlot .mem 0x291461C03A290004 = .ok (.red 5 6 7 0 2 4 2 4 ⟨3, 2, true⟩) ∧
    decodeSlot .mem 0x2C00000400000000 = .ok (.drain 4) ∧
    decodeSlot .mem 0x301461C931000040 = .ok (.put 5 6 7 9 true 64 3) ∧
    decodeSlot .mem 0x311461C930000001 = .ok (.get 5 6 7 9 false 1 3) ∧
    decodeSlot .mem 0x321461C930012345 = .ok (.mcast 5 6 7 9 0x12345 3) ∧
    decodeSlot .mem 0x331460000010000F = .ok (.acSet 5 6 true 15) ∧
    decodeSlot .mem 0x3414600030000000 = .ok (.acAdd 5 6 3) ∧
    decodeSlot .mem 0x350000000000000F = .ok (.acWait 15) ∧
    decodeSlot .mem 0x381461C03010FFFF = .ok (.kvChk 5 6 7 true 0xFFFF 3) := by decide

/-- Words of the ranges group, written from the formats of R130 and the opcode maps of R134 to R138. -/
theorem test_decode_ranges :
    decodeSlot .mem 0x401461C030000000 = .ok (.rngIns 5 6 7 3) ∧
    decodeSlot .mem 0x411461C030000000 = .ok (.rngDel 5 6 7 3) ∧
    decodeSlot .mem 0x421461C030000000 = .ok (.rngSplit 5 6 7 3) ∧
    decodeSlot .mem 0x431461C030000000 = .ok (.rngMerge 5 6 7 3) ∧
    decodeSlot .mem 0x441461C930100000 = .ok (.rngInv 5 6 7 9 true 3) ∧
    decodeSlot .mem 0x451461C930000000 = .ok (.rngReloc 5 6 7 9 3) ∧
    decodeSlot .mem 0x461461C930000000 = .ok (.rngResOr 5 6 7 9 3) ∧
    decodeSlot .mem 0x461461C930100000 = .ok (.rngResAndn 5 6 7 9 3) ∧
    decodeSlot .mem 0x461461C930200000 = .ok (.rngResWr 5 6 7 9 3) ∧
    decodeSlot .mem 0x471461C930000000 = .ok (.rngRd 5 6 7 9 3) := by decide

/-- Words of the vector group, written from the formats of R130 and the opcode maps of R134 to R138. -/
theorem test_decode_vector :
    decodeSlot .vec 0x011461C0FB300000 = .ok (.vadd 5 6 7 7 ⟨6, true⟩ true 3) ∧
    decodeSlot .vec 0x021461C0FB300000 = .ok (.vsub 5 6 7 7 ⟨6, true⟩ true 3) ∧
    decodeSlot .vec 0x031461C0FB300000 = .ok (.vmul 5 6 7 7 ⟨6, true⟩ true 3) ∧
    decodeSlot .vec 0x051461C0FB300000 = .ok (.vmin 5 6 7 7 ⟨6, true⟩ true 3) ∧
    decodeSlot .vec 0x061461C0FB300000 = .ok (.vmax 5 6 7 7 ⟨6, true⟩ true 3) ∧
    decodeSlot .vec 0x041461C930200000 = .ok (.vfma 5 6 7 9 1 ⟨4, false⟩ false 2) ∧
    decodeSlot .vec 0x07146000E6100000 = .ok (.vabs 5 6 7 ⟨1, true⟩ 1) ∧
    decodeSlot .vec 0x08146000E6100000 = .ok (.vneg 5 6 7 ⟨1, true⟩ 1) := by decide

/-- Words of the special group, written from the formats of R130 and the opcode maps of R134 to R138. -/
theorem test_decode_special :
    decodeSlot .vec 0x10146000E6200000 = .ok (.vexp2 5 6 7 ⟨1, true⟩ 2) ∧
    decodeSlot .vec 0x11146000E6200000 = .ok (.vlog2 5 6 7 ⟨1, true⟩ 2) ∧
    decodeSlot .vec 0x12146000E6200000 = .ok (.vrcp 5 6 7 ⟨1, true⟩ 2) ∧
    decodeSlot .vec 0x13146000E6200000 = .ok (.vrsq 5 6 7 ⟨1, true⟩ 2) ∧
    decodeSlot .vec 0x14146000E6200000 = .ok (.vtanh 5 6 7 ⟨1, true⟩ 2) ∧
    decodeSlot .vec 0x15146000E6200000 = .ok (.vsig 5 6 7 ⟨1, true⟩ 2) ∧
    decodeSlot .vec 0x16146000E6200000 = .ok (.vsin 5 6 7 ⟨1, true⟩ 2) ∧
    decodeSlot .vec 0x181461C041500000 = .ok (.vcmp 5 6 7 2 true 5) ∧
    decodeSlot .vec 0x191461C940000000 = .ok (.vsel 5 6 7 9 2) := by decide

/-- Words of the convert group, written from the formats of R130 and the opcode maps of R134 to R138. -/
theorem test_decode_convert :
    decodeSlot .vec 0x1A1460002AB00000 = .ok (.vcvt 5 6 1 ⟨2, true⟩ 11) ∧
    decodeSlot .vec 0x1B1460002A400003 = .ok (.cvtPk 5 6 1 ⟨2, true⟩ 4 3) ∧
    decodeSlot .vec 0x1C14600028100007 = .ok (.cvtUp 5 6 1 ⟨2, false⟩ 1 7) ∧
    decodeSlot .vec 0x1D1461C020700001 = .ok (.vq 5 6 7 1 ⟨0, false⟩ 7 1) ∧
    decodeSlot .vec 0x1E14600021200001 = .ok (.vdq 5 6 1 ⟨0, false⟩ true 2 1) ∧
    decodeSlot .vec 0x201460002C1001FF = .ok (.vred 5 6 1 ⟨3, false⟩ 1 3 127) ∧
    decodeSlot .vec 0x21146000208000FD = .ok (.vcred 5 6 1 ⟨0, false⟩ 8 1 63) := by decide

/-- Words of the movement group, written from the formats of R130 and the opcode maps of R134 to R138. -/
theorem test_decode_movement :
    decodeSlot .vec 0x221460006000003F = .ok (.vbcastRow 5 6 3 63) ∧
    decodeSlot .vec 0x22146000601007FF = .ok (.vbcastEl 5 6 3 2047) ∧
    decodeSlot .vec 0x2314600000000007 = .ok (.vtr 5 6 7) ∧
    decodeSlot .vec 0x241461C060100000 = .ok (.vsh 5 6 7 3 true 0) ∧
    decodeSlot .vec 0x24146000602FFFFF = .ok (.vshRows 5 6 0 3 false 0xFFFFF) ∧
    decodeSlot .vec 0x251461C060000000 = .ok (.vperm 5 6 7 3) ∧
    decodeSlot .vec 0x2614600060000000 = .ok (.vmov 5 6 3) ∧
    decodeSlot .vec 0x2714000060700000 = .ok (.vzero 5 3 7) ∧
    decodeSlot .vec 0x281461C061100000 = .ok (.viadd 5 6 7 3 true true) ∧
    decodeSlot .vec 0x291461C060100000 = .ok (.vimul 5 6 7 3 false true) ∧
    decodeSlot .vec 0x2A1461C061000000 = .ok (.vand 5 6 7 3 true) ∧
    decodeSlot .vec 0x2B1461C061000000 = .ok (.vor 5 6 7 3 true) ∧
    decodeSlot .vec 0x2C1461C061000000 = .ok (.vxor 5 6 7 3 true) ∧
    decodeSlot .vec 0x2D1461C061000000 = .ok (.vshl 5 6 7 3 true) ∧
    decodeSlot .vec 0x2E1461C060200000 = .ok (.vshr 5 6 7 3 false true) ∧
    decodeSlot .vec 0x2F1461C961800000 = .ok (.vidot 5 6 7 9 3 true 8) := by decide

/-- Words of the engine group, written from the formats of R130 and the opcode maps of R134 to R138. -/
theorem test_decode_engine :
    decodeSlot .vec 0x3014600076000000 = .ok (.vsmMerge 5 6 3 ⟨5, true⟩) ∧
    decodeSlot .vec 0x3114600000000000 = .ok (.chain 5 6) ∧
    decodeSlot .vec 0x320000000003FFC0 = .ok (.shp false 0 64 2047) ∧
    decodeSlot .vec 0x3200600000100000 = .ok (.shp true 6 0 0) ∧
    decodeSlot .vec 0x3314000000C00000 = .ok (.fmtTag 5 12) ∧
    decodeSlot .vec 0x3814600060000000 = .ok (.rcwSet 5 6 3) ∧
    decodeSlot .vec 0x3814000060100005 = .ok (.rcwSetSt 5 3 5) ∧
    decodeSlot .vec 0x3814600060200000 = .ok (.rcwSetCp 5 6 3) ∧
    decodeSlot .vec 0x39146000617003FF = .ok (.rcwUpd 5 6 3 7 2 1023) ∧
    decodeSlot .vec 0x3A1460006010003F = .ok (.rcwCnt 5 6 3 true 63) ∧
    decodeSlot .vec 0x3B1C600000000009 = .ok (.rcwMask 7 6 9) ∧
    decodeSlot .vec 0x3C00600000000007 = .ok (.ruleSet 6 7) ∧
    decodeSlot .vec 0x401461C901000910 = .ok (.cmxPack 5 6 7 9 true 16 9) ∧
    decodeSlot .vec 0x411461C900000001 = .ok (.cmxRest 5 6 7 9 false 1) ∧
    decodeSlot .vec 0x421461C93A000000 = .ok (.kvSv 5 6 7 9 ⟨3, 2, true⟩) ∧
    decodeSlot .vec 0x431461C930000014 = .ok (.ntfX 5 6 7 9 0x14 3) ∧
    decodeSlot .vec 0x441461C03A000038 = .ok (.moeRoute 5 6 7 8 true true ⟨3, 2, true⟩) := by decide

/-- Words of the matrix group, written from the formats of R130 and the opcode maps of R134 to R138. -/
theorem test_decode_matrix :
    decodeSlot .mtx 0x011461C90401BFFF = .ok (.mmIp 5 6 7 9 false false 4 true false false 0xBFFF) ∧
    decodeSlot .mtx 0x011461C956020001 = .ok (.mmOp 5 6 7 9 false true 6 false true false 1) ∧
    decodeSlot .mtx 0x010061C9A2040000 = .ok (.mmRw 6 7 9 true false 2 false false true 0) ∧
    decodeSlot .mtx 0x021461C927000000 = .ok (.mmZIp 5 6 7 9 true false 7 false false false 0) ∧
    decodeSlot .mtx 0x020061C98A000003 = .ok (.mmZRw 6 7 9 false false 10 false false false 3) ∧
    decodeSlot .mtx 0x031401C9001F0003 = .ok (.mmMerge 5 7 9 15 true 3) ∧
    decodeSlot .mtx 0x040001C900000000 = .ok (.mmOut 7 9) ∧
    decodeSlot .mtx 0x080061C900030003 = .ok (.bmpMk 6 7 9 true true 3) ∧
    decodeSlot .mtx 0x090001C900010003 = .ok (.bmpCnt 7 9 true 3) ∧
    decodeSlot .mtx 0x0A14600900010000 = .ok (.spzPack 5 6 9 true) ∧
    decodeSlot .mtx 0x0A0061C900020003 = .ok (.spzPackB 6 7 9 false 3) ∧
    decodeSlot .mtx 0x0B14600900010000 = .ok (.spzUnpk 5 6 9 true) := by decide

/-- Every check of `WellFormed` refuses an ill-formed term: one term per check. -/
theorem test_ill_formed_scalar :
    [Instr.add 1 2 3 4, .sel 1 2 3 4 5, .lea 1 2 3 0 4, .cmp 1 2 0 6 0, .cmp 1 2 3 0 1, .ext 1 2 false 0 0,
      .ext 1 2 false 65 0, .ins 1 2 3 64 1, .fadd 1 2 3 ⟨7, false⟩, .fma 1 2 3 4 ⟨7, true⟩, .fcmp 1 2 3 6,
      .fcvt 1 2 0 1 ⟨0, false⟩, .fcvt 1 2 1 7 ⟨0, false⟩, .fcvt 1 2 12 1 ⟨0, false⟩, .fcvt 1 2 1 1 ⟨7, false⟩,
      .br 1 6 0, .br 8 2 0, .loop 1 0 5 0, .bar 7 0 0, .barArr 7 0 0, .flagClr 0x1000, .toll 1 5].all
        (fun i => !WellFormed i) = true := by decide

theorem test_ill_formed_memory :
    [Instr.ld 1 2 ⟨0, 3, false⟩ false false 0 0, .ld 1 2 ⟨1, 0, false⟩ true false 0 0, .st 1 2 ⟨0, 0, true⟩ true 0 0,
      .ldX 1 2 ⟨0, 3, false⟩ false false 0 0, .stX 1 2 ⟨0, 1, false⟩ true false 0, .spmCarve 1 13,
      .tagFl 1 2 3 ⟨0, 3, false⟩, .tdMk 1 2 3 true ⟨1, 0, false⟩, .qBind 1 2 3 0 false false 1 ⟨0, 3, false⟩,
      .cp 1 2 3 4 false false 5 ⟨0, 0, false⟩, .cp 1 2 3 0 true true 5 ⟨1, 0, false⟩,
      .cpKvchk 1 2 3 4 false false 5 ⟨0, 3, false⟩, .cpG 1 2 3 4 false false false 1 1 ⟨0, 3, false⟩,
      .cpS 1 2 3 4 true true false 1 1 ⟨1, 0, false⟩, .pfT 1 2 false 0 3, .am 1 2 3 4 3 2 0 0 0 ⟨0, 0, false⟩,
      .am 1 2 3 4 0 3 0 0 0 ⟨0, 0, false⟩, .am 1 2 3 4 0 0 7 0 0 ⟨0, 0, false⟩, .red 1 2 3 6 0 0 0 0 ⟨0, 0, false⟩,
      .red 1 2 3 0 0 0 1 0 ⟨0, 0, false⟩, .drain 7, .put 1 2 3 4 true 65 0, .get 1 2 3 4 true 127 0].all
        (fun i => !WellFormed i) = true := by decide

theorem test_ill_formed_vector :
    [Instr.vadd 1 2 3 0 ⟨7, false⟩ false 1, .vadd 1 2 3 0 ⟨0, false⟩ false 4, .vexp2 1 2 0 ⟨0, false⟩ 0,
      .vdq 1 2 0 ⟨0, false⟩ false 4 0, .vcmp 1 2 3 0 false 6, .vcvt 1 2 0 ⟨0, false⟩ 7, .cvtPk 1 2 0 ⟨7, false⟩ 1 0,
      .vq 1 2 3 0 ⟨0, false⟩ 1 0, .vred 1 2 0 ⟨0, false⟩ 4 0 0, .vcred 1 2 0 ⟨7, false⟩ 1 0 0, .vsh 1 2 3 0 false 1,
      .vshRows 1 2 3 0 true 1, .vzero 1 0 12, .vzero 1 0 0, .vidot 1 2 3 4 0 false 9, .vsmMerge 1 2 0 ⟨7, false⟩,
      .shp true 1 1 0, .shp false 1 1 1, .fmtTag 1 13, .fmtTag 1 0, .rcwUpd 1 2 0 0 3 0, .cmxPack 1 2 3 4 false 0 0,
      .cmxRest 1 2 3 4 false 17, .kvSv 1 2 3 4 ⟨0, 3, false⟩, .moeRoute 1 2 3 0 false false ⟨0, 0, false⟩,
      .moeRoute 1 2 3 9 false false ⟨0, 0, false⟩].all (fun i => !WellFormed i) = true := by decide

theorem test_ill_formed_matrix :
    [Instr.mmIp 1 2 3 4 false false 1 false false false 0, .mmIp 1 2 3 4 false false 12 false false false 0,
      .mmRw 2 8 4 true false 2 false false false 0, .mmZIp 1 2 3 4 true false 2 false false false 1,
      .mmZRw 2 3 4 false false 2 false true false 0, .mmOp 1 2 3 4 true false 12 false false false 0,
      .mmOp 1 2 3 4 false false 13 false false false 0].all (fun i => !WellFormed i) = true := by decide

/-- Words with a reserved bit or value set are refused by name, and opcode 0 is no instruction (R131, R132, R134). -/
theorem test_reserved_words :
    decodeSlot .s0 0x0000000000000000 = .error .reservedOpcode ∧ decodeSlot .s0 0x061461C000000000 = .error .reservedOpcode ∧
    decodeSlot .s1 0x061461C000000000 = .ok (.div 5 6 7 0) ∧ decodeSlot .ctl 0x2B00000000000001 = .error .reservedField ∧
    decodeSlot .s0 0x011461C100000000 = .error .reservedField ∧ decodeSlot .s0 0x011461C000000001 = .error .reservedValue := by
  decide

/-! ### States for the witnesses: small changes of reset and of a placed bundle -/

/-- Reset with core 0 and its context 0 as given, context 0 executing. -/
def stateOf (k : CoreSt) (c : Ctx) : State := { State.reset with cores := [(0, { k with ctxs := [(0, c)] })] }

/-- Reset with these scalars of the executing context. -/
def withScalars (l : Tbl Word) : State := stateOf CoreSt.init { Ctx.init with scalars := l, wsize := 60 }

/-- Reset with the service context executing. -/
def svc : State := { State.reset with cur := (0, 4) }

/-- A bundle of one word in S0. -/
def oneS0 (w : Word) : State :=
  State.reset.withFetchWord 128
    ((encodeHeader 1 0 0 0 0 0 0 false 0 false true false).toNat + w.toNat * 2 ^ 64)

/-! ### Witnesses -/

/-- DecodeEncode, DecodedWordIsTheEncoding. -/
theorem wit_decode_encode :
    Slot.s0 ∈ slotsOf (.add 5 6 7 0) ∧ WellFormed (.add 5 6 7 0) = true ∧ encode (.add 5 6 7 0) = some 0x011461C000000000 := by
  decide

/-- IntegerResults, ScalarFrame's kind of state: scalars at hand, and a comparison of each sort. -/
theorem wit_integer : Readable (withScalars [(6, -1)]) [6, 7] ∧ Readable (withScalars [(6, -1)]) [9] ∧
    ((0 : BitVec 6), decide ((-1 : Word) = 0)) ∈ [((0 : BitVec 6), decide ((-1 : Word) = 0))] := by
  unfold Readable; decide

/-- DivisionResults: a zero divisor; the most negative dividend by minus one; an ordinary division. -/
theorem wit_division :
    let s := withScalars [(6, 0x8000000000000000)]
    Readable s [6, 0] ∧ sb s 0 0 = 0 ∧ (sv s 6).toInt = -2 ^ 63 ∧ (sb s 0 0xFFFFFFFF).toInt = -1 ∧
      sb s 0 3 ≠ 0 ∧ ¬ ((sv s 6).toInt = -2 ^ 63 ∧ (sb s 0 3).toInt = -1) := by
  unfold Readable; decide

/-- BitCountsAndFields: the widest and the narrowest field. -/
theorem wit_fields : Readable State.reset [6] ∧ Readable State.reset [9] ∧ 1 ≤ (64 : BitVec 7).toNat ∧
    (0 : BitVec 6).toNat + (64 : BitVec 7).toNat ≤ 64 ∧ (63 : BitVec 6).toNat + (1 : BitVec 7).toNat ≤ 64 := by
  unfold Readable; decide

/-- FloatResults: two numbers, and a NaN. -/
theorem wit_float : Readable (withScalars [(6, 0x3F800000)]) [6, 7] ∧ Readable (withScalars [(6, 0x7FC00000)]) [9] ∧
    ((fp32Of (sv (withScalars [(6, 0x3F800000)]) 6)).isNan || (fp32Of (sv (withScalars [(6, 0x3F800000)]) 7)).isNan) = false ∧
    ((fp32Of (sv (withScalars [(6, 0x7FC00000)]) 6)).isNan || (fp32Of (sv (withScalars [(6, 0x7FC00000)]) 7)).isNan) = true := by
  unfold Readable; decide

/-- ResultVisibility and ScalarFrame. -/
theorem wit_scalar : (5 : Reg) ≠ 0 ∧ Slot.s1 ∈ slotsOf (.div 5 6 7 0) := by decide

/-- StepRunsNext: a filled agenda; requests on both paths side by side; an empty one with an event; and one with none. -/
theorem wit_step :
    (oneS0 0x011461C000000000).agenda = ⟨.smbus, .bundleIssue 0 0⟩ :: [] ∧
    Incoming.requestOn ⟨.smbus, .bundleIssue 0 0⟩ .ethernet = false ∧ Incoming.requestOn ⟨.ethernet, .fusesvn⟩ .ethernet = true ∧
    Incoming.requestOn ⟨.smbus, .trippedClear 8⟩ .smbus = true ∧
    State.reset.agenda = [] ∧ nextEvent State.reset = none ∧ nextEvent { State.reset with time := 64 } = some .tollRefill := by
  decide

/-- ExecIsSlotEffect: an effect that comes about, a trap, a hold. -/
theorem wit_slot_effect :
    slotsOf (.ruleSet 6 0) ≠ [] ∧ slotEffect .nop State.reset = .ok State.reset ∧
    (match slotEffect (.rte 6) State.reset with | .error (.trap _) => true | _ => false) = true ∧
    slotEffect (.add 5 6 7 0) { State.reset with ops := [newOp State.reset .nop 6] } = .error .hold ∧
    slotEffect (.ld 5 6 ⟨0, 0, false⟩ true false 3 0)
      (stateOf { CoreSt.init with spgAwake := 0xFFE } { Ctx.init with wsize := 60 }) = .error (.wake 0 0) := by decide

/-- The state in which the header, and then the word, of a placed bundle have been fetched. -/
def afterHeader (s : State) : State := ((fetchWord (beginBundle s 0 0) 0x10000 0x10000).toOption.map (·.2)).getD s
def afterWords (s : State) : State := ((fetchWords (afterHeader s) 0x10000 1 0x10008).toOption.map (·.2)).getD s

/-- StepRunsDecodedBundle: `add s5, s6, s7` placed in S0. -/
theorem wit_bundle :
    let s : State := { oneS0 0x011461C000000000 with agenda := [] }
    let hw := encodeHeader 1 0 0 0 0 0 0 false 0 false true false
    OneWord s 0 0 hw 0x011461C000000000 .s0 (.add 5 6 7 0) (afterHeader s) (afterWords s) ∧
    (oneS0 0x011461C000000000).agenda = [⟨.smbus, .bundleIssue 0 0⟩] ∧
    (let r := slotState s 0 0 hw (afterWords s)
     ∃ t, slotEffect (.add 5 6 7 0) r = .ok t ∧
       (let as : List Active := [{ slot := .s0, word := 0x011461C000000000, instr := .add 5 6 7 0, alone := .ok t }]
        conflictStop r as = none ∧ localHeld t (me r) as = false ∧ tellsHeld r t as = false) ∧
       r.cur = (0, 0) ∧ unitBusy r .s0 (.add 5 6 7 0) = false) ∧
    chooseAmong s 0 ((List.range 5).filter (fun k => k == 0 || isReady s 0 k)) = some 0 := by
  refine ⟨⟨by decide, by decide, by decide, by decide, by decide, by decide, by decide, fun _ => rfl, by decide,
    by decide, by decide⟩, by decide, ⟨_, rfl, by decide, by decide, by decide⟩, by decide⟩

/-- PlainBundleAdvances, TransferSetsPc: the state of a bundle that only adds; one whose jump is taken past the end of the
space; a misaligned target. -/
theorem wit_commit :
    let s := stateOf CoreSt.init { Ctx.init with status := .running }
    (PlainBundle s Ctx.init 0 ∧ (me s).status = .running) ∧
    (let t : State := { s with fly := { s.fly with target := some (0x100000000000000, .land), noBackEdge := true } }
     t.fly.target = some (0x100000000000000, .land) ∧ (0x100000000000000 : Word).toNat % 8 = 0 ∧
      2 ^ 56 ≤ (0x100000000000000 : Word).toNat ∧ (0x41 : Word).toNat % 8 ≠ 0 ∧ t.fly.noBackEdge = true ∧ TargetKind.land ≠ .zeroTrip ∧ t.fly.ended = none ∧
      t.fly.rte = none ∧ t.fly.save = none ∧ t.fly.stop = none ∧ t.fly.sends = [] ∧
      (∀ n, n < 4 → Tbl.look 0 (here t).wpc n = 0) ∧ t.cur.2 ≠ 4 ∧ (me t).status = .running) := by
  refine ⟨⟨⟨rfl, rfl, rfl, rfl, rfl, rfl, by decide, by decide⟩, by decide⟩, by decide⟩

/-- FlagRules: a set with a clear, a clear alone, neither. -/
theorem wit_flags : (15 : Nat) < 16 ∧ (0x8000 : BitVec 16).getLsbD 15 = true ∧ (0 : BitVec 16).getLsbD 15 = false := by
  decide

/-- TrapEntry, TrapReturn. -/
theorem wit_trap : (3 : Nat) < 4 ∧
    (let o := newOp State.reset .nop 0
     let s : State := { State.reset with ops := [o] }
     o ∈ s.ops ∧ o.core = 0 ∧ o.ctx = 0 ∧ (∀ x ∈ (ctxOf s 0 0).stops, x.cseq.toNat ≠ o.seq) ∧ (o.core ≠ 1 ∨ o.ctx ≠ 0)) := by
  decide

/-- AlignAndPrivTrap: a misaligned doubleword, room for an operation, and a task context. -/
theorem wit_align : Readable State.reset [6, 5] ∧ (effAddr (sv State.reset 6) 4).toNat % 2 ^ (3 : BitVec 2).toNat ≠ 0 ∧
    HasRoom State.reset ∧ State.reset.cur.2 ≠ 4 := by unfold Readable HasRoom; decide

/-- ControlTransfers: a zero and a non-zero scalar, a target at the end of the space and one past it, ROWS 1 and 64. -/
theorem wit_transfers :
    Readable State.reset [6] ∧ sv State.reset 6 = 0 ∧ sv (withScalars [(6, 1)]) 6 ≠ 0 ∧
    ((2 ^ 56 - 1 : Word) + (0 : Imm).signExtend 64).toNat < 2 ^ 56 ∧
    2 ^ 56 ≤ (sv (withScalars [(6, 0x100000000000000)]) 6 + (0 : Imm).signExtend 64).toNat ∧
    (1 ≤ rowsOf (me State.reset) ∧ rowsOf (me State.reset) ≤ 64) ∧
    (let s := stateOf CoreSt.init { Ctx.init with shape := 1 }
     1 ≤ rowsOf (me s) ∧ rowsOf (me s) ≤ 64) := by unfold Readable; decide

/-- HardwareLoops: of four counters lc3 and lc1 end at the bundle with their last pass, lc0 ends there with another pass, and lc2
ends elsewhere; and the same without lc0. -/
theorem wit_loops : Readable State.reset [6] ∧
    ∀ more : Bool,
      let ctr (n : BitVec 32) (stop : BitVec 56) : LoopCtr := { count := n, start := 0x40, stop := stop, active := true }
      let c : Ctx := { Ctx.init with loops := [(3, ctr 1 0x80), (2, ctr 5 0x88), (1, ctr 0 0x80), (0, ctr 2 (if more then 0x80 else 0x90))] }
      let ends (n : Nat) : Bool := (Tbl.look LoopCtr.init c.loops n).active && (Tbl.look LoopCtr.init c.loops n).stop == 0x80
      [3, 1].Pairwise (· > ·) ∧ (∀ n ∈ [3, 1], n < 4 ∧ ends n = true ∧ (Tbl.look LoopCtr.init c.loops n).count.toNat ≤ 1) ∧
        (∀ n, n < 4 → n ∉ [3, 1] → 0 < n → ends n = false) ∧ ends 0 = more ∧ 1 < (Tbl.look LoopCtr.init c.loops 0).count.toNat := by
  unfold Readable; decide

/-- A launch of one running phase, for the statements about tasks. -/
def aLaunch : Launch :=
  { queue := 0, index := 0, entry := 0, asid := 0, header := 0, levels := [], phases := [], status := .running, pass := 0,
    phase := 0, execs := 0, stage := .compute, tasks := [], started := true, tsStart := 0, bound := true, tsStep := 0,
    computeTicks := [], doneTasks := [], sched := 0, sel := [], ovr := 0, susp := none, endedBy := none, bindSeq := 0 }

/-- A task bound to context 0 of core 0. -/
def aTask : Task :=
  { core := 0, group := 0, grouped := false, onCtx := none, tc := [], ext := [], tileRec := none, rgroup := 0, claimed := none,
    comm := false, status := .bound 0 0, arrived := [], image := none, home := false }

/-- Context 0 of core 0 runs the one task of a launch. -/
def tasked : State :=
  { stateOf CoreSt.init { Ctx.init with status := .running, task := some ⟨0, 0⟩, wsize := 60 } with
    launches := [(0, { aLaunch with tasks := [aTask] })], bringup := .operational }

/-- ControlNotes, EndOfTaskBundle. -/
theorem wit_end : Readable State.reset [6] ∧ svc.cur.2 = 4 ∧ tasked.cur.2 ≠ 4 ∧ (me tasked).task = some ⟨0, 0⟩ ∧
    Tbl.find tasked.launches 0 = some { aLaunch with tasks := [aTask] } ∧ aLaunch.status = .running := by
  refine ⟨?_, by decide, by decide, by decide, rfl, rfl⟩
  unfold Readable; decide

/-- BarriersTollsRemoteFlags: level 0 with the previous generation released; a task's `pre.pt`; a handler's `rte`. -/
theorem wit_barriers :
    (∃ x, taskOf tasked tasked.cur.1 tasked.cur.2 = some x ∧ tasked.cur.2 ≠ 4 ∧ (0 : BitVec 3).toNat ≤ declaredLevels x.2.1 ∧
      barrierOpen tasked tasked.cur.1 tasked.cur.2 (0, 0) = true) ∧
    (let s : State := { State.reset with cur := (0, 4), cores := [(0, { CoreSt.init with service := some (.handler 3), ctxs := [(4, { Ctx.init with scalars := [(6, 3)] })] })] }
     Readable s [6] ∧ s.cur.2 = 4 ∧ (sv s 6).toNat % 8 = 3 ∧ (3 : Nat) < 4 ∧ (here s).service = some (.handler 3) ∧
      drained s s.cur.1 4 (reqBefore s) = true) := by
  refine ⟨⟨_, rfl, by decide, by decide +kernel, by decide +kernel⟩, ?_⟩
  unfold Readable; decide

/-- A context whose address 0x10000 translates to itself, with RD, WR and EX, and with scalar s6 at that address. -/
def mapped : State :=
  stateOf { CoreSt.init with rtask := [{ asid := 0, desc := fetchDesc, pos := 0, used := 0 }], tu := 1 }
    { Ctx.init with scalars := [(6, 0x10000), (7, 0x800), (8, 64)], wsize := 60 }

/-- The pattern image of the worked example of R209. -/
def examplePattern : Pattern :=
  patternOf 0x820 [0x0A000400, 0x0A040404, 0x0A010408, 0x0A05040C, 0x0A020410, 0x0A060414, 0x0A030418, 0x0A07041C]

theorem exists_ok {ε α : Type} {e : Except ε α} (h : (match e with | .ok _ => true | _ => false) = true) :
    ∃ p, e = .ok p := by
  cases e with
  | ok p => exact ⟨p, rfl⟩
  | error => cases h

/-- ControlRegisters: the assigned numbers at the ends of their ranges, and numbers beside them; no write of AGE that others
may not see yet, and one. -/
theorem wit_control :
    let assigned : Byte → Bool := fun crn => decide (crn.toNat ≤ 0x09 ∨ (0x10 ≤ crn.toNat ∧ crn.toNat ≤ 0x15) ∨
      (0x18 ≤ crn.toNat ∧ crn.toNat ≤ 0x3B))
    Readable State.reset [6] ∧ [(0x00 : Byte), 0x09, 0x10, 0x15, 0x18, 0x3B].all assigned = true ∧
    [(0x0A : Byte), 0x0F, 0x16, 0x17, 0x3C, 0xFF].all (fun n => !assigned n) = true ∧
    (0x08 : Nat) ∈ [0x00, 0x01, 0x02, 0x03, 0x08] ∧ (0x07 : Nat) ∈ [0x04, 0x05, 0x06, 0x07] ∧
    olderValues State.reset 4 = [] ∧
    olderValues { State.reset with shared := [{ core := 0, ctx := 1, crn := 4, old := 256, till := 16 }] } 4 = [256] := by
  unfold Readable; decide

/-- ScratchpadScalars: the last doubleword of the scratchpad. -/
theorem wit_scratchpad : Readable State.reset [6] ∧ Readable State.reset [5] ∧
    (sv State.reset 6 + (0x2FFFF8 : Imm).signExtend 64).toNat % 2 ^ (3 : BitVec 2).toNat = 0 ∧
    Local State.reset (sv State.reset 6 + (0x2FFFF8 : Imm).signExtend 64).toNat (2 ^ (3 : BitVec 2).toNat) := by
  refine ⟨?_, ?_, by decide, ⟨by decide, by decide, rfl⟩⟩ <;> (unfold Readable; decide)

/-- StagedStoresPerform. -/
theorem wit_stores :
    let s : State := { State.reset with fly := { Fly.init with stores := cellsAt 0x2FFFFF [0x55] } }
    s.rlog = none ∧ s.rplay = none ∧ Memory.wf s.mem = true ∧ s.fly.stores = cellsAt 0x2FFFFF [0x55] := by decide

/-- ScratchpadRows: tile x63's row and the operands of `ld.x`, `st.x`, `ld.xg` and `xp.set`, an image of 32 fields and one of 33. -/
theorem wit_rows :
    let s := stateOf CoreSt.init { Ctx.init with wsize := 60, patterns := [(2, examplePattern)], shape := 1 }
    Readable s [6] ∧ RowsOk s ∧ TileAt s 59 59 ∧ (Tbl.look Pattern.init (me s).patterns 2).valid = true ∧
      (sv s 6 + (64 : Imm).signExtend 64).toNat % 64 = 0 ∧
      Local s 64 (loadSpan (Tbl.look Pattern.init (me s).patterns 2) 1 true) ∧ Local s 64 (512 * 1 + (16 * 1 + 16)) ∧
      (sv s 6).toNat % 2 = 0 ∧ Local s (sv s 6).toNat (2 * 1) ∧
      (∀ r, r < 1 → ofBytes (memBytes s.mem (spmAddr s.cur.1 ((sv s 6).toNat + 2 * r)) 2) ≠ 0xFFFF →
        Local s (64 + ofBytes (memBytes s.mem (spmAddr s.cur.1 ((sv s 6).toNat + 2 * r)) 2) *
          (Tbl.look Pattern.init (me s).patterns 2).rowBytes) (Tbl.look Pattern.init (me s).patterns 2).rowBytes) ∧
      Local s 64 8 ∧ Local s (64 + 8) (4 * 32) ∧
      (∀ n ∈ [32, 33], let r : State := { s with mem := memPuts [] (cellsAt (spmAddr 0 64) (toBytes 8 (256 * n))) }
        (BitVec.ofNat 64 (ofBytes (memBytes r.mem (spmAddr r.cur.1 64) 8))).toNat / 256 % 64 = n) := by
  refine ⟨?_, by unfold RowsOk; decide, ⟨by decide, by decide⟩, by decide, by decide, ⟨by decide, by decide, rfl⟩,
    ⟨by decide, by decide, rfl⟩, by decide, ⟨by decide, by decide, rfl⟩, ?_, ⟨by decide, by decide, rfl⟩, ⟨by decide, by decide, rfl⟩,
    by decide +kernel⟩
  · unfold Readable; decide
  · intro r hr _
    have : r = 0 := by omega
    subst this
    exact ⟨by decide, by decide, rfl⟩

/-- PatternExtraction. -/
theorem wit_pattern : examplePattern.valid = true ∧ 1023 < elemsPerRow examplePattern.tag := by decide

/-- VirtualLoadsAndStores: an aligned doubleword, and tile rows, behind a range; and loads of both forms whose read has come
back. -/
theorem wit_virtual :
    (Readable mapped [6] ∧ Readable mapped [5] ∧ HasRoom mapped ∧ RowsOk mapped ∧ TileAt mapped 5 5) ∧
    (∃ pas, directSpan mapped (sv mapped 6 + (8 : Imm).signExtend 64) (2 ^ 3) [permRd] = .ok pas) ∧
    (∃ pas, directSpan mapped (sv mapped 6 + (8 : Imm).signExtend 64) (2 ^ 3) [permWr] = .ok pas ∧
      ∀ q ∈ pas, inTarget mapped q = false) ∧
    (∃ pas, directSpan mapped (sv mapped 6) (loadSpan examplePattern 1 false) [permRd] = .ok pas) ∧
    (let o : Op := { newOp State.reset (.ld 5 6 ⟨0, 0, false⟩ false false 3 0) 0 with data := 5 }
     let r : Req := { id := 0, core := 0, ctx := 0, kind := .load 1, pas := [0x10000], cookie := 0, slk := 0, icnt := 0, after := [],
                      value := [1], performed := true, asid := 0, hint := ⟨0, false, false⟩, orphan := false }
     let s : State := { State.reset with ops := [o], reqs := [r] }
     let p : Op := { o with instr := .ldX 5 6 ⟨0, 0, false⟩ false true 2 0, nums := [59], pattern := examplePattern, rows := 1 }
     (findOp s 0 0 1 = some o ∧ o.data = (5 : Reg).toNat ∧ (5 : Reg) ≠ 0 ∧ loadReqs s o ≠ [] ∧
       ∀ r ∈ loadReqs s o, landed s r = true) ∧
     (let s : State := { s with ops := [p] }
      findOp s 0 0 1 = some p ∧ p.nums = [59] ∧ loadReqs s p ≠ [] ∧ ∀ r ∈ loadReqs s p, landed s r = true)) := by
  refine ⟨⟨by unfold Readable; decide, by unfold Readable; decide, by unfold HasRoom; decide, by unfold RowsOk; decide,
    ⟨by decide, by decide⟩⟩, ⟨_, rfl⟩, ⟨_, rfl, by decide⟩, exists_ok (by decide +kernel), by decide⟩

/-- TaggedRegion: the last slot of a region of one unit, no fill pending; a carve with every unit awake. -/
theorem wit_tagged :
    let s := stateOf { CoreSt.init with tu := 1 } { Ctx.init with scalars := [(6, 127), (7, 0x800), (8, 64)] }
    Readable s [6] ∧ Readable s [7] ∧ HasRoom s ∧ NoFill s ∧ (sv s 7).toNat % 2048 = 0 ∧ (sv s 6).toNat < 128 * (here s).tu ∧
      (∀ e, Tbl.find (here s).tags (sv s 6).toNat = some e → e.pend = false) ∧ ((here s).tags.map (·.1)).Nodup ∧
      (here s).carve = none ∧ (∀ u, u < 12 → (here s).spgAwake.getLsbD u = true) ∧ (12 : BitVec 4).toNat ≤ 12 ∧
      (sv s 8).toNat % 64 = 0 ∧ (sv s 8).toNat + 64 ≤ Config.spmBytes ∧ Local s (sv s 8).toNat 64 := by
  refine ⟨by unfold Readable; decide, by unfold Readable; decide, by unfold HasRoom; decide, by unfold NoFill; decide,
    by decide, by decide, ?_, by decide, rfl, by decide, by decide, by decide, by decide, ⟨by decide, by decide, rfl⟩⟩
  intro e h
  have h : none = some e := h
  cases h

/-- An in-stream of which nothing has been read. -/
def aStream (win : Bool) : Stream :=
  { out := false, win := win, base := 0, len := 4096, total := 8, fetched := 8, rp := 4, freed := 2, consumed := 0, desc := 0,
    slk := 0, evp := 0, na := false, seq := 1, drain := none, susp := false, dead := false }

/-- StreamInstructions: a bind of the longest buffer; advances at and past their limits. -/
theorem wit_streams :
    (let s := stateOf CoreSt.init { Ctx.init with scalars := [(6, 64), (7, 512)] }
     Readable s [6] ∧ Readable s [7] ∧ HasRoom s ∧ (sv s 6).toNat % 64 = 0 ∧ (sv s 6).toNat + 64 ≤ Config.spmBytes ∧
       (sv s 7).toNat % 512 = 0 ∧ (4096 : BitVec 13).toNat ≤ 4096 ∧ (sv s 7).toNat + 512 * (4096 : BitVec 13).toNat ≤ Config.spmBytes ∧
       Tbl.find (me s).streams 3 = none ∧ bindPending s 3 = false) ∧
    (∀ win, let s := stateOf CoreSt.init { Ctx.init with streams := [(3, aStream win)] }
      Tbl.find (me s).streams 3 = some (aStream win) ∧ (aStream win).out = false ∧
      (0 : Int) ≤ 2 ∧ (2 : Int) ≤ (if win then ((aStream win).rp : Int) - (aStream win).freed else ((aStream win).total : Int) - (aStream win).rp) ∧
      ((aStream win).freed : Int) ≤ (aStream win).rp + -2 ∧ ((aStream win).rp : Int) + 4 ≤ (aStream win).fetched ∧
      (4096 : Int) ≤ (aStream win).len ∧ ((aStream win).total : Int) - (aStream win).rp < 5 ∧
      ((aStream win).rp : Int) - (aStream win).freed < 3 ∧ ((aStream win).rp : Int) + -3 < (aStream win).freed ∧
      ((aStream win).fetched : Int) < (aStream win).rp + 5 ∧ ((aStream win).len : Int) < 4097) ∧
    (let s := stateOf CoreSt.init { Ctx.init with streams := [(3, { aStream false with out := true })] }
     (∀ st, Tbl.find (me s).streams 3 = some st → st.out = true) ∧ ∀ st, Tbl.find (me s).streams 4 = some st → st.out = true) := by
  refine ⟨⟨by unfold Readable; decide, by unfold Readable; decide, by unfold HasRoom; decide, by decide⟩, by decide +kernel, ?_, ?_⟩
  · intro st h; cases h; rfl
  · intro st h; cases h

/-- CopyEngineIssue: zero length, whole scratchpad, an index list, a pin at the cap and one above it; a window of the context's
own, whose MiB count for the cap once, and one of another context. -/
theorem wit_copies :
    let s := stateOf CoreSt.init { Ctx.init with scalars := [(6, 0), (7, 0x100000), (8, 64)], pinCap := 1 }
    Readable s [6, 7, 8] ∧ HasRoom s ∧ (sv s 6).toNat + 0x100000 ≤ Config.spmBytes ∧ (sv s 8).toNat % 64 = 0 ∧
      (sv s 8).toNat + 4 * (0x3FFF : BitVec 14).toNat ≤ Config.spmBytes ∧ (sv s 6).toNat % 4096 = 0 ∧
      (Tbl.look PinWin.init s.pins 7).owner = none ∧
      (me s).pinUsed.toNat + ((sv s 7).toNat + 2 ^ 20 - 1) / 2 ^ 20 ≤ (me s).pinCap.toNat ∧
      (me s).pinCap.toNat < (me s).pinUsed.toNat + ((0x100001 : Nat) + 2 ^ 20 - 1) / 2 ^ 20 ∧
      (let held (core : Nat) : PinWin := { PinWin.init with owner := some (core, 0), usedMib := 1, launch := 0, task := 0 }
       let c : Ctx := { me s with task := some ⟨0, 0⟩, pinUsed := 1 }
       pinMine (held 0) s.cur.1 s.cur.2 c = true ∧ pinMine (held 1) s.cur.1 s.cur.2 c = false ∧ (held 1).owner ≠ none ∧
         c.pinUsed.toNat - (held 0).usedMib + ((sv s 7).toNat + 2 ^ 20 - 1) / 2 ^ 20 ≤ c.pinCap.toNat) := by
  refine ⟨by unfold Readable; decide, by unfold HasRoom; decide, by decide⟩

/-- One outstanding operation. -/
def oneOp (o : Op) : State := { State.reset with ops := [o] }

/-- CommandsComplete: each command with its chunks performed. -/
theorem wit_complete :
    (let o : Op := { newOp State.reset (.cp 5 6 7 0 true true 0 ⟨0, 0, false⟩) 5 with nums := [0] }
     let s := oneOp o
     findOp s o.core o.ctx o.seq = some o ∧ o.susp = none ∧ o.ending = none ∧ isCopyCommand o.instr = true ∧
       o.contribution = none ∧ o.waits = [] ∧ (∀ k ∈ copyEngineChunks o, k ∈ o.done) ∧
       (copyToken o).extractLsb' 62 2 = 0) ∧
    (let o : Op := { newOp State.reset (.qBind 5 6 7 3 false false 1 ⟨0, 0, false⟩) 5 with done := [0] }
     findOp (oneOp o) o.core o.ctx o.seq = some o ∧ 0 ∈ o.done) ∧
    (let o : Op := { newOp State.reset (.tagFl 5 6 7 ⟨0, 0, false⟩) 5 with done := [0] }
     let e : TagEntry := { pend := true, asid := 0, vtag := 0, fill := some (0, 1) }
     let s : State := { oneOp o with cores := [(0, { CoreSt.init with tags := [(127, e)] })] }
     Tbl.find (coreOf s o.core).tags 127 = some e ∧ e.fill = some (o.ctx, o.seq) ∧ 0 ∈ o.done) ∧
    (let o := newOp State.reset (.spmCarve 5 12) 5
     let c : Carve := { ctx := 0, seq := 1, tu := 12 }
     let s : State := { oneOp o with cores := [(0, { CoreSt.init with carve := some c })] }
     (coreOf s 0).carve = some c ∧ o.core = 0 ∧ (coreOf s 0).tags = [] ∧ findOp s 0 c.ctx c.seq = some o) := by
  refine ⟨by decide, by decide, ?_, ?_⟩
  · exact ⟨rfl, by decide, by decide⟩
  · exact ⟨rfl, rfl, rfl, rfl⟩

/-- AtomicsAndFabricIssue: an aligned atomic behind a range, a transfer's operands, a multicast within the partition. -/
theorem wit_fabric :
    Readable mapped [6, 7, 0] ∧ HasRoom mapped ∧ (sv mapped 6 + (4 : BitVec 12).signExtend 64).toNat % 4 = 0 ∧
    (∃ pas, directSpan mapped (sv mapped 6 + (4 : BitVec 12).signExtend 64) 4 [permRd, permWr] = .ok pas ∧
      ∀ q ∈ pas, inTarget mapped q = false) ∧
    (sv mapped 6).toNat % 64 = 0 ∧ (sv mapped 7).toNat % 64 = 0 ∧ (sv mapped 7).toNat + 512 * (64 : BitVec 7).toNat ≤ Config.spmBytes ∧
    (sv mapped 0).toNat < 2 ^ 16 ∧ (sv mapped 0).extractLsb' 0 16 &&& ~~~ (partitionOf mapped mapped.cur.1 mapped.cur.2) = 0 ∧
    atwEn 0x8000000000000000 = true := by
  refine ⟨by unfold Readable; decide, by unfold HasRoom; decide, by decide, ⟨_, rfl, by decide⟩, by decide⟩

/-- An access of context 0 of core 0 that has not performed. -/
def aReq (k : ReqKind) (pas : List Nat) : Req :=
  { id := 0, core := 0, ctx := 0, kind := k, asid := 0, pas := pas, cookie := 0, slk := 0x3FF, icnt := 0, after := [], value := [],
    performed := false, hint := ⟨0, false, false⟩, orphan := false }

/-- A packet of this type, number and address from core 0 to an endpoint of this device, where it stands. -/
def aPacket (typ id pa dst : Nat) (aux : BitVec 32) (place : NetPoint) : NetPacket :=
  let o : Origin := ⟨id, 0, 0, 0, 1, 4⟩
  { netPacket State.reset id (newPacket State.reset o typ dst 0 pa aux 0x8000000000000000 []) [] none with
    place := place, input := 0, owed := 1 }

/-- AtomicsAndFabricComplete: an atomic that has performed and been answered; a multicast of no bytes; a key-value check of no
slots. -/
theorem wit_fabric_complete :
    (let o : Op := { newOp State.reset (.am 5 6 7 8 0 0 4 0 0 ⟨0, 0, false⟩) 5 with data := 8 }
     let r : Req := { aReq (.atomic 1 false) [] with value := [1, 0, 0, 0], performed := true }
     let s : State := { oneOp o with reqs := [r] }
     findOp s o.core o.ctx o.seq = some o ∧ o.tok = (5 : Reg).toNat ∧ o.data = (8 : Reg).toNat ∧ atomicReq s o = some r ∧
       landed s r = true) ∧
    (let o := newOp State.reset (.mcast 5 6 7 8 0 0) 5
     findOp (oneOp o) o.core o.ctx o.seq = some o ∧ o.susp = none ∧ o.ending = none ∧
       isFabricCommand o.instr = true ∧ packetsOf (oneOp o) o = false ∧ ∀ k ∈ fabricChunks o, k ∈ o.done) ∧
    (let o : Op := { newOp State.reset (.kvChk 5 6 7 true 0 0) 5 with nums := [0], done := [0] }
     o.waits = [] ∧ ∀ k ∈ copyEngineChunks o, k ∈ o.done) := by
  refine ⟨⟨rfl, rfl, rfl, rfl, rfl⟩, by decide, by decide⟩

/-- The entry of an exact FP32 group of cores 0 and 1 on the HBM address 0x1000. -/
def groupEntry : BitVec 384 := 1 + 0x1000 * 2 ^ 160 + 3 * 2 ^ 256

/-- Half of a contribution of a core, of eight elements from `first` on: ones of FP32. -/
def half (first rank : Nat) : Contribution :=
  { first := first, vals := List.replicate 8 (enterExact (elementValue 1 0x3F800000)), givers := [(rank, 0, rank)] }

/-- AtomicsAndFabricComplete, reductions: two CONTRIB packets that combine at a router; a group all of whose halves are in;
a contribution that waits for its release. -/
theorem wit_reduction :
    (let p := withPart groupEntry 0 0 (aPacket 7 3 0x1000 128 0 (.router 0 5)) (half 8 0)
     let q := withPart groupEntry 0 0 (aPacket 7 4 0x1000 128 0 (.router 0 5)) (half 8 1)
     let s : State := { State.reset with packets := [p, q], groups := [(0, { entry := groupEntry, parts := [] })] }
     findPacket s p.id = some p ∧ findPacket s q.id = some q ∧ p.id ≠ q.id ∧ p.pkt.typ = 7 ∧ q.pkt.typ = 7 ∧
       p.place = q.place ∧ combinesAt p.place = true ∧ accTaken s p = false ∧ auxGroup q.pkt.aux = auxGroup p.pkt.aux ∧
       auxGen q.pkt.aux = auxGen p.pkt.aux ∧ p.pkt.dstDev = q.pkt.dstDev ∧ p.pkt.exact = true ∧ q.pkt.exact = true ∧
       rgFast (Tbl.look RGroup.init s.groups (auxGroup p.pkt.aux)).entry = false ∧ (partOf p).first = (partOf q).first ∧
       (partOf p).vals.length = 8 ∧ (partOf q).vals.length = 8 ∧ ∀ r ∈ (partOf p).ranks, r ∉ (partOf q).ranks) ∧
    (let g : RGroup := { entry := groupEntry, parts := [half 0 0, half 8 0, half 0 1, half 8 1] }
     let parts := settleParts g.entry g.parts
     rgValid g.entry = true ∧ rgRoot g.entry = State.reset.device.toNat ∧ complete g.entry parts = true ∧
       (0, 1) ∈ giversOf parts) ∧
    (let o : Op := { newOp State.reset (.cp 5 6 7 0 false false 64 ⟨0, 0, false⟩) 5 with nums := [64, 1, 0, 0] }
     (oneOp o).ops.find? (fun o => o.core == 0 && o.contribution == some (auxGroup 0, auxGen 0)) = some o) := by
  decide +kernel

/-- ExactReduction: two finite contributions. -/
theorem wit_exact : [(0x3F800000 : BitVec 32), 0x80000001].length ≤ 2 ^ 31 ∧
    ∀ w ∈ [(0x3F800000 : BitVec 32), 0x80000001], (w.extractLsb' 23 8).toNat < 255 := ⟨by simp, by simp⟩

/-- AtomicNewValue. -/
theorem wit_atomic : (1 : BitVec 2) ≠ 2 ∧ (1 : BitVec 2) ≠ 3 ∧ (2 ^ 64 - 1 : Nat) < 2 ^ 64 ∧ (2 ^ 32 - 1 : Nat) < 2 ^ 32 := by
  decide

/-- RangeCommands: the supervisor's operands, a task context, a command whose accesses are done, and an insertion whose image
has returned. -/
theorem wit_ranges :
    (Readable svc [6, 7, 8] ∧ HasRoom svc ∧ svc.cur.2 = 4 ∧ State.reset.cur.2 ≠ 4 ∧ (sv svc 7).toNat % 4096 = 0 ∧
      (sv svc 8).toNat + 32 ≤ Config.spmBytes) ∧
    (let o := newOp State.reset (.rngDel 5 6 7 0) 5
     findOp (oneOp o) o.core o.ctx o.seq = some o ∧ o.susp = none ∧ o.ending = none ∧ accessesDone (oneOp o) o = true) ∧
    (let o := newOp State.reset (.rngIns 5 6 7 0) 5
     let r : Req := { aReq (.read 1 0 0) [] with value := toBytes 32 fetchDesc.toNat, performed := true }
     let s : State := { oneOp o with reqs := [r] }
     findOp s o.core o.ctx o.seq = some o ∧ accessesDone s o = true ∧ ∃ q, readImage s o = .ok q) ∧
    (oneOp (newOp State.reset (.rngRd 5 6 7 8 0) 5)).rplay = none := by
  refine ⟨⟨by unfold Readable; decide, by unfold HasRoom; decide, by decide⟩, by decide, ⟨by decide +kernel, by decide +kernel,
    exists_ok (by decide +kernel)⟩, rfl⟩

/-- SplitCoversTheRange: the first and the last inner unit of the range of eight units. -/
theorem wit_split : 0 < 1 ∧ 7 < dLen fetchDesc ∧ dVbase fetchDesc + dLen fetchDesc ≤ 2 ^ 44 ∧ dLen fetchDesc < 2 ^ 44 := by
  decide

/-- Tiles x0 to x3 with these tags, ROWS 1, COLS 0, and scalars s6 = 0 and s7 = 64. -/
def tiled (t0 t1 t2 t3 : BitVec 4) : State :=
  stateOf { CoreSt.init with tiles := [(0, { Tile.init with tag := t0 }), (1, { Tile.init with tag := t1 }), (2, { Tile.init with tag := t2 }),
    (3, { Tile.init with tag := t3 })] } { Ctx.init with wsize := 60, shape := 1, scalars := [(6, 0), (7, 64)] }

theorem tiled_rows (t0 t1 t2 t3 : BitVec 4) : RowsOk (tiled t0 t1 t2 t3) :=
  ⟨(by decide : 1 ≤ 1), (by decide : 1 ≤ 64)⟩

theorem tiled_at (t0 t1 t2 t3 : BitVec 4) (x : Reg) (h : x.toNat < 60) : TileAt (tiled t0 t1 t2 t3) x x.toNat :=
  ⟨⟨h, (Nat.zero_add _).symm⟩, rfl⟩

/-- VectorFloat: FP32 sources, a tile and a scalar B, and a tile C; all columns. -/
theorem wit_vector_float :
    let s := tiled 0 1 1 1
    let t : Tile := { Tile.init with tag := 1 }
    TileAt s 0 0 ∧ SourceTile s 1 [1, 2, 3] t ∧ RowsOk s ∧ Columns s (elemsPerRow 1) [t] 128 ∧
      SourceB s 2 false [1, 2, 3] (.tile t) ∧ SourceB s 6 true [1, 2, 3] (.scalar 0) ∧
      Columns s (elemsPerRow 1) (t :: (VecB.tile t).tiles) 128 ∧ SourceTile s 3 [1, 2, 3] t ∧
      Columns s (elemsPerRow 1) (t :: t :: (VecB.scalar 0).tiles) 128 := by
  refine ⟨tiled_at _ _ _ _ _ (by decide), ⟨1, tiled_at _ _ _ _ 1 (by decide), rfl, by decide⟩, tiled_rows _ _ _ _, ?_,
    ⟨_, ⟨2, tiled_at _ _ _ _ 2 (by decide), rfl, by decide⟩, rfl⟩, ⟨by unfold Readable; decide, rfl⟩, ?_,
    ⟨3, tiled_at _ _ _ _ 3 (by decide), rfl, by decide⟩, ?_⟩ <;> (unfold Columns; decide)

/-- VectorInteger: INT32 sources for the integer forms, FP32 for the comparison, UE4M3 with INT8 for the selection, INT8
and INT4 with INT32 for the dot product, whose group divides the columns. -/
theorem wit_vector_integer :
    (let s := tiled 0 8 8 8
     let t : Tile := { Tile.init with tag := 8 }
     TileAt s 0 0 ∧ RowsOk s ∧ SourceTile s 1 [8, 9, 10] t ∧ SourceB s 2 false [8] (.tile t) ∧
       Columns s (elemsPerRow 8) (t :: (VecB.tile t).tiles) 128 ∧ 128 ≤ 512) ∧
    (let s := tiled 0 11 11 9
     let t : Tile := { Tile.init with tag := 11 }
     let u : Tile := { Tile.init with tag := 9 }
     SourceTile s 1 [1, 2, 3, 8, 11] t ∧ SourceTile s 2 [11] t ∧ SourceTile s 3 [9] u ∧ Columns s (elemsPerRow 11) [t, t, u] 512) ∧
    (let s := tiled 0 9 10 8
     let t : Tile := { Tile.init with tag := 9 }
     let u : Tile := { Tile.init with tag := 10 }
     SourceTile s 1 [9, 10] t ∧ SourceTile s 2 [9, 10] u ∧ SourceTile s 3 [8] { Tile.init with tag := 8 } ∧
       Columns s (elemsPerRow 9) [t, u] 512 ∧ 512 % 2 ^ 2 = 0 ∧ 512 / 2 ^ 2 ≤ 128) := by
  refine ⟨⟨tiled_at _ _ _ _ 0 (by decide), tiled_rows _ _ _ _, ⟨1, tiled_at _ _ _ _ 1 (by decide), rfl, by decide⟩,
    ⟨_, ⟨2, tiled_at _ _ _ _ 2 (by decide), rfl, by decide⟩, rfl⟩, by unfold Columns; decide, by decide⟩,
    ⟨⟨1, tiled_at _ _ _ _ 1 (by decide), rfl, by decide⟩, ⟨2, tiled_at _ _ _ _ 2 (by decide), rfl, by decide⟩,
      ⟨3, tiled_at _ _ _ _ 3 (by decide), rfl, by decide⟩, by unfold Columns; decide⟩,
    ⟨⟨1, tiled_at _ _ _ _ 1 (by decide), rfl, by decide⟩, ⟨2, tiled_at _ _ _ _ 2 (by decide), rfl, by decide⟩,
      ⟨3, tiled_at _ _ _ _ 3 (by decide), rfl, by decide⟩, by unfold Columns; decide, by decide, by decide⟩⟩

/-- VectorMovement: any tag for rows, an unscaled one for elements with the last element, the last block of `vtr`. -/
theorem wit_movement :
    let s := tiled 0 8 9 12
    let t : Tile := { Tile.init with tag := 8 }
    TileAt s 0 0 ∧ RowsOk s ∧ Readable s [6] ∧ SourceTile s 3 [1, 2, 3, 4, 5, 6, 7, 8, 9, 10, 11, 12] { Tile.init with tag := 12 } ∧
      SourceTile s 2 [9] { Tile.init with tag := 9 } ∧ SourceTile s 1 [1, 2, 3, 8, 11] t ∧ Columns s (elemsPerRow 8) [t] 128 ∧
      (127 : BitVec 11).toNat < elemsPerRow 8 ∧ SourceTile s 1 [1, 2, 3, 4, 5, 8, 9, 11] t ∧ (1 : BitVec 3).toNat < elemsPerRow 8 / 64 := by
  refine ⟨tiled_at _ _ _ _ 0 (by decide), tiled_rows _ _ _ _, by unfold Readable; decide,
    ⟨3, tiled_at _ _ _ _ 3 (by decide), rfl, by decide⟩, ⟨2, tiled_at _ _ _ _ 2 (by decide), rfl, by decide⟩,
    ⟨1, tiled_at _ _ _ _ 1 (by decide), rfl, by decide⟩, by unfold Columns; decide, by decide,
    ⟨1, tiled_at _ _ _ _ 1 (by decide), rfl, by decide⟩, by decide⟩

/-- ElementsOfARow and VectorFrame. -/
theorem wit_row : (1 : Nat) ≤ 11 ∧ 1023 + [0xF].length ≤ elemsPerRow 10 ∧ 1023 < elemsPerRow 10 ∧
    Slot.vec ∈ slotsOf (.vmov 0 1 0) ∧ tokenDest (.vmov 0 1 0) = [] ∧ (match exec (.vmov 0 1 0) (tiled 0 1 1 1) with
      | .next t => t.ops == [] | _ => false) = true := by decide

/-- VectorConversions: a wide and a narrow source, the last part, no negative scale; a reduction; a quantisation of whole
blocks; the tiles of a softmax merge. -/
theorem wit_conversions :
    (let s := tiled 0 1 4 1
     let t : Tile := { Tile.init with tag := 1 }
     let u : Tile := { Tile.init with tag := 4 }
     TileAt s 0 0 ∧ RowsOk s ∧ SourceTile s 1 [1, 2, 3, 4, 5, 6, 8, 9, 10, 11] t ∧ SourceTile s 1 [1, 2, 3] t ∧
       SourceTile s 2 [4, 5, 6, 7, 9, 10] u ∧ Readable s [6] ∧
       Columns s (min (elemsPerRow 1) (elemsPerRow 4)) [] 128 ∧ badScale t (included s 0 1) 0 128 = none ∧
       (2 * elemsPerRow 1 ≤ elemsPerRow 4 ∧ ((3 : BitVec 3).toNat + 1) * elemsPerRow 1 ≤ elemsPerRow 4) ∧
       Columns s (elemsPerRow 1) [] 128 ∧ badScale u (included s 0 1) (3 * 128) 128 = none ∧ classMatch 1 1 = true ∧
       (127 : BitVec 11).toNat < elemsPerRow 1 ∧ 128 % 64 = 0) ∧
    (let s := tiled 1 1 1 1
     TileAt s 0 0 ∧ (0 : Reg).toNat < 63 ∧ (2 : Reg).toNat < 63 ∧ TileAt s (0 + 1) 1 ∧ TileAt s 2 2 ∧ TileAt s (2 + 1) 3 ∧
       (∀ q ∈ [0, 1, 2, 3], (tileOf (here s) q).tag = 1) ∧ Columns s 128 [] 128) := by
  refine ⟨⟨tiled_at _ _ _ _ 0 (by decide), tiled_rows _ _ _ _, ⟨1, tiled_at _ _ _ _ 1 (by decide), rfl, by decide⟩,
    ⟨1, tiled_at _ _ _ _ 1 (by decide), rfl, by decide⟩, ⟨2, tiled_at _ _ _ _ 2 (by decide), rfl, by decide⟩,
    by unfold Readable; decide, by unfold Columns; decide, by decide +kernel, by decide, by unfold Columns; decide,
    by decide +kernel, by decide, by decide, by decide⟩,
    tiled_at _ _ _ _ 0 (by decide), by decide, by decide, tiled_at _ _ _ _ 1 (by decide), tiled_at _ _ _ _ 2 (by decide),
    tiled_at _ _ _ _ 3 (by decide), by decide, by unfold Columns; decide⟩

/-- RowControl: a sound and a reserved word, a score column, a valid rule, a run of four tagged tiles, an aligned record. -/
theorem wit_row_control :
    let img : BitVec 256 := 0x40800000 + 5 * 2 ^ 160 + 3 * 2 ^ 176 + 3 * 2 ^ 181 + 5 * 2 ^ 184
    let num : Nat → Nat → Nat := fun k m => (img.extractLsb' k m).toNat
    let image := [img.extractLsb' 0 64, img.extractLsb' 64 64, img.extractLsb' 128 64, img.extractLsb' 192 64]
    let t : Tile := { Tile.init with tag := 1 }
    let s : State := stateOf { CoreSt.init with tiles := [(0, t), (1, t), (2, t), (3, t)] }
      { Ctx.init with wsize := 60, shape := 1, scalars := [(6, 0), (7, 7)], rules := [(7, image)] }
    RowsOk s ∧ TileAt s 0 0 ∧ (5 : BitVec 3).toNat < 6 ∧ Readable s [6] ∧ Readable s [7] ∧ (sv s 6).toNat % 8 < 6 ∧ 6 ≤ (sv s 7).toNat % 8 ∧
      SourceTile s 1 [1, 2, 3] { Tile.init with tag := 1 } ∧ (127 : BitVec 10).toNat < elemsPerRow 1 ∧
      (num 190 66 == 0 && (!img.getLsbD 182 || num 176 5 != 0) && (!img.getLsbD 183 || num 172 4 != 0) &&
        decide (num 160 6 ≤ num 184 6)) = true ∧ Tbl.look [] (me s).rules (7 : BitVec 3).toNat = image ∧
      (∀ q ∈ [0, 1, 2, 3], (tileOf (here s) q).tag.toNat ∈ [1, 2, 3, 4, 5, 6, 7, 8, 9, 10, 11, 12] ∧
        ∀ r ∈ included s 0 1 ++ List.range 1, ((tileOf (here s) q).word r).toNat % 8 < 6) ∧
      (∀ k q, [0, 1, 2, 3][k]? = some q → (0 : Reg).toNat + k < 64 ∧ TileAt s ((0 : Reg) + BitVec.ofNat 6 k) q) ∧
      (sv s 6).toNat % 32 = 0 ∧ Local s (sv s 6).toNat 32 := by
  intro img num image t s
  have at_ : ∀ x : Reg, x.toNat < 60 → TileAt s x x.toNat := fun x h => ⟨⟨h, (Nat.zero_add _).symm⟩, rfl⟩
  refine ⟨by unfold RowsOk; decide, at_ 0 (by decide), by decide, by unfold Readable; decide, by unfold Readable; decide,
    by decide, by decide, ⟨1, at_ 1 (by decide), rfl, by decide⟩, by decide, by decide +kernel, by decide +kernel, by decide +kernel, ?_, by decide,
    ⟨by decide, by decide, rfl⟩⟩
  · intro k q h
    match k, h with
    | 0, h => cases h; exact ⟨by decide, at_ 0 (by decide)⟩
    | 1, h => cases h; exact ⟨by decide, at_ 1 (by decide)⟩
    | 2, h => cases h; exact ⟨by decide, at_ 2 (by decide)⟩
    | 3, h => cases h; exact ⟨by decide, at_ 3 (by decide)⟩
    | k + 4, h => simp at h

/-- Tiles x0 and x1 of these tags with the scratchpad bytes given from offset 0, ROWS 1, and scalars s6 = 0, s7 = 64. -/
def loaded (t0 t1 : BitVec 4) (b : List Byte) : State :=
  { tiled t0 t1 0 0 with mem := memPuts [] (cellsAt (spmAddr 0 0) b) }

/-- A chain block of one `vneg` stage from tile 0 into tile 1, FP32. -/
def chainBytes : List Byte := toBytes 8 (1 + 1 * 2 ^ 20 + 1 * 2 ^ 42) ++ toBytes 8 (0x08 * 2 ^ 56 + 1 * 2 ^ 52 + 1 * 2 ^ 48)

/-- EngineFormatIssue: a valid chain; a saved, a noticed tile; free queues, an empty and a filled one; a run of one tile. -/
theorem wit_engine_issue :
    (let s := loaded 1 0 chainBytes
     let blk := blockOf (memBytes s.mem (spmAddr 0 0) 16)
     Readable s [6, 7, 0] ∧ HasRoom s ∧ (sv s 6).toNat % 8 = 0 ∧ Local s (sv s 6).toNat 72 ∧
       ((byteWord (memBytes s.mem (spmAddr 0 0) 8) 0).extractLsb' 0 4).toNat = 1 ∧
       (∀ i ∈ blk.src, chainFree s i = .ok ()) ∧ chainFree s blk.dst = .ok () ∧ blockValid s blk = true ∧
       (∃ n, vecCount s (elemsPerRow blk.dfmt)
        (((capturedSources s blk).filter (fun p => (usedSources blk).contains p.1)).map (·.2)) = .ok n) ∧
       inWindow s blk.dst = some 1) ∧
    (let s := tiled 1 1 1 1
     TileAt s 1 1 ∧ RowsOk s ∧ (tileCapture s 1).tag.toNat ∈ [1, 2, 3] ∧ (sv s 7).toNat % 64 = 0 ∧
       (sv s 7).toNat + 4 * rowsOf (me s) ≤ Config.spmBytes ∧
       (∀ r ∈ included s 0 (rowsOf (me s)), ((tileCapture s 1).word r).toNat % 8 < 6) ∧ atwEn (sv s 7) = false ∧
       routesWaiting s (dieOf s.cur.1) < 32 ∧ cmxWaiting (clusterAt s (clusterOf s.cur.1)) < 16 ∧
       (clusterAt s (clusterOf s.cur.1)).queue = [] ∧ findOp s s.cur.1 s.cur.2 ((me s).cseq + 1).toNat = none ∧
       (sv s 7).toNat + 136 ≤ Config.spmBytes ∧ (here s).carve = none ∧ s.rplay = none ∧
       (let c : CmxCmd := { core := 1, ctx := 0, seq := 1 }
        (clusterAt { s with clusters := [(0, { Cluster.init with queue := [c] })] } 0).queue ≠ []) ∧
       (tileCapture s 1).tag.toNat ∈ [1, 2, 3, 4, 5, 6, 7, 8, 9, 10, 11, 12] ∧
       (sv s 7).toNat + (16 : BitVec 5).toNat * cmxArea ≤ Config.spmBytes ∧
       (∀ k q, [1][k]? = some q → (1 : Reg).toNat + k < 64 ∧ TileAt s ((1 : Reg) + BitVec.ofNat 6 k) q)) := by
  refine ⟨⟨by unfold Readable; decide, by unfold HasRoom; decide, by decide +kernel, ⟨by decide, by decide, rfl⟩, by decide +kernel,
    by decide +kernel, by decide +kernel, by decide +kernel, exists_ok (by decide +kernel), by decide +kernel⟩,
    tiled_at _ _ _ _ 1 (by decide), tiled_rows _ _ _ _, by decide +kernel, by decide, by decide, by decide +kernel, by decide, by decide, by decide,
    by decide, by decide, by decide, by decide, by decide, by decide, by decide, by decide, ?_⟩
  intro k q h
  match k, h with
  | 0, h => cases h; exact ⟨by decide, tiled_at _ _ _ _ 1 (by decide)⟩
  | k + 1, h => simp at h

/-- MatrixIssue: an idle engine, a free merge buffer, and an inner product of an FP32 tile C with BF16 operands, B in the
scratchpad; the tiles and the stream of the other forms. -/
theorem wit_matrix :
    (let s := tiled 1 2 2 12
     let f := MmForm.of 0 false 0 1 6 false false 2 false false false 0
     MtxIdle s ∧ MergeFree s ∧
       MmReady s f 0 0 1 0 (((mmTags s f (tileCapture s 1) 0).toOption.map (·.1)).getD 0) none none (tileCapture s 1) []) ∧
    (let s := tiled 1 2 2 12
     TileAt s 1 1 ∧ TileAt s (1 + 1) 2 ∧ (mtxClass (tileCapture s 1).tag.toNat).isSome = true ∧
       (tileCapture s 2).tag = (tileCapture s 1).tag ∧ Local s 0 (recordLen * 1) ∧ (3 : Nat) ≠ 1 ∧
       (tileCapture s 3).tag = 12) ∧
    (let st : Stream := { aStream false with out := true, fetched := 0, rp := 0, freed := 0 }
     let s := stateOf CoreSt.init { Ctx.init with streams := [(7, st)], shape := 8 }
     Tbl.find (me s).streams 7 = some st ∧ RowsOk s ∧ MergeFree s ∧ st.out = true ∧ rowsOf (me s) ≤ st.len ∧
       st.fetched + rowsOf (me s) ≤ st.total ∧ rowsOf (me s) ≤ st.len - (st.fetched - st.freed)) := by
  refine ⟨⟨⟨by unfold HasRoom; decide, by decide⟩, ⟨by decide, by decide⟩, ?_⟩, ?_, ?_⟩
  · exact {
      idle := ⟨by unfold HasRoom; decide, by decide⟩
      base := ⟨by unfold Readable; decide, by decide⟩
      record := (rfl : (0 : Word) = 0)
      tileA := tiled_at _ _ _ _ 1 (by decide)
      tileC := ⟨tiled_at _ _ _ _ 0 (by decide), by decide⟩
      buffer := by intro h; cases h
      rows := tiled_rows _ _ _ _
      half := by decide +kernel
      tags := by decide +kernel
      oldTag := by decide +kernel
      aligned := by decide +kernel
      extents := by decide +kernel
      still := by decide +kernel
      stream := by decide +kernel
      source := rfl
      sparseA := by decide +kernel
      sparseB := by intro v h; cases h
      input := by decide +kernel
      steady := by decide +kernel
      scalesA := by decide +kernel
      scalesB := by intro h; cases h }
  · exact ⟨tiled_at _ _ _ _ 1 (by decide), tiled_at _ _ _ _ 2 (by decide), by decide +kernel, by decide +kernel,
      ⟨by decide, by decide, rfl⟩, by decide, by decide +kernel⟩
  · exact ⟨rfl, by unfold RowsOk; decide, ⟨by decide, by decide⟩, rfl, by decide, by decide, by decide⟩

/-- Tiles as in `tiled`, with these operations. -/
def tiledOps (t0 t1 t2 t3 : BitVec 4) (l : List Op) : State := { tiled t0 t1 t2 t3 with ops := l }

/-- A pack list of one tile register, x0, with one row. -/
def packBytes : List Byte := toBytes 8 (1 + 1 * 2 ^ 16) ++ toBytes 8 (1 * 2 ^ 40)

/-- A compaction command at the head of its cluster's queue. -/
def compacting (i : Instr) (running : Bool) : State × Op :=
  let o : Op := { newOp (tiled 1 1 1 1) i 5 with bytes := packBytes, busy := [(0, 1)] }
  ({ tiledOps 1 1 1 1 [o] with
     clusters := [(0, { Cluster.init with queue := [{ core := 0, ctx := 0, seq := 1 }], running := running })] }, o)

/-- EngineEventsComplete, the commands: a chain; both compaction commands, to start and to complete, the queue empty after
them. -/
theorem wit_engine_events :
    (let o : Op := { newOp State.reset (.chain 5 6) 5 with bytes := chainBytes }
     findOp (oneOp o) o.core o.ctx o.seq = some o) ∧
    (let s := compacting (.cmxPack 5 6 1 0 false 1 0) false
     findOp s.1 s.2.core s.2.ctx s.2.seq = some s.2 ∧
       (clusterAt s.1 0).queue = [{ core := s.2.core, ctx := s.2.ctx, seq := s.2.seq }] ∧ (clusterAt s.1 0).running = false ∧
       ∃ q, readPackList s.1 s.2 = .ok q) ∧
    (let s := compacting (.cmxPack 5 6 1 0 false 1 0) true
     (clusterAt s.1 0).running = true ∧ cmxBlocked s.1 s.2 (listTiles s.2) = false ∧
       (match runPack s.1 s.2 with
        | .ok (r, _) => decide ((clusterAt r 0).queue = [{ core := s.2.core, ctx := s.2.ctx, seq := s.2.seq }])
        | _ => false) = true) ∧
    (let s := compacting (.cmxRest 5 6 1 0 false 1) true
     cmxBlocked s.1 s.2 (restTargets s.1 s.2) = false ∧
       (match runRest s.1 s.2 with
        | (r, .ok _) => decide ((clusterAt r 0).queue = [{ core := s.2.core, ctx := s.2.ctx, seq := s.2.seq }])
        | _ => false) = true) := by
  refine ⟨rfl, ⟨by decide +kernel, by decide +kernel, by decide +kernel, exists_ok (by decide +kernel)⟩, by decide +kernel,
    by decide +kernel⟩

/-- EngineEventsComplete: a second compaction command in the queue starts after the first one. -/
theorem wit_engine_next :
    let s := compacting (.cmxPack 5 6 1 0 false 1 0) true
    let p : Op := { s.2 with seq := 2 }
    let c : CmxCmd := { core := 0, ctx := 0, seq := 2 }
    let x : State := { s.1 with ops := [s.2, p], clusters := [(0, { Cluster.init with queue := [{ c with seq := 1 }, c], running := true })] }
    (match runPack x s.2 with
     | .ok (r, n) =>
       let v := popCmx (finishOp r s.2 (tokenOk n)) 0
       decide ((clusterAt r 0).queue = { c with seq := 1 } :: [c] ∧ (clusterAt v 0).queue = c :: [] ∧ findOp v 0 0 2 = some p) &&
         (match readPackList v p with | .ok _ => true | _ => false)
     | _ => false) = true := by
  decide +kernel

/-- EngineEventsComplete: an exit save without rows, and a matrix instruction whose time has come, that has no bank in
transition to report. -/
theorem wit_engine_rest :
    (let o : Op := { newOp State.reset (.kvSv 5 6 7 8 ⟨0, 0, false⟩) 5 with rows := 0, done := [0] }
     o.susp = none ∧ o.ending = none ∧ ∀ k ∈ kvSvChunks o, k ∈ o.done) ∧
    (let o : Op := newOp State.reset (.bmpCnt 6 5 false 0) 5
     let s : State := { oneOp o with time := 100 }
     mtxHead s o.core = some o ∧ mtxDue o ≤ s.time ∧
       (match runChunks mtxChunk s o (mtxChunks o) with
        | .done r p => decide (p.key = o.key ∧ p.tok = o.tok ∧ (p.nums[4]?).getD 0 = 0) &&
            (match runMtx r p with | .ok _ => true | _ => false)
        | _ => false) = true) := by
  decide +kernel

/-- EngineEventsComplete, faults: a copy whose source has no range is stopped by a translation fault, one out of its scratchpad
by another, with no access under way and with one; a command that waits for its accesses to end. -/
theorem wit_suspension :
    (let o : Op := { newOp State.reset (.cp 5 6 7 0 true false 64 ⟨0, 0, false⟩) 5 with nums := [64] }
     (match runChunks opChunk (oneOp o) o (opChunks o) with
       | .stopped r p (.suspend _) => decide (p.key = o.key ∧ p.tok = o.tok ∧ findOp r o.core o.ctx o.seq = some p ∧ p.orphan = false)
       | _ => false) = true) ∧
    (let o : Op := { newOp State.reset (.cpG 5 6 7 8 true true false 1 1 ⟨0, 0, false⟩) 5 with
                     a := 0x300000, nums := [1, 64] }
     let stops (s : State) (pending : Bool) : Bool :=
       match runChunks opChunk s o (opChunks o) with
       | .stopped r p (.fail _ _ _ _) => decide (p.key = o.key ∧ p.tok = o.tok ∧ findOp r o.core o.ctx o.seq = some p ∧
           p.orphan = false ∧ accessPending r o.core o.ctx o.seq = pending)
       | _ => false
     stops (oneOp o) false = true ∧ stops { oneOp o with reqs := [aReq (.write 1 99 0 []) []] } true = true) ∧
    (let o : Op := { newOp State.reset (.cp 5 6 7 0 true false 64 ⟨0, 0, false⟩) 5 with ending := some (tokenError 0, none) }
     o.ending = some (tokenError 0, none) ∧ accessPending (oneOp o) o.core o.ctx o.seq = false) := by decide +kernel

/-- The state of `mapped` with this stream. -/
def streaming (q : Nat) (st : Stream) : State :=
  { mapped with cores := [(0, { here mapped with ctxs := [(0, { me mapped with streams := [(q, st)] })] })] }

/-- EngineEventsComplete, the engines: an idle routing engine with a pass; streams with a row to write, to fetch, and to write
as the last one of a drained stream; a finished task; a pending stop; a bundle that goes. -/
theorem wit_engine_parts :
    (let s : State := { State.reset with dies := [(0, { Die.init with routes := [{ core := 0, ctx := 0, seq := 1 }] })] }
     (dieAt s 0).routing = false ∧ resumedRoutes s 0 ++ (dieAt s 0).routes = [{ core := 0, ctx := 0, seq := 1 }]) ∧
    (let st : Stream := { aStream false with out := true, fetched := 1, rp := 0, freed := 0, desc := BitVec.ofNat 512 0x10000 }
     let s : State := { streaming 7 st with reqs := (List.range 8).map (fun i =>
       { aReq (.write 1 1 (0x10000 + 64 * i) []) [] with id := i, performed := true }) }
     Tbl.find (ctxOf s 0 0).streams 7 = some st ∧ st.drain = none ∧ ∃ q, writeRow s 0 0 st = .ok q) ∧
    (let st : Stream := { aStream false with total := 9, desc := BitVec.ofNat 512 0x10000 }
     let s : State := { streaming 7 st with reqs := (List.range 8).map (fun i =>
       { aReq (.read 1 9 (0x11000 + 64 * i)) [] with id := i, performed := true, value := List.replicate 64 7 }) }
     Tbl.find (ctxOf s 0 0).streams 7 = some st ∧ ∃ q, fetchRow s 0 0 st = .ok q) ∧
    (let st : Stream := { aStream false with out := true, fetched := 1, rp := 0, freed := 0, desc := BitVec.ofNat 512 0x10000, drain := some 2, seq := 3 }
     let o : Op := { newOp State.reset (.qDrain 5 7) 5 with seq := 2 }
     let s : State := { streaming 10 st with ops := [o], reqs := (List.range 8).map (fun i =>
       { aReq (.write 3 1 (0x10000 + 64 * i) []) [] with id := i, performed := true }) }
     (match writeRow s 0 0 st with
      | .ok (r, st') =>
        let v := putStream r 0 0 10 st'
        decide (st'.drain = some 2 ∧ st'.fetched = st'.freed ∧ accessPending v 0 0 st'.seq = false ∧
          appending v 0 0 st'.seq = false ∧ stillBound v 0 0 st' = false ∧ findOp v 0 0 2 = some o)
      | _ => false) = true) ∧
    (let s := stateOf CoreSt.init { Ctx.init with status := .finishing, task := some ⟨0, 0⟩ }
     settled s 0 0 = true ∧ stopCount (ctxOf s 0 0) = 0 ∧ (ctxOf s 0 0).status = .finishing ∧ (ctxOf s 0 0).task = some ⟨0, 0⟩) ∧
    (let i : TrapInfo := { cause := 0x50, addr := 0, detail := 0, index := 0, engine := 2, slot := 7, cseq := 1, estat := 0 }
     let s := stateOf CoreSt.init { Ctx.init with status := .running, unc := [i] }
     (ctxOf s 0 0).status = .running ∧ (nextStop (ctxOf s 0 0)).isSome = true) ∧
    (let s := oneS0 0x011461C000000000
     mayIssue s 0 0 = true ∧ (match issueAt s (beginBundle s 0 0) with | .went (.next _) => true | _ => false) = true) := by
  refine ⟨by decide +kernel, ⟨by decide +kernel, by decide +kernel, exists_ok (by decide +kernel)⟩,
    ⟨by decide +kernel, exists_ok (by decide +kernel)⟩, by decide +kernel, by decide, by decide, by decide +kernel⟩

/-- A device none of whose contexts waits for accesses to perform. -/
theorem quiet_stateOf (k : CoreSt) (c : Ctx) (h : c.arrivals = []) (hs : ∀ j, c.status ≠ .returning j) :
    Quiet (stateOf k c) := by
  intro n m
  by_cases hn : n = 0
  · by_cases hm : m = 0
    · subst hn hm; exact ⟨h, hs⟩
    · subst hn
      have : ctxOf (stateOf k c) 0 m = Ctx.init := by
        simp [ctxOf, coreOf, Tbl.look, stateOf, Ne.symm hm]
      rw [this]; exact ⟨rfl, by intro j h; cases h⟩
  · have : ctxOf (stateOf k c) n m = Ctx.init := by
      simp [ctxOf, coreOf, Tbl.look, stateOf, Ne.symm hn, CoreSt.init]
    rw [this]; exact ⟨rfl, by intro j h; cases h⟩

theorem quiet_reset : Quiet State.reset := fun _ _ => ⟨rfl, by intro j h; cases h⟩

/-- NetworkEvents, accesses: a store, an engine's write and a read at their turn at their memory port. -/
theorem wit_requests :
    Quiet State.reset ∧
    ∀ k ∈ [ReqKind.store [(0x1000, 7)], .load 1, .write 1 0 0 [(0x1000, 7)], .read 1 0 0],
      let r := aReq k [0x1000]
      let p := aPacket 2 0 0x1000 128 0 (.memPort 0)
      let s : State := { State.reset with reqs := [r], packets := [p] }
      findPacket s p.id = some p ∧ findReq s p.id = some r ∧ (grantable s p).isSome = true ∧ p.pkt.typ ≠ 7 ∧
        (r.pas.all (fun a => match outsideCheck s a with | .ok _ => true | _ => false)) = true ∧
        s.rlog = none ∧ s.rplay = none ∧ s.relocs = [] := by
  exact ⟨quiet_reset, by decide +kernel⟩

/-- Some output of a point grants a packet there. -/
def granted (s : State) (n : NetPoint) (out : Nat) (p : NetPacket) : Bool :=
  (choose ((contenders s n out).map NetPacket.contender) (grantsSince s n out)).map (·.p) == some p

/-- NetworkEvents, grants: a packet that moves on to a router, one that is delivered at its router, and one that becomes send
work of a queue pair. -/
theorem wit_grants :
    (let p := aPacket 2 0 0x1000 128 0 (.attach 0 5)
     let s : State := { State.reset with packets := [p] }
     granted s p.place 0 p = true ∧ nextBuffer s p 0 = some (0, 5, 4)) ∧
    (let p := aPacket 2 0 0x1000 128 0 (.router 0 1)
     let s : State := { State.reset with packets := [p] }
     granted s p.place 4 p = true ∧ nextBuffer s p 4 = none ∧ restAt s p.pkt = some (.memPort 0, 0)) ∧
    (let p := aPacket 2 0 Config.roceBase 204 0 (.hostQueue 0)
     let r := aReq (.store [(Config.roceBase, 7)]) [Config.roceBase]
     let s : State := { State.reset with packets := [p], reqs := [r], windows := [(0, BitVec.ofNat 256 (Config.roceBase + 0x1000 * 2 ^ 96 + 2 ^ 144))], qps := [(0, 1 <<< 32)] }
     granted s p.place 0 p = true ∧ findReq s p.id = some r ∧
       (r.pas.all (fun a => match outsideCheck s a with | .ok _ => true | _ => false)) = true ∧
       rdmaOf s r = some (.write [7]) ∧ (windowAt s Config.roceBase).isSome = true) := by
  decide +kernel

/-- NetworkEvents, grants: a packet that leaves the device by the one port in service. -/
theorem wit_edge_grant :
    let p := aPacket 2 0 0x1000 128 0 (.fabricEdge 0)
    let s : State := { State.reset with
      device := 1, packets := [p], ports := (List.range 23).map (fun n => (n, { Port.init with failed := true })) }
    portFor s 0 p.pkt = some 23 ∧ granted s p.place 23 p = true := by
  intro p s
  have hw : workingPorts s 0 = [23] := by decide +kernel
  have h : portFor s 0 p.pkt = some 23 := by
    unfold portFor; rw [hw]; simp [Nat.mod_one]
  refine ⟨h, ?_⟩
  have hp : p.place = .fabricEdge 0 := rfl
  have hs : s.packets = [p] := rfl
  have hm : mayPerform s p = true := rfl
  have hv : mayMove s p 23 = true := rfl
  have hwants : wants s p = some 23 := by unfold wants; rw [hp]; exact h
  have hc : contenders s p.place 23 = [p] := by
    simp [contenders, hp, hs, hwants, headsOutput, hm, hv]
  unfold granted
  rw [hc]
  decide +kernel
/-- NetworkEvents, packets: one whose QRES has wrapped, and one of each type that arrives. -/
theorem wit_packets :
    (let p := aPacket 2 0 0x1000 128 0 (.router 0 0)
     findPacket { State.reset with packets := [p] } p.id = some p ∧ p.owed ≠ 0 ∧ p.pkt.slack ≠ 0) ∧
    Quiet tasked ∧
    (∀ typ ∈ [4, 5, 6], let p := aPacket typ 0 0 0 1 (.unit 0)
     let s : State := { tasked with packets := [p] }
     findPacket s p.id = some p ∧ p.place = .unit p.pkt.dst.toNat ∧ s.rplay = none ∧ p.pkt.typ.toNat = typ ∧
       p.pkt.dst.toNat < Config.numCores ∧ (p.pkt.aux.extractLsb' 8 3).toNat < 5 ∧
       (ctxOf s p.pkt.dst.toNat (p.pkt.aux.extractLsb' 8 3).toNat).task.isSome = true ∧
       cookieOf s p.pkt.dst.toNat (p.pkt.aux.extractLsb' 8 3).toNat = p.pkt.cookie ∧
       atwDevice p.pkt.atw = s.device.toNat ∧ coreRuns s (atwCore p.pkt.atw) p.pkt.cookie = true ∧
       suspendedLaunch s p.pkt.cookie = none) := by
  refine ⟨by decide +kernel, quiet_stateOf _ _ rfl (by intro j h; cases h), by decide +kernel⟩

/-- A write over a queue pair that waits for its acknowledgement. -/
def anOutbound (req : Option Nat) : Outbound := { qp := 5, va := 0, rkey := 0, kind := .write [7], req := req, note := none }

/-- NetworkEvents, links: acknowledgements, a timeout, a refusal; a flit that enters, a malformed one, a port in service; a ready
queue pair. -/
theorem wit_links :
    (∀ q : Option Nat, { State.reset with outbound := [anOutbound q] }.outbound.find? (fun x => x.qp == 5) = some (anOutbound q)) ∧
    (let p := aPacket 2 0 0 204 0 .away
     let r := aReq (.write 1 0 0 [(Config.roceBase, 7)]) [Config.roceBase]
     let s : State := { State.reset with packets := [p], reqs := [r], outbound := [anOutbound (some 0)] }
     findPacket s p.id = some p ∧ findReq s p.id = some r) ∧
    (let p := aPacket 2 0 0 205 0 .away
     let r := aReq (.load 1) [Config.domainBase]
     let s : State := { State.reset with device := 1, packets := [p], reqs := [r], time := 2 ^ 40 }
     findPacket s p.id = some p ∧ findReq s p.id = some r ∧ r.kind.engineSeq = none ∧ r.orphan = false ∧
       p.pkt.dstDev ≠ s.device ∧ p.pkt.vc = 0 ∧ p.pkt.typ ≠ 7 ∧ p.sent + timeoutTicks s ≤ s.time) ∧
    (let r := aReq (.store [(Config.roceBase, 7)]) [Config.roceBase]
     let s : State := { State.reset with reqs := [r], outbound := [anOutbound (some 0)] }
     s.outbound[0]? = some (anOutbound (some 0)) ∧ (anOutbound (some 0)).note = none ∧ findReq s r.id = some r) ∧
    (let h : BitVec 512 := Packet.header { (aPacket 1 0 0x1000 128 8 .away).pkt with srcDev := 1 }
     let p := packetOfHeader h
     let s : State := { State.reset with bringup := .operational }
     malformed h = false ∧ p.dstDev = s.device ∧ p.srcDev ≠ s.device ∧ p.ndata.toNat = 0 ∧ p.vc ≠ 1 ∧ s.rplay = none ∧ s.powered = true) ∧
    malformed (1 <<< 240) = true ∧ ((47 : Nat) < 48 ∧ (portState State.reset 47).failed = false) ∧
    ((1023 : Nat) < 1024 ∧ qpState { State.reset with qps := [(1023, 1 <<< 32)] } 1023 = 1) := by
  refine ⟨fun q => by cases q <;> rfl, by decide +kernel, by decide +kernel, by decide +kernel, by decide +kernel, by decide +kernel, by decide,
    by decide +kernel⟩

/-- A tenant with ASID 1 whose directory holds the range of `mapped`, with RA and SA as well and with a queue. -/
def tenant : State :=
  let desc : BitVec 256 := fetchDesc ||| 3 <<< 114 ||| 3 <<< 112 ||| 3 <<< 110
  { State.reset with
    bringup := .operational
    queues := [(15, { Queue.init with desc := 1 + 4 * 2 ^ 4 + 1 * 2 ^ 32 + 0x10000 * 2 ^ 80 + 0x11000 * 2 ^ 136 })]
    mem := memPuts (memPuts [] (cellsAt 0x10 (toBytes 16 (0x2000 + 2 ^ 64 + 2 ^ 80 + 2 ^ 97)))) (cellsAt 0x2000 (toBytes 32 desc.toNat)) }

/-- RangeCommands: a relocation of the tenant's range with a chunk left, and with none; the commit of a directory whose array
and root entry are apart; a scratchpad that takes a descriptor. -/
theorem wit_relocation :
    (∀ k ∈ [0, 1],
      let o : Op := { newOp State.reset (.rngReloc 5 6 7 8 0) 5 with asid := 1, started := true, nums := [0, 0x10] }
      let s : State := { tenant with ops := [o], relocs := [(1, 0x10, 0x10, k)] }
      findOp s o.core o.ctx o.seq = some o ∧ o.live = true ∧ relocOf s o = some (1, 0x10, 0x10, k) ∧ accessesDone s o = true ∧
        ((rangeHolding (directoryOf s 1) 0x10).map (fun d => (relocChunks d, unitAddr (dVbase d) (dOff d), unitAddr (dVbase d) (0x10 : BitVec 45).toInt,
          4096 * min 16 (dLen d)))) = some (1, 0x10000, 0x20000, 0x8000)) ∧
    MemSafe tenant ∧ (∀ a, 0x10000 ≤ a → a < 0x28000 → regionOf a = .hbm 0) ∧
    (rootOf tenant 1).map (fun r => decide (rootAddr tenant 1 + 16 ≤ r.base)) = some true ∧ rootAddr tenant 1 = 0x10 ∧
    (match engineWrite State.reset (newOp State.reset .nop 0) true 64 (toBytes 32 0) [] with | .ok _ => true | _ => false) = true := by
  refine ⟨by decide +kernel, (by decide +kernel : Memory.wf tenant.mem = true), ?_, by decide +kernel, by decide +kernel, by decide +kernel⟩
  intro a h k
  unfold regionOf
  rw [if_pos (by have : Config.hbmBytes = 0x324A9A7000 := rfl; omega)]

/-- Address space 1 with these ranges in a directory of this capacity. -/
def withRanges (l : List (BitVec 256)) (cap : Nat) : State :=
  let root := cellsAt 0x10 (toBytes 16 (0x2000 + 2 ^ 64 + l.length * 2 ^ 80 + cap * 2 ^ 97))
  { State.reset with mem := memPuts (memPuts [] root) (cellsAt 0x2000 (l.flatMap (fun d => toBytes 32 d.toNat))) }

/-- The range of `mapped` with its first `n` units from unit `v` on. -/
def rangeAt (v n : Nat) : BitVec 256 := reshape fetchDesc v n 1 1

/-- A range command of address space 1 at an address, its reads of the directory for unit `vp` returned. -/
def commanded (s : State) (i : Instr) (va c : Word) (vp : Nat) : State × Op :=
  let o : Op := { newOp State.reset i 5 with asid := 1, nums := [0], b := va, c := c }
  let reads := (walkReads s 1 vp).map (fun p => { aReq (.read 1 1 p.1) [] with value := physRead s p.1 p.2, performed := true })
  ({ s with ops := [o], reqs := reads }, o)

/-- RangeCommands, results: an address inside the one range of a directory with room and of a full one, at its start and past
it, and an address outside; what the other commands on a range suppose is the same. -/
theorem wit_range_results :
    (∀ p ∈ [((1 : Nat), (0x11000 : Word), Instr.rngSplit 5 6 7 0), (2, 0x10000, .rngSplit 5 6 7 0), (2, 0x11000, .rngInv 5 6 7 8 false 0)],
      let cap := p.1
      let va := p.2.1
      let x := commanded (withRanges [rangeAt 0x10 4] cap) p.2.2 va 1 (va.toNat / 4096)
      findOp x.1 x.2.core x.2.ctx x.2.seq = some x.2 ∧ x.2.live = true ∧
        readDirectory x.1 x.2 (va.toNat / 4096) = .ok () ∧ accessesDone x.1 x.2 = true ∧
        rangeHolding (directoryOf x.1 1) (va.toNat / 4096) = some (rangeAt 0x10 4) ∧
        relocating x.1 1 (rangeAt 0x10 4) = false ∧ (rootOf x.1 1).map (fun r => (r.cap, r.count)) = some (cap, 1) ∧
        (directoryOf x.1 1).find? (fun e => dVbase e == 0x14) = none) ∧
    (let x := commanded (withRanges [rangeAt 0x10 4] 2) (.rngDel 5 6 7 0) 0x20000 0 0x20
     readDirectory x.1 x.2 0x20 = .ok () ∧ accessesDone x.1 x.2 = true ∧ rangeHolding (directoryOf x.1 1) 0x20 = none) ∧
    (let x := commanded State.reset (.rngInv 5 6 7 8 false 0) 0x20000 0 0x20
     readDirectory x.1 x.2 0x20 = .ok () ∧ rootOf x.1 1 = none) := by
  decide +kernel

/-- RangeCommands, results: a range that relocates; two neighbours that merge, two that do not, and a second one that relocates. -/
theorem wit_range_neighbours :
    (let x := commanded { withRanges [rangeAt 0x10 4] 2 with relocs := [(1, 0x10, 0, 0)] } (.rngDel 5 6 7 0) 0x10000 0 0x10
     readDirectory x.1 x.2 0x10 = .ok () ∧ accessesDone x.1 x.2 = true ∧ relocating x.1 1 (rangeAt 0x10 4) = true) ∧
    (∀ p ∈ [(true, false), (false, false), (true, true)],
      let same := p.1
      let moves := p.2
      let d := rangeAt 0x10 4
      let e := if same then rangeAt 0x14 4 else withOff (rangeAt 0x14 4) 1
      let x := commanded { withRanges [d, e] 2 with relocs := if moves then [(1, 0x14, 0, 0)] else [] } (.rngMerge 5 6 7 0) 0x10000 0 0x10
      readDirectory x.1 x.2 0x10 = .ok () ∧ accessesDone x.1 x.2 = true ∧ rangeHolding (directoryOf x.1 1) 0x10 = some d ∧
        relocating x.1 1 d = false ∧ (directoryOf x.1 1).find? (fun f => dVbase f == dVbase d + dLen d) = some e ∧
        relocating x.1 1 e = moves ∧ mergeable d e = same) := by
  decide +kernel

/-- RangeCommands, results: `rng.ins` whose image has returned, fit and free, fit and meeting another range, and unfit, in a
directory with room and a full one. -/
theorem wit_insert :
    ∀ p ∈ [(rangeAt 0x20 4, 2, true, false), (rangeAt 0x20 4, 1, true, false), (rangeAt 0x12 4, 2, true, true), (0, 2, false, false)],
      let y := commanded (withRanges [rangeAt 0x10 4] p.2.1) (.rngIns 5 6 7 0) 0 0 (dVbase p.1)
      let s : State := { y.1 with reqs := { aReq (.read 1 0 0) [] with value := toBytes 32 p.1.toNat, performed := true } :: y.1.reqs }
      (match readImage s y.2 with
       | .ok (d, u) => decide (d = p.1 ∧ readDirectory u y.2 (dVbase d) = .ok () ∧ accessesDone u y.2 = true ∧ imageOk u d = p.2.2.1) &&
           (directoryOf u 1).any (rangesMeet d) == p.2.2.2 && (rootOf u 1).map (fun r => (r.cap, r.count)) == some (p.2.1, 1)
       | _ => false) = true := by
  decide +kernel

/-- InboundRoce: a write, a read and an atomic that translate, with no held result and room for one, and with one held; a write
whose bytes a request at the port reads; a wrong key; a read that meets an error. -/
theorem wit_inbound :
    let s : State := { tenant with qps := [(0, (1 <<< 32) + (1 <<< 48))] }
    let r : RoceRequest := { qp := 0, rkey := 0, va := 0x10000, psn := 3, ecn := false, unreadable := false }
    s.bringup = .operational ∧ s.rplay = none ∧ s.rlog = none ∧ s.relocs = [] ∧ r.qp < 1024 ∧ qpState s r.qp = 1 ∧
    (∃ pas, inboundSpan s r 8 [permRd, permWr, permRa, permSa] = some pas ∧ r.unreadable = false ∧ targetFails s pas = false ∧
      (∀ a ∈ pas, inTarget s a = false ∧ isOutside s a = false) ∧ heldResult s (pas.headD 0) (peerParty r.qp) r.psn = none ∧
      replayFull s (pas.headD 0) = false ∧
      (heldResult (holdResult s (pas.headD 0) (peerParty r.qp) r.psn 5) (pas.headD 0) (peerParty r.qp) r.psn).isSome = true) ∧
    (∀ i ∈ s.inbox, i.req.qp ≠ r.qp) ∧
    (∀ w, (inboundSpan s r 8 [permWr, permRa]).map (portTaken s w) = some false) ∧
    (let s : State := { s with packets := [aPacket 1 0 0x10000 128 8 (.memPort 0)] }
     (inboundSpan s r 8 [permWr, permRa]).map (portTaken s true) = some true ∧
       ((inboundSpan s r 8 [permWr, permRa]).map (fun l => l.any (inTarget s))) = some false) ∧
    (inboundSpan s r 8 [permWr, permRa]).isSome = true ∧ (inboundSpan s r 8 [permRd, permRa]).isSome = true ∧ r.va.toNat % 8 = 0 ∧
    (inboundSpan s { r with unreadable := true } 8 [permRd, permRa]).isSome = true ∧
    (Tbl.look 0 s.qps r.qp).extractLsb' 64 32 ≠ 1 := by
  have some_ok : ∀ {α : Type} {e : Option α} {p : α → Bool}, (match e with | some x => p x | none => false) = true →
      ∃ x, e = some x ∧ p x = true := by
    intro α e p h
    cases e with
    | none => cases h
    | some x => exact ⟨x, rfl, h⟩
  intro s r
  refine ⟨rfl, rfl, rfl, rfl, by decide, by decide +kernel, ?_, by decide, by decide +kernel, by decide +kernel, by decide +kernel,
    by decide +kernel, by decide, by decide +kernel, by decide +kernel⟩
  obtain ⟨x, h, hp⟩ := some_ok (e := inboundSpan s r 8 [permRd, permWr, permRa, permSa])
    (p := fun pas => !targetFails s pas && (pas.all (fun a => !inTarget s a && !isOutside s a) &&
      ((heldResult s (pas.headD 0) (peerParty r.qp) r.psn).isNone && (!replayFull s (pas.headD 0) &&
        (heldResult (holdResult s (pas.headD 0) (peerParty r.qp) r.psn 5) (pas.headD 0) (peerParty r.qp) r.psn).isSome)))) (by decide +kernel)
  refine ⟨x, h, rfl, ?_⟩
  simpa using hp

/-- A launch of one phase on cluster 0, its tasks in context 0. -/
def phased (st : LaunchStatus) (g : Stage) (ts : List Task) : Launch :=
  { aLaunch with header := 1 <<< 332, phases := [0x100], status := st, stage := g, tasks := ts, asid := 1 }

/-- The tenant's state with this launch. -/
def launched (l : Launch) : State := { tenant with launches := [(0, l)], nextLaunch := 1 }

/-- LaunchEvents, the queue: a doorbell in range, an entry to read, a launch that is served. -/
theorem wit_queue :
    (let q := queueOf tenant 15
     (15 : Nat) < 16 ∧ qValid q.desc = true ∧ tenant.bringup = .operational ∧ doorbellUsable tenant q.desc = true ∧
       (match tenantRead tenant (qAsid q.desc) (qDoorbell q.desc) 8 with
        | .ok (b, _) => decide (q.consumer ≤ ofBytes b ∧ ofBytes b ≤ q.consumer + 2 ^ qLog2 q.desc)
        | _ => false) = true) ∧
    (let s := setQueue tenant 15 { queueOf tenant 15 with producer := 1 }
     let q := queueOf s 15
     qValid q.desc = true ∧ q.taken < q.producer ∧ unstarted s 15 = none ∧
       ∃ p, tenantRead s (qAsid q.desc) (qRing q.desc + 32 * (q.taken % 2 ^ qLog2 q.desc)) 32 = .ok p) ∧
    (let l := { phased .valid .idle [] with queue := 15 }
     servedQueue (launched l) = some 15 ∧ unstarted (launched l) 15 = some (0, l) ∧ l.header.getLsbD 349 = false) := by
  refine ⟨by decide +kernel, ⟨by decide +kernel, by decide +kernel, by decide +kernel, exists_ok (by decide +kernel)⟩, by decide +kernel⟩

/-- LaunchEvents, a launch's life: a static phase, and a ragged one without records, to begin; a task to bind; the last
communication task, and one before another; a group to claim; steps that close into the next phase, the next pass and the end; the ends; a suspension and a resumption. -/
theorem wit_launch :
    (let l := phased .running .idle []
     launchAt (launched l) 0 = some l ∧ l.status = .running ∧ l.stage = .idle ∧ phRagged l.record = false) ∧
    (let l := { phased .running .idle [] with phases := [0x110 + (1 <<< 480) + (0x10000 <<< 496) + (0x10000 <<< 552)] }
     phRagged l.record = true ∧ (match tenantRead (launched l) l.asid (phCntva l.record) 4 with
       | .ok (b, r) => decide (ofBytes b ≤ phMaxrec l.record) && (match readRecords r l (ofBytes b) 0 with | .ok _ => true | _ => false)
       | _ => false) = true) ∧
    (let t := { aTask with status := .unbound }
     let l := phased .running .compute [t]
     l.stage ≠ .idle ∧ (launched l).rplay = none ∧ chooseBind (launched l) 0 l = some (0, t, 0, 0)) ∧
    (let c := { aTask with status := .unbound, comm := true }
     let l := phased .running .communicate [c, { aTask with comm := true }]
     let m := phased .running .communicate [c, c]
     chooseBind (launched l) 0 l = some (0, c, 0, 0) ∧ (∀ x ∈ l.tasks, x.comm = true) ∧
       (l.tasks[1]?).map (·.status) = some (.bound 0 0) ∧ chooseBind (launched m) 0 m = some (0, c, 0, 0) ∧
       (m.tasks[1]?).map (·.status) = some .unbound) ∧
    (let t := { aTask with status := .unbound, tileRec := some 0 }
     let l := phased .running .compute [t]
     claimant (launched l) 0 l = some 0 ∧ unclaimedGroup l = some 0) ∧
    (let t := { aTask with status := .finished }
     let l := phased .running .compute [t]
     allFinished l = true ∧ launchQuiet (launched l) (l.entry.extractLsb' 0 64) = true ∧ lNph l.header ≤ l.phase + 1 ∧
       lIter l.header ≤ l.pass + 1 ∧ l.phase + 1 < lNph ((2 : BitVec 512) <<< 303) ∧ l.pass + 1 < lIter ((2 : BitVec 512) <<< 316)) ∧
    (∀ c : BitVec 8, c.toNat ≤ 5 → let e : Ending := { status := c, code := 0, cause := 0 }
      let l := phased (.ending e) .idle []
      let v := discardOpen (cancelFills (launched l) 0) 0
      l.status = .ending e ∧ launchAt v 0 = some l ∧ launchOver v 0 l = true ∧ endsNow (launched l) l = false) ∧
    (let l := phased .suspending .compute [{ aTask with status := .saved 0 0 }]
     l.status = .suspending ∧ allSaved l = true ∧ fillsRun (launched l) 0 = false) ∧
    (let k : Suspended := { clusters := [], ctrs := [], tus := [(0, 3)], pins := [] }
     let l := { phased .suspended .compute [] with susp := some k }
     l.status = .suspended ∧ l.susp = some k ∧ partitionFree (launched l) (lPart l.header) = true ∧ pinsTaken (launched l) k = false) := by
  refine ⟨⟨rfl, rfl, rfl, by decide +kernel⟩, by decide +kernel, ⟨by decide, rfl, by decide +kernel⟩, by decide +kernel,
    by decide +kernel, by decide +kernel, ?_, ⟨rfl, by decide, by decide +kernel⟩, ⟨rfl, rfl, by decide +kernel, by decide +kernel⟩⟩
  intro c _
  exact ⟨rfl, rfl, rfl, rfl⟩

/-- A tenant record whose one range maps the trap area and the handler. -/
def aRecord : AdmitRecord :=
  { asid := 2, queue := 0, ringVa := 0x1000, dbVa := 0x2000, log2s := 12, cap := 65536, arrayBase := 0x100000,
    ranges := [BitVec.ofNat 256 (16 * 2 ^ 64 + 7 * 2 ^ 109 + 1 * 2 ^ 116)] }

/-- ManagementRequests: each request that can be met, before and after the device is operational. -/
theorem wit_management :
    (tenant.bringup = .operational ∧ admissible tenant aRecord = true ∧ asidBusy tenant 1 = false) ∧
    (let l := phased .running .idle []
     launchesNamed (launched l) 0 ≠ [] ∧ runningNamed (launched l) 0 = some (0, l)) ∧
    (127 ∈ [0, 127] ∧ 127 < Config.numCores ∧ (1023 : Nat) < 1024 ∧ (63 : Nat) < 64 ∧ (15 : Nat) < 16 ∧
      (Tbl.look RGroup.init tenant.groups 15).parts = [] ∧ groupOpen tenant 15 = false ∧
      regExists (.wpa 127 3) = true ∧ (1 : Nat) < 2 ∧ (2 <<< 32 : BitVec 256).extractLsb' 32 2 = 2 ∧
      (0 : BitVec 256).extractLsb' 32 2 ≠ 2 ∧ qpState tenant 1023 ≠ 2 ∧ tenant.outbound = [] ∧ tenant.packets = []) ∧
    ({ State.reset with bringup := .identity }.bringup = .identity ∧ State.reset.failCode ≠ 3 ∧ State.reset.bringup ≠ .operational ∧
      State.reset.powered = true) ∧
    (match exec (.regwr .hvec (-1)) tenant with | .next _ => true | _ => false) = true := by
  refine ⟨by decide +kernel, ⟨by decide +kernel, by decide +kernel⟩, by decide, by decide, by decide +kernel⟩

/-- PowerAndService, power: a refill and an epoch that are due, a hot cluster, one that trips, the bring-up states, unit 11 gated and woken,
way 15 gated and powered, a trace about to freeze. -/
theorem wit_power :
    (let s : State := { State.reset with time := 65536 }
     let r (n : Nat) : EpochReadings := { clusterTemp := List.replicate 16 n, die0Power := [], die1Power := [], hbmPower := 0, serdesPower := 0 }
     s.refills < s.time / 64 ∧ s.epochs < s.time / 65536 ∧ 95 ≤ temperature (r 95) 15 ∧ (∀ c, c < 16 → temperature (r 95) c < 110) ∧
       110 ≤ temperature (r 110) 15) ∧
    (State.reset.bringup = .powerOn ∧ State.reset.powered = true ∧ { State.reset with bringup := .auth }.bringup = .auth ∧
      imageCode { State.reset with bringup := .auth } [] ≠ 0) ∧
    (let s : State := { State.reset with cores := [(127, { CoreSt.init with spgGate := 0x800 })] }
     (11 : Nat) < 12 ∧ 127 < Config.numCores ∧ (coreOf s 127).spgGate.getLsbD 11 = true ∧ (coreOf s 127).spgAwake.getLsbD 11 = true ∧
       carveChanges (coreOf s 127) 11 = false ∧ unitAccessed s 127 11 = false) ∧
    (let s : State := { State.reset with cores := [(0, { CoreSt.init with spgWake := [(11, 5)] })], time := 5 }
     Tbl.find (coreOf s 0).spgWake 11 = some 5 ∧ 5 ≤ s.time) ∧
    (let s : State := { State.reset with slices := [(62, { Slice.init with gate := 0x800 }), (63, { Slice.init with awake := 0x7FF })] }
     (sliceOf s 62).gate.getLsbD 11 = true ∧ (sliceOf s 62).awake.getLsbD 11 = true ∧ (sliceOf s 63).gate.getLsbD 11 = false ∧
       (sliceOf s 63).awake.getLsbD 11 = false) ∧
    (coreOf { State.reset with cores := [(0, { CoreSt.init with postLeft := some 0 })] } 0).postLeft = some 0 := by
  decide +kernel

/-- PowerAndService, traps: a handler that starts, and a pre-emption that has waited its time. -/
theorem wit_service :
    (let c : Ctx := { Ctx.init with status := .frozen, record := some 0, asid := 1 }
     let s : State := { tenant with trapva := 0x10000, cores := [(0, { CoreSt.init with work := [.handler 0], ctxs := [(0, c)] })] }
     serviceFree s 0 = true ∧ handlerWaiting s 0 = some 0 ∧ (ctxOf s 0 0).record = some 0 ∧ drained s 0 0 s.nextReq = true ∧
       ∃ r, writeRecord s 0 0 0 = .ok r) ∧
    (let s := stateOf CoreSt.init { Ctx.init with status := .running, preempt := some 0, flags := 0x8000 }
     (ctxOf s 0 0).preempt = some 0 ∧ 0 ≤ s.time ∧ (ctxOf s 0 0).status = .running ∧ (ctxOf s 0 0).flags.getLsbD 15 = true ∧
       (ctxOf s 0 0).stops = [] ∧ (ctxOf s 0 0).unc = [] ∧ (∀ o ∈ outstanding s 0 0, o.susp = none) ∧
       ∀ q ∈ (ctxOf s 0 0).streams, q.2.susp = false) := by
  refine ⟨⟨by decide +kernel, by decide +kernel, by decide +kernel, by decide +kernel, exists_ok (by decide +kernel)⟩, by decide +kernel⟩

/-- PowerAndService, saves: a context to save, by a free service context while a command is outstanding, and by the one held
for it; a task to restore, likewise. -/
theorem wit_save :
    (let saving (w : Option Service) (l : List Op) : State := { tasked with ops := l, cores := [(0, { CoreSt.init with
       service := w, work := [.save 0], ctxs := [(0, { me tasked with status := .saving, toSave := some none })] })] }
     let o := newOp State.reset .nop 0
     let s := saving (some (.save 0)) []
     savesNow (saving none [o]) 0 0 = true ∧ settled (saving none [o]) 0 0 = false ∧
       (ctxOf s 0 0).status = .saving ∧ (ctxOf s 0 0).toSave = some none ∧ (ctxOf s 0 0).task = some ⟨0, 0⟩ ∧ (ctxOf s 0 0).stops = [] ∧
       (ctxOf s 0 0).unc = [] ∧ (ctxOf s 0 0).arrivals = [] ∧ (ctxOf s 0 0).pend = [] ∧ settled s 0 0 = true ∧ savesNow s 0 0 = true ∧
       ∃ l t, launchAt s 0 = some l ∧ l.tasks[0]? = some t) ∧
    (let im : Image := { ctx := Ctx.init, full := true, tiles := [], spm := [], merge := none }
     let t : Task := { aTask with status := .saved 0 0, image := some im }
     let l := phased .running .compute [t]
     let s : State := { launched l with cores := [(0, { CoreSt.init with work := [.restore 0] })] }
     let h : State := { s with cores := [(0, { CoreSt.init with service := some (.restore 0) })] }
     s.rplay = none ∧ (coreOf s 0).service ≠ some (.restore 0) ∧ restoreStarts s 0 0 = true ∧ restorable s 0 0 = some (0, l, 0, t) ∧
       (coreOf h 0).service = some (.restore 0) ∧ restorable (freeService h 0) 0 0 = some (0, l, 0, t)) := by
  refine ⟨⟨by decide +kernel, by decide +kernel, rfl, rfl, rfl, rfl, rfl, rfl, rfl, by decide +kernel, by decide +kernel, _, _, rfl, rfl⟩,
    by decide +kernel⟩

/-- A fill request that waits, and the same run by core 0. -/
def aFill (running : Option Nat) : FillReq :=
  { id := 0, key := 0, descVa := 0, desc := 0, layer := 0, slot := 0, asid := 0, launch := 0, core := 0, waiters := [], running := running }

/-- PowerAndService, fills: one to dispatch; one whose task has ended; one whose task has stopped. -/
theorem wit_fill :
    (let s : State := { launched (phased .running .compute []) with dies := [(0, { Die.init with fills := [aFill none] })] }
     nextFill s 0 = some (aFill none) ∧ (fillCore s (aFill none)).isSome = true) ∧
    (let s : State := { State.reset with
       dies := [(0, { Die.init with fills := [aFill (some 0)] })]
       cores := [(0, { CoreSt.init with service := some (.fill 0), ctxs := [(4, { Ctx.init with status := .finishing })] })] }
     runningFill s 0 = some (0, aFill (some 0)) ∧ (ctxOf s 0 4).status = .finishing ∧ settled s 0 4 = true ∧ stopCount (ctxOf s 0 4) = 0) ∧
    (let s : State := { State.reset with
       dies := [(0, { Die.init with fills := [aFill (some 0)] })]
       cores := [(0, { CoreSt.init with service := some (.fill 0), ctxs := [(4, { Ctx.init with status := .halted 0 })] })] }
     runningFill s 0 = some (0, aFill (some 0)) ∧ fillFailed (ctxOf s 0 4) = true ∧ settled (cancelSuspended s 0 4) 0 4 = true) := by
  refine ⟨by decide +kernel, ⟨rfl, rfl, by decide +kernel, rfl⟩, ⟨rfl, rfl, by decide +kernel⟩⟩

/-- StepKeepsMemoryCanonical: reset memory is canonical and a step answers. -/
theorem wit_canonical : MemSafe State.reset ∧ step State.reset = .next (tick State.reset) := ⟨rfl, rfl⟩

end Sys2Proof.Tests
end

/-! Proofs of the statements on the control registers, on staged stores and on the reset state. -/

namespace Sys2Proof.Machine

/-! ### The reset state (R11) -/

@[simp] theorem coreOf_reset (n : Nat) : coreOf State.reset n = CoreSt.init := rfl

@[simp] theorem ctxOf_reset (n k : Nat) : ctxOf State.reset n k = Ctx.init := rfl

@[simp] theorem dieAt_reset (d : Nat) : dieAt State.reset d = Die.init := rfl

/-- Only m0 has a bit set before the first bind. -/
theorem maskOf_init {i : Nat} (h : 1 ≤ i) : maskOf Ctx.init i = 0 := by
  have h0 : i ≠ 0 := by omega
  simp [maskOf, Ctx.init, Tbl.look, h0, h0.symm]

theorem scalarOf_init (r : Reg) : scalarOf Ctx.init r = 0 := by
  unfold scalarOf
  split <;> rfl

/-- Settles O59: the reset state lists no core, context or die, so that each has the Reset values of its map. -/
theorem resetState : Obligations.ResetState := by
  refine ⟨reset_memOk, fun _ => rfl, rfl, rfl, rfl, rfl, rfl, rfl, rfl, rfl, rfl, rfl, rfl, rfl, rfl, rfl, fun n => ?core,
    fun n k => ?context, fun d => ?die⟩
  case core =>
    rw [coreOf_reset]
    exact ⟨rfl, rfl, rfl, rfl, rfl, rfl, rfl, rfl, fun _ => ⟨rfl, rfl⟩⟩
  case context =>
    rw [ctxOf_reset]
    exact ⟨rfl, rfl, rfl, rfl, rfl, rfl, rfl, rfl, fun _ => rfl, rfl, fun _ => maskOf_init, scalarOf_init⟩
  case die =>
    rw [dieAt_reset]
    exact ⟨rfl, rfl, rfl⟩

/-! ### Staged stores while a range moves (R254, R355) -/

/-- A range of ASID 1 whose sixteen units are the first 64 KiB of core 0's scratchpad, readable and writable. -/
def scratchpadRange : BitVec 256 := 0x10 + 16 <<< 64 + 3 <<< 109 + (0x10000000 - 0x10) <<< 128

/-- The root table entry of ASID 1: a directory at 0x2000 that holds one descriptor and has room for one (R367). -/
def oneRangeRoot : BitVec 128 := 0x2000 + 1 <<< 64 + 1 <<< 80 + 1 <<< 97

/-- Core 0 stages a byte for offset 0 of its scratchpad while that range moves to 0x20000 in HBM, no chunk moved so far. -/
def storeIntoMovingRange : State :=
  { State.reset with
    mem := memPuts [] (cellsAt 0x10 (toBytes 16 oneRangeRoot.toNat) ++ cellsAt 0x2000 (toBytes 32 scratchpadRange.toNat))
    relocs := [(1, 0x10, 0x10, 0)]
    fly := { Fly.init with stores := cellsAt 0 [0x55] } }

/-- A write to the old backing of a range that moves goes to the new one too (R254). -/
theorem performStores_writes_new_backing : memByte (performStores storeIntoMovingRange).mem 0x20000 = 0x55 := by
  decide +kernel

theorem new_backing_before_stores : memByte storeIntoMovingRange.mem 0x20000 = 0 := by decide +kernel

/-- Refutes O29: a byte stored to a scratchpad whose range is being moved by `rng.reloc` also lands in the range's new backing,
as R254 asks, so that memory outside the bytes addressed does not read as before. -/
theorem not_stagedStoresPerform : ¬ Obligations.StagedStoresPerform := by
  intro h
  obtain ⟨-, frame, -⟩ := h storeIntoMovingRange 0 [0x55] rfl rfl (by decide +kernel) rfl
  have unchanged := frame 0x20000 (.inl (by decide))
  rw [performStores_writes_new_backing, new_backing_before_stores] at unchanged
  exact absurd unchanged (by decide)

/-! ### Control registers: what they read as (R40, R41) -/

/-- The numbers that R40 assigns to a register. -/
abbrev CtlAssigned (crn : Nat) : Prop := crn ≤ 0x09 ∨ (0x10 ≤ crn ∧ crn ≤ 0x15) ∨ (0x18 ≤ crn ∧ crn ≤ 0x3B)

theorem ctlRead_delta (s : State) {n : Nat} (h : n < 6) :
    ctlRead s (0x10 + n) = some ((Tbl.look 0 (me s).dlt n).signExtend 64) := by
  simp (disch := omega) only [ctlRead, if_neg, if_pos, Nat.add_sub_cancel_left]

theorem ctlRead_coordinate (s : State) {n : Nat} (h : n < 8) : ctlRead s (0x18 + n) = some (Tbl.look 0 (me s).tc n) := by
  simp (disch := omega) only [ctlRead, if_neg, if_pos, Nat.add_sub_cancel_left]

theorem ctlRead_slack (s : State) {n : Nat} (h : n < 16) :
    ctlRead s (0x20 + n) = some ((Tbl.look 0x3FF (me s).slkt n).setWidth 64) := by
  simp (disch := omega) only [ctlRead, if_neg, if_pos, Nat.add_sub_cancel_left]

theorem ctlRead_pattern (s : State) {n : Nat} (h : n < 8) :
    ctlRead s (0x30 + n) = some (patternHeader (Tbl.look Pattern.init (me s).patterns n)) := by
  simp (disch := omega) only [ctlRead, if_neg, if_pos, Nat.add_sub_cancel_left]

theorem ctlRead_loopCount (s : State) {n : Nat} (h : n < 4) :
    ctlRead s (0x38 + n) = some ((Tbl.look LoopCtr.init (me s).loops n).count.setWidth 64) := by
  simp (disch := omega) only [ctlRead, if_neg, if_pos, Nat.add_sub_cancel_left]

/-- Every assigned number has a value. -/
theorem ctlRead_assigned (s : State) {crn : Nat} (h : CtlAssigned crn) : ∃ v, ctlRead s crn = some v := by
  have ranges : crn ≤ 0x09 ∨ (0x10 ≤ crn ∧ crn < 0x16) ∨ (0x18 ≤ crn ∧ crn < 0x20) ∨ (0x20 ≤ crn ∧ crn < 0x30) ∨
      (0x30 ≤ crn ∧ crn < 0x38) ∨ (0x38 ≤ crn ∧ crn < 0x3C) := by
    omega
  rcases ranges with single | ⟨lo, hi⟩ | ⟨lo, hi⟩ | ⟨lo, hi⟩ | ⟨lo, hi⟩ | ⟨lo, hi⟩
  · interval_cases crn <;> exact ⟨_, rfl⟩
  all_goals obtain ⟨n, rfl⟩ := Nat.exists_eq_add_of_le lo
  · exact ⟨_, ctlRead_delta s (by omega)⟩
  · exact ⟨_, ctlRead_coordinate s (by omega)⟩
  · exact ⟨_, ctlRead_slack s (by omega)⟩
  · exact ⟨_, ctlRead_pattern s (by omega)⟩
  · exact ⟨_, ctlRead_loopCount s (by omega)⟩

/-- No other number has one. -/
theorem ctlRead_unassigned (s : State) {crn : Nat} (h : ¬ CtlAssigned crn) : ctlRead s crn = none := by
  simp (disch := omega) only [ctlRead, if_neg]

/-- Only AGE, TRCCTL and HYST can read as another context's write found them (R41). -/
theorem olderValues_own (s : State) {crn : Nat} (h : ¬ (0x04 ≤ crn ∧ crn ≤ 0x06)) : olderValues s crn = [] := if_neg h

/-- A reader gets the present value or one of the older ones. -/
theorem seenValue_mem (n : Nat) (v : Word) (l : List Word) : seenValue n v l ∈ v :: l := by
  induction l generalizing n with
  | nil => simp [seenValue]
  | cons o l ih =>
    rw [seenValue]
    split
    · simp
    · rcases List.mem_cons.mp (ih (n + 1)) with present | older
      · simp [present]
      · simp [older]

/-! ### Control registers: what a write of one does (R10, R40, R186) -/

theorem ctlWrites_length (sup : Bool) (crn : Nat) (v : Word) : (ctlWrites sup crn v).length ≤ 1 := by
  unfold ctlWrites
  split_ifs <;> simp

theorem ctlWrites_loopCount (sup : Bool) {n : Nat} (h : n < 4) (v : Word) :
    ctlWrites sup (0x38 + n) v = [.count n (v.setWidth 32)] := by
  simp (disch := omega) only [ctlWrites, if_pos, Nat.add_sub_cancel_left, BitVec.setWidth_eq_extractLsb']

theorem ctlWrites_readOnly (sup : Bool) {crn : Nat} (h : crn = 0x09 ∨ (0x18 ≤ crn ∧ crn ≤ 0x1F) ∨ (0x30 ≤ crn ∧ crn ≤ 0x37))
    (v : Word) : ctlWrites sup crn v = [] := by
  simp (disch := omega) only [ctlWrites, if_neg, if_pos]

theorem ctlWrites_supervisorOnly (sup : Bool) {crn : Nat} (h : 0x04 ≤ crn ∧ crn ≤ 0x07) (v : Word) :
    ctlWrites sup crn v = if sup then [.ctl crn v] else [] := by
  cases sup <;> simp (disch := omega) only [ctlWrites, if_neg, h, and_self, and_false, reduceCtorEq, ↓reduceIte]

theorem ctlWrites_anyMode (sup : Bool) {crn : Nat}
    (h : crn ≤ 0x03 ∨ crn = 0x08 ∨ (0x10 ≤ crn ∧ crn ≤ 0x15) ∨ (0x20 ≤ crn ∧ crn ≤ 0x2F)) (v : Word) :
    ctlWrites sup crn v = [.ctl crn v] := by
  simp (disch := omega) only [ctlWrites, if_neg]

/-! ### `ctl.rd` and `ctl.wr` -/

/-- The number field holds every number below 256. -/
theorem ctlNumber_toNat {n : Nat} (h : n < 2 ^ 8) : (BitVec.ofNat 8 n).toNat = n := by
  rw [BitVec.toNat_ofNat, Nat.mod_eq_of_lt h]

theorem exec_ctlRd (a : Reg) (crn : Byte) (s : State) : exec (.ctlRd a crn) s = settle s (slotCtlRd a crn s) := rfl

theorem exec_ctlWr (a : Reg) (crn : Byte) (s : State) : exec (.ctlWr a crn) s = settle s (slotCtlWr a crn s) := rfl

/-- A read of a register sends a value seen of it, with latency 2 (R41, R186). -/
theorem exec_ctlRd_of_read (a : Reg) {crn : Byte} {s : State} {v : Word} (h : ctlRead s crn.toNat = some v) :
    exec (.ctlRd a crn) s = .next (result { s with fresh := s.fresh + (olderValues s crn.toNat).length } 2
      (.scalar a.toNat (seenValue s.fresh v (olderValues s crn.toNat)))) := by
  rw [exec_ctlRd, slotCtlRd, h]
  rfl

/-- Where no older value can be seen the register's value is sent. -/
theorem writes_ctlRd (a : Reg) {s : State} {n : Nat} {v : Word} (hn : n < 2 ^ 8) (ho : olderValues s n = [])
    (h : ctlRead s n = some v) : Writes (.ctlRd a (BitVec.ofNat 8 n)) s 2 a v := by
  have number : (BitVec.ofNat 8 n).toNat = n := ctlNumber_toNat hn
  rw [Writes, exec_ctlRd_of_read a (number.symm ▸ h), number, ho]
  rfl

/-- A write of an assigned number sends what the register takes, with latency 2 (R186). -/
theorem exec_ctlWr_assigned {a : Reg} {crn : Byte} {s : State} (hr : Readable s [a]) (h : CtlAssigned crn.toNat) :
    exec (.ctlWr a crn) s = .next (results s 2 (ctlWrites (s.cur.2 = 4) crn.toNat (sv s a))) := by
  obtain ⟨v, hv⟩ := ctlRead_assigned s h
  rw [exec_ctlWr, slotCtlWr, readS_ok (readable_cons.mp hr).1, except_ok_bind, hv]
  rfl

theorem exec_ctlWr_ofNat {a : Reg} {s : State} {n : Nat} {l : List Write} (hr : Readable s [a]) (h : CtlAssigned n)
    (hl : ctlWrites (s.cur.2 = 4) n (sv s a) = l) : exec (.ctlWr a (BitVec.ofNat 8 n)) s = .next (results s 2 l) := by
  have number : (BitVec.ofNat 8 n).toNat = n := ctlNumber_toNat (by omega)
  rw [exec_ctlWr_assigned hr (number.symm ▸ h), number, hl]

/-- The instruction traps with ILLEGAL_BUNDLE in the CTL slot, at the bundle's address. -/
def CtlTraps (i : Instr) (s : State) : Prop :=
  ∃ t : TrapInfo, exec i s = .next (takeTrap s s.cur.1 s.cur.2 t s.fly.ba s.fly.ba false) ∧
    t.cause = 0x01 ∧ t.addr = s.fly.ba.setWidth 64 ∧ t.slot = 5

theorem ctlTraps_of_settle {i : Instr} {s : State} (h : exec i s = settle s (illegalCtl s)) : CtlTraps i s :=
  ⟨_, h, rfl, rfl, rfl⟩

theorem ctlRd_unassigned (a : Reg) {crn : Byte} (s : State) (h : ¬ CtlAssigned crn.toNat) : CtlTraps (.ctlRd a crn) s := by
  apply ctlTraps_of_settle
  rw [exec_ctlRd, slotCtlRd, ctlRead_unassigned s h]

theorem ctlWr_unassigned {a : Reg} {crn : Byte} {s : State} (hr : Readable s [a]) (h : ¬ CtlAssigned crn.toNat) :
    CtlTraps (.ctlWr a crn) s := by
  apply ctlTraps_of_settle
  rw [exec_ctlWr, slotCtlWr, readS_ok (readable_cons.mp hr).1, except_ok_bind, ctlRead_unassigned s h]

/-- The registers of a core or the device read as a value that stands or stood in them (R41). -/
theorem ctlRead_shared {s : State} {crn : Nat} {v : Word}
    (h : (crn, v) ∈ [(0x04, (here s).age.setWidth 64), (0x05, (here s).trcctl), (0x06, s.hyst.setWidth 64)]) :
    crn < 2 ^ 8 ∧ ctlRead s crn = some v := by
  simp only [List.mem_cons, Prod.mk.injEq, List.not_mem_nil, or_false] at h
  rcases h with ⟨rfl, rfl⟩ | ⟨rfl, rfl⟩ | ⟨rfl, rfl⟩ <;> exact ⟨by decide, rfl⟩

/-- Settles O26: a read and a write of each register by the equations above, and the trap of an unassigned number. -/
theorem controlRegisters : Obligations.ControlRegisters := by
  intro s a c k assigned rd wr
  refine ⟨fun crn h => ⟨?readCompletes, fun hr => ⟨_, ctlWrites_length _ _ _, exec_ctlWr_assigned hr h⟩⟩,
    ?_, ?_, ?_, ?_, fun crn v h => ?shared, ?_, ?_, ?_,
    fun n h => writes_ctlRd a (by omega) (olderValues_own s (by omega)) (ctlRead_delta s h),
    fun n h => writes_ctlRd a (by omega) (olderValues_own s (by omega)) (ctlRead_coordinate s h),
    fun n h => writes_ctlRd a (by omega) (olderValues_own s (by omega)) (ctlRead_slack s h),
    fun n h => writes_ctlRd a (by omega) (olderValues_own s (by omega)) (ctlRead_pattern s h),
    fun n h => writes_ctlRd a (by omega) (olderValues_own s (by omega)) (ctlRead_loopCount s h),
    fun hr => ?writes, fun crn h => ?unassigned⟩
  case readCompletes =>
    obtain ⟨v, hv⟩ := ctlRead_assigned s h
    exact ⟨_, _, exec_ctlRd_of_read a hv⟩
  case shared =>
    obtain ⟨hn, hv⟩ := ctlRead_shared h
    have number : (BitVec.ofNat 8 crn).toNat = crn := ctlNumber_toNat hn
    refine ⟨fun ho => writes_ctlRd a hn ho hv, _, seenValue_mem s.fresh v _, ?_⟩
    rw [exec_ctlRd_of_read a (number.symm ▸ hv), number]
  case writes =>
    have send {n : Nat} {l : List Write} (h : CtlAssigned n) := exec_ctlWr_ofNat (l := l) hr h
    refine ⟨fun crn h => ?single, fun n h => send (by omega) (ctlWrites_anyMode _ (by omega) _),
      fun n h => send (by omega) (ctlWrites_anyMode _ (by omega) _),
      fun n h => send (by omega) (ctlWrites_loopCount _ h _), fun crn h => ?supervisor,
      send (by omega) (ctlWrites_readOnly _ (by omega) _), fun n h =>
        ⟨send (by omega) (ctlWrites_readOnly _ (by omega) _), send (by omega) (ctlWrites_readOnly _ (by omega) _)⟩⟩
    case single =>
      have number : crn ≤ 0x03 ∨ crn = 0x08 := by simp only [List.mem_cons, List.not_mem_nil, or_false] at h; omega
      exact send (by omega) (ctlWrites_anyMode _ (by omega) _)
    case supervisor =>
      have number : 0x04 ≤ crn ∧ crn ≤ 0x07 := by simp only [List.mem_cons, List.not_mem_nil, or_false] at h; omega
      have sent := send (by omega) (ctlWrites_supervisorOnly _ number _)
      split
      · rwa [if_pos (by simpa)] at sent
      · rwa [if_neg (by simpa)] at sent
  case unassigned => exact ⟨ctlRd_unassigned a s h, fun hr => ctlWr_unassigned hr h⟩
  all_goals exact writes_ctlRd a (by decide) (olderValues_own s (by decide)) rfl

end Sys2Proof.Machine

namespace Sys2Proof.Machine

/-! ## Memory stays canonical (O58)

`Ensures` and `Next` say of an `Except` and of an outcome what its answer satisfies. Each function of the model that
makes a state has one lemma, under the name of the file it stands in: `f_mem` where it leaves memory as it was, `f_wf`
where it keeps memory canonical. The lemmas follow the model's order, so that each uses those of the functions called,
and `step_wf` is the last. -/

section Keeps

/-- Whatever `x` answers has property `P`. -/
def Ensures {ε α : Type} (x : Except ε α) (P : α → Prop) : Prop := ∀ a, x = .ok a → P a

variable {ε α β : Type} {P : α → Prop} {Q : β → Prop}

@[simp] theorem ensures_ok {a : α} : Ensures (.ok a : Except ε α) P ↔ P a := by simp [Ensures]

@[simp] theorem ensures_pure {a : α} : Ensures (pure a : Except ε α) P ↔ P a := ensures_ok

@[simp] theorem ensures_error {e : ε} : Ensures (.error e : Except ε α) P := by simp [Ensures]

@[simp] theorem ensures_throw {e : ε} : Ensures (throw e : Except ε α) P := ensures_error

@[simp] theorem ensures_true (x : Except ε α) : Ensures x (fun _ => True) := fun _ _ => trivial

@[simp] theorem ensures_trapping {cause engine slot : Nat} {addr detail : Word} {index : BitVec 32} {P : α → Prop} :
    Ensures (trapping cause engine slot addr detail index : Except Stop α) P := ensures_error

@[simp] theorem ensures_bind_iff {x : Except ε α} {f : α → Except ε β} :
    Ensures (x >>= f) Q ↔ Ensures x (fun a => Ensures (f a) Q) := by
  cases x with
  | error e => exact iff_of_true ensures_error ensures_error
  | ok a => exact (ensures_ok (P := fun a => Ensures (f a) Q)).symm

@[simp] theorem ensures_ite_iff {c : Prop} [Decidable c] {x y : Except ε α} :
    Ensures (if c then x else y) P ↔ (c → Ensures x P) ∧ (¬ c → Ensures y P) := by
  split <;> simp [*]

theorem Ensures.mono {x : Except ε α} {P' : α → Prop} (hx : Ensures x P) (h : ∀ a, P a → P' a) : Ensures x P' :=
  fun a ha => h a (hx a ha)

/-- A bind ensures what its rest ensures on every answer of its first part. -/
theorem Ensures.bind {x : Except ε α} {f : α → Except ε β} (hx : Ensures x P) (hf : ∀ a, P a → Ensures (f a) Q) :
    Ensures (x >>= f) Q := ensures_bind_iff.mpr (hx.mono hf)

theorem ensures_bind {x : Except ε α} {f : α → Except ε β} (hf : ∀ a, Ensures (f a) Q) : Ensures (x >>= f) Q :=
  (ensures_true x).bind fun a _ => hf a

theorem ensures_ite {c : Prop} [Decidable c] {x y : Except ε α} (hx : c → Ensures x P) (hy : ¬ c → Ensures y P) :
    Ensures (if c then x else y) P := ensures_ite_iff.mpr ⟨hx, hy⟩

/-- A choice between two binds of one continuation ensures what the continuation does. -/
theorem ensures_ite_bind {c : Prop} [Decidable c] {x y : Except ε α} {f : α → Except ε β}
    (hf : ∀ a, Ensures (f a) Q) : Ensures (if c then x >>= f else y >>= f) Q :=
  ensures_ite (fun _ => ensures_bind hf) fun _ => ensures_bind hf

theorem ensures_foldlM {σ : Type} {I : σ → Prop} {f : σ → α → Except ε σ} (hf : ∀ s a, I s → Ensures (f s a) I)
    (l : List α) {s : σ} (hs : I s) : Ensures (l.foldlM f s) I := by
  induction l generalizing s with
  | nil => exact ensures_pure.mpr hs
  | cons a l ih => exact (hf s a hs).bind fun t ht => ih ht

/-- What leaves memory as it was keeps it canonical. -/
theorem Ensures.wf {x : Except ε State} {s : State} (hx : Ensures x (fun t => t.mem = s.mem))
    (hm : Memory.wf s.mem = true) : Ensures x (fun t => Memory.wf t.mem = true) :=
  hx.mono fun _ ht => (congrArg Memory.wf ht).trans hm

/-- Whatever next state an outcome answers has property `P`. -/
def Next (x : Host.Outcome State Fault Refusal) (P : State → Prop) : Prop := ∀ t, x = .next t → P t

@[simp] theorem next_next {s : State} {P : State → Prop} : Next (.next s) P ↔ P s := by simp [Next]

@[simp] theorem next_fault {f : Fault} {P : State → Prop} : Next (.fault f) P := by simp [Next]

@[simp] theorem next_refused {r : Refusal} {P : State → Prop} : Next (.refused r) P := by simp [Next]

theorem Next.wf {x : Host.Outcome State Fault Refusal} {s : State} (hx : Next x (fun t => t.mem = s.mem))
    (hm : Memory.wf s.mem = true) : Next x (fun t => Memory.wf t.mem = true) :=
  fun t ht => (congrArg Memory.wf (hx t ht)).trans hm

@[simp] theorem ite_mem {c : Prop} [Decidable c] (s t : State) : (if c then s else t).mem = if c then s.mem else t.mem :=
  apply_ite State.mem c s t

theorem wf_ite {c : Prop} [Decidable c] {s t : State} (hs : Memory.wf s.mem = true) (ht : Memory.wf t.mem = true) :
    Memory.wf (if c then s else t).mem = true := by
  split
  · exact hs
  · exact ht

theorem physWrite_wf (s : State) (cells : List Host.Cell) (hm : Memory.wf s.mem = true) :
    Memory.wf (physWrite s cells).mem = true := memPuts_wf _ hm

theorem spmWrite_wf (s : State) (core off : Nat) (b : List Byte) (hm : Memory.wf s.mem = true) :
    Memory.wf (spmWrite s core off b).mem = true := memPuts_wf _ hm

theorem foldl_mem {f : State → α → State} (hf : ∀ s a, (f s a).mem = s.mem) (l : List α) (s : State) :
    (l.foldl f s).mem = s.mem := by
  induction l generalizing s with
  | nil => rfl
  | cons a l ih => rw [List.foldl_cons, ih, hf]

theorem foldl_wf {f : State → α → State} (hf : ∀ s a, Memory.wf s.mem = true → Memory.wf (f s a).mem = true)
    (l : List α) {s : State} (h : Memory.wf s.mem = true) : Memory.wf (l.foldl f s).mem = true := by
  induction l generalizing s with
  | nil => exact h
  | cons a l ih => exact ih (hf s a h)

end Keeps

/-! ### Base -/

@[simp] theorem results_mem (s : State) (lat : Nat) (l : List Write) : (results s lat l).mem = s.mem := by
  induction l generalizing s with
  | nil => rfl
  | cons w l ih => exact (ih _).trans (result_mem _ _ _)

@[simp] theorem ctlStore_mem (core : Nat) (s : State) (c : Ctx) (crn : Nat) (v : Word) :
    (ctlStore core s c crn v).1.mem = s.mem := by
  simp only [ctlStore, apply_ite Prod.fst, apply_ite State.mem, withCore_mem, ite_self]

@[simp] theorem noteShared_mem (s : State) (core ctx crn : Nat) : (noteShared s core ctx crn).mem = s.mem := by
  simp [noteShared]

@[simp] theorem withTile_mem (s : State) (core x : Nat) (f : Tile → Tile) : (withTile s core x f).mem = s.mem := by
  simp [withTile]

@[simp] theorem applyWrite_wf (s : State) (core ctx : Nat) (w : Write) (hm : Memory.wf s.mem = true) :
    Memory.wf (applyWrite s core ctx w).mem = true := by
  cases w
  case tdInvalid => exact spmWrite_wf _ _ _ _ hm
  all_goals simp [applyWrite, hm]

@[simp] theorem applyWrites_wf (s : State) (core ctx : Nat) (l : List Write) (hm : Memory.wf s.mem = true) :
    Memory.wf (applyWrites s core ctx l).mem = true := by
  induction l generalizing s with
  | nil => exact hm
  | cons w l ih => exact ih _ (applyWrite_wf s core ctx w hm)

@[simp] theorem promote_wf (s : State) (core ctx : Nat) (hm : Memory.wf s.mem = true) :
    Memory.wf (promote s core ctx).mem = true := by
  simp [promote, hm]

@[simp] theorem flush_wf (s : State) (core ctx : Nat) (hm : Memory.wf s.mem = true) :
    Memory.wf (flush s core ctx).mem = true := by
  simp [flush, hm]

@[simp] theorem commitNow_wf (s : State) (core ctx : Nat) (ws : List Write) (hm : Memory.wf s.mem = true) :
    Memory.wf (commitNow s core ctx ws).mem = true := by
  simp [commitNow, hm]

@[simp] theorem traceRaw_mem (s : State) (core : Nat) (r : TraceRec) : (traceRaw s core r).mem = s.mem := by
  simp [traceRaw]

@[simp] theorem traceEvent_mem (s : State) (core cls ctx sub : Nat) (pay : Word) :
    (traceEvent s core cls ctx sub pay).mem = s.mem := by
  simp [traceEvent]

@[simp] theorem traceTrigger_mem (s : State) (core source ctx : Nat) : (traceTrigger s core source ctx).mem = s.mem := by
  simp [traceTrigger]

/-! ### Packet -/

@[simp] theorem countLate_mem (s : State) (core : Nat) : (countLate s core).mem = s.mem := by
  simp [countLate]

@[simp] theorem withSlice_mem (s : State) (n : Nat) (f : Slice → Slice) : (withSlice s n f).mem = s.mem := by
  simp [withSlice]

@[simp] theorem countLateUnit_mem (s : State) (p : Packet) : (countLateUnit s p).mem = s.mem := by
  simp [countLateUnit]

@[simp] theorem addPacket_mem (s : State) (p : NetPacket) : (addPacket s p).mem = s.mem := by
  simp [addPacket]

@[simp] theorem sendUnit_mem (s : State) (p : NetPacket) : (sendUnit s p).mem = s.mem := by
  simp [sendUnit]

@[simp] theorem sendTraffic_mem (s : State) (src typ dst pa : Nat) (aux : BitVec 32) (data : List Byte) :
    (sendTraffic s src typ dst pa aux data).mem = s.mem := by
  simp [sendTraffic]

@[simp] theorem sendUnitAccess_mem (s : State) (src : Nat) (wr : Bool) (dst pa len : Nat) :
    (sendUnitAccess s src wr dst pa len).mem = s.mem := by
  simp [sendUnitAccess]

/-! ### Home -/

@[simp] theorem wakeFor_mem (s : State) (core off n : Nat) : (wakeFor s core off n).mem = s.mem := by
  refine foldl_mem (fun s u => ?_) _ s
  rw [withCore_mem]

@[simp] theorem wakePas_mem (s : State) (pas : List Nat) : (wakePas s pas).mem = s.mem := by
  refine foldl_mem (fun s pa => ?_) _ s
  split <;> simp

@[simp] theorem writeBack_mem (s : State) (slice : Nat) (before : List Line) : (writeBack s slice before).mem = s.mem := by
  simp [writeBack, foldl_mem]

@[simp] theorem withLines_mem (s : State) (n : Nat) (f : Slice → Slice) : (withLines s n f).mem = s.mem := by
  simp [withLines]

@[simp] theorem cacheAccess_mem (s : State) (pa : Nat) (hint : CacheHint) (wr : Bool) :
    (cacheAccess s pa hint wr).mem = s.mem := by
  unfold cacheAccess
  split <;> simp

@[simp] theorem touchLines_mem (s : State) (pas : List Nat) (hint : CacheHint) (wr : Bool) :
    (touchLines s pas hint wr).mem = s.mem := by
  simp [touchLines, foldl_mem]

@[simp] theorem touchMapped_mem (s : State) (table : List RtEntry) (asid : BitVec 16) (wr : Bool) (l : List (Nat × Nat)) :
    (touchMapped s table asid wr l).mem = s.mem := by
  simp [touchMapped, foldl_mem]

@[simp] theorem rehome_mem (s : State) : (rehome s).mem = s.mem := by
  simp [rehome, foldl_mem]

@[simp] theorem sendRdma_mem (s : State) (pa : Nat) (kind : RdmaKind) (req : Option Nat) (note : Option
    (Nat × Nat × BitVec 256)) :
    (sendRdma s pa kind req note).mem = s.mem := by
  unfold sendRdma
  split <;> simp

@[simp] theorem writeOut_mem (note : Option (Nat × Nat × BitVec 256)) (s : State) (cells : List Host.Cell) :
    (writeOut note s cells).mem = s.mem := by
  unfold writeOut
  split <;> simp

@[simp] theorem storeCells_wf (s : State) (cells : List Host.Cell) (hm : Memory.wf s.mem = true) :
    Memory.wf (storeCells s cells).mem = true := by
  unfold storeCells
  rw [foldl_mem (writeOut_mem none)]
  exact physWrite_wf _ _ hm

@[simp] theorem homeWrite_wf (s : State) (cells : List Host.Cell) (hm : Memory.wf s.mem = true) :
    Memory.wf (homeWrite s cells).mem = true := by
  unfold homeWrite
  split
  · exact physWrite_wf _ _ hm
  · exact storeCells_wf _ _ (physWrite_wf _ _ hm)

@[simp] theorem writeCells_wf (s : State) (cells : List Host.Cell) (hm : Memory.wf s.mem = true) :
    Memory.wf (writeCells s cells).mem = true := by
  have homes : Memory.wf ((runsOf (cells.filter fun c => isOutside s c.1)).foldl (writeOut none)
      (homeWrite s (cells.filter fun c => !isOutside s c.1))).mem = true := by
    rw [foldl_mem (writeOut_mem none)]
    exact homeWrite_wf _ _ hm
  unfold writeCells
  dsimp only
  split
  · exact homes
  · exact storeCells_wf _ _ homes

@[simp] theorem changeCode_wf (s : State) (key old new : Nat) (hm : Memory.wf s.mem = true) :
    Memory.wf (changeCode s key old new).mem = true := by
  unfold changeCode
  dsimp only
  split
  · exact homeWrite_wf _ _ hm
  · exact hm

/-! ### Ops -/

@[simp] theorem issueOp_mem (s : State) (o : Op) : Ensures (issueOp s o) (fun t => t.mem = s.mem) := by
  simp [issueOp]

@[simp] theorem removeOp_mem (s : State) (o : Op) : (removeOp s o).mem = s.mem := by
  simp [removeOp]

@[simp] theorem updateOp_mem (s : State) (o : Op) : (updateOp s o).mem = s.mem := by
  simp [updateOp]

@[simp] theorem writeScalarNow_mem (s : State) (core ctx r : Nat) (v : Word) :
    (writeScalarNow s core ctx r v).mem = s.mem := by
  simp [writeScalarNow]

@[simp] theorem dropFill_mem (s : State) (o : Op) : (dropFill s o).mem = s.mem := by
  simp [dropFill]

@[simp] theorem dropEngineReqs_mem (s : State) (core ctx seq : Nat) : (dropEngineReqs s core ctx seq).mem = s.mem := by
  simp [dropEngineReqs]

@[simp] theorem releaseClaims_wf (s : State) (o : Op) (hm : Memory.wf s.mem = true) :
    Memory.wf (releaseClaims s o).mem = true :=
  foldl_wf (fun s k h => changeCode_wf s k 3 2 h) _ hm

@[simp] theorem traceToken_mem (s : State) (o : Op) (tok addr : Word) : (traceToken s o tok addr).mem = s.mem := by
  unfold traceToken
  (repeat' split) <;> simp

@[simp] theorem endToken_wf (s : State) (o : Op) (tok addr : Word) (hm : Memory.wf s.mem = true) :
    Memory.wf (endToken s o tok addr).mem = true := by
  unfold endToken
  split <;> simp [hm]

@[simp] theorem finishOp_wf (s : State) (o : Op) (tok : Word) (hm : Memory.wf s.mem = true) :
    Memory.wf (finishOp s o tok).mem = true := by
  simp [finishOp, hm]

@[simp] theorem addStop_mem (s : State) (core ctx : Nat) (t : BitVec 32 → TrapInfo) :
    (addStop s core ctx t).mem = s.mem := by
  simp [addStop]

@[simp] theorem settleEnd_wf (s : State) (o : Op) (tok : Word) (stop : Option TrapInfo) (hm : Memory.wf s.mem = true) :
    Memory.wf (settleEnd s o tok stop).mem = true := by
  unfold settleEnd
  split <;> simp [hm]

@[simp] theorem endOp_wf (s : State) (o : Op) (tok : Word) (stop : Option TrapInfo) (hm : Memory.wf s.mem = true) :
    Memory.wf (endOp s o tok stop).mem = true := by
  unfold endOp
  split <;> simp [hm]

@[simp] theorem failOp_wf (s : State) (o : Op) (cause : Nat) (addr detail : Word) (index : BitVec 32)
    (hm : Memory.wf s.mem = true) :
    Memory.wf (failOp s o cause addr detail index).mem = true := by
  simp [failOp, hm]

@[simp] theorem suspendOp_wf (s : State) (o : Op) (cause : Nat) (addr : Word) (index : BitVec 32)
    (hm : Memory.wf s.mem = true) :
    Memory.wf (suspendOp s o cause addr index).mem = true := by
  unfold suspendOp
  split <;> simp [hm]

@[simp] theorem cancelSuspended_wf (s : State) (core ctx : Nat) (hm : Memory.wf s.mem = true) :
    Memory.wf (cancelSuspended s core ctx).mem = true := foldl_wf (fun s o h => endOp_wf s o tokenCancelled none h) _ hm

@[simp] theorem orphanWork_mem (s : State) (core ctx : Nat) : (orphanWork s core ctx).mem = s.mem := by
  simp [orphanWork]

@[simp] theorem leaveOwner_mem (s : State) (core ctx : Nat) : (leaveOwner s core ctx).mem = s.mem := by
  simp [leaveOwner]

@[simp] theorem stopCtx_wf (s : State) (core ctx : Nat) (hm : Memory.wf s.mem = true) :
    Memory.wf (stopCtx s core ctx).mem = true := by
  simp [stopCtx, hm]

@[simp] theorem freeService_wf (s : State) (core : Nat) (hm : Memory.wf s.mem = true) :
    Memory.wf (freeService s core).mem = true := by
  simp [freeService, hm]

@[simp] theorem stopCore_wf (lid : Nat) (s : State) (core : Nat) (hm : Memory.wf s.mem = true) :
    Memory.wf (stopCore lid s core).mem = true := by
  unfold stopCore
  refine foldl_wf (fun s k h => ?_) _ ?_
  · split
    · exact stopCtx_wf _ _ _ h
    · exact h
  · rw [withCore_mem]
    split
    · split
      · exact freeService_wf _ _ hm
      · exact hm
    · exact hm

@[simp] theorem stopLaunch_wf (s : State) (lid : Nat) (hm : Memory.wf s.mem = true) :
    Memory.wf (stopLaunch s lid).mem = true := foldl_wf (stopCore_wf lid) _ hm

@[simp] theorem endLaunch_wf (s : State) (lid : Nat) (e : Ending) (hm : Memory.wf s.mem = true) :
    Memory.wf (endLaunch s lid e).mem = true := by
  unfold endLaunch
  (repeat' split) <;> simp [hm]

@[simp] theorem endLaunchBy_mem (s : State) (lid : Nat) (e : Ending) (place : Nat) :
    (endLaunchBy s lid e place).mem = s.mem := by
  unfold endLaunchBy
  (repeat' split) <;> simp

@[simp] theorem stopEnded_wf (s : State) (hm : Memory.wf s.mem = true) : Memory.wf (stopEnded s).mem = true := by
  refine foldl_wf (fun s p h => ?_) _ hm
  split
  · split
    · exact stopLaunch_wf _ _ h
    · exact h
  · exact h

@[simp] theorem faultLaunch_mem (s : State) (core ctx cause : Nat) : (faultLaunch s core ctx cause).mem = s.mem := by
  unfold faultLaunch
  split <;> simp

@[simp] theorem serviceFault_wf (s : State) (core cause : Nat) (hm : Memory.wf s.mem = true) :
    Memory.wf (serviceFault s core cause).mem = true := by
  unfold serviceFault
  split <;> simp [hm]

@[simp] theorem writeRecord_wf (s : State) (core ctx : Nat) (rcd : BitVec 512) (hm : Memory.wf s.mem = true) :
    Ensures (writeRecord s core ctx rcd) (fun t => Memory.wf t.mem = true) := by
  unfold writeRecord
  refine ensures_bind fun _ => ensures_bind fun _ => ?_
  split
  · exact ensures_error
  · exact ensures_ok.mpr (writeCells_wf _ _ (by simpa using hm))

@[simp] theorem serviceStop_wf (s : State) (core : Nat) (rcd : BitVec 512) (cause : Nat) (hm : Memory.wf s.mem = true) :
    Memory.wf (serviceStop s core rcd cause).mem = true := by
  unfold serviceStop
  split
  · exact serviceFault_wf _ _ _ (writeRecord_wf s core 4 rcd hm _ ‹_›)
  · simp [hm]

@[simp] theorem takeTrap_wf (s : State) (core ctx : Nat) (t : TrapInfo) (resume baddr : BitVec 56) (after : Bool)
    (hm : Memory.wf s.mem = true) :
    Memory.wf (takeTrap s core ctx t resume baddr after).mem = true := by
  unfold takeTrap
  split <;> simp [hm]

@[simp] theorem returnFromTrap_mem (s : State) (core ctx : Nat) : (returnFromTrap s core ctx).mem = s.mem := by
  simp [returnFromTrap]

@[simp] theorem startWake_mem (s : State) (core u : Nat) : (startWake s core u).mem = s.mem := by
  simp [startWake]

/-! ### Operands -/

@[simp] theorem stage_mem (s : State) (off : Nat) (b : List Byte) : (stage s off b).mem = s.mem := by
  simp [stage]

@[simp] theorem installEntry_mem (s : State) (core ctx : Nat) (asid : BitVec 16) (vp : Nat) :
    (installEntry s core ctx asid vp).mem = s.mem := by
  unfold installEntry
  (repeat' split) <;> simp

@[simp] theorem touchEntry_mem (s : State) (core ctx : Nat) (asid : BitVec 16) (vp : Nat) :
    (touchEntry s core ctx asid vp).mem = s.mem := by
  simp [touchEntry]

@[simp] theorem useEntries_mem (s : State) (core ctx : Nat) (asid : BitVec 16) (va n : Nat) :
    (useEntries s core ctx asid va n).mem = s.mem := by
  simp [useEntries, foldl_mem]

@[simp] theorem noteAccess_mem (s : State) (va : Word) (n : Nat) (wr : Bool) : (noteAccess s va n wr).mem = s.mem := by
  simp [noteAccess]

@[simp] theorem drawSeeds_mem (s : State) (mode n : Nat) : ((drawSeeds s mode n).2).mem = s.mem := by
  unfold drawSeeds
  split <;> simp

/-! ### Flags -/

@[simp] theorem stageSet_mem (s : State) (m : BitVec 16) : (stageSet s m).mem = s.mem := by
  simp [stageSet]

@[simp] theorem stageClr_mem (s : State) (m : BitVec 16) : (stageClr s m).mem = s.mem := by
  simp [stageClr]

@[simp] theorem setFlags_mem (s : State) (core ctx : Nat) (m : BitVec 16) : (setFlags s core ctx m).mem = s.mem := by
  simp [setFlags]

@[simp] theorem logEvent_mem (s : State) (e : MgmtEvent) : (logEvent s e).mem = s.mem := by
  simp [logEvent]

@[simp] theorem modifyTarget_mem (s : State) (core ctx : Nat) (cookie : BitVec 64) (f : Ctx → Ctx) :
    ∀ t, modifyTarget s core ctx cookie f = some t → t.mem = s.mem := by
  unfold modifyTarget
  (repeat' split) <;> simp

@[simp] theorem deliverFlags_mem (s : State) (target : Word) (mask : Byte) (cookie : BitVec 64) :
    (deliverFlags s target mask cookie).mem = s.mem := by
  unfold deliverFlags
  split
  · exact modifyTarget_mem _ _ _ _ _ _ ‹_›
  · rfl

/-! ### Replay -/

@[simp] theorem beginReplay_mem (s : State) (lid : Nat) : (beginReplay s lid).mem = s.mem := by
  simp [beginReplay]

@[simp] theorem endReplay_mem (s : State) (lid : Nat) : (endReplay s lid).mem = s.mem := by
  unfold endReplay
  split <;> simp

@[simp] theorem followRecord_mem (s : State) (x : LogRec) : (followRecord s x).mem = s.mem := by
  simp [followRecord]

@[simp] theorem replaySeed_mem (s : State) (core ctx : Nat) : (replaySeed s core ctx).mem = s.mem := by
  unfold replaySeed
  (repeat' split) <;> simp

@[simp] theorem followSeed_mem (s : State) (core ctx : Nat) : (followSeed s core ctx).mem = s.mem := by
  unfold followSeed
  (repeat' split) <;> simp

@[simp] theorem replayResponse_mem (s : State) (core ctx pa : Nat) (b : List Byte) :
    ((replayResponse s core ctx pa b).2).mem = s.mem := by
  unfold replayResponse
  (repeat' split) <;> simp

@[simp] theorem followOrder_mem (s : State) (unit ctx seq : Nat) (pas : List Nat) :
    (followOrder s unit ctx seq pas).mem = s.mem := by
  unfold followOrder
  split <;> simp [foldl_mem]

@[simp] theorem followAdd_mem (s : State) (core tag pa : Nat) : (followAdd s core tag pa).mem = s.mem := by
  unfold followAdd
  split <;> simp

@[simp] theorem followArrival_mem (s : State) (unit : Nat) (key : Word) : (followArrival s unit key).mem = s.mem := by
  unfold followArrival
  split <;> simp

/-! ### Net -/

@[simp] theorem logRecord_wf (s : State) (lid typ : Nat) (key : Word) (aux seq icnt unit ctx : Nat) (payload : List Byte)
    (hm : Memory.wf s.mem = true) : Memory.wf (logRecord s lid typ key aux seq icnt unit ctx payload).mem = true := by
  unfold logRecord
  split
  · exact hm
  · split
    · exact hm
    · dsimp only
      split
      · exact hm
      · exact physWrite_wf _ _ hm

@[simp] theorem sendLog_mem (s : State) : (sendLog s).mem = s.mem := by
  unfold sendLog
  split <;> simp [foldl_mem]

@[simp] theorem logAt_wf (s : State) (core ctx typ : Nat) (key : Word) (aux seq : Nat) (payload : List Byte)
    (hm : Memory.wf s.mem = true) :
    Memory.wf (logAt s core ctx typ key aux seq payload).mem = true := by
  unfold logAt
  split <;> simp [hm]

@[simp] theorem logAny_wf (s : State) (typ : Nat) (key : Word) (aux seq unit : Nat) (payload : List Byte)
    (hm : Memory.wf s.mem = true) :
    Memory.wf (logAny s typ key aux seq unit payload).mem = true := by
  unfold logAny
  split <;> simp [hm]

@[simp] theorem logOrder_wf (chunk : Nat) (a : Accessor) (s : State) (p : Accessor) (hm : Memory.wf s.mem = true) :
    Memory.wf (logOrder chunk a s p).mem = true := by
  unfold logOrder
  split <;> simp [hm]

@[simp] theorem noteOrder_wf (s : State) (a : Accessor) (wr : Bool) (pas : List Nat) (hm : Memory.wf s.mem = true) :
    Memory.wf (noteOrder s a wr pas).mem = true := by
  unfold noteOrder
  dsimp only
  split
  · simp [hm]
  · refine foldl_wf (fun s chunk h => ?_) _ (by simp [hm])
    split
    · exact h
    · exact foldl_wf (fun s p h => logOrder_wf chunk a s p h) _ h

@[simp] theorem lateTrace_wf (s : State) (core ctx vc pa tag : Nat) (hm : Memory.wf s.mem = true) :
    Memory.wf (lateTrace s core ctx vc pa tag).mem = true := by
  simp [lateTrace, hm]

@[simp] theorem modifyTarget_getD_mem (s : State) (core ctx : Nat) (cookie : BitVec 64) (f : Ctx → Ctx) :
    ((modifyTarget s core ctx cookie f).getD s).mem = s.mem := by
  cases h : modifyTarget s core ctx cookie f with
  | none => rfl
  | some t => exact modifyTarget_mem s core ctx cookie f t h

@[simp] theorem becomeLate_wf (s : State) (core ctx : Nat) (cookie : BitVec 64) (vc pa tag : Nat)
    (hm : Memory.wf s.mem = true) : Memory.wf (becomeLate s core ctx cookie vc pa tag).mem = true := by
  simp [becomeLate, hm]

@[simp] theorem lateEvent_wf (s : State) (core ctx : Nat) (cookie : BitVec 64) (vc pa tag : Nat)
    (hm : Memory.wf s.mem = true) :
    Memory.wf (lateEvent s core ctx cookie vc pa tag).mem = true := by
  unfold lateEvent
  split <;> simp [hm]

@[simp] theorem lateAtIssue_wf (s : State) (vc pa tag : Nat) (hm : Memory.wf s.mem = true) :
    Memory.wf (lateAtIssue s vc pa tag).mem = true := by
  unfold lateAtIssue
  split <;> simp [hm]

@[simp] theorem packetLate_wf (s : State) (p : Packet) (hm : Memory.wf s.mem = true) :
    Memory.wf (packetLate s p).mem = true := by
  unfold packetLate
  (repeat' split) <;> simp [hm]

@[simp] theorem takeSlack_wf (s : State) (p : NetPacket) (hm : Memory.wf s.mem = true) :
    Memory.wf (takeSlack s p).mem = true := by
  unfold takeSlack
  dsimp only
  (repeat' split) <;> simp [hm]

@[simp] theorem settleSlack_wf (s : State) (hm : Memory.wf s.mem = true) : Memory.wf (settleSlack s).mem = true := by
  refine foldl_wf (fun s p h => ?_) _ hm
  split
  · exact takeSlack_wf _ _ h
  · exact h

@[simp] theorem sendNow_wf (s : State) (id typ dst dstDev pa : Nat) (aux : BitVec 32) (atw : Word) (data : List Byte)
    (slk : BitVec 10) (op : Option (Nat × Nat × Nat)) (tag : Option (BitVec 16)) (hm : Memory.wf s.mem = true) :
    Memory.wf (sendNow s id typ dst dstDev pa aux atw data slk op tag).mem = true := by
  unfold sendNow
  split <;> simp [hm]

@[simp] theorem sendPacket_wf (s : State) (p : NetPacket) (hm : Memory.wf s.mem = true) :
    Memory.wf (sendPacket s p).mem = true := by
  unfold sendPacket
  dsimp only
  (repeat' split) <;> simp [hm]

@[simp] theorem pushReq_wf (s : State) (kind : ReqKind) (pas : List Nat) (slk : BitVec 10) (hint : CacheHint)
    (after : List Nat) (typ dst dstDev pa : Nat) (aux : BitVec 32) (data : List Byte) (hm : Memory.wf s.mem = true) :
    Memory.wf (pushReq s kind pas slk hint after typ dst dstDev pa aux data).mem = true := by
  simp [pushReq, hm]

@[simp] theorem pushAccess_wf (s : State) (kind : ReqKind) (pas : List Nat) (slk : BitVec 10) (hint : CacheHint)
    (after : List Nat) (typ : Nat) (aux : BitVec 32) (data : List Byte) (hm : Memory.wf s.mem = true) :
    Memory.wf (pushAccess s kind pas slk hint after typ aux data).mem = true := by
  simp [pushAccess, hm]

@[simp] theorem scopePacket_mem (s : State) (id : Nat) (scope : BitVec 3) : (scopePacket s id scope).mem = s.mem := by
  simp [scopePacket]

@[simp] theorem dropPacket_mem (s : State) (id : Nat) : (dropPacket s id).mem = s.mem := by
  simp [dropPacket]

/-! ### Cache -/

@[simp] theorem sendFor_wf (core ctx : Nat) (wr : Bool) (len : Nat) (slk : BitVec 10) (touch : Option CacheHint) (s : State)
    (pa : Nat) (hm : Memory.wf s.mem = true) :
    Memory.wf (sendFor core ctx wr len slk touch s pa).mem = true := by
  simp [sendFor, hm]

@[simp] theorem sendProbe_wf (core ctx : Nat) (slk : BitVec 10) (hint : CacheHint) (s : State) (p : Nat × Nat)
    (hm : Memory.wf s.mem = true) :
    Memory.wf (sendProbe core ctx slk hint s p).mem = true := by
  simp [sendProbe, hm]

@[simp] theorem sendWalk_wf (s : State) (core ctx : Nat) (slk : BitVec 10) (asid : BitVec 16) (vp : Nat)
    (hm : Memory.wf s.mem = true) : Memory.wf (sendWalk s core ctx slk asid vp).mem = true :=
  foldl_wf (sendProbe_wf core ctx slk _) _ hm

@[simp] theorem probeUnit_wf (s : State) (core ctx : Nat) (asid : BitVec 16) (vp : Nat) (slk : BitVec 10)
    (hm : Memory.wf s.mem = true) :
    Memory.wf (probeUnit s core ctx asid vp slk).mem = true := by
  unfold probeUnit
  split <;> simp [hm]

@[simp] theorem useRanges_wf (s : State) (core ctx : Nat) (asid : BitVec 16) (va n : Nat) (slk : BitVec 10)
    (hm : Memory.wf s.mem = true) : Memory.wf (useRanges s core ctx asid va n slk).mem = true := by
  rw [useRanges, useEntries_mem]
  exact foldl_wf (fun s p => probeUnit_wf s core ctx asid _ slk) _ hm

@[simp] theorem useWalks_wf (s : State) (core ctx : Nat) (asid : BitVec 16) (t : TrapInfo) (hm : Memory.wf s.mem = true) :
    Memory.wf (useWalks s core ctx asid t).mem = true := foldl_wf (fun s _ h => useRanges_wf s core ctx asid _ _ _ h) _ hm

@[simp] theorem execWayGate_mem (slice k : Nat) (s : State) : Next (execWayGate slice k s) (fun t => t.mem = s.mem) := by
  unfold execWayGate
  dsimp only
  split <;> simp

@[simp] theorem execWayPowerUp_mem (slice k : Nat) (s : State) :
    Next (execWayPowerUp slice k s) (fun t => t.mem = s.mem) := by
  unfold execWayPowerUp
  dsimp only
  split <;> simp

/-! ### Mem -/

@[simp] theorem directLoad_wf (s : State) (va : Word) (n : Nat) (h : Hint) (o : Op) (hm : Memory.wf s.mem = true) :
    Ensures (directLoad s va n h o) (fun t => Memory.wf t.mem = true) := by
  unfold directLoad
  refine ensures_bind fun _ => (issueOp_mem _ _).bind fun t ht => ensures_ok.mpr ?_
  refine foldl_wf (fun s c hs => pushAccess_wf _ _ _ _ _ _ _ _ _ hs) _ (useRanges_wf _ _ _ _ _ _ _ ?_)
  rwa [ht]

@[simp] theorem directStore_wf (s : State) (va : Word) (b : List Byte) (h : Hint) (hm : Memory.wf s.mem = true) :
    Ensures (directStore s va b h) (fun t => Memory.wf t.mem = true) := by
  unfold directStore
  refine ensures_bind fun _ => ensures_bind fun _ => ensures_ok.mpr ?_
  exact foldl_wf (fun s c hs => pushAccess_wf _ _ _ _ _ _ _ _ _ hs) _ (useRanges_wf _ _ _ _ _ _ _ hm)

@[simp] theorem slotLd_wf (d a : Reg) (h : Hint) (sp sx : Bool) (sz : BitVec 2) (off : Imm) (s : State)
    (hm : Memory.wf s.mem = true) :
    Ensures (slotLd d a h sp sx sz off s) (fun t => Memory.wf t.mem = true) := by
  simp [slotLd, hm]

@[simp] theorem slotSt_wf (d a : Reg) (h : Hint) (sp : Bool) (sz : BitVec 2) (off : Imm) (s : State)
    (hm : Memory.wf s.mem = true) :
    Ensures (slotSt d a h sp sz off s) (fun t => Memory.wf t.mem = true) := by
  simp [slotSt, hm]

@[simp] theorem slotXpSet_mem (slot : BitVec 3) (a : Reg) (off : Imm) (s : State) :
    Ensures (slotXpSet slot a off s) (fun t => t.mem = s.mem) := by
  simp [slotXpSet]

@[simp] theorem slotLdX_wf (d a : Reg) (h : Hint) (sp sc : Bool) (pat : BitVec 3) (off : Imm) (s : State)
    (hm : Memory.wf s.mem = true) :
    Ensures (slotLdX d a h sp sc pat off s) (fun t => Memory.wf t.mem = true) := by
  simp [slotLdX, hm]

@[simp] theorem slotStX_wf (d a : Reg) (h : Hint) (sp sc : Bool) (off : Imm) (s : State) (hm : Memory.wf s.mem = true) :
    Ensures (slotStX d a h sp sc off s) (fun t => Memory.wf t.mem = true) := by
  simp [slotStX, hm]

@[simp] theorem slotLdXg_mem (d a : Reg) (pat : BitVec 3) (off : Imm) (s : State) :
    Ensures (slotLdXg d a pat off s) (fun t => t.mem = s.mem) := by
  simp [slotLdXg]

@[simp] theorem execLoadDataReturn_wf (core ctx seq : Nat) (s : State) (hm : Memory.wf s.mem = true) :
    Next (execLoadDataReturn core ctx seq s) (fun t => Memory.wf t.mem = true) := by
  unfold execLoadDataReturn
  dsimp only
  (repeat' split) <;> simp [hm]

/-! ### Atomic -/

@[simp] theorem startAtomic_wf (s : State) (o : Op) (addr : Word) (ty ord : BitVec 2) (aop : BitVec 3) (h : Hint)
    (scope : BitVec 3) (noReturn : Bool) (hm : Memory.wf s.mem = true) :
    Ensures (startAtomic s o addr ty ord aop h scope noReturn) (fun t => Memory.wf t.mem = true) := by
  unfold startAtomic
  refine ensures_bind fun _ => ensures_bind fun _ => ensures_bind fun _ => (issueOp_mem _ _).bind fun t ht => ?_
  have issued : Memory.wf t.mem = true := by simpa [ht] using hm
  dsimp only
  split <;> simp [issued]

@[simp] theorem slotAm_wf (t a b c : Reg) (aop : BitVec 3) (ty : BitVec 2) (scope : BitVec 3) (ord : BitVec 2)
    (disp : BitVec 12) (h : Hint) (s : State) (hm : Memory.wf s.mem = true) :
    Ensures (slotAm t a b c aop ty scope ord disp h s) (fun t => Memory.wf t.mem = true) := by
  simp [slotAm, hm]

@[simp] theorem slotRed_wf (t a b : Reg) (aop : BitVec 3) (ty : BitVec 2) (scope : BitVec 3) (ord : BitVec 2)
    (disp : BitVec 12) (h : Hint) (s : State) (hm : Memory.wf s.mem = true) :
    Ensures (slotRed t a b aop ty scope ord disp h s) (fun t => Memory.wf t.mem = true) := by
  simp [slotRed, hm]

@[simp] theorem execAtomicReply_wf (core ctx seq : Nat) (s : State) (hm : Memory.wf s.mem = true) :
    Next (execAtomicReply core ctx seq s) (fun t => Memory.wf t.mem = true) := by
  unfold execAtomicReply
  (repeat' split) <;> simp [hm]

@[simp] theorem slotDrain_mem (scope : BitVec 3) (s : State) : Ensures (slotDrain scope s) (fun t => t.mem = s.mem) := by
  simp [slotDrain]

/-! ### Vector -/

@[simp] theorem roundRows_mem (s : State) (mode : Nat) (r : Rnd) (dt : Nat) (rows : List Nat) (n : Nat)
    (v : Nat → Nat → Val) :
    ((roundRows s mode r dt rows n v).2).mem = s.mem := by
  simp [roundRows]

@[simp] theorem vecUnary_mem (f : Val → Val) (base : Nat) (d a : Reg) (pm : BitVec 3) (r : Rnd) (dt : BitVec 4) (s : State) :
    Ensures (vecUnary f base d a pm r dt s) (fun t => t.mem = s.mem) := by
  simp [vecUnary]

@[simp] theorem vecBinary_mem (f : Val → Val → Val → Val) (d a b : Reg) (c : Option Reg) (pm : BitVec 3) (r : Rnd)
    (bs : Bool) (dt : BitVec 4) (s : State) :
    Ensures (vecBinary f d a b c pm r bs dt s) (fun t => t.mem = s.mem) := by
  simp [vecBinary]

@[simp] theorem slotVadd_mem (d a b : Reg) (pm : BitVec 3) (r : Rnd) (bs : Bool) (dt : BitVec 4) (s : State) :
    Ensures (slotVadd d a b pm r bs dt s) (fun t => t.mem = s.mem) := by
  simp [slotVadd]

@[simp] theorem slotVsub_mem (d a b : Reg) (pm : BitVec 3) (r : Rnd) (bs : Bool) (dt : BitVec 4) (s : State) :
    Ensures (slotVsub d a b pm r bs dt s) (fun t => t.mem = s.mem) := by
  simp [slotVsub]

@[simp] theorem slotVmul_mem (d a b : Reg) (pm : BitVec 3) (r : Rnd) (bs : Bool) (dt : BitVec 4) (s : State) :
    Ensures (slotVmul d a b pm r bs dt s) (fun t => t.mem = s.mem) := by
  simp [slotVmul]

@[simp] theorem slotVmin_mem (d a b : Reg) (pm : BitVec 3) (r : Rnd) (bs : Bool) (dt : BitVec 4) (s : State) :
    Ensures (slotVmin d a b pm r bs dt s) (fun t => t.mem = s.mem) := by
  simp [slotVmin]

@[simp] theorem slotVmax_mem (d a b : Reg) (pm : BitVec 3) (r : Rnd) (bs : Bool) (dt : BitVec 4) (s : State) :
    Ensures (slotVmax d a b pm r bs dt s) (fun t => t.mem = s.mem) := by
  simp [slotVmax]

@[simp] theorem slotVfma_mem (d a b c : Reg) (pm : BitVec 3) (r : Rnd) (bs : Bool) (dt : BitVec 4) (s : State) :
    Ensures (slotVfma d a b c pm r bs dt s) (fun t => t.mem = s.mem) := by
  simp [slotVfma]

@[simp] theorem slotVabs_mem (d a : Reg) (pm : BitVec 3) (r : Rnd) (dt : BitVec 4) (s : State) :
    Ensures (slotVabs d a pm r dt s) (fun t => t.mem = s.mem) := by
  simp [slotVabs]

@[simp] theorem slotVneg_mem (d a : Reg) (pm : BitVec 3) (r : Rnd) (dt : BitVec 4) (s : State) :
    Ensures (slotVneg d a pm r dt s) (fun t => t.mem = s.mem) := by
  simp [slotVneg]

@[simp] theorem slotVexp2_mem (d a : Reg) (pm : BitVec 3) (r : Rnd) (dt : BitVec 4) (s : State) :
    Ensures (slotVexp2 d a pm r dt s) (fun t => t.mem = s.mem) := by
  simp [slotVexp2]

@[simp] theorem slotVlog2_mem (d a : Reg) (pm : BitVec 3) (r : Rnd) (dt : BitVec 4) (s : State) :
    Ensures (slotVlog2 d a pm r dt s) (fun t => t.mem = s.mem) := by
  simp [slotVlog2]

@[simp] theorem slotVrcp_mem (d a : Reg) (pm : BitVec 3) (r : Rnd) (dt : BitVec 4) (s : State) :
    Ensures (slotVrcp d a pm r dt s) (fun t => t.mem = s.mem) := by
  simp [slotVrcp]

@[simp] theorem slotVrsq_mem (d a : Reg) (pm : BitVec 3) (r : Rnd) (dt : BitVec 4) (s : State) :
    Ensures (slotVrsq d a pm r dt s) (fun t => t.mem = s.mem) := by
  simp [slotVrsq]

@[simp] theorem slotVtanh_mem (d a : Reg) (pm : BitVec 3) (r : Rnd) (dt : BitVec 4) (s : State) :
    Ensures (slotVtanh d a pm r dt s) (fun t => t.mem = s.mem) := by
  simp [slotVtanh]

@[simp] theorem slotVsig_mem (d a : Reg) (pm : BitVec 3) (r : Rnd) (dt : BitVec 4) (s : State) :
    Ensures (slotVsig d a pm r dt s) (fun t => t.mem = s.mem) := by
  simp [slotVsig]

@[simp] theorem slotVsin_mem (d a : Reg) (pm : BitVec 3) (r : Rnd) (dt : BitVec 4) (s : State) :
    Ensures (slotVsin d a pm r dt s) (fun t => t.mem = s.mem) := by
  simp [slotVsin]

@[simp] theorem slotVcmp_mem (d a b : Reg) (pm : BitVec 3) (bs : Bool) (cond : BitVec 3) (s : State) :
    Ensures (slotVcmp d a b pm bs cond s) (fun t => t.mem = s.mem) := by
  simp [slotVcmp]

@[simp] theorem slotVsel_mem (d a b c : Reg) (pm : BitVec 3) (s : State) :
    Ensures (slotVsel d a b c pm s) (fun t => t.mem = s.mem) := by
  simp [slotVsel]

@[simp] theorem vecInt_mem (f : Nat → Nat → Nat → Nat) (d a b : Reg) (pm : BitVec 3) (bs : Bool) (s : State) :
    Ensures (vecInt f d a b pm bs s) (fun t => t.mem = s.mem) := by
  simp [vecInt]

@[simp] theorem slotViadd_mem (d a b : Reg) (pm : BitVec 3) (bs sati : Bool) (s : State) :
    Ensures (slotViadd d a b pm bs sati s) (fun t => t.mem = s.mem) := by
  simp [slotViadd]

@[simp] theorem slotVimul_mem (d a b : Reg) (pm : BitVec 3) (bs sati : Bool) (s : State) :
    Ensures (slotVimul d a b pm bs sati s) (fun t => t.mem = s.mem) := by
  simp [slotVimul]

@[simp] theorem slotVand_mem (d a b : Reg) (pm : BitVec 3) (bs : Bool) (s : State) :
    Ensures (slotVand d a b pm bs s) (fun t => t.mem = s.mem) := by
  simp [slotVand]

@[simp] theorem slotVor_mem (d a b : Reg) (pm : BitVec 3) (bs : Bool) (s : State) :
    Ensures (slotVor d a b pm bs s) (fun t => t.mem = s.mem) := by
  simp [slotVor]

@[simp] theorem slotVxor_mem (d a b : Reg) (pm : BitVec 3) (bs : Bool) (s : State) :
    Ensures (slotVxor d a b pm bs s) (fun t => t.mem = s.mem) := by
  simp [slotVxor]

@[simp] theorem slotVshl_mem (d a b : Reg) (pm : BitVec 3) (bs : Bool) (s : State) :
    Ensures (slotVshl d a b pm bs s) (fun t => t.mem = s.mem) := by
  simp [slotVshl]

@[simp] theorem slotVshr_mem (d a b : Reg) (pm : BitVec 3) (bs arith : Bool) (s : State) :
    Ensures (slotVshr d a b pm bs arith s) (fun t => t.mem = s.mem) := by
  simp [slotVshr]

@[simp] theorem slotVidot_mem (d a b c : Reg) (pm : BitVec 3) (brow : Bool) (k : BitVec 4) (s : State) :
    Ensures (slotVidot d a b c pm brow k s) (fun t => t.mem = s.mem) := by
  simp [slotVidot]

@[simp] theorem vecMove_mem (a : Tile) (x lat : Nat) (s : State) (ws : List Write) :
    Ensures (vecMove a x lat s ws) (fun t => t.mem = s.mem) := by
  simp [vecMove]

@[simp] theorem slotVbcastRow_mem (d a : Reg) (pm : BitVec 3) (k : BitVec 6) (s : State) :
    Ensures (slotVbcastRow d a pm k s) (fun t => t.mem = s.mem) := by
  simp [slotVbcastRow]

@[simp] theorem slotVbcastEl_mem (d a : Reg) (pm : BitVec 3) (e : BitVec 11) (s : State) :
    Ensures (slotVbcastEl d a pm e s) (fun t => t.mem = s.mem) := by
  simp [slotVbcastEl]

@[simp] theorem slotVtr_mem (d a : Reg) (c : BitVec 3) (s : State) :
    Ensures (slotVtr d a c s) (fun t => t.mem = s.mem) := by
  simp [slotVtr]

@[simp] theorem slotVsh_mem (d a b : Reg) (pm : BitVec 3) (rot : Bool) (imm : Imm20) (s : State) :
    Ensures (slotVsh d a b pm rot imm s) (fun t => t.mem = s.mem) := by
  simp [slotVsh]

@[simp] theorem slotVshRows_mem (d a b : Reg) (pm : BitVec 3) (rot : Bool) (imm : Imm20) (s : State) :
    Ensures (slotVshRows d a b pm rot imm s) (fun t => t.mem = s.mem) := by
  simp [slotVshRows]

@[simp] theorem slotVperm_mem (d a b : Reg) (pm : BitVec 3) (s : State) :
    Ensures (slotVperm d a b pm s) (fun t => t.mem = s.mem) := by
  simp [slotVperm]

@[simp] theorem slotVmov_mem (d a : Reg) (pm : BitVec 3) (s : State) :
    Ensures (slotVmov d a pm s) (fun t => t.mem = s.mem) := by
  simp [slotVmov]

@[simp] theorem slotVzero_mem (d : Reg) (pm : BitVec 3) (tag : BitVec 4) (s : State) :
    Ensures (slotVzero d pm tag s) (fun t => t.mem = s.mem) := by
  simp [slotVzero]

@[simp] theorem slotShp_mem (fromReg : Bool) (a : Reg) (rows : BitVec 7) (cols : BitVec 11) (s : State) :
    Ensures (slotShp fromReg a rows cols s) (fun t => t.mem = s.mem) := by
  simp [slotShp]

@[simp] theorem slotFmtTag_mem (d : Reg) (tag : BitVec 4) (s : State) :
    Ensures (slotFmtTag d tag s) (fun t => t.mem = s.mem) := by
  simp [slotFmtTag]

/-! ### Convert -/

@[simp] theorem convertRows_mem (s : State) (x : Nat) (ta : Tile) (pm : BitVec 3) (rows : Nat) (r : Rnd)
    (dt lo first n lat : Nat) (nosc : Bool) :
    Ensures (convertRows s x ta pm rows r dt lo first n lat nosc) (fun t => t.mem = s.mem) := by
  simp [convertRows]

@[simp] theorem slotVcvt_mem (d a : Reg) (pm : BitVec 3) (r : Rnd) (dt : BitVec 4) (s : State) :
    Ensures (slotVcvt d a pm r dt s) (fun t => t.mem = s.mem) := by
  simp [slotVcvt]

@[simp] theorem slotCvtPk_mem (d a : Reg) (pm : BitVec 3) (r : Rnd) (dt : BitVec 4) (part : BitVec 3) (s : State) :
    Ensures (slotCvtPk d a pm r dt part s) (fun t => t.mem = s.mem) := by
  simp [slotCvtPk]

@[simp] theorem unpackPart_mem (ok : List Nat) (lat : Nat) (nosc : Bool) (d a : Reg) (pm : BitVec 3) (r : Rnd)
    (dt : BitVec 4) (part : BitVec 3) (s : State) :
    Ensures (unpackPart ok lat nosc d a pm r dt part s) (fun t => t.mem = s.mem) := by
  simp [unpackPart]

@[simp] theorem slotCvtUp_mem (d a : Reg) (pm : BitVec 3) (r : Rnd) (dt : BitVec 4) (part : BitVec 3) (s : State) :
    Ensures (slotCvtUp d a pm r dt part s) (fun t => t.mem = s.mem) := by
  simp [slotCvtUp]

@[simp] theorem slotVdq_mem (d a : Reg) (pm : BitVec 3) (r : Rnd) (nosc : Bool) (dt : BitVec 4) (part : BitVec 3)
    (s : State) :
    Ensures (slotVdq d a pm r nosc dt part s) (fun t => t.mem = s.mem) := by
  simp [slotVdq]

@[simp] theorem slotVq_mem (d a b : Reg) (pm : BitVec 3) (r : Rnd) (dt : BitVec 4) (part : BitVec 3) (s : State) :
    Ensures (slotVq d a b pm r dt part s) (fun t => t.mem = s.mem) := by
  simp [slotVq]

@[simp] theorem reduceAll_mem (s : State) (ta : Tile) (r : Rnd) (dt op : Nat) (lists : List (List (Nat × Nat))) :
    ((reduceAll s ta r dt op lists).2).mem = s.mem := by
  unfold reduceAll
  dsimp only
  split <;> simp

@[simp] theorem slotVred_mem (d a : Reg) (pm : BitVec 3) (r : Rnd) (dt : BitVec 4) (op : BitVec 2) (e : BitVec 11)
    (s : State) :
    Ensures (slotVred d a pm r dt op e s) (fun t => t.mem = s.mem) := by
  simp [slotVred]

@[simp] theorem slotVcred_mem (d a : Reg) (pm : BitVec 3) (r : Rnd) (dt : BitVec 4) (op : BitVec 2) (row : BitVec 6)
    (s : State) :
    Ensures (slotVcred d a pm r dt op row s) (fun t => t.mem = s.mem) := by
  simp [slotVcred]

@[simp] theorem slotVsmMerge_mem (d a : Reg) (pm : BitVec 3) (r : Rnd) (s : State) :
    Ensures (slotVsmMerge d a pm r s) (fun t => t.mem = s.mem) := by
  refine ensures_bind fun _ => ensures_ite_bind fun _ => ensures_bind fun _ => ensures_ite_bind fun _ =>
    ensures_bind fun _ => ensures_bind fun _ => ensures_bind fun _ => ensures_bind fun _ => ensures_bind fun _ =>
    ensures_bind fun _ => ensures_bind fun _ => ensures_bind fun _ => ensures_bind fun _ => ensures_bind fun _ => ?_
  exact ensures_ok.mpr ((results_mem _ _ _).trans (drawSeeds_mem _ _ _))

/-! ### Engine -/

@[simp] theorem freeBytes_mem (s : State) (f : Nat → Byte) (n : Nat) : ((freeBytes s f n).2).mem = s.mem := by
  simp [freeBytes]

@[simp] theorem readPas_mem (s : State) (l : List Nat) : (readPas s l).2.mem = s.mem := by
  induction l generalizing s with
  | nil => rfl
  | cons a l ih =>
    unfold readPas
    split
    · exact (ih _).trans (freeBytes_mem _ _ _)
    · exact ih s

@[simp] theorem sendAccess_wf (s : State) (a : Send) (hm : Memory.wf s.mem = true) :
    Memory.wf (sendAccess s a).mem = true := by
  unfold sendAccess
  split <;> simp [hm]

@[simp] theorem spmFetch_wf (s : State) (p : Party) (core off n : Nat) (hm : Memory.wf s.mem = true) :
    Ensures (spmFetch s p core off n) (fun t => Memory.wf t.2.mem = true) := by
  simp [spmFetch, hm]

@[simp] theorem spmPlace_wf (s : State) (p : Party) (core off : Nat) (b : List Byte) (hm : Memory.wf s.mem = true) :
    Ensures (spmPlace s p core off b) (fun t => Memory.wf t.mem = true) := by
  simp [spmPlace, hm]

@[simp] theorem engineRead_wf (s : State) (p : Party) (spm : Bool) (addr n : Nat) (need : List Nat)
    (hm : Memory.wf s.mem = true) :
    Ensures (engineRead s p spm addr n need) (fun t => Memory.wf t.2.mem = true) := by
  simp [engineRead, hm]

theorem ensures_engineRead {α : Type} {P : α → Prop} {s : State} {p : Party} {spm : Bool} {addr n : Nat} {need : List Nat}
    {f : List Byte × State → Except OpErr α} (hm : Memory.wf s.mem = true)
    (hf : ∀ b t, Memory.wf t.mem = true → Ensures (f (b, t)) P) : Ensures (engineRead s p spm addr n need >>= f) P :=
  (engineRead_wf s p spm addr n need hm).bind fun x hx => hf x.1 x.2 hx

@[simp] theorem partyWrite_wf (s : State) (p : Party) (spm : Bool) (addr : Nat) (b : List Byte) (need : List Nat)
    (hm : Memory.wf s.mem = true) :
    Ensures (partyWrite s p spm addr b need) (fun t => Memory.wf t.mem = true) := by
  simp [partyWrite, hm]

theorem ensures_partyWrite {α : Type} {P : α → Prop} {s : State} {p : Party} {spm : Bool} {addr : Nat} {b : List Byte}
    {need : List Nat} {f : State → Except OpErr α} (hm : Memory.wf s.mem = true)
    (hf : ∀ t, Memory.wf t.mem = true → Ensures (f t) P) : Ensures (partyWrite s p spm addr b need >>= f) P :=
  (partyWrite_wf s p spm addr b need hm).bind hf

@[simp] theorem engineWrite_wf (s : State) (o : Op) (spm : Bool) (addr : Nat) (b : List Byte) (need : List Nat)
    (hm : Memory.wf s.mem = true) :
    Ensures (engineWrite s o spm addr b need) (fun t => Memory.wf t.mem = true) := by
  simp [engineWrite, hm]

theorem ensures_engineWrite {α : Type} {P : α → Prop} {s : State} {o : Op} {spm : Bool} {addr : Nat} {b : List Byte}
    {need : List Nat} {f : State → Except OpErr α} (hm : Memory.wf s.mem = true)
    (hf : ∀ t, Memory.wf t.mem = true → Ensures (f t) P) : Ensures (engineWrite s o spm addr b need >>= f) P :=
  (engineWrite_wf s o spm addr b need hm).bind hf

@[simp] theorem dropTag_mem (s : State) (core ctx seq tag : Nat) : (dropTag s core ctx seq tag).mem = s.mem := by
  simp [dropTag]

/-- Chunk functions keep memory canonical. -/
def ChunkKeeps (f : State → Op → Nat → Except OpErr (State × Op)) : Prop :=
  ∀ s o k, Memory.wf s.mem = true → Ensures (f s o k) (fun t => Memory.wf t.1.mem = true)

theorem runChunk_wf {f : State → Op → Nat → Except OpErr (State × Op)} (hf : ChunkKeeps f) (s : State) (o : Op) (k : Nat)
    (hm : Memory.wf s.mem = true) : Ensures (runChunk f s o k) (fun t => Memory.wf t.1.mem = true) := by
  unfold runChunk
  split
  · exact ensures_ok.mpr hm
  · split
    · rename_i h
      exact ensures_ok.mpr (by simpa using hf _ _ _ hm _ h)
    · exact ensures_error

theorem runChunks_wf {f : State → Op → Nat → Except OpErr (State × Op)} (hf : ChunkKeeps f) (s : State) (o : Op)
    (l : List Nat)
    (hm : Memory.wf s.mem = true) :
    match runChunks f s o l with | .done t _ => Memory.wf t.mem = true | .stopped t _ _ => Memory.wf t.mem = true := by
  induction l generalizing s o with
  | nil => exact hm
  | cons k l ih =>
    unfold runChunks
    cases h : runChunk f s o k with
    | ok p => exact ih p.1 p.2 (runChunk_wf hf s o k hm p h)
    | error e => exact hm

@[simp] theorem searched_wf (s : State) (p : Party) (f : TrFault) (hm : Memory.wf s.mem = true) :
    Memory.wf (searched s p f).mem = true := by
  simp [searched, hm]

@[simp] theorem opFault_wf (s : State) (o : Op) (e : OpErr) (hm : Memory.wf s.mem = true) :
    Next (opFault s o e) (fun t => Memory.wf t.mem = true) := by
  unfold opFault
  split <;> simp [hm]

@[simp] theorem dropReloc_mem (s : State) (o : Op) : (dropReloc s o).mem = s.mem := by
  unfold dropReloc
  split <;> simp

@[simp] theorem startOp_mem (s : State) (o : Op) : Ensures (startOp s o) (fun t => t.mem = s.mem) := issueOp_mem s o

theorem ensures_startOp {α : Type} {P : α → Prop} {s : State} {o : Op} {f : State → Except Stop α}
    (hf : ∀ t, t.mem = s.mem → Ensures (f t) P) : Ensures (startOp s o >>= f) P := (startOp_mem s o).bind hf

theorem completeOp_wf {f : State → Op → Nat → Except OpErr (State × Op)} (hf : ChunkKeeps f) (l : List Nat)
    {fin : State → Op → State} (hfin : ∀ s o, Memory.wf s.mem = true → Memory.wf (fin s o).mem = true) (s : State) (o : Op)
    (hm : Memory.wf s.mem = true) : Next (completeOp f l fin s o) (fun t => Memory.wf t.mem = true) := by
  unfold completeOp
  have run := runChunks_wf hf s o l hm
  split
  · exact next_next.mpr hm
  · split <;> rename_i h
    · rw [h] at run
      exact next_next.mpr (hfin _ _ run)
    · exact next_next.mpr hm

/-! ### Chain -/

@[simp] theorem slotChain_mem (t a : Reg) (s : State) : Ensures (slotChain t a s) (fun t => t.mem = s.mem) := by
  simp [slotChain]

@[simp] theorem execChainComplete_wf (core ctx seq : Nat) (s : State) (hm : Memory.wf s.mem = true) :
    Next (execChainComplete core ctx seq s) (fun t => Memory.wf t.mem = true) := by
  unfold execChainComplete
  (repeat' split) <;> simp [hm]

/-! ### Row -/

@[simp] theorem setWords_mem (s : State) (d : Reg) (pm : BitVec 3) (f : Tile → Nat → BitVec 32) :
    Ensures (setWords s d pm f) (fun t => t.mem = s.mem) := by
  simp [setWords]

@[simp] theorem slotRcwSet_mem (d a : Reg) (pm : BitVec 3) (s : State) :
    Ensures (slotRcwSet d a pm s) (fun t => t.mem = s.mem) := by
  simp [slotRcwSet]

@[simp] theorem slotRcwSetSt_mem (d : Reg) (pm state : BitVec 3) (s : State) :
    Ensures (slotRcwSetSt d pm state s) (fun t => t.mem = s.mem) := by
  simp [slotRcwSetSt]

@[simp] theorem slotRcwSetCp_mem (d a : Reg) (pm : BitVec 3) (s : State) :
    Ensures (slotRcwSetCp d a pm s) (fun t => t.mem = s.mem) := by
  simp [slotRcwSetCp]

@[simp] theorem slotRcwCnt_mem (d a : Reg) (pm : BitVec 3) (acc : Bool) (n : BitVec 6) (s : State) :
    Ensures (slotRcwCnt d a pm acc n s) (fun t => t.mem = s.mem) := by
  simp [slotRcwCnt]

@[simp] theorem slotRcwMask_mem (d : BitVec 3) (a : Reg) (set : Byte) (s : State) :
    Ensures (slotRcwMask d a set s) (fun t => t.mem = s.mem) := by
  simp [slotRcwMask]

@[simp] theorem slotRuleSet_mem (a : Reg) (n : BitVec 3) (s : State) :
    Ensures (slotRuleSet a n s) (fun t => t.mem = s.mem) := by
  simp [slotRuleSet]

@[simp] theorem slotRcwUpd_mem (d a : Reg) (pm rule : BitVec 3) (mode : BitVec 2) (col : BitVec 10) (s : State) :
    Ensures (slotRcwUpd d a pm rule mode col s) (fun t => t.mem = s.mem) := by
  refine ensures_bind fun _ => ensures_bind fun _ => ensures_bind fun _ => ensures_bind fun _ => ensures_bind fun _ =>
    ensures_bind fun _ => ensures_ite_bind fun _ => ?_
  split
  · exact ensures_error
  · exact ensures_bind fun _ => ensures_ok.mpr (results_mem s _ _)

/-! ### Cmx -/

@[simp] theorem withCluster_mem (s : State) (n : Nat) (f : Cluster → Cluster) : (withCluster s n f).mem = s.mem := by
  simp [withCluster]

@[simp] theorem commitTiles_wf (s : State) (core : Nat) (ws : List Write) (hm : Memory.wf s.mem = true) :
    Memory.wf (commitTiles s core ws).mem = true := by
  simp [commitTiles, hm]

@[simp] theorem readPackList_wf (s : State) (o : Op) (hm : Memory.wf s.mem = true) :
    Ensures (readPackList s o) (fun t => Memory.wf t.2.mem = true) := by
  refine (engineRead_wf s _ _ _ _ _ hm).bind fun p hp => ?_
  refine (engineRead_wf p.2 _ _ _ _ _ hp).bind fun q hq => ?_
  exact ensures_ok.mpr hq

@[simp] theorem popCmx_mem (s : State) (cl : Nat) : (popCmx s cl).mem = s.mem := by
  simp [popCmx]

@[simp] theorem startCmd_mem (s : State) (cl : Nat) (o : Op) (b : List Byte) : (startCmd s cl o b).mem = s.mem := by
  simp [startCmd]

@[simp] theorem startHead_wf (cl n : Nat) (s : State) (hm : Memory.wf s.mem = true) :
    Next (startHead cl n s) (fun t => Memory.wf t.mem = true) := by
  induction n generalizing s with
  | zero => exact next_next.mpr hm
  | succ n ih =>
    unfold startHead
    dsimp only
    split
    · exact next_next.mpr hm
    · split
      · exact next_next.mpr hm
      · split
        · exact ih _ (by simp [hm])
        · split
          · exact next_next.mpr hm
          · split
            · rename_i h
              exact ih _ (opFault_wf _ _ _ (by simp [hm]) _ h)
            · exact opFault_wf _ _ _ (by simp [hm])
          · rename_i h
            exact next_next.mpr (by simpa using readPackList_wf s _ hm _ h)

@[simp] theorem endCmx_wf (s : State) (cl : Nat) (hm : Memory.wf s.mem = true) :
    Next (endCmx s cl) (fun t => Memory.wf t.mem = true) := by
  simp [endCmx, hm]

@[simp] theorem execCmxStart_wf (cluster : Nat) (s : State) (hm : Memory.wf s.mem = true) :
    Next (execCmxStart cluster s) (fun t => Memory.wf t.mem = true) := by
  simp [execCmxStart, hm]

@[simp] theorem acceptCmx_wf (s : State) (cl : Nat) (o : Op) (pack : Bool) (hm : Memory.wf s.mem = true) :
    Memory.wf (acceptCmx s cl o pack).mem = true := by
  unfold acceptCmx
  dsimp only
  split
  · split
    · rename_i h
      rw [startCmd_mem]
      exact readPackList_wf _ o (by simpa using hm) _ h
    · simpa using hm
  · simpa using hm

@[simp] theorem startCmx_wf (s : State) (i : Instr) (t a b c : Reg) (sp : Bool) (nt set : Nat) (pack : Bool)
    (hm : Memory.wf s.mem = true) : Ensures (startCmx s i t a b c sp nt set pack) (fun t => Memory.wf t.mem = true) := by
  unfold startCmx
  refine ensures_bind fun _ => ensures_ite_bind fun _ => ensures_bind fun _ => ensures_ite_bind fun _ =>
    ensures_bind fun _ => ensures_ite_bind fun _ => ensures_ite_bind fun _ => ensures_bind fun _ =>
    ensures_ite_bind fun _ => ensures_ite_bind fun _ => ensures_ite_bind fun _ => ensures_startOp fun _ ht => ?_
  exact ensures_ok.mpr (acceptCmx_wf _ _ _ _ (ht ▸ hm))

@[simp] theorem slotCmxPack_wf (t a b c : Reg) (sp : Bool) (nt : BitVec 5) (set : Byte) (s : State)
    (hm : Memory.wf s.mem = true) :
    Ensures (slotCmxPack t a b c sp nt set s) (fun t => Memory.wf t.mem = true) := by
  simp [slotCmxPack, hm]

@[simp] theorem slotCmxRest_wf (t a b c : Reg) (sp : Bool) (nt : BitVec 5) (s : State) (hm : Memory.wf s.mem = true) :
    Ensures (slotCmxRest t a b c sp nt s) (fun t => Memory.wf t.mem = true) := by
  simp [slotCmxRest, hm]

@[simp] theorem cmxChunk_wf (s : State) (o : Op) (k : Nat) (hm : Memory.wf s.mem = true) :
    Ensures (cmxChunk s o k) (fun t => Memory.wf t.1.mem = true) := by
  simp [cmxChunk, hm]

@[simp] theorem placeRow_wf (s : State) (o : Op) (core off words i : Nat) (d : Row) (w : BitVec 32)
    (hm : Memory.wf s.mem = true) : Ensures (placeRow s o core off words i d w) (fun t => Memory.wf t.mem = true) :=
  (spmPlace_wf s _ _ _ _ hm).bind fun t ht => spmPlace_wf t _ _ _ _ ht

@[simp] theorem packOutput_wf (s : State) (o : Op) (tag : Nat) (ss : BitVec 32) (rows : List MovedRow) (j : Nat)
    (hm : Memory.wf s.mem = true) : Ensures (packOutput s o tag ss rows j) (fun t => Memory.wf t.mem = true) := by
  unfold packOutput
  split
  · exact ensures_ok.mpr (commitTiles_wf _ _ _ hm)
  · exact ensures_foldlM (fun t i ht => placeRow_wf t o _ _ _ _ _ _ ht) _ hm

@[simp] theorem runPack_wf (s : State) (o : Op) (hm : Memory.wf s.mem = true) :
    Ensures (runPack s o) (fun t => Memory.wf t.1.mem = true) := by
  unfold runPack
  refine ensures_ite_bind fun _ => ensures_ite_bind fun _ => ?_
  dsimp only
  split
  · exact ensures_error
  · refine ensures_bind fun _ => ensures_ite_bind fun _ => ?_
    refine ensures_ite_bind fun _ => ?_
    split
    · exact ensures_error
    · exact (ensures_foldlM (fun t j ht => packOutput_wf t o _ _ _ j ht) _ hm).bind fun t ht => ensures_ok.mpr ht

@[simp] theorem restRow_wf (s : State) (o : Op) (l : PackList) (k : Nat) (w : BitVec 32) (hm : Memory.wf s.mem = true) :
    Ensures (restRow s o l k w) (fun t => Memory.wf t.mem = true) := by
  unfold restRow
  split <;> simp [hm]

@[simp] theorem restRows_wf (s : State) (o : Op) (l : PackList) (ks : List Nat) (n : Nat) (hm : Memory.wf s.mem = true) :
    Memory.wf (restRows s o l ks n).1.mem = true := by
  induction ks generalizing s n with
  | nil => exact hm
  | cons k ks ih =>
    unfold restRows
    dsimp only
    split
    · exact ih s n hm
    · split
      · rename_i h
        exact ih _ _ (by simpa using restRow_wf s o l k _ hm _ h)
      · exact hm

@[simp] theorem runRest_wf (s : State) (o : Op) (hm : Memory.wf s.mem = true) : Memory.wf ((runRest s o).1).mem = true := by
  unfold runRest
  split <;> simp [hm]

@[simp] theorem restTrace_mem (s t : State) (o : Op) : (restTrace s t o).mem = t.mem := by
  refine foldl_mem (fun t p => ?_) _ t
  split <;> simp

theorem cmxEnded_wf {r : Host.Outcome State Fault Refusal} (cl : Nat) (hr : Next r (fun t => Memory.wf t.mem = true)) :
    Next (cmxEnded r cl) (fun t => Memory.wf t.mem = true) := by
  cases r with
  | next s => exact endCmx_wf s cl (next_next.mp hr)
  | fault f => exact next_fault
  | refused f => exact next_refused

@[simp] theorem cmxResult_wf (s : State) (o : Op) (cluster : Nat) (hm : Memory.wf s.mem = true) :
    Next (cmxResult s o cluster) (fun t => Memory.wf t.mem = true) := by
  unfold cmxResult
  split
  · split
    · exact next_next.mpr hm
    · split
      · rename_i h
        exact endCmx_wf _ _ (finishOp_wf _ _ _ (runPack_wf s o hm _ h))
      · exact next_next.mpr hm
      · exact cmxEnded_wf _ (opFault_wf s o _ hm)
  · have rest : Memory.wf (runRest s o).1.mem = true := runRest_wf s o hm
    split
    · exact next_next.mpr hm
    · split
      · rename_i h
        rw [h] at rest
        exact endCmx_wf _ _ (finishOp_wf _ _ _ (by rwa [restTrace_mem]))
      · exact next_next.mpr hm
      · rename_i h
        rw [h] at rest
        exact cmxEnded_wf _ (opFault_wf _ o _ (by rwa [restTrace_mem]))
  · exact endCmx_wf s _ hm

@[simp] theorem execCmxComplete_wf (cluster : Nat) (s : State) (hm : Memory.wf s.mem = true) :
    Next (execCmxComplete cluster s) (fun t => Memory.wf t.mem = true) := by
  unfold execCmxComplete
  dsimp only
  split
  · exact next_next.mpr hm
  · split
    · exact next_next.mpr hm
    · split
      · exact endCmx_wf s _ hm
      · next o _ =>
        have run := runChunks_wf cmxChunk_wf s o (cmxChunks o) hm
        split <;> rename_i h
        · exact next_next.mpr hm
        · rw [h] at run
          exact cmxEnded_wf _ (opFault_wf _ _ _ run)
        · rw [h] at run
          exact cmxResult_wf _ _ _ run

/-! ### Control -/

@[simp] theorem illegalCtl_mem (s : State) : Ensures (illegalCtl s) (fun t => t.mem = s.mem) := by
  simp [illegalCtl]

@[simp] theorem transfer_mem (s : State) (t : Word) (k : TargetKind) : (transfer s t k).mem = s.mem := by
  simp [transfer]

@[simp] theorem slotBr_mem (a : Reg) (cond : BitVec 3) (off : Imm) (s : State) :
    Ensures (slotBr a cond off s) (fun t => t.mem = s.mem) := by
  simp [slotBr]

@[simp] theorem slotJmp_mem (off : Imm) (s : State) : Ensures (slotJmp off s) (fun t => t.mem = s.mem) := by
  simp [slotJmp]

@[simp] theorem slotJr_mem (a : Reg) (disp : Imm) (s : State) : Ensures (slotJr a disp s) (fun t => t.mem = s.mem) := by
  simp [slotJr]

@[simp] theorem slotCall_mem (a : Reg) (off : Imm) (s : State) : Ensures (slotCall a off s) (fun t => t.mem = s.mem) := by
  simp [slotCall]

@[simp] theorem slotCallI_mem (a b : Reg) (disp : Imm) (s : State) :
    Ensures (slotCallI a b disp s) (fun t => t.mem = s.mem) := by
  simp [slotCallI]

@[simp] theorem slotRet_mem (a : Reg) (s : State) : Ensures (slotRet a s) (fun t => t.mem = s.mem) := by
  simp [slotRet]

@[simp] theorem startLoop_mem (s : State) (n : Nat) (count : BitVec 32) (stop : Word) :
    (startLoop s n count stop).mem = s.mem := by
  simp [startLoop]

@[simp] theorem slotLoop_mem (a : Reg) (n : BitVec 2) (cnt : BitVec 12) (off : Imm) (s : State) :
    Ensures (slotLoop a n cnt off s) (fun t => t.mem = s.mem) := by
  simp [slotLoop]

@[simp] theorem slotLoopLv_mem (n : BitVec 2) (off : Imm) (s : State) :
    Ensures (slotLoopLv n off s) (fun t => t.mem = s.mem) := by
  simp [slotLoopLv]

@[simp] theorem slotYld_mem (cycles : BitVec 16) (s : State) : Ensures (slotYld cycles s) (fun t => t.mem = s.mem) := by
  simp [slotYld]

@[simp] theorem slotDone_mem (s : State) : Ensures (slotDone s) (fun t => t.mem = s.mem) := by
  simp [slotDone]

@[simp] theorem slotHalt_mem (code : BitVec 16) (s : State) : Ensures (slotHalt code s) (fun t => t.mem = s.mem) := by
  simp [slotHalt]

@[simp] theorem flagMember_mem (s : State) (lid n : Nat) : (flagMember s lid n).mem = s.mem := by
  unfold flagMember
  (repeat' split) <;> simp

@[simp] theorem flagGroup_mem (s : State) (lid : Nat) (l : Launch) (t : Task) (key : Nat × Nat) (lo hi : Nat) :
    (flagGroup s lid l t key lo hi).mem = s.mem := by
  simp [flagGroup, foldl_mem]

@[simp] theorem countArrival_mem (s : State) (core ctx : Nat) (a : Nat × Nat × Nat) :
    (countArrival s core ctx a).mem = s.mem := by
  unfold countArrival
  split <;> simp

@[simp] theorem releaseAfterDone_mem (s0 s : State) (core ctx : Nat) : (releaseAfterDone s0 s core ctx).mem = s.mem := by
  unfold releaseAfterDone
  split
  · rfl
  · refine foldl_mem (fun s key => ?_) _ s
    split <;> simp

@[simp] theorem settleArrivals_mem (s : State) (core ctx : Nat) : (settleArrivals s core ctx).mem = s.mem := by
  simp [settleArrivals, foldl_mem]

@[simp] theorem finishRte_wf (s : State) (core k : Nat) (hm : Memory.wf s.mem = true) :
    Memory.wf (finishRte s core k).mem = true := by
  simp [finishRte, hm]

@[simp] theorem settleReturn_wf (s : State) (core : Nat) (hm : Memory.wf s.mem = true) :
    Memory.wf (settleReturn s core).mem = true := by
  unfold settleReturn
  (repeat' split) <;> simp [hm]

@[simp] theorem settleWaiting_wf (s : State) (hm : Memory.wf s.mem = true) : Memory.wf (settleWaiting s).mem = true := by
  refine foldl_wf settleReturn_wf _ (foldl_wf (fun s p h => ?_) _ hm)
  rwa [settleArrivals_mem]

theorem performing_wf {r : Host.Outcome State Fault Refusal} (hr : Next r (fun t => Memory.wf t.mem = true)) :
    Next (performing r) (fun t => Memory.wf t.mem = true) := by
  cases r with
  | next s => exact next_next.mpr (settleWaiting_wf s (next_next.mp hr))
  | fault f => exact next_fault
  | refused f => exact next_refused

@[simp] theorem arrive_mem (s : State) (level id : Nat) : Ensures (arrive s level id) (fun t => t.mem = s.mem) := by
  unfold arrive
  split <;> simp

@[simp] theorem awaitBarrier_mem (s : State) (level id : Nat) :
    Ensures (awaitBarrier s level id) (fun t => t.mem = s.mem) := by
  unfold awaitBarrier
  split <;> simp

@[simp] theorem slotBarArr_mem (_scope level : BitVec 3) (id : BitVec 4) (s : State) :
    Ensures (slotBarArr _scope level id s) (fun t => t.mem = s.mem) := by
  simp [slotBarArr]

@[simp] theorem slotBarWt_mem (level : BitVec 3) (id : BitVec 4) (s : State) :
    Ensures (slotBarWt level id s) (fun t => t.mem = s.mem) := by
  simp [slotBarWt]

@[simp] theorem slotBar_mem (scope level : BitVec 3) (id : BitVec 4) (s : State) :
    Ensures (slotBar scope level id s) (fun t => t.mem = s.mem) :=
  (arrive_mem s _ _).bind fun t ht => ht ▸ awaitBarrier_mem t _ _

@[simp] theorem slotFlagSet_mem (mask : Byte) (s : State) : Ensures (slotFlagSet mask s) (fun t => t.mem = s.mem) := by
  simp [slotFlagSet]

@[simp] theorem slotFlagSetCore_mem (a : Reg) (mask : Byte) (s : State) :
    Ensures (slotFlagSetCore a mask s) (fun t => t.mem = s.mem) := by
  simp [slotFlagSetCore]

@[simp] theorem slotFlagSetRmt_wf (a : Reg) (sl : BitVec 4) (mask : Byte) (s : State) (hm : Memory.wf s.mem = true) :
    Ensures (slotFlagSetRmt a sl mask s) (fun t => Memory.wf t.mem = true) := by
  simp [slotFlagSetRmt, hm]

@[simp] theorem slotFlagClr_mem (mask : BitVec 16) (s : State) : Ensures (slotFlagClr mask s) (fun t => t.mem = s.mem) := by
  simp [slotFlagClr]

@[simp] theorem slotCtlRd_mem (a : Reg) (crn : Byte) (s : State) :
    Ensures (slotCtlRd a crn s) (fun t => t.mem = s.mem) := by
  unfold slotCtlRd
  split <;> simp

@[simp] theorem slotCtlWr_mem (a : Reg) (crn : Byte) (s : State) :
    Ensures (slotCtlWr a crn s) (fun t => t.mem = s.mem) := by
  unfold slotCtlWr
  split <;> simp

@[simp] theorem slotPrePt_mem (off : Imm) (s : State) : Ensures (slotPrePt off s) (fun t => t.mem = s.mem) := by
  unfold slotPrePt
  split
  · exact ensures_ok.mpr rfl
  · refine ensures_ok.mpr ?_
    split <;> split <;> simp

@[simp] theorem slotTrap_mem (code : BitVec 16) (s : State) : Ensures (slotTrap code s) (fun t => t.mem = s.mem) := by
  simp [slotTrap]

@[simp] theorem slotRte_mem (a : Reg) (s : State) : Ensures (slotRte a s) (fun t => t.mem = s.mem) := by
  simp [slotRte]

@[simp] theorem slotIfence_mem (s : State) : Ensures (slotIfence s) (fun t => t.mem = s.mem) := by
  simp [slotIfence]

@[simp] theorem settleToll_mem (s : State) (core : Nat) : (settleToll s core).mem = s.mem := by
  simp [settleToll, foldl_mem]

@[simp] theorem cancelToll_mem (s : State) (core ctx : Nat) : (cancelToll s core ctx).mem = s.mem := by
  simp [cancelToll]

@[simp] theorem slotToll_mem (a : Reg) (amount : BitVec 24) (s : State) :
    Ensures (slotToll a amount s) (fun t => t.mem = s.mem) := by
  simp [slotToll]

@[simp] theorem slotTrcMk_mem (payload : BitVec 16) (s : State) :
    Ensures (slotTrcMk payload s) (fun t => t.mem = s.mem) := by
  simp [slotTrcMk]

@[simp] theorem slotNop_mem (s : State) : Ensures (slotNop s) (fun t => t.mem = s.mem) := by
  simp [slotNop]

/-! ### Desc -/

@[simp] theorem slotTdMk_mem (t a b : Reg) (sp : Bool) (h : Hint) (s : State) :
    Ensures (slotTdMk t a b sp h s) (fun t => t.mem = s.mem) := by
  simp [slotTdMk]

@[simp] theorem tdMkChunk_wf (s : State) (o : Op) (k : Nat) (hm : Memory.wf s.mem = true) :
    Ensures (tdMkChunk s o k) (fun t => Memory.wf t.1.mem = true) := by
  unfold tdMkChunk
  refine ensures_engineRead hm fun b t ht => ?_
  dsimp only
  split
  · exact ensures_error
  · exact ensures_engineWrite ht fun u hu => ensures_ok.mpr hu

@[simp] theorem slotTdRel_mem (a : Reg) (off : Imm) (s : State) : Ensures (slotTdRel a off s) (fun t => t.mem = s.mem) := by
  simp [slotTdRel]

/-! ### Fabric -/

@[simp] theorem putCounter_mem (s : State) (core ctr : Nat) (cookie : BitVec 64) (c : Arrival) :
    (putCounter s core ctr cookie c).mem = s.mem := by
  unfold putCounter
  split <;> simp

@[simp] theorem resolveRow_mem (s : State) (atw : Word) (row : Nat) (cookie : BitVec 64) :
    (resolveRow s atw row cookie).1.mem = s.mem := by
  unfold resolveRow
  dsimp only
  split
  · simp
  · split <;> simp

@[simp] theorem sendResolution_wf (s : State) (src : Nat) (atw : Word) (cookie : BitVec 64) (hm : Memory.wf s.mem = true) :
    Memory.wf (sendResolution s src atw cookie).mem = true := by
  simp [sendResolution, hm]

@[simp] theorem resolveTransfer_wf (s : State) (src : Nat) (atw : Word) (i : Nat) (cookie : BitVec 64)
    (hm : Memory.wf s.mem = true) :
    Memory.wf (resolveTransfer s src atw i cookie).mem = true := by
  unfold resolveTransfer
  (repeat' split) <;> simp [hm]

@[simp] theorem startRows_mem (s : State) (o : Op) (dst src atw : Word) (dspm sspm : Bool) (rows : BitVec 7) :
    Ensures (startRows s o dst src atw dspm sspm rows) (fun t => t.mem = s.mem) := by
  simp [startRows]

@[simp] theorem slotPut_mem (t a b c : Reg) (ss : Bool) (rows : BitVec 7) (sl : BitVec 4) (s : State) :
    Ensures (slotPut t a b c ss rows sl s) (fun t => t.mem = s.mem) := by
  simp [slotPut]

@[simp] theorem slotGet_mem (t a b c : Reg) (ds : Bool) (rows : BitVec 7) (sl : BitVec 4) (s : State) :
    Ensures (slotGet t a b c ds rows sl s) (fun t => t.mem = s.mem) := by
  simp [slotGet]

@[simp] theorem rowChunk_wf (s : State) (o : Op) (k : Nat) (hm : Memory.wf s.mem = true) :
    Ensures (rowChunk s o k) (fun t => Memory.wf t.1.mem = true) := by
  unfold rowChunk
  refine ensures_ite_bind fun _ => ensures_engineRead hm fun b t ht => ?_
  dsimp only
  split
  · exact ensures_bind fun _ => ensures_ok.mpr ht
  · exact ensures_partyWrite ht fun u hu => ensures_ok.mpr (resolveTransfer_wf _ _ _ _ _ hu)

@[simp] theorem slotMcast_mem (t a b c : Reg) (len : Imm20) (sl : BitVec 4) (s : State) :
    Ensures (slotMcast t a b c len sl s) (fun t => t.mem = s.mem) := by
  simp [slotMcast]

@[simp] theorem mcastChunk_wf (s : State) (o : Op) (k : Nat) (hm : Memory.wf s.mem = true) :
    Ensures (mcastChunk s o k) (fun t => Memory.wf t.1.mem = true) := by
  unfold mcastChunk
  dsimp only
  (repeat' split) <;> simp [hm]

@[simp] theorem slotAcSet_mem (t a : Reg) (watch : Bool) (ctr : BitVec 4) (s : State) :
    Ensures (slotAcSet t a watch ctr s) (fun t => t.mem = s.mem) := by
  simp [slotAcSet]

@[simp] theorem slotAcAdd_wf (t a : Reg) (sl : BitVec 4) (s : State) (hm : Memory.wf s.mem = true) :
    Ensures (slotAcAdd t a sl s) (fun t => Memory.wf t.mem = true) := by
  unfold slotAcAdd
  refine ensures_bind fun _ => ensures_bind fun _ => (startOp_mem s _).bind fun t ht => ensures_ite (fun _ => ?_) fun _ => ?_
  · exact ensures_ok.mpr (sendNow_wf _ _ _ _ _ _ _ _ _ _ _ _ (ht ▸ hm))
  · exact ensures_ok.mpr (ht ▸ hm)

@[simp] theorem slotAcWait_mem (ctr : BitVec 4) (s : State) : Ensures (slotAcWait ctr s) (fun t => t.mem = s.mem) := by
  simp [slotAcWait]

@[simp] theorem fabricChunk_wf (s : State) (o : Op) (k : Nat) (hm : Memory.wf s.mem = true) :
    Ensures (fabricChunk s o k) (fun t => Memory.wf t.1.mem = true) := by
  unfold fabricChunk
  split <;> simp [hm]

@[simp] theorem execFabricCommandComplete_wf (core ctx seq : Nat) (s : State) (hm : Memory.wf s.mem = true) :
    Next (execFabricCommandComplete core ctx seq s) (fun t => Memory.wf t.mem = true) := by
  unfold execFabricCommandComplete
  split
  · exact next_next.mpr hm
  · split
    · exact completeOp_wf fabricChunk_wf _ (fun s o h => finishOp_wf s o _ h) s _ hm
    · exact next_next.mpr hm

/-! ### Pin -/

@[simp] theorem assignPin_mem (s : State) (n base len : Nat) (mask : BitVec 64) :
    ∀ t, assignPin s n base len mask = some t → t.mem = s.mem := by
  simp [assignPin]

@[simp] theorem slotPin_mem (t a b c : Reg) (w : BitVec 3) (s : State) :
    Ensures (slotPin t a b c w s) (fun t => t.mem = s.mem) := by
  unfold slotPin
  repeat with_reducible refine ensures_bind fun _ => ?_
  split
  · exact (startOp_mem _ _).mono fun t ht => ht.trans (assignPin_mem s _ _ _ _ _ ‹_›)
  · exact startOp_mem s _

@[simp] theorem releasePin_mem (s : State) (core ctx n : Nat) : (releasePin s core ctx n).mem = s.mem := by
  simp [releasePin]

@[simp] theorem releasePins_mem (s : State) (core ctx : Nat) : (releasePins s core ctx).mem = s.mem := by
  simp [releasePins, foldl_mem]

@[simp] theorem slotUnpin_mem (t : Reg) (w : BitVec 3) (s : State) : Ensures (slotUnpin t w s) (fun t => t.mem = s.mem) := by
  refine ensures_bind fun _ => ensures_ite (fun _ => ?_) fun _ => startOp_mem s _
  exact (startOp_mem _ _).mono fun t ht => ht.trans (releasePin_mem _ _ _ _)

/-! ### Presence -/

@[simp] theorem withDie_mem (s : State) (n : Nat) (f : Die → Die) : (withDie s n f).mem = s.mem := by
  simp [withDie]

@[simp] theorem fillRequest_mem (s : State) (o : Op) (die key l slot : Nat) (d : BitVec 512) (descVa : Word) :
    ∀ t, fillRequest s o die key l slot d descVa = some t → t.mem = s.mem := by
  unfold fillRequest
  dsimp only
  split <;> simp

theorem raiseFill_mem (s : State) (o : Op) (key l slot : Nat) (img : BitVec 512) (descVa : Word) (r : State × Op)
    (h : raiseFill s o key l slot img descVa = some r) : r.1.mem = s.mem := by
  unfold raiseFill at h
  obtain ⟨t, ht, rfl⟩ := Option.map_eq_some_iff.mp h
  exact fillRequest_mem s o _ key l slot img descVa t ht

@[simp] theorem claimPair_mem (s : State) (o : Op) (descVa : Word) (img : BitVec 512) (l slot : Nat) :
    Ensures (claimPair s o descVa img l slot) (fun t => t.1.mem = s.mem) := by
  unfold claimPair
  refine ensures_bind fun _ => ensures_bind fun _ => ensures_bind fun _ => ?_
  split
  · exact ensures_ok.mpr rfl
  · exact ensures_error
  · split
    · exact ensures_error
    · exact ensures_ok.mpr (raiseFill_mem _ _ _ _ _ _ _ _ ‹_›)
  · exact ensures_ok.mpr rfl

@[simp] theorem readKvDesc_wf (s : State) (o : Op) (va : Word) (hm : Memory.wf s.mem = true) :
    Ensures (readKvDesc s o va) (fun t => Memory.wf t.2.mem = true) := by
  unfold readKvDesc
  refine ensures_engineRead hm fun b t ht => ?_
  dsimp only
  split
  · exact ensures_error
  · exact ensures_ok.mpr ht

theorem ensures_readKvDesc {α : Type} {P : α → Prop} {s : State} {o : Op} {va : Word}
    {f : BitVec 512 × State → Except OpErr α} (hm : Memory.wf s.mem = true)
    (hf : ∀ d t, Memory.wf t.mem = true → Ensures (f (d, t)) P) : Ensures (readKvDesc s o va >>= f) P :=
  (readKvDesc_wf s o va hm).bind fun x hx => hf x.1 x.2 hx

@[simp] theorem slotKvChk_mem (t a b : Reg) (watch : Bool) (cnt : BitVec 16) (sl : BitVec 4) (s : State) :
    Ensures (slotKvChk t a b watch cnt sl s) (fun t => t.mem = s.mem) := by
  simp [slotKvChk]

@[simp] theorem kvChkChunk_wf (s : State) (o : Op) (k : Nat) (hm : Memory.wf s.mem = true) :
    Ensures (kvChkChunk s o k) (fun t => Memory.wf t.1.mem = true) := by
  unfold kvChkChunk
  refine ensures_ite (fun _ => ensures_bind fun _ => ensures_ite (fun _ => ensures_ok.mpr hm) fun _ => ?_) fun _ => ?_
  · exact ensures_readKvDesc hm fun d t ht => ensures_ite (fun _ => ensures_ok.mpr ht) fun _ => ensures_error
  · exact ensures_ite (fun _ => (claimPair_mem s o _ _ _ _).mono fun _ h => by rwa [h]) fun _ => ensures_error

@[simp] theorem kvChkFinish_wf (s : State) (o : Op) (hm : Memory.wf s.mem = true) :
    Memory.wf (kvChkFinish s o).mem = true := by
  unfold kvChkFinish
  split <;> simp [hm]

@[simp] theorem presenceCopyCheck_wf (s : State) (o : Op) (ss : Bool) (hm : Memory.wf s.mem = true) :
    Ensures (presenceCopyCheck s o ss) (fun t => Memory.wf t.1.mem = true) := by
  simp [presenceCopyCheck, hm]

theorem performClaim_wf (s : State) (o : Op) (k key : Nat) (hm : Memory.wf s.mem = true) (r : State × List Byte)
    (h : performClaim s o k key = some r) : Memory.wf r.1.mem = true := by
  unfold performClaim at h
  dsimp only at h
  split at h
  · cases h
    exact hm
  · split at h
    · cases h
      exact hm
    · split at h
      · rename_i raised
        cases h
        exact changeCode_wf _ _ _ _ (by rwa [updateOp_mem, raiseFill_mem _ _ _ _ _ _ _ _ raised])
      · split at h
        · cases h
          exact changeCode_wf _ _ _ _ hm
        · cases h

@[simp] theorem presencePair_mem (s : State) (o : Op) (j : Nat) :
    Ensures (presencePair s o j) (fun t => t.1.mem = s.mem) := by
  unfold presencePair
  split <;> simp

/-! ### Reduce -/

@[simp] theorem sendPart_wf (o : Op) (g gen : Nat) (e : BitVec 384) (s : State) (c : Contribution)
    (hm : Memory.wf s.mem = true) :
    Memory.wf (sendPart o g gen e s c).mem = true := by
  simp [sendPart, hm]

@[simp] theorem contribute_wf (s : State) (o : Op) (n : Nat) (g : RGroup) (b : List Byte) (hm : Memory.wf s.mem = true) :
    Ensures (contribute s o n g b) (fun t => Memory.wf t.1.mem = true) := by
  unfold contribute
  (repeat' split) <;> simp [hm]

@[simp] theorem execContribCombine_mem (g a b : Nat) (s : State) :
    Next (execContribCombine g a b s) (fun t => t.mem = s.mem) := by
  unfold execContribCombine
  dsimp only
  (repeat' split) <;> simp

@[simp] theorem rootAbsorbs_mem (s : State) (p : NetPacket) : ∀ t, rootAbsorbs s p = some t → t.mem = s.mem := by
  unfold rootAbsorbs
  dsimp only
  split <;> simp

@[simp] theorem sendRelease_wf (n gen : Nat) (e : BitVec 384) (s : State) (g : Nat × Nat) (hm : Memory.wf s.mem = true) :
    Memory.wf (sendRelease n gen e s g).mem = true := by
  simp [sendRelease, hm]

@[simp] theorem execReductionComplete_wf (group : Nat) (s : State) (hm : Memory.wf s.mem = true) :
    Next (execReductionComplete group s) (fun t => Memory.wf t.mem = true) := by
  unfold execReductionComplete
  dsimp only
  split
  · exact next_next.mpr (foldl_wf (fun s g h => sendRelease_wf _ _ _ s g h) _ (homeWrite_wf _ _ (by simpa using hm)))
  · exact next_next.mpr hm

@[simp] theorem releaseAt_wf (s : State) (core : Nat) (aux : BitVec 32) (hm : Memory.wf s.mem = true) :
    Memory.wf (releaseAt s core aux).mem = true := by
  unfold releaseAt
  dsimp only
  split <;> simp [hm]

@[simp] theorem discardReductions_wf (s : State) (cookie : BitVec 64) (hm : Memory.wf s.mem = true) :
    Memory.wf (discardReductions s cookie).mem = true := foldl_wf (fun s o h => endOp_wf s o tokenCancelled none h) _ hm

/-! ### Tag -/

@[simp] theorem cancelFill_wf (s : State) (core slot : Nat) (hm : Memory.wf s.mem = true) :
    Memory.wf (cancelFill s core slot).mem = true := by
  unfold cancelFill
  (repeat' split) <;> simp [hm]

@[simp] theorem traceEviction_mem (s : State) (core ctx slot : Nat) : (traceEviction s core ctx slot).mem = s.mem := by
  unfold traceEviction
  split <;> simp

@[simp] theorem dropSlot_wf (s : State) (core ctx slot : Nat) (hm : Memory.wf s.mem = true) :
    Memory.wf (dropSlot s core ctx slot).mem = true := by
  simp [dropSlot, hm]

@[simp] theorem dropSlots_wf (s : State) (core ctx : Nat) (p : Nat → Bool) (hm : Memory.wf s.mem = true) :
    Memory.wf (dropSlots s core ctx p).mem = true := foldl_wf (fun s i h => dropSlot_wf s core ctx i h) _ hm

@[simp] theorem slotSpmCarve_wf (t : Reg) (n : BitVec 4) (s : State) (hm : Memory.wf s.mem = true) :
    Ensures (slotSpmCarve t n s) (fun t => Memory.wf t.mem = true) := by
  unfold slotSpmCarve
  refine ensures_bind fun _ => ?_
  split
  · exact ensures_error
  · split
    · exact ensures_error
    · refine (startOp_mem s _).bind fun t ht => ensures_ok.mpr ?_
      exact dropSlots_wf t _ _ _ (ht ▸ hm)

@[simp] theorem execCarveComplete_wf (core : Nat) (s : State) (hm : Memory.wf s.mem = true) :
    Next (execCarveComplete core s) (fun t => Memory.wf t.mem = true) := by
  unfold execCarveComplete
  split
  · simp [hm]
  · have filled (a l : Nat) : Memory.wf (spmWrite (freeBytes s Config.unspecifiedByte l).2 core a
        (freeBytes s Config.unspecifiedByte l).1).mem = true := spmWrite_wf _ _ _ _ (by simp [hm])
    dsimp only
    split <;> simp [filled]

@[simp] theorem slotTagLk_mem (d a : Reg) (off : Imm) (s : State) :
    Ensures (slotTagLk d a off s) (fun t => t.mem = s.mem) := by
  simp [slotTagLk]

@[simp] theorem tagBackChunk_wf (s : State) (o : Op) (k : Nat) (hm : Memory.wf s.mem = true) :
    Ensures (tagBackChunk s o k) (fun t => Memory.wf t.1.mem = true) := by
  simp [tagBackChunk, hm]

@[simp] theorem readBacks_wf (s : State) (core slot : Nat) (hm : Memory.wf s.mem = true) :
    Memory.wf (readBacks s core slot).mem = true := by
  refine foldl_wf (fun s o h => wf_ite ?_ h) _ hm
  split
  · exact runChunk_wf tagBackChunk_wf s o 0 h _ ‹_›
  · exact h

@[simp] theorem slotTagFl_wf (t a b : Reg) (h : Hint) (s : State) (hm : Memory.wf s.mem = true) :
    Ensures (slotTagFl t a b h s) (fun t => Memory.wf t.mem = true) := by
  unfold slotTagFl
  refine ensures_bind fun _ => ensures_bind fun _ => ensures_bind fun _ => ensures_bind fun _ => ensures_bind fun _ =>
    ensures_bind fun _ => ensures_startOp fun t ht => ?_
  have back (i : Nat) : Memory.wf (readBacks t s.cur.1 i).mem = true := readBacks_wf _ _ _ (ht ▸ hm)
  refine ensures_ok.mpr ?_
  dsimp only
  rw [withHere_mem]
  exact wf_ite (by simp [back]) (by simp [back])

@[simp] theorem tagFillChunk_wf (s : State) (o : Op) (k : Nat) (hm : Memory.wf s.mem = true) :
    Ensures (tagFillChunk s o k) (fun t => Memory.wf t.1.mem = true) := by
  unfold tagFillChunk
  refine ensures_ite (fun _ => ensures_error) fun _ => ensures_engineRead hm fun b t ht => ensures_bind fun _ => ?_
  exact ensures_ok.mpr (spmWrite_wf _ _ _ _ ht)

@[simp] theorem finishFill_wf (slot : Nat) (e : TagEntry) (s : State) (o : Op) (hm : Memory.wf s.mem = true) :
    Memory.wf (finishFill slot e s o).mem = true := by
  refine finishOp_wf _ _ _ ?_
  rw [withCore_mem, traceEvent_mem]
  exact homeWrite_wf _ _ (noteOrder_wf _ _ _ _ hm)

@[simp] theorem execTagFillDone_wf (core slot : Nat) (s : State) (hm : Memory.wf s.mem = true) :
    Next (execTagFillDone core slot s) (fun t => Memory.wf t.mem = true) := by
  unfold execTagFillDone
  split
  · exact next_next.mpr hm
  · split
    · exact next_next.mpr hm
    · exact completeOp_wf tagFillChunk_wf _ (finishFill_wf slot _) s _ hm

@[simp] theorem evictSlot_wf (s : State) (o : Op) (x : Word) (wb : Bool) (hm : Memory.wf s.mem = true) :
    Ensures (evictSlot s o x wb) (fun t => Memory.wf t.mem = true) :=
  ensures_bind fun _ => (startOp_mem s _).bind fun t ht => ensures_ok.mpr (dropSlot_wf t _ _ _ (by rwa [ht]))

@[simp] theorem slotTagEv_wf (t a : Reg) (sl : BitVec 4) (s : State) (hm : Memory.wf s.mem = true) :
    Ensures (slotTagEv t a sl s) (fun t => Memory.wf t.mem = true) := by
  simp [slotTagEv, hm]

@[simp] theorem slotTagEvWb_wf (t a : Reg) (sl : BitVec 4) (s : State) (hm : Memory.wf s.mem = true) :
    Ensures (slotTagEvWb t a sl s) (fun t => Memory.wf t.mem = true) := by
  simp [slotTagEvWb, hm]

@[simp] theorem slotTagInv_wf (a : Reg) (off : Imm) (s : State) (hm : Memory.wf s.mem = true) :
    Ensures (slotTagInv a off s) (fun t => Memory.wf t.mem = true) := by
  simp [slotTagInv, hm]

/-! ### Copy -/

@[simp] theorem startCopy_mem (s : State) (o : Op) (dst src : Word) (ds ss : Bool) (n : Nat) :
    Ensures (startCopy s o dst src ds ss n) (fun t => t.mem = s.mem) := by
  simp [startCopy]

@[simp] theorem slotCp_mem (t a b c : Reg) (ds ss : Bool) (len : Imm20) (h : Hint) (s : State) :
    Ensures (slotCp t a b c ds ss len h s) (fun t => t.mem = s.mem) := by
  simp [slotCp]

@[simp] theorem slotCpKvchk_mem (t a b c : Reg) (ds ss : Bool) (len : Imm20) (h : Hint) (s : State) :
    Ensures (slotCpKvchk t a b c ds ss len h s) (fun t => t.mem = s.mem) := by
  simp [slotCpKvchk]

@[simp] theorem copiedBytes_mem (s : State) (overlap : Bool) (b : List Byte) :
    ((copiedBytes s overlap b).2).mem = s.mem := by
  unfold copiedBytes
  split <;> simp

@[simp] theorem copyChunk_wf (ds ss kv : Bool) (s : State) (o : Op) (k : Nat) (hm : Memory.wf s.mem = true) :
    Ensures (copyChunk ds ss kv s o k) (fun t => Memory.wf t.1.mem = true) := by
  unfold copyChunk
  refine ensures_ite_bind fun _ => ensures_engineRead hm fun b t ht => ?_
  dsimp only
  split
  · exact contribute_wf _ _ _ _ _ ht
  · exact ensures_partyWrite (by rwa [copiedBytes_mem]) fun u hu => ensures_ok.mpr hu

theorem presencePair_wf (s : State) (o : Op) (j : Nat) (hm : Memory.wf s.mem = true) :
    Ensures (presencePair s o j) (fun t => Memory.wf t.1.mem = true) :=
  (presencePair_mem s o j).mono fun _ h => by rwa [h]

@[simp] theorem copyKvChunk_wf (ds ss : Bool) (s : State) (o : Op) (k : Nat) (hm : Memory.wf s.mem = true) :
    Ensures (copyKvChunk ds ss s o k) (fun t => Memory.wf t.1.mem = true) := by
  unfold copyKvChunk
  refine ensures_ite (fun _ => presenceCopyCheck_wf s o ss hm) fun _ => ensures_ite (fun _ => ensures_error) fun _ =>
    ensures_ite (fun _ => ensures_ite (fun _ => ensures_error) fun _ => presencePair_wf s o _ hm) fun _ =>
      ensures_ite (fun _ => copyChunk_wf ds ss true s o _ hm) fun _ => ensures_error

@[simp] theorem startGather_mem (s : State) (o : Op) (dst src idx : Word) (ds ss : Bool) (rsz : BitVec 6) (cnt : BitVec 14)
    (gather : Bool) :
    Ensures (startGather s o dst src idx ds ss rsz cnt gather) (fun t => t.mem = s.mem) := by
  simp [startGather]

@[simp] theorem slotCpG_mem (t a b c : Reg) (ds ss clamp : Bool) (rsz : BitVec 6) (cnt : BitVec 14) (h : Hint) (s : State) :
    Ensures (slotCpG t a b c ds ss clamp rsz cnt h s) (fun t => t.mem = s.mem) := by
  simp [slotCpG]

@[simp] theorem slotCpS_mem (t a b c : Reg) (ds ss clamp : Bool) (rsz : BitVec 6) (cnt : BitVec 14) (h : Hint) (s : State) :
    Ensures (slotCpS t a b c ds ss clamp rsz cnt h s) (fun t => t.mem = s.mem) := by
  simp [slotCpS]

@[simp] theorem listChunk_wf (s : State) (o : Op) (k : Nat) (u : Nat × Nat) (hm : Memory.wf s.mem = true) :
    Ensures (listChunk s o k u) (fun t => Memory.wf t.1.mem = true) := by
  simp [listChunk, hm]

@[simp] theorem indexChunk_mem (clamp : Bool) (s : State) (o : Op) :
    Ensures (indexChunk clamp s o) (fun t => t.1.mem = s.mem) := by
  unfold indexChunk
  refine ensures_ite_bind fun _ => ?_
  dsimp only
  cases (if clamp = true then none else ((indexList ((listChunks o).flatMap fun k => Tbl.look [] o.parts k)
      (o.nums.headD 0)).zipIdx.find? fun p => decide (p.1 < 0)) : Option (Int × Nat))
  · exact ensures_ok.mpr rfl
  · exact ensures_error

@[simp] theorem fetchPiece_wf (s : State) (o : Op) (k : Nat) (hm : Memory.wf s.mem = true) :
    Ensures (fetchPiece s o k) (fun t => Memory.wf t.1.mem = true) := by
  simp [fetchPiece, hm]

@[simp] theorem gatheredPiece_wf (ss : Bool) (s : State) (o : Op) (k : Nat) (hm : Memory.wf s.mem = true) :
    Ensures (gatheredPiece ss s o k) (fun t => Memory.wf t.2.mem = true) := by
  unfold gatheredPiece
  (repeat' split) <;> simp [hm]

@[simp] theorem gatherChunk_wf (ds ss : Bool) (s : State) (o : Op) (k : Nat) (hm : Memory.wf s.mem = true) :
    Ensures (gatherChunk ds ss s o k) (fun t => Memory.wf t.1.mem = true) := by
  unfold gatherChunk
  refine ensures_ite (fun _ => fetchPiece_wf s o k hm) fun _ => ?_
  refine (gatheredPiece_wf ss s o _ hm).bind fun x hx => ensures_engineWrite hx fun t ht => ensures_ok.mpr ht

@[simp] theorem scatterChunk_wf (ds ss : Bool) (s : State) (o : Op) (k : Nat) (hm : Memory.wf s.mem = true) :
    Ensures (scatterChunk ds ss s o k) (fun t => Memory.wf t.1.mem = true) := by
  unfold scatterChunk
  refine ensures_ite (fun _ => ensures_ok.mpr hm) fun _ => ensures_ite (fun _ => ensures_error) fun _ => ?_
  exact ensures_engineRead hm fun b t ht => ensures_engineWrite ht fun u hu => ensures_ok.mpr hu

theorem indexedChunk_wf (clamp : Bool) {f : State → Op → Nat → Except OpErr (State × Op)} (hf : ChunkKeeps f) :
    ChunkKeeps (indexedChunk clamp f) := by
  intro s o k hm
  unfold indexedChunk
  refine ensures_ite (fun _ => (indexChunk_mem clamp s o).mono fun _ h => by rwa [h]) fun _ => ?_
  split
  · exact listChunk_wf s o k _ hm
  · exact ensures_ite (fun _ => hf s o _ hm) fun _ => ensures_error

@[simp] theorem slotPfT_mem (t a : Reg) (scl : Bool) (sl : BitVec 4) (evp : BitVec 2) (s : State) :
    Ensures (slotPfT t a scl sl evp s) (fun t => t.mem = s.mem) := by
  simp [slotPfT]

@[simp] theorem prefetchDesc_wf (s : State) (o : Op) (hm : Memory.wf s.mem = true) :
    Ensures (prefetchDesc s o) (fun t => Memory.wf t.1.mem = true) := by
  unfold prefetchDesc
  split
  · exact ensures_ok.mpr (engineRead_wf s _ _ _ _ _ hm _ ‹_›)
  · exact ensures_error
  · exact ensures_ok.mpr hm

@[simp] theorem prefetchChunk_wf (s : State) (o : Op) (k : Nat) (hm : Memory.wf s.mem = true) :
    Ensures (prefetchChunk s o k) (fun t => Memory.wf t.1.mem = true) := by
  simp [prefetchChunk, hm]

theorem copyEngineChunk_wf : ChunkKeeps copyEngineChunk := by
  intro s o k hm
  unfold copyEngineChunk
  split
  · exact copyChunk_wf _ _ _ s o k hm
  · exact copyKvChunk_wf _ _ s o k hm
  · exact indexedChunk_wf _ (gatherChunk_wf _ _) s o k hm
  · exact indexedChunk_wf _ (scatterChunk_wf _ _) s o k hm
  · exact tagBackChunk_wf s o k hm
  · exact tagFillChunk_wf s o k hm
  · exact tdMkChunk_wf s o k hm
  · exact prefetchChunk_wf s o k hm
  · exact kvChkChunk_wf s o k hm
  · exact ensures_ok.mpr hm

@[simp] theorem execCopyComplete_wf (core ctx seq : Nat) (s : State) (hm : Memory.wf s.mem = true) :
    Next (execCopyComplete core ctx seq s) (fun t => Memory.wf t.mem = true) := by
  unfold execCopyComplete
  split
  · exact next_next.mpr hm
  · split
    · refine completeOp_wf copyEngineChunk_wf _ (fun s o h => wf_ite h ?_) s _ hm
      split
      · exact kvChkFinish_wf s o h
      · exact finishOp_wf s o _ h
    · exact next_next.mpr hm

/-! ### Scalar -/

@[simp] theorem scalarResult_mem (s : State) (lat : Nat) (d : Reg) (v : Word) :
    Ensures (scalarResult s lat d v) (fun t => t.mem = s.mem) := by
  simp [scalarResult]

@[simp] theorem binary_mem (lat : Nat) (f : Word → Word → Word) (d a b : Reg) (imm : Imm) (s : State) :
    Ensures (binary lat f d a b imm s) (fun t => t.mem = s.mem) := by
  simp [binary]

@[simp] theorem unary_mem (f : Word → Word) (d a : Reg) (s : State) : Ensures (unary f d a s) (fun t => t.mem = s.mem) := by
  simp [unary]

@[simp] theorem slotAdd_mem (d a b : Reg) (imm : Imm) (s : State) :
    Ensures (slotAdd d a b imm s) (fun t => t.mem = s.mem) := by
  simp [slotAdd]

@[simp] theorem slotSub_mem (d a b : Reg) (imm : Imm) (s : State) :
    Ensures (slotSub d a b imm s) (fun t => t.mem = s.mem) := by
  simp [slotSub]

@[simp] theorem slotMul_mem (d a b : Reg) (imm : Imm) (s : State) :
    Ensures (slotMul d a b imm s) (fun t => t.mem = s.mem) := by
  simp [slotMul]

@[simp] theorem slotMulh_mem (d a b : Reg) (imm : Imm) (s : State) :
    Ensures (slotMulh d a b imm s) (fun t => t.mem = s.mem) := by
  simp [slotMulh]

@[simp] theorem slotMulhu_mem (d a b : Reg) (imm : Imm) (s : State) :
    Ensures (slotMulhu d a b imm s) (fun t => t.mem = s.mem) := by
  simp [slotMulhu]

@[simp] theorem slotDiv_mem (d a b : Reg) (imm : Imm) (s : State) :
    Ensures (slotDiv d a b imm s) (fun t => t.mem = s.mem) := by
  simp [slotDiv]

@[simp] theorem slotDivu_mem (d a b : Reg) (imm : Imm) (s : State) :
    Ensures (slotDivu d a b imm s) (fun t => t.mem = s.mem) := by
  simp [slotDivu]

@[simp] theorem slotRem_mem (d a b : Reg) (imm : Imm) (s : State) :
    Ensures (slotRem d a b imm s) (fun t => t.mem = s.mem) := by
  simp [slotRem]

@[simp] theorem slotRemu_mem (d a b : Reg) (imm : Imm) (s : State) :
    Ensures (slotRemu d a b imm s) (fun t => t.mem = s.mem) := by
  simp [slotRemu]

@[simp] theorem slotAnd_mem (d a b : Reg) (imm : Imm) (s : State) :
    Ensures (slotAnd d a b imm s) (fun t => t.mem = s.mem) := by
  simp [slotAnd]

@[simp] theorem slotOr_mem (d a b : Reg) (imm : Imm) (s : State) :
    Ensures (slotOr d a b imm s) (fun t => t.mem = s.mem) := by
  simp [slotOr]

@[simp] theorem slotXor_mem (d a b : Reg) (imm : Imm) (s : State) :
    Ensures (slotXor d a b imm s) (fun t => t.mem = s.mem) := by
  simp [slotXor]

@[simp] theorem slotAndn_mem (d a b : Reg) (imm : Imm) (s : State) :
    Ensures (slotAndn d a b imm s) (fun t => t.mem = s.mem) := by
  simp [slotAndn]

@[simp] theorem slotShl_mem (d a b : Reg) (imm : Imm) (s : State) :
    Ensures (slotShl d a b imm s) (fun t => t.mem = s.mem) := by
  simp [slotShl]

@[simp] theorem slotShr_mem (d a b : Reg) (imm : Imm) (s : State) :
    Ensures (slotShr d a b imm s) (fun t => t.mem = s.mem) := by
  simp [slotShr]

@[simp] theorem slotSra_mem (d a b : Reg) (imm : Imm) (s : State) :
    Ensures (slotSra d a b imm s) (fun t => t.mem = s.mem) := by
  simp [slotSra]

@[simp] theorem slotRotl_mem (d a b : Reg) (imm : Imm) (s : State) :
    Ensures (slotRotl d a b imm s) (fun t => t.mem = s.mem) := by
  simp [slotRotl]

@[simp] theorem slotMin_mem (d a b : Reg) (imm : Imm) (s : State) :
    Ensures (slotMin d a b imm s) (fun t => t.mem = s.mem) := by
  simp [slotMin]

@[simp] theorem slotMax_mem (d a b : Reg) (imm : Imm) (s : State) :
    Ensures (slotMax d a b imm s) (fun t => t.mem = s.mem) := by
  simp [slotMax]

@[simp] theorem slotMinu_mem (d a b : Reg) (imm : Imm) (s : State) :
    Ensures (slotMinu d a b imm s) (fun t => t.mem = s.mem) := by
  simp [slotMinu]

@[simp] theorem slotMaxu_mem (d a b : Reg) (imm : Imm) (s : State) :
    Ensures (slotMaxu d a b imm s) (fun t => t.mem = s.mem) := by
  simp [slotMaxu]

@[simp] theorem slotCmp_mem (d a b : Reg) (cond : BitVec 6) (imm : Imm) (s : State) :
    Ensures (slotCmp d a b cond imm s) (fun t => t.mem = s.mem) := by
  simp [slotCmp]

@[simp] theorem slotSel_mem (d a b c : Reg) (imm : Imm) (s : State) :
    Ensures (slotSel d a b c imm s) (fun t => t.mem = s.mem) := by
  simp [slotSel]

@[simp] theorem slotClz_mem (d a : Reg) (s : State) : Ensures (slotClz d a s) (fun t => t.mem = s.mem) := by
  simp [slotClz]

@[simp] theorem slotCtz_mem (d a : Reg) (s : State) : Ensures (slotCtz d a s) (fun t => t.mem = s.mem) := by
  simp [slotCtz]

@[simp] theorem slotPopc_mem (d a : Reg) (s : State) : Ensures (slotPopc d a s) (fun t => t.mem = s.mem) := by
  simp [slotPopc]

@[simp] theorem slotExt_mem (d a : Reg) (sgn : Bool) (width : BitVec 7) (lsb : BitVec 6) (s : State) :
    Ensures (slotExt d a sgn width lsb s) (fun t => t.mem = s.mem) := by
  simp [slotExt]

@[simp] theorem slotIns_mem (d a c : Reg) (width : BitVec 7) (lsb : BitVec 6) (s : State) :
    Ensures (slotIns d a c width lsb s) (fun t => t.mem = s.mem) := by
  simp [slotIns]

@[simp] theorem slotLi_mem (d : Reg) (imm : Imm) (s : State) : Ensures (slotLi d imm s) (fun t => t.mem = s.mem) := by
  simp [slotLi]

@[simp] theorem slotLih_mem (d a : Reg) (imm : Imm) (s : State) : Ensures (slotLih d a imm s) (fun t => t.mem = s.mem) := by
  simp [slotLih]

@[simp] theorem slotAddi_mem (d a : Reg) (imm : Imm) (s : State) :
    Ensures (slotAddi d a imm s) (fun t => t.mem = s.mem) := by
  simp [slotAddi]

@[simp] theorem slotMov_mem (d a : Reg) (s : State) : Ensures (slotMov d a s) (fun t => t.mem = s.mem) := by
  simp [slotMov]

@[simp] theorem slotLea_mem (d a b : Reg) (sh : BitVec 3) (imm : Imm) (s : State) :
    Ensures (slotLea d a b sh imm s) (fun t => t.mem = s.mem) := by
  simp [slotLea]

/-! ### Float -/

@[simp] theorem floatResult_mem (s : State) (lat : Nat) (d : Reg) (r : Rnd) (v : Val) :
    Ensures (floatResult s lat d r v) (fun t => t.mem = s.mem) :=
  (scalarResult_mem _ lat d _).mono fun _ ht => ht.trans (drawSeeds_mem _ _ _)

@[simp] theorem floatBinary_mem (f : Val → Val → Val) (d a b : Reg) (r : Rnd) (s : State) :
    Ensures (floatBinary f d a b r s) (fun t => t.mem = s.mem) := by
  simp [floatBinary]

@[simp] theorem floatPick_mem (f : Val → Val → Val) (d a b : Reg) (s : State) :
    Ensures (floatPick f d a b s) (fun t => t.mem = s.mem) := by
  simp [floatPick]

@[simp] theorem slotFadd_mem (d a b : Reg) (r : Rnd) (s : State) :
    Ensures (slotFadd d a b r s) (fun t => t.mem = s.mem) := by
  simp [slotFadd]

@[simp] theorem slotFsub_mem (d a b : Reg) (r : Rnd) (s : State) :
    Ensures (slotFsub d a b r s) (fun t => t.mem = s.mem) := by
  simp [slotFsub]

@[simp] theorem slotFmul_mem (d a b : Reg) (r : Rnd) (s : State) :
    Ensures (slotFmul d a b r s) (fun t => t.mem = s.mem) := by
  simp [slotFmul]

@[simp] theorem slotFma_mem (d a b c : Reg) (r : Rnd) (s : State) :
    Ensures (slotFma d a b c r s) (fun t => t.mem = s.mem) := by
  simp [slotFma]

@[simp] theorem slotFmin_mem (d a b : Reg) (s : State) : Ensures (slotFmin d a b s) (fun t => t.mem = s.mem) := by
  simp [slotFmin]

@[simp] theorem slotFmax_mem (d a b : Reg) (s : State) : Ensures (slotFmax d a b s) (fun t => t.mem = s.mem) := by
  simp [slotFmax]

@[simp] theorem slotFcmp_mem (d a b : Reg) (cnd : BitVec 4) (s : State) :
    Ensures (slotFcmp d a b cnd s) (fun t => t.mem = s.mem) := by
  simp [slotFcmp]

@[simp] theorem slotFcvt_mem (d a : Reg) (ft fs : BitVec 4) (r : Rnd) (s : State) :
    Ensures (slotFcvt d a ft fs r s) (fun t => t.mem = s.mem) :=
  ensures_bind fun _ => (scalarResult_mem _ 4 d _).mono fun _ ht => ht.trans (drawSeeds_mem _ _ _)

/-! ### Arbitrate -/

@[simp] theorem setGrants_mem (s : State) (n : NetPoint) (out k : Nat) : (setGrants s n out k).mem = s.mem := by
  simp [setGrants]

@[simp] theorem countGrant_mem (s : State) (n : NetPoint) (out : Nat) (c : Contender) :
    (countGrant s n out c).mem = s.mem := by
  simp [countGrant]

@[simp] theorem movePacket_mem (s : State) (p : NetPacket) (place : NetPoint) (input : Nat) :
    (movePacket s p place input).mem = s.mem := by
  simp [movePacket]

@[simp] theorem passTick_mem (s : State) : (passTick s).mem = s.mem := by
  simp [passTick]

@[simp] theorem respond_mem (s : State) (p : NetPacket) (data : List Byte) (cause : Byte) :
    (respond s p data cause).mem = s.mem := by
  simp [respond]

/-! ### Exit -/

@[simp] theorem slotKvSv_mem (t a b c : Reg) (h : Hint) (s : State) :
    Ensures (slotKvSv t a b c h s) (fun t => t.mem = s.mem) := by
  simp [slotKvSv]

@[simp] theorem exitWrite_wf (s : State) (o : Op) (va : Nat) (b : List Byte) (hm : Memory.wf s.mem = true) :
    Ensures (exitWrite s o va b) (fun t => Memory.wf t.mem = true) := by
  unfold exitWrite
  (repeat' split) <;> simp [hm]

@[simp] theorem saveRow_wf (s : State) (o : Op) (x r : Nat) (w : BitVec 32) (hm : Memory.wf s.mem = true) :
    Ensures (saveRow s o x r w) (fun t => Memory.wf t.mem = true) := by
  unfold saveRow
  refine ensures_engineRead hm fun b t ht => ensures_ite_bind fun _ => ?_
  exact (exitWrite_wf t o _ _ ht).bind fun u hu => ensures_bind fun _ => ensures_ok.mpr hu

@[simp] theorem kvSvChunk_wf (s : State) (o : Op) (k : Nat) (hm : Memory.wf s.mem = true) :
    Ensures (kvSvChunk s o k) (fun t => Memory.wf t.1.mem = true) := by
  simp [kvSvChunk, hm]

@[simp] theorem execExitSaveComplete_wf (core ctx seq : Nat) (s : State) (hm : Memory.wf s.mem = true) :
    Next (execExitSaveComplete core ctx seq s) (fun t => Memory.wf t.mem = true) := by
  unfold execExitSaveComplete
  split
  · exact next_next.mpr hm
  · split
    · exact completeOp_wf kvSvChunk_wf _ (fun s o h => finishOp_wf s o _ h) s _ hm
    · exact next_next.mpr hm

@[simp] theorem sendNotice_wf (t : Tile) (atw : Word) (slk : BitVec 10) (key : Nat × Nat × Nat) (s : State) (r : Nat)
    (hm : Memory.wf s.mem = true) :
    Memory.wf (sendNotice t atw slk key s r).mem = true := by
  simp [sendNotice, hm]

@[simp] theorem slotNtfX_wf (t a : Reg) (b : BitVec 3) (c : Reg) (set : Byte) (sl : BitVec 4) (s : State)
    (hm : Memory.wf s.mem = true) : Ensures (slotNtfX t a b c set sl s) (fun t => Memory.wf t.mem = true) := by
  unfold slotNtfX
  refine ensures_bind fun _ => ensures_bind fun _ => ensures_bind fun _ => ensures_bind fun _ => ensures_bind fun _ =>
    ensures_bind fun _ => ensures_bind fun _ => ensures_startOp fun _ ht => ?_
  exact ensures_ok.mpr (foldl_wf (fun s r hs => sendNotice_wf _ _ _ _ s r hs) _ (ht ▸ hm))

/-! ### Stream -/

@[simp] theorem slotQBind_mem (t a b : Reg) (c : BitVec 3) (dir win : Bool) (len : BitVec 13) (h : Hint) (s : State) :
    Ensures (slotQBind t a b c dir win len h s) (fun t => t.mem = s.mem) := by
  simp [slotQBind]

@[simp] theorem qBindChunk_wf (s : State) (o : Op) (k : Nat) (hm : Memory.wf s.mem = true) :
    Ensures (qBindChunk s o k) (fun t => Memory.wf t.1.mem = true) := by
  unfold qBindChunk
  refine ensures_engineRead hm fun b t ht => ?_
  dsimp only
  split
  · exact ensures_ite (fun _ => ensures_error) fun _ => ensures_ok.mpr ht
  · exact ensures_ok.mpr ht

@[simp] theorem execStreamBindComplete_wf (core ctx seq : Nat) (s : State) (hm : Memory.wf s.mem = true) :
    Next (execStreamBindComplete core ctx seq s) (fun t => Memory.wf t.mem = true) := by
  unfold execStreamBindComplete
  split
  · exact next_next.mpr hm
  · split
    · exact completeOp_wf qBindChunk_wf _ (fun s o h => finishOp_wf s o _ h) s _ hm
    · exact next_next.mpr hm

@[simp] theorem discardSkipped_mem (s : State) (core ctx : Nat) (st : Stream) :
    (discardSkipped s core ctx st).mem = s.mem := by
  simp [discardSkipped]

@[simp] theorem fetchRow_wf (s : State) (core ctx : Nat) (st : Stream) (hm : Memory.wf s.mem = true) :
    Ensures (fetchRow s core ctx st) (fun t => Memory.wf t.1.mem = true) := by
  unfold fetchRow
  refine ensures_ite (fun _ => ensures_error) fun _ => ensures_ite (fun _ => ensures_error) fun _ => ?_
  exact ensures_engineRead hm fun b t ht => ensures_partyWrite ht fun u hu => ensures_ok.mpr hu

@[simp] theorem writeRow_wf (s : State) (core ctx : Nat) (st : Stream) (hm : Memory.wf s.mem = true) :
    Ensures (writeRow s core ctx st) (fun t => Memory.wf t.1.mem = true) := by
  unfold writeRow
  refine ensures_ite (fun _ => ensures_error) fun _ => ?_
  exact ensures_engineRead hm fun b t ht => ensures_partyWrite ht fun u hu => ensures_ok.mpr hu

@[simp] theorem putStream_mem (s : State) (core ctx q : Nat) (st : Stream) : (putStream s core ctx q st).mem = s.mem := by
  simp [putStream]

@[simp] theorem execStreamRowFetch_wf (core ctx q : Nat) (s : State) (hm : Memory.wf s.mem = true) :
    Next (execStreamRowFetch core ctx q s) (fun t => Memory.wf t.mem = true) := by
  unfold execStreamRowFetch
  split
  · exact next_next.mpr hm
  · next st _ =>
    have discarded : Memory.wf (discardSkipped s core ctx st).mem = true := by simpa using hm
    dsimp only
    split
    · rename_i h
      exact next_next.mpr (by simpa using fetchRow_wf _ _ _ _ discarded _ h)
    · exact next_next.mpr (sendAccess_wf _ _ discarded)
    · exact next_fault
    · exact next_next.mpr discarded

@[simp] theorem settleDrain_wf (s : State) (core ctx q : Nat) (hm : Memory.wf s.mem = true) :
    Memory.wf (settleDrain s core ctx q).mem = true := by
  unfold settleDrain
  dsimp only
  (repeat' split) <;> simp [hm]

@[simp] theorem execStreamRowWrite_wf (core ctx q : Nat) (s : State) (hm : Memory.wf s.mem = true) :
    Next (execStreamRowWrite core ctx q s) (fun t => Memory.wf t.mem = true) := by
  unfold execStreamRowWrite
  split
  · exact next_next.mpr hm
  · split
    · rename_i h
      exact next_next.mpr (settleDrain_wf _ _ _ _ (by simpa using writeRow_wf _ _ _ _ hm _ h))
    · exact next_next.mpr (sendAccess_wf _ _ hm)
    · exact next_fault
    · exact next_next.mpr (settleDrain_wf _ _ _ _ hm)

@[simp] theorem slotQAdv_mem (q : BitVec 3) (a : Reg) (off : Imm) (s : State) :
    Ensures (slotQAdv q a off s) (fun t => t.mem = s.mem) := by
  refine ensures_bind fun x => ?_
  split
  · exact ensures_error
  · exact ensures_bind fun _ => ensures_ok.mpr (result_mem s _ _)

@[simp] theorem slotQAdvRp_mem (q : BitVec 3) (a : Reg) (off : Imm) (s : State) :
    Ensures (slotQAdvRp q a off s) (fun t => t.mem = s.mem) := by
  refine ensures_bind fun x => ?_
  split
  · exact ensures_error
  · exact ensures_bind fun _ => ensures_ok.mpr (result_mem s _ _)

@[simp] theorem slotQWait_mem (q : BitVec 3) (a : Reg) (off : Imm) (s : State) :
    Ensures (slotQWait q a off s) (fun t => t.mem = s.mem) := by
  refine ensures_bind fun x => ?_
  split
  · exact ensures_error
  · exact ensures_bind fun _ => ensures_ok.mpr rfl

@[simp] theorem cancelFetches_mem (s : State) (core ctx : Nat) (st : Option Stream) :
    (cancelFetches s core ctx st).mem = s.mem := by
  unfold cancelFetches
  split <;> simp

@[simp] theorem slotQDrain_mem (t : Reg) (c : BitVec 3) (s : State) : Ensures (slotQDrain t c s)
    (fun t => t.mem = s.mem) := by
  refine ensures_bind fun _ => (startOp_mem _ _).bind fun t ht => ensures_ok.mpr ?_
  rw [result_mem, putStream_mem, ht, cancelFetches_mem]

/-! ### Matrix -/

@[simp] theorem startMtx_mem (s : State) (o : Op) (d cost : Nat) :
    Ensures (startMtx s o d cost) (fun t => t.mem = s.mem) := by
  simp [startMtx]

@[simp] theorem consume_mem (s : State) (q n : Nat) : (consume s q n).mem = s.mem := by
  simp [consume]

theorem ensures_startMtx {α : Type} {P : α → Prop} {s : State} {o : Op} {d cost : Nat} {f : State → Except Stop α}
    (hf : ∀ t, t.mem = s.mem → Ensures (f t) P) : Ensures (startMtx s o d cost >>= f) P := (startMtx_mem s o d cost).bind hf

@[simp] theorem startMm_mem (s : State) (i : Instr) (t : Reg) (f : MmForm) :
    Ensures (startMm s i t f) (fun t => t.mem = s.mem) := by
  unfold startMm
  refine ensures_bind fun _ => ensures_ite_bind fun _ => ensures_bind fun _ => ensures_bind fun _ =>
    ensures_bind fun _ => ensures_bind fun _ => ensures_bind fun ⟨cls, h, torn⟩ => ?_
  repeat with_reducible refine ensures_bind fun _ => ?_
  cases h
  all_goals
    refine ensures_bind fun _ => ensures_bind fun _ => ensures_bind fun _ => ensures_bind fun _ => 
      ensures_startMtx fun _ ht => ?_
    refine ensures_ok.mpr ?_
    split <;> split <;> simp [ht]

@[simp] theorem slotMmIp_mem (cd xa xb t : Reg) (bs ag : Bool) (bf : BitVec 4) (kh scb noswap : Bool) (off : BitVec 16)
    (s : State) :
    Ensures (slotMmIp cd xa xb t bs ag bf kh scb noswap off s) (fun t => t.mem = s.mem) := by
  simp [slotMmIp]

@[simp] theorem slotMmOp_mem (cd xa xb t : Reg) (bs ag : Bool) (bf : BitVec 4) (kh scb noswap : Bool) (off : BitVec 16)
    (s : State) :
    Ensures (slotMmOp cd xa xb t bs ag bf kh scb noswap off s) (fun t => t.mem = s.mem) := by
  simp [slotMmOp]

@[simp] theorem slotMmRw_mem (xa xb t : Reg) (bs ag : Bool) (bf : BitVec 4) (kh scb noswap : Bool) (off : BitVec 16)
    (s : State) :
    Ensures (slotMmRw xa xb t bs ag bf kh scb noswap off s) (fun t => t.mem = s.mem) := by
  simp [slotMmRw]

@[simp] theorem slotMmZIp_mem (cd xa xb t : Reg) (bs ag : Bool) (bf : BitVec 4) (kh scb noswap : Bool) (off : BitVec 16)
    (s : State) :
    Ensures (slotMmZIp cd xa xb t bs ag bf kh scb noswap off s) (fun t => t.mem = s.mem) := by
  simp [slotMmZIp]

@[simp] theorem slotMmZRw_mem (xa xb t : Reg) (bs ag : Bool) (bf : BitVec 4) (kh scb noswap : Bool) (off : BitVec 16)
    (s : State) :
    Ensures (slotMmZRw xa xb t bs ag bf kh scb noswap off s) (fun t => t.mem = s.mem) := by
  simp [slotMmZRw]

@[simp] theorem slotMmMerge_mem (cd xb t : Reg) (np : BitVec 4) (zc : Bool) (off : BitVec 16) (s : State) :
    Ensures (slotMmMerge cd xb t np zc off s) (fun t => t.mem = s.mem) := by
  unfold slotMmMerge
  repeat with_reducible refine ensures_bind fun _ => ?_
  split
  all_goals
    refine ensures_bind fun ptag => ?_
    cases ptag
    all_goals
      refine ensures_bind fun _ => ensures_bind fun _ => ?_
      exact startMtx_mem s _ _ _

@[simp] theorem slotMmOut_mem (q : BitVec 3) (t : Reg) (s : State) : Ensures (slotMmOut q t s) (fun t => t.mem = s.mem) := by
  unfold slotMmOut
  repeat with_reducible refine ensures_bind fun _ => ?_
  split
  · exact ensures_error
  · exact ensures_ite_bind fun _ => startMtx_mem s _ _ _

@[simp] theorem slotBmpMk_mem (xa xb t : Reg) (kh bmode : Bool) (off : BitVec 16) (s : State) :
    Ensures (slotBmpMk xa xb t kh bmode off s) (fun t => t.mem = s.mem) := by
  simp [slotBmpMk]

@[simp] theorem slotBmpCnt_mem (xb t : Reg) (wide : Bool) (off : BitVec 16) (s : State) :
    Ensures (slotBmpCnt xb t wide off s) (fun t => t.mem = s.mem) := by
  simp [slotBmpCnt]

@[simp] theorem slotSpzPack_mem (cd xa t : Reg) (kh : Bool) (s : State) :
    Ensures (slotSpzPack cd xa t kh s) (fun t => t.mem = s.mem) := by
  simp [slotSpzPack]

@[simp] theorem slotSpzPackB_mem (xa xb t : Reg) (kh : Bool) (off : BitVec 16) (s : State) :
    Ensures (slotSpzPackB xa xb t kh off s) (fun t => t.mem = s.mem) := by
  simp [slotSpzPackB]

@[simp] theorem slotSpzUnpk_mem (cd xa t : Reg) (kh : Bool) (s : State) :
    Ensures (slotSpzUnpk cd xa t kh s) (fun t => t.mem = s.mem) := by
  simp [slotSpzUnpk]

@[simp] theorem mtxChunk_wf (s : State) (o : Op) (k : Nat) (hm : Memory.wf s.mem = true) :
    Ensures (mtxChunk s o k) (fun t => Memory.wf t.1.mem = true) := by
  simp [mtxChunk, hm]

@[simp] theorem writePieces_wf (s : State) (o : Op) (base : Nat) (l : List (Nat × List Byte)) (hm : Memory.wf s.mem = true) :
    Ensures (writePieces s o base l) (fun t => Memory.wf t.mem = true) := by
  induction l generalizing s with
  | nil => exact ensures_ok.mpr hm
  | cons p l ih => exact ensures_engineWrite hm fun t ht => ih t ht

@[simp] theorem runMm_wf (s : State) (o : Op) (f : MmForm) (hm : Memory.wf s.mem = true) :
    Ensures (runMm s o f) (fun t => Memory.wf t.1.mem = true) := by
  simp [runMm, hm]

@[simp] theorem runMerge_wf (s : State) (o : Op) (np : Nat) (zc : Bool) (hm : Memory.wf s.mem = true) :
    Ensures (runMerge s o np zc) (fun t => Memory.wf t.1.mem = true) := by
  have written (ws : List Write) : Memory.wf (commitNow s o.core o.ctx ws).mem = true := commitNow_wf _ _ _ _ hm
  unfold runMerge
  dsimp only
  split
  · exact ensures_error
  · exact ensures_bind fun _ => ensures_ok.mpr (written _)

@[simp] theorem runOut_wf (s : State) (o : Op) (hm : Memory.wf s.mem = true) :
    Ensures (runOut s o) (fun t => Memory.wf t.1.mem = true) := by
  unfold runOut
  dsimp only
  split
  · exact ensures_ok.mpr hm
  · refine (writePieces_wf s o _ _ hm).bind fun t ht => ensures_ok.mpr ?_
    exact wf_ite (by simpa using ht) (by simpa using ht)

@[simp] theorem runBitmap_wf (s : State) (o : Op) (kh bmode : Bool) (hm : Memory.wf s.mem = true) :
    Ensures (runBitmap s o kh bmode) (fun t => Memory.wf t.1.mem = true) := by
  simp [runBitmap, hm]

@[simp] theorem runCount_mem (s : State) (o : Op) (wide : Bool) : ((runCount s o wide).1).mem = s.mem := by
  simp [runCount]

@[simp] theorem runPackTile_wf (s : State) (o : Op) (kh : Bool) (hm : Memory.wf s.mem = true) :
    Memory.wf ((runPackTile s o kh).1).mem = true := by
  simp [runPackTile, hm]

@[simp] theorem fillUnstated_mem (s : State) (l : List (Option Byte)) : ((fillUnstated s l).2).mem = s.mem := by
  simp [fillUnstated]

@[simp] theorem runPackImage_wf (s : State) (o : Op) (kh : Bool) (hm : Memory.wf s.mem = true) :
    Ensures (runPackImage s o kh) (fun t => Memory.wf t.1.mem = true) := by
  simp [runPackImage, hm]

@[simp] theorem runUnpack_wf (s : State) (o : Op) (kh : Bool) (hm : Memory.wf s.mem = true) :
    Memory.wf ((runUnpack s o kh).1).mem = true := by
  simp [runUnpack, hm]

@[simp] theorem runMtx_wf (s : State) (o : Op) (hm : Memory.wf s.mem = true) :
    Ensures (runMtx s o) (fun t => Memory.wf t.1.mem = true) := by
  unfold runMtx
  split
  · exact runMerge_wf s o _ _ hm
  · exact runOut_wf s o hm
  · exact runBitmap_wf s o _ _ hm
  · exact ensures_ok.mpr (by simpa using hm)
  · exact ensures_ok.mpr (runPackTile_wf s o _ hm)
  · exact runPackImage_wf s o _ hm
  · exact ensures_ok.mpr (runUnpack_wf s o _ hm)
  · split
    · exact runMm_wf s o _ hm
    · exact ensures_ok.mpr hm

@[simp] theorem scrambleSpans_wf (s : State) (core : Nat) (l : List (Nat × Nat)) (hm : Memory.wf s.mem = true) :
    Memory.wf (scrambleSpans s core l).mem = true := by
  induction l generalizing s with
  | nil => exact hm
  | cons p l ih => exact ih _ (spmWrite_wf _ _ _ _ (by simpa using hm))

@[simp] theorem mtxFault_wf (s : State) (o : Op) (e : OpErr) (hm : Memory.wf s.mem = true) :
    Next (mtxFault s o e) (fun t => Memory.wf t.mem = true) := by
  unfold mtxFault
  split <;> simp [hm]

@[simp] theorem execMtxComplete_wf (core : Nat) (s : State) (hm : Memory.wf s.mem = true) :
    Next (execMtxComplete core s) (fun t => Memory.wf t.mem = true) := by
  unfold execMtxComplete
  split
  · exact next_next.mpr hm
  · next o _ =>
    have run := runChunks_wf mtxChunk_wf s o (mtxChunks o) hm
    split
    · exact next_next.mpr hm
    · split
      · rename_i h
        rw [h] at run
        split
        · exact next_next.mpr hm
        · exact mtxFault_wf _ _ _ run
      · rename_i t o' h
        rw [h] at run
        have result : Ensures (do carveFault ((o'.nums[4]?).getD 0); runMtx t o') (fun t => Memory.wf t.1.mem = true) :=
          ensures_bind fun _ => runMtx_wf t o' run
        split
        · exact next_next.mpr (finishOp_wf _ _ _ (result _ ‹_›))
        · exact next_next.mpr hm
        · exact mtxFault_wf _ _ _ run

/-! ### Port -/

@[simp] theorem mtxUnit_wf (s : State) (o : Op) (k : Nat) (hm : Memory.wf s.mem = true) :
    Ensures (mtxUnit s o k) (fun t => Memory.wf t.1.mem = true) := by
  unfold mtxUnit
  split
  · exact ensures_ok.mpr (mtxChunk_wf s o k hm _ ‹_›)
  · exact ensures_error

theorem opChunk_wf : ChunkKeeps opChunk := by
  intro s o k hm
  unfold opChunk
  split
  · exact fabricChunk_wf s o k hm
  · exact fabricChunk_wf s o k hm
  · exact fabricChunk_wf s o k hm
  · exact qBindChunk_wf s o k hm
  · exact kvSvChunk_wf s o k hm
  · exact cmxChunk_wf s o k hm
  · exact cmxChunk_wf s o k hm
  · exact ensures_ite (fun _ => mtxUnit_wf s o k hm) fun _ => copyEngineChunk_wf s o k hm

@[simp] theorem updateReq_mem (s : State) (r : Req) : (updateReq s r).mem = s.mem := by
  simp [updateReq]

@[simp] theorem removeReq_mem (s : State) (id : Nat) : (removeReq s id).mem = s.mem := by
  simp [removeReq]

@[simp] theorem addUnc_mem (s : State) (core ctx pa : Nat) : (addUnc s core ctx pa).mem = s.mem := by
  simp [addUnc]

@[simp] theorem dropOpReqs_mem (s : State) (r : Req) : (dropOpReqs s r).mem = s.mem := by
  simp [dropOpReqs]

@[simp] theorem streamStop_mem (core ctx : Nat) (st : Stream) (cause : Nat) (addr detail : Word) (index : BitVec 32)
    (s : State) :
    (streamStop core ctx st cause addr detail index s).mem = s.mem := by
  simp [streamStop]

@[simp] theorem endStream_mem (s : State) (core ctx q : Nat) (st : Stream) (cause : Nat) (addr detail : Word)
    (index : BitVec 32) :
    (endStream s core ctx q st cause addr detail index).mem = s.mem := by
  simp [endStream]

@[simp] theorem failCommand_wf (s : State) (o : Op) (cause : Nat) (addr : Word) (hm : Memory.wf s.mem = true) :
    Memory.wf (failCommand s o cause addr).mem = true := by
  unfold failCommand
  (repeat' split) <;> simp [hm]

@[simp] theorem failEngine_wf (s : State) (r : Req) (seq cause : Nat) (addr : Word) (hm : Memory.wf s.mem = true) :
    Memory.wf (failEngine s r seq cause addr).mem = true := by
  unfold failEngine
  dsimp only
  (repeat' split) <;> simp [hm]

@[simp] theorem failDirect_wf (s : State) (r : Req) (cause : Nat) (addr : Word) (hm : Memory.wf s.mem = true) :
    Memory.wf (failDirect s r cause addr).mem = true := by
  unfold failDirect
  split <;> simp [hm]

@[simp] theorem failReq_wf (s : State) (r : Req) (cause : Nat) (hm : Memory.wf s.mem = true) :
    Memory.wf (failReq s r cause).mem = true := by
  unfold failReq
  split <;> simp [hm]

@[simp] theorem endAccess_wf (s : State) (r : Req) (hm : Memory.wf s.mem = true) :
    Memory.wf (endAccess s r).mem = true := by
  unfold endAccess
  (repeat' split) <;> simp [hm]

@[simp] theorem reachHome_wf (s : State) (r : Req) (wr : Bool) (hm : Memory.wf s.mem = true) :
    Memory.wf (reachHome s r wr).mem = true := by
  simp [reachHome, hm]

@[simp] theorem holdResult_mem (s : State) (pa source tag : Nat) (v : Word) :
    (holdResult s pa source tag v).mem = s.mem := by
  unfold holdResult
  split <;> simp

@[simp] theorem applyAtomic_wf (s : State) (w : AtomicWork) (pas : List Nat) (hm : Memory.wf s.mem = true) :
    Memory.wf ((applyAtomic s w pas).2).mem = true := by
  simp [applyAtomic, hm]

@[simp] theorem logAdd_wf (s : State) (pa source tag unit : Nat) (hm : Memory.wf s.mem = true) :
    Memory.wf (logAdd s pa source tag unit).mem = true := by
  simp [logAdd, hm]

@[simp] theorem performAtomic_wf (s : State) (r : Req) (w : AtomicWork) (hm : Memory.wf s.mem = true) :
    Memory.wf (performAtomic s r w).mem = true := by
  have reached := reachHome_wf s r true hm
  unfold performAtomic
  dsimp only
  rw [updateReq_mem, holdResult_mem]
  refine applyAtomic_wf _ _ _ ?_
  split
  · exact logAdd_wf _ _ _ _ _ (by rwa [followAdd_mem])
  · exact reached

theorem performCode_wf (s : State) (r : Req) (seq tag key old new : Nat) (hm : Memory.wf s.mem = true) (t : State)
    (h : performCode s r seq tag key old new = some t) : Memory.wf t.mem = true := by
  have reached := reachHome_wf s r true hm
  unfold performCode at h
  dsimp only at h
  split at h
  · split at h
    · obtain ⟨x, hx, rfl⟩ := Option.map_eq_some_iff.mp h
      rw [updateReq_mem]
      exact performClaim_wf _ _ _ _ reached x hx
    · cases h
      simpa using reached
  · cases h
    rw [updateReq_mem]
    exact changeCode_wf _ _ _ _ reached

theorem performReq_wf (s : State) (r : Req) (hm : Memory.wf s.mem = true) (t : State × List Byte)
    (h : performReq s r = some t) : Memory.wf t.1.mem = true := by
  have reached (wr : Bool) := reachHome_wf s r wr hm
  unfold performReq at h
  dsimp only at h
  split at h
  · cases h
    simp [reached]
  · cases h
    simp [reached]
  · cases h
    simp [reached]
  · cases h
    simp [reached]
  · split at h
    · cases h
      simpa using hm
    · split at h
      · cases h
      · cases h
        exact performAtomic_wf s r _ hm
  · obtain ⟨x, hx, rfl⟩ := Option.map_eq_some_iff.mp h
    exact performCode_wf s r _ _ _ _ _ hm x hx
  · cases h
    simp [reached]
  · cases h

@[simp] theorem mirrorAway_wf (s : State) (cells : List Host.Cell) (hm : Memory.wf s.mem = true) :
    Memory.wf (mirrorAway s cells).mem = true := by
  unfold mirrorAway
  split <;> simp [hm]

@[simp] theorem mirrorAtomic_wf (s : State) (r : Req) (old : List Byte) (hm : Memory.wf s.mem = true) :
    Memory.wf (mirrorAtomic s r old).mem = true := by
  unfold mirrorAtomic
  split <;> simp [hm]

@[simp] theorem performAway_wf (s : State) (r : Req) (data : List Byte) (hm : Memory.wf s.mem = true) :
    Memory.wf (performAway s r data).mem = true := by
  unfold performAway
  split <;> simp [hm]

@[simp] theorem awayData_mem (s : State) (r : Req) : ((awayData s r).2).mem = s.mem := by
  unfold awayData
  split <;> simp

@[simp] theorem failNote_mem (s : State) (p : NetPacket) : (failNote s p).mem = s.mem := by
  unfold failNote
  split <;> simp

@[simp] theorem answerAway_wf (s : State) (p : NetPacket) (given : Option (List Byte)) (cause : Byte)
    (hm : Memory.wf s.mem = true) :
    Memory.wf (answerAway s p given cause).mem = true := by
  unfold answerAway
  dsimp only
  (repeat' split) <;> simp [hm]

@[simp] theorem sendOn_mem (s : State) (p : NetPacket) (r : Req) (pas : List Nat) : (sendOn s p r pas).mem = s.mem := by
  simp [sendOn]

@[simp] theorem answer_mem (s : State) (a : Answer) : (answer s a).mem = s.mem := by
  simp [answer]

@[simp] theorem countLogged_mem (s : State) (home : Nat) : ((countLogged s home).2).mem = s.mem := by
  unfold countLogged
  split <;> simp

@[simp] theorem logInbound_wf (s : State) (edge typ : Nat) (pas : List Nat) (b : List Byte) (hm : Memory.wf s.mem = true) :
    Memory.wf (logInbound s edge typ pas b).mem = true := by
  simp [logInbound, hm]

@[simp] theorem noteInbound_wf (s : State) (edge party : Nat) (wr : Bool) (pas : List Nat) (hm : Memory.wf s.mem = true) :
    Memory.wf (noteInbound s edge party wr pas).mem = true := by
  unfold noteInbound
  split <;> simp [hm]

@[simp] theorem touchRemote_mem (s : State) (p : Packet) (pas : List Nat) : (touchRemote s p pas).mem = s.mem := by
  simp [touchRemote]

theorem remoteAtomic_wf (s : State) (p : Packet) (at_ : List Nat) (data : List Byte) (hm : Memory.wf s.mem = true)
    (r : State × List Byte) (h : remoteAtomic s p at_ data = some r) : Memory.wf r.1.mem = true := by
  unfold remoteAtomic at h
  extract_lets w pas pa at h
  split at h
  · cases h
    exact hm
  · split at h
    · cases h
    · have noted := logInbound_wf _ domainEdge 3 pas (toBytes pas.length (atomicNew w.aop w.ty
        (ofBytes (pas.map (memByte s.mem))) w.b w.c)) (noteInbound_wf s domainEdge (remoteSource p) true pas hm)
      cases h
      rw [holdResult_mem]
      refine applyAtomic_wf _ _ _ ?_
      rw [touchRemote_mem]
      exact wf_ite (logAdd_wf _ _ _ _ _ noted) noted

@[simp] theorem resolveInbound_mem (s : State) (p : Packet) : (resolveInbound s p).mem = s.mem := by
  simp [resolveInbound]

theorem grantRemote_wf (s : State) (q : NetPacket) (hm : Memory.wf s.mem = true) (t : State)
    (h : grantRemote s q = some t) : Memory.wf t.mem = true := by
  unfold grantRemote at h
  dsimp only at h
  split at h
  · cases h
    simpa using hm
  · split at h
    · cases h
      simpa using hm
    · split at h
      · cases h
        simpa using hm
      · split at h
        · cases h
          have logged (l : List Nat) := logInbound_wf _ domainEdge 2 l q.data
            (noteInbound_wf (wakePas s l) domainEdge (remoteSource q.pkt) true l (by simpa using hm))
          rw [respond_mem, resolveInbound_mem]
          exact writeCells_wf _ _ (by simp [logged])
        · obtain ⟨x, hx, rfl⟩ := Option.map_eq_some_iff.mp h
          rw [respond_mem]
          exact remoteAtomic_wf _ _ _ _ (by simpa using hm) x hx

@[simp] theorem releaseResult_mem (s : State) (source tag : Nat) : (releaseResult s source tag).mem = s.mem := by
  simp [releaseResult]

@[simp] theorem grantLogged_wf (s : State) (hm : Memory.wf s.mem = true) : Memory.wf (grantLogged s).mem = true := by
  unfold grantLogged
  dsimp only
  (repeat' split) <;> simp [hm]

@[simp] theorem grantReq_wf (s : State) (p : NetPacket) (c : Contender) (r : Req) (hm : Memory.wf s.mem = true) :
    Next (grantReq s p c r) (fun t => Memory.wf t.mem = true) := by
  unfold grantReq
  split
  · exact next_fault
  · exact next_next.mpr (endAccess_wf s r hm)
  · split
    · exact next_next.mpr (by simpa using hm)
    · split
      · rename_i h
        exact next_next.mpr (by simpa using performReq_wf s r hm _ h)
      · exact next_next.mpr hm

@[simp] theorem grantTraffic_mem (s : State) (p : NetPacket) (c : Contender) : (grantTraffic s p c).mem = s.mem := by
  unfold grantTraffic
  split <;> simp

@[simp] theorem grantPacket_wf (s : State) (p : NetPacket) (c : Contender) (hm : Memory.wf s.mem = true) :
    Next (grantPacket s p c) (fun t => Memory.wf t.mem = true) := by
  unfold grantPacket
  split
  · refine next_next.mpr ?_
    cases h : rootAbsorbs s p with
    | none => exact hm
    | some t => simpa [rootAbsorbs_mem s p t h] using hm
  · split
    · exact grantReq_wf s p c _ hm
    · split
      · exact next_next.mpr (by simpa using hm)
      · refine next_next.mpr ?_
        cases h : grantRemote s p with
        | none => exact hm
        | some t => simpa using grantRemote_wf s p hm t h

@[simp] theorem dropTableEntry_mem (s : State) (core i : Nat) : (dropTableEntry s core i).mem = s.mem := by
  unfold dropTableEntry
  dsimp only
  split <;> simp

@[simp] theorem countCorrected_mem (s : State) (u : ErrorUnit) : (countCorrected s u).mem = s.mem := by
  simp [countCorrected]

@[simp] theorem stepChunk_wf (s : State) (o : Op) (k : Nat) (hm : Memory.wf s.mem = true) :
    Next (stepChunk s o k) (fun t => Memory.wf t.mem = true) := by
  unfold stepChunk
  split
  · exact next_next.mpr hm
  · split
    · rename_i h
      exact next_next.mpr (runChunk_wf opChunk_wf s o k hm _ h)
    · exact next_next.mpr (sendAccess_wf s _ hm)
    · exact next_fault
    · exact next_next.mpr hm

@[simp] theorem suspendStream_wf (s : State) (core ctx q : Nat) (st : Stream) (hm : Memory.wf s.mem = true) :
    Next (suspendStream s core ctx q st) (fun t => Memory.wf t.mem = true) := by
  unfold suspendStream
  split <;> simp [hm]

@[simp] theorem execCommandSuspend_wf (core ctx seq : Nat) (s : State) (hm : Memory.wf s.mem = true) :
    Next (execCommandSuspend core ctx seq s) (fun t => Memory.wf t.mem = true) := by
  unfold execCommandSuspend
  split
  · next o _ =>
    split
    · refine next_next.mpr (wf_ite hm (settleEnd_wf _ _ _ _ hm))
    · split
      · exact next_next.mpr hm
      · have run := runChunks_wf opChunk_wf s o (opChunks o) hm
        split <;> rename_i h
        · exact next_next.mpr hm
        · rw [h] at run
          exact opFault_wf _ _ _ run
  · split
    · exact suspendStream_wf _ _ _ _ _ hm
    · exact next_next.mpr hm

/-! ### Router -/

@[simp] theorem deliver_wf (s : State) (p : NetPacket) (hm : Memory.wf s.mem = true) :
    Memory.wf (deliver s p).mem = true := by
  unfold deliver
  split <;> simp [hm]

@[simp] theorem arriveAt_wf (s : State) (p : NetPacket) (hm : Memory.wf s.mem = true) :
    Memory.wf (arriveAt s p).mem = true := by
  unfold arriveAt
  split <;> simp [hm]

@[simp] theorem leaveBy_wf (s : State) (p : NetPacket) (port : Nat) (hm : Memory.wf s.mem = true) :
    Memory.wf (leaveBy s p port).mem = true := by
  unfold leaveBy
  (repeat' split) <;> simp [hm]

@[simp] theorem serveUnit_mem (s : State) (p : NetPacket) : (serveUnit s p).mem = s.mem := by
  simp [serveUnit]

@[simp] theorem serveWork_wf (s : State) (p : NetPacket) (hm : Memory.wf s.mem = true) :
    Next (serveWork s p) (fun t => Memory.wf t.mem = true) := by
  unfold serveWork
  (repeat' split) <;> simp [hm]

@[simp] theorem turnGroup_mem (s : State) (p : NetPacket) : (turnGroup s p).mem = s.mem := by
  unfold turnGroup
  split <;> simp

@[simp] theorem passOn_wf (s : State) (p : NetPacket) (out : Nat) (hm : Memory.wf s.mem = true) :
    Next (passOn s p out) (fun t => Memory.wf t.mem = true) := by
  unfold passOn
  (repeat' split) <;> simp [hm]

@[simp] theorem execRouterGrant_wf (n : NetPoint) (out : Nat) (s : State) (hm : Memory.wf s.mem = true) :
    Next (execRouterGrant n out s) (fun t => Memory.wf t.mem = true) := by
  unfold execRouterGrant
  split
  · exact next_next.mpr hm
  · exact performing_wf (passOn_wf _ _ _ (by simpa using hm))

@[simp] theorem execSlackDecrement_wf (id : Nat) (s : State) (hm : Memory.wf s.mem = true) :
    Next (execSlackDecrement id s) (fun t => Memory.wf t.mem = true) := by
  unfold execSlackDecrement
  split <;> simp [hm]

@[simp] theorem absorbPacket_mem (s : State) (id : Option Nat) : (absorbPacket s id).mem = s.mem := by
  unfold absorbPacket
  split <;> simp

@[simp] theorem logArrival_wf (s : State) (p : Packet) (key : Word) (seq : Nat) (hm : Memory.wf s.mem = true) :
    Memory.wf (logArrival s p key seq).mem = true := by
  simp [logArrival, hm]

@[simp] theorem execFlagPacketArrive_wf (p : PacketSource) (s : State) (hm : Memory.wf s.mem = true) :
    Next (execFlagPacketArrive p s) (fun t => Memory.wf t.mem = true) := by
  unfold execFlagPacketArrive
  split
  · exact next_next.mpr hm
  · dsimp only
    split
    · exact next_next.mpr hm
    · refine performing_wf (next_next.mpr ?_)
      rw [absorbPacket_mem]
      split
      · rename_i h
        rw [modifyTarget_mem _ _ _ _ _ _ h]
        exact logArrival_wf _ _ _ _ (by simpa using hm)
      · exact logArrival_wf _ _ _ _ (by simpa using hm)

@[simp] theorem watchNotice_mem (s : State) (atw : Word) (cookie : BitVec 64) : (watchNotice s atw cookie).mem = s.mem := by
  unfold watchNotice
  split <;> simp

@[simp] theorem execNoticeArrive_wf (p : PacketSource) (s : State) (hm : Memory.wf s.mem = true) :
    Next (execNoticeArrive p s) (fun t => Memory.wf t.mem = true) := by
  unfold execNoticeArrive
  (repeat' split) <;> simp [hm]

@[simp] theorem countAdd_mem (s : State) (id : Option Nat) (n : Nat) : (countAdd s id n).mem = s.mem := by
  unfold countAdd
  (repeat' split) <;> simp

@[simp] theorem execAcaddArrive_wf (p : PacketSource) (s : State) (hm : Memory.wf s.mem = true) :
    Next (execAcaddArrive p s) (fun t => Memory.wf t.mem = true) := by
  unfold execAcaddArrive
  (repeat' split) <;> simp [hm]

/-! ### Link -/

@[simp] theorem freeCount_mem (s : State) : ((freeCount s).2).mem = s.mem := by
  simp [freeCount]

@[simp] theorem takenAway_wf (s : State) (p : NetPacket) (hm : Memory.wf s.mem = true) :
    Memory.wf (takenAway s p).mem = true := by
  unfold takenAway
  dsimp only
  (repeat' split) <;> simp [hm]

@[simp] theorem eraseWork_mem (s : State) (x : Outbound) : (eraseWork s x).mem = s.mem := by
  simp [eraseWork]

@[simp] theorem acknowledge_wf (s : State) (x : Outbound) (hm : Memory.wf s.mem = true) :
    Memory.wf (acknowledge s x).mem = true := by
  unfold acknowledge
  dsimp only
  split <;> simp [hm]

@[simp] theorem notifyMark_mem (s : State) (qp : Nat) (ecn : Bool) : (notifyMark s qp ecn).mem = s.mem := by
  simp [notifyMark]

@[simp] theorem execPeerAcknowledgement_wf (p : PeerPacket) (s : State) (hm : Memory.wf s.mem = true) :
    Next (execPeerAcknowledgement p s) (fun t => Memory.wf t.mem = true) := by
  refine performing_wf (next_next.mpr (wf_ite ?_ ?_))
  · split
    · exact acknowledge_wf _ _ (by simpa using hm)
    · exact hm
  · split
    · exact wf_ite hm (takenAway_wf s _ hm)
    · exact hm

@[simp] theorem discardPacket_mem (s : State) (p : NetPacket) : (discardPacket s p).mem = s.mem := by
  simp [discardPacket]

@[simp] theorem timeOut_wf (s : State) (p : NetPacket) (hm : Memory.wf s.mem = true) :
    Memory.wf (timeOut s p).mem = true := by
  unfold timeOut
  (repeat' split) <;> simp [hm]

@[simp] theorem execFabricTimeout_wf (id : Nat) (s : State) (hm : Memory.wf s.mem = true) :
    Next (execFabricTimeout id s) (fun t => Memory.wf t.mem = true) := by
  unfold execFabricTimeout
  split
  · exact performing_wf (next_next.mpr (timeOut_wf s _ hm))
  · exact next_next.mpr hm

theorem endWork_wf {end_ : State → Req → State}
    (hend : ∀ s r, Memory.wf s.mem = true → Memory.wf (end_ s r).mem = true) (s : State) (x : Outbound)
    (hm : Memory.wf s.mem = true) : Memory.wf (endWork end_ s x).mem = true := by
  have erased : Memory.wf (eraseWork s x).mem = true := by simpa using hm
  unfold endWork
  split
  · exact erased
  · dsimp only
    split
    · exact hend _ _ erased
    · exact erased

@[simp] theorem execRoceNakReceived_wf (id : PeerPacket) (s : State) (hm : Memory.wf s.mem = true) :
    Next (execRoceNakReceived id s) (fun t => Memory.wf t.mem = true) := by
  unfold execRoceNakReceived
  split
  · refine performing_wf (next_next.mpr (endWork_wf (fun s r h => failReq_wf s r _ h) _ _ ?_))
    simpa using hm
  · exact next_next.mpr hm

@[simp] theorem endQueued_wf (s : State) (qp : Nat) (hm : Memory.wf s.mem = true) :
    Memory.wf (endQueued s qp).mem = true := by
  refine foldl_wf (fun s p h => ?_) _ (foldl_wf (endWork_wf endAccess_wf) _ hm)
  split
  · exact endAccess_wf _ _ h
  · simpa using h

@[simp] theorem failQp_wf (s : State) (qp : Nat) (e : BitVec 256) (hm : Memory.wf s.mem = true) :
    Memory.wf (failQp s qp e).mem = true := by
  simp [failQp, hm]

@[simp] theorem execQpError_wf (qp : Nat) (s : State) (hm : Memory.wf s.mem = true) :
    Next (execQpError qp s) (fun t => Memory.wf t.mem = true) := by
  unfold execQpError
  split
  · exact next_next.mpr hm
  · exact performing_wf (next_next.mpr (failQp_wf s _ _ hm))

@[simp] theorem execCongestionNotificationReceipt_mem (qp : Nat) (s : State) :
    Next (execCongestionNotificationReceipt qp s) (fun t => t.mem = s.mem) := by
  unfold execCongestionNotificationReceipt
  split <;> simp

@[simp] theorem reply_mem (s : State) (r : RoceRequest) (a : Answer) : (reply s r a).mem = s.mem := by
  simp [reply]

@[simp] theorem refuseInbound_mem (s : State) (r : RoceRequest) (e : MgmtEvent) : (refuseInbound s r e).mem = s.mem := by
  simp [refuseInbound]

@[simp] theorem refuseEarly_mem (s : State) (qp : Nat) : (refuseEarly s qp).mem = s.mem := by
  simp [refuseEarly]

@[simp] theorem partCells_mem (s : State) (cells : List (Nat × Host.Cell)) : ((partCells s cells).2).mem = s.mem := by
  simp [partCells]

@[simp] theorem holdInbound_mem (s : State) (i : Inbound) : (holdInbound s i).mem = s.mem := by
  simp [holdInbound]

@[simp] theorem servedInbound_mem (s : State) (i : Inbound) : (servedInbound s i).mem = s.mem := by
  simp [servedInbound]

theorem serveInbound_wf (s : State) (i : Inbound) (wr : Bool) (pas : List Nat) {f : State → State}
    (hf : ∀ s, Memory.wf s.mem = true → Memory.wf (f s).mem = true) (hm : Memory.wf s.mem = true) :
    Next (serveInbound s i wr pas f) (fun t => Memory.wf t.mem = true) := by
  unfold serveInbound
  split
  · exact next_next.mpr (by simpa using hm)
  · exact next_next.mpr (hf _ (by simpa using hm))

@[simp] theorem inboundReach_mem (s : State) (r : RoceRequest) (typ : Nat) (aux : Option (BitVec 32)) (data : List Byte)
    (l : List (Nat × Nat)) :
    (inboundReach s r typ aux data l).mem = s.mem := by
  simp [inboundReach, foldl_mem]

@[simp] theorem performInbound_wf (s : State) (r : RoceRequest) (l : List (Nat × Host.Cell)) (hm : Memory.wf s.mem = true) :
    Memory.wf (performInbound s r l).mem = true := by
  refine writeCells_wf _ _ ?_
  rw [inboundReach_mem]
  exact foldl_wf (fun s c h => logInbound_wf _ _ _ _ _ h) _ (noteInbound_wf _ _ _ _ _ (by simpa using hm))

@[simp] theorem inboundWrite_wf (r : RoceRequest) (data : List Byte) (s : State) (hm : Memory.wf s.mem = true) :
    Next (inboundWrite r data s) (fun t => Memory.wf t.mem = true) := by
  unfold inboundWrite
  split
  · exact next_next.mpr (by simpa using hm)
  · split
    · exact next_next.mpr hm
    · split
      · exact next_next.mpr (by simpa using hm)
      · split
        · exact next_next.mpr (by simpa using hm)
        · exact serveInbound_wf s _ _ _ (fun s h => wf_ite (by simp [h]) (by simp [h])) hm

@[simp] theorem inboundRead_wf (r : RoceRequest) (len : Nat) (s : State) (hm : Memory.wf s.mem = true) :
    Next (inboundRead r len s) (fun t => Memory.wf t.mem = true) := by
  unfold inboundRead
  split
  · exact next_next.mpr (by simpa using hm)
  · split
    · exact next_next.mpr hm
    · split
      · exact next_next.mpr (by simpa using hm)
      · exact serveInbound_wf s _ _ _ (fun s h => wf_ite (by simpa using h) (by simpa using h)) hm

@[simp] theorem performRoceAtomic_wf (s : State) (r : RoceRequest) (op : RoceAtomic) (at_ : List Nat)
    (hm : Memory.wf s.mem = true) : Memory.wf (performRoceAtomic s r op at_).1.mem = true := by
  unfold performRoceAtomic
  dsimp only
  split
  · exact hm
  · rw [holdResult_mem]
    refine applyAtomic_wf _ _ _ ?_
    rw [inboundReach_mem]
    exact logInbound_wf _ _ _ _ _ (noteInbound_wf _ _ _ _ _ (by simpa using hm))

@[simp] theorem inboundAtomic_wf (r : RoceRequest) (op : RoceAtomic) (s : State) (hm : Memory.wf s.mem = true) :
    Next (inboundAtomic r op s) (fun t => Memory.wf t.mem = true) := by
  unfold inboundAtomic
  split
  · exact next_next.mpr (by simpa using hm)
  · split
    · exact next_next.mpr hm
    · split
      · exact next_next.mpr (by simpa using hm)
      · split
        · exact next_next.mpr (by simpa using hm)
        · split
          · exact next_next.mpr (by simpa using hm)
          · exact serveInbound_wf s _ _ _ (fun s h => wf_ite (by simpa using h) (by simp [h])) hm

@[simp] theorem inboundRequest_wf (i : Inbound) (s : State) (hm : Memory.wf s.mem = true) :
    Next (inboundRequest i s) (fun t => Memory.wf t.mem = true) := by
  cases i with
  | write r data => exact inboundWrite_wf r data s hm
  | read r len => exact inboundRead_wf r len s hm
  | atomic r op => exact inboundAtomic_wf r op s hm

@[simp] theorem execRoceInboundWrite_wf (r : RoceRequest) (data : List Byte) (s : State) (hm : Memory.wf s.mem = true) :
    Next (execRoceInboundWrite r data s) (fun t => Memory.wf t.mem = true) := by
  simp [execRoceInboundWrite, hm]

@[simp] theorem execRoceInboundRead_wf (r : RoceRequest) (len : Nat) (s : State) (hm : Memory.wf s.mem = true) :
    Next (execRoceInboundRead r len s) (fun t => Memory.wf t.mem = true) := by
  simp [execRoceInboundRead, hm]

@[simp] theorem execRoceInboundAtomic_wf (r : RoceRequest) (op : RoceAtomic) (s : State) (hm : Memory.wf s.mem = true) :
    Next (execRoceInboundAtomic r op s) (fun t => Memory.wf t.mem = true) := by
  simp [execRoceInboundAtomic, hm]

@[simp] theorem execRoceUnsupportedOp_mem (p : PeerPacket) (opcode : Byte) (s : State) :
    Next (execRoceUnsupportedOp p opcode s) (fun t => t.mem = s.mem) := by
  unfold execRoceUnsupportedOp
  (repeat' split) <;> simp

@[simp] theorem enterPacket_mem (s : State) (port : Nat) (p : Packet) (flits : List (BitVec 512)) :
    (enterPacket s port p flits).mem = s.mem := by
  simp [enterPacket]

@[simp] theorem enterResponse_wf (s : State) (port : Nat) (p : Packet) (flits : List (BitVec 512)) (cause : Byte)
    (hm : Memory.wf s.mem = true) :
    Memory.wf (enterResponse s port p flits cause).mem = true := by
  unfold enterResponse
  dsimp only
  (repeat' split) <;> simp [hm]

@[simp] theorem execFabricDiscard_wf (port : Nat) (x : LinkPacket) (s : State) (hm : Memory.wf s.mem = true) :
    Next (execFabricDiscard port x s) (fun t => Memory.wf t.mem = true) := by
  unfold execFabricDiscard
  dsimp only
  split
  · exact next_next.mpr hm
  · split
    · exact next_next.mpr hm
    · split
      · exact next_next.mpr hm
      · split
        · exact performing_wf (next_next.mpr (by simp [hm]))
        · exact next_next.mpr (by simp [hm])

@[simp] theorem execFlitRetransmit_mem (port : Nat) (s : State) :
    Next (execFlitRetransmit port s) (fun t => t.mem = s.mem) := by
  unfold execFlitRetransmit
  split <;> simp

@[simp] theorem execPortFailure_mem (port : Nat) (s : State) : Next (execPortFailure port s) (fun t => t.mem = s.mem) := by
  unfold execPortFailure
  split <;> simp

@[simp] theorem remoteError_mem (s : State) (id : Nat) : (remoteError s id).mem = s.mem := by
  unfold remoteError
  (repeat' split) <;> simp

@[simp] theorem streamError_mem (s : State) (core ctx seq off : Nat) : (streamError s core ctx seq off).mem = s.mem := by
  unfold streamError
  split <;> simp

@[simp] theorem grantAt_wf (g : PortGrant) (s : State) (hm : Memory.wf s.mem = true) :
    Next (grantAt g s) (fun t => Memory.wf t.mem = true) := by
  unfold grantAt
  (repeat' split) <;> simp [hm]

@[simp] theorem execMemoryPortGrant_wf (g : PortGrant) (s : State) (hm : Memory.wf s.mem = true) :
    Next (execMemoryPortGrant g s) (fun t => Memory.wf t.mem = true) := performing_wf (grantAt_wf g s hm)

/-! ### Range -/

@[simp] theorem startRange_mem (s : State) (o : Op) (asid b c : Word) (sl : BitVec 4) :
    Ensures (startRange s o asid b c sl) (fun t => t.mem = s.mem) := by
  simp [startRange]

@[simp] theorem slotRngIns_mem (t a b : Reg) (sl : BitVec 4) (s : State) :
    Ensures (slotRngIns t a b sl s) (fun t => t.mem = s.mem) := by
  simp [slotRngIns]

@[simp] theorem slotRngDel_mem (t a b : Reg) (sl : BitVec 4) (s : State) :
    Ensures (slotRngDel t a b sl s) (fun t => t.mem = s.mem) := by
  simp [slotRngDel]

@[simp] theorem slotRngSplit_mem (t a b : Reg) (sl : BitVec 4) (s : State) :
    Ensures (slotRngSplit t a b sl s) (fun t => t.mem = s.mem) := by
  simp [slotRngSplit]

@[simp] theorem slotRngMerge_mem (t a b : Reg) (sl : BitVec 4) (s : State) :
    Ensures (slotRngMerge t a b sl s) (fun t => t.mem = s.mem) := by
  simp [slotRngMerge]

@[simp] theorem slotRngInv_mem (t a b c : Reg) (all : Bool) (sl : BitVec 4) (s : State) :
    Ensures (slotRngInv t a b c all sl s) (fun t => t.mem = s.mem) := by
  simp [slotRngInv]

@[simp] theorem slotRngReloc_mem (t a b c : Reg) (sl : BitVec 4) (s : State) :
    Ensures (slotRngReloc t a b c sl s) (fun t => t.mem = s.mem) := by
  simp [slotRngReloc]

@[simp] theorem startResidency_mem (s : State) (i : Instr) (t a b c : Reg) (sl : BitVec 4) :
    Ensures (startResidency s i t a b c sl) (fun t => t.mem = s.mem) := by
  simp [startResidency]

@[simp] theorem slotRngResOr_mem (t a b c : Reg) (sl : BitVec 4) (s : State) :
    Ensures (slotRngResOr t a b c sl s) (fun t => t.mem = s.mem) := by
  simp [slotRngResOr]

@[simp] theorem slotRngResAndn_mem (t a b c : Reg) (sl : BitVec 4) (s : State) :
    Ensures (slotRngResAndn t a b c sl s) (fun t => t.mem = s.mem) := by
  simp [slotRngResAndn]

@[simp] theorem slotRngResWr_mem (t a b c : Reg) (sl : BitVec 4) (s : State) :
    Ensures (slotRngResWr t a b c sl s) (fun t => t.mem = s.mem) := by
  simp [slotRngResWr]

@[simp] theorem slotRngRd_mem (t a b c : Reg) (sl : BitVec 4) (s : State) :
    Ensures (slotRngRd t a b c sl s) (fun t => t.mem = s.mem) := by
  simp [slotRngRd]

@[simp] theorem rangeWrite_wf (o : Op) (hint : CacheHint) (s : State) (cells : List Host.Cell)
    (hm : Memory.wf s.mem = true) : Memory.wf (rangeWrite o hint s cells).mem = true := by
  unfold rangeWrite
  rw [touchLines_mem]
  exact foldl_wf (fun s c h => sendFor_wf _ _ _ _ _ _ s _ h) _ (storeCells_wf s cells hm)

@[simp] theorem writeDirectory_wf (s : State) (o : Op) (l : List (BitVec 256)) (hm : Memory.wf s.mem = true) :
    Memory.wf (writeDirectory s o l).mem = true := by
  unfold writeDirectory
  split <;> simp [hm]

@[simp] theorem dropEntries_mem (s : State) (all : Bool) (asid : BitVec 16) (lo len : Nat) :
    (dropEntries s all asid lo len).mem = s.mem := rfl

@[simp] theorem commitRange_wf (s : State) (o : Op) (l : BitVec 32 → List (BitVec 256)) (lo len : Nat)
    (hm : Memory.wf s.mem = true) :
    Memory.wf (commitRange s o l lo len).mem = true := by
  simp [commitRange, hm]

@[simp] theorem readImage_wf (s : State) (o : Op) (hm : Memory.wf s.mem = true) :
    Ensures (readImage s o) (fun t => Memory.wf t.2.mem = true) := by
  unfold readImage
  split
  · exact ensures_error
  · rename_i h
    exact ensures_ok.mpr (engineRead_wf s _ _ _ _ _ hm _ h)

/-- What a range command answers keeps memory canonical. -/
def RangeKeeps (r : RangeEnd) : Prop := Ensures r (fun t => Memory.wf t.1.mem = true)

theorem rangeKeeps_error {e : RangeErr} : RangeKeeps (.error e) := ensures_error

theorem rangeKeeps_ok {s : State} {n : Nat} (hm : Memory.wf s.mem = true) : RangeKeeps (.ok (s, n)) := ensures_ok.mpr hm

theorem rangeKeeps_ite {c : Prop} [Decidable c] {x y : RangeEnd} (hx : RangeKeeps x) (hy : RangeKeeps y) :
    RangeKeeps (if c then x else y) := ensures_ite (fun _ => hx) fun _ => hy

theorem rangeKeeps_bind {α : Type} {x : Except RangeErr α} {f : α → RangeEnd} (hf : ∀ a, RangeKeeps (f a)) :
    RangeKeeps (x >>= f) := ensures_bind hf

theorem rangeKeeps_commit {s : State} {o : Op} {l : BitVec 32 → List (BitVec 256)} {lo len n : Nat}
    (hm : Memory.wf s.mem = true) : RangeKeeps (.ok (commitRange s o l lo len, n)) := rangeKeeps_ok
    (commitRange_wf _ _ _ _ _ hm)

theorem doInsert_keeps (s : State) (o : Op) (d : BitVec 256) (hm : Memory.wf s.mem = true) : RangeKeeps (doInsert s o d) := by
  unfold doInsert
  split
  · exact rangeKeeps_error
  · exact rangeKeeps_ite rangeKeeps_error (rangeKeeps_ite rangeKeeps_error (rangeKeeps_ite rangeKeeps_error
      (rangeKeeps_commit hm)))

theorem doDelete_keeps (s : State) (o : Op) (hm : Memory.wf s.mem = true) : RangeKeeps (doDelete s o) := by
  unfold doDelete
  exact rangeKeeps_bind fun _ => rangeKeeps_commit hm

theorem doSplit_keeps (s : State) (o : Op) (hm : Memory.wf s.mem = true) : RangeKeeps (doSplit s o) := by
  unfold doSplit
  refine rangeKeeps_bind fun _ => rangeKeeps_ite rangeKeeps_error ?_
  split
  · exact rangeKeeps_error
  · exact rangeKeeps_ite rangeKeeps_error (rangeKeeps_commit hm)

theorem doMerge_keeps (s : State) (o : Op) (hm : Memory.wf s.mem = true) : RangeKeeps (doMerge s o) := by
  unfold doMerge
  refine rangeKeeps_bind fun x => ?_
  dsimp only
  split
  · exact rangeKeeps_error
  · exact rangeKeeps_ite rangeKeeps_error (rangeKeeps_ite rangeKeeps_error (rangeKeeps_commit hm))

theorem doInvalidate_keeps (s : State) (o : Op) (all : Bool) (hm : Memory.wf s.mem = true) :
    RangeKeeps (doInvalidate s o all) := rangeKeeps_ite rangeKeeps_error (rangeKeeps_ok hm)

theorem doResidency_keeps (s : State) (o : Op) (f : BitVec 64 → BitVec 64 → BitVec 64) (hm : Memory.wf s.mem = true) :
    RangeKeeps (doResidency s o f) := by
  unfold doResidency
  exact rangeKeeps_bind fun _ => rangeKeeps_commit hm

theorem doRead_keeps (s : State) (o : Op) (hm : Memory.wf s.mem = true) : RangeKeeps (doRead s o) := by
  unfold doRead
  split
  · exact rangeKeeps_error
  · split
    · exact rangeKeeps_error
    · split
      · rename_i h
        exact rangeKeeps_ok (engineWrite_wf s _ _ _ _ _ hm _ h)
      · exact rangeKeeps_error

theorem endRange_wf (s : State) (o : Op) (r : RangeEnd) (hr : RangeKeeps r) (hm : Memory.wf s.mem = true) :
    Next (endRange s o r) (fun t => Memory.wf t.mem = true) := by
  unfold endRange
  split
  · exact next_next.mpr (finishOp_wf _ _ _ (hr _ rfl))
  · exact next_next.mpr (finishOp_wf _ _ _ hm)
  · exact next_next.mpr hm
  · exact next_next.mpr (sendAccess_wf s _ hm)
  · exact next_fault
  · exact next_next.mpr (endOp_wf _ _ _ _ (searched_wf s _ _ hm))
  · exact next_next.mpr (endOp_wf _ _ _ _ hm)

@[simp] theorem beginReloc_mem (s : State) (o : Op) : Ensures (beginReloc s o) (fun t => t.mem = s.mem) := by
  simp [beginReloc]

@[simp] theorem moveInside_wf (s : State) (o : Op) (d : BitVec 256) (src dst n : Nat) (hm : Memory.wf s.mem = true) :
    Ensures (moveInside s o d src dst n) (fun t => Memory.wf t.mem = true) := by
  unfold moveInside
  dsimp only
  split
  · exact ensures_error
  · refine ensures_ok.mpr (rangeWrite_wf _ _ _ _ ?_)
    rw [touchLines_mem]
    exact foldl_wf (fun s c h => sendFor_wf _ _ _ _ _ _ s _ h) _ hm

@[simp] theorem moveChunk_wf (s : State) (o : Op) (d : BitVec 256) (off : BitVec 45) (k : Nat) (hm : Memory.wf s.mem = true) :
    Ensures (moveChunk s o d off k) (fun t => Memory.wf t.mem = true) := by
  simp [moveChunk, hm]

@[simp] theorem execRelocChunkMove_wf (core ctx seq : Nat) (s : State) (hm : Memory.wf s.mem = true) :
    Next (execRelocChunkMove core ctx seq s) (fun t => Memory.wf t.mem = true) := by
  have beginning (o : Op) : Ensures ((readDirectory s o (o.b.toNat / 4096)).bind fun _ => beginReloc s o)
      (fun t => Memory.wf t.mem = true) := ensures_bind fun _ => (beginReloc_mem s o).wf hm
  unfold execRelocChunkMove
  split
  · exact next_next.mpr hm
  · split
    · split
      · split
        · exact next_next.mpr hm
        · split
          · rename_i h
            exact next_next.mpr (beginning _ _ h)
          · exact endRange_wf s _ _ ensures_error hm
      · split
        · exact next_next.mpr hm
        · split
          · split
            · exact endRange_wf _ _ _ ensures_error (wf_ite (by simpa using hm) hm)
            · rename_i h
              refine next_next.mpr ?_
              simpa using moveChunk_wf s _ _ _ _ hm _ h
          · exact next_next.mpr hm
    · exact next_next.mpr hm

theorem onRange_keeps (s : State) (o : Op) {r : RangeEnd} (hr : RangeKeeps r) : RangeKeeps (onRange s o r) :=
  rangeKeeps_bind fun _ => rangeKeeps_bind fun _ => hr

theorem finishReloc_keeps (s : State) (o : Op) (hm : Memory.wf s.mem = true) : RangeKeeps (finishReloc s o) := by
  unfold finishReloc
  split
  · exact rangeKeeps_error
  · dsimp only
    split
    · exact rangeKeeps_error
    · exact rangeKeeps_ite rangeKeeps_error (rangeKeeps_commit hm)

theorem rangeResult_keeps (s : State) (o : Op) (hm : Memory.wf s.mem = true) : RangeKeeps (rangeResult s o) := by
  unfold rangeResult
  split
  case h_1 =>
    exact (readImage_wf s o hm).bind fun x hx => rangeKeeps_bind fun _ => rangeKeeps_bind fun _ => doInsert_keeps _ o _ hx
  case h_2 => exact onRange_keeps s o (doDelete_keeps s o hm)
  case h_3 => exact onRange_keeps s o (doSplit_keeps s o hm)
  case h_4 => exact onRange_keeps s o (doMerge_keeps s o hm)
  case h_5 =>
    split
    · exact rangeKeeps_bind fun _ => doInvalidate_keeps s o true hm
    · exact onRange_keeps s o (doInvalidate_keeps s o false hm)
  case h_6 => exact rangeKeeps_bind fun _ => finishReloc_keeps s o hm
  case h_7 | h_8 | h_9 => exact onRange_keeps s o (doResidency_keeps s o _ hm)
  case h_10 => exact rangeKeeps_bind fun _ => doRead_keeps s o hm
  case h_11 => exact rangeKeeps_error

@[simp] theorem execRangeCmdComplete_wf (core ctx seq : Nat) (s : State) (hm : Memory.wf s.mem = true) :
    Next (execRangeCmdComplete core ctx seq s) (fun t => Memory.wf t.mem = true) := by
  unfold execRangeCmdComplete
  split
  · exact next_next.mpr hm
  · split
    · exact endRange_wf s _ _ (rangeResult_keeps s _ hm) hm
    · exact next_next.mpr hm

@[simp] theorem execRangeWalk_wf (core ctx : Nat) (asid : BitVec 16) (vp : Nat) (s : State) (hm : Memory.wf s.mem = true) :
    Next (execRangeWalk core ctx asid vp s) (fun t => Memory.wf t.mem = true) := by
  simp [execRangeWalk, hm]

/-! ### Route -/

@[simp] theorem slotMoeRoute_mem (t a b : Reg) (k : BitVec 4) (sig renorm : Bool) (h : Hint) (s : State) :
    Ensures (slotMoeRoute t a b k sig renorm h s) (fun t => t.mem = s.mem) := by
  simp [slotMoeRoute]

@[simp] theorem routeTokens_wf (s : State) (o : Op) (t : TensorDesc) (k : Nat) (sig renorm : Bool) (l : List Nat)
    (hm : Memory.wf s.mem = true) :
    Ensures (routeTokens s o t k sig renorm l) (fun t => Memory.wf t.2.mem = true) := by
  induction l generalizing s with
  | nil => exact ensures_ok.mpr hm
  | cons i l ih => exact ensures_engineRead hm fun b u hu => (ih u hu).bind fun r hr => ensures_ok.mpr hr

@[simp] theorem writeArrays_wf (s : State) (o : Op) (l : List (Nat × List Byte)) (hm : Memory.wf s.mem = true) :
    Ensures (writeArrays s o l) (fun t => Memory.wf t.mem = true) := by
  induction l generalizing s with
  | nil => exact ensures_ok.mpr hm
  | cons p l ih => exact ensures_engineWrite hm fun t ht => ih t ht

@[simp] theorem captureScores_wf (s : State) (o : Op) (hm : Memory.wf s.mem = true) :
    Ensures (captureScores s o) (fun t => Memory.wf t.1.mem = true) := by
  unfold captureScores
  split <;> simp [hm]

@[simp] theorem rankPass_wf (s : State) (o : Op) (hm : Memory.wf s.mem = true) :
    Ensures (rankPass s o) (fun t => Memory.wf t.1.mem = true) := by
  simp [rankPass, hm]

@[simp] theorem routeChunk_wf (s : State) (o : Op) (k : Nat) (hm : Memory.wf s.mem = true) :
    Ensures (routeChunk s o k) (fun t => Memory.wf t.1.mem = true) := by
  simp [routeChunk, hm]

@[simp] theorem popRoute_mem (s : State) (die : Nat) : (popRoute s die).mem = s.mem := by
  simp [popRoute]

@[simp] theorem restartPass_mem (s : State) (q : CmxCmd) : (restartPass s q).mem = s.mem := by
  unfold restartPass
  split <;> simp

@[simp] theorem execRoutePassStart_mem (die : Nat) (s : State) :
    Next (execRoutePassStart die s) (fun t => t.mem = s.mem) := by
  unfold execRoutePassStart
  dsimp only
  (repeat' split) <;> simp

@[simp] theorem execRoutePassComplete_wf (die : Nat) (s : State) (hm : Memory.wf s.mem = true) :
    Next (execRoutePassComplete die s) (fun t => Memory.wf t.mem = true) := by
  unfold execRoutePassComplete
  dsimp only
  split
  · exact next_next.mpr hm
  · split
    · exact next_next.mpr (by simpa using hm)
    · rename_i o _
      split
      · exact next_next.mpr (by simpa using hm)
      · have run := runChunks_wf routeChunk_wf s o [0, 1, 2, 3] hm
        split <;> rename_i h <;> rw [h] at run
        · exact next_next.mpr (by simpa using finishOp_wf _ _ _ run)
        · exact next_next.mpr run
        · exact next_next.mpr (sendAccess_wf _ _ run)
        · exact opFault_wf _ _ _ (by simpa using run)

/-! ### Bundle -/

/-- A slot's effect keeps memory canonical: most leave it as it is, and the others send accesses, which a log records. -/
@[simp] theorem slotEffect_wf (i : Instr) (s : State) (hm : Memory.wf s.mem = true) :
    Ensures (slotEffect i s) (fun t => Memory.wf t.mem = true) := by
  cases i
  case acAdd | am | cmxPack | cmxRest | flagSetRmt | ld | ldX | ntfX | red | spmCarve | st | stX | tagEv | tagEvWb | tagFl |
      tagInv =>
    simp [slotEffect, hm]
  all_goals exact Ensures.wf (by simp [slotEffect]) hm

@[simp] theorem holdUnit_mem (s : State) (slot : Slot) (i : Instr) : (holdUnit s slot i).mem = s.mem := by
  unfold holdUnit
  split <;> simp

/-! ### Issue -/

@[simp] theorem fetchReach_wf (s : State) (va : Nat) (pas : List Nat) (hm : Memory.wf s.mem = true) :
    Memory.wf (fetchReach s va pas).mem = true := by
  simp [fetchReach, hm]

@[simp] theorem fetchWord_wf (s : State) (ba : BitVec 56) (va : Nat) (hm : Memory.wf s.mem = true) :
    Ensures (fetchWord s ba va) (fun t => Memory.wf t.2.mem = true) := by
  simp [fetchWord, hm]

@[simp] theorem fetchWords_wf (s : State) (ba : BitVec 56) (n va : Nat) (hm : Memory.wf s.mem = true) :
    Ensures (fetchWords s ba n va) (fun t => Memory.wf t.2.mem = true) := by
  induction n generalizing s va with
  | zero => exact ensures_ok.mpr hm
  | succ n ih =>
    refine (fetchWord_wf s ba va hm).bind fun p hp => (ih p.2 _ hp).bind fun q hq => ?_
    exact ensures_ok.mpr hq

@[simp] theorem targetTrap_wf (s : State) (core ctx : Nat) (t : TrapInfo) (hm : Memory.wf s.mem = true) :
    Memory.wf (targetTrap s core ctx t).mem = true := by
  simp [targetTrap, hm]

@[simp] theorem noteReads_wf (s : State) (c : Ctx) (as : List Active) (hm : Memory.wf s.mem = true) :
    Memory.wf (noteReads s c as).mem = true := by
  unfold noteReads
  split <;> simp [hm]

@[simp] theorem performStores_wf (s : State) (hm : Memory.wf s.mem = true) : Memory.wf (performStores s).mem = true := by
  unfold performStores
  split <;> simp [hm]

@[simp] theorem traceWrites_mem (s : State) (ws : List Write) (as : List Active) : (traceWrites s ws as).mem = s.mem := by
  unfold traceWrites
  refine (foldl_mem (fun s x => traceEvent_mem _ _ _ _ _ _) _ _).trans (foldl_mem (fun s w => ?_) _ s)
  split <;> simp

@[simp] theorem traceMark_mem (s : State) (sub : Nat) (payload : Word) : (traceMark s sub payload).mem = s.mem := by
  simp [traceMark]

@[simp] theorem traceBundle_mem (s : State) (h : Header) (ws : List Write) (as : List Active) (edge : Option (BitVec 56))
    (hits : List (Nat × Nat)) :
    (traceBundle s h ws as edge hits).mem = s.mem := by
  unfold traceBundle
  dsimp only
  (repeat' split) <;> simp [foldl_mem]

@[simp] theorem releaseTask_mem (s : State) (core ctx : Nat) : (releaseTask s core ctx).mem = s.mem := by
  simp [releaseTask]

@[simp] theorem endBundle_wf (s : State) (code : Option (BitVec 16)) (hm : Memory.wf s.mem = true) :
    Memory.wf (endBundle s code).mem = true := by
  unfold endBundle
  dsimp only
  (repeat' split) <;> simp [hm]

@[simp] theorem beginSave_mem (s : State) (core ctx : Nat) (va : Option Word) : (beginSave s core ctx va).mem = s.mem := by
  simp [beginSave]

@[simp] theorem replayPoint_mem (s : State) (core ctx : Nat) (x : LogRec) : (replayPoint s core ctx x).mem = s.mem := by
  simp [replayPoint]

@[simp] theorem replayPoints_mem (s : State) (core ctx : Nat) : (replayPoints s core ctx).mem = s.mem := by
  unfold replayPoints
  (repeat' split) <;> simp [foldl_mem]

@[simp] theorem checkTarget_wf (s : State) (k : TargetKind) (hm : Memory.wf s.mem = true) :
    Memory.wf (checkTarget s k).mem = true := by
  unfold checkTarget
  dsimp only
  (repeat' split) <;> simp [hm]

@[simp] theorem toSuccessor_wf (s : State) (hm : Memory.wf s.mem = true) : Memory.wf (toSuccessor s).mem = true := by
  unfold toSuccessor
  dsimp only
  (repeat' split) <;> simp [hm]

@[simp] theorem stopAfter_wf (s : State) (stops : List TrapInfo) (hm : Memory.wf s.mem = true) :
    Memory.wf (stopAfter s stops).mem = true := by
  unfold stopAfter
  split <;> simp [hm]

@[simp] theorem afterBundle_wf (s : State) (stops : List TrapInfo) (hm : Memory.wf s.mem = true) :
    Memory.wf (afterBundle s stops).mem = true := by
  unfold afterBundle
  dsimp only
  (repeat' split) <;> simp [hm]

@[simp] theorem commitFlags_mem (s : State) (h : Header) : (commitFlags s h).mem = s.mem := by
  simp [commitFlags, foldl_mem]

@[simp] theorem logSeed_wf (s : State) (as : List Active) (ws : List Write) (hm : Memory.wf s.mem = true) :
    Memory.wf (logSeed s as ws).mem = true := by
  unfold logSeed
  (repeat' split) <;> simp [hm]

@[simp] theorem prefetchCtx_mem (core : Nat) (s : State) (ctx : Nat) : (prefetchCtx core s ctx).mem = s.mem := by
  simp [prefetchCtx]

@[simp] theorem prefetchAll_mem (s : State) : (prefetchAll s).mem = s.mem := by
  simp [prefetchAll, foldl_mem]

@[simp] theorem passTime_wf (s : State) (hm : Memory.wf s.mem = true) : Memory.wf (passTime s).mem = true := by
  simp [passTime, hm]

/-- All that an executed bundle leaves keeps memory canonical. -/
@[simp] theorem commitBundle_wf (s : State) (c : Ctx) (hw : Word) (ls : List Lane) (as : List Active)
    (hm : Memory.wf s.mem = true) : Memory.wf (commitBundle s c hw ls as).mem = true := by
  have held : Memory.wf (as.foldl (fun s a => holdUnit s a.slot a.instr) s).mem = true :=
    foldl_wf (fun s a h => by rwa [holdUnit_mem]) _ hm
  have stored := performStores_wf _ (noteReads_wf _ c as held)
  refine passTime_wf _ (wf_ite ?_ ?_)
  · rw [releaseAfterDone_mem]
    exact afterBundle_wf _ _ (by simp [stored])
  · exact afterBundle_wf _ _ (by simp [stored])

@[simp] theorem runSlots_wf (l : List Active) (s : State) (hm : Memory.wf s.mem = true) :
    Ensures (runSlots l s) (fun t => Memory.wf t.mem = true) := by
  induction l generalizing s with
  | nil => exact ensures_ok.mpr hm
  | cons a l ih =>
    unfold runSlots
    cases h : slotEffect a.instr s with
    | ok t => exact ih t (slotEffect_wf _ s hm t h)
    | error e => exact ensures_error

@[simp] theorem beginBundle_mem (s : State) (core ctx : Nat) : (beginBundle s core ctx).mem = s.mem := by
  simp [beginBundle]

@[simp] theorem noteIssue_mem (s : State) (core ctx : Nat) (ready : List Nat) :
    (noteIssue s core ctx ready).mem = s.mem := by
  simp [noteIssue, foldl_mem]

@[simp] theorem settleOwner_mem (s : State) (core ctx own : Nat) (ready : List Nat) :
    (settleOwner s core ctx own ready).mem = s.mem := by
  simp [settleOwner]

@[simp] theorem idleCycle_mem (s : State) (core : Nat) : (idleCycle s core).mem = s.mem := by
  simp [idleCycle]

@[simp] theorem idleOthers_mem (s : State) (core : Nat) : (idleOthers s core).mem = s.mem := by
  simp [idleOthers, foldl_mem]

@[simp] theorem settleIssue_mem (s : State) (core ctx own : Nat) (ready : List Nat) :
    (settleIssue s core ctx own ready).mem = s.mem := by
  simp [settleIssue]

/-- However an attempt to issue ends, memory is canonical. -/
def Attempt.keeps : Attempt → Prop
  | .held t => Memory.wf t.mem = true
  | .went r => Next r (fun t => Memory.wf t.mem = true)

theorem stopAt_keeps (s : State) (t : TrapInfo) (hm : Memory.wf s.mem = true) : (stopAt s t).keeps :=
  next_next.mpr (takeTrap_wf _ _ _ _ _ _ _ (useWalks_wf _ _ _ _ _ hm))

theorem issueFetched_keeps (s0 s : State) (hw : Word) (ws : List Word) (h0 : Memory.wf s0.mem = true)
    (hm : Memory.wf s.mem = true) : (issueFetched s0 s hw ws).keeps := by
  unfold issueFetched
  dsimp only
  split
  · exact h0
  · split
    · exact h0
    · exact next_fault
    · exact h0
    · split
      · exact stopAt_keeps s _ hm
      · split
        · rename_i h
          split
          · exact h0
          · exact next_next.mpr (commitBundle_wf _ _ _ _ _ (runSlots_wf _ s hm _ h))
        · exact stopAt_keeps s _ hm
        · exact h0
        · exact next_fault
        · exact h0

theorem issueWords_keeps (s0 s : State) (hw : Word) (h0 : Memory.wf s0.mem = true) (hm : Memory.wf s.mem = true) :
    (issueWords s0 s hw).keeps := by
  unfold issueWords
  dsimp only
  split
  · exact stopAt_keeps s _ hm
  · exact next_fault
  · exact h0
  · rename_i h
    exact issueFetched_keeps s0 _ hw _ h0 (fetchWords_wf s _ _ _ hm _ h)

theorem issueAt_keeps (s0 s : State) (h0 : Memory.wf s0.mem = true) (hm : Memory.wf s.mem = true) : (issueAt s0 s).keeps := by
  unfold issueAt
  dsimp only
  split
  · exact next_next.mpr (targetTrap_wf _ _ _ _ hm)
  · split
    · exact stopAt_keeps s _ hm
    · exact next_fault
    · exact h0
    · rename_i h
      have fetched := fetchWord_wf s _ _ hm _ h
      split
      · split
        · exact next_next.mpr (targetTrap_wf _ _ _ _ fetched)
        · split
          · exact next_next.mpr fetched
          · exact issueWords_keeps s0 _ _ h0 fetched
      · split
        · exact stopAt_keeps _ _ fetched
        · exact issueWords_keeps s0 _ _ h0 fetched

@[simp] theorem execBundleIssue_wf (core ctx : Nat) (s : State) (hm : Memory.wf s.mem = true) :
    Next (execBundleIssue core ctx s) (fun t => Memory.wf t.mem = true) := by
  unfold execBundleIssue
  have begun := issueAt_keeps s (beginBundle s core ctx) hm (by simpa using hm)
  split
  · split
    · rename_i h
      rw [h] at begun
      exact next_next.mpr begun
    · rename_i h
      rw [h] at begun
      dsimp only
      split
      · exact next_next.mpr hm
      · split
        · exact next_next.mpr (by simpa using next_next.mp begun)
        · exact begun
  · exact next_next.mpr hm

/-! ### Service -/

@[simp] theorem dropSave_wf (s : State) (core ctx : Nat) (hm : Memory.wf s.mem = true) :
    Memory.wf (dropSave s core ctx).mem = true := by
  unfold dropSave
  dsimp only
  (repeat' split) <;> simp [hm]

@[simp] theorem execPendingStop_wf (core ctx : Nat) (s : State) (hm : Memory.wf s.mem = true) :
    Next (execPendingStop core ctx s) (fun t => Memory.wf t.mem = true) := by
  unfold execPendingStop
  dsimp only
  split
  · split
    · exact next_next.mpr hm
    · exact next_next.mpr (takeTrap_wf _ _ _ _ _ _ _ (dropSave_wf _ _ _ (by simpa using hm)))
  · exact next_next.mpr hm

@[simp] theorem takeWork_mem (s : State) (core : Nat) (w : Service) : (takeWork s core w).mem = s.mem := by
  simp [takeWork]

@[simp] theorem startHandler_mem (s : State) (core k : Nat) (rcd : BitVec 512) :
    (startHandler s core k rcd).mem = s.mem := by
  simp [startHandler]

@[simp] theorem execHandlerStart_wf (core : Nat) (s : State) (hm : Memory.wf s.mem = true) :
    Next (execHandlerStart core s) (fun t => Memory.wf t.mem = true) := by
  unfold execHandlerStart
  split
  · exact next_next.mpr hm
  · split
    · exact next_next.mpr hm
    · split
      · exact next_next.mpr hm
      · split
        · exact next_next.mpr hm
        · split
          · rename_i h
            exact next_next.mpr (by simpa using writeRecord_wf s _ _ _ hm _ h)
          · exact next_next.mpr (by simpa using hm)

@[simp] theorem freeCtx_mem (s : State) (core ctx : Nat) : (freeCtx s core ctx).mem = s.mem := by
  simp [freeCtx]

@[simp] theorem countTask_mem (s : State) (lid n cluster : Nat) : (countTask s lid n cluster).mem = s.mem := by
  unfold countTask
  (repeat' split) <;> simp

@[simp] theorem endHandler_wf (s : State) (core k : Nat) (code : Option (BitVec 16)) (hm : Memory.wf s.mem = true) :
    Memory.wf (endHandler s core k code).mem = true := by
  unfold endHandler
  dsimp only
  (repeat' split) <;> simp [hm]

@[simp] theorem execTaskComplete_wf (core ctx : Nat) (s : State) (hm : Memory.wf s.mem = true) :
    Next (execTaskComplete core ctx s) (fun t => Memory.wf t.mem = true) := by
  unfold execTaskComplete
  dsimp only
  (repeat' split) <;> simp [hm]

@[simp] theorem execPrewaitExpiry_wf (core ctx : Nat) (s : State) (hm : Memory.wf s.mem = true) :
    Next (execPrewaitExpiry core ctx s) (fun t => Memory.wf t.mem = true) := by
  unfold execPrewaitExpiry
  dsimp only
  (repeat' split) <;> simp [hm]

@[simp] theorem storeImage_mem (s : State) (core ctx : Nat) (r : TaskRef) (im : Image) :
    (storeImage s core ctx r im).mem = s.mem := by
  unfold storeImage
  (repeat' split) <;> simp

@[simp] theorem holdService_mem (s : State) (core : Nat) (w : Service) (r : TaskRef) (asid : BitVec 16) :
    (holdService s core w r asid).mem = s.mem := by
  simp [holdService]

@[simp] theorem execSaveSequence_wf (core ctx : Nat) (s : State) (hm : Memory.wf s.mem = true) :
    Next (execSaveSequence core ctx s) (fun t => Memory.wf t.mem = true) := by
  unfold execSaveSequence
  dsimp only
  (repeat' split) <;> simp [hm]

@[simp] theorem moveOwner_mem (s : State) (r : TaskRef) (new : Nat × Nat) : (moveOwner s r new).mem = s.mem := by
  simp [moveOwner]

@[simp] theorem followRestore_mem (s : State) (lid : Nat) : (followRestore s lid).mem = s.mem := by
  unfold followRestore
  (repeat' split) <;> simp

@[simp] theorem askRestore_mem (s : State) (core ctx : Nat) : (askRestore s core ctx).mem = s.mem := by
  simp [askRestore]

@[simp] theorem execRestore_wf (core ctx : Nat) (s : State) (hm : Memory.wf s.mem = true) :
    Next (execRestore core ctx s) (fun t => Memory.wf t.mem = true) := by
  unfold execRestore
  split
  · split
    · exact next_next.mpr (by simpa using hm)
    · split
      · split
        · exact next_next.mpr hm
        · split
          · exact next_next.mpr (by simpa using hm)
          · split <;> exact next_next.mpr (by simpa using hm)
      · exact next_next.mpr hm
  · have freed := freeService_wf s core hm
    dsimp only
    split
    · exact next_next.mpr freed
    · split
      · exact next_next.mpr freed
      · split
        · refine next_next.mpr ?_
          rw [replayPoints_mem, replaySeed_mem]
          refine logAt_wf _ _ _ _ _ _ _ _ (logAt_wf _ _ _ _ _ _ _ _ ?_)
          rw [followRestore_mem]
          exact foldl_wf (fun s r h => spmWrite_wf s _ _ _ h) _ (by simpa using freed)
        · exact next_next.mpr freed

/-! ### Fill -/

@[simp] theorem logDispatch_wf (s : State) (f : FillReq) (hm : Memory.wf s.mem = true) :
    Memory.wf (logDispatch s f).mem = true := by
  unfold logDispatch
  split <;> simp [hm]

@[simp] theorem followFill_mem (s : State) (f : FillReq) : (followFill s f).mem = s.mem := by
  unfold followFill
  split <;> simp

@[simp] theorem execFillDispatch_wf (die : Nat) (s : State) (hm : Memory.wf s.mem = true) :
    Next (execFillDispatch die s) (fun t => Memory.wf t.mem = true) := by
  unfold execFillDispatch
  (repeat' split) <;> simp [hm]

@[simp] theorem dropEntry_mem (s : State) (die : Nat) (f : FillReq) : (dropEntry s die f).mem = s.mem := by
  simp [dropEntry]

@[simp] theorem stopWaiting_mem (s : State) (key : Nat) (w : Nat × Nat × Nat) : (stopWaiting s key w).mem = s.mem := by
  unfold stopWaiting
  split <;> simp

@[simp] theorem settleFill_wf (s : State) (die : Nat) (f : FillReq) (hm : Memory.wf s.mem = true) :
    Memory.wf (settleFill s die f).mem = true := by
  simp [settleFill, hm, foldl_wf]

@[simp] theorem failWaiter_wf (s : State) (f : FillReq) (w : (Nat × Nat × Nat) × Nat) (hm : Memory.wf s.mem = true) :
    Memory.wf (failWaiter s f w).mem = true := by
  unfold failWaiter
  (repeat' split) <;> simp [hm]

@[simp] theorem revertFill_wf (s : State) (die : Nat) (f : FillReq) (hm : Memory.wf s.mem = true) :
    Memory.wf (revertFill s die f).mem = true :=
  foldl_wf (fun s w h => failWaiter_wf s f w h) _ (changeCode_wf _ _ _ _ (by simpa using hm))

@[simp] theorem execFillSettle_wf (core : Nat) (s : State) (hm : Memory.wf s.mem = true) :
    Next (execFillSettle core s) (fun t => Memory.wf t.mem = true) := by
  unfold execFillSettle
  (repeat' split) <;> simp [hm]

@[simp] theorem execFillFail_wf (core : Nat) (s : State) (hm : Memory.wf s.mem = true) :
    Next (execFillFail core s) (fun t => Memory.wf t.mem = true) := by
  unfold execFillFail
  have cancelled := cancelSuspended_wf s core 4 hm
  split
  · split
    · dsimp only
      split
      · exact next_next.mpr (freeService_wf _ _ (revertFill_wf _ _ _ cancelled))
      · exact next_next.mpr cancelled
    · exact next_next.mpr hm
  · exact next_next.mpr hm

@[simp] theorem cancelFills_wf (s : State) (lid : Nat) (hm : Memory.wf s.mem = true) :
    Memory.wf (cancelFills s lid).mem = true :=
  foldl_wf (fun _ die h => foldl_wf (fun s f h => revertFill_wf s die f h) _ h) _ hm

/-! ### Entry -/

@[simp] theorem tenantReach_mem (s : State) (asid : BitVec 16) (va : Nat) (wr : Bool) (pas : List Nat) :
    (tenantReach s asid va wr pas).mem = s.mem := by
  simp [tenantReach, foldl_mem]

@[simp] theorem tenantRead_mem (s : State) (asid : BitVec 16) (va n : Nat) :
    Ensures (tenantRead s asid va n) (fun t => t.2.mem = s.mem) := by
  simp [tenantRead]

@[simp] theorem tenantWrite_wf (s : State) (asid : BitVec 16) (va : Nat) (b : List Byte) (note : Option
    (Nat × Nat × BitVec 256)) (hm : Memory.wf s.mem = true) :
    Ensures (tenantWrite s asid va b note) (fun t => Memory.wf t.mem = true) := by
  simp [tenantWrite, hm, foldl_wf]

@[simp] theorem setQueue_mem (s : State) (q : Nat) (x : Queue) : (setQueue s q x).mem = s.mem := by
  simp [setQueue]

@[simp] theorem execDoorbellWrite_mem (queue : Nat) (s : State) :
    Next (execDoorbellWrite queue s) (fun t => t.mem = s.mem) := by
  unfold execDoorbellWrite
  dsimp only
  split
  · exact next_next.mpr rfl
  · split
    · exact next_next.mpr rfl
    · split
      · exact next_next.mpr rfl
      · rename_i h
        have read := tenantRead_mem s _ _ _ _ h
        split <;> exact next_next.mpr read

theorem readRecordAt_mem (s : State) (asid : BitVec 16) (e : BitVec 256) (r : Record × State)
    (h : readRecordAt s asid e = some r) : r.2.mem = s.mem := by
  unfold readRecordAt at h
  dsimp only at h
  split at h
  · cases h
  · split at h
    · cases h
    · rename_i h1
      split at h
      · cases h
      · split at h
        · cases h
        · rename_i h2
          cases h
          exact (tenantRead_mem _ _ _ _ _ h2).trans (tenantRead_mem _ _ _ _ _ h1)

@[simp] theorem validated_mem (s : State) (queue i : Nat) (e : BitVec 256) : (validated s queue i e).2.mem = s.mem := by
  unfold validated
  dsimp only
  split
  · rfl
  · rename_i h
    have read := readRecordAt_mem s _ e _ h
    split <;> exact read

@[simp] theorem execLaunchValidate_mem (queue : Nat) (s : State) :
    Next (execLaunchValidate queue s) (fun t => t.mem = s.mem) := by
  unfold execLaunchValidate
  dsimp only
  split
  · exact next_next.mpr rfl
  · split
    · exact next_next.mpr rfl
    · rename_i h
      exact next_next.mpr ((validated_mem _ _ _ _).trans (tenantRead_mem s _ _ _ _ h))

/-! ### Phase -/

@[simp] theorem setLaunch_mem (s : State) (lid : Nat) (l : Launch) : (setLaunch s lid l).mem = s.mem := by
  simp [setLaunch]

@[simp] theorem clearCore_wf (s : State) (core : Nat) (hm : Memory.wf s.mem = true) :
    Memory.wf (clearCore s core).mem = true := memClear_wf _ _ hm

@[simp] theorem loadCore_mem (h : BitVec 512) (s : State) (core : Nat) : (loadCore h s core).mem = s.mem := by
  simp [loadCore]

@[simp] theorem resetPins_mem (s : State) (part : BitVec 16) : (resetPins s part).mem = s.mem := by
  simp [resetPins]

@[simp] theorem resetClusters_mem (s : State) (part : BitVec 16) : (resetClusters s part).mem = s.mem := by
  simp [resetClusters, foldl_mem]

@[simp] theorem readSelector_mem (s : State) (l : Launch) : (readSelector s l).2.mem = s.mem := by
  unfold readSelector
  split
  · rfl
  · split
    · rfl
    · rename_i h
      exact tenantRead_mem s _ _ _ _ h

@[simp] theorem writeLogHeader_wf (s : State) (hm : Memory.wf s.mem = true) : Memory.wf (writeLogHeader s).mem = true := by
  unfold writeLogHeader
  split
  · exact hm
  · split
    · exact hm
    · exact physWrite_wf _ _ hm

@[simp] theorem beginLog_wf (s : State) (lid : Nat) (l : Launch) (hm : Memory.wf s.mem = true) :
    Memory.wf (beginLog s lid l).mem = true := by
  unfold beginLog
  split <;> simp [hm]

@[simp] theorem execLaunchStart_wf (queue : Nat) (s : State) (hm : Memory.wf s.mem = true) :
    Next (execLaunchStart queue s) (fun t => Memory.wf t.mem = true) := by
  unfold execLaunchStart
  split
  · exact next_next.mpr hm
  · split
    · exact next_next.mpr hm
    · simp [foldl_mem (loadCore_mem _), foldl_wf clearCore_wf _ hm]

@[simp] theorem logChoice_wf (s : State) (lid : Nat) (l : Launch) (cur : Nat) (hm : Memory.wf s.mem = true) :
    Memory.wf (logChoice s lid l cur).mem = true := by
  simp [logChoice, hm]

@[simp] theorem scheduleFor_mem (s : State) (lid : Nat) (l : Launch) (p : BitVec 1024) (e : SelEntry) :
    ((scheduleFor s lid l p e).2).mem = s.mem := by
  unfold scheduleFor
  split <;> simp

@[simp] theorem startStatic_wf (s : State) (lid : Nat) (l : Launch) (hm : Memory.wf s.mem = true) :
    Memory.wf (startStatic s lid l).mem = true := by
  unfold startStatic
  dsimp only
  split <;> simp [hm]

@[simp] theorem readRecords_mem (s : State) (l : Launch) (n i : Nat) :
    Ensures (readRecords s l n i) (fun t => t.2.mem = s.mem) := by
  induction n generalizing s i with
  | zero => exact ensures_ok.mpr rfl
  | succ n ih =>
    unfold readRecords
    split
    · exact ensures_error
    · rename_i h
      have read := tenantRead_mem s _ _ _ _ h
      refine ensures_ite (fun _ => (ih _ _).bind fun r hr => ensures_ok.mpr (hr.trans read)) fun _ => ensures_error

@[simp] theorem startRagged_wf (s : State) (lid : Nat) (l : Launch) (hm : Memory.wf s.mem = true) :
    Memory.wf (startRagged s lid l).mem = true := by
  unfold startRagged
  dsimp only
  split
  · exact endLaunch_wf _ _ _ hm
  · rename_i h
    have read := tenantRead_mem s _ _ _ _ h
    split
    · exact endLaunch_wf _ _ _ (read ▸ hm)
    · split
      · exact endLaunch_wf _ _ _ (read ▸ hm)
      · rename_i h
        rw [setLaunch_mem, readRecords_mem _ _ _ _ _ h, read]
        exact hm

@[simp] theorem execPhaseStart_wf (lid : Nat) (s : State) (hm : Memory.wf s.mem = true) :
    Next (execPhaseStart lid s) (fun t => Memory.wf t.mem = true) := by
  unfold execPhaseStart
  (repeat' split) <;> simp [hm]

@[simp] theorem followBind_mem (s : State) (lid : Nat) (claim : Bool) : (followBind s lid claim).mem = s.mem := by
  unfold followBind
  (repeat' split) <;> simp

@[simp] theorem clearWindow_mem (s : State) (core base size : Nat) : (clearWindow s core base size).mem = s.mem := by
  simp [clearWindow]

@[simp] theorem openTask_mem (s : State) (lid n : Nat) : (openTask s lid n).mem = s.mem := by
  unfold openTask
  (repeat' split) <;> simp

@[simp] theorem openWindow_mem (s : State) (lid : Nat) : (openWindow s lid).mem = s.mem := by
  unfold openWindow
  split <;> simp [foldl_mem]

@[simp] theorem bindTask_wf (s : State) (lid n : Nat) (l : Launch) (t : Task) (core ctx : Nat) (hm : Memory.wf s.mem = true) :
    Memory.wf (bindTask s lid n l t core ctx).mem = true := by
  simp [bindTask, hm]

@[simp] theorem execTaskBind_wf (lid : Nat) (s : State) (hm : Memory.wf s.mem = true) :
    Next (execTaskBind lid s) (fun t => Memory.wf t.mem = true) := by
  unfold execTaskBind
  (repeat' split) <;> simp [hm]

@[simp] theorem execRaggedClaim_wf (lid cluster : Nat) (s : State) (hm : Memory.wf s.mem = true) :
    Next (execRaggedClaim lid cluster s) (fun t => Memory.wf t.mem = true) := by
  unfold execRaggedClaim
  split
  · exact next_next.mpr hm
  · split
    · split
      · exact next_next.mpr hm
      · refine next_next.mpr ?_
        rw [setLaunch_mem]
        exact foldl_wf (fun s p h => logRecord_wf _ _ _ _ _ _ _ _ _ _ (by simpa using h)) _ hm
    · exact next_next.mpr hm

@[simp] theorem bindAll_wf (lid k : Nat) (s : State) (hm : Memory.wf s.mem = true) : Memory.wf
    (bindAll lid k s).mem = true := by
  induction k generalizing s with
  | zero => exact hm
  | succ k ih =>
    unfold bindAll
    split
    · exact hm
    · split
      · exact ih _ (bindTask_wf _ _ _ _ _ _ _ hm)
      · exact hm

@[simp] theorem execComputeStepClose_wf (lid : Nat) (s : State) (hm : Memory.wf s.mem = true) :
    Next (execComputeStepClose lid s) (fun t => Memory.wf t.mem = true) := by
  unfold execComputeStepClose
  (repeat' split) <;> simp [hm, foldl_wf]

@[simp] theorem execCommStepClose_mem (lid : Nat) (s : State) :
    Next (execCommStepClose lid s) (fun t => t.mem = s.mem) := by
  unfold execCommStepClose
  (repeat' split) <;> simp

/-! ### Finish -/

@[simp] theorem reclaim_mem (s : State) (p : Nat × Nat) : (reclaim s p).mem = s.mem := by
  unfold reclaim
  split <;> simp

@[simp] theorem writeSelector_wf (s : State) (l : Launch) (hm : Memory.wf s.mem = true) :
    Memory.wf (writeSelector s l).mem = true := by
  unfold writeSelector
  refine wf_ite hm ?_
  split
  · exact tenantWrite_wf _ _ _ _ _ hm _ ‹_›
  · exact hm

@[simp] theorem endLog_wf (s : State) (lid : Nat) (e : Ending) (hm : Memory.wf s.mem = true) :
    Memory.wf (endLog s lid e).mem = true := by
  unfold endLog
  dsimp only
  (repeat' split) <;> simp [hm]

@[simp] theorem writeCompletion_wf (s : State) (l : Launch) (e : Ending) (hm : Memory.wf s.mem = true) :
    Memory.wf (writeCompletion s l e).mem = true := by
  unfold writeCompletion
  dsimp only
  split
  · exact tenantWrite_wf _ _ _ _ _ hm _ ‹_›
  · exact hm

@[simp] theorem advanceConsumer_wf (s : State) (queue : Nat) (hm : Memory.wf s.mem = true) :
    Memory.wf (advanceConsumer s queue).mem = true := by
  unfold advanceConsumer
  dsimp only
  split
  · exact hm
  · split
    · rename_i h
      refine tenantWrite_wf _ _ _ _ _ ?_ _ h
      exact hm
    · exact hm

@[simp] theorem closeLaunch_wf (s : State) (lid : Nat) (l : Launch) (e : Ending) (hm : Memory.wf s.mem = true) :
    Memory.wf (closeLaunch s lid l e).mem = true := by
  have reclaimed : Memory.wf ((contextsOf s lid).foldl reclaim s).mem = true := by rwa [foldl_mem reclaim_mem]
  have logged := endLog_wf _ lid e (writeSelector_wf _ l reclaimed)
  exact advanceConsumer_wf _ _ (writeCompletion_wf _ l e logged)

@[simp] theorem discardOpen_wf (s : State) (lid : Nat) (hm : Memory.wf s.mem = true) :
    Memory.wf (discardOpen s lid).mem = true := by
  unfold discardOpen
  split <;> simp [hm]

@[simp] theorem endingStep_wf (s : State) (lid : Nat) (e : Ending) (hm : Memory.wf s.mem = true) :
    Memory.wf (endingStep s lid e).mem = true := by
  have discarded := discardOpen_wf _ lid (cancelFills_wf s lid hm)
  unfold endingStep
  dsimp only
  split
  · exact discarded
  · exact wf_ite (closeLaunch_wf _ _ _ _ discarded) discarded

@[simp] theorem execLaunchComplete_wf (lid : Nat) (s : State) (hm : Memory.wf s.mem = true) :
    Next (execLaunchComplete lid s) (fun t => Memory.wf t.mem = true) := by
  unfold execLaunchComplete
  (repeat' split) <;> simp [hm]

@[simp] theorem execLaunchEnd_wf (lid : Nat) (s : State) (hm : Memory.wf s.mem = true) :
    Next (execLaunchEnd lid s) (fun t => Memory.wf t.mem = true) := by
  unfold execLaunchEnd
  (repeat' split) <;> simp [hm]

@[simp] theorem execLaunchSuspend_mem (lid : Nat) (s : State) :
    Next (execLaunchSuspend lid s) (fun t => t.mem = s.mem) := by
  unfold execLaunchSuspend
  (repeat' split) <;> simp

@[simp] theorem loadAge_mem (h : BitVec 512) (s : State) (core : Nat) : (loadAge h s core).mem = s.mem := by
  simp [loadAge]

@[simp] theorem restoreCore_mem (k : Suspended) (s : State) (core : Nat) : (restoreCore k s core).mem = s.mem := by
  simp [restoreCore]

@[simp] theorem restoreCluster_mem (k : Suspended) (s : State) (c : Nat) : (restoreCluster k s c).mem = s.mem := by
  simp [restoreCluster]

@[simp] theorem execLaunchResume_wf (lid : Nat) (s : State) (hm : Memory.wf s.mem = true) :
    Next (execLaunchResume lid s) (fun t => Memory.wf t.mem = true) := by
  unfold execLaunchResume
  split
  · exact next_next.mpr hm
  · next l _ =>
    split
    · split
      · exact next_next.mpr hm
      · refine next_next.mpr ?_
        rw [setLaunch_mem, rehome_mem]
        dsimp only
        rw [foldl_mem (restoreCluster_mem _), foldl_mem (restoreCore_mem _), foldl_mem (loadAge_mem _)]
        exact foldl_wf clearCore_wf _ hm
    · exact next_next.mpr hm

/-! ### Power -/

@[simp] theorem refillCluster_mem (s0 : State) (die : Nat) (s : State) (c : Nat) : (refillCluster s0 die s c).mem = s.mem :=
  foldl_mem (fun s n => withCore_mem s n _) _ s

@[simp] theorem execTollRefill_mem (s : State) : Next (execTollRefill s) (fun t => t.mem = s.mem) := by
  unfold execTollRefill
  split
  · exact next_next.mpr rfl
  · refine next_next.mpr ?_
    rw [foldl_mem settleToll_mem]
    exact (foldl_mem (refillCluster_mem s 1) _ _).trans (foldl_mem (refillCluster_mem s 0) _ s)

@[simp] theorem setClock_mem (r : EpochReadings) (s : State) (p : Nat × Nat) : (setClock r s p).mem = s.mem := by
  simp [setClock]

@[simp] theorem setReadings_mem (r : EpochReadings) (die : Nat) (powers : List Nat) (s : State) :
    (setReadings r die powers s).mem = s.mem := by
  simp [setReadings]

@[simp] theorem afterReset_wf (s : State) : Memory.wf (afterReset s).mem = true := rfl

@[simp] theorem execThermalTrip_wf (s : State) : Next (execThermalTrip s) (fun t => Memory.wf t.mem = true) :=
  next_next.mpr (afterReset_wf s)

@[simp] theorem execPowerOnReset_wf (s : State) : Next (execPowerOnReset s) (fun t => Memory.wf t.mem = true) := by
  simp [execPowerOnReset]

@[simp] theorem setEpoch_mem (r : EpochReadings) (s : State) : (setEpoch r s).mem = s.mem := by
  simp [setEpoch, foldl_mem]

@[simp] theorem execClockEpoch_wf (r : EpochReadings) (s : State) (hm : Memory.wf s.mem = true) :
    Next (execClockEpoch r s) (fun t => Memory.wf t.mem = true) := by
  unfold execClockEpoch
  (repeat' split) <;> simp [hm]

@[simp] theorem extend_mem (s : State) (k : Nat) (component : List Byte) : (extend s k component).mem = s.mem := by
  simp [extend]

@[simp] theorem execPowerOnComplete_mem (f : PowerOnFindings) (s : State) :
    Next (execPowerOnComplete f s) (fun t => t.mem = s.mem) := by
  unfold execPowerOnComplete
  split <;> simp

@[simp] theorem execFirmwareAuth_mem (s : State) : Next (execFirmwareAuth s) (fun t => t.mem = s.mem) := by
  unfold execFirmwareAuth
  dsimp only
  (repeat' split) <;> simp

@[simp] theorem execSpmUnitGate_wf (core u : Nat) (s : State) (hm : Memory.wf s.mem = true) :
    Next (execSpmUnitGate core u s) (fun t => Memory.wf t.mem = true) := by
  unfold execSpmUnitGate
  dsimp only
  split
  · refine next_next.mpr ?_
    rw [withCore_mem]
    exact memClear_wf _ _ (dropSlots_wf s _ _ _ hm)
  · exact next_next.mpr hm

@[simp] theorem execSpmUnitWake_wf (core u : Nat) (s : State) (hm : Memory.wf s.mem = true) :
    Next (execSpmUnitWake core u s) (fun t => Memory.wf t.mem = true) := by
  unfold execSpmUnitWake
  dsimp only
  split
  · split
    · refine next_next.mpr ?_
      rw [withCore_mem]
      exact memClear_wf _ _ hm
    · exact next_next.mpr hm
  · exact next_next.mpr hm

@[simp] theorem execTraceFreeze_mem (core : Nat) (s : State) : Next (execTraceFreeze core s) (fun t => t.mem = s.mem) := by
  unfold execTraceFreeze
  split <;> simp

/-! ### Manage -/

@[simp] theorem replyTo_mem (s : State) (r : Reply) : (replyTo s r).mem = s.mem := by
  simp [replyTo]

theorem whenOperational_wf (s r : State) (hm : Memory.wf s.mem = true) (hr : Memory.wf r.mem = true) :
    Next (whenOperational s r) (fun t => Memory.wf t.mem = true) := by
  unfold whenOperational
  split
  · exact next_next.mpr hr
  · split <;> simp [hm]

theorem whenOperational_mem (s r : State) (hr : r.mem = s.mem) :
    Next (whenOperational s r) (fun t => t.mem = s.mem) := by
  unfold whenOperational
  split
  · exact next_next.mpr hr
  · split <;> simp

@[simp] theorem done_mem (s : State) : (done s).mem = s.mem := by
  simp [done]

@[simp] theorem mgmtWrite_wf (s : State) (cells : List Host.Cell) (hm : Memory.wf s.mem = true) :
    Memory.wf (mgmtWrite s cells).mem = true := by
  simp [mgmtWrite, hm, foldl_wf]

@[simp] theorem writeTenant_wf (s : State) (r : AdmitRecord) (hm : Memory.wf s.mem = true) :
    Memory.wf (writeTenant s r).mem = true := mgmtWrite_wf _ _ (mgmtWrite_wf _ _ hm)

@[simp] theorem execAdmitReq_wf (r : AdmitRecord) (s : State) (hm : Memory.wf s.mem = true) :
    Next (execAdmitReq r s) (fun t => Memory.wf t.mem = true) := by
  refine whenOperational_wf s _ hm ?_
  split <;> simp [hm]

@[simp] theorem execRetire_wf (asid : BitVec 16) (s : State) (hm : Memory.wf s.mem = true) :
    Next (execRetire asid s) (fun t => Memory.wf t.mem = true) := by
  refine whenOperational_wf s _ hm (wf_ite (by simpa using hm) ?_)
  dsimp only
  split
  · rw [done_mem]
    exact mgmtWrite_wf _ _ hm
  · exact hm

@[simp] theorem execAbort_wf (cookie : BitVec 64) (s : State) (hm : Memory.wf s.mem = true) :
    Next (execAbort cookie s) (fun t => Memory.wf t.mem = true) := by
  refine whenOperational_wf s _ hm ?_
  split
  · simp [hm]
  · rw [done_mem]
    exact foldl_wf (fun s lid => endLaunch_wf s lid _) _ hm

@[simp] theorem requestSave_wf (s : State) (core ctx : Nat) (hm : Memory.wf s.mem = true) :
    Memory.wf (requestSave s core ctx).mem = true := by
  unfold requestSave
  dsimp only
  (repeat' split) <;> simp [hm]

@[simp] theorem requestCore_wf (s : State) (core : Nat) (hm : Memory.wf s.mem = true) :
    Memory.wf (requestCore s core).mem = true := foldl_wf (fun s k h => wf_ite (requestSave_wf s core k h) h) _ hm

@[simp] theorem execPreempt_wf (r : PreemptRequest) (s : State) (hm : Memory.wf s.mem = true) :
    Next (execPreempt r s) (fun t => Memory.wf t.mem = true) := by
  refine whenOperational_wf s _ hm ?_
  split
  · rw [done_mem]
    exact foldl_wf (fun s n h => requestCore_wf _ n (by simpa using h)) _ hm
  · rw [done_mem]
    exact foldl_wf (fun s n h => by simpa using h) _ hm
  · split
    · simpa using hm
    · rw [done_mem]
      exact foldl_wf (fun s p h => requestSave_wf s p.1 p.2 h) _ (by simpa using hm)

@[simp] theorem execQpset_wf (i : Nat) (e : BitVec 256) (s : State) (hm : Memory.wf s.mem = true) :
    Next (execQpset i e s) (fun t => Memory.wf t.mem = true) := by
  refine whenOperational_wf s _ hm ?_
  split
  · rw [done_mem]
    exact wf_ite (failQp_wf s _ _ hm) hm
  · simpa using hm

@[simp] theorem execWinset_mem (i : Nat) (e : BitVec 256) (s : State) : Next (execWinset i e s) (fun t => t.mem = s.mem) := by
  refine whenOperational_mem s _ ?_
  simp only [apply_ite State.mem, done_mem, replyTo_mem, ite_self]

@[simp] theorem execRgset_mem (i : Nat) (e : BitVec 384) (s : State) : Next (execRgset i e s) (fun t => t.mem = s.mem) := by
  refine whenOperational_mem s _ ?_
  simp only [apply_ite State.mem, done_mem, replyTo_mem, ite_self]

@[simp] theorem writeSpg_mem (s : State) (core : Nat) (v : Word) : (writeSpg s core v).mem = s.mem := by
  simp [writeSpg]

@[simp] theorem writeSlwg_mem (s : State) (slice : Nat) (v : Word) : (writeSlwg s slice v).mem = s.mem := by
  simp [writeSlwg]

@[simp] theorem writeLatecnt_mem (s : State) (port : Bool) (n : Nat) (v : Word) :
    (writeLatecnt s port n v).mem = s.mem := by
  simp [writeLatecnt]

@[simp] theorem writePwrctl_mem (s : State) (die : Nat) (v : Word) : (writePwrctl s die v).mem = s.mem := by
  simp [writePwrctl]

@[simp] theorem writeDstat_mem (s : State) (v : Word) : (writeDstat s v).mem = s.mem := by
  simp [writeDstat]

@[simp] theorem writeCtl_mem (s : State) (core crn : Nat) (v : Word) : (writeCtl s core crn v).mem = s.mem := by
  simp [writeCtl]

@[simp] theorem writeReg_mem (s : State) (r : MgmtReg) (v : Word) : (writeReg s r v).mem = s.mem := by
  unfold writeReg
  split <;> simp

@[simp] theorem execRegrd_mem (r : MgmtReg) (s : State) : Next (execRegrd r s) (fun t => t.mem = s.mem) := by
  unfold execRegrd
  split
  · simp
  · exact whenOperational_mem s _ (by simp)

@[simp] theorem execRegwr_mem (r : MgmtReg) (v : BitVec 64) (s : State) :
    Next (execRegwr r v s) (fun t => t.mem = s.mem) := by
  refine whenOperational_mem s _ ?_
  rw [apply_ite State.mem, done_mem, writeReg_mem, replyTo_mem, ite_self]

@[simp] theorem execSpgWrite_mem (core : Nat) (v : BitVec 64) (s : State) :
    Next (execSpgWrite core v s) (fun t => t.mem = s.mem) := by
  refine whenOperational_mem s _ ?_
  rw [apply_ite State.mem, done_mem, writeSpg_mem, replyTo_mem, ite_self]

@[simp] theorem execSlwgWrite_mem (slice : Nat) (v : BitVec 64) (s : State) :
    Next (execSlwgWrite slice v s) (fun t => t.mem = s.mem) := by
  refine whenOperational_mem s _ ?_
  rw [apply_ite State.mem, done_mem, writeSlwg_mem, replyTo_mem, ite_self]

@[simp] theorem execLatecntClear_mem (port : Bool) (n : Nat) (v : BitVec 64) (s : State) :
    Next (execLatecntClear port n v s) (fun t => t.mem = s.mem) := by
  refine whenOperational_mem s _ ?_
  rw [apply_ite State.mem, done_mem, writeLatecnt_mem, replyTo_mem, ite_self]

@[simp] theorem execPwrctlWrite_mem (die : Nat) (v : BitVec 64) (s : State) :
    Next (execPwrctlWrite die v s) (fun t => t.mem = s.mem) := by
  refine whenOperational_mem s _ ?_
  rw [apply_ite State.mem, done_mem, writePwrctl_mem, replyTo_mem, ite_self]

@[simp] theorem execTrippedClear_mem (v : BitVec 64) (s : State) : Next (execTrippedClear v s) (fun t => t.mem = s.mem) :=
  whenOperational_mem s _ (by simp)

@[simp] theorem execTrcrd_mem (core : Nat) (s : State) : Next (execTrcrd core s) (fun t => t.mem = s.mem) :=
  whenOperational_mem s _ (replyTo_mem s _)

@[simp] theorem execFusesvn_mem (s : State) : Next (execFusesvn s) (fun t => t.mem = s.mem) := by
  simp [execFusesvn, whenOperational_mem]

@[simp] theorem execAttest_mem (nonce : BitVec 256) (s : State) : Next (execAttest nonce s) (fun t => t.mem = s.mem) := by
  unfold execAttest
  split <;> simp

@[simp] theorem execLoadfw_mem (image : List Byte) (s : State) : Next (execLoadfw image s) (fun t => t.mem = s.mem) := by
  unfold execLoadfw
  (repeat' split) <;> simp

/-! ### Schedule -/

@[simp] theorem tick_wf (s : State) (hm : Memory.wf s.mem = true) : Memory.wf (tick s).mem = true := by
  simp [tick, hm, foldl_wf]

/-! ### Dispatch and Step -/

/-- A slot's instruction settles what its effect answers. -/
theorem exec_eq_settle {i : Instr} (s : State) (hi : slotsOf i ≠ []) : exec i s = settle s (slotEffect i s) := by
  cases i
  case bundleIssue | pendingStop | taskComplete | loadDataReturn | carveComplete | tagFillDone | streamRowFetch |
      streamRowWrite | copyComplete | commandSuspend | relocChunkMove | rangeCmdComplete | chainComplete | cmxStart |
      cmxComplete | routePassStart | routePassComplete | mtxComplete | memoryPortGrant | rangeWalk | routerGrant |
      slackDecrement | flagPacketArrive | noticeArrive | acaddArrive | contribCombine | reductionComplete | fabricTimeout |
      fabricDiscard | flitRetransmit | portFailure | roceInboundWrite | roceInboundRead | roceInboundAtomic |
      roceUnsupportedOp | roceNakReceived | qpError | doorbellWrite | launchValidate | launchStart | phaseStart |
      taskBind | raggedClaim | computeStepClose | commStepClose | launchComplete | launchEnd | launchSuspend |
      launchResume | tollRefill | clockEpoch | thermalTrip | powerOnReset | powerOnComplete | firmwareAuth | handlerStart |
      prewaitExpiry | saveSequence | restore | fillDispatch | fillSettle | fillFail | spmUnitGate | spmUnitWake | wayGate |
      wayPowerUp | traceFreeze | admitReq | retire | abort | preempt | qpset | winset | rgset | regrd | regwr | spgWrite |
      slwgWrite | latecntClear | pwrctlWrite | trippedClear | trcrd | fusesvn | attest | loadfw | atomicReply |
      fabricCommandComplete | exitSaveComplete | streamBindComplete | peerAcknowledgement | congestionNotificationReceipt =>
    exact absurd rfl hi
  all_goals rfl

theorem settle_wf (s : State) (r : Except Stop State) (hr : Ensures r (fun t => Memory.wf t.mem = true))
    (hm : Memory.wf s.mem = true) : Next (settle s r) (fun t => Memory.wf t.mem = true) := by
  unfold settle
  split
  · exact next_next.mpr (hr _ rfl)
  · exact next_next.mpr (takeTrap_wf _ _ _ _ _ _ _ hm)
  · exact next_next.mpr hm
  · exact next_next.mpr (by simpa using hm)
  · exact next_fault

/-- An event keeps memory canonical. -/
theorem execEvent_wf {i : Instr} (s : State) (hi : slotsOf i = []) (hm : Memory.wf s.mem = true) :
    Next (exec i s) (fun t => Memory.wf t.mem = true) := by
  cases i
  case bundleIssue | pendingStop | taskComplete | loadDataReturn | carveComplete | tagFillDone | streamRowFetch |
      streamRowWrite | copyComplete | commandSuspend | relocChunkMove | rangeCmdComplete | chainComplete | cmxStart |
      cmxComplete | routePassComplete | mtxComplete | memoryPortGrant | rangeWalk | routerGrant | slackDecrement |
      flagPacketArrive | noticeArrive | acaddArrive | reductionComplete | fabricTimeout | fabricDiscard |
      roceInboundWrite | roceInboundRead | roceInboundAtomic | roceNakReceived | qpError | launchStart | phaseStart |
      taskBind | raggedClaim | computeStepClose | launchComplete | launchEnd | launchResume | clockEpoch | thermalTrip |
      powerOnReset | handlerStart | prewaitExpiry | saveSequence | restore | fillDispatch | fillSettle | fillFail |
      spmUnitGate | spmUnitWake | admitReq | retire | abort | preempt | qpset | atomicReply | fabricCommandComplete |
      exitSaveComplete | streamBindComplete | peerAcknowledgement =>
    simp [exec, hm]
  case routePassStart | contribCombine | flitRetransmit | portFailure | roceUnsupportedOp | doorbellWrite |
      launchValidate | commStepClose | launchSuspend | tollRefill | powerOnComplete | firmwareAuth | wayGate | wayPowerUp |
      traceFreeze | winset | rgset | regrd | regwr | spgWrite | slwgWrite | latecntClear | pwrctlWrite | trippedClear |
      trcrd | fusesvn | attest | loadfw | congestionNotificationReceipt =>
    exact Next.wf (by simp [exec]) hm
  all_goals exact absurd hi (by simp [slotsOf])

theorem exec_wf (i : Instr) (s : State) (hm : Memory.wf s.mem = true) : Next (exec i s)
    (fun t => Memory.wf t.mem = true) := by
  by_cases hi : slotsOf i = []
  · exact execEvent_wf s hi hm
  · rw [exec_eq_settle s hi]
    exact settle_wf s _ (slotEffect_wf i s hm) hm

theorem step_wf (s : State) (hm : Memory.wf s.mem = true) : Next (step s) (fun t => Memory.wf t.mem = true) := by
  unfold step
  split
  · exact exec_wf _ _ hm
  · split
    · exact exec_wf _ s hm
    · exact next_next.mpr (tick_wf s hm)

/-- Settles O58: every event and every slot's effect keeps memory canonical. -/
theorem stepKeepsMemoryCanonical : Obligations.StepKeepsMemoryCanonical := fun s t hs ht => step_wf s hs t ht

end Sys2Proof.Machine

namespace Sys2Proof.Machine

/-! ## The frame of the tile/vector unit (O47) -/

section Checked

/-- Whatever an instruction's checks answer has property `P`; a stop that wakes a scratchpad unit wakes one of its own core. -/
def Checked {α : Type} (s : State) (x : Except Stop α) (P : α → Prop) : Prop :=
  match x with
  | .ok a => P a
  | .error (.wake n _) => n = s.cur.1
  | .error _ => True

variable {α β : Type} {s : State} {P : α → Prop} {Q : β → Prop}

@[simp] theorem checked_ok {a : α} : Checked s (.ok a) P ↔ P a := Iff.rfl

@[simp] theorem checked_hold : Checked s (.error .hold) P := trivial

@[simp] theorem checked_trapping {cause engine slot : Nat} {addr detail : Word} {index : BitVec 32} :
    Checked s (trapping cause engine slot addr detail index) P := trivial

@[simp] theorem checked_bind {x : Except Stop α} {f : α → Except Stop β} :
    Checked s (x >>= f) Q ↔ Checked s x (fun a => Checked s (f a) Q) := by
  cases x with
  | ok a => rfl
  | error e => cases e <;> rfl

@[simp] theorem checked_ite {c : Prop} [Decidable c] {x y : Except Stop α} :
    Checked s (if c then x else y) P ↔ (c → Checked s x P) ∧ (¬ c → Checked s y P) := by
  split <;> simp [*]

theorem Checked.mono {x : Except Stop α} {P' : α → Prop} (hx : Checked s x P) (h : ∀ a, P a → P' a) : Checked s x P' := by
  cases x with
  | ok a => exact h a hx
  | error e => cases e <;> exact hx

/-- A check that wakes no other core's unit leaves what its answers give. -/
theorem checked_of_answers {x : Except Stop α} (hx : Checked s x (fun _ => True)) (h : ∀ a, x = .ok a → P a) :
    Checked s x P := by
  cases x with
  | ok a => exact h a rfl
  | error e => cases e <;> exact hx

theorem checked_foldlM {σ : Type} {f : σ → α → Except Stop σ} (hf : ∀ u a, Checked s (f u a) (fun _ => True)) (l :
    List α) (u : σ) :
    Checked s (l.foldlM f u) (fun _ => True) := by
  induction l generalizing u with
  | nil => trivial
  | cons a l ih => exact checked_bind.mpr ((hf u a).mono fun u' _ => ih u')

end Checked

section Parts

variable {s : State} {α : Type} {P : α → Prop}

theorem checked_iff {x : Except Stop α} (hx : Checked s x (fun _ => True)) : Checked s x P ↔ ∀ a, x = .ok a → P a := by
  refine ⟨fun h a ha => ?_, checked_of_answers hx⟩
  subst ha
  exact h

@[simp] theorem checked_tileFree {x : Reg} {P : Unit → Prop} :
    Checked s (tileFree s x) P ↔ ∀ u, tileFree s x = .ok u → P u := checked_iff (by simp [tileFree])

@[simp] theorem checked_tileReg {engine slot : Nat} {x : Reg} {P : Nat → Prop} :
    Checked s (tileReg s engine slot x) P ↔ ∀ p, tileReg s engine slot x = .ok p → P p := checked_iff (by simp [tileReg])

@[simp] theorem checked_vecTile {x : Reg} {P : Nat → Prop} : Checked s (vecTile s x) P ↔ ∀ p, vecTile s x = .ok p → P p :=
  checked_tileReg

@[simp] theorem checked_vecTileAt {n : Nat} {P : Nat → Prop} :
    Checked s (vecTileAt s n) P ↔ ∀ p, vecTileAt s n = .ok p → P p := checked_iff (by unfold vecTileAt; split <;> simp)

@[simp] theorem checked_vecSrc {x : Reg} {P : Tile → Prop} : Checked s (vecSrc s x) P ↔ ∀ t, vecSrc s x = .ok t → P t :=
  checked_iff (by simp [vecSrc])

@[simp] theorem checked_vecRows {P : Nat → Prop} : Checked s (vecRows s) P ↔ ∀ n, vecRows s = .ok n → P n :=
  checked_iff (by simp [vecRows, rowsCheck])

@[simp] theorem checked_tagCheck {engine slot tag : Nat} {ok : Bool} {P : Unit → Prop} :
    Checked s (tagCheck engine slot tag ok) P ↔ ∀ u, tagCheck engine slot tag ok = .ok u → P u :=
  checked_iff (by simp [tagCheck, check])

@[simp] theorem checked_vecTag {t : Tile} {ok : List Nat} {P : Unit → Prop} :
    Checked s (vecTag t ok) P ↔ ∀ u, vecTag t ok = .ok u → P u := checked_tagCheck

@[simp] theorem checked_vecShape : Checked s (vecShape s) P := trivial

@[simp] theorem checked_vecIllegal {P : Unit → Prop} : Checked s (vecIllegal s) P := trivial

@[simp] theorem checked_rcwTrap {row : Nat} {w : BitVec 32} : Checked s (rcwTrap row w) P := trivial

@[simp] theorem checked_vecCount {e : Nat} {l : List Tile} {P : Nat → Prop} :
    Checked s (vecCount s e l) P ↔ ∀ n, vecCount s e l = .ok n → P n := checked_iff (by simp [vecCount])

@[simp] theorem checked_convertCount {e : Nat} {P : Nat → Prop} :
    Checked s (convertCount s e) P ↔ ∀ n, convertCount s e = .ok n → P n := checked_vecCount

@[simp] theorem checked_readS {r : Reg} {P : Word → Prop} : Checked s (readS s r) P ↔ ∀ v, readS s r = .ok v → P v :=
  checked_iff (by simp [readS])

@[simp] theorem checked_holdB {b : Reg} {bs : Bool} {P : Word → Prop} :
    Checked s (holdB s b bs) P ↔ ∀ v, holdB s b bs = .ok v → P v := checked_iff (by simp [holdB])

@[simp] theorem checked_operandB {b : Reg} {bs : Bool} {w : Word} {P : VecB → Prop} :
    Checked s (operandB s b bs w) P ↔ ∀ v, operandB s b bs w = .ok v → P v := checked_iff (by simp [operandB])

@[simp] theorem checked_tagOk {b : VecB} {ok : List Nat} {P : Unit → Prop} :
    Checked s (b.tagOk ok) P ↔ ∀ u, b.tagOk ok = .ok u → P u := checked_iff (by unfold VecB.tagOk; split <;> simp)

@[simp] theorem checked_shiftAmount {b : Reg} {imm : Imm20} {P : Int → Prop} :
    Checked s (shiftAmount s b imm) P ↔ ∀ v, shiftAmount s b imm = .ok v → P v := checked_iff (by simp [shiftAmount])

@[simp] theorem checked_scaleCheck {engine slot : Nat} {t : Tile} {rows : List Nat} {lo n : Nat} {P : Unit → Prop} :
    Checked s (scaleCheck engine slot t rows lo n) P ↔ ∀ u, scaleCheck engine slot t rows lo n = .ok u → P u :=
  checked_iff (by unfold scaleCheck; split <;> simp)

@[simp] theorem checked_partCheck {small big part : Nat} {P : Unit → Prop} :
    Checked s (partCheck s small big part) P ↔ ∀ u, partCheck s small big part = .ok u → P u :=
  checked_iff (by simp [partCheck])

@[simp] theorem checked_statesOk {t : Tile} {rows : List Nat} {P : Unit → Prop} :
    Checked s (statesOk t rows) P ↔ ∀ u, statesOk t rows = .ok u → P u := checked_iff (by unfold statesOk; split <;> simp)

@[simp] theorem checked_runFree {a : Reg} {n : Nat} {P : Unit → Prop} :
    Checked s (runFree s a n) P ↔ ∀ u, runFree s a n = .ok u → P u := by
  refine checked_iff ?_
  induction n with
  | zero => trivial
  | succ n ih =>
    refine checked_bind.mpr (ih.mono fun _ _ => ?_)
    split <;> simp

@[simp] theorem checked_runTiles {a : Reg} {n : Nat} {P : List Nat → Prop} :
    Checked s (runTiles s a n) P ↔ ∀ l, runTiles s a n = .ok l → P l := by
  refine checked_iff ?_
  unfold runTiles
  induction List.range n with
  | nil => trivial
  | cons k l ih => simpa [List.mapM_cons] using fun p _ => ih

@[simp] theorem checked_aligned {engine slot n : Nat} {addr : Word} {P : Unit → Prop} :
    Checked s (aligned engine slot addr n) P ↔ ∀ u, aligned engine slot addr n = .ok u → P u :=
  checked_iff (by simp [aligned, check])

@[simp] theorem checked_spmLocal {engine slot off n : Nat} {P : Unit → Prop} :
    Checked s (spmLocal s engine slot off n) P ↔ ∀ u, spmLocal s engine slot off n = .ok u → P u := by
  refine checked_iff ?_
  have bounds : Checked s (spmBounds engine slot off n) (fun _ => True) := by simp [spmBounds, check]
  unfold spmLocal
  split
  all_goals
    cases gatedUnit (here s) off n with
    | some u => exact rfl
    | none => exact checked_bind.mpr (checked_ok.mpr (checked_bind.mpr (bounds.mono fun _ _ => trivial)))

end Parts

/-- A VEC instruction of fixed latency may have a write on its way to this part of the registers (R142, R257). -/
def VecPart (i : Instr) (s : State) (p : Nat × Nat × Nat) : Prop :=
  (∃ d ∈ tileDest i, ∃ x, TileAt s d x ∧ 5 ≤ p.1 ∧ p.1 ≤ 8 ∧ p.2.1 = x) ∨
  (∃ d ∈ scalarDest i, p = (0, d.toNat, 0)) ∨
  (∃ q ∈ otherDest i, p = (1, q.number, 0) ∨ p = (4, q.number, 0)) ∨
  (∃ a n, i = .ruleSet a n ∧ p = (10, n.toNat, 0))

/-- A write to a row, a control word, the tag or the superblock scales of tile register `x`. -/
def Write.OfTile (x : Nat) (w : Write) : Prop := 5 ≤ w.part.1 ∧ w.part.1 ≤ 8 ∧ w.part.2.1 = x

section OfTile

variable {x : Nat}

@[simp] theorem ofTile_tileRow {i : Nat} {r : Row} {sc : BitVec 128} :
    (Write.tileRow x i r sc).OfTile x := by simp [Write.OfTile, Write.part]

@[simp] theorem ofTile_tileRcw {i : Nat} {w : BitVec 32} :
    (Write.tileRcw x i w).OfTile x := by simp [Write.OfTile, Write.part]

@[simp] theorem ofTile_tileTag {t : BitVec 4} : (Write.tileTag x t).OfTile x := by simp [Write.OfTile, Write.part]

@[simp] theorem ofTile_tileSsc {v : BitVec 128} : (Write.tileSsc x v).OfTile x := by simp [Write.OfTile, Write.part]

/-- Every write of a list is to tile register `x`. -/
def AllOfTile (x : Nat) (l : List Write) : Prop := ∀ w ∈ l, w.OfTile x

@[simp] theorem allOfTile_nil : AllOfTile x [] := by simp [AllOfTile]

@[simp] theorem allOfTile_cons {w : Write} {l : List Write} : AllOfTile x (w :: l) ↔ w.OfTile x ∧ AllOfTile x l := by
  simp [AllOfTile]

@[simp] theorem allOfTile_append {k l : List Write} : AllOfTile x (k ++ l) ↔ AllOfTile x k ∧ AllOfTile x l := by
  simp [AllOfTile, or_imp, forall_and]

@[simp] theorem allOfTile_ite {c : Prop} [Decidable c] {k l : List Write} :
    AllOfTile x (if c then k else l) ↔ (c → AllOfTile x k) ∧ (¬ c → AllOfTile x l) := by
  split <;> simp [*]

theorem allOfTile_map {α : Type} {f : α → Write} {l : List α} (h : ∀ a, (f a).OfTile x) : AllOfTile x (l.map f) := by
  simp [AllOfTile, h]

theorem allOfTile_filterMap {α : Type} {f : α → Option Write} {l : List α} (h : ∀ a w, f a = some w → w.OfTile x) :
    AllOfTile x (l.filterMap f) := by
  intro w hw
  obtain ⟨a, -, hw⟩ := List.mem_filterMap.mp hw
  exact h a w hw

theorem allOfTile_flatMap {α : Type} {f : α → List Write} {l : List α} (h : ∀ a, AllOfTile x (f a)) : AllOfTile x
    (l.flatMap f) := by
  intro w hw
  obtain ⟨a, -, hw⟩ := List.mem_flatMap.mp hw
  exact h a w hw

@[simp] theorem allOfTile_elementWrites {old src : Tile} {w first : Nat} {l : List (Nat × List Nat)} :
    AllOfTile x (elementWrites x old src w first l) := allOfTile_flatMap (by simp)

@[simp] theorem allOfTile_scaledWrites {old src : Tile} {w first : Nat} {sc : Nat → BitVec 128} {l : List
    (Nat × List Nat)} :
    AllOfTile x (scaledWrites x old src w first sc l) := allOfTile_flatMap (by simp)

@[simp] theorem allOfTile_convertWrites {old src : Tile} {dt first : Nat} {l : List (Nat × List Nat)} :
    AllOfTile x (convertWrites x old src dt first l) := by
  unfold convertWrites
  split <;> simp

@[simp] theorem allOfTile_moveRow {i k : Nat} {a : Tile} : AllOfTile x (moveRow x i a k) := by simp [moveRow]

end OfTile

theorem frame_tile {i : Instr} {s : State} {d : Reg} {x lat : Nat} {u : Unit} {l : List Write} (hd : d ∈ tileDest i)
    (hf : tileFree s d = .ok u) (hx : vecTile s d = .ok x) (hl : AllOfTile x l) : Frame s (results s lat l)
    (VecPart i s) := by
  refine frame_results s lat l fun w hw => .inl ⟨d, hd, x, tileAt_of hf hx, ?_⟩
  exact hl w hw

/-- The same after generator states were drawn. -/
theorem frame_tile_after {i : Instr} {s t : State} {d : Reg} {x lat : Nat} {u : Unit} {l : List Write} (hd :
    d ∈ tileDest i)
    (hf : tileFree s d = .ok u) (hx : vecTile s d = .ok x) (ht : Frame s t (VecPart i s)) (hc : t.cur = s.cur)
    (hl : AllOfTile x l) : Frame s (results t lat l) (VecPart i s) := by
  refine frame_trans ht (frame_results t lat l fun w hw => .inl ⟨d, hd, x, tileAt_of hf hx, ?_⟩) hc
  exact hl w hw

section Instructions

variable {i : Instr} {d : Reg} (s : State)

/-- What an instruction's checks answer frames the parts it names. -/
def Framed (i : Instr) (s : State) (x : Except Stop State) : Prop := Checked s x (fun t => Frame s t (VecPart i s))

theorem framed_vecUnary (hd : d ∈ tileDest i) (f : Val → Val) (base : Nat) (a : Reg) (pm : BitVec 3) (r : Rnd)
    (dt : BitVec 4) : Framed i s (vecUnary f base d a pm r dt s) := by
  simp [Framed, vecUnary]
  intros
  exact frame_tile_after hd ‹_› ‹_› (frame_roundRows ..) (roundRows_cur ..) (by simp)

theorem framed_vecBinary (hd : d ∈ tileDest i) (f : Val → Val → Val → Val) (a b : Reg) (c : Option Reg) (pm :
    BitVec 3) (r : Rnd)
    (bs : Bool) (dt : BitVec 4) : Framed i s (vecBinary f d a b c pm r bs dt s) := by
  simp [Framed, vecBinary]
  intros
  exact frame_tile_after hd ‹_› ‹_› (frame_roundRows ..) (roundRows_cur ..) (by simp)

theorem framed_vecInt (hd : d ∈ tileDest i) (f : Nat → Nat → Nat → Nat) (a b : Reg) (pm : BitVec 3) (bs : Bool) :
    Framed i s (vecInt f d a b pm bs s) := by
  simp [Framed, vecInt]
  intros
  exact frame_tile hd ‹_› ‹_› (by simp)

theorem framed_convertRows {x : Nat} (hd : d ∈ tileDest i) (hf : tileFree s d = .ok ()) (hx : vecTile s d = .ok x)
    (ta : Tile)
    (pm : BitVec 3) (rows : Nat) (r : Rnd) (dt lo first n lat : Nat) (nosc : Bool) :
    Framed i s (convertRows s x ta pm rows r dt lo first n lat nosc) := by
  simp [Framed, convertRows]
  constructor
  all_goals
    intros
    exact frame_tile_after hd hf hx (frame_roundRows ..) (roundRows_cur ..) allOfTile_convertWrites

theorem framed_vcmp (hd : d ∈ tileDest i) (a b : Reg) (pm : BitVec 3) (bs : Bool) (cond : BitVec 3) :
    Framed i s (slotVcmp d a b pm bs cond s) := by
  simp [Framed, slotVcmp]
  intros
  exact frame_tile hd ‹_› ‹_› (by simp)

theorem framed_vsel (hd : d ∈ tileDest i) (a b c : Reg) (pm : BitVec 3) :
    Framed i s (slotVsel d a b c pm s) := by
  simp [Framed, slotVsel]
  intros
  exact frame_tile hd ‹_› ‹_› (by simp)

theorem framed_vidot (hd : d ∈ tileDest i) (a b c : Reg) (pm : BitVec 3) (brow : Bool) (k : BitVec 4) :
    Framed i s (slotVidot d a b c pm brow k s) := by
  simp [Framed, slotVidot]
  intros
  exact frame_tile hd ‹_› ‹_› (by simp)

theorem framed_vbcastRow (hd : d ∈ tileDest i) (a : Reg) (pm : BitVec 3) (k : BitVec 6) :
    Framed i s (slotVbcastRow d a pm k s) := by
  simp [Framed, slotVbcastRow, vecMove]
  intros
  exact frame_tile hd ‹_› ‹_› (by simp [allOfTile_flatMap])

theorem framed_vbcastEl (hd : d ∈ tileDest i) (a : Reg) (pm : BitVec 3) (e : BitVec 11) :
    Framed i s (slotVbcastEl d a pm e s) := by
  simp [Framed, slotVbcastEl]
  intros
  exact frame_tile hd ‹_› ‹_› (by simp)

theorem framed_vtr (hd : d ∈ tileDest i) (a : Reg) (c : BitVec 3) :
    Framed i s (slotVtr d a c s) := by
  simp [Framed, slotVtr]
  intros
  exact frame_tile hd ‹_› ‹_› (by simp [allOfTile_map])

theorem framed_vsh (hd : d ∈ tileDest i) (a b : Reg) (pm : BitVec 3) (rot : Bool) (imm : Imm20) :
    Framed i s (slotVsh d a b pm rot imm s) := by
  simp [Framed, slotVsh]
  intros
  exact frame_tile hd ‹_› ‹_› (by simp)

theorem framed_vshRows (hd : d ∈ tileDest i) (a b : Reg) (pm : BitVec 3) (rot : Bool) (imm : Imm20) :
    Framed i s (slotVshRows d a b pm rot imm s) := by
  simp [Framed, slotVshRows, vecMove]
  intros
  refine frame_tile hd ‹_› ‹_› (allOfTile_append.mpr ⟨allOfTile_flatMap fun i => ?_, by simp⟩)
  split <;> simp

theorem framed_vperm (hd : d ∈ tileDest i) (a b : Reg) (pm : BitVec 3) : Framed i s (slotVperm d a b pm s) := by
  simp [Framed, slotVperm, vecMove]
  intros
  refine frame_tile hd ‹_› ‹_› (allOfTile_append.mpr ⟨allOfTile_flatMap fun i => ?_, by simp⟩)
  split <;> simp

theorem framed_vmov (hd : d ∈ tileDest i) (a : Reg) (pm : BitVec 3) :
    Framed i s (slotVmov d a pm s) := by
  simp [Framed, slotVmov, vecMove]
  intros
  exact frame_tile hd ‹_› ‹_› (by simp [allOfTile_flatMap])

theorem framed_vzero (hd : d ∈ tileDest i) (pm : BitVec 3) (tag : BitVec 4) :
    Framed i s (slotVzero d pm tag s) := by
  simp [Framed, slotVzero]
  intros
  exact frame_tile hd ‹_› ‹_› (by simp [allOfTile_map])

theorem framed_rcwSet (hd : d ∈ tileDest i) (a : Reg) (pm : BitVec 3) :
    Framed i s (slotRcwSet d a pm s) := by
  simp [Framed, slotRcwSet, setWords]
  intros
  exact frame_tile hd ‹_› ‹_› (by simp [allOfTile_map])

theorem framed_rcwSetSt (hd : d ∈ tileDest i) (pm state : BitVec 3) :
    Framed i s (slotRcwSetSt d pm state s) := by
  simp [Framed, slotRcwSetSt, setWords]
  intros
  exact frame_tile hd ‹_› ‹_› (by simp [allOfTile_map])

theorem framed_rcwSetCp (hd : d ∈ tileDest i) (a : Reg) (pm : BitVec 3) :
    Framed i s (slotRcwSetCp d a pm s) := by
  simp [Framed, slotRcwSetCp, setWords]
  intros
  exact frame_tile hd ‹_› ‹_› (by simp [allOfTile_map])

theorem framed_vcvt (hd : d ∈ tileDest i) (a : Reg) (pm : BitVec 3) (r : Rnd) (dt : BitVec 4) :
    Framed i s (slotVcvt d a pm r dt s) := by
  simp [Framed, slotVcvt]
  intros
  exact framed_convertRows s hd ‹_› ‹_› ..

theorem framed_cvtPk (hd : d ∈ tileDest i) (a : Reg) (pm part : BitVec 3) (r : Rnd) (dt : BitVec 4) :
    Framed i s (slotCvtPk d a pm r dt part s) := by
  simp [Framed, slotCvtPk]
  intros
  exact framed_convertRows s hd ‹_› ‹_› ..

theorem framed_unpackPart (hd : d ∈ tileDest i) (ok : List Nat) (lat : Nat) (nosc : Bool) (a : Reg) (pm part :
    BitVec 3) (r : Rnd)
    (dt : BitVec 4) : Framed i s (unpackPart ok lat nosc d a pm r dt part s) := by
  simp [Framed, unpackPart]
  intros
  exact framed_convertRows s hd ‹_› ‹_› ..

theorem framed_vq (hd : d ∈ tileDest i) (a b : Reg) (pm part : BitVec 3) (r : Rnd) (dt : BitVec 4) :
    Framed i s (slotVq d a b pm r dt part s) := by
  simp [Framed, slotVq]
  intros
  exact frame_tile_after hd ‹_› ‹_› (frame_drawSeeds ..) (drawSeeds_cur ..) (by simp [allOfTile_flatMap])

theorem framed_vred (hd : d ∈ tileDest i) (a : Reg) (pm : BitVec 3) (r : Rnd) (dt : BitVec 4) (op : BitVec 2) (e :
    BitVec 11) :
    Framed i s (slotVred d a pm r dt op e s) := by
  simp [Framed, slotVred]
  intros
  constructor
  all_goals
    intros
    exact frame_tile_after hd ‹_› ‹_› (frame_reduceAll ..) (reduceAll_cur ..) (by simp)

theorem framed_vcred (hd : d ∈ tileDest i) (a : Reg) (pm : BitVec 3) (r : Rnd) (dt : BitVec 4) (op : BitVec 2) (row :
    BitVec 6) :
    Framed i s (slotVcred d a pm r dt op row s) := by
  simp [Framed, slotVcred]
  intros
  constructor
  all_goals
    intros
    exact frame_tile_after hd ‹_› ‹_› (frame_reduceAll ..) (reduceAll_cur ..) (by simp)

theorem framed_fmtTag (hd : d ∈ tileDest i) (tag : BitVec 4) : Framed i s (slotFmtTag d tag s) := by
  simp [Framed, slotFmtTag]
  intros
  exact frame_result s 1 _ (.inl ⟨d, hd, _, tileAt_of ‹_› ‹_›, ofTile_tileTag⟩)

theorem framed_rcwUpd (hd : d ∈ tileDest i) (a : Reg) (pm rule : BitVec 3) (mode : BitVec 2) (col : BitVec 10) :
    Framed i s (slotRcwUpd d a pm rule mode col s) := by
  simp [Framed, slotRcwUpd]
  intros
  split
  · trivial
  · simp
    intros
    refine frame_tile hd ‹_› ‹_› (allOfTile_filterMap fun i w hw => ?_)
    split at hw
    · obtain ⟨st, -, rfl⟩ := Option.map_eq_some_iff.mp hw
      exact ofTile_tileRcw
    · cases hw

theorem framed_rcwCnt (a : Reg) (pm : BitVec 3) (acc : Bool) (n : BitVec 6) :
    Framed (.rcwCnt d a pm acc n) s (slotRcwCnt d a pm acc n s) := by
  simp [Framed, slotRcwCnt]
  intros
  refine (checked_foldlM (fun _ _ => by simp) _ _).mono fun _ _ => (checked_foldlM (fun _ _ => by simp) _ _).mono fun _ _ => ?_
  refine frame_results s 4 _ fun w hw => ?_
  rcases List.mem_pair.mp hw with rfl | rfl
  · exact .inr (.inl ⟨d, List.mem_singleton_self d, rfl⟩)
  · exact .inr (.inr (.inl ⟨.ctl 1, List.mem_singleton_self _, .inr rfl⟩))

theorem framed_rcwMask (p : BitVec 3) (a : Reg) (set : Byte) : Framed (.rcwMask p a set) s (slotRcwMask p a set s) := by
  simp [Framed, slotRcwMask]
  intros
  exact frame_result s 3 _ (.inr (.inr (.inl ⟨_, List.mem_singleton_self _, .inl rfl⟩)))

theorem framed_shp (fromReg : Bool) (a : Reg) (rows : BitVec 7) (cols : BitVec 11) :
    Framed (.shp fromReg a rows cols) s (slotShp fromReg a rows cols s) := by
  simp [Framed, slotShp]
  have written (v : Word) : Frame s (result s 2 (.ctl 0 v)) (VecPart (.shp fromReg a rows cols) s) :=
    frame_result s 2 _ (.inr (.inr (.inl ⟨_, List.mem_singleton_self _, .inr rfl⟩)))
  simp [written]

theorem framed_ruleSet (a : Reg) (n : BitVec 3) : Framed (.ruleSet a n) s (slotRuleSet a n s) := by
  simp [Framed, slotRuleSet]
  intros
  exact frame_result s 6 _ (.inr (.inr (.inr ⟨a, n, rfl, rfl⟩)))

/-- The tile register after `d` is a register of the window: there is one, and it has its number. -/
theorem vecTileAt_succ {s : State} {d : Reg} {p : Nat} (h : vecTileAt s (d.toNat + 1) = .ok p) :
    d.toNat < 63 ∧ vecTile s (d + 1) = .ok p := by
  unfold vecTileAt at h
  split at h
  · next hd =>
    have : BitVec.ofNatLT (d.toNat + 1) hd = d + 1 := by
      refine BitVec.eq_of_toNat_eq ?_
      rw [BitVec.toNat_ofNatLT, BitVec.toNat_add]
      exact (Nat.mod_eq_of_lt hd).symm
    exact ⟨by omega, this ▸ h⟩
  · cases h

theorem framed_vsmMerge (a : Reg) (pm : BitVec 3) (r : Rnd) : Framed (.vsmMerge d a pm r) s
    (slotVsmMerge d a pm r s) := by
  have both {t : State} {x xs lat : Nat} {u : Unit} {l : List Write} (hf : tileFree s d = .ok u) (hx : vecTile s d = .ok x)
      (hs : vecTileAt s (d.toNat + 1) = .ok xs) (hfs : d.toNat < 63 → tileFree s (d + 1) = .ok ())
      (ht : Frame s t (VecPart (.vsmMerge d a pm r) s)) (hc : t.cur = s.cur) (hl : ∀ w ∈ l, w.OfTile x ∨ w.OfTile xs) :
      Frame s (results t lat l) (VecPart (.vsmMerge d a pm r) s) := by
    obtain ⟨h63, hxs⟩ := vecTileAt_succ hs
    refine frame_trans ht (frame_results t lat l fun w hw => .inl ?_) hc
    rcases hl w hw with h | h
    · exact ⟨d, by simp [tileDest, h63], x, tileAt_of hf hx, h⟩
    · exact ⟨d + 1, by simp [tileDest, h63], xs, tileAt_of (hfs h63) hxs, h⟩
  simp [Framed, slotVsmMerge]
  intro _ hf
  constructor
  · intro h63 _ hfs _ _
    constructor
    all_goals
      intros
      refine both hf ‹_› ‹_› (fun _ => hfs) (frame_drawSeeds ..) (drawSeeds_cur ..) fun w hw => ?_
      obtain ⟨p, -, hw⟩ := List.mem_flatMap.mp hw
      rcases List.mem_pair.mp hw with rfl | rfl
      · exact .inl ofTile_tileRow
      · exact .inr ofTile_tileRow
  · intro h63 _ _
    constructor
    all_goals
      intros
      exact absurd (vecTileAt_succ ‹vecTileAt s (d.toNat + 1) = .ok _›).1 (by omega)

end Instructions

theorem framed_slotEffect {i : Instr} (s : State) (hv : .vec ∈ slotsOf i) (ht : tokenDest i = []) :
    Framed i s (slotEffect i s) := by
  cases i
  case vadd d _ _ _ _ _ _ | vsub d _ _ _ _ _ _ | vmul d _ _ _ _ _ _ | vfma d _ _ _ _ _ _ _ | vmin d _ _ _ _ _ _ |
      vmax d _ _ _ _ _ _ =>
    simp only [slotEffect, slotVadd, slotVsub, slotVmul, slotVfma, slotVmin, slotVmax]
    exact framed_vecBinary s (List.mem_singleton_self d) ..
  case vabs d _ _ _ _ | vneg d _ _ _ _ | vexp2 d _ _ _ _ | vlog2 d _ _ _ _ | vrcp d _ _ _ _ | vrsq d _ _ _ _ |
      vtanh d _ _ _ _ | vsig d _ _ _ _ | vsin d _ _ _ _ =>
    simp only [slotEffect, slotVabs, slotVneg, slotVexp2, slotVlog2, slotVrcp, slotVrsq, slotVtanh, slotVsig, slotVsin]
    exact framed_vecUnary s (List.mem_singleton_self d) ..
  case viadd d _ _ _ _ _ | vimul d _ _ _ _ _ | vand d _ _ _ _ | vor d _ _ _ _ | vxor d _ _ _ _ | vshl d _ _ _ _ |
      vshr d _ _ _ _ _ =>
    simp only [slotEffect, slotViadd, slotVimul, slotVand, slotVor, slotVxor, slotVshl, slotVshr]
    exact framed_vecInt s (List.mem_singleton_self d) ..
  case vcmp d _ _ _ _ _ => exact framed_vcmp s (List.mem_singleton_self d) ..
  case vsel d _ _ _ _ => exact framed_vsel s (List.mem_singleton_self d) ..
  case vidot d _ _ _ _ _ _ => exact framed_vidot s (List.mem_singleton_self d) ..
  case vcvt d _ _ _ _ => exact framed_vcvt s (List.mem_singleton_self d) ..
  case cvtPk d _ _ _ _ _ => exact framed_cvtPk s (List.mem_singleton_self d) ..
  case cvtUp d _ _ _ _ _ | vdq d _ _ _ _ _ _ =>
    simp only [slotEffect, slotCvtUp, slotVdq]
    exact framed_unpackPart s (List.mem_singleton_self d) ..
  case vq d _ _ _ _ _ _ => exact framed_vq s (List.mem_singleton_self d) ..
  case vred d _ _ _ _ _ _ => exact framed_vred s (List.mem_singleton_self d) ..
  case vcred d _ _ _ _ _ _ => exact framed_vcred s (List.mem_singleton_self d) ..
  case vbcastRow d _ _ _ => exact framed_vbcastRow s (List.mem_singleton_self d) ..
  case vbcastEl d _ _ _ => exact framed_vbcastEl s (List.mem_singleton_self d) ..
  case vtr d _ _ => exact framed_vtr s (List.mem_singleton_self d) ..
  case vsh d _ _ _ _ _ => exact framed_vsh s (List.mem_singleton_self d) ..
  case vshRows d _ _ _ _ _ => exact framed_vshRows s (List.mem_singleton_self d) ..
  case vperm d _ _ _ => exact framed_vperm s (List.mem_singleton_self d) ..
  case vmov d _ _ => exact framed_vmov s (List.mem_singleton_self d) ..
  case vzero d _ _ => exact framed_vzero s (List.mem_singleton_self d) ..
  case vsmMerge d _ _ _ => exact framed_vsmMerge s ..
  case fmtTag d _ => exact framed_fmtTag s (List.mem_singleton_self d) ..
  case rcwSet d _ _ => exact framed_rcwSet s (List.mem_singleton_self d) ..
  case rcwSetSt d _ _ => exact framed_rcwSetSt s (List.mem_singleton_self d) ..
  case rcwSetCp d _ _ => exact framed_rcwSetCp s (List.mem_singleton_self d) ..
  case rcwUpd d _ _ _ _ _ => exact framed_rcwUpd s (List.mem_singleton_self d) ..
  case rcwCnt => exact framed_rcwCnt s ..
  case rcwMask => exact framed_rcwMask s ..
  case shp => exact framed_shp s ..
  case ruleSet => exact framed_ruleSet s ..
  case chain | cmxPack | cmxRest | kvSv | ntfX | moeRoute => cases ht
  all_goals exact absurd hv (by simp [slotsOf])

/-- Settles O47: the checks of each instruction give its destination's register, and only its results follow them. -/
theorem vectorFrame : Obligations.VectorFrame := by
  intro i s t hv ht hx
  have framed := framed_slotEffect s hv ht
  rw [exec_eq_settle s (List.ne_nil_of_mem hv)] at hx
  unfold Framed Checked at framed
  unfold settle at hx
  split at hx
  · next h =>
    cases hx
    rw [h] at framed
    exact .inr (.inr framed)
  · next stop h =>
    cases hx
    exact .inl ⟨stop, rfl⟩
  · cases hx
    exact .inr (.inr (frame_refl s _))
  · next n u h =>
    cases hx
    rw [h] at framed
    exact .inr (.inl ⟨u, by rw [show n = s.cur.1 from framed]⟩)
  · cases hx

end Sys2Proof.Machine

namespace Sys2Proof.Machine

/-! ## Scalars, flags and control registers (O7, O14, O19, O27) -/

/-- Settles O7: each of the four accesses tests for s0 first. -/
theorem scalarZero : Obligations.ScalarZero := fun s _ lat _ _ v => ⟨rfl, rfl, result_zero s lat v, rfl⟩

/-- The mask that spares f9 and f15 has every other bit. -/
theorem spared_getLsbD {k : Nat} (hk : k < 16) : (0x7DFF : BitVec 16).getLsbD k = (k != 9 && k != 15) := by
  decide +revert

/-- Settles O14: the set is or'ed in after the clear is masked out, and the clearable mask lacks bits 9 and 15. -/
theorem flagRules : Obligations.FlagRules := by
  intro f clr set m k hk
  have spared (m : BitVec 16) : (m &&& 0x7DFF).getLsbD k = (m.getLsbD k && k != 9 && k != 15) := by
    rw [BitVec.getLsbD_and, spared_getLsbD hk, Bool.and_assoc]
  refine ⟨fun h => ?_, fun h hc => ?_, fun h hc => ?_, spared m, spared m⟩
  all_goals simp_all [flagsAfter]

theorem exec_of_trap {i : Instr} {s : State} {t : TrapInfo} {x : Except Stop State} (hi : exec i s = settle s x)
    (hx : x = .error (.trap t)) : exec i s = .next (takeTrap s s.cur.1 s.cur.2 t s.fly.ba s.fly.ba false) := by
  rw [hi, hx, settle_trap]

theorem exec_of_ok {i : Instr} {s t : State} {x : Except Stop State} (hi : exec i s = settle s x) (hx : x = .ok t) :
    exec i s = .next t := by rw [hi, hx, settle_ok]

theorem aligned_trap (engine slot : Nat) {addr : Word} {n : Nat} (h : addr.toNat % n ≠ 0) :
    aligned engine slot addr n = trapping causeAlign engine slot addr := by simp [aligned, check, h]

/-- Settles O19: the alignment and the mode are tested before anything else but the scalars and the room. -/
theorem alignAndPrivTrap : Obligations.AlignAndPrivTrap := by
  intro s a d h sp sx sz off hr
  obtain ⟨ha, hr⟩ := readable_cons.mp hr
  obtain ⟨hd, -⟩ := readable_cons.mp hr
  refine ⟨fun hm => ⟨fun hs => exec_of_trap rfl ?_, exec_of_trap rfl ?_⟩, fun hc => exec_of_trap rfl ?_⟩
  · cases sp with
    | true =>
      simp only [slotLd, readS_ok ha, except_ok_bind, if_true, aligned_trap 2 2 hm]
      rfl
    | false =>
      have room := opRoom_ok (hs.resolve_left (by simp))
      simp only [slotLd, readS_ok ha, room, except_ok_bind, Bool.false_eq_true, if_false, aligned_trap 2 2 hm]
      rfl
  · simp only [slotSt, readS_ok ha, readS_ok hd, except_ok_bind, aligned_trap 2 2 hm]
    rfl
  · rw [slotRte, readS_ok ha, except_ok_bind, if_pos hc]
    rfl

/-- A field that a mask keeps whole. -/
theorem extractLsb'_and_ones {w : Nat} (v m : BitVec w) {k n : Nat} (hm : m.extractLsb' k n = BitVec.allOnes n) :
    (v &&& m).extractLsb' k n = v.extractLsb' k n := by
  rw [BitVec.extractLsb'_and, hm, BitVec.and_allOnes]

/-- A field that a mask drops. -/
theorem extractLsb'_and_zero {w : Nat} (v m : BitVec w) {k n : Nat} (hm : m.extractLsb' k n = 0) :
    (v &&& m).extractLsb' k n = 0 := by
  rw [BitVec.extractLsb'_and, hm]
  exact BitVec.and_zero

/-- What a write to a control register leaves is what `ctlStore` answers. -/
theorem applyWrite_ctl (s : State) (core ctx crn : Nat) (v : Word) :
    ctxOf (applyWrite s core ctx (.ctl crn v)) core ctx =
      (ctlStore core (noteShared s core ctx crn) (ctxOf s core ctx) crn v).2 := by
  simp [applyWrite]

/-- A mask of low bits keeps the field of those bits. -/
theorem and_lowBits (v : Word) {n : Nat} (hn : n ≤ 64) :
    v &&& BitVec.ofNat 64 (2 ^ n - 1) = (v.extractLsb' 0 n).setWidth 64 := by
  refine BitVec.eq_of_toNat_eq ?_
  have hlt : 2 ^ n ≤ 2 ^ 64 := Nat.pow_le_pow_right (by decide) hn
  have hm := Nat.mod_lt v.toNat (Nat.two_pow_pos n)
  rw [BitVec.toNat_and, BitVec.toNat_ofNat, Nat.mod_eq_of_lt (by omega), Nat.and_two_pow_sub_one_eq_mod,
    BitVec.toNat_setWidth, BitVec.extractLsb'_toNat, Nat.shiftRight_zero, Nat.mod_eq_of_lt (a := v.toNat % 2 ^ n) (by omega)]

theorem coreOf_noteShared (s : State) (core ctx crn n : Nat) : coreOf (noteShared s core ctx crn) n = coreOf s n := by
  unfold noteShared
  split <;> rfl

theorem applyWrite_age (s : State) (core ctx : Nat) (v : Word) :
    (coreOf (applyWrite s core ctx (.ctl 4 v)) core).age = if v.extractLsb' 0 16 = 0 then 1 else v.extractLsb' 0 16 := by
  simp [applyWrite, ctlStore, coreOf_setCtx]

theorem applyWrite_trcctl (s : State) (core ctx : Nat) (v : Word) :
    (coreOf (applyWrite s core ctx (.ctl 5 v)) core).trcctl =
      ((v &&& 0xFFFF03) ||| (if (coreOf s core).trcctl.getLsbD 2 && !v.getLsbD 2 then 4 else 0)) := by
  simp [applyWrite, ctlStore, coreOf_setCtx, coreOf_noteShared]

theorem applyWrite_postLeft (s : State) (core ctx : Nat) (v : Word) :
    (coreOf (applyWrite s core ctx (.ctl 5 v)) core).postLeft =
      if (coreOf s core).trcctl.getLsbD 2 && v.getLsbD 2 then none else (coreOf s core).postLeft := by
  simp [applyWrite, ctlStore, coreOf_setCtx, coreOf_noteShared]

theorem ctlStore_delta (core : Nat) (s : State) (c : Ctx) (v : Word) {n : Nat} (hn : n < 6) :
    ctlStore core s c (0x10 + n) v = (s, { c with dlt := Tbl.put c.dlt n (v.extractLsb' 0 32) }) := by
  unfold ctlStore
  iterate 9 rw [if_neg (by omega)]
  rw [if_pos (by omega), Nat.add_sub_cancel_left]

theorem ctlStore_slack (core : Nat) (s : State) (c : Ctx) (v : Word) {n : Nat} (hn : n < 16) :
    ctlStore core s c (0x20 + n) v = (s, { c with slkt := Tbl.put c.slkt n (v.extractLsb' 0 10) }) := by
  unfold ctlStore
  iterate 10 rw [if_neg (by omega)]
  rw [if_pos (by omega), Nat.add_sub_cancel_left]

/-- Settles O27: each register's store masks its fields, and each mask is checked on the fields the statement names. -/
theorem controlRegisterFields : Obligations.ControlRegisterFields := by
  intro s core ctx v
  have field {k n : Nat} (h4 : (4 : Word).extractLsb' k n = 0) (c : Bool) :
      ((v &&& 0xFFFF03) ||| (if c then 4 else 0)).extractLsb' k n = (v &&& 0xFFFF03).extractLsb' k n := by
    rw [BitVec.extractLsb'_or]
    cases c with
    | false => simp
    | true =>
      rw [if_pos rfl, h4]
      exact BitVec.or_zero
  simp only [applyWrite_ctl, applyWrite_age, applyWrite_trcctl, applyWrite_postLeft]
  refine ⟨extractLsb'_and_ones v _ (by decide), extractLsb'_and_ones v _ (by decide), extractLsb'_and_zero v _ (by decide),
    extractLsb'_and_zero v _ (by decide), and_lowBits v (n := 32) (by decide), and_lowBits v (n := 7) (by decide), rfl,
    ?_, trivial, and_lowBits v (n := 2) (by decide), ?_, ⟨?_, ?_, ?_, ?_, ?_, trivial⟩, rfl, rfl, ?_, ?_, ?_⟩
  · simp [ctlStore]
  · simp [applyWrite, ctlStore]
  · exact (field (by decide) _).trans (extractLsb'_and_ones v _ (by decide))
  · exact (field (by decide) _).trans (extractLsb'_and_ones v _ (by decide))
  · exact (field (by decide) _).trans (extractLsb'_and_zero v _ (by decide))
  · exact (field (by decide) _).trans (extractLsb'_and_zero v _ (by decide))
  · rw [BitVec.getLsbD_or, BitVec.getLsbD_and]
    cases (coreOf s core).trcctl.getLsbD 2 && !v.getLsbD 2 <;> simp
  · intro n w hn
    simp [applyWrite]
  · intro n hn
    rw [ctlStore_delta core _ _ v hn, Tbl.look_put_same]
  · intro n hn
    rw [ctlStore_slack core _ _ v hn, Tbl.look_put_same]

end Sys2Proof.Machine

namespace Sys2Proof.Machine

/-! ## Vector operands (O45, O48, O49) -/

theorem vecTile_ok {s : State} {x : Reg} {p : Nat} (h : TileAt s x p) : vecTile s x = .ok p := tileReg_ok 6 3 h

theorem vecRows_ok {s : State} (h : RowsOk s) : vecRows s = .ok (rowsOf (me s)) := rowsCheck_ok 6 3 h

theorem tagCheck_ok (engine slot tag : Nat) {ok : Bool} (h : ok = true) : tagCheck engine slot tag ok = .ok () := check_ok h

theorem vecTag_ok {t : Tile} {ok : List Nat} (h : t.tag.toNat ∈ ok) : vecTag t ok = .ok () :=
  tagCheck_ok 6 3 _ (List.contains_iff_mem.mpr h)

theorem vecCount_ok {s : State} {e n : Nat} {srcs : List Tile} (h : Columns s e srcs n) : vecCount s e srcs = .ok n := by
  obtain ⟨rfl, he, hs⟩ := h
  exact if_pos ⟨he, List.all_eq_true.mpr fun t ht => decide_eq_true (hs t ht)⟩

/-- What the checks of a tile source answer. -/
structure Reads (s : State) (a : Reg) (ok : List Nat) (t : Tile) : Prop where
  free : tileFree s a = .ok ()
  src : vecSrc s a = .ok t
  tag : vecTag t ok = .ok ()

theorem SourceTile.reads {s : State} {a : Reg} {ok : List Nat} {t : Tile} (h : SourceTile s a ok t) : Reads s a ok t := by
  obtain ⟨p, hp, rfl, ht⟩ := h
  exact ⟨tileFree_ok hp, by rw [vecSrc, vecTile_ok hp, except_ok_bind], vecTag_ok ht⟩

theorem shiftAmount_ok {s : State} {b : Reg} (imm : Imm20) (h : Readable s [b]) :
    shiftAmount s b imm = .ok (if b = 0 then imm.toInt else (sv s b).toInt) := by
  unfold shiftAmount
  split
  · rfl
  · rw [readS_ok (readable_cons.mp h).1, except_ok_bind]

/-! ## Movement (O45) -/

section Movement

variable {s : State} {d a b : Reg} {pm : BitVec 3} {x n : Nat} {ta tb : Tile}

theorem exec_shp_imm (a : Reg) (rows : BitVec 7) (cols : BitVec 11) :
    exec (.shp false a rows cols) s = .next (result s 2 (.ctl 0 (BitVec.ofNat 64 (rows.toNat + 2 ^ 16 * cols.toNat)))) := rfl

theorem exec_shp_reg (ha : Readable s [a]) (rows : BitVec 7) (cols : BitVec 11) :
    exec (.shp true a rows cols) s = .next (result s 2 (.ctl 0 (sv s a))) := by
  refine exec_of_ok rfl ?_
  simp only [slotShp, if_true, readS_ok (readable_cons.mp ha).1, except_ok_bind]

section Rows

variable (hd : TileAt s d x) (hr : RowsOk s)

include hd

theorem exec_fmtTag (tag : BitVec 4) : exec (.fmtTag d tag) s = .next (result s 1 (.tileTag x tag)) := by
  refine exec_of_ok rfl ?_
  simp only [slotFmtTag, tileFree_ok hd, vecTile_ok hd, except_ok_bind]

include hr

theorem exec_vzero (tag : BitVec 4) :
    exec (.vzero d pm tag) s = .next (results s (2 + kOf (rowsOf (me s)))
      ((included s pm (rowsOf (me s))).map (fun i => .tileRow x i (zeroRow tag.toNat) defaultScales) ++
        [.tileTag x tag, .tileSsc x defaultSuper])) := by
  refine exec_of_ok rfl ?_
  simp only [slotVzero, tileFree_ok hd, vecTile_ok hd, vecRows_ok hr, except_ok_bind]

/-- The rows that a movement instruction puts on their way, with the tag and the superblock scales of its source. -/
def movedRows (s : State) (pm : BitVec 3) (x : Nat) (a : Tile) (f : Nat → List Write) : State :=
  results s (2 + kOf (rowsOf (me s)))
    ((included s pm (rowsOf (me s))).flatMap f ++ [.tileTag x a.tag, .tileSsc x a.ssc])

theorem exec_vbcastRow (ha : Reads s a anyTags ta) (k : BitVec 6) :
    exec (.vbcastRow d a pm k) s = .next (movedRows s pm x ta fun i => moveRow x i ta k.toNat) := by
  refine exec_of_ok rfl ?_
  simp only [slotVbcastRow, tileFree_ok hd, ha.free, vecTile_ok hd, ha.src, vecRows_ok hr, ha.tag, except_ok_bind]
  rfl

theorem exec_vmov (ha : Reads s a anyTags ta) :
    exec (.vmov d a pm) s = .next (movedRows s pm x ta fun i => moveRow x i ta i) := by
  refine exec_of_ok rfl ?_
  simp only [slotVmov, tileFree_ok hd, ha.free, vecTile_ok hd, ha.src, vecRows_ok hr, ha.tag, except_ok_bind]
  rfl

theorem exec_vperm (ha : Reads s a anyTags ta) (hb : Reads s b [9] tb) :
    exec (.vperm d a b pm) s = .next (movedRows s pm x ta fun i =>
      if elemOf 9 (tb.row 0) i < 64 then moveRow x i ta (elemOf 9 (tb.row 0) i)
      else [.tileRow x i 0 defaultScales, .tileRcw x i 5]) := by
  refine exec_of_ok rfl ?_
  simp only [slotVperm, tileFree_ok hd, ha.free, hb.free, vecTile_ok hd, ha.src, hb.src, vecRows_ok hr, ha.tag, hb.tag,
    except_ok_bind]
  rfl

theorem exec_vshRows (ha : Reads s a anyTags ta) (hb : Readable s [b]) (rot : Bool) (imm : Imm20) :
    exec (.vshRows d a b pm rot imm) s = .next (movedRows s pm x ta fun i =>
      match shiftSource rot (rowsOf (me s)) (if b = 0 then imm.toInt else (sv s b).toInt) i with
      | some k => moveRow x i ta k
      | none => [.tileRow x i 0 defaultScales]) := by
  refine exec_of_ok rfl ?_
  simp only [slotVshRows, tileFree_ok hd, ha.free, shiftAmount_ok imm hb, vecTile_ok hd, ha.src, vecRows_ok hr, ha.tag,
    except_ok_bind]
  rfl

/-- The elements that a movement instruction puts on their way, with the tag of its source. -/
def movedElements (s : State) (pm : BitVec 3) (x n : Nat) (a : Tile) (f : Nat → Nat → Nat) : State :=
  results s (2 + kOf (rowsOf (me s)))
    (elementWrites x (tileOf (here s) x) a (elemBits a.tag.toNat) 0 (eachElement (included s pm (rowsOf (me s))) n f) ++
      [.tileTag x a.tag])

theorem exec_vbcastEl (ha : Reads s a unscaledTags ta) (hn : Columns s (elemsPerRow ta.tag.toNat) [ta] n) {e : BitVec 11}
    (he : e.toNat < elemsPerRow ta.tag.toNat) :
    exec (.vbcastEl d a pm e) s = .next (movedElements s pm x n ta fun i _ => elemOf ta.tag.toNat (ta.row i) e.toNat) := by
  refine exec_of_ok rfl ?_
  simp only [slotVbcastEl, tileFree_ok hd, ha.free, vecTile_ok hd, ha.src, vecRows_ok hr, ha.tag, vecCount_ok hn, if_pos he,
    except_ok_bind]
  rfl

theorem exec_vsh (ha : Reads s a unscaledTags ta) (hn : Columns s (elemsPerRow ta.tag.toNat) [ta] n) (hb : Readable s [b])
    (rot : Bool) (imm : Imm20) :
    exec (.vsh d a b pm rot imm) s = .next (movedElements s pm x n ta fun i j =>
      match shiftSource rot n (if b = 0 then imm.toInt else (sv s b).toInt) j with
      | some k => elemOf ta.tag.toNat (ta.row i) k
      | none => 0) := by
  refine exec_of_ok rfl ?_
  simp only [slotVsh, tileFree_ok hd, ha.free, shiftAmount_ok imm hb, vecTile_ok hd, ha.src, vecRows_ok hr, ha.tag,
    vecCount_ok hn, except_ok_bind]
  rfl

end Rows

theorem exec_vtr (hd : TileAt s d x) (ha : Reads s a [1, 2, 3, 4, 5, 8, 9, 11] ta) {c : BitVec 3}
    (hc : c.toNat < elemsPerRow ta.tag.toNat / 64) :
    exec (.vtr d a c) s = .next (results s 12
      ((List.range 64).map (fun i => Write.tileRow x i
        (putElems (elemBits ta.tag.toNat) (64 * c.toNat) ((tileOf (here s) x).row i)
          ((List.range 64).map (fun j => elemOf ta.tag.toNat (ta.row j) (64 * c.toNat + i))))
        (if isScaled ta.tag.toNat then defaultScales else (tileOf (here s) x).scales i)) ++
        [.tileTag x ta.tag] ++ (if isScaled ta.tag.toNat then [.tileSsc x defaultSuper] else []))) := by
  refine exec_of_ok rfl ?_
  simp only [slotVtr, tileFree_ok hd, ha.free, vecTile_ok hd, ha.src, ha.tag, if_pos hc, except_ok_bind]

end Movement

/-- Settles O45: each instruction's checks pass, and the writes that follow are the statement's. -/
theorem vectorMovement : Obligations.VectorMovement := by
  intro s d a b pm cb k e cols rws rot imm tag4 x n ta tb
  refine ⟨⟨exec_shp_imm a rws cols, fun ha => exec_shp_reg ha rws cols⟩, fun hd => ⟨exec_fmtTag hd tag4,
    fun hr => exec_vzero hd hr tag4, fun hr ha => ⟨exec_vbcastRow hd hr ha.reads k, exec_vmov hd hr ha.reads,
      fun hb => exec_vperm hd hr ha.reads hb.reads, fun hb => exec_vshRows hd hr ha.reads hb rot imm⟩,
    fun hr ha hn => ⟨exec_vbcastEl hd hr ha.reads hn, fun hb => exec_vsh hd hr ha.reads hn hb rot imm⟩,
    fun ha hc => exec_vtr hd ha.reads hc⟩⟩

end Sys2Proof.Machine

namespace Sys2Proof.Machine

/-! ## Conversions and reductions (O48) -/

theorem scaleCheck_ok (engine slot : Nat) {t : Tile} {rows : List Nat} {lo n : Nat} (h : badScale t rows lo n = none) :
    scaleCheck engine slot t rows lo n = .ok () := by rw [scaleCheck, h]

theorem partCheck_ok {s : State} {small big part : Nat} (h2 : 2 * small ≤ big) (hp : (part + 1) * small ≤ big) :
    partCheck s small big part = .ok () := by
  rw [partCheck, if_pos h2, if_pos hp]
  rfl

section Convert

variable {s : State} {d a b : Reg} {pm part : BitVec 3} {r : Rnd} {dt : BitVec 4} {x n : Nat} {ta : Tile}

/-- The state after a conversion of `n` elements of each included row, from position `lo` of A to `first` of D. -/
def converted (s : State) (x : Nat) (ta : Tile) (pm : BitVec 3) (r : Rnd) (dt lo first n lat : Nat) (f : Nat → Nat → Val) :
    State :=
  let p := roundRows s (resolveMode (me s) r) r dt (included s pm (rowsOf (me s))) n (fun i j => f i (lo + j))
  results p.2 (lat + kOf (rowsOf (me s))) (convertWrites x (tileOf (here s) x) ta dt first p.1)

theorem convertRows_scaled {dt lo first lat : Nat} (h : badScale ta (included s pm (rowsOf (me s))) lo n = none) :
    convertRows s x ta pm (rowsOf (me s)) r dt lo first n lat false =
      .ok (converted s x ta pm r dt lo first n lat (tileValue ta)) := by
  simp only [convertRows, Bool.false_eq_true, if_false, scaleCheck_ok 6 3 h, except_ok_bind]
  rfl

theorem convertRows_unscaled {dt lo first lat : Nat} :
    convertRows s x ta pm (rowsOf (me s)) r dt lo first n lat true =
      .ok (converted s x ta pm r dt lo first n lat fun i j => elementValue ta.tag.toNat (elemOf ta.tag.toNat (ta.row i) j)) := by
  simp only [convertRows, if_true, except_ok_bind]
  rfl

variable (hd : TileAt s d x) (hr : RowsOk s)

include hd hr

theorem exec_vcvt (ha : Reads s a convertTags ta)
    (hn : Columns s (min (elemsPerRow ta.tag.toNat) (elemsPerRow dt.toNat)) [] n)
    (hs : badScale ta (included s pm (rowsOf (me s))) 0 n = none) :
    exec (.vcvt d a pm r dt) s = .next (converted s x ta pm r dt.toNat 0 0 n 5 (tileValue ta)) := by
  refine exec_of_ok rfl ?_
  simp only [slotVcvt, tileFree_ok hd, ha.free, vecTile_ok hd, ha.src, vecRows_ok hr, ha.tag, convertCount, vecCount_ok hn,
    except_ok_bind, convertRows_scaled hs]

theorem exec_cvtPk (ha : Reads s a convertTags ta) (h2 : 2 * elemsPerRow ta.tag.toNat ≤ elemsPerRow dt.toNat)
    (hp : (part.toNat + 1) * elemsPerRow ta.tag.toNat ≤ elemsPerRow dt.toNat) (hn : Columns s (elemsPerRow ta.tag.toNat) [] n)
    (hs : badScale ta (included s pm (rowsOf (me s))) 0 n = none) :
    exec (.cvtPk d a pm r dt part) s =
      .next (converted s x ta pm r dt.toNat 0 (part.toNat * elemsPerRow ta.tag.toNat) n 5 (tileValue ta)) := by
  refine exec_of_ok rfl ?_
  simp only [slotCvtPk, tileFree_ok hd, ha.free, vecTile_ok hd, ha.src, vecRows_ok hr, ha.tag, partCheck_ok h2 hp, convertCount,
    vecCount_ok hn, except_ok_bind, convertRows_scaled hs]

theorem unpackPart_eq {ok : List Nat} {lat : Nat} {nosc : Bool} (ha : Reads s a ok ta)
    (h2 : 2 * elemsPerRow dt.toNat ≤ elemsPerRow ta.tag.toNat)
    (hp : (part.toNat + 1) * elemsPerRow dt.toNat ≤ elemsPerRow ta.tag.toNat) (hn : Columns s (elemsPerRow dt.toNat) [] n) :
    unpackPart ok lat nosc d a pm r dt part s =
      convertRows s x ta pm (rowsOf (me s)) r dt.toNat (part.toNat * elemsPerRow dt.toNat) 0 n lat nosc := by
  simp only [unpackPart, tileFree_ok hd, ha.free, vecTile_ok hd, ha.src, vecRows_ok hr, ha.tag, partCheck_ok h2 hp, convertCount,
    vecCount_ok hn, except_ok_bind]

theorem exec_vred (ha : Reads s a [1, 2, 3, 4, 5, 6, 7, 8, 9, 10, 11] ta) (hc : classMatch ta.tag.toNat dt.toNat = true)
    (hn : Columns s (elemsPerRow ta.tag.toNat) [] n)
    (hs : isIntTag ta.tag.toNat = false → badScale ta (included s pm (rowsOf (me s))) 0 n = none) {op : BitVec 2} {e : BitVec 11}
    (he : e.toNat < elemsPerRow dt.toNat) :
    let inc := included s pm (rowsOf (me s))
    let p := reduceAll s ta r dt.toNat op.toNat (inc.map (fun i => (List.range n).map (fun j => (i, j))))
    exec (.vred d a pm r dt op e) s = .next (results p.2 (10 + kOf (rowsOf (me s)))
      (elementWrites x (tileOf (here s) x) ta (elemBits dt.toNat) e.toNat ((inc.zip p.1).map (fun q => (q.1, [q.2]))) ++
        [.tileTag x dt])) := by
  refine exec_of_ok rfl ?_
  simp only [slotVred, tileFree_ok hd, ha.free, vecTile_ok hd, ha.src, vecRows_ok hr, tagCheck_ok 6 3 _ hc,
    vecCount_ok hn, if_pos he, except_ok_bind]
  cases hi : isIntTag ta.tag.toNat with
  | true => rfl
  | false =>
    simp only [scaleCheck_ok 6 3 (hs hi)]
    rfl

theorem exec_vcred (ha : Reads s a [1, 2, 3, 4, 5, 6, 7, 8, 9, 10, 11] ta) (hc : classMatch ta.tag.toNat dt.toNat = true)
    (hn : Columns s (elemsPerRow ta.tag.toNat) [] n)
    (hs : isIntTag ta.tag.toNat = false → badScale ta (included s pm (rowsOf (me s))) 0 n = none) {op : BitVec 2} (row : BitVec 6)
    (he : n ≤ elemsPerRow dt.toNat) :
    let p := reduceAll s ta r dt.toNat op.toNat
      ((List.range n).map (fun j => (included s pm (rowsOf (me s))).map (fun i => (i, j))))
    let old := tileOf (here s) x
    exec (.vcred d a pm r dt op row) s = .next (results p.2 (10 + kOf (rowsOf (me s)))
      [.tileRow x row.toNat (putElems (elemBits dt.toNat) 0 (old.row row.toNat) p.1) (old.scales row.toNat), .tileTag x dt]) := by
  refine exec_of_ok rfl ?_
  simp only [slotVcred, tileFree_ok hd, ha.free, vecTile_ok hd, ha.src, vecRows_ok hr, tagCheck_ok 6 3 _ hc, vecCount_ok hn,
    if_pos he, except_ok_bind]
  cases hi : isIntTag ta.tag.toNat with
  | true => rfl
  | false =>
    simp only [scaleCheck_ok 6 3 (hs hi)]
    rfl

end Convert

/-! ### Which results are on their way -/

theorem me_pend_result (s : State) (lat : Nat) {w : Write} (hw : w.part.1 ≠ 0) :
    (me (result s lat w)).pend = pushWrite (me s).pend ((me s).icount + lat) w ∧
      (me (result s lat w)).icount = (me s).icount := by
  rcases result_cases s lat w with ⟨-, v, rfl⟩ | e
  · exact absurd rfl hw
  · rw [e, me_withMe]
    exact ⟨rfl, rfl⟩

/-- A part that some result of a list names has a result of the list on its way. -/
theorem pending_results {s : State} {lat : Nat} {l : List Write} (hl : ∀ w ∈ l, w.part.1 ≠ 0) {w : Write} (hw : w ∈ l) :
    ∃ v ∈ l, v.part = w.part ∧ { due := (me s).icount + lat, w := v } ∈ (me (results s lat l)).pend := by
  induction l generalizing s w with
  | nil => cases hw
  | cons u l ih =>
    have hl' : ∀ w ∈ l, w.part.1 ≠ 0 := fun w h => hl w (List.mem_cons_of_mem u h)
    obtain ⟨hp, hi⟩ := me_pend_result s lat (hl u List.mem_cons_self)
    by_cases later : ∃ v ∈ l, v.part = w.part
    · obtain ⟨v, hv, hvw⟩ := later
      obtain ⟨v', hv', he, hq⟩ := ih (s := result s lat u) hl' hv
      exact ⟨v', List.mem_cons_of_mem u hv', he.trans hvw, hi ▸ hq⟩
    · have hwu : w = u := (List.mem_cons.mp hw).resolve_right fun h => later ⟨w, h, rfl⟩
      subst hwu
      have own : { due := (me s).icount + lat, w := w } ∈ (me (result s lat w)).pend := by simp [hp, pushWrite]
      have kept := (frame_results (part := fun q => ∃ v ∈ l, v.part = q) (result s lat w) lat l
        fun v hv => ⟨v, hv, rfl⟩).kept _ own
      exact ⟨w, List.mem_cons_self, rfl, kept later⟩

theorem part_eq_tileRow {v : Write} {x i : Nat} (h : v.part = (5, x, i)) : ∃ q sc, v = .tileRow x i q sc := by
  cases v <;> simp_all [Write.part]

theorem part_eq_tileTag {v : Write} {x : Nat} (h : v.part = (7, x, 0)) : ∃ t, v = .tileTag x t := by
  cases v <;> simp_all [Write.part]

theorem icount_drawSeeds (s : State) (mode n : Nat) : (me (drawSeeds s mode n).2).icount = (me s).icount := by
  unfold drawSeeds
  split
  · simp
  · rfl

theorem exists_index_of_mem {α : Type} {l : List α} {i : α} (h : i ∈ l) : ∃ k, (i, k) ∈ l.zipIdx := by
  rw [← List.zipIdx_map_fst 0 l] at h
  obtain ⟨⟨j, k⟩, hp, rfl⟩ := List.mem_map.mp h
  exact ⟨k, hp⟩

section Quantise

variable {s : State} {d a b : Reg} {pm part : BitVec 3} {r : Rnd} {dt : BitVec 4} {x n : Nat} {ta : Tile}

/-- The results of `vq`: its rows, then the tag and the superblock scales. -/
theorem exec_vq (hd : TileAt s d x) (hr : RowsOk s) (ha : Reads s a wideTags ta) (hb : Readable s [b])
    (h2 : 2 * elemsPerRow ta.tag.toNat ≤ elemsPerRow dt.toNat)
    (hp : (part.toNat + 1) * elemsPerRow ta.tag.toNat ≤ elemsPerRow dt.toNat) (hn : Columns s (elemsPerRow ta.tag.toNat) [] n)
    (h64 : n % 64 = 0) :
    ∃ m k rows ssc, exec (.vq d a b pm r dt part) s =
        .next (results (drawSeeds s m k).2 (8 + kOf (rowsOf (me s))) (rows ++ [.tileTag x dt, .tileSsc x ssc])) ∧
      (∀ w ∈ rows, w.OfTile x ∧ w.part.1 ≠ 7) ∧
      ∀ i ∈ included s pm (rowsOf (me s)), ∃ q sc, Write.tileRow x i q sc ∈ rows := by
  refine ⟨?mode, ?count, ?rows, ?ssc, exec_of_ok rfl ?answer, ?parts, ?each⟩
  case answer =>
    simp only [slotVq, tileFree_ok hd, ha.free, readS_ok (readable_cons.mp hb).1, vecTile_ok hd, ha.src, vecRows_ok hr, ha.tag,
      partCheck_ok h2 hp, convertCount, vecCount_ok hn, if_pos h64, except_ok_bind]
    rfl
  case parts =>
    intro w hw
    obtain ⟨p, -, hw⟩ := List.mem_flatMap.mp hw
    rcases List.mem_pair.mp hw with rfl | rfl
    · exact ⟨ofTile_tileRow, by simp [Write.part]⟩
    · exact ⟨ofTile_tileRcw, by simp [Write.part]⟩
  case each =>
    intro i hi
    obtain ⟨k, hk⟩ := exists_index_of_mem hi
    exact ⟨_, _, List.mem_flatMap.mpr ⟨_, hk, List.mem_cons_self⟩⟩

theorem vecTileAt_ok {s : State} {d : Reg} {p : Nat} (h63 : d.toNat < 63) (h : TileAt s (d + 1) p) :
    vecTileAt s (d.toNat + 1) = .ok p := by
  have next : BitVec.ofNatLT (d.toNat + 1) (by omega : d.toNat + 1 < 64) = d + 1 := by
    refine BitVec.eq_of_toNat_eq ?_
    rw [BitVec.toNat_ofNatLT, BitVec.toNat_add]
    exact (Nat.mod_eq_of_lt (show d.toNat + 1 < 2 ^ 6 by omega)).symm
  rw [vecTileAt, dif_pos (by omega), next]
  exact vecTile_ok h

/-- The results of `vsm.merge`: for each included row one of each destination register. -/
theorem exec_vsmMerge {xs y ys : Nat} (hd : TileAt s d x) (hr : RowsOk s) (hd63 : d.toNat < 63) (ha63 : a.toNat < 63)
    (hds : TileAt s (d + 1) xs) (ha : TileAt s a y) (has : TileAt s (a + 1) ys)
    (ht : ∀ q ∈ [x, xs, y, ys], (tileOf (here s) q).tag = 1) (hn : Columns s 128 [] n) :
    ∃ m k rows, exec (.vsmMerge d a pm r) s = .next (results (drawSeeds s m k).2 (10 + kOf (rowsOf (me s))) rows) ∧
      (∀ w ∈ rows, w.part.1 = 5 ∧ (w.part.2.1 = x ∨ w.part.2.1 = xs)) ∧
      ∀ i ∈ included s pm (rowsOf (me s)), ∃ q sc q' sc',
        Write.tileRow x i q sc ∈ rows ∧ Write.tileRow xs i q' sc' ∈ rows := by
  have tag {q : Nat} (hq : q ∈ [x, xs, y, ys]) : vecTag (tileOf (here s) q) [1] = .ok () := vecTag_ok (by simp [ht q hq])
  refine ⟨?mode, ?count, ?rows, exec_of_ok rfl ?answer, ?parts, ?each⟩
  case answer =>
    simp only [slotVsmMerge, tileFree_ok hd, if_pos hd63, tileFree_ok hds, tileFree_ok ha, if_pos ha63, tileFree_ok has,
      vecTile_ok hd, vecTileAt_ok hd63 hds, vecTile_ok ha, vecTileAt_ok ha63 has, vecRows_ok hr,
      tag (q := x) (by simp), tag (q := xs) (by simp), tag (q := y) (by simp), tag (q := ys) (by simp), vecCount_ok hn,
      except_ok_bind]
    rfl
  case parts =>
    intro w hw
    obtain ⟨p, -, hw⟩ := List.mem_flatMap.mp hw
    rcases List.mem_pair.mp hw with rfl | rfl
    · exact ⟨rfl, .inl rfl⟩
    · exact ⟨rfl, .inr rfl⟩
  case each =>
    intro i hi
    obtain ⟨k, hk⟩ := exists_index_of_mem hi
    exact ⟨_, _, _, _, List.mem_flatMap.mpr ⟨_, hk, List.mem_cons_self⟩,
      List.mem_flatMap.mpr ⟨_, hk, List.mem_cons_of_mem _ List.mem_cons_self⟩⟩

/-- After generator states are drawn, a part that some result of a list names has a result of the list on its way. -/
theorem pending_drawn {m k lat due : Nat} {l : List Write} (hl : ∀ w ∈ l, w.part.1 ≠ 0) (hdue : due = (me s).icount + lat)
    {w : Write} (hw : w ∈ l) :
    ∃ v ∈ l, v.part = w.part ∧ { due := due, w := v } ∈ (me (results (drawSeeds s m k).2 lat l)).pend := by
  rw [hdue, ← icount_drawSeeds s m k]
  exact pending_results hl hw

theorem pending_drawn_tileRow {m k lat due i : Nat} {l : List Write} (hl : ∀ w ∈ l, w.part.1 ≠ 0)
    (hdue : due = (me s).icount + lat) {q : Row} {sc : BitVec 128} (hw : Write.tileRow x i q sc ∈ l) :
    ∃ q sc, { due := due, w := .tileRow x i q sc } ∈ (me (results (drawSeeds s m k).2 lat l)).pend := by
  obtain ⟨v, -, hv, hp⟩ := pending_drawn (s := s) (m := m) (k := k) hl hdue hw
  obtain ⟨q', sc', rfl⟩ := part_eq_tileRow hv
  exact ⟨q', sc', hp⟩

theorem frame_drawn {m k lat : Nat} {l : List Write} {part : Nat × Nat × Nat → Prop} (hl : ∀ w ∈ l, part w.part) :
    Frame s (results (drawSeeds s m k).2 lat l) part :=
  frame_trans (frame_drawSeeds s part m k) (frame_results _ lat l hl) (drawSeeds_cur s m k)

end Quantise

/-- Settles O48: the conversions and reductions by their checks; `vq` and `vsm.merge` by the parts that their results name. -/
theorem vectorConversions : Obligations.VectorConversions := by
  intro s d a b pm part r dt op e row nosc x n ta hd hr
  refine ⟨fun ha => ⟨fun hn hs => exec_vcvt hd hr ha.reads hn hs, fun h2 hp hn hs => exec_cvtPk hd hr ha.reads h2 hp hn hs,
      fun h2 hp hn hs => exec_of_ok rfl ((unpackPart_eq hd hr ha.reads h2 hp hn).trans (convertRows_scaled hs))⟩,
    fun ha h2 hp hn hs => exec_of_ok rfl ((unpackPart_eq hd hr ha.reads h2 hp hn).trans ?_),
    fun ha hc hn hs => ⟨exec_vred hd hr ha.reads hc hn hs, exec_vcred hd hr ha.reads hc hn hs row⟩,
    fun ha hb h2 hp hn h64 => ?_, fun xs y ys hd63 ha63 hds ha has ht hn => ?_⟩
  · cases nosc with
    | false => exact convertRows_scaled (hs rfl)
    | true => exact convertRows_unscaled
  · obtain ⟨m, k, rows, ssc, he, hrows, heach⟩ := exec_vq (r := r) (pm := pm) hd hr ha.reads hb h2 hp hn h64
    have all : AllOfTile x (rows ++ [.tileTag x dt, .tileSsc x ssc]) := by
      refine allOfTile_append.mpr ⟨fun w hw => (hrows w hw).1, ?_⟩
      simp
    have tile : ∀ w ∈ rows ++ [.tileTag x dt, .tileSsc x ssc], w.part.1 ≠ 0 := fun w hw h => by
      have := (all w hw).1
      omega
    refine ⟨_, he, frame_drawn all, ?_, fun i hi => ?_⟩
    · obtain ⟨v, hv, hvp, hp⟩ := pending_drawn (s := s) (m := m) (k := k) tile (Nat.add_assoc _ _ _)
        (List.mem_append_right rows List.mem_cons_self)
      have : v = .tileTag x dt := by
        rcases List.mem_append.mp hv with hv | hv
        · exact absurd (congrArg Prod.fst hvp) (hrows v hv).2
        · rcases List.mem_pair.mp hv with rfl | rfl
          · rfl
          · cases hvp
      subst this
      exact hp
    · obtain ⟨q, sc, hw⟩ := heach i hi
      exact pending_drawn_tileRow tile (Nat.add_assoc _ _ _) (List.mem_append_left _ hw)
  · obtain ⟨m, k, rows, he, hrows, heach⟩ := exec_vsmMerge (pm := pm) (r := r) hd hr hd63 ha63 hds ha has ht hn
    have tile : ∀ w ∈ rows, w.part.1 ≠ 0 := fun w hw h => by
      have := (hrows w hw).1
      omega
    refine ⟨_, he, frame_drawn hrows, fun i hi => ?_⟩
    obtain ⟨q, sc, q', sc', hw, hw'⟩ := heach i hi
    obtain ⟨p, pc, hp⟩ := pending_drawn_tileRow tile (Nat.add_assoc _ _ _) hw
    obtain ⟨p', pc', hp'⟩ := pending_drawn_tileRow tile (Nat.add_assoc _ _ _) hw'
    exact ⟨p, pc, p', pc', hp, hp'⟩

end Sys2Proof.Machine

namespace Sys2Proof.Machine

/-! ## Row control (O49) -/

theorem rcwState_eq (w : BitVec 32) : rcwState w = w.toNat % 8 := by
  simp [rcwState, BitVec.extractLsb'_toNat]

theorem statesOk_ok {t : Tile} {l : List Nat} (h : ∀ i ∈ l, (t.word i).toNat % 8 < 6) : statesOk t l = .ok () := by
  have none : l.find? (fun i => badState (t.word i)) = none :=
    List.find?_eq_none.mpr fun i hi => by simpa [badState, rcwState_eq] using h i hi
  rw [statesOk, none]

section SetWords

variable {s : State} {d a : Reg} {pm : BitVec 3} {x : Nat} {ta : Tile} (hd : TileAt s d x) (hr : RowsOk s)

include hd hr

theorem setWords_ok (f : Tile → Nat → BitVec 32) :
    setWords s d pm f =
      .ok (results s 3 ((included s pm (rowsOf (me s))).map (fun i => .tileRcw x i (f (tileOf (here s) x) i)))) := by
  simp only [setWords, vecTile_ok hd, vecRows_ok hr, except_ok_bind]

theorem exec_rcwSetSt {st : BitVec 3} (hs : st.toNat < 6) :
    exec (.rcwSetSt d pm st) s = .next (results s 3 ((included s pm (rowsOf (me s))).map
      (fun i => .tileRcw x i (((tileOf (here s) x).word i).extractLsb' 3 29 ++ st)))) := by
  refine exec_of_ok rfl ?_
  simp only [slotRcwSetSt, tileFree_ok hd, vecTile_ok hd, vecRows_ok hr, if_neg (Nat.not_le.mpr hs), except_ok_bind,
    setWords_ok hd hr]

theorem exec_rcwSet (ha : Readable s [a]) (hs : (sv s a).toNat % 8 < 6) :
    exec (.rcwSet d a pm) s = .next (results s 3 ((included s pm (rowsOf (me s))).map
      (fun i => .tileRcw x i ((sv s a).extractLsb' 0 32)))) := by
  have good : badState ((sv s a).extractLsb' 0 32) = false := by
    simp [badState, rcwState_eq, BitVec.extractLsb'_toNat]
    omega
  refine exec_of_ok rfl ?_
  simp only [slotRcwSet, tileFree_ok hd, readS_ok (readable_cons.mp ha).1, vecTile_ok hd, vecRows_ok hr, good, Bool.false_eq_true,
    if_false, except_ok_bind, setWords_ok hd hr]

theorem exec_rcwSet_reserved (ha : Readable s [a]) (hs : 6 ≤ (sv s a).toNat % 8) :
    ∃ stop, exec (.rcwSet d a pm) s = .next (takeTrap s s.cur.1 s.cur.2 stop s.fly.ba s.fly.ba false) ∧ stop.cause = 0x30 ∧
      stop.detail = ((sv s a).extractLsb' 0 32).setWidth 64 := by
  have bad : badState ((sv s a).extractLsb' 0 32) = true := by
    simp [badState, rcwState_eq, BitVec.extractLsb'_toNat]
    omega
  refine ⟨?stop, exec_of_trap rfl ?answer, ?cause, ?detail⟩
  case answer =>
    simp only [slotRcwSet, tileFree_ok hd, readS_ok (readable_cons.mp ha).1, vecTile_ok hd, vecRows_ok hr, bad, if_true,
      except_ok_bind]
    rfl
  case cause => rfl
  case detail => rfl

theorem exec_rcwSetCp (ha : Reads s a anyTags ta) :
    exec (.rcwSetCp d a pm) s = .next (results s 3 ((included s pm (rowsOf (me s))).map
      (fun i => .tileRcw x i (ta.word i)))) := by
  refine exec_of_ok rfl ?_
  simp only [slotRcwSetCp, tileFree_ok hd, ha.free, vecTile_ok hd, ha.src, vecRows_ok hr, ha.tag, except_ok_bind,
    setWords_ok hd hr]

end SetWords

/-! ### Rules -/

/-- The four words of a record, joined again. -/
theorem ruleWords_join (r : BitVec 256) :
    r.extractLsb' 192 64 ++ r.extractLsb' 128 64 ++ r.extractLsb' 64 64 ++ r.extractLsb' 0 64 = r := by
  refine BitVec.eq_of_getLsbD_eq fun i hi => ?_
  simp only [BitVec.getLsbD_append, BitVec.getLsbD_extractLsb']
  split
  · simp [*]
  · split
    · rw [show 64 + (i - 64) = i by omega]
      simp [*]
    · split
      · rw [show 128 + (i - 64 - 64) = i by omega]
        simp [*]
      · rw [show 192 + (i - 64 - 64 - 64) = i by omega, decide_eq_true (by omega : i - 64 - 64 - 64 < 64), Bool.true_and]

theorem ruleAt_ruleWords {c : Ctx} {n : Nat} {r : BitVec 256} (h : Tbl.look [] c.rules n = ruleWords r) :
    ruleAt c n = some (ruleOf r) := by
  simp only [ruleAt, h, ruleWords, ruleWords_join]

theorem exec_ruleSet {s : State} {a : Reg} {n : BitVec 3} (ha : Readable s [a]) (h32 : (sv s a).toNat % 32 = 0)
    (hl : Local s (sv s a).toNat 32) {r : BitVec 256}
    (hr : r = BitVec.ofNat 256 (ofBytes (memBytes s.mem (spmAddr s.cur.1 (sv s a).toNat) 32))) :
    exec (.ruleSet a n) s = .next (result s 6 (.rules n.toNat (if ruleValid r then ruleWords r else []))) := by
  subst hr
  refine exec_of_ok rfl ?_
  simp only [slotRuleSet, readS_ok (readable_cons.mp ha).1, aligned_ok 6 3 h32, spmLocal_ok 6 3 hl, except_ok_bind]
  rfl

theorem exec_rcwUpd {s : State} {d a : Reg} {pm rule : BitVec 3} {mode : BitVec 2} {col : BitVec 10} {x : Nat} {ta : Tile} {u : Rule}
    (hd : TileAt s d x) (hr : RowsOk s) (ha : Reads s a wideTags ta) (hc : col.toNat < elemsPerRow ta.tag.toNat)
    (hu : ruleAt (me s) rule.toNat = some u)
    (hs : ∀ i ∈ included s pm (rowsOf (me s)), ((tileOf (here s) x).word i).toNat % 8 < 6) :
    exec (.rcwUpd d a pm rule mode col) s = .next (results s 12 ((included s pm (rowsOf (me s))).filterMap (fun i =>
      let w := (tileOf (here s) x).word i
      if modeSelects mode.toNat w then
        (rowStep u w (tileValue ta i col.toNat)).map (fun st => Write.tileRcw x i (applyStep u w st))
      else none))) := by
  refine exec_of_ok rfl ?_
  simp only [slotRcwUpd, tileFree_ok hd, ha.free, vecTile_ok hd, ha.src, vecRows_ok hr, ha.tag, if_pos hc, hu, statesOk_ok hs,
    except_ok_bind]

/-! ### Runs of tiles and sets of rows -/

theorem ofNatLT_eq_add {a : Reg} {k : Nat} (h : a.toNat + k < 64) : BitVec.ofNatLT (a.toNat + k) h = a + BitVec.ofNat 6 k := by
  refine BitVec.eq_of_toNat_eq ?_
  rw [BitVec.toNat_ofNatLT, BitVec.toNat_add, BitVec.toNat_ofNat, Nat.mod_eq_of_lt (show k < 2 ^ 6 by omega)]
  exact (Nat.mod_eq_of_lt h).symm

/-- The tile registers from `a` on are `xs`, in the window and not busy. -/
def Run (s : State) (a : Reg) (xs : List Nat) : Prop :=
  ∀ k q, xs[k]? = some q → a.toNat + k < 64 ∧ TileAt s (a + BitVec.ofNat 6 k) q

theorem runFree_ok {s : State} {a : Reg} {xs : List Nat} (h : Run s a xs) {m : Nat} (hm : m ≤ xs.length) :
    runFree s a m = .ok () := by
  induction m with
  | zero => rfl
  | succ m ih =>
    obtain ⟨hlt, ht⟩ := h m xs[m] (List.getElem?_eq_getElem (by omega))
    rw [runFree, ih (by omega), except_ok_bind, dif_pos hlt, ofNatLT_eq_add, tileFree_ok ht]

theorem mapM_ok {α β : Type} {f : α → Except Stop β} {l : List α} {ys : List β} (hl : l.length = ys.length)
    (h : ∀ p ∈ l.zip ys, f p.1 = .ok p.2) : l.mapM f = .ok ys := by
  induction l generalizing ys with
  | nil =>
    rw [List.length_eq_zero_iff.mp hl.symm]
    rfl
  | cons a l ih =>
    obtain ⟨y, ys, rfl⟩ := List.exists_cons_of_length_eq_add_one hl.symm
    rw [List.mapM_cons, h (a, y) (by simp), except_ok_bind, ih (by simpa using hl) fun p hp => h p (List.mem_cons_of_mem _ hp)]
    rfl

theorem runTiles_ok {s : State} {a : Reg} {xs : List Nat} (h : Run s a xs) : runTiles s a xs.length = .ok xs := by
  refine mapM_ok (by simp) fun p hp => ?_
  obtain ⟨k, hk, rfl⟩ := List.mem_iff_getElem.mp hp
  rw [List.length_zip, List.length_range, Nat.min_self] at hk
  obtain ⟨hlt, ht⟩ := h k xs[k] (List.getElem?_eq_getElem hk)
  simp only [List.getElem_zip, List.getElem_range, vecTileAt]
  rw [dif_pos hlt, ofNatLT_eq_add]
  exact tileReg_ok 6 3 ht

theorem foldlM_ok {α : Type} {f : Unit → α → Except Stop Unit} {l : List α} (h : ∀ a ∈ l, f () a = .ok ()) :
    l.foldlM f () = .ok () := by
  induction l with
  | nil => rfl
  | cons a l ih => rw [List.foldlM_cons, h a List.mem_cons_self, except_ok_bind, ih fun b hb => h b (List.mem_cons_of_mem _ hb)]

/-- The bits of a mask made by setting those of a list. -/
theorem getLsbD_setBits (l : List Nat) (m : Word) {r : Nat} (hr : r < 64) :
    (l.foldl (fun m i => m ||| (1#64 <<< i)) m).getLsbD r = (m.getLsbD r || decide (r ∈ l)) := by
  induction l generalizing m with
  | nil => simp
  | cons i l ih =>
    rw [List.foldl_cons, ih, BitVec.getLsbD_or, Bool.or_assoc]
    congr 1
    simp [hr]
    have same : (!decide (r < i) && decide (r - i = 0)) = decide (r = i) := by
      rw [← decide_not, ← Bool.decide_and]
      exact decide_eq_decide.mpr (by omega)
    rw [same]

/-! ### A row's transition -/

/-- The control word of a row that goes on to its next block in `state`, or is done where that lies past the last one. -/
def wordOn (u : Rule) (w : BitVec 32) (state skip : Nat) : BitVec 32 :=
  if u.lastb < rcwNextb w + 1 then rcwMake (rcwEpoch w) u.lastb (rcwDepth w) (rcwNextb w) skip stDone
  else rcwMake (rcwEpoch w + 1) (rcwExitb w) (rcwDepth w) (rcwNextb w + 1) skip state

/-- The control word of a row that leaves at the exit test. -/
def wordExit (w : BitVec 32) : BitVec 32 :=
  rcwMake (rcwEpoch w) (rcwNextb w) (rcwDepth w) (rcwNextb w) (rcwSkip w) stExit

/-- The control word of a row that recurs, with `depth` recurrences left. -/
def wordRecur (u : Rule) (w : BitVec 32) (depth : Nat) : BitVec 32 :=
  rcwMake (rcwEpoch w + 1) (rcwExitb w) depth u.rectgt (rcwSkip w) stRecur

/-- The control word that a row has after the rule is applied to it; none where it keeps its word. -/
def wordAfter (u : Rule) (w : BitVec 32) (g : Val) : Option (BitVec 32) :=
  (rowStep u w g).map (applyStep u w)

section WordAfter

variable {u : Rule} {w : BitVec 32} {g : Val}

theorem applyStep_on (st : Nat) (hst : st = stCont ∨ st = stSkip) (skip : Option Nat) :
    applyStep u w { state := st, exitb := none, depth := none, skip, nextb := some (rcwNextb w + 1) } =
      wordOn u w st (skip.getD (rcwSkip w)) := by
  obtain rfl | rfl := hst <;> simp [applyStep, wordOn, stCont, stSkip]

theorem wordAfter_cont (h : rcwState w = stCont) : wordAfter u w g = some (
    if testExit u (rcwNextb w) g then wordExit w
    else if testRecur u g then wordRecur u w (u.recdep - 1)
    else if testSkip u g then wordOn u w 1 u.skiplen
    else wordOn u w 0 (rcwSkip w)) := by
  simp only [wordAfter, rowStep, if_pos h, Option.map_some, apply_ite (applyStep u w), applyStep_on stSkip (.inr rfl),
    applyStep_on stCont (.inl rfl)]
  rfl

theorem wordAfter_recur (h : rcwState w = stRecur) : wordAfter u w g = some (
    if testExit u (rcwNextb w) g then wordExit w
    else if 0 < rcwDepth w then wordRecur u w (rcwDepth w - 1)
    else wordOn u w 0 (rcwSkip w)) := by
  have h0 : rcwState w ≠ stCont := by simp [h, stRecur, stCont]
  simp only [wordAfter, rowStep, if_neg h0, if_pos h, Option.map_some, apply_ite (applyStep u w), applyStep_on stCont (.inl rfl)]
  rfl

theorem wordAfter_skip (h : rcwState w = stSkip) : wordAfter u w g = some (
    if rcwSkip w ≤ 1 then wordOn u w 0 0 else wordOn u w 1 (rcwSkip w - 1)) := by
  have h0 : rcwState w ≠ stCont := by simp [h, stSkip, stCont]
  have h3 : rcwState w ≠ stRecur := by simp [h, stSkip, stRecur]
  simp only [wordAfter, rowStep, if_neg h0, if_neg h3, if_pos h, Option.map_some, apply_ite (applyStep u w),
    applyStep_on stSkip (.inr rfl), applyStep_on stCont (.inl rfl)]
  rfl

theorem wordAfter_other (h0 : rcwState w ≠ stCont) (h3 : rcwState w ≠ stRecur) (h1 : rcwState w ≠ stSkip) :
    wordAfter u w g = none := by
  simp only [wordAfter, rowStep, if_neg h0, if_neg h3, if_neg h1, Option.map_none]

end WordAfter

theorem isLive_eq (w : BitVec 32) : isLive w = (w.toNat % 8 == 0 || w.toNat % 8 == 3) := by
  rw [isLive, rcwState_eq]
  rfl

theorem ruleValid_eq (r : BitVec 256) : ruleValid r = ((r.extractLsb' 190 66).toNat == 0 &&
    (!r.getLsbD 182 || (r.extractLsb' 176 5).toNat != 0) && (!r.getLsbD 183 || (r.extractLsb' 172 4).toNat != 0) &&
    decide ((r.extractLsb' 160 6).toNat ≤ (r.extractLsb' 184 6).toNat)) := by
  have positive (n : Nat) : decide (1 ≤ n) = (n != 0) := by
    rw [Bool.eq_iff_iff, decide_eq_true_iff, bne_iff_ne]
    omega
  have clear : decide (r.extractLsb' 190 66 = 0) = ((r.extractLsb' 190 66).toNat == 0) := by
    rw [Bool.eq_iff_iff, decide_eq_true_iff, beq_iff_eq]
    exact BitVec.toNat_eq
  simp only [ruleValid, positive]
  rw [ruleOf, clear]

theorem exec_rcwCnt {s : State} {d a : Reg} {pm : BitVec 3} {acc : Bool} {n : BitVec 6} {xs : List Nat} (hr : RowsOk s)
    (hlen : xs.length = n.toNat + 1) (hxs : Run s a xs) (htag : ∀ q ∈ xs, (tileOf (here s) q).tag.toNat ∈ anyTags)
    (hst : ∀ q ∈ xs, ∀ i ∈ included s pm (rowsOf (me s)), ((tileOf (here s) q).word i).toNat % 8 < 6) {c : Nat}
    (hc : c = (xs.map (fun q =>
      ((included s pm (rowsOf (me s))).filter (fun r => isLive ((tileOf (here s) q).word r))).length)).sum) :
    exec (.rcwCnt d a pm acc n) s = .next (results s 4 [.scalar d.toNat (BitVec.ofNat 64 c),
        .ctl 0x01 (BitVec.ofNat 64 (((if acc then (me s).live.toNat % 2 ^ 32 else 0) + c) % 2 ^ 32))]) := by
  have tags : (xs.map (tileOf (here s))).foldlM (fun (_ : Unit) t => vecTag t anyTags) () = .ok () :=
    foldlM_ok fun t ht => by
      obtain ⟨q, hq, rfl⟩ := List.mem_map.mp ht
      exact vecTag_ok (htag q hq)
  have states : (xs.map (tileOf (here s))).foldlM (fun (_ : Unit) t => statesOk t (included s pm (rowsOf (me s)))) () = .ok () :=
    foldlM_ok fun t ht => by
      obtain ⟨q, hq, rfl⟩ := List.mem_map.mp ht
      exact statesOk_ok (hst q hq)
  have count : ((xs.map (tileOf (here s))).map (fun t => ((included s pm (rowsOf (me s))).filter
      (fun i => isLive (t.word i))).length)).foldl (· + ·) 0 = c := by
    rw [hc, List.map_map, ← List.sum_eq_foldl]
    rfl
  refine exec_of_ok rfl ?_
  simp only [slotRcwCnt, ← hlen, runFree_ok hxs le_rfl, runTiles_ok hxs, vecRows_ok hr, tags, states, count, except_ok_bind]
  cases acc <;> simp [BitVec.extractLsb'_toNat]

theorem exec_rcwMask {s : State} {d : BitVec 3} {a : Reg} {set : Byte} {t : Tile} (hr : RowsOk s) (ha : Reads s a anyTags t)
    (hst : ∀ i ∈ List.range (rowsOf (me s)), (t.word i).toNat % 8 < 6) :
    ∃ m : Word, exec (.rcwMask d a set) s = .next (result s 3 (.mask d.toNat m)) ∧
      ∀ r, r < 64 → m.getLsbD r = (decide (r < rowsOf (me s)) && set.getLsbD ((t.word r).toNat % 8)) := by
  refine ⟨?mask, exec_of_ok rfl ?answer, ?bits⟩
  case answer =>
    simp only [slotRcwMask, ha.free, ha.src, vecRows_ok hr, ha.tag, statesOk_ok hst, except_ok_bind]
    rfl
  case bits =>
    intro r hlt
    rw [getLsbD_setBits _ _ hlt]
    simp [rcwState_eq]

/-- Settles O49: each row-control instruction is run under its operands' checks, and the rule's transition is split by the
row's state. -/
theorem rowControl_holds : Obligations.RowControl := by
  intro s d a p3 pm st rule acc n set mode col x ta xs img hr inc t any state live words sound num fp image valid moved
  have hvalid : valid = ruleValid img := (ruleValid_eq img).symm
  have hlive : live = isLive := funext fun w => (isLive_eq w).symm
  have hmoved (w : BitVec 32) (g : Val) : moved w g = wordAfter (ruleOf img) w g := by
    dsimp only [moved]
    split
    next h =>
      rw [wordAfter_cont ((rcwState_eq w).trans h)]
      rfl
    next h =>
      rw [wordAfter_recur ((rcwState_eq w).trans h)]
      rfl
    next h =>
      rw [wordAfter_skip ((rcwState_eq w).trans h)]
      rfl
    next h0 h3 h1 => exact (wordAfter_other (rcwState_eq w ▸ h0) (rcwState_eq w ▸ h3) (rcwState_eq w ▸ h1)).symm
  have hmode (w : BitVec 32) (m : BitVec 2) : (if m = 0 then true else if m = 1 then live w else state w == 1) =
      modeSelects m.toNat w := by
    simp only [modeSelects, hlive, rcwState_eq, ← BitVec.toNat_inj]
    rfl
  refine ⟨fun hd => ⟨exec_rcwSetSt hd hr, fun ha => ⟨exec_rcwSet hd hr ha, exec_rcwSet_reserved hd hr ha⟩,
    fun ha => exec_rcwSetCp hd hr ha.reads, fun ha hc hm hv hl hs => ?_⟩, fun hlen hrun hq => ?_,
    fun ha hs => exec_rcwMask hr ha.reads hs, fun ha h32 hloc himg => ?_⟩
  · rw [exec_rcwUpd hd hr ha.reads hc (ruleAt_ruleWords hl) hs]
    refine congrArg (fun l => Host.Outcome.next (results s 12 l)) (List.filterMap_congr fun r _ => ?_)
    rw [hmode, hmoved, wordAfter, Option.map_map]
    rfl
  · exact exec_rcwCnt hr hlen hrun (fun q h => (hq q h).1) (fun q h => (hq q h).2) (by rw [hlive])
  · rw [hvalid]
    exact exec_ruleSet ha h32 hloc himg
end Sys2Proof.Machine

namespace Sys2Proof.Machine

/-! ## Completion of commands (O36, O38)

What the end of an operation leaves, and when an operation whose chunks have all performed ends. -/

/-! ### The end of an operation -/

theorem sameOp_iff {o p : Op} : sameOp o p = true ↔ o.core = p.core ∧ o.ctx = p.ctx ∧ o.seq = p.seq := by
  simp [sameOp, and_assoc]

theorem findOp_key {s : State} {core ctx seq : Nat} {o : Op} (h : findOp s core ctx seq = some o) :
    o.core = core ∧ o.ctx = ctx ∧ o.seq = seq := by
  simpa [and_assoc] using List.find?_some h

/-- Once an operation is removed, none of its number is outstanding. -/
theorem findOp_of_removed {s : State} {o : Op} {l : List Op} (h : s.ops = l.filter (fun p => !sameOp o p)) :
    findOp s o.core o.ctx o.seq = none := by
  refine List.find?_eq_none.mpr fun p hp hk => ?_
  rw [h, List.mem_filter, Bool.not_eq_true', ← Bool.not_eq_true, sameOp_iff] at hp
  simp only [Bool.and_eq_true, decide_eq_true_eq] at hk
  exact hp.2 ⟨hk.1.1.symm, hk.1.2.symm, hk.2.symm⟩

theorem traffic_dropFill (s : State) (o : Op) : TrafficOnly s (dropFill s o) := traffic_withCore _ _ _ rfl

theorem traffic_traceToken (s : State) (o : Op) (tok addr : Word) : TrafficOnly s (traceToken s o tok addr) := by
  unfold traceToken
  split
  · exact traffic_traceEvent ..
  · split
    · split
      · exact traffic_traceEvent ..
      · exact .refl s
    · exact .refl s

theorem writeScalarNow_zero (s : State) (core ctx : Nat) (v : Word) : writeScalarNow s core ctx 0 v = s := if_pos rfl

theorem writeScalarNow_pos (s : State) (core ctx : Nat) {r : Nat} (v : Word) (h : r ≠ 0) :
    writeScalarNow s core ctx r v = withCtx s core ctx (fun c =>
      { c with scalars := Tbl.put c.scalars r v, pend := c.pend.filter (fun p => p.w.part ≠ (0, r, 0)) }) := if_neg h

@[simp] theorem writeScalarNow_ops (s : State) (core ctx r : Nat) (v : Word) : (writeScalarNow s core ctx r v).ops = s.ops := by
  unfold writeScalarNow
  split <;> rfl

theorem scalars_writeScalarNow_same (s : State) (core ctx : Nat) {r : Nat} (v : Word) (h : r ≠ 0) :
    Tbl.look 0 (ctxOf (writeScalarNow s core ctx r v) core ctx).scalars r = v := by
  rw [writeScalarNow_pos _ _ _ _ h, ctxOf_withCtx, Tbl.look_put_same]

theorem scalars_writeScalarNow_other (s : State) (core ctx : Nat) {r q : Nat} (v : Word) (h : q ≠ r) :
    Tbl.look 0 (ctxOf (writeScalarNow s core ctx r v) core ctx).scalars q = Tbl.look 0 (ctxOf s core ctx).scalars q := by
  unfold writeScalarNow
  split
  · rfl
  · rw [ctxOf_withCtx, Tbl.look_put_other _ _ _ h]

theorem ctxOf_writeScalarNow_other (s : State) (core ctx r : Nat) (v : Word) {n k : Nat} (h : (n, k) ≠ (core, ctx)) :
    ctxOf (writeScalarNow s core ctx r v) n k = ctxOf s n k := by
  unfold writeScalarNow
  split
  · rfl
  · refine ctxOf_setCtx_other _ _ ?_
    by_contra both
    exact h (by rw [show n = core by omega, show k = ctx by omega])

/-- A change of a context leaves the cores' own parts. -/
theorem coreOf_withCtx (s : State) (core ctx : Nat) (f : Ctx → Ctx) (n : Nat) :
    ({ coreOf (withCtx s core ctx f) n with ctxs := [] } : CoreSt) = { coreOf s n with ctxs := [] } := by
  by_cases h : n = core
  · subst h
    simp [withCtx, setCtx]
  · rw [withCtx, coreOf_setCtx_other _ _ h]

theorem coreOf_writeScalarNow (s : State) (core ctx r : Nat) (v : Word) (n : Nat) :
    ({ coreOf (writeScalarNow s core ctx r v) n with ctxs := [] } : CoreSt) = { coreOf s n with ctxs := [] } := by
  unfold writeScalarNow
  split
  · rfl
  · exact coreOf_withCtx ..

/-- An operation that ends OK: its accesses and itself are forgotten, and its token is written. -/
theorem finishOp_ok (s : State) (o : Op) {tok : Word} (h : tok.extractLsb' 62 2 = 0) :
    finishOp s o tok = writeScalarNow (removeOp (dropEngineReqs s o.core o.ctx o.seq) o) o.core o.ctx o.tok tok := by
  simp only [finishOp, endToken, if_pos h]

theorem ops_finishOp (s : State) (o : Op) (tok : Word) :
    ∃ l, (finishOp s o tok).ops = List.filter (fun p => !sameOp o p) l := by
  simp only [finishOp, endToken]
  split
  · exact ⟨_, writeScalarNow_ops ..⟩
  · exact ⟨_, by rw [(traffic_dropFill ..).ops, (traffic_traceToken ..).ops, writeScalarNow_ops]; rfl⟩

theorem findOp_finishOp (s : State) (o : Op) (tok : Word) : findOp (finishOp s o tok) o.core o.ctx o.seq = none := by
  obtain ⟨l, hl⟩ := ops_finishOp s o tok
  exact findOp_of_removed hl

theorem token_finishOp (s : State) (o : Op) (tok : Word) (h : o.tok ≠ 0) :
    Tbl.look 0 (ctxOf (finishOp s o tok) o.core o.ctx).scalars o.tok = tok := by
  simp only [finishOp, endToken]
  split
  · exact scalars_writeScalarNow_same _ _ _ _ h
  · rw [(traffic_dropFill ..).ctxs, (traffic_traceToken ..).ctxs]
    exact scalars_writeScalarNow_same _ _ _ _ h

theorem tokenOk_status (n : Nat) : (tokenOk n).extractLsb' 62 2 = 0 := by
  refine BitVec.eq_of_toNat_eq ?_
  rw [tokenOk, BitVec.extractLsb'_toNat, BitVec.toNat_ofNat, Nat.shiftRight_eq_div_pow]
  have small : n % 2 ^ 32 % 2 ^ 64 / 2 ^ 62 = 0 := by omega
  rw [small]
  rfl

theorem finished_finishOp (s : State) (o : Op) {tok : Word} (h : tok.extractLsb' 62 2 = 0) :
    Finished s (finishOp s o tok) o tok where
  gone := findOp_finishOp s o tok
  token := token_finishOp s o tok
  scalars r hr := by
    rw [finishOp_ok s o h, scalars_writeScalarNow_other _ _ _ _ hr]
    rfl
  others n k hk := by
    rw [finishOp_ok s o h, ctxOf_writeScalarNow_other _ _ _ _ _ hk]
    rfl
  rest p hp hne := by
    rw [finishOp_ok s o h, writeScalarNow_ops]
    refine List.mem_filter.mpr ⟨hp, ?_⟩
    rw [Bool.not_eq_true', ← Bool.not_eq_true]
    rw [← Bool.not_eq_true] at hne
    exact fun same => hne (sameOp_iff.mpr (by simpa [eq_comm] using sameOp_iff.mp same))
  mem := by
    rw [finishOp_ok s o h, writeScalarNow_mem]
    rfl

theorem coreOf_finishOp (s : State) (o : Op) {tok : Word} (h : tok.extractLsb' 62 2 = 0) (n : Nat) :
    ({ coreOf (finishOp s o tok) n with ctxs := [] } : CoreSt) = { coreOf s n with ctxs := [] } := by
  rw [finishOp_ok s o h]
  exact coreOf_writeScalarNow ..

/-! ### Chunks -/

theorem runChunks_done (f : State → Op → Nat → Except OpErr (State × Op)) (s : State) (o : Op) {l : List Nat}
    (h : ∀ k ∈ l, k ∈ o.done) : runChunks f s o l = .done s o := by
  induction l with
  | nil => rfl
  | cons k l ih =>
    have step : runChunk f s o k = .ok (s, o) := if_pos (List.contains_iff_mem.mpr (h k List.mem_cons_self))
    rw [runChunks, step]
    exact ih fun j hj => h j (List.mem_cons_of_mem _ hj)

/-- An operation that is neither suspended nor ending and whose chunks have all performed ends. -/
theorem completeOp_done (f : State → Op → Nat → Except OpErr (State × Op)) {l : List Nat}
    (fin : State → Op → State) (s : State) {o : Op} (hs : o.susp = none) (he : o.ending = none) (h : ∀ k ∈ l, k ∈ o.done) :
    completeOp f l fin s o = .next (fin s o) := by
  simp [completeOp, Op.live, hs, he, runChunks_done f s o h]

/-! ### Fills of the tagged region -/

theorem homeWrite_still {s : State} (h : s.relocs = []) (cells : List Host.Cell) : homeWrite s cells = physWrite s cells := by
  rw [homeWrite, h]

/-- The state but for what is left to follow of a log. -/
def unfollowed (s : State) : State := { s with rplay := none }

theorem unfollowed_followRecords (l : List LogRec) (s : State) : unfollowed (l.foldl followRecord s) = unfollowed s := by
  induction l generalizing s with
  | nil => rfl
  | cons x l ih => exact ih _

theorem unfollowed_followOrder (s : State) (unit ctx seq : Nat) (pas : List Nat) :
    unfollowed (followOrder s unit ctx seq pas) = unfollowed s := by
  unfold followOrder
  split
  · rfl
  · next hr =>
    clear hr
    generalize (pas.map (· / 64)).eraseDups = l
    induction l generalizing s with
    | nil => rfl
    | cons c l ih => exact (ih _).trans (unfollowed_followRecords _ s)

theorem unfollowed_noteOrder {s : State} (h : s.rlog = none) (a : Accessor) (wr : Bool) (pas : List Nat) :
    unfollowed (noteOrder s a wr pas) = unfollowed s := by
  have kept := unfollowed_followOrder s a.unit a.ctx a.seq pas
  have unlogged : (followOrder s a.unit a.ctx a.seq pas).rlog = none := (congrArg State.rlog kept).trans h
  simp only [noteOrder, unlogged, kept]

theorem finishFill_eq (slot : Nat) (e : TagEntry) (s : State) (o : Op) : ∃ v : State,
    finishFill slot e s o = finishOp (withCore v o.core (fun k =>
      { k with tags := Tbl.put k.tags slot { e with pend := false, fill := none } })) o (tokenOk 2048) ∧
    (s.rlog = none → s.relocs = [] → v.mem = (physWrite s (cellsAt (spmAddr o.core (slotOffset slot)) o.bytes)).mem) := by
  refine ⟨_, rfl, fun hlog hrel => ?_⟩
  have kept := unfollowed_noteOrder hlog (engineAccessor o.core o.ctx o.seq) true (spmPas o.core (slotOffset slot) 2048)
  have still : (noteOrder s (engineAccessor o.core o.ctx o.seq) true (spmPas o.core (slotOffset slot) 2048)).relocs = [] :=
    (congrArg State.relocs kept).trans hrel
  rw [(traffic_traceEvent ..).mem, homeWrite_still still]
  exact congrArg (fun v => memPuts v.mem _) kept

/-! ### Carves -/

theorem dropSlots_none {s : State} {core : Nat} (h : (coreOf s core).tags = []) (ctx : Nat) (p : Nat → Bool) :
    dropSlots s core ctx p = s := by
  simp [dropSlots, h]

/-- The core once a carve of it is complete, with its free bytes written to what changed role. -/
def carved (s : State) (core : Nat) (c : Carve) : State :=
  let (a, l) := carveSpan (coreOf s core)
  let (b, s) := freeBytes s Config.unspecifiedByte l
  withCore (spmWrite s core a b) core (fun k => { k with tu := c.tu, carve := none })

theorem exec_carveComplete {s : State} {core : Nat} {c : Carve} {o : Op} (hc : (coreOf s core).carve = some c)
    (htags : (coreOf s core).tags = []) (hf : findOp s core c.ctx c.seq = some o) :
    exec (.carveComplete core) s = .next (finishOp (carved s core c) o
      (tokenOk (32 * (max (coreOf s core).tu c.tu - min (coreOf s core).tu c.tu)))) := by
  have still : findOp (carved s core c) core c.ctx c.seq = some o := hf
  show execCarveComplete _ _ = _
  simp only [execCarveComplete, hc]
  rw [dropSlots_none (by exact htags)]
  simp only [carved] at still ⊢
  rw [still]

/-- Settles O36: each completion runs the command's own last step, once its chunks are seen to be done. -/
theorem commandsComplete : Obligations.CommandsComplete := by
  refine ⟨fun s o hf hs he => ⟨fun hi hc hw hd hk ht => ⟨_, ?exec, finished_finishOp s o ht⟩,
    ?cp, ?gather, ?bind, ?fill⟩, ?carve⟩
  case exec =>
    show execCopyComplete _ _ _ _ = _
    simp only [execCopyComplete, hf, hi, hc, hw, completeOp_done _ _ _ hs he hd, Option.isNone_none, Option.isSome_none,
      Bool.and_self, bne_self_eq_false, Bool.or_self, Bool.false_eq_true, if_true, if_false]
  case cp =>
    rintro t a b c ds ss len h (hi | hi) <;> simp [copyToken, hi]
  case gather =>
    rintro t a b c ds ss cl rsz cnt h (hi | hi) <;> simp [copyToken, hi]
  case bind =>
    intro t a b c dir win len h hi hd
    refine ⟨finishOp s o (tokenOk o.count), ?_, finished_finishOp s o (tokenOk_status _)⟩
    show execStreamBindComplete _ _ _ _ = _
    simp only [execStreamBindComplete, hf, hi]
    exact completeOp_done _ _ _ hs he (List.forall_mem_singleton.mpr hd)
  case fill =>
    intro t a b h slot e hi hslot hfill hd
    obtain ⟨v, hv, hmem⟩ := finishFill_eq slot e s o
    refine ⟨finishFill slot e s o, ?_, ?_, ?_, ?_, ?_⟩
    · show execTagFillDone _ _ _ = _
      simp only [execTagFillDone, hslot, hfill, Option.bind_some, hf]
      exact completeOp_done _ _ _ hs he (List.forall_mem_singleton.mpr hd)
    · rw [hv]
      exact findOp_finishOp ..
    · rw [hv]
      exact token_finishOp _ _ _
    · intro hlog hrel
      rw [hv, (finished_finishOp _ o (tokenOk_status _)).mem, ← hmem hlog hrel]
      rfl
    · have tags := congrArg CoreSt.tags (coreOf_finishOp (withCore v o.core (fun k =>
        { k with tags := Tbl.put k.tags slot { e with pend := false, fill := none } })) o (tokenOk_status 2048) o.core)
      rw [coreOf_withCore, ← hv] at tags
      exact ⟨_, (congrArg (Tbl.find · slot) tags).trans (Tbl.find_put_same ..), rfl, rfl⟩
  case carve =>
    intro s core c o hc hcore htags hf
    obtain ⟨rfl, hctx, hseq⟩ := findOp_key hf
    have cores (tok : Word) (h : tok.extractLsb' 62 2 = 0) := coreOf_finishOp (carved s o.core c) o h o.core
    simp only [carved, coreOf_withCore] at cores
    exact ⟨_, exec_carveComplete hc htags hf, hctx ▸ hseq ▸ findOp_finishOp .., congrArg CoreSt.tu (cores _ (tokenOk_status _)),
      congrArg CoreSt.carve (cores _ (tokenOk_status _)), fun h => hctx ▸ token_finishOp _ o _ h⟩

end Sys2Proof.Machine

namespace Sys2Proof.Machine

/-! ### Packets that set out -/

/-- What packets that set out, their traces and their counts leave: memory, groups, relocations and log are as they were, and no
packet is lost. -/
structure Forwards (s t : State) : Prop where
  mem : t.mem = s.mem
  groups : t.groups = s.groups
  relocs : t.relocs = s.relocs
  rlog : t.rlog = s.rlog
  packets : s.packets ⊆ t.packets

theorem Forwards.refl (s : State) : Forwards s s := ⟨rfl, rfl, rfl, rfl, List.Subset.refl _⟩

theorem Forwards.trans {s t u : State} (h : Forwards s t) (g : Forwards t u) : Forwards s u :=
  ⟨g.mem.trans h.mem, g.groups.trans h.groups, g.relocs.trans h.relocs, g.rlog.trans h.rlog,
   List.Subset.trans h.packets g.packets⟩

theorem Forwards.foldl {α : Type} {f : State → α → State} (h : ∀ s x, Forwards s (f s x)) (l : List α) (s : State) :
    Forwards s (l.foldl f s) := by
  induction l generalizing s with
  | nil => exact .refl s
  | cons x l ih => exact (h s x).trans (ih _)

theorem forwards_withCore (s : State) (n : Nat) (f : CoreSt → CoreSt) : Forwards s (withCore s n f) :=
  ⟨rfl, rfl, rfl, rfl, List.Subset.refl _⟩

theorem forwards_withSlice (s : State) (n : Nat) (f : Slice → Slice) : Forwards s (withSlice s n f) :=
  ⟨rfl, rfl, rfl, rfl, List.Subset.refl _⟩

theorem forwards_addPacket (s : State) (p : NetPacket) : Forwards s (addPacket s p) :=
  ⟨rfl, rfl, rfl, rfl, List.subset_append_left _ _⟩

theorem forwards_traceEvent (s : State) (core cls ctx sub : Nat) (pay : Word) :
    Forwards s (traceEvent s core cls ctx sub pay) := by
  unfold traceEvent
  split
  · exact forwards_withCore ..
  · exact .refl s

theorem forwards_traceTrigger (s : State) (core source ctx : Nat) : Forwards s (traceTrigger s core source ctx) := by
  simp only [traceTrigger]
  split
  · exact (forwards_withCore ..).trans (forwards_withCore ..)
  · exact .refl s

theorem forwards_countLateUnit (s : State) (p : Packet) : Forwards s (countLateUnit s p) := by
  simp only [countLateUnit]
  split
  · exact ((forwards_withCore ..).trans (forwards_traceEvent ..)).trans (forwards_traceTrigger ..)
  · split
    · exact forwards_withSlice ..
    · exact ⟨rfl, rfl, rfl, rfl, List.Subset.refl _⟩

theorem forwards_sendUnit (s : State) (p : NetPacket) : Forwards s (sendUnit s p) := by
  simp only [sendUnit]
  split
  · exact (forwards_addPacket s p).trans (forwards_countLateUnit ..)
  · exact forwards_addPacket s p

theorem forwards_sendUnitAccess (s : State) (src : Nat) (wr : Bool) (dst pa len : Nat) :
    Forwards s (sendUnitAccess s src wr dst pa len) := by
  have numbered (n : Nat) : Forwards s { s with nextReq := n } := ⟨rfl, rfl, rfl, rfl, List.Subset.refl _⟩
  exact (numbered _).trans (forwards_sendUnit ..)

theorem forwards_cacheAccess (s : State) (pa : Nat) (hint : CacheHint) (wr : Bool) : Forwards s (cacheAccess s pa hint wr) := by
  unfold cacheAccess
  split
  · exact .refl s
  · exact (forwards_withSlice ..).trans (Forwards.foldl (fun s _ => forwards_sendUnitAccess s ..) _ _)

theorem forwards_touchLines (s : State) (pas : List Nat) (hint : CacheHint) (wr : Bool) :
    Forwards s (touchLines s pas hint wr) := Forwards.foldl (fun s _ => forwards_cacheAccess s ..) _ _

theorem logAt_unlogged {s : State} (h : s.rlog = none) (core ctx typ : Nat) (key : Word) (aux seq : Nat) (l : List Byte) :
    logAt s core ctx typ key aux seq l = s := by
  unfold logAt logRecord
  split
  · rfl
  · rw [h]

theorem forwards_lateTrace {s : State} (h : s.rlog = none) (core ctx vc pa tag : Nat) :
    Forwards s (lateTrace s core ctx vc pa tag) := by
  have sent := (forwards_traceEvent s core 4 ctx vc (BitVec.ofNat 64 (tag % 2 ^ 16 * 2 ^ 48 + pa))).trans
    (forwards_traceTrigger _ core 2 ctx)
  rw [lateTrace, logAt_unlogged (sent.rlog.trans h)]
  exact sent

theorem forwards_lateAtIssue {s : State} (h : s.rlog = none) (vc pa tag : Nat) : Forwards s (lateAtIssue s vc pa tag) := by
  simp only [lateAtIssue]
  split
  · exact .refl s
  · exact ((forwards_withCore s s.cur.1 _).trans (forwards_lateTrace (s := countLate s s.cur.1) h ..)).trans
      ⟨rfl, rfl, rfl, rfl, List.Subset.refl _⟩

/-- A packet that no context has sent sets out. -/
theorem forwards_sendPacket {s : State} (h : s.rlog = none) {p : NetPacket} (hp : 5 ≤ p.pkt.srcCtx.toNat) :
    Forwards s (sendPacket s p) ∧ p ∈ (sendPacket s p).packets := by
  have added := forwards_addPacket s p
  have later : Forwards (addPacket s p) (sendPacket s p) := by
    simp only [sendPacket]
    split
    · exact .refl _
    · split
      · exact forwards_lateAtIssue (added.rlog.trans h) ..
      · unfold packetLate
        rw [if_neg (c := p.pkt.srcCtx.toNat < 5 ∧ _) (by omega)]
        split
        · exact .refl _
        · exact forwards_countLateUnit ..
  exact ⟨added.trans later, later.packets (List.mem_append_right _ List.mem_cons_self)⟩

/-! ### Releases of a group -/

theorem sendRelease_sends {s : State} (h : s.rlog = none) (n gen : Nat) (e : BitVec 384) (g : Nat × Nat) :
    Forwards s (sendRelease n gen e s g) ∧ ∃ p ∈ (sendRelease n gen e s g).packets, p.pkt.typ = 0x13 ∧
      p.pkt.dst = BitVec.ofNat 16 g.2 ∧ p.pkt.dstDev = BitVec.ofNat 10 g.1 := by
  have numbered : Forwards s { s with nextReq := s.nextReq + 1 } := ⟨rfl, rfl, rfl, rfl, List.Subset.refl _⟩
  obtain ⟨sent, hp⟩ := forwards_sendPacket (s := { s with nextReq := s.nextReq + 1 }) (h := h) (p := netPacket s s.nextReq
    (newPacket s ⟨s.nextReq, rootEndpoint s e, 7, 0, netSlackOf s (rootEndpoint s e), 0⟩ 0x13 g.2 g.1 (rgHome e)
      (contribAux n gen ⟨0, [], [(0, 0, 0), (rgCount e - 1, 0, 0)]⟩) 0 []) [] none) (show 5 ≤ (7 : BitVec 3).toNat by decide)
  exact ⟨numbered.trans sent, _, hp, rfl, rfl, rfl⟩

theorem sendReleases {s : State} (h : s.rlog = none) (n gen : Nat) (e : BitVec 384) (l : List (Nat × Nat)) :
    Forwards s (l.foldl (sendRelease n gen e) s) ∧ ∀ g ∈ l, ∃ p ∈ (l.foldl (sendRelease n gen e) s).packets,
      p.pkt.typ = 0x13 ∧ p.pkt.dst = BitVec.ofNat 16 g.2 ∧ p.pkt.dstDev = BitVec.ofNat 10 g.1 := by
  induction l generalizing s with
  | nil => exact ⟨.refl s, fun _ hg => absurd hg List.not_mem_nil⟩
  | cons g l ih =>
    obtain ⟨first, p, hp, hpacket⟩ := sendRelease_sends h n gen e g
    obtain ⟨rest, sent⟩ := ih (first.rlog.trans h)
    refine ⟨first.trans rest, fun q hq => ?_⟩
    rcases List.mem_cons.mp hq with rfl | hq
    · exact ⟨p, rest.packets hp, hpacket⟩
    · exact sent q hq

theorem nextGen_gen (e : BitVec 384) : (nextGen e).extractLsb' 48 16 = e.extractLsb' 48 16 + 1 := by
  have cleared : (e &&& ~~~ ((0xFFFF#384) <<< 48)).extractLsb' 48 16 = 0 := extractLsb'_and_zero _ _ (by decide)
  have put (v : BitVec 384) : (v <<< 48).extractLsb' 48 16 = v.extractLsb' 0 16 := by
    refine BitVec.eq_of_getLsbD_eq fun i hi => ?_
    simp [hi, show 48 + i < 384 by omega, BitVec.getLsbD_eq_getElem (show i < 384 by omega)]
  rw [nextGen, BitVec.extractLsb'_or, cleared, put]
  refine BitVec.eq_of_toNat_eq ?_
  have small (n : Nat) : n % 65536 % 2 ^ 384 % 65536 = n % 65536 := by
    rw [Nat.mod_eq_of_lt (a := n % 65536) (lt_trans (Nat.mod_lt n (by decide)) (by decide)), Nat.mod_mod]
  simp [rgGen, BitVec.extractLsb'_toNat, small]

/-! ### Records of a contribution -/

/-- The record of one element of an exact contribution. -/
def elementRecord (first : Nat) (v : BitVec 384 × Nat) : List Byte :=
  toBytes 48 v.1.toNat ++ toBytes 2 (first + v.2) ++ List.replicate 14 0

theorem partBytes_exact {e : BitVec 384} (h : rgFast e = false) (c : Contribution) :
    partBytes e c = c.vals.zipIdx.flatMap (elementRecord c.first) := by
  simp only [partBytes, h, Bool.false_eq_true, if_false]
  rfl

theorem flatMap_length {α : Type} {f : α → List Byte} {n : Nat} (h : ∀ a, (f a).length = n) (l : List α) :
    (l.flatMap f).length = n * l.length := by
  simp [List.length_flatMap, h, Nat.mul_comm]

theorem flatMap_drop {α : Type} {f : α → List Byte} {n : Nat} (h : ∀ a, (f a).length = n) (l : List α) (i : Nat) :
    (l.flatMap f).drop (n * i) = (l.drop i).flatMap f := by
  induction i generalizing l with
  | zero => simp
  | succ i ih =>
    cases l with
    | nil => simp
    | cons a l =>
      rw [List.flatMap_cons, List.drop_succ_cons, ← ih, Nat.mul_succ, Nat.add_comm, ← List.drop_drop, ← h a, List.drop_left]

theorem partOfBytes_partBytes {e : BitVec 384} (h : rgFast e = false) (c : Contribution) (givers : List (Nat × Nat × Nat)) :
    (partOfBytes true (partBytes e c) givers).vals = c.vals := by
  have size (v : BitVec 384 × Nat) : (elementRecord c.first v).length = 64 := by simp [elementRecord]
  have count : (partBytes e c).length / 64 = c.vals.length := by
    rw [partBytes_exact h, flatMap_length size, List.length_zipIdx, Nat.mul_div_cancel_left _ (by decide)]
  refine List.ext_getElem (by simp [partOfBytes, count]) fun i h1 h2 => ?_
  have rest : ((partBytes e c).drop (64 * i)).take 48 = toBytes 48 c.vals[i].toNat := by
    rw [partBytes_exact h, flatMap_drop size, List.drop_eq_getElem_cons (by simpa using h2), List.flatMap_cons]
    simp [elementRecord]
  have value : BitVec.ofNat 384 (c.vals[i].toNat % 256 ^ 48) = c.vals[i] := by
    rw [Nat.mod_eq_of_lt (lt_of_lt_of_eq c.vals[i].isLt (by decide)), BitVec.ofNat_toNat, BitVec.setWidth_eq]
  simp only [partOfBytes, if_true, List.getElem_map, List.getElem_range, rest, ofBytes_toBytes, value]

/-! ### Parts that combine -/

theorem joinParts_exact {e : BitVec 384} (h : rgFast e = false) {a b : Contribution} (hf : a.first = b.first)
    (hr : ∀ r ∈ a.ranks, r ∉ b.ranks) : joinParts e a b = some
      { first := a.first, vals := a.vals.zipWith combineExact b.vals, givers := a.givers ++ b.givers } := by
  have apart : (a.ranks.any (fun r => b.ranks.contains r)) = false := by
    rw [List.any_eq_false]
    exact fun r hr' hc => hr r hr' (List.contains_iff_mem.mp hc)
  simp only [joinParts, hf, apart, h, ne_eq, not_true, Bool.false_eq_true, or_self, if_false, Bool.not_false, if_true]

/-- The packet that two of a group leave at a combining point. -/
def merged (e : BitVec 384) (p q : NetPacket) (c : Contribution) : NetPacket :=
  let j := withPart e (auxGroup p.pkt.aux) (auxGen p.pkt.aux) p c
  { j with
    acc := true
    pkt := { j.pkt with
      slack := if q.pkt.slack < p.pkt.slack then q.pkt.slack else p.pkt.slack
      late := p.pkt.late || q.pkt.late }
    lateAt := match p.lateAt, q.lateAt with
      | some x, some y => some (min x y)
      | none, y => y
      | x, none => x }

/-- The state with the packet numbered `a` changed and the one numbered `b` gone. -/
def joined (s : State) (a b : Nat) (p : NetPacket) : State :=
  dropPacket { s with packets := s.packets.map (fun x => if x.id = a then p else x) } b

theorem findPacket_joined_same {s : State} {a b : Nat} {p q : NetPacket} (hp : findPacket s a = some p) (hq : q.id = a)
    (h : a ≠ b) :
    findPacket (joined s a b q) a = some q := by
  have found : (s.packets.map (fun x => if x.id = a then q else x)).find? (fun x => x.id == a) = some q := by
    have hit : (fun x : NetPacket => x.id == a) ∘ (fun x => if x.id = a then q else x) = fun x => x.id == a := by
      funext x
      by_cases hx : x.id = a <;> simp [hx, hq]
    rw [List.find?_map, hit, show s.packets.find? (fun x => x.id == a) = some p from hp]
    have hid : p.id = a := by simpa using List.find?_some hp
    simp [hid]
  have kept (x : NetPacket) : decide (decide (x.id ≠ b) = true ∧ (x.id == a) = true) = (x.id == a) := by
    by_cases hx : x.id = a <;> simp [hx, h]
  simp only [findPacket, joined, dropPacket, List.find?_filter, kept]
  exact found

theorem findPacket_joined_gone (s : State) (a b : Nat) (p : NetPacket) : findPacket (joined s a b p) b = none := by
  refine List.find?_eq_none.mpr fun x hx hid => ?_
  have := (List.mem_filter.mp hx).2
  simp_all

section Combine

variable {s : State} {p q : NetPacket}

theorem exec_contribCombine {e : BitVec 384} (he : e = (Tbl.look RGroup.init s.groups (auxGroup p.pkt.aux)).entry)
    (hp : findPacket s p.id = some p) (hq : findPacket s q.id = some q)
    (hne : p.id ≠ q.id) (htp : p.pkt.typ = 7) (htq : q.pkt.typ = 7) (hplace : p.place = q.place) (hat : combinesAt p.place = true)
    (hacc : accTaken s p = false) (hg : auxGroup q.pkt.aux = auxGroup p.pkt.aux) (hgen : auxGen q.pkt.aux = auxGen p.pkt.aux)
    (hd : p.pkt.dstDev = q.pkt.dstDev) (hep : p.pkt.exact = true) (heq : q.pkt.exact = true)
    (hfast : rgFast e = false) {c : Contribution} (hc : joinParts e (partOf p) (partOf q) = some c) :
    exec (.contribCombine (auxGroup p.pkt.aux) p.id q.id) s = .next (joined s p.id q.id (merged e p q c)) := by
  subst he
  have may : p.id ≠ q.id ∧ True ∧ p.pkt.typ = 7 ∧ q.pkt.typ = 7 ∧ p.place = q.place ∧
      combinesAt p.place = true ∧ (!accTaken s p) = true ∧ auxGroup q.pkt.aux = auxGroup p.pkt.aux ∧
      auxGen q.pkt.aux = auxGen p.pkt.aux ∧ p.pkt.dstDev = q.pkt.dstDev ∧ p.pkt.exact = q.pkt.exact ∧
      p.pkt.exact = !rgFast (Tbl.look RGroup.init s.groups (auxGroup p.pkt.aux)).entry :=
    ⟨hne, trivial, htp, htq, hplace, hat, by rw [hacc]; rfl, hg, hgen, hd, hep.trans heq.symm, by rw [hep, hfast]; rfl⟩
  show execContribCombine _ _ _ _ = _
  rw [findPacket] at hp hq
  simp only [execContribCombine, hp, hq, if_pos may, hc]
  rfl

theorem partOf_merged {e : BitVec 384} (hfast : rgFast e = false) (c : Contribution) :
    (partOf (merged e p q c)).vals = c.vals ∧ (partOf (merged e p q c)).ranks = c.ranks := by
  have exact' : (merged e p q c).pkt.exact = true := by
    show (!rgFast e) = true
    rw [hfast]
    rfl
  rw [partOf, exact']
  exact ⟨partOfBytes_partBytes hfast c _, rfl⟩

theorem slack_merged (e : BitVec 384) (c : Contribution) :
    (merged e p q c).pkt.slack.toNat = min p.pkt.slack.toNat q.pkt.slack.toNat := by
  show (if q.pkt.slack < p.pkt.slack then q.pkt.slack else p.pkt.slack).toNat = _
  split
  · next h =>
    rw [BitVec.lt_def] at h
    omega
  · next h =>
    rw [BitVec.lt_def] at h
    omega

end Combine

/-- The completion of a reduction writes its elements at the root and sends the releases. -/
theorem exec_reductionComplete {s : State} {group : Nat} {g : RGroup} {parts : List Contribution}
    (hg : g = Tbl.look RGroup.init s.groups group) (hparts : parts = settleParts g.entry g.parts)
    (hv : rgValid g.entry = true) (hroot : rgRoot g.entry = s.device.toNat) (hc : complete g.entry parts = true)
    (hrel : s.relocs = []) (hlog : s.rlog = none) :
    ∃ u, exec (.reductionComplete group) s = .next u ∧
      u.mem = (physWrite s (cellsAt (rgHome g.entry) (resultBytes g.entry (wholePart g.entry parts)))).mem ∧
      Tbl.look RGroup.init u.groups group = { entry := nextGen g.entry, parts := [] } ∧
      ∀ x ∈ giversOf parts, ∃ p ∈ u.packets, p.pkt.typ = 0x13 ∧ p.pkt.dst = BitVec.ofNat 16 x.2 ∧
        p.pkt.dstDev = BitVec.ofNat 10 x.1 := by
  subst hg hparts
  set e := (Tbl.look RGroup.init s.groups group).entry
  set parts := settleParts e (Tbl.look RGroup.init s.groups group).parts
  set cells := cellsAt (rgHome e) (resultBytes e (wholePart e parts))
  have touched := forwards_touchLines s (cells.map (·.1)) plainHint true
  have still := touched.relocs.trans hrel
  obtain ⟨sent, packets⟩ := sendReleases (s := { homeWrite (touchLines s (cells.map (·.1)) plainHint true) cells with
    groups := Tbl.put (homeWrite (touchLines s (cells.map (·.1)) plainHint true) cells).groups group
      { entry := nextGen e, parts := [] } }) (by
        rw [homeWrite_still still]
        exact touched.rlog.trans hlog) group (rgGen e % 256) e (giversOf parts)
  refine ⟨_, ?_, sent.mem.trans ?_, ?_, packets⟩
  · show execReductionComplete _ _ = _
    simp only [execReductionComplete]
    rw [if_pos (by simp only [Bool.and_eq_true, beq_iff_eq]; exact ⟨⟨hv, hroot⟩, hc⟩)]
  · rw [homeWrite_still still]
    exact congrArg (fun m => memPuts m cells) touched.mem
  · rw [sent.groups, Tbl.look_put_same]

theorem toNat_ne_zero {w : Nat} {r : BitVec w} (h : r ≠ 0) : r.toNat ≠ 0 := fun h0 => h (BitVec.eq_of_toNat_eq h0)

/-- Settles O38: each completion is run under its hypotheses; a record of a partial keeps its elements, so that the combined packet
holds the elements that combining gives, and packets that set out lose none of those before them. -/
theorem atomicsAndFabricComplete : Obligations.AtomicsAndFabricComplete := by
  refine ⟨?atomic, fun s o hf hs he => ⟨?fabric, ?check⟩, ?combine, ?root, ?release⟩
  case atomic =>
    intro s o r t a b c aop scope ty ord disp h hf hi htok hdata ht hc htc hr hl
    have answered : ∃ v, execAtomicReply o.core o.ctx o.seq s =
        .next (finishOp (writeScalarNow v o.core o.ctx o.data (atomicOld ty (ofBytes r.value))) o (tokenOk 1)) ∧ v.mem = s.mem := by
      simp only [execAtomicReply, hf, atomicOf, hi, hr, hl, Bool.not_true, Bool.false_eq_true, if_false]
      split
      · next h0 => exact absurd (hdata.symm.trans h0) (toNat_ne_zero hc)
      · exact ⟨_, rfl, rfl⟩
    obtain ⟨v, hv, hmem⟩ := answered
    have htok' : o.tok ≠ 0 := htok ▸ toNat_ne_zero ht
    have ended := finished_finishOp (writeScalarNow v o.core o.ctx o.data (atomicOld ty (ofBytes r.value))) o (tokenOk_status 1)
    refine ⟨_, hv, ended.gone, ?_, ?_, ?_⟩
    · rw [ended.mem, writeScalarNow_mem, hmem]
    · rw [scalarOf, if_neg ht, ← htok, ended.token htok']
      rfl
    · have hne : c.toNat ≠ o.tok := by
        rw [htok]
        exact fun h => htc (BitVec.eq_of_toNat_eq h.symm)
      rw [scalarOf, if_neg hc, ended.scalars _ hne, ← hdata, scalars_writeScalarNow_same _ _ _ _ (hdata ▸ toNat_ne_zero hc)]
      rfl
  case fabric =>
    intro hi hp hd
    refine ⟨finishOp s o (fabricToken o), ?_, finished_finishOp s o ?_⟩
    · show execFabricCommandComplete _ _ _ _ = _
      simp only [execFabricCommandComplete, hf, hi, hp, Bool.not_false, Bool.and_self, if_true, completeOp_done _ _ _ hs he hd]
    · unfold fabricToken
      split <;> exact tokenOk_status _
  case check =>
    intro t a b w cnt sl hi hw hd
    have copy : isCopyCommand (.kvChk t a b w cnt sl) = true := rfl
    have alone : o.contribution = none := by simp [Op.contribution, hi]
    have done : execCopyComplete o.core o.ctx o.seq s = .next (kvChkFinish s o) := by
      simp only [execCopyComplete, hf, copy, alone, hw, completeOp_done _ _ _ hs he hd, hi, Option.isNone_none, Option.isSome_none,
        Bool.and_self, bne_self_eq_false, Bool.or_self, Bool.false_eq_true, if_true, if_false]
    have kept : Finished s (finishOp s o (tokenOk o.count)) o (tokenOk o.count) := finished_finishOp s o (tokenOk_status _)
    cases w with
    | false =>
      have quiet : kvChkFinish s o = finishOp s o (tokenOk o.count) := by simp only [kvChkFinish, hi]
      rw [quiet] at done
      exact ⟨_, done, kept.gone, kept.token, fun h => absurd h Bool.false_ne_true⟩
    | true =>
      have flagged : kvChkFinish s o = setFlags (finishOp s o (tokenOk o.count)) o.core o.ctx 0x800 := by
        simp only [kvChkFinish, hi]
      rw [flagged] at done
      refine ⟨_, done, kept.gone, fun ht => ?_, fun _ => ?_⟩
      · rw [setFlags, ctxOf_withCtx]
        exact kept.token ht
      · rw [setFlags, ctxOf_withCtx, BitVec.getLsbD_or]
        simp
  case combine =>
    intro s p q hp hq hne htp htq hplace hat hacc hg hgen hd hep heq hfast hfirst _ _ hr
    have hc := joinParts_exact hfast hfirst hr
    obtain ⟨hvals, hranks⟩ := partOf_merged (p := p) (q := q) hfast _
    exact ⟨_, _, exec_contribCombine rfl hp hq hne htp htq hplace hat hacc hg hgen hd hep heq hfast hc,
      findPacket_joined_same hp rfl hne, findPacket_joined_gone .., hvals, hranks.trans List.map_append, rfl, slack_merged .., rfl⟩
  case root =>
    intro s group g parts hv hroot hcomplete hrel hlog
    obtain ⟨u, hu, hmem, hgroup, hsent⟩ := exec_reductionComplete rfl rfl hv hroot hcomplete hrel hlog
    refine ⟨u, hu, hmem, by rw [hgroup], by rw [hgroup, nextGen_gen], fun d c hdc hd hc => ?_⟩
    obtain ⟨p, hp, htyp, hdst, hdev⟩ := hsent _ hdc
    exact ⟨p, hp, htyp, by rw [hdst, BitVec.toNat_ofNat, Nat.mod_eq_of_lt hc],
      by rw [hdev, BitVec.toNat_ofNat, Nat.mod_eq_of_lt hd]⟩
  case release =>
    intro s core aux o ho u
    have hu : ∃ v, u = finishOp v o (tokenOk (rgBytes (Tbl.look RGroup.init s.groups (auxGroup aux)).entry)) := by
      simp only [u, releaseAt, apply_ite State.ops, ite_self, ho]
      exact ⟨_, rfl⟩
    obtain ⟨v, hv⟩ := hu
    rw [hv]
    exact ⟨findOp_finishOp .., token_finishOp _ _ _⟩

end Sys2Proof.Machine

namespace Sys2Proof.Machine

/-! ## Range commands while a launch records (O41) -/

/-- Launch 0 records, its log empty and with room. -/
def emptyLog : RLog :=
  { launch := 0, start := 0, gen := 0, used := 0, nrec := 0, ovf := false, ended := false, dispatches := 0, grants := [],
    unsent := [], last := [] }

/-- Address space 1 with an empty directory, while the launch whose task context 0 of core 0 runs records to 0x100000. -/
def recordingRanges : State :=
  { State.reset with
    mem := memPuts [] (cellsAt 0x10 (toBytes 16 (0x2000 + 2 ^ 64 + 2 ^ 97)))
    rlog := some emptyLog, rlogb := 0x100000, rlogl := 0x100000
    cores := [(0, { CoreSt.init with ctxs := [(0, { Ctx.init with task := some { launch := 0, task := 0 } })] })] }

/-- A range command of that context in address space 1 whose packets have no slack left. -/
def lateCommand : Op := { newOp State.reset (.rngDel 5 6 7 0) 5 with asid := 1, slk := 0 }

/-- The packet of the root entry's write is late, and the record of its lateness is the first of the log. -/
theorem recordingRanges_commit : Memory.wf recordingRanges.mem = true ∧
    rootOf recordingRanges 1 = some { base := 0x2000, count := 0, cap := 1 } ∧ rootAddr recordingRanges 1 = 0x10 ∧
    memByte recordingRanges.mem 0x100040 = 0 ∧
    memByte (commitRange recordingRanges lateCommand (fun _ => []) 0 0).mem 0x100040 = 9 := by
  decide +kernel

/-- Refutes O41: the statement lets a launch record while a directory is written. A packet of that write without slack is late,
and a late packet of a task of the recording launch is logged in memory, outside the directory and its root entry. -/
theorem not_rangeCommands : ¬ Obligations.RangeCommands := by
  rintro ⟨-, -, commits, -⟩
  obtain ⟨hwf, hroot, hat, hbefore, hafter⟩ := recordingRanges_commit
  obtain ⟨-, -, kept⟩ := commits recordingRanges lateCommand (fun _ => []) 0 0 _ hroot hwf
  have region (a : Nat) (ha : (0x2000 ≤ a ∧ a < 0x2000) ∨ (0x10 ≤ a ∧ a < 0x10 + 16)) : ∃ k, regionOf a = .hbm k := by
    have : Config.hbmBytes = 0x324A9A7000 := rfl
    exact ⟨0, by rw [regionOf, if_pos (by omega)]⟩
  obtain ⟨-, -, -, -, outside⟩ := kept (.inr (by rw [show lateCommand.asid = 1 from rfl, hat]; decide)) (by decide) (by
    rw [show lateCommand.asid = 1 from rfl, hat]
    exact region)
  have same := outside 0x100040 (.inr (by decide)) (.inr (by rw [show lateCommand.asid = 1 from rfl, hat]; decide))
  rw [hafter, hbefore] at same
  exact absurd same (by decide)

end Sys2Proof.Machine

namespace Sys2Proof.Machine

/-! ## A scratchpad unit that is gated while a fill of a slot in it holds a claim (O57) -/

/-- A fill of slot 0 of the tagged region of core 0. -/
def claimingFill : Op := newOp State.reset (.tagFl 5 6 7 ⟨0, 0, false⟩) 5

/-- Unit 11 of core 0, which holds slot 0 of the tagged region, may be gated. Slot 0 waits for its fill; a request of the fill has
claimed the presence pair at address 0, which reads FILLING, and no fill of it is queued yet. -/
def claimedUnit : State :=
  { State.reset with
    mem := [(0, 3)]
    cores := [(0, { CoreSt.init with
      spgGate := 0x800, spgAwake := 0x800
      tags := [(0, { pend := true, asid := 0, vtag := 0, fill := some (0, 1) })] })]
    ops := [claimingFill]
    reqs := [{ id := 0, core := 0, ctx := 0, kind := .code 1 0 0 2 3, asid := 0, pas := [], cookie := 0, slk := 0, icnt := 0,
               after := [], value := [2, 0], performed := false, hint := ⟨0, false, false⟩, orphan := false }] }

theorem claimedUnit_gates : (coreOf claimedUnit 0).spgGate.getLsbD 11 = true ∧ (coreOf claimedUnit 0).spgAwake.getLsbD 11 = true ∧
    carveChanges (coreOf claimedUnit 0) 11 = false ∧ unitAccessed claimedUnit 0 11 = false ∧ memByte claimedUnit.mem 0 = 3 ∧
    ∃ t, exec (.spmUnitGate 0 11) claimedUnit = .next t ∧ memByte t.mem 0 = 2 :=
  ⟨by decide, by decide, by decide, by decide, by decide, _, rfl, by decide +kernel⟩

/-- Refutes O57: a gated unit drops its slots of the tagged region and cancels their fills, and a command that is cancelled takes
back its claims: the presence pair of a fill's claim goes from FILLING to GAP, outside the unit. -/
theorem not_powerAndService : ¬ Obligations.PowerAndService := by
  intro h
  obtain ⟨hgate, hawake, hcarve, hquiet, hbefore, u, hu, hafter⟩ := claimedUnit_gates
  obtain ⟨-, -, -, -, -, -, units, -⟩ := h.1 claimedUnit ⟨[], [], [], 0, 0⟩ ⟨none, 0, 0, 0, [], 0, 0⟩ 0 11 0 0
  obtain ⟨t, ht, -, kept⟩ := (units (by decide)).1 (by decide) hgate hawake hcarve hquiet
  obtain rfl : u = t := by simpa using hu.symm.trans ht
  have same := kept 0
  rw [hbefore, hafter, if_neg (by decide)] at same
  exact absurd same (by decide)

end Sys2Proof.Machine

namespace Sys2Proof.Machine

/-! ## Element-wise floating point and the special functions (O43) -/

section Elementwise

variable {s : State} {d a b : Reg} {c : Option Reg} {pm : BitVec 3} {r : Rnd} {bs : Bool} {dt : BitVec 4} {x n : Nat}
  {ta tc : Tile} {vb : VecB}

/-- What the checks of a B operand answer. -/
structure ReadsB (s : State) (b : Reg) (bs : Bool) (ok : List Nat) (v : VecB) : Prop where
  reads : ∃ w, holdB s b bs = .ok w ∧ operandB s b bs w = .ok v
  tag : v.tagOk ok = .ok ()

theorem SourceB.reads {ok : List Nat} (h : SourceB s b bs ok vb) : ReadsB s b bs ok vb := by
  cases bs with
  | true =>
    obtain ⟨hb, rfl⟩ := h
    exact ⟨⟨sv s b, readS_ok (readable_cons.mp hb).1, rfl⟩, rfl⟩
  | false =>
    obtain ⟨t, ht, rfl⟩ := h
    have read := ht.reads
    refine ⟨⟨0, ?hold, ?operand⟩, read.tag⟩
    case hold => simp only [holdB, Bool.false_eq_true, if_false, read.free, except_ok_bind]
    case operand => simp only [operandB, Bool.false_eq_true, if_false, read.src, except_ok_bind]

/-- The state after `n` values of each included row are rounded once into format `dt` and put on their way to tile register
`x`, with the control words of `ta` and the tag. -/
def roundedElements (s : State) (x : Nat) (ta : Tile) (pm : BitVec 3) (r : Rnd) (dt : BitVec 4) (n base : Nat)
    (f : Nat → Nat → Val) : State :=
  let p := roundRows s (resolveMode (me s) r) r dt.toNat (included s pm (rowsOf (me s))) n f
  results p.2 (base + kOf (rowsOf (me s)))
    (elementWrites x (tileOf (here s) x) ta (elemBits dt.toNat) 0 p.1 ++ [.tileTag x dt])

variable (hd : TileAt s d x) (hr : RowsOk s) (ha : Reads s a wideTags ta)

include hd hr ha

theorem vecUnary_ok (hn : Columns s (elemsPerRow dt.toNat) [ta] n) (f : Val → Val) (base : Nat) :
    vecUnary f base d a pm r dt s = .ok (roundedElements s x ta pm r dt n base fun i j => f (tileValue ta i j)) := by
  simp only [vecUnary, tileFree_ok hd, ha.free, vecTile_ok hd, ha.src, vecRows_ok hr, ha.tag, vecCount_ok hn, except_ok_bind]
  rfl

theorem vecBinary_ok (hb : ReadsB s b bs wideTags vb) (hc : Reads s (c.getD a) wideTags tc)
    (hn : Columns s (elemsPerRow dt.toNat) ([ta, tc] ++ vb.tiles) n) (f : Val → Val → Val → Val) :
    vecBinary f d a b c pm r bs dt s = .ok (roundedElements s x ta pm r dt n 4 fun i j =>
      f (tileValue ta i j) (vb.value i j) (tileValue tc i j)) := by
  obtain ⟨w, hold, operand⟩ := hb.reads
  simp only [vecBinary, tileFree_ok hd, ha.free, hold, hc.free, vecTile_ok hd, ha.src, operand, hc.src, vecRows_ok hr, ha.tag,
    hb.tag, hc.tag, vecCount_ok hn, except_ok_bind]
  rfl

end Elementwise

/-- Settles O43: the checks of one, two or three sources pass, and what follows them is the rounding of the instruction's
function; an instruction of two tile sources reads A again for the third. -/
theorem vectorFloat : Obligations.VectorFloat := by
  intro s d a b c pm r bs dt x n ta tc vb hd ha hr
  refine ⟨fun hn => ?unary, fun hb => ⟨fun hn => ?binary, fun hc hn => ?fused⟩⟩
  case unary =>
    have rounds (f : Val → Val) (base : Nat) := vecUnary_ok (pm := pm) (r := r) hd hr ha.reads hn f base
    exact ⟨exec_of_ok rfl (rounds Val.abs 4), exec_of_ok rfl (rounds Val.negate 4), exec_of_ok rfl (rounds valExp2 8),
      exec_of_ok rfl (rounds valLog2 8), exec_of_ok rfl (rounds valRcp 8), exec_of_ok rfl (rounds valRsq 8),
      exec_of_ok rfl (rounds valTanh 8), exec_of_ok rfl (rounds valSig 8), exec_of_ok rfl (rounds valSin 8)⟩
  case binary =>
    obtain ⟨hcols, hle, held⟩ := hn
    have twice : Columns s (elemsPerRow dt.toNat) ([ta, ta] ++ vb.tiles) n :=
      ⟨hcols, hle, List.forall_mem_cons.mpr ⟨held ta List.mem_cons_self, held⟩⟩
    have rounds (f : Val → Val → Val) :=
      vecBinary_ok (pm := pm) (r := r) (c := none) hd hr ha.reads hb.reads ha.reads twice fun u v _ => f u v
    exact ⟨exec_of_ok rfl (rounds Val.add), exec_of_ok rfl (rounds fun u v => u.add v.negate), exec_of_ok rfl (rounds Val.mul),
      exec_of_ok rfl (rounds Val.min), exec_of_ok rfl (rounds Val.max)⟩
  case fused =>
    exact exec_of_ok rfl (vecBinary_ok (c := some c) hd hr ha.reads hb.reads hc.reads hn fun u v w => (u.mul v).add w)

end Sys2Proof.Machine

namespace Sys2Proof.Machine

/-! ## Elements put into a row (O46) -/

theorem elemBits_pos (tag : Nat) : 0 < elemBits tag := by
  unfold elemBits
  split <;> decide

theorem testBit_elemOf (tag : Nat) (row : Row) (j i : Nat) :
    (elemOf tag row j).testBit i = (decide (i < elemBits tag) && row.getLsbD (j * elemBits tag + i)) := by
  rw [elemOf, BitVec.testBit_toNat, BitVec.getLsbD_extractLsb']

/-- The number that `putElems` shifts into the row: the elements side by side, each modulo its width. -/
def packedElems (w : Nat) (l : List Nat) : Nat := l.foldr (fun e acc => e % 2 ^ w + 2 ^ w * acc) 0

theorem packedElems_cons (w e : Nat) (l : List Nat) : packedElems w (e :: l) = 2 ^ w * packedElems w l + e % 2 ^ w :=
  Nat.add_comm ..

/-- Bit `i` of element `k`; past the last element every bit is clear. -/
theorem testBit_packedElems {w i : Nat} (hi : i < w) (l : List Nat) (k : Nat) :
    (packedElems w l).testBit (k * w + i) = (l.getD k 0 % 2 ^ w).testBit i := by
  induction l generalizing k with
  | nil => simp [packedElems]
  | cons e l ih =>
    rw [packedElems_cons, Nat.testBit_two_pow_mul_add _ (Nat.mod_lt e (Nat.two_pow_pos w))]
    cases k with
    | zero => rw [Nat.zero_mul, Nat.zero_add, if_pos hi, List.getD_cons_zero]
    | succ k =>
      have next : (k + 1) * w + i = w + (k * w + i) := by ring
      rw [next, if_neg (by omega), Nat.add_sub_cancel_left, ih, List.getD_cons_succ]

theorem putElems_eq (w first : Nat) (old : Row) (l : List Nat) : putElems w first old l =
    (old &&& ~~~ (BitVec.ofNat 4096 (2 ^ (w * l.length) - 1) <<< (first * w))) |||
      (BitVec.ofNat 4096 (packedElems w l) <<< (first * w)) := rfl

/-- A bit of the row comes from the elements where their width covers it, and from the old row elsewhere. -/
theorem getLsbD_putElems (w first : Nat) (old : Row) (l : List Nat) {p : Nat} (hp : p < 4096) :
    (putElems w first old l).getLsbD p =
      (old.getLsbD p && !(decide (first * w ≤ p) && decide (p - first * w < w * l.length)) ||
        (decide (first * w ≤ p) && (packedElems w l).testBit (p - first * w))) := by
  have low : p - first * w < 4096 := by omega
  have notBefore : (!decide (p < first * w)) = decide (first * w ≤ p) := by rw [← decide_not, decide_eq_decide, Nat.not_lt]
  simp only [putElems_eq, BitVec.getLsbD_or, BitVec.getLsbD_and, BitVec.getLsbD_not, BitVec.getLsbD_shiftLeft,
    BitVec.getLsbD_ofNat, Nat.testBit_two_pow_sub_one, hp, low, decide_true, Bool.true_and, notBefore]

section PutElems

variable {w first : Nat} {old : Row} {l : List Nat} {j i : Nat}

theorem getLsbD_putElems_before (hp : j * w + i < 4096) (hi : i < w) (h : j < first) :
    (putElems w first old l).getLsbD (j * w + i) = old.getLsbD (j * w + i) := by
  have before : ¬ first * w ≤ j * w + i := by
    have := Nat.mul_le_mul_right w (Nat.succ_le_of_lt h)
    rw [Nat.succ_mul] at this
    omega
  simp [getLsbD_putElems w first old l hp, before]

/-- Element `first + k` is the list's element `k` where there is one, and the old row's elsewhere. -/
theorem getLsbD_putElems_from (k : Nat) (hp : (first + k) * w + i < 4096) (hi : i < w) :
    (putElems w first old l).getLsbD ((first + k) * w + i) =
      if k < l.length then (l.getD k 0 % 2 ^ w).testBit i else old.getLsbD ((first + k) * w + i) := by
  have offset : (first + k) * w + i = first * w + (k * w + i) := by ring
  have covered : k * w + i < w * l.length ↔ k < l.length := by
    have quotient : (k * w + i) / w = k := by
      rw [Nat.mul_comm, Nat.mul_add_div (by omega), Nat.div_eq_of_lt hi, Nat.add_zero]
    rw [Nat.mul_comm w, ← Nat.div_lt_iff_lt_mul (by omega), quotient]
  rw [getLsbD_putElems w first old l hp]
  simp only [offset, Nat.le_add_right, Nat.add_sub_cancel_left, covered, testBit_packedElems hi]
  by_cases h : k < l.length <;> simp [h]

end PutElems

/-- Settles O46: bit by bit, an element lies before the first one put, among those put, or after them. -/
theorem elementsOfARow : Obligations.ElementsOfARow := by
  intro tag first old l j _ _ _ hj
  refine Nat.eq_of_testBit_eq fun i => ?_
  rw [testBit_elemOf]
  by_cases hi : i < elemBits tag
  case neg => split <;> simp [hi, testBit_elemOf]
  case pos =>
    have hp : j * elemBits tag + i < 4096 := by
      have := (Nat.le_div_iff_mul_le (elemBits_pos tag)).mp (Nat.succ_le_of_lt hj)
      rw [Nat.succ_mul] at this
      omega
    rw [decide_eq_true hi, Bool.true_and]
    rcases Nat.lt_or_ge j first with before | after
    · rw [getLsbD_putElems_before hp hi before, if_neg (by omega), testBit_elemOf, decide_eq_true hi, Bool.true_and]
    · obtain ⟨k, rfl⟩ := Nat.exists_eq_add_of_le after
      rw [getLsbD_putElems_from k hp hi, Nat.add_sub_cancel_left]
      simp only [Nat.le_add_right, true_and, Nat.add_lt_add_iff_left]
      split
      · rfl
      · rw [testBit_elemOf, decide_eq_true hi, Bool.true_and]

end Sys2Proof.Machine

namespace Sys2Proof.Machine

/-! ## Exact reductions (O39) -/

/-! ### The fields of a partial (R103) -/

/-- The partial with these fields: COUNT, NZ, the flags NINF, PINF and NAN, and ACC. -/
def partialOf (count : BitVec 32) (nz : BitVec 1) (special : BitVec 3) (acc : BitVec 320) : BitVec 384 :=
  count ++ (0 : BitVec 28) ++ nz ++ special ++ acc

section Fields

variable (count : BitVec 32) (nz : BitVec 1) (special : BitVec 3) (acc : BitVec 320)

@[simp] theorem partialOf_acc : (partialOf count nz special acc).extractLsb' 0 320 = acc :=
  BitVec.extractLsb'_append_eq_right

@[simp] theorem partialOf_special : (partialOf count nz special acc).extractLsb' 320 3 = special :=
  (BitVec.extractLsb'_append_eq_of_le (by decide)).trans BitVec.extractLsb'_append_eq_right

@[simp] theorem partialOf_nz : (partialOf count nz special acc).extractLsb' 323 1 = nz :=
  (BitVec.extractLsb'_append_eq_of_le (by decide)).trans <|
    (BitVec.extractLsb'_append_eq_of_le (by decide)).trans BitVec.extractLsb'_append_eq_right

@[simp] theorem partialOf_reserved : (partialOf count nz special acc).extractLsb' 324 28 = 0 :=
  (BitVec.extractLsb'_append_eq_of_le (by decide)).trans <| (BitVec.extractLsb'_append_eq_of_le (by decide)).trans <|
    (BitVec.extractLsb'_append_eq_of_le (by decide)).trans BitVec.extractLsb'_append_eq_right

@[simp] theorem partialOf_count : (partialOf count nz special acc).extractLsb' 352 32 = count :=
  (BitVec.extractLsb'_append_eq_of_le (by decide)).trans <| (BitVec.extractLsb'_append_eq_of_le (by decide)).trans <|
    (BitVec.extractLsb'_append_eq_of_le (by decide)).trans BitVec.extractLsb'_append_eq_left

theorem accOf_partialOf : accOf (partialOf count nz special acc) = acc.toInt := by rw [accOf, partialOf_acc]

theorem partialOf_getLsbD_nz : (partialOf count nz special acc).getLsbD 323 = nz.getLsbD 0 := by
  conv_rhs => rw [← partialOf_nz count nz special acc]
  rw [BitVec.getLsbD_extractLsb', decide_eq_true Nat.one_pos, Bool.true_and]

/-- NAN, PINF and NINF are the special bits 0, 1 and 2. -/
theorem partialOf_getLsbD_special {i : Nat} (hi : i < 3) :
    (partialOf count nz special acc).getLsbD (320 + i) = special.getLsbD i := by
  conv_rhs => rw [← partialOf_special count nz special acc]
  rw [BitVec.getLsbD_extractLsb', decide_eq_true hi, Bool.true_and]

theorem partialOf_flagBits :
    (partialOf count nz special acc).getLsbD 322 = special.getLsbD 2 ∧
    (partialOf count nz special acc).getLsbD 321 = special.getLsbD 1 ∧
    (partialOf count nz special acc).getLsbD 320 = special.getLsbD 0 :=
  ⟨partialOf_getLsbD_special count nz special acc (i := 2) (by decide),
    partialOf_getLsbD_special count nz special acc (i := 1) (by decide),
    partialOf_getLsbD_special count nz special acc (i := 0) (by decide)⟩

end Fields

/-! ### Combining (R105) -/

/-- The COUNT of two partials together, saturating. -/
def joinedCount (a b : BitVec 32) : BitVec 32 := BitVec.ofNat 32 (min (a.toNat + b.toNat) 0xFFFFFFFF)

theorem toNat_joinedCount (a b : BitVec 32) : (joinedCount a b).toNat = min (a.toNat + b.toNat) 0xFFFFFFFF := by
  rw [joinedCount, BitVec.toNat_ofNat]
  omega

theorem joinedCount_comm (a b : BitVec 32) : joinedCount a b = joinedCount b a := by
  rw [joinedCount, Nat.add_comm, joinedCount]

theorem joinedCount_assoc (a b c : BitVec 32) : joinedCount (joinedCount a b) c = joinedCount a (joinedCount b c) := by
  refine BitVec.eq_of_toNat_eq ?_
  simp only [toNat_joinedCount]
  omega

theorem combineExact_eq (a b : BitVec 384) : combineExact a b =
    partialOf (joinedCount (a.extractLsb' 352 32) (b.extractLsb' 352 32)) (a.extractLsb' 323 1 &&& b.extractLsb' 323 1)
      (a.extractLsb' 320 3 ||| b.extractLsb' 320 3) (a.extractLsb' 0 320 + b.extractLsb' 0 320) := rfl

theorem combineExact_comm (a b : BitVec 384) : combineExact a b = combineExact b a := by
  rw [combineExact_eq, combineExact_eq b, joinedCount_comm, BitVec.and_comm, BitVec.or_comm, BitVec.add_comm]

theorem combineExact_assoc (a b c : BitVec 384) : combineExact (combineExact a b) c = combineExact a (combineExact b c) := by
  simp only [combineExact_eq, partialOf_count, partialOf_nz, partialOf_special, partialOf_acc, joinedCount_assoc,
    BitVec.and_assoc, BitVec.or_assoc, BitVec.add_assoc]

/-! ### A contribution enters (R104) -/

/-- The flags of a contribution, side by side, are a partial's three special bits. -/
theorem partialOf_flags (nz ninf pinf nan : Bool) (acc : BitVec 320) :
    BitVec.ofNat 32 1 ++ (0 : BitVec 28) ++ BitVec.ofBool nz ++ BitVec.ofBool ninf ++ BitVec.ofBool pinf ++ BitVec.ofBool nan ++
      acc = partialOf 1 (BitVec.ofBool nz) (BitVec.ofBool ninf ++ BitVec.ofBool pinf ++ BitVec.ofBool nan) acc :=
  congrArg (fun high : BitVec 64 => high ++ acc) (by decide +revert)

theorem enterExact_num (neg : Bool) (m : Nat) (e : Int) (st : Bool) : enterExact (.num neg m e st) =
    partialOf 1 (BitVec.ofBool (neg && m == 0)) 0 (BitVec.ofInt 320 ((if neg then -1 else 1) * (m * 2 ^ (e + 160).toNat))) := by
  unfold enterExact
  rw [partialOf_flags]
  cases m with
  | zero => simp [Val.isNan, beq_eq_decide]
  | succ m => simp [Val.isNan, beq_eq_decide]

theorem enterExact_inf (neg : Bool) : enterExact (.inf neg) = partialOf 1 0 (if neg then 4 else 2) 0 := by
  unfold enterExact
  rw [partialOf_flags]
  cases neg with
  | false => simp [Val.isNan, beq_eq_decide]
  | true => simp [Val.isNan, beq_eq_decide]

theorem enterExact_nan : enterExact .nan = partialOf 1 0 1 0 := by
  unfold enterExact
  rw [partialOf_flags]
  simp [Val.isNan, beq_eq_decide]

/-! ### Values of FP32 and BF16 (R67) -/

/-- The value of a sign, an exponent field of eight bits and a mantissa field of `k` bits: FP32 with 23, BF16 with 7. -/
def wideValue (k : Nat) (neg : Bool) (e m : Nat) : Val :=
  if e < 255 then .num neg (m + if e = 0 then 0 else 2 ^ k) ((max e 1 : Nat) - 127 - k) false
  else if m = 0 then .inf neg else .nan

theorem floatValue_wide {f : FloatFmt} (hb : f.bias = 127) (hx : f.maxCode = 2 ^ f.mbits * 255 - 1)
    (hi : f.infCode = some (2 ^ f.mbits * 255)) (neg : Bool) {e m : Nat} (he : e < 256) (hm : m < 2 ^ f.mbits) :
    floatValue f neg (2 ^ f.mbits * e + m) = wideValue f.mbits neg e m := by
  have hpos := Nat.two_pow_pos f.mbits
  have hdiv : (2 ^ f.mbits * e + m) / 2 ^ f.mbits = e := by
    rw [Nat.mul_add_div hpos, Nat.div_eq_of_lt hm, Nat.add_zero]
  have hmod : (2 ^ f.mbits * e + m) % 2 ^ f.mbits = m := by rw [Nat.mul_add_mod, Nat.mod_eq_of_lt hm]
  unfold floatValue wideValue
  rcases Nat.lt_or_ge e 255 with hlt | hge
  case inl =>
    have hle : 2 ^ f.mbits * e + m ≤ f.maxCode := by
      have := Nat.mul_le_mul_left (2 ^ f.mbits) (Nat.succ_le_of_lt hlt)
      rw [Nat.mul_succ] at this
      omega
    simp only [if_pos hle, hdiv, hmod, if_pos hlt]
    split
    · next h0 => simp [h0, FloatFmt.emin, hb]
    · next h0 => rw [Nat.max_eq_left (by omega), hb]; rfl
  case inr =>
    obtain rfl : e = 255 := by omega
    have hgt : ¬ 2 ^ f.mbits * 255 + m ≤ f.maxCode := by omega
    simp only [if_neg hgt, hi, Option.some.injEq, Nat.left_eq_add, Nat.lt_irrefl, if_false]

theorem elementValue_fp32 (bits : Nat) : elementValue 1 bits =
    wideValue 23 (2 ^ 31 ≤ bits % 2 ^ 32) (bits / 2 ^ 23 % 2 ^ 8) (bits % 2 ^ 23) := by
  have code : bits % 2 ^ 31 = 2 ^ 23 * (bits / 2 ^ 23 % 2 ^ 8) + bits % 2 ^ 23 := by omega
  calc elementValue 1 bits
    _ = floatValue (floatFmt 1) (2 ^ 31 ≤ bits % 2 ^ 32) (bits % 2 ^ 31) := rfl
    _ = _ := by
      rw [code]
      exact floatValue_wide rfl rfl rfl _ (Nat.mod_lt _ (by decide)) (Nat.mod_lt _ (by decide))

theorem elementValue_bf16 (bits : Nat) : elementValue 2 bits =
    wideValue 7 (2 ^ 15 ≤ bits % 2 ^ 16) (bits / 2 ^ 7 % 2 ^ 8) (bits % 2 ^ 7) := by
  have code : bits % 2 ^ 15 = 2 ^ 7 * (bits / 2 ^ 7 % 2 ^ 8) + bits % 2 ^ 7 := by omega
  calc elementValue 2 bits
    _ = floatValue (floatFmt 2) (2 ^ 15 ≤ bits % 2 ^ 16) (bits % 2 ^ 15) := rfl
    _ = _ := by
      rw [code]
      exact floatValue_wide rfl rfl rfl _ (Nat.mod_lt _ (by decide)) (Nat.mod_lt _ (by decide))

/-- Sixteen more mantissa bits, all clear, change nothing of what enters. -/
theorem enterExact_wideValue_shift (neg : Bool) (e m : Nat) :
    enterExact (wideValue 7 neg e m) = enterExact (wideValue 23 neg e (m * 2 ^ 16)) := by
  unfold wideValue
  split
  case isTrue =>
    have width7 : (((max e 1 : Nat) : Int) - 127 - (7 : Nat) + 160).toNat = 16 + (max e 1 + 10) := by omega
    have width23 : (((max e 1 : Nat) : Int) - 127 - (23 : Nat) + 160).toNat = max e 1 + 10 := by omega
    have mantissa : (m * 2 ^ 16 + if e = 0 then 0 else 2 ^ 23) = (m + if e = 0 then 0 else 2 ^ 7) * 2 ^ 16 := by
      split <;> omega
    have zero (n : Nat) : (n * 2 ^ 16 == 0) = (n == 0) := by simp
    rw [enterExact_num, enterExact_num, width7, width23, mantissa, zero, pow_add, Nat.cast_mul, mul_assoc (_ : Int)]
    norm_num
  case isFalse => simp

theorem enterExact_bf16 (w : BitVec 16) :
    enterExact (elementValue 2 w.toNat) = enterExact (elementValue 1 (w.toNat * 2 ^ 16)) := by
  have sign : 2 ^ 31 ≤ w.toNat * 2 ^ 16 % 2 ^ 32 ↔ 2 ^ 15 ≤ w.toNat % 2 ^ 16 := by omega
  have exponent : w.toNat * 2 ^ 16 / 2 ^ 23 % 2 ^ 8 = w.toNat / 2 ^ 7 % 2 ^ 8 := by omega
  have mantissa : w.toNat * 2 ^ 16 % 2 ^ 23 = w.toNat % 2 ^ 7 * 2 ^ 16 := by omega
  rw [elementValue_bf16, elementValue_fp32, enterExact_wideValue_shift, decide_eq_decide.mpr sign, exponent, mantissa]

/-! ### FP32 contributions -/

/-- The exponent field of an FP32 encoding. -/
def expField (w : BitVec 32) : Nat := (w.extractLsb' 23 8).toNat

/-- The mantissa field of an FP32 encoding. -/
def manField (w : BitVec 32) : Nat := (w.extractLsb' 0 23).toNat

theorem expField_eq (w : BitVec 32) : expField w = w.toNat / 2 ^ 23 % 2 ^ 8 := by
  rw [expField, BitVec.extractLsb'_toNat, Nat.shiftRight_eq_div_pow]

theorem manField_eq (w : BitVec 32) : manField w = w.toNat % 2 ^ 23 := by
  rw [manField, BitVec.extractLsb'_toNat, Nat.shiftRight_zero]

theorem signBit_eq (w : BitVec 32) : w.getLsbD 31 = decide (2 ^ 31 ≤ w.toNat) := BitVec.msb_eq_decide w

/-- An FP32 encoding is its three fields. -/
theorem fp32_eq_iff {w v : BitVec 32} :
    w = v ↔ w.getLsbD 31 = v.getLsbD 31 ∧ expField w = expField v ∧ manField w = manField v := by
  rw [signBit_eq, signBit_eq, decide_eq_decide, expField_eq, expField_eq, manField_eq, manField_eq, ← BitVec.toNat_inj]
  omega

theorem fp32_beq (w v : BitVec 32) :
    (w == v) = (w.getLsbD 31 == v.getLsbD 31 && (expField w == expField v && manField w == manField v)) := by
  rw [Bool.eq_iff_iff, Bool.and_eq_true, Bool.and_eq_true, beq_iff_eq, beq_iff_eq, beq_iff_eq, beq_iff_eq, fp32_eq_iff]

theorem beq_negZero (w : BitVec 32) : (w == 0x80000000) = (w.getLsbD 31 && (expField w == 0 && manField w == 0)) := by
  rw [fp32_beq]
  exact congrArg (· && _) (beq_true _)

theorem beq_negInf (w : BitVec 32) : (w == 0xFF800000) = (w.getLsbD 31 && (expField w == 255 && manField w == 0)) := by
  rw [fp32_beq]
  exact congrArg (· && _) (beq_true _)

theorem beq_posInf (w : BitVec 32) : (w == 0x7F800000) = (!w.getLsbD 31 && (expField w == 255 && manField w == 0)) := by
  rw [fp32_beq]
  exact congrArg (· && _) (beq_false _)

theorem elementValue_fields (w : BitVec 32) :
    elementValue 1 w.toNat = wideValue 23 (w.getLsbD 31) (expField w) (manField w) := by
  rw [elementValue_fp32, Nat.mod_eq_of_lt w.isLt, signBit_eq, expField_eq, manField_eq]

/-- The exact value of a finite FP32 encoding times 2^160. -/
def exactFp32 (w : BitVec 32) : Int :=
  (if w.getLsbD 31 then -1 else 1) *
    ((manField w + if expField w = 0 then 0 else 2 ^ 23) * 2 ^ (max (expField w) 1 + 10) : Nat)

theorem natAbs_exactFp32_lt {w : BitVec 32} (h : expField w < 255) : (exactFp32 w).natAbs < 2 ^ 288 := by
  have mantissa : (manField w + if expField w = 0 then 0 else 2 ^ 23) < 2 ^ 24 := by
    have : manField w < 2 ^ 23 := (w.extractLsb' 0 23).isLt
    split <;> omega
  have sign : (if w.getLsbD 31 then -1 else 1 : Int).natAbs = 1 := by split <;> rfl
  calc (exactFp32 w).natAbs
    _ = (manField w + if expField w = 0 then 0 else 2 ^ 23) * 2 ^ (max (expField w) 1 + 10) := by
      rw [exactFp32, Int.natAbs_mul, sign, Nat.one_mul, Int.natAbs_natCast]
    _ < 2 ^ 24 * 2 ^ 264 :=
      Nat.mul_lt_mul_of_lt_of_le mantissa (pow_le_pow_right₀ one_le_two (by omega)) (pow_pos two_pos _)
    _ = 2 ^ 288 := by rw [← pow_add]

theorem enterExact_finite {w : BitVec 32} (h : expField w < 255) : enterExact (elementValue 1 w.toNat) =
    partialOf 1 (BitVec.ofBool (w == 0x80000000)) 0 (BitVec.ofInt 320 (exactFp32 w)) := by
  have width : (((max (expField w) 1 : Nat) : Int) - 127 - (23 : Nat) + 160).toNat = max (expField w) 1 + 10 := by omega
  have negZero : (w.getLsbD 31 && (manField w + if expField w = 0 then 0 else 2 ^ 23) == 0) = (w == 0x80000000) := by
    rw [beq_negZero, Bool.eq_iff_iff]
    simp only [Bool.and_eq_true, beq_iff_eq]
    refine and_congr_right fun _ => ?_
    split <;> omega
  rw [elementValue_fields, wideValue, if_pos h, enterExact_num, width, negZero, exactFp32, Nat.cast_mul,
    Nat.cast_pow, Nat.cast_ofNat]

theorem enterExact_special {w : BitVec 32} (h : expField w = 255) : enterExact (elementValue 1 w.toNat) =
    partialOf 1 0 (if manField w = 0 then if w.getLsbD 31 then 4 else 2 else 1) 0 := by
  rw [elementValue_fields, wideValue, if_neg (by omega)]
  split
  · exact enterExact_inf _
  · exact enterExact_nan

theorem toInt_ofInt_of_natAbs_lt {i : Int} (h : i.natAbs < 2 ^ 319) : (BitVec.ofInt 320 i).toInt = i := by
  have bound : ((2 ^ 319 : Nat) : Int) = 2 ^ 319 := Nat.cast_pow 2 319
  exact BitVec.toInt_ofInt_eq_self (by decide) (by omega) (by omega)

/-! ### Sums of contributions -/

/-- ACC of the contributions of a list combined with a partial. -/
theorem acc_foldl_combineExact {l : List (BitVec 32)} (h : ∀ w ∈ l, expField w < 255) (p : BitVec 384) :
    (l.foldl (fun p w => combineExact p (enterExact (elementValue 1 w.toNat))) p).extractLsb' 0 320 =
      p.extractLsb' 0 320 + BitVec.ofInt 320 (l.map exactFp32).sum := by
  induction l generalizing p with
  | nil => simp
  | cons w l ih =>
    obtain ⟨hw, hl⟩ := List.forall_mem_cons.mp h
    rw [List.foldl_cons, ih hl, combineExact_eq, partialOf_acc, enterExact_finite hw, partialOf_acc, List.map_cons, List.sum_cons,
      BitVec.ofInt_add, BitVec.add_assoc]

theorem natAbs_sum_le {l : List Int} {b : Nat} (h : ∀ i ∈ l, i.natAbs ≤ b) : l.sum.natAbs ≤ l.length * b := by
  induction l with
  | nil => simp
  | cons i l ih =>
    obtain ⟨hi, hl⟩ := List.forall_mem_cons.mp h
    rw [List.sum_cons, List.length_cons, Nat.succ_mul]
    have := ih hl
    omega

theorem natAbs_sum_lt {l : List Int} {n b : Nat} (hn : 0 < n) (hb : 0 < b) (hlen : l.length ≤ n) (h : ∀ i ∈ l, i.natAbs < b) :
    l.sum.natAbs < n * b :=
  calc l.sum.natAbs
    _ ≤ l.length * (b - 1) := natAbs_sum_le fun i hi => Nat.le_sub_one_of_lt (h i hi)
    _ ≤ n * (b - 1) := Nat.mul_le_mul_right _ hlen
    _ < n * b := Nat.mul_lt_mul_of_pos_left (Nat.sub_one_lt_of_lt hb) hn

/-- 2^31 finite FP32 values stay within ACC. -/
theorem natAbs_sum_exactFp32_lt {l : List (BitVec 32)} (hlen : l.length ≤ 2 ^ 31) (h : ∀ w ∈ l, expField w < 255) :
    (l.map exactFp32).sum.natAbs < 2 ^ 319 := by
  rw [show 319 = 31 + 288 from rfl, pow_add]
  refine natAbs_sum_lt (pow_pos two_pos 31) (pow_pos two_pos 288) (by rwa [List.length_map]) fun i hi => ?_
  obtain ⟨w, hw, rfl⟩ := List.mem_map.mp hi
  exact natAbs_exactFp32_lt (h w hw)

/-- The fields of the partial that an FP32 contribution enters. -/
theorem enterExact_fp32 (w : BitVec 32) :
    let p := enterExact (elementValue 1 w.toNat)
    let special : Bool := w.extractLsb' 23 8 == 0xFF
    p.extractLsb' 352 32 = 1 ∧ p.extractLsb' 324 28 = 0 ∧ p.getLsbD 323 = (w == 0x80000000) ∧
    p.getLsbD 322 = (w == 0xFF800000) ∧ p.getLsbD 321 = (w == 0x7F800000) ∧
    p.getLsbD 320 = (special && w.extractLsb' 0 23 != 0) ∧ accOf p = if special then 0 else exactFp32 w := by
  intro p special
  have exponent : special = (expField w == 255) := by
    rw [Bool.eq_iff_iff, beq_iff_eq, beq_iff_eq, ← BitVec.toNat_inj]
    rfl
  have mantissa : (w.extractLsb' 0 23 != 0) = (manField w != 0) := by
    rw [Bool.eq_iff_iff, bne_iff_ne, bne_iff_ne, ← BitVec.toNat_ne_iff_ne]
    rfl
  rw [exponent, mantissa, beq_negInf, beq_posInf]
  by_cases h : expField w = 255
  case pos =>
    rw [show p = _ from enterExact_special h, beq_negZero, h]
    generalize w.getLsbD 31 = neg
    obtain ⟨ninf, pinf, nan⟩ := partialOf_flagBits 1 0 (if manField w = 0 then if neg then 4 else 2 else 1) 0
    rw [partialOf_count, partialOf_reserved, partialOf_getLsbD_nz, ninf, pinf, nan, accOf_partialOf]
    by_cases hm : manField w = 0
    · cases neg <;> simp [hm]
    · simp [hm]
  case neg =>
    have finite : expField w < 255 := by
      have : expField w < 256 := (w.extractLsb' 23 8).isLt
      omega
    have small : (exactFp32 w).natAbs < 2 ^ 319 :=
      Nat.lt_of_lt_of_le (natAbs_exactFp32_lt finite) (pow_le_pow_right₀ one_le_two (by decide))
    obtain ⟨ninf, pinf, nan⟩ := partialOf_flagBits 1 (BitVec.ofBool (w == 0x80000000)) 0 (BitVec.ofInt 320 (exactFp32 w))
    rw [show p = _ from enterExact_finite finite, beq_eq_false_iff_ne.mpr h, partialOf_count, partialOf_reserved,
      partialOf_getLsbD_nz, ninf, pinf, nan, accOf_partialOf, toInt_ofInt_of_natAbs_lt small]
    simp

theorem accOf_foldl_combineExact {l : List (BitVec 32)} (hlen : l.length ≤ 2 ^ 31) (h : ∀ w ∈ l, expField w < 255) :
    accOf (l.foldl (fun p w => combineExact p (enterExact (elementValue 1 w.toNat))) 0) = (l.map exactFp32).sum := by
  have empty : (0 : BitVec 384).extractLsb' 0 320 = 0#320 := by simp
  rw [accOf, acc_foldl_combineExact h, empty, BitVec.zero_add, toInt_ofInt_of_natAbs_lt (natAbs_sum_exactFp32_lt hlen h)]

/-- Settles O39: a combination and a contribution are written by their fields, and ACC of a fold is the sum modulo 2^320. -/
theorem exactReduction : Obligations.ExactReduction := by
  refine ⟨fun a b => ?combined, combineExact_assoc, fun w => ?entered, fun l hlen hl => ?summed, enterExact_bf16⟩
  case combined =>
    refine ⟨?_, ?_, ?_, ?_, ?_, combineExact_comm b a⟩
    all_goals rw [combineExact_eq]
    · exact partialOf_acc ..
    · exact partialOf_special ..
    · exact partialOf_nz ..
    · exact partialOf_reserved ..
    · exact (congrArg BitVec.toNat (partialOf_count ..)).trans (toNat_joinedCount _ _)
  case entered => exact enterExact_fp32 w
  case summed =>
    refine ⟨accOf_foldl_combineExact hlen hl, (natAbs_sum_exactFp32_lt hlen hl).trans_eq ?_⟩
    rw [← pow_add]

end Sys2Proof.Machine

namespace Sys2Proof

/-! ## Words and their instructions (O1, O2, O15, O60)

The decoder's candidate reads the fields of a word where the encoder has put them. The fields of a word of each format
are stated once, over any span inside the field, so that the parts of MD, FN and the immediate are read by the same law. -/

/-! ### Concatenations -/

theorem getLsbD_append_low {v w k : Nat} (x : BitVec v) (y : BitVec w) (h : k < w) :
    (x ++ y).getLsbD k = y.getLsbD k := by
  rw [BitVec.getLsbD_append, if_pos h]

theorem getLsbD_append_high {v w k : Nat} (x : BitVec v) (y : BitVec w) (h : w ≤ k) :
    (x ++ y).getLsbD k = x.getLsbD (k - w) := by
  rw [BitVec.getLsbD_append, if_neg (by omega)]

theorem getLsbD_ofBool_zero (b : Bool) : (BitVec.ofBool b).getLsbD 0 = b := by
  simp

/-! ### The fields of each format (R130) -/

theorem fmtS_fields {op : Byte} {d a b c : BitVec 6} {imm : BitVec 32} {w : Word} (h : fmtS op d a b c imm = w) :
    w.extractLsb' 56 8 = op ∧
    (∀ s n, 50 ≤ s → s + n ≤ 56 → w.extractLsb' s n = d.extractLsb' (s - 50) n) ∧
    (∀ s n, 44 ≤ s → s + n ≤ 50 → w.extractLsb' s n = a.extractLsb' (s - 44) n) ∧
    (∀ s n, 38 ≤ s → s + n ≤ 44 → w.extractLsb' s n = b.extractLsb' (s - 38) n) ∧
    (∀ s n, 32 ≤ s → s + n ≤ 38 → w.extractLsb' s n = c.extractLsb' (s - 32) n) ∧
    (∀ s n, s + n ≤ 32 → w.extractLsb' s n = imm.extractLsb' s n) ∧
    (∀ s, s < 32 → w.getLsbD s = imm.getLsbD s) := by
  subst h
  refine ⟨?_, ?_, ?_, ?_, ?_, ?_, ?_⟩ <;> intros <;>
    simp (disch := omega) only [fmtS, BitVec.extractLsb'_append_eq_of_le, BitVec.extractLsb'_append_eq_of_add_le,
      BitVec.extractLsb'_eq_self, getLsbD_append_low, Nat.reduceSub] <;>
    simp only [Nat.sub_sub, Nat.reduceAdd]

theorem fmtF_fields {op : Byte} {d a b c : BitVec 6} {ft fs cnd : BitVec 4} {sat : Bool} {rm : BitVec 3} {w : Word}
    (h : fmtF op d a b c ft fs cnd sat rm = w) :
    w.extractLsb' 56 8 = op ∧
    (∀ s n, 50 ≤ s → s + n ≤ 56 → w.extractLsb' s n = d.extractLsb' (s - 50) n) ∧
    (∀ s n, 44 ≤ s → s + n ≤ 50 → w.extractLsb' s n = a.extractLsb' (s - 44) n) ∧
    (∀ s n, 38 ≤ s → s + n ≤ 44 → w.extractLsb' s n = b.extractLsb' (s - 38) n) ∧
    (∀ s n, 32 ≤ s → s + n ≤ 38 → w.extractLsb' s n = c.extractLsb' (s - 32) n) ∧
    (∀ s n, 12 ≤ s → s + n ≤ 16 → w.extractLsb' s n = ft.extractLsb' (s - 12) n) ∧
    (∀ s n, 8 ≤ s → s + n ≤ 12 → w.extractLsb' s n = fs.extractLsb' (s - 8) n) ∧
    (∀ s n, 4 ≤ s → s + n ≤ 8 → w.extractLsb' s n = cnd.extractLsb' (s - 4) n) ∧
    w.getLsbD 3 = sat ∧
    (∀ s n, s + n ≤ 3 → w.extractLsb' s n = rm.extractLsb' s n) := by
  subst h
  refine ⟨?_, ?_, ?_, ?_, ?_, ?_, ?_, ?_, ?_, ?_⟩ <;> intros <;>
    simp (disch := omega) only [fmtF, BitVec.extractLsb'_append_eq_of_le, BitVec.extractLsb'_append_eq_of_add_le,
      BitVec.extractLsb'_eq_self, getLsbD_append_low, getLsbD_append_high, Nat.reduceSub] <;>
    simp only [Nat.sub_sub, Nat.reduceAdd, getLsbD_ofBool_zero]

theorem fmtM_fields {op : Byte} {d a : BitVec 6} {sl : BitVec 4} {evp : BitVec 2} {na : Bool} {md : BitVec 5}
    {off : BitVec 32} {w : Word} (h : fmtM op d a sl evp na md off = w) :
    w.extractLsb' 56 8 = op ∧
    (∀ s n, 50 ≤ s → s + n ≤ 56 → w.extractLsb' s n = d.extractLsb' (s - 50) n) ∧
    (∀ s n, 44 ≤ s → s + n ≤ 50 → w.extractLsb' s n = a.extractLsb' (s - 44) n) ∧
    (∀ s n, 40 ≤ s → s + n ≤ 44 → w.extractLsb' s n = sl.extractLsb' (s - 40) n) ∧
    (∀ s n, 38 ≤ s → s + n ≤ 40 → w.extractLsb' s n = evp.extractLsb' (s - 38) n) ∧
    w.getLsbD 37 = na ∧
    (∀ s n, 32 ≤ s → s + n ≤ 37 → w.extractLsb' s n = md.extractLsb' (s - 32) n) ∧
    (∀ s, 32 ≤ s → s < 37 → w.getLsbD s = md.getLsbD (s - 32)) ∧
    (∀ s n, s + n ≤ 32 → w.extractLsb' s n = off.extractLsb' s n) := by
  subst h
  refine ⟨?_, ?_, ?_, ?_, ?_, ?_, ?_, ?_, ?_⟩ <;> intros <;>
    simp (disch := omega) only [fmtM, BitVec.extractLsb'_append_eq_of_le, BitVec.extractLsb'_append_eq_of_add_le,
      BitVec.extractLsb'_eq_self, getLsbD_append_low, getLsbD_append_high, Nat.reduceSub] <;>
    simp only [Nat.sub_sub, Nat.reduceAdd, getLsbD_ofBool_zero]

theorem fmtE_fields {op : Byte} {t a b c : BitVec 6} {sl : BitVec 4} {evp : BitVec 2} {na : Bool} {md : BitVec 5}
    {imm : BitVec 20} {w : Word} (h : fmtE op t a b c sl evp na md imm = w) :
    w.extractLsb' 56 8 = op ∧
    (∀ s n, 50 ≤ s → s + n ≤ 56 → w.extractLsb' s n = t.extractLsb' (s - 50) n) ∧
    (∀ s n, 44 ≤ s → s + n ≤ 50 → w.extractLsb' s n = a.extractLsb' (s - 44) n) ∧
    (∀ s n, 38 ≤ s → s + n ≤ 44 → w.extractLsb' s n = b.extractLsb' (s - 38) n) ∧
    (∀ s n, 32 ≤ s → s + n ≤ 38 → w.extractLsb' s n = c.extractLsb' (s - 32) n) ∧
    (∀ s n, 28 ≤ s → s + n ≤ 32 → w.extractLsb' s n = sl.extractLsb' (s - 28) n) ∧
    (∀ s n, 26 ≤ s → s + n ≤ 28 → w.extractLsb' s n = evp.extractLsb' (s - 26) n) ∧
    w.getLsbD 25 = na ∧
    (∀ s n, 20 ≤ s → s + n ≤ 25 → w.extractLsb' s n = md.extractLsb' (s - 20) n) ∧
    (∀ s, 20 ≤ s → s < 25 → w.getLsbD s = md.getLsbD (s - 20)) ∧
    (∀ s n, s + n ≤ 20 → w.extractLsb' s n = imm.extractLsb' s n) ∧
    (∀ s, s < 20 → w.getLsbD s = imm.getLsbD s) := by
  subst h
  refine ⟨?_, ?_, ?_, ?_, ?_, ?_, ?_, ?_, ?_, ?_, ?_, ?_⟩ <;> intros <;>
    simp (disch := omega) only [fmtE, BitVec.extractLsb'_append_eq_of_le, BitVec.extractLsb'_append_eq_of_add_le,
      BitVec.extractLsb'_eq_self, getLsbD_append_low, getLsbD_append_high, Nat.reduceSub] <;>
    simp only [Nat.sub_sub, Nat.reduceAdd, getLsbD_ofBool_zero]

theorem fmtV_fields {op : Byte} {d a b c : BitVec 6} {pm rm : BitVec 3} {sat : Bool} {fn : BitVec 5} {imm : BitVec 20}
    {w : Word} (h : fmtV op d a b c pm rm sat fn imm = w) :
    w.extractLsb' 56 8 = op ∧
    (∀ s n, 50 ≤ s → s + n ≤ 56 → w.extractLsb' s n = d.extractLsb' (s - 50) n) ∧
    (∀ s n, 44 ≤ s → s + n ≤ 50 → w.extractLsb' s n = a.extractLsb' (s - 44) n) ∧
    (∀ s n, 38 ≤ s → s + n ≤ 44 → w.extractLsb' s n = b.extractLsb' (s - 38) n) ∧
    (∀ s n, 32 ≤ s → s + n ≤ 38 → w.extractLsb' s n = c.extractLsb' (s - 32) n) ∧
    (∀ s n, 29 ≤ s → s + n ≤ 32 → w.extractLsb' s n = pm.extractLsb' (s - 29) n) ∧
    (∀ s n, 26 ≤ s → s + n ≤ 29 → w.extractLsb' s n = rm.extractLsb' (s - 26) n) ∧
    w.getLsbD 25 = sat ∧
    (∀ s n, 20 ≤ s → s + n ≤ 25 → w.extractLsb' s n = fn.extractLsb' (s - 20) n) ∧
    (∀ s, 20 ≤ s → s < 25 → w.getLsbD s = fn.getLsbD (s - 20)) ∧
    (∀ s n, s + n ≤ 20 → w.extractLsb' s n = imm.extractLsb' s n) := by
  subst h
  refine ⟨?_, ?_, ?_, ?_, ?_, ?_, ?_, ?_, ?_, ?_, ?_⟩ <;> intros <;>
    simp (disch := omega) only [fmtV, BitVec.extractLsb'_append_eq_of_le, BitVec.extractLsb'_append_eq_of_add_le,
      BitVec.extractLsb'_eq_self, getLsbD_append_low, getLsbD_append_high, Nat.reduceSub] <;>
    simp only [Nat.sub_sub, Nat.reduceAdd, getLsbD_ofBool_zero]

theorem fmtC_fields {op : Byte} {a b : BitVec 6} {sub : BitVec 12} {imm : BitVec 32} {w : Word}
    (h : fmtC op a b sub imm = w) :
    w.extractLsb' 56 8 = op ∧
    (∀ s n, 50 ≤ s → s + n ≤ 56 → w.extractLsb' s n = a.extractLsb' (s - 50) n) ∧
    (∀ s n, 44 ≤ s → s + n ≤ 50 → w.extractLsb' s n = b.extractLsb' (s - 44) n) ∧
    (∀ s n, 32 ≤ s → s + n ≤ 44 → w.extractLsb' s n = sub.extractLsb' (s - 32) n) ∧
    (∀ s, 32 ≤ s → s < 44 → w.getLsbD s = sub.getLsbD (s - 32)) ∧
    (∀ s n, s + n ≤ 32 → w.extractLsb' s n = imm.extractLsb' s n) := by
  subst h
  refine ⟨?_, ?_, ?_, ?_, ?_, ?_⟩ <;> intros <;>
    simp (disch := omega) only [fmtC, BitVec.extractLsb'_append_eq_of_le, BitVec.extractLsb'_append_eq_of_add_le,
      BitVec.extractLsb'_eq_self, getLsbD_append_low, getLsbD_append_high, Nat.reduceSub] <;>
    simp only [Nat.sub_sub, Nat.reduceAdd]

theorem fmtX_fields {op : Byte} {cd xa xb t : BitVec 6} {df : BitVec 2} {bs ag : Bool} {bf : BitVec 4} {fn : BitVec 8}
    {off : BitVec 16} {w : Word} (h : fmtX op cd xa xb t df bs ag bf fn off = w) :
    w.extractLsb' 56 8 = op ∧
    (∀ s n, 50 ≤ s → s + n ≤ 56 → w.extractLsb' s n = cd.extractLsb' (s - 50) n) ∧
    (∀ s n, 44 ≤ s → s + n ≤ 50 → w.extractLsb' s n = xa.extractLsb' (s - 44) n) ∧
    (∀ s n, 38 ≤ s → s + n ≤ 44 → w.extractLsb' s n = xb.extractLsb' (s - 38) n) ∧
    (∀ s n, 32 ≤ s → s + n ≤ 38 → w.extractLsb' s n = t.extractLsb' (s - 32) n) ∧
    (∀ s n, 30 ≤ s → s + n ≤ 32 → w.extractLsb' s n = df.extractLsb' (s - 30) n) ∧
    w.getLsbD 29 = bs ∧
    w.getLsbD 28 = ag ∧
    (∀ s n, 24 ≤ s → s + n ≤ 28 → w.extractLsb' s n = bf.extractLsb' (s - 24) n) ∧
    (∀ s n, 16 ≤ s → s + n ≤ 24 → w.extractLsb' s n = fn.extractLsb' (s - 16) n) ∧
    (∀ s, 16 ≤ s → s < 24 → w.getLsbD s = fn.getLsbD (s - 16)) ∧
    (∀ s n, s + n ≤ 16 → w.extractLsb' s n = off.extractLsb' s n) := by
  subst h
  refine ⟨?_, ?_, ?_, ?_, ?_, ?_, ?_, ?_, ?_, ?_, ?_, ?_⟩ <;> intros <;>
    simp (disch := omega) only [fmtX, BitVec.extractLsb'_append_eq_of_le, BitVec.extractLsb'_append_eq_of_add_le,
      BitVec.extractLsb'_eq_self, getLsbD_append_low, getLsbD_append_high, Nat.reduceSub] <;>
    simp only [Nat.sub_sub, Nat.reduceAdd, getLsbD_ofBool_zero]

/-! ### The slots of a candidate -/

theorem slotsOf_candidateS {w : Word} {i : Instr} (h : candidateS w = some i) :
    slotsOf i = if s1Only i then [.s1] else [.s0, .s1] := by
  unfold candidateS at h
  split at h <;> cases h <;> rfl

theorem slotsOf_candidateMem {w : Word} {i : Instr} (h : candidateMem w = some i) : slotsOf i = [.mem] := by
  unfold candidateMem at h
  repeat' split at h
  all_goals (cases h <;> rfl)

theorem slotsOf_candidateVec {w : Word} {i : Instr} (h : candidateVec w = some i) : slotsOf i = [.vec] := by
  unfold candidateVec at h
  repeat' split at h
  all_goals (cases h <;> rfl)

theorem slotsOf_candidateMtx {w : Word} {i : Instr} (h : candidateMtx w = some i) : slotsOf i = [.mtx] := by
  unfold candidateMtx at h
  repeat' split at h
  all_goals (cases h <;> rfl)

theorem slotsOf_candidateCtl {w : Word} {i : Instr} (h : candidateCtl w = some i) : slotsOf i = [.ctl] := by
  unfold candidateCtl at h
  repeat' split at h
  all_goals (cases h <;> rfl)

theorem candidate_s0 {w : Word} {i : Instr} :
    candidate .s0 w = some i ↔ candidateS w = some i ∧ s1Only i = false := by
  rw [candidate]
  split
  · next j hj =>
    simp only [hj, Option.some.injEq, ite_eq_iff, reduceCtorEq, and_false, false_or, Bool.not_eq_true]
    exact and_comm.trans (and_congr_right fun e => by rw [e])
  · next hj => simp [hj]

/-- Every map lists the instructions of its own slots alone. -/
theorem mem_slotsOf_candidate {sl : Slot} {w : Word} {i : Instr} (h : candidate sl w = some i) : sl ∈ slotsOf i := by
  cases sl with
  | s0 =>
    obtain ⟨hc, hdiv⟩ := candidate_s0.mp h
    simp [slotsOf_candidateS hc, hdiv]
  | s1 =>
    rw [slotsOf_candidateS h]
    split <;> simp
  | mem => simp [slotsOf_candidateMem h]
  | vec => simp [slotsOf_candidateVec h]
  | mtx => simp [slotsOf_candidateMtx h]
  | ctl => simp [slotsOf_candidateCtl h]

/-! ### The candidate of an encoded instruction (R134 to R138) -/

section Maps

variable {sl : Slot} {w : Word} {i : Instr} (hs : sl ∈ slotsOf i)

include hs

/-- The scalar map serves S0 and S1; the divider's opcodes are the only ones that S0 lacks (R134). -/
theorem candidate_of_s (h : candidateS w = some i) : candidate sl w = some i := by
  rw [slotsOf_candidateS h] at hs
  split at hs
  · obtain rfl := List.mem_singleton.mp hs
    exact h
  · next hdiv =>
    obtain rfl | rfl : sl = .s0 ∨ sl = .s1 := by simpa using hs
    · exact candidate_s0.mpr ⟨h, Bool.eq_false_iff.mpr hdiv⟩
    · exact h

theorem candidate_of_mem (h : candidateMem w = some i) : candidate sl w = some i := by
  obtain rfl := List.mem_singleton.mp (slotsOf_candidateMem h ▸ hs)
  exact h

theorem candidate_of_vec (h : candidateVec w = some i) : candidate sl w = some i := by
  obtain rfl := List.mem_singleton.mp (slotsOf_candidateVec h ▸ hs)
  exact h

theorem candidate_of_mtx (h : candidateMtx w = some i) : candidate sl w = some i := by
  obtain rfl := List.mem_singleton.mp (slotsOf_candidateMtx h ▸ hs)
  exact h

theorem candidate_of_ctl (h : candidateCtl w = some i) : candidate sl w = some i := by
  obtain rfl := List.mem_singleton.mp (slotsOf_candidateCtl h ▸ hs)
  exact h

end Maps

/-- The candidate of an encoded instruction is the instruction. Where an opcode stands for one instruction, the opcode alone
finds its line of the map; where a bit or a subfield chooses among several, it is read too. -/
theorem candidate_encode {i : Instr} {sl : Slot} {w : Word} (hs : sl ∈ slotsOf i) (he : encode i = some w) :
    candidate sl w = some i := by
  cases i
  case add | sub | mul | mulh | mulhu | div | divu | rem | remu | and | or | xor |
      andn | shl | shr | sra | rotl | min | max | minu | maxu | cmp | sel | clz |
      ctz | popc | ext | ins | li | lih | addi | mov | lea =>
    obtain ⟨hop, hf⟩ := fmtS_fields (Option.some.inj he)
    refine candidate_of_s hs ?_
    rw [candidateS, hop]
    refine congrArg some ?_
    simp (disch := decide) only [hf, BitVec.extractLsb'_append_eq_of_le, BitVec.extractLsb'_append_eq_of_add_le,
      BitVec.extractLsb'_eq_self, getLsbD_append_low, getLsbD_append_high, getLsbD_ofBool_zero, Nat.reduceSub]
  case fadd | fsub | fmul | fma | fmin | fmax | fcmp | fcvt =>
    obtain ⟨hop, hf⟩ := fmtF_fields (Option.some.inj he)
    refine candidate_of_s hs ?_
    rw [candidateS, hop]
    refine congrArg some ?_
    simp (disch := decide) only [hf, BitVec.extractLsb'_eq_self, Nat.reduceSub]
  case ld | st | ldX | stX | ldXg | xpSet | tagLk | tagInv | qWait | tdRel | drain | acWait =>
    obtain ⟨hop, hf⟩ := fmtM_fields (Option.some.inj he)
    refine candidate_of_mem hs ?_
    rw [candidateMem, hop]
    refine congrArg some ?_
    simp (disch := decide) only [hf, BitVec.extractLsb'_append_eq_of_le, BitVec.extractLsb'_append_eq_of_add_le,
      BitVec.extractLsb'_eq_self, getLsbD_append_low, getLsbD_append_high, getLsbD_ofBool_zero, Nat.reduceSub]
  case qAdv | qAdvRp =>
    refine candidate_of_mem hs ?_
    simp (disch := decide) only [candidateMem, fmtM_fields (Option.some.inj he),
      BitVec.extractLsb'_append_eq_of_add_le, BitVec.extractLsb'_eq_self, BitVec.reduceToNat,
      BitVec.reduceGetLsb, Nat.reduceSub, Bool.false_eq_true, if_true, if_false]
  case tagFl | spmCarve | qBind | qDrain | cpG | cpS | pfT | pin | unpin | tdMk | am | red |
      put | get | mcast | acSet | acAdd | kvChk | rngIns | rngDel | rngSplit | rngMerge | rngInv | rngReloc |
      rngRd =>
    obtain ⟨hop, hf⟩ := fmtE_fields (Option.some.inj he)
    refine candidate_of_mem hs ?_
    rw [candidateMem, hop]
    refine congrArg some ?_
    simp (disch := decide) only [hf, BitVec.extractLsb'_append_eq_of_le, BitVec.extractLsb'_append_eq_of_add_le,
      BitVec.extractLsb'_eq_self, getLsbD_append_low, getLsbD_append_high, getLsbD_ofBool_zero, Nat.reduceSub]
  case tagEv | tagEvWb | cp | cpKvchk | rngResOr | rngResAndn | rngResWr =>
    refine candidate_of_mem hs ?_
    simp (disch := decide) only [candidateMem, fmtE_fields (Option.some.inj he),
      BitVec.extractLsb'_append_eq_of_add_le, BitVec.extractLsb'_eq_self, getLsbD_append_low,
      getLsbD_append_high, getLsbD_ofBool_zero, BitVec.reduceToNat, BitVec.reduceGetLsb, BitVec.getLsbD_zero,
      Nat.reduceSub, Bool.false_eq_true, if_true, if_false]
  case vadd | vsub | vmul | vfma | vmin | vmax | vabs | vneg | vexp2 | vlog2 | vrcp | vrsq |
      vtanh | vsig | vsin | vcmp | vsel | vcvt | cvtPk | cvtUp | vq | vdq | vred | vcred |
      vtr | vperm | vmov | vzero | viadd | vimul | vand | vor | vxor | vshl | vshr | vidot |
      vsmMerge | shp | fmtTag | rcwUpd | rcwCnt | rcwMask | ruleSet =>
    obtain ⟨hop, hf⟩ := fmtV_fields (Option.some.inj he)
    refine candidate_of_vec hs ?_
    rw [candidateVec, hop]
    refine congrArg some ?_
    simp (disch := decide) only [hf, BitVec.extractLsb'_append_eq_of_le, BitVec.extractLsb'_append_eq_of_add_le,
      BitVec.extractLsb'_eq_self, getLsbD_append_low, getLsbD_append_high, getLsbD_ofBool_zero, Nat.reduceSub]
  case vbcastRow | vbcastEl | vsh | vshRows | rcwSet | rcwSetSt | rcwSetCp =>
    refine candidate_of_vec hs ?_
    simp (disch := decide) only [candidateVec, fmtV_fields (Option.some.inj he),
      BitVec.extractLsb'_append_eq_of_add_le, BitVec.extractLsb'_eq_self, getLsbD_append_low,
      getLsbD_append_high, getLsbD_ofBool_zero, BitVec.reduceToNat, BitVec.reduceGetLsb,
      BitVec.reduceExtractLsb', BitVec.getLsbD_zero, Nat.reduceSub, Bool.false_eq_true, if_true, if_false]
  case chain | cmxPack | cmxRest | kvSv | ntfX | moeRoute =>
    obtain ⟨hop, hf⟩ := fmtE_fields (Option.some.inj he)
    refine candidate_of_vec hs ?_
    rw [candidateVec, hop]
    refine congrArg some ?_
    simp (disch := decide) only [hf, BitVec.extractLsb'_append_eq_of_le, BitVec.extractLsb'_append_eq_of_add_le,
      BitVec.extractLsb'_eq_self, getLsbD_append_low, getLsbD_append_high, getLsbD_ofBool_zero, Nat.reduceSub]
  case mmIp | mmOp | mmRw | mmZIp | mmZRw | mmMerge | mmOut | bmpMk | bmpCnt | spzPack | spzPackB | spzUnpk =>
    refine candidate_of_mtx hs ?_
    simp (disch := decide) only [candidateMtx, fmtX_fields (Option.some.inj he),
      BitVec.extractLsb'_append_eq_of_add_le, BitVec.extractLsb'_eq_self, getLsbD_append_low,
      getLsbD_append_high, getLsbD_ofBool_zero, BitVec.reduceToNat, BitVec.reduceGetLsb, BitVec.getLsbD_zero,
      Nat.reduceSub, Bool.false_eq_true, if_true, if_false]
  case br | jmp | jr | call | callI | ret | loop | loopLv | yld | done | halt | bar |
      barArr | barWt | flagSet | flagSetCore | flagSetRmt | flagClr | ctlRd | ctlWr | prePt | trap | rte | ifence |
      toll | trcMk | nop =>
    refine candidate_of_ctl hs ?_
    simp (disch := decide) only [candidateCtl, fmtC_fields (Option.some.inj he),
      BitVec.extractLsb'_append_eq_of_le, BitVec.extractLsb'_append_eq_of_add_le, BitVec.extractLsb'_eq_self,
      getLsbD_append_low, BitVec.reduceToNat, BitVec.reduceGetLsb, BitVec.reduceExtractLsb', Nat.reduceSub,
      Bool.false_eq_true, if_true, if_false]
  all_goals exact absurd hs List.not_mem_nil

/-- The decoder accepts exactly a candidate that is well formed and whose encoding is the word. -/
theorem decodeSlot_ok {sl : Slot} {w : Word} {i : Instr} :
    decodeSlot sl w = .ok i ↔ candidate sl w = some i ∧ encode i = some w ∧ WellFormed i = true := by
  unfold decodeSlot
  split
  · next hj => simp [hj]
  · next j hj =>
    simp only [hj, Option.some.injEq]
    constructor
    · split_ifs with he hw
      · nofun
      · rintro ⟨⟩
        exact ⟨rfl, not_not.mp he, hw⟩
      · nofun
    · rintro ⟨rfl, he, hw⟩
      rw [if_neg (not_not.mpr he), if_pos hw]

/-- Settles O1, format by format: the candidate of an encoded word reads back the fields that the encoder wrote. -/
theorem decodeEncode : Obligations.DecodeEncode := by
  intro i sl w hs hw he
  exact decodeSlot_ok.mpr ⟨candidate_encode hs he, he, hw⟩

/-- Settles O2: the decoder has compared the candidate's encoding with the word, and each map lists its own slot's
instructions. -/
theorem decodedWordIsTheEncoding : Obligations.DecodedWordIsTheEncoding := by
  intro sl w i h
  obtain ⟨hc, he, hw⟩ := decodeSlot_ok.mp h
  exact ⟨hw, mem_slotsOf_candidate hc, he⟩

/-- Settles O60 by running the decoder on each word. -/
theorem workedWordsDecode : Obligations.WorkedWordsDecode := by
  unfold Obligations.WorkedWordsDecode
  decide

/-! ### The check byte (R111) -/

theorem checkByte_getLsbD (w : Word) {k : Nat} (hk : k < 8) : (checkByte w).getLsbD k =
    !(w.getLsbD k ^^ w.getLsbD (8 + k) ^^ w.getLsbD (16 + k) ^^ w.getLsbD (24 + k) ^^ w.getLsbD (32 + k) ^^
      w.getLsbD (40 + k) ^^ w.getLsbD (48 + k)) := by
  simp [checkByte, hk]

/-- The check byte is of the seven bytes below alone. -/
theorem checkByte_append (x : Byte) (low : BitVec 56) : checkByte (x ++ low) = checkByte (low.setWidth 64) := by
  simp (disch := decide) only [checkByte, BitVec.extractLsb'_append_eq_of_add_le, BitVec.extractLsb'_setWidth_of_le]

/-- Settles O15, bit by bit. -/
theorem checkByte_holds : Obligations.CheckByte := by
  constructor
  · intro w
    rw [chkOk, beq_iff_eq, BitVec.eq_of_getLsbD_eq_iff]
    refine forall₂_congr fun k hk => ?_
    rw [checkByte_getLsbD w hk]
    simp [hk]
  · intro p0 p1 pm pv px pc sync cons gap sw land trc
    rw [encodeHeader, chkOk, beq_iff_eq]
    exact BitVec.extractLsb'_append_eq_left.trans (checkByte_append _ _).symm

end Sys2Proof

namespace Sys2Proof.Machine

/-! ## An instruction by itself, and transfers of control (O11, O20) -/

/-- Settles O11: an instruction's meaning is its slot effect, settled. -/
theorem execIsSlotEffect : Obligations.ExecIsSlotEffect := by
  intro i s hi
  have h := exec_eq_settle s hi
  exact ⟨fun t ht => exec_of_ok h ht, fun t ht => exec_of_trap h ht, fun ht => by rw [h, ht, settle_hold],
    fun n u ht => by rw [h, ht]; rfl⟩

/-! ### The rows of a mask in range (R171) -/

/-- The mask of the rows in range has their bits alone. -/
theorem getLsbD_rowsInRange {n i : Nat} (hn : n ≤ 64) :
    (BitVec.ofNat 64 (2 ^ n - 1)).getLsbD i = decide (i < n) := by
  rw [BitVec.getLsbD_ofNat, Nat.testBit_two_pow_sub_one]
  simp only [Bool.and_eq_right_iff_imp, decide_eq_true_eq]
  omega

theorem maskInRange_eq_zero (c : Ctx) (p : Nat) {n : Nat} (hn : n ≤ 64) :
    maskInRange c p n = 0 ↔ ∀ i, i < n → (!(maskOf c p).getLsbD i) = true := by
  simp only [maskInRange, BitVec.eq_of_getLsbD_eq_iff, BitVec.getLsbD_and, getLsbD_rowsInRange hn, BitVec.ofNat_eq_ofNat,
    BitVec.getLsbD_zero, Bool.and_eq_false_iff, decide_eq_false_iff_not, Bool.not_eq_true']
  exact ⟨fun h i hi => (h i (by omega)).resolve_right (not_not.mpr hi),
    fun h i _ => (em (i < n)).imp (h i) id⟩

theorem maskInRange_eq_full (c : Ctx) (p : Nat) {n : Nat} (hn : n ≤ 64) :
    maskInRange c p n = BitVec.ofNat 64 (2 ^ n - 1) ↔ ∀ i, i < n → (maskOf c p).getLsbD i = true := by
  simp only [maskInRange, BitVec.eq_of_getLsbD_eq_iff, BitVec.getLsbD_and, getLsbD_rowsInRange hn, Bool.and_eq_right_iff_imp,
    decide_eq_true_eq]
  exact ⟨fun h i hi => h i (by omega) hi, fun h i _ => h i⟩

/-! ### Branches -/

/-- A branch transfers exactly when its condition holds. -/
theorem exec_br {a : Reg} {cond : BitVec 3} {off : Imm} {s : State} {taken : Bool} {p : Prop} [Decidable p]
    (h : slotBr a cond off s = .ok (if taken then transfer s (relTarget s off) .land else s)) (hp : taken = true ↔ p) :
    exec (.br a cond off) s = if p then .next (transfer s (relTarget s off) .land) else .next s := by
  rw [exec_of_ok rfl h]
  simp only [hp]
  exact apply_ite _ _ _ _

/-- A branch on a scalar reads it. -/
theorem slotBr_scalar {s : State} {a : Reg} {cond : BitVec 3} (off : Imm) (hc : cond.toNat < 2)
    (ha : isPending s a.toNat = false) :
    slotBr a cond off s =
      .ok (if (if cond = 0 then sv s a != 0 else sv s a == 0) then transfer s (relTarget s off) .land else s) := by
  simp only [slotBr, if_pos hc, readS_ok ha, except_ok_bind]

/-- A branch on a mask looks at the rows in range. -/
theorem slotBr_mask {s : State} (a : Reg) {cond : BitVec 3} (off : Imm) (hc : ¬ cond.toNat < 2) (hr : RowsOk s) :
    slotBr a cond off s =
      .ok (if maskCond cond.toNat (maskInRange (me s) a.toNat (rowsOf (me s))) (BitVec.ofNat 64 (2 ^ rowsOf (me s) - 1))
        then transfer s (relTarget s off) .land else s) := by
  simp only [slotBr, if_neg hc, rowsCheck_ok 0 5 hr, except_ok_bind]

/-- Settles O20: each form's condition is read off the scalar, or off the rows in range of the mask. -/
theorem controlTransfers : Obligations.ControlTransfers := by
  intro s a b off go rel linked
  refine ⟨exec_of_ok rfl rfl, exec_of_ok rfl rfl, fun ha => ?scalar, fun hb => ?callI, fun h1 h64 => ?mask⟩
  case scalar =>
    have ha := (readable_cons.mp ha).1
    refine ⟨exec_br (slotBr_scalar off (by decide) ha) bne_iff_ne, exec_br (slotBr_scalar off (by decide) ha) beq_iff_eq,
      exec_of_ok rfl ?_, exec_of_ok rfl ?_⟩
    · rw [slotJr, readS_ok ha, except_ok_bind]
      rfl
    · rw [slotRet, readS_ok ha, except_ok_bind]
      rfl
  case callI =>
    refine exec_of_ok rfl ?_
    rw [slotCallI, readS_ok (readable_cons.mp hb).1, except_ok_bind]
    rfl
  case mask =>
    have read (cond : BitVec 3) (hc : ¬ cond.toNat < 2) := slotBr_mask a off hc ⟨h1, h64⟩
    have noRow := maskInRange_eq_zero (me s) a.toNat h64
    have allRows := maskInRange_eq_full (me s) a.toNat h64
    exact ⟨(exec_br (read 2 (by decide)) (bne_iff_ne.trans noRow.not)).trans (ite_not ..),
      exec_br (read 3 (by decide)) (beq_iff_eq.trans allRows),
      exec_br (read 4 (by decide)) (beq_iff_eq.trans noRow),
      (exec_br (read 5 (by decide)) (bne_iff_ne.trans allRows.not)).trans (ite_not ..)⟩

end Sys2Proof.Machine

namespace Sys2Proof.Machine

/-! ## Writes that become visible (O8), and stops (O17, O24) -/

/-! ### What a write that becomes visible leaves (R142) -/

/-- A context without the parts that a fixed-latency write changes. -/
def Ctx.unwritten (c : Ctx) : Ctx :=
  { c with scalars := [], masks := [], loops := [], streams := [], shape := 0, live := 0, seed := 0, rndMode := 0, swapth := 0
           pinCap := 0, ten := 0, dlt := [], slkt := [], patterns := [], rules := [] }

/-- What making writes of a context visible leaves: every other context, the rest of its own, the cores' waiting work and
the launches. -/
structure Visible (core ctx : Nat) (s t : State) : Prop where
  cur : t.cur = s.cur
  launches : t.launches = s.launches
  work : ∀ n, (coreOf t n).work = (coreOf s n).work
  own : (ctxOf t core ctx).unwritten = (ctxOf s core ctx).unwritten
  others : ∀ n k, (n, k) ≠ (core, ctx) → ctxOf t n k = ctxOf s n k

section Visible

variable {core ctx : Nat} {s t u : State}

theorem Visible.refl (core ctx : Nat) (s : State) : Visible core ctx s s :=
  ⟨rfl, rfl, fun _ => rfl, rfl, fun _ _ _ => rfl⟩

theorem Visible.trans (h : Visible core ctx s t) (g : Visible core ctx t u) : Visible core ctx s u :=
  ⟨g.cur.trans h.cur, g.launches.trans h.launches, fun n => (g.work n).trans (h.work n), g.own.trans h.own,
    fun n k hk => (g.others n k hk).trans (h.others n k hk)⟩

/-- A change of a core that keeps its contexts and its work. -/
theorem visible_setCore (s : State) {n : Nat} {c : CoreSt} (hc : c.ctxs = (coreOf s n).ctxs)
    (hw : c.work = (coreOf s n).work) : Visible core ctx s (setCore s n c) := by
  have ctxs (m k : Nat) : ctxOf (setCore s n c) m k = ctxOf s m k := (traffic_withCore s n (fun _ => c) hc).ctxs m k
  refine ⟨rfl, rfl, fun m => ?_, congrArg _ (ctxs core ctx), fun m k _ => ctxs m k⟩
  by_cases h : m = n
  · rw [h, coreOf_setCore, hw]
  · rw [coreOf_setCore_other _ _ h]

theorem pair_ne {m j n k : Nat} (h : (m, j) ≠ (n, k)) : m ≠ n ∨ j ≠ k := by
  rwa [Ne, Prod.mk.injEq, not_and_or] at h

theorem work_setCtx (s : State) (n k : Nat) (c : Ctx) (m : Nat) : (coreOf (setCtx s n k c) m).work = (coreOf s m).work := by
  by_cases hm : m = n
  · rw [hm, coreOf_setCtx]
  · rw [coreOf_setCtx_other _ _ hm]

/-- A change of the context in the parts that writes change. -/
theorem visible_setCtx (s : State) {c : Ctx} (h : c.unwritten = (ctxOf s core ctx).unwritten) :
    Visible core ctx s (setCtx s core ctx c) :=
  ⟨rfl, rfl, work_setCtx s core ctx c, by rw [ctxOf_setCtx, h], fun _ _ hk => ctxOf_setCtx_other s c (pair_ne hk)⟩

/-- A change of what no context, core or launch holds. -/
theorem visible_of_cores (hc : t.cores = s.cores) (hcur : t.cur = s.cur) (hl : t.launches = s.launches) :
    Visible core ctx s t := by
  have core (n : Nat) : coreOf t n = coreOf s n := by rw [coreOf, hc, coreOf]
  have own (n k : Nat) : ctxOf t n k = ctxOf s n k := by rw [ctxOf, core, ctxOf]
  exact ⟨hcur, hl, fun n => by rw [core], by rw [own], fun n k _ => own n k⟩

theorem visible_noteShared (s : State) (crn : Nat) : Visible core ctx s (noteShared s core ctx crn) := by
  unfold noteShared
  split
  · exact visible_of_cores rfl rfl rfl
  · exact .refl core ctx s

/-- A store to a control register of a context `c` changes that context, its core or the device's own registers. -/
def StoreVisible (core ctx : Nat) (s : State) (c : Ctx) (r : State × Ctx) : Prop :=
  Visible core ctx s r.1 ∧ r.2.unwritten = c.unwritten

theorem storeVisible_ctlStore (s : State) (c : Ctx) (crn : Nat) (v : Word) :
    StoreVisible core ctx s c (ctlStore core s c crn v) := by
  have own {d : Ctx} (h : d.unwritten = c.unwritten) : StoreVisible core ctx s c (s, d) := ⟨.refl core ctx s, h⟩
  unfold ctlStore
  iterate 4 refine iteInduction (fun _ => own rfl) fun _ => ?_
  iterate 2 refine iteInduction (fun _ => ⟨visible_setCore s rfl rfl, rfl⟩) fun _ => ?_
  refine iteInduction (fun _ => ⟨visible_of_cores rfl rfl rfl, rfl⟩) fun _ => ?_
  iterate 4 refine iteInduction (fun _ => own rfl) fun _ => ?_
  exact own rfl

theorem visible_applyWrite (s : State) (core ctx : Nat) (w : Write) : Visible core ctx s (applyWrite s core ctx w) := by
  cases w with
  | scalar | mask | count | loopSet | pattern | rules | unbind => exact visible_setCtx s rfl
  | ctl crn v =>
    obtain ⟨hs, hc⟩ := storeVisible_ctlStore (ctx := ctx) (noteShared s core ctx crn) (ctxOf s core ctx) crn v
    have h := (visible_noteShared s crn).trans hs
    exact h.trans (visible_setCtx _ (hc.trans h.own.symm))
  | tileRow | tileRcw | tileTag | tileSsc | tagInvalid => exact visible_setCore s rfl rfl
  | advance q rp n =>
    refine visible_setCtx s ?_
    dsimp only
    split <;> rfl
  | tdInvalid => exact visible_of_cores rfl rfl rfl

theorem visible_applyWrites (s : State) (core ctx : Nat) (l : List Write) : Visible core ctx s (applyWrites s core ctx l) := by
  induction l generalizing s with
  | nil => exact .refl core ctx s
  | cons w l ih => exact (visible_applyWrite s core ctx w).trans (ih _)

/-- A stop makes every pending write of its context visible, and leaves it none (R143). -/
theorem visible_flush (s : State) (core ctx : Nat) :
    Visible core ctx (setCtx s core ctx { ctxOf s core ctx with pend := [] }) (flush s core ctx) :=
  visible_applyWrites _ core ctx _

theorem visible_leaveOwner (s : State) (core ctx : Nat) : Visible core ctx s (leaveOwner s core ctx) := by
  refine visible_setCore s ?_ ?_ <;> dsimp only <;> split <;> rfl

theorem visible_traceRaw (s : State) (n : Nat) (r : TraceRec) : Visible core ctx s (traceRaw s n r) := by
  refine visible_setCore s ?_ ?_ <;> dsimp only <;> split <;> rfl

theorem visible_traceEvent (s : State) (n cls k sub : Nat) (pay : Word) :
    Visible core ctx s (traceEvent s n cls k sub pay) := by
  unfold traceEvent
  split
  · exact visible_traceRaw s n _
  · exact .refl core ctx s

theorem visible_traceTrigger (s : State) (n source k : Nat) : Visible core ctx s (traceTrigger s n source k) := by
  unfold traceTrigger
  dsimp only
  split
  · exact (visible_traceRaw s n _).trans (visible_setCore _ rfl rfl)
  · exact .refl core ctx s

end Visible

/-! ### Visibility of a result (R141, R142) -/

theorem scalars_ctlStore (core : Nat) (s : State) (c : Ctx) (crn : Nat) (v : Word) :
    (ctlStore core s c crn v).2.scalars = c.scalars := by
  unfold ctlStore
  iterate 11 refine iteInduction (motive := fun r : State × Ctx => r.2.scalars = c.scalars) (fun _ => rfl) fun _ => ?_
  rfl

/-- A write of another part leaves a scalar as it was. -/
theorem scalar_applyWrite_other (s : State) (core ctx : Nat) {r : Nat} {w : Write} (h : w.part ≠ (0, r, 0)) :
    Tbl.look 0 (ctxOf (applyWrite s core ctx w) core ctx).scalars r = Tbl.look 0 (ctxOf s core ctx).scalars r := by
  have of_ctx (f : Ctx → Ctx) (hf : (f (ctxOf s core ctx)).scalars = (ctxOf s core ctx).scalars) :
      Tbl.look 0 (ctxOf (withCtx s core ctx f) core ctx).scalars r = Tbl.look 0 (ctxOf s core ctx).scalars r := by
    rw [ctxOf_withCtx, hf]
  have of_core (f : CoreSt → CoreSt) (hf : (f (coreOf s core)).ctxs = (coreOf s core).ctxs) :
      Tbl.look 0 (ctxOf (withCore s core f) core ctx).scalars r = Tbl.look 0 (ctxOf s core ctx).scalars r := by
    rw [(traffic_withCore s core f hf).ctxs]
  cases w with
  | scalar r' v =>
    have hne : r ≠ r' := fun e => h (by rw [e]; rfl)
    rw [applyWrite, ctxOf_withCtx, Tbl.look_put_other _ _ _ hne]
  | mask | count | loopSet | pattern | rules | unbind => exact of_ctx _ rfl
  | ctl crn v =>
    rw [applyWrite, ctxOf_setCtx, scalars_ctlStore]
  | tileRow | tileRcw | tileTag | tileSsc | tagInvalid => exact of_core _ rfl
  | advance q rp n =>
    refine of_ctx _ ?_
    split <;> rfl
  | tdInvalid => rfl

theorem applyWrites_append (s : State) (core ctx : Nat) (l m : List Write) :
    applyWrites s core ctx (l ++ m) = applyWrites (applyWrites s core ctx l) core ctx m := by
  induction l generalizing s with
  | nil => rfl
  | cons w l ih => exact ih _

theorem scalar_applyWrites_other (core ctx : Nat) {r : Nat} {l : List Write} (s : State)
    (h : ∀ w ∈ l, w.part ≠ (0, r, 0)) :
    Tbl.look 0 (ctxOf (applyWrites s core ctx l) core ctx).scalars r = Tbl.look 0 (ctxOf s core ctx).scalars r := by
  induction l generalizing s with
  | nil => rfl
  | cons w l ih =>
    obtain ⟨hw, hl⟩ := List.forall_mem_cons.mp h
    exact (ih _ hl).trans (scalar_applyWrite_other s core ctx hw)

/-- Of the writes of a part, only the youngest is still on its way: what is due is what was due of the other parts, and
the new write once its latency is over (R142). -/
theorem due_pushWrite (l : List Pending) (due now : Nat) (w : Write) :
    ((pushWrite l due w).filter (fun p => p.due ≤ now)).map (·.w) =
      (((l.filter (fun p => p.w.part ≠ w.part)).filter (fun p => p.due ≤ now)).map (·.w)) ++ (if due ≤ now then [w] else []) := by
  rw [pushWrite, List.filter_append, List.map_append]
  congr 1
  by_cases h : due ≤ now <;> simp [h]

/-- Where scalar `r` is the last of the writes due, or none of them, its value after the promotion. -/
theorem scalar_applyWrites_push (s : State) (core ctx lat now : Nat) (l : List Pending) (r : Nat) (v : Word) :
    Tbl.look 0 (ctxOf (applyWrites s core ctx (((pushWrite l lat (.scalar r v)).filter (fun p => p.due ≤ now)).map (·.w)))
      core ctx).scalars r = if lat ≤ now then v else Tbl.look 0 (ctxOf s core ctx).scalars r := by
  have others : ∀ w ∈ ((l.filter (fun p => p.w.part ≠ (Write.scalar r v).part)).filter (fun p => p.due ≤ now)).map (·.w),
      w.part ≠ (0, r, 0) := by
    intro w hw
    obtain ⟨p, hp, rfl⟩ := List.mem_map.mp hw
    exact of_decide_eq_true (List.mem_filter.mp (List.mem_filter.mp hp).1).2
  rw [due_pushWrite, applyWrites_append]
  split
  · rw [applyWrites, applyWrites, applyWrite, ctxOf_withCtx, Tbl.look_put_same]
  · rw [applyWrites, scalar_applyWrites_other _ _ _ others]

/-- Settles O8: the promotion applies what is due of the other parts, which leaves the scalar alone, and then the new write
if it is due. -/
theorem resultVisibility : Obligations.ResultVisibility := by
  intro s lat k r v hr t later
  have hn : r.toNat ≠ 0 := fun h => hr (BitVec.eq_of_toNat_eq h)
  have ht : t = withMe s (fun c => { c with pend := pushWrite c.pend (c.icount + lat) (.scalar r.toNat v) }) :=
    result_scalar s lat v hn
  have hc : ctxOf later s.cur.1 s.cur.2 = { me s with
      pend := pushWrite (me s).pend ((me s).icount + lat) (.scalar r.toNat v), icount := (me s).icount + k } := by
    rw [show later = withMe t _ from rfl, ht]
    exact (me_withMe _ _).trans (by rw [me_withMe])
  have hcur : (promote later s.cur.1 s.cur.2).cur = s.cur :=
    (visible_applyWrites _ _ _ _).cur.trans (show t.cur = s.cur by rw [ht]; rfl)
  rw [sv, me, hcur, scalarOf, if_neg hr, promote, hc, scalar_applyWrites_push, ctxOf_setCtx, sv, scalarOf, if_neg hr]
  exact if_congr (Nat.add_le_add_iff_left) rfl rfl

/-! ### Taking an exception (R143, R498 to R503) -/

/-- The context frozen by a trap, once its pending writes are visible. -/
def frozenCtx (s : State) (core ctx : Nat) (t : TrapInfo) (resume baddr : BitVec 56) (after : Bool) : Ctx :=
  let c := ctxOf (flush s core ctx) core ctx
  let susp := (outstanding (flush s core ctx) core ctx).any (fun o => o.susp.isSome) || c.streams.any (fun q => q.2.susp)
  { c with status := .frozen, record := some (trapRecord t resume baddr c.icount after ctx susp (stopCount c))
           resume := resume, pc := resume, preempt := c.preempt.map (· - (flush s core ctx).time)
           asked := (flush s core ctx).time }

/-- A trap of a task's context freezes it and asks the service context for a handler. -/
theorem takeTrap_task (s : State) (core : Nat) {ctx : Nat} (t : TrapInfo) (resume baddr : BitVec 56) (after : Bool)
    (h : ctx ≠ 4) :
    ∃ u, Visible core ctx (setCtx (flush s core ctx) core ctx (frozenCtx s core ctx t resume baddr after)) u ∧
      takeTrap s core ctx t resume baddr after = withCore u core (fun k => { k with work := k.work ++ [.handler ctx] }) := by
  refine ⟨_, ?_, if_neg h⟩
  exact ((visible_leaveOwner _ core ctx).trans (visible_traceEvent _ ..)).trans (visible_traceTrigger _ ..)

/-- What the flush of a stop leaves of its context, of the others and of the core's work. -/
theorem flush_own (s : State) (core ctx : Nat) :
    (ctxOf (flush s core ctx) core ctx).unwritten = { ctxOf s core ctx with pend := [] }.unwritten :=
  (visible_flush s core ctx).own.trans (by rw [ctxOf_setCtx])

theorem flush_icount (s : State) (core ctx : Nat) : (ctxOf (flush s core ctx) core ctx).icount = (ctxOf s core ctx).icount := by
  have h := congrArg Ctx.icount (flush_own s core ctx)
  exact h

theorem flush_flags (s : State) (core ctx : Nat) : (ctxOf (flush s core ctx) core ctx).flags = (ctxOf s core ctx).flags := by
  have h := congrArg Ctx.flags (flush_own s core ctx)
  exact h

theorem flush_task (s : State) (core ctx : Nat) : (ctxOf (flush s core ctx) core ctx).task = (ctxOf s core ctx).task := by
  have h := congrArg Ctx.task (flush_own s core ctx)
  exact h

theorem flush_pend (s : State) (core ctx : Nat) : (ctxOf (flush s core ctx) core ctx).pend = [] := by
  have h := congrArg Ctx.pend (flush_own s core ctx)
  exact h

theorem flush_others (s : State) (core ctx : Nat) {n k : Nat} (h : (n, k) ≠ (core, ctx)) :
    ctxOf (flush s core ctx) n k = ctxOf s n k :=
  ((visible_flush s core ctx).others n k h).trans (ctxOf_setCtx_other s _ (pair_ne h))

theorem flush_work (s : State) (core ctx n : Nat) : (coreOf (flush s core ctx) n).work = (coreOf s n).work :=
  ((visible_flush s core ctx).work n).trans (work_setCtx ..)

/-- Settles O17: the flush and the traces change nothing of what the trap entry sets. -/
theorem trapEntry : Obligations.TrapEntry := by
  intro s core ctx t resume baddr after hctx u c
  obtain ⟨v, hv, hu⟩ := takeTrap_task s core t resume baddr after (show ctx ≠ 4 by omega)
  have kept := traffic_withCore v core (fun k => { k with work := k.work ++ [.handler ctx] }) rfl
  have own : c.unwritten = (frozenCtx s core ctx t resume baddr after).unwritten := by
    show (ctxOf (takeTrap s core ctx t resume baddr after) core ctx).unwritten = _
    rw [hu, kept.ctxs, hv.own, ctxOf_setCtx]
  have record : c.record = some (trapRecord t resume baddr (ctxOf (flush s core ctx) core ctx).icount after ctx _ _) :=
    congrArg Ctx.record own
  rw [flush_icount] at record
  refine ⟨congrArg Ctx.status own, congrArg Ctx.pc own, congrArg Ctx.resume own,
    (congrArg Ctx.pend own).trans (flush_pend s core ctx), (congrArg Ctx.flags own).trans (flush_flags s core ctx),
    (congrArg Ctx.icount own).trans (flush_icount s core ctx), ⟨_, _, record⟩, ?_, fun n k hk => ?_⟩
  · show (coreOf (takeTrap s core ctx t resume baddr after) core).work = _
    rw [hu, coreOf_withCore, hv.work, work_setCtx, flush_work]
  · show ctxOf (takeTrap s core ctx t resume baddr after) n k = _
    rw [hu, kept.ctxs, hv.others n k hk, ctxOf_setCtx_other _ _ (pair_ne hk), flush_others s core ctx hk]

/-! ### The end of a task's bundle (R143, R177, R178, R418) -/

/-- What the release of a task's windows, tolls and merge buffer leaves: what every context does and which task it has. -/
structure TasksKept (s t : State) : Prop where
  cur : t.cur = s.cur
  launches : t.launches = s.launches
  status : ∀ n k, (ctxOf t n k).status = (ctxOf s n k).status
  task : ∀ n k, (ctxOf t n k).task = (ctxOf s n k).task

theorem TasksKept.refl (s : State) : TasksKept s s := ⟨rfl, rfl, fun _ _ => rfl, fun _ _ => rfl⟩

theorem TasksKept.trans {s t u : State} (h : TasksKept s t) (g : TasksKept t u) : TasksKept s u :=
  ⟨g.cur.trans h.cur, g.launches.trans h.launches, fun n k => (g.status n k).trans (h.status n k),
    fun n k => (g.task n k).trans (h.task n k)⟩

theorem TasksKept.foldl {α : Type} {f : State → α → State} (h : ∀ s x, TasksKept s (f s x)) (l : List α) (s : State) :
    TasksKept s (l.foldl f s) := by
  induction l generalizing s with
  | nil => exact .refl s
  | cons x l ih => exact (h s x).trans (ih _)

theorem tasksKept_of_traffic {s t : State} (h : TrafficOnly s t) : TasksKept s t :=
  ⟨h.cur, h.launches, fun n k => by rw [h.ctxs], fun n k => by rw [h.ctxs]⟩

theorem tasksKept_setCtx (s : State) (core ctx : Nat) {c : Ctx} (hs : c.status = (ctxOf s core ctx).status)
    (ht : c.task = (ctxOf s core ctx).task) : TasksKept s (setCtx s core ctx c) := by
  have (n k : Nat) : (n = core ∧ k = ctx) ∨ ctxOf (setCtx s core ctx c) n k = ctxOf s n k := by
    by_cases h : (n, k) = (core, ctx)
    · exact .inl (Prod.mk.inj h)
    · exact .inr (ctxOf_setCtx_other s c (pair_ne h))
  refine ⟨rfl, rfl, fun n k => ?_, fun n k => ?_⟩ <;> obtain ⟨rfl, rfl⟩ | h := this n k
  · rw [ctxOf_setCtx, hs]
  · rw [h]
  · rw [ctxOf_setCtx, ht]
  · rw [h]

theorem tasksKept_settleToll (s : State) (core : Nat) : TasksKept s (settleToll s core) := by
  refine TasksKept.foldl (fun s k => ?_) _ s
  have granted (f : CoreSt → CoreSt) (hf : (f (coreOf s core)).ctxs = (coreOf s core).ctxs) (want got : Nat) :
      TasksKept s (setCtx (withCore s core f) core k { ctxOf s core k with tollWant := want, tollHave := got }) := by
    have balance := traffic_withCore s core f hf
    exact (tasksKept_of_traffic balance).trans (tasksKept_setCtx _ core k (by rw [balance.ctxs]) (by rw [balance.ctxs]))
  dsimp only
  split
  · exact (granted _ rfl _ _).trans (tasksKept_setCtx _ core k rfl rfl)
  · exact granted _ rfl _ _

theorem traffic_rehome (s : State) : TrafficOnly s (rehome s) := TrafficOnly.foldl (fun s k => traffic_withLines s k _) _ s

theorem tasksKept_releasePin (s : State) (core ctx n : Nat) : TasksKept s (releasePin s core ctx n) := by
  unfold releasePin
  dsimp only
  split
  · refine .trans ?_ (tasksKept_of_traffic (traffic_rehome _))
    exact .trans (t := { s with pins := Tbl.put s.pins n PinWin.init }) ⟨rfl, rfl, fun _ _ => rfl, fun _ _ => rfl⟩
      (tasksKept_setCtx _ core ctx rfl rfl)
  · exact .refl s

theorem tasksKept_withCore (s : State) (core : Nat) {f : CoreSt → CoreSt}
    (h : (f (coreOf s core)).ctxs = (coreOf s core).ctxs) : TasksKept s (withCore s core f) :=
  tasksKept_of_traffic (traffic_withCore s core f h)

theorem tasksKept_cancelToll (s : State) (core ctx : Nat) : TasksKept s (cancelToll s core ctx) := by
  unfold cancelToll
  refine .trans ?_ (tasksKept_settleToll _ core)
  exact (tasksKept_withCore s core rfl).trans (tasksKept_setCtx _ core ctx rfl rfl)

theorem tasksKept_releasePins (s : State) (core ctx : Nat) : TasksKept s (releasePins s core ctx) :=
  TasksKept.foldl (fun s n => tasksKept_releasePin s core ctx n) _ s

theorem tasksKept_releaseTask (s : State) (core ctx : Nat) : TasksKept s (releaseTask s core ctx) := by
  have freed := (tasksKept_releasePins s core ctx).trans (tasksKept_cancelToll _ core ctx)
  unfold releaseTask
  generalize cancelToll (releasePins s core ctx) core ctx = t at freed ⊢
  exact freed.trans (tasksKept_withCore t core (by split <;> rfl))

/-- A halt of a running launch's task ends the launch with the halt's code. -/
theorem endLaunchBy_running {s : State} {lid place : Nat} {e : Ending} {l : Launch} (h : Tbl.find s.launches lid = some l)
    (hr : l.status = .running) :
    endLaunchBy s lid e place =
      { s with launches := Tbl.put s.launches lid { l.ended e with endedBy := some (s.time, place) } } := by
  rw [endLaunchBy, h]
  dsimp only
  rw [hr]

/-- A bundle that ends its task changes its context alone before what a task holds is released. -/
def endedBundle (s : State) (f : Ctx → Ctx) : State :=
  withCtx (leaveOwner (flush s s.cur.1 s.cur.2) s.cur.1 s.cur.2) s.cur.1 s.cur.2 f

theorem endBundle_done (s : State) : endBundle s none = endedBundle s (fun c =>
    { c with status := .finishing, ended := true, preempt := none, flags := c.flags &&& 0x7FFF }) := rfl

/-- The context of a bundle that halts. -/
def haltCtx (code : BitVec 16) (c : Ctx) : Ctx :=
  { c with status := .halted code, preempt := none, flags := c.flags &&& 0x7FFF }

theorem endBundle_halt_service {s : State} (code : BitVec 16) (h : s.cur.2 = 4) :
    endBundle s (some code) = endedBundle s (haltCtx code) := if_pos h

/-- A halt of a task's context of a launch that runs: the bundle's end, the release, and the launch's end. -/
theorem endBundle_halt_task {s : State} (code : BitVec 16) (h : s.cur.2 ≠ 4) {t : State}
    (ht : releaseTask (endedBundle s (haltCtx code)) s.cur.1 s.cur.2 = t) {r : TaskRef}
    (hr : (ctxOf t s.cur.1 s.cur.2).task = some r) :
    endBundle s (some code) =
      endLaunchBy t r.launch { status := 1, code := code, cause := 0 } (ctxidPlace s.cur.1 s.cur.2) := by
  unfold endBundle
  dsimp only
  rw [if_neg h]
  unfold endedBundle haltCtx at ht
  rw [ht, hr]

theorem endedBundle_cur (s : State) (f : Ctx → Ctx) : (endedBundle s f).cur = s.cur := (visible_flush s _ _).cur

theorem endedBundle_launches (s : State) (f : Ctx → Ctx) : (endedBundle s f).launches = s.launches :=
  (visible_flush s _ _).launches

theorem me_endedBundle (s : State) (f : Ctx → Ctx) :
    me (endedBundle s f) = f (ctxOf (flush s s.cur.1 s.cur.2) s.cur.1 s.cur.2) := by
  have own : ctxOf (leaveOwner (flush s s.cur.1 s.cur.2) s.cur.1 s.cur.2) s.cur.1 s.cur.2 =
      ctxOf (flush s s.cur.1 s.cur.2) s.cur.1 s.cur.2 := (traffic_withCore _ _ _ (by split <;> rfl)).ctxs _ _
  rw [me, endedBundle_cur, endedBundle, ctxOf_withCtx, own]

/-- Settles O24: the release of what a halting task holds keeps every context's status and task, and the launches. -/
theorem endOfTaskBundle : Obligations.EndOfTaskBundle := by
  intro s
  refine ⟨?_, fun code h => ?_, fun code r l h hr hl hrun => ?_⟩
  · rw [endBundle_done, me_endedBundle]
    exact ⟨rfl, rfl, flush_pend s _ _, congrArg (· &&& 0x7FFF) (flush_flags s _ _)⟩
  · rw [endBundle_halt_service code h, me_endedBundle]
    exact ⟨rfl, congrArg (· &&& 0x7FFF) (flush_flags s _ _)⟩
  · obtain ⟨t, ht⟩ : ∃ t, releaseTask (endedBundle s (haltCtx code)) s.cur.1 s.cur.2 = t := ⟨_, rfl⟩
    have kept : TasksKept (endedBundle s (haltCtx code)) t := ht ▸ tasksKept_releaseTask ..
    have cur : t.cur = s.cur := kept.cur.trans (endedBundle_cur s _)
    have ended : ctxOf (endedBundle s (haltCtx code)) s.cur.1 s.cur.2 =
        haltCtx code (ctxOf (flush s s.cur.1 s.cur.2) s.cur.1 s.cur.2) := by
      rw [← me_endedBundle s (haltCtx code), me, endedBundle_cur]
    have task : (ctxOf t s.cur.1 s.cur.2).task = some r := by
      rw [kept.task, ended]
      exact (flush_task s _ _).trans hr
    have launch : Tbl.find t.launches r.launch = some l := by rw [kept.launches, endedBundle_launches, hl]
    rw [endBundle_halt_task code h ht task, endLaunchBy_running launch hrun]
    refine ⟨by rw [Tbl.find_put_same]; rfl, ?_⟩
    show (ctxOf t t.cur.1 t.cur.2).status = _
    rw [cur, kept.status, ended, haltCtx]

end Sys2Proof.Machine

namespace Sys2Proof.Machine

/-! ## A bundle in the cycle in which its launch ends (O13, O21)

A task's halt or fault ends its launch at once, but the launch's other tasks stop when the cycle is over (R418): the passing of
time that ends a bundle's commit stops the context, whatever its bundle did. -/

/-- A launch that a task's halt with code 0, at CTXID place 1, has ended in cycle 0. -/
def haltedLaunch : Launch :=
  { newLaunch 0 0 0 0 noRecord .valid with
    status := .ending { status := 1, code := 0, cause := 0 }, endedBy := some (0, 1) }

/-- Context 0 of core 0 commits, in that cycle, a bundle of another task of the launch, with this transfer taken. -/
def siblingHalted (target : Option (Word × TargetKind)) : State :=
  { State.reset with
    cores := [(0, { CoreSt.init with ctxs := [(0, { Ctx.init with status := .running, task := some ⟨0, 0⟩ })] })]
    launches := [(0, haltedLaunch)]
    fly := { Fly.init with target := target, noBackEdge := true } }

theorem siblingHalted_plain_stopped :
    (me (commitBundle (siblingHalted none) Ctx.init 0 [] [])).status = .stopped := by decide +kernel

theorem siblingHalted_misaligned_stopped :
    (me (commitBundle (siblingHalted (some (1, .plain))) Ctx.init 0 [] [])).status = .stopped := by decide +kernel

theorem siblingHalted_plainBundle : PlainBundle (siblingHalted none) Ctx.init 0 :=
  ⟨rfl, rfl, rfl, rfl, rfl, rfl, fun _ _ => .inl rfl, fun _ _ => rfl⟩

/-- Refutes O13: a plain bundle of a task whose launch another task's halt has ended in the same cycle leaves its context
stopped. -/
theorem not_plainBundleAdvances : ¬ Obligations.PlainBundleAdvances := by
  intro h
  obtain ⟨-, -, -, running, -⟩ := h (siblingHalted none) Ctx.init 0 [] [] siblingHalted_plainBundle rfl
  rw [siblingHalted_plain_stopped] at running
  exact absurd running (by decide)

/-- Refutes O21: a jump to the misaligned address 1, by a task whose launch another task's halt has ended in the same cycle,
leaves its context stopped and not frozen. -/
theorem not_transferSetsPc : ¬ Obligations.TransferSetsPc := by
  intro h
  obtain ⟨-, misaligned, -⟩ := h (siblingHalted (some (1, .plain))) Ctx.init 0 [] [] 1 .plain rfl rfl (by decide)
    rfl rfl rfl rfl rfl (fun _ _ => rfl) (by decide) rfl
  obtain ⟨frozen, -⟩ := misaligned (by decide)
  rw [siblingHalted_misaligned_stopped] at frozen
  exact absurd frozen (by decide)

end Sys2Proof.Machine

namespace Sys2Proof.Machine

/-! ## A step that issues a bundle (O12) -/

theorem nextArrival_bundleIssue (via : MgmtPath) (core ctx : Nat) (rest : List Incoming) :
    nextArrival (⟨via, .bundleIssue core ctx⟩ :: rest) = some (⟨via, .bundleIssue core ctx⟩, rest) := rfl

/-- A step with a bundle's issue first on its agenda issues it. -/
theorem step_bundleIssue {s : State} {via : MgmtPath} {core ctx : Nat} {rest : List Incoming}
    (h : s.agenda = ⟨via, .bundleIssue core ctx⟩ :: rest) :
    step s = execBundleIssue core ctx { s with agenda := rest, via := via } := by
  rw [step, h, nextArrival_bundleIssue]
  rfl

theorem me_slotState (s : State) (core ctx : Nat) (hw : Word) (r : State) :
    me (slotState s core ctx hw r) = { me r with target := none } := me_withMe r (fun c => { c with target := none })

/-- The issue of a bundle of one word up to its fetch: the slots run on the slot state. -/
theorem issueAt_oneWord {s : State} {core ctx : Nat} {hw w : Word} {slot : Slot} {i : Instr} {m r : State}
    (h : OneWord s core ctx hw w slot i m r) :
    issueAt s (beginBundle s core ctx) = issueFetched s (slotState s core ctx hw r) hw [w] := by
  have own : me (beginBundle s core ctx) = ctxOf s core ctx := rfl
  rw [issueAt, own, if_neg (not_not_intro h.aligned), h.header]
  dsimp only
  rw [h.notTarget]
  dsimp only
  rw [h.headerOk]
  dsimp only
  rw [issueWords, h.words]
  dsimp only
  rw [h.samePc]
  rfl

section OneActive

variable {s t : State} {slot : Slot} {w : Word} {i : Instr}

theorem laneOf_decoded (h : decodeSlot slot w = .ok i) : laneOf slot w = { slot := slot, word := w, got := .ok i } := by
  rw [laneOf, h]

theorem activeOf_single (hd : decodeSlot slot w = .ok i) (he : slotEffect i s = .ok t) :
    activeOf s [laneOf slot w] = [{ slot := slot, word := w, instr := i, alone := .ok t }] := by
  rw [laneOf_decoded hd, activeOf, ← he]
  rfl

theorem holdOf_single (h : unitBusy s slot i = false) :
    holdOf s [{ slot := slot, word := w, instr := i, alone := .ok t }] = none := by
  simp [holdOf, h]

/-- A single word whose effect comes about stops at issue for its privilege or for a conflict alone (R129). -/
theorem issueStop_single (hd : decodeSlot slot w = .ok i) (hp : s.cur.2 = 4 ∨ supervisorOnlyInstr i = false)
    (hc : conflictStop s [{ slot := slot, word := w, instr := i, alone := .ok t }] = none) :
    issueStop s [laneOf slot w] [{ slot := slot, word := w, instr := i, alone := .ok t }] = none := by
  have priv : privStop s [{ slot := slot, word := w, instr := i, alone := .ok t }] = none := by
    obtain h | h := hp
    · exact if_pos h
    · simp [privStop, h]
  rw [issueStop, priv, hc, laneOf_decoded hd]
  simp [noPrevStop, illegalStop, aloneIllegal, operandStop]

theorem runSlots_single (h : slotEffect i s = .ok t) :
    runSlots [{ slot := slot, word := w, instr := i, alone := .ok t }] s = .ok t := by
  rw [runSlots, h]
  rfl

/-- A fetched bundle of one word that nothing holds or stops issues. -/
theorem issueFetched_single {s0 : State} {hw : Word} (hd : decodeSlot slot w = .ok i)
    (hl : lanesOf (me s) (allSlots.zip (headerOf hw).pres) [w] = [laneOf slot w])
    (hf : (headerOf hw).sync = 0 ∨ syncMet (me s).flags (headerOf hw).sync = true) (he : slotEffect i s = .ok t)
    (hu : unitBusy s slot i = false) (hp : s.cur.2 = 4 ∨ supervisorOnlyInstr i = false)
    (hc : conflictStop s [{ slot := slot, word := w, instr := i, alone := .ok t }] = none)
    (hlocal : localHeld t (me s) [{ slot := slot, word := w, instr := i, alone := .ok t }] = false)
    (htells : tellsHeld s t [{ slot := slot, word := w, instr := i, alone := .ok t }] = false) :
    issueFetched s0 s hw [w] = .went (.next (commitBundle t (me s) hw [laneOf slot w]
      [{ slot := slot, word := w, instr := i, alone := .ok t }])) := by
  have flags : ((headerOf hw).sync == 0 || syncMet (me s).flags (headerOf hw).sync) = true := by simpa using hf
  rw [issueFetched]
  dsimp only
  rw [flags, hl, activeOf_single hd he, holdOf_single hu, issueStop_single hd hp hc, runSlots_single he]
  dsimp only
  rw [hlocal, htells]
  rfl

end OneActive

/-- Settles O12: the fetch, the checks of steps 2 to 7 and the slots, each for the bundle's one word. -/
theorem stepRunsDecodedBundle : Obligations.StepRunsDecodedBundle := by
  intro s core ctx via rest hw w slot i m r t hagenda s0 one r' heffect hpriv as hconflict hlocal htells hcur hunit ready
    hchosen
  have flags : (headerOf hw).sync = 0 ∨ syncMet (me r').flags (headerOf hw).sync = true := by
    rw [me_slotState]
    exact one.flags
  have issued : issueAt s0 (beginBundle s0 core ctx) = .went (.next (commitBundle t (me r') hw [laneOf slot w] as)) :=
    (issueAt_oneWord one).trans (issueFetched_single one.decoded (one.onlySlot _) flags heffect hunit
      (hpriv.imp_left (fun h => by rw [hcur, h])) hconflict hlocal htells)
  have chosen : (chooseAmong s0 core ready != some ctx) = false := by rw [hchosen, bne_self_eq_false]
  rw [step_bundleIssue hagenda, execBundleIssue, if_pos one.mayIssue, issued]
  dsimp only
  rw [if_neg (Bool.eq_false_iff.mp chosen)]

end Sys2Proof.Machine

namespace Sys2Proof.Machine

/-! ## Compare, select, integer and dot-product instructions (O44) -/

theorem SourceTile.mono {s : State} {a : Reg} {l m : List Nat} {t : Tile} (h : SourceTile s a l t) (sub : l ⊆ m) :
    SourceTile s a m t := by
  obtain ⟨p, hp, ht, tag⟩ := h
  exact ⟨p, hp, ht, sub tag⟩

theorem SourceTile.tag_mem {s : State} {a : Reg} {l : List Nat} {t : Tile} (h : SourceTile s a l t) : t.tag.toNat ∈ l := by
  obtain ⟨-, -, -, tag⟩ := h
  exact tag

/-- An integer tag is not one of the float tags, and the other way round (R262). -/
theorem intTag_kind {tag : Nat} (h : tag ∈ intTags) : isIntTag tag = true ∧ wideTags.contains tag = false := by
  revert tag
  decide

theorem wideTag_kind {tag : Nat} (h : tag ∈ wideTags) : isIntTag tag = false ∧ wideTags.contains tag = true := by
  revert tag
  decide

theorem foldl_add_eq_sum_add (f : Nat → Int) (l : List Nat) (z : Int) :
    l.foldl (fun acc j => acc + f j) z = (l.map f).sum + z := by
  induction l generalizing z with
  | nil => simp
  | cons j l ih => rw [List.foldl_cons, ih, List.map_cons, List.sum_cons]; omega

section Codes

variable {s : State} {d a b c : Reg} {pm : BitVec 3} {bs : Bool} {x n : Nat} {ta tb tc : Tile} {vb : VecB}

/-- The state after `n` codes of each included row are put on their way, with the block scales `sc`, the control words of
`ta`, a tag and superblock scales. -/
def scaledElements (s : State) (x : Nat) (ta : Tile) (pm : BitVec 3) (w n : Nat) (sc : Nat → BitVec 128) (tag : BitVec 4)
    (ssc : BitVec 128) (f : Nat → Nat → Nat) : State :=
  results s (4 + kOf (rowsOf (me s))) (scaledWrites x (tileOf (here s) x) ta w 0 sc
    (eachElement (included s pm (rowsOf (me s))) n f) ++ [.tileTag x tag, .tileSsc x ssc])

/-- The state after `n` codes of `w` bits of each included row are put on their way, with their scales kept. -/
def keptElements (s : State) (x : Nat) (ta : Tile) (pm : BitVec 3) (w n lat : Nat) (tag : BitVec 4)
    (f : Nat → Nat → Nat) : State :=
  results s (lat + kOf (rowsOf (me s))) (elementWrites x (tileOf (here s) x) ta w 0
    (eachElement (included s pm (rowsOf (me s))) n f) ++ [.tileTag x tag])

variable (hd : TileAt s d x) (hr : RowsOk s)

include hd hr

theorem vecInt_ok (ha : Reads s a intTags ta) (hb : ReadsB s b bs [ta.tag.toNat] vb)
    (hn : Columns s (elemsPerRow ta.tag.toNat) (ta :: vb.tiles) n) {f : Nat → Nat → Nat → Nat} {code : Nat → Nat → Nat}
    (hf : ∀ i j, f (elemBits ta.tag.toNat) (elemOf ta.tag.toNat (ta.row i) j) (vb.bits ta.tag.toNat i j) = code i j) :
    vecInt f d a b pm bs s =
      .ok (scaledElements s x ta pm (elemBits ta.tag.toNat) n ta.scales ta.tag ta.ssc code) := by
  obtain ⟨w, hold, operand⟩ := hb.reads
  simp only [vecInt, tileFree_ok hd, ha.free, hold, vecTile_ok hd, ha.src, operand, vecRows_ok hr, ha.tag, hb.tag,
    vecCount_ok hn, except_ok_bind, hf]
  rfl

/-- A compare of sources with the tags that belong together, in at most 512 columns. -/
theorem slotVcmp_ok {cond : BitVec 3} (ha : Reads s a (wideTags ++ intTags) ta)
    (hb : ReadsB s b bs (if wideTags.contains ta.tag.toNat then wideTags else [ta.tag.toNat]) vb)
    (hn : Columns s (elemsPerRow ta.tag.toNat) (ta :: vb.tiles) n) (hle : n ≤ 512) {holds : Nat → Nat → Bool}
    (hh : ∀ i j, (if isIntTag ta.tag.toNat then vcmpInt cond.toNat (signedOf (elemBits ta.tag.toNat)
      (elemOf ta.tag.toNat (ta.row i) j)) (signedOf (elemBits ta.tag.toNat) (vb.bits ta.tag.toNat i j))
      else vcmpFloat cond.toNat (tileValue ta i j) (vb.value i j)) = holds i j) :
    slotVcmp d a b pm bs cond s = .ok (scaledElements s x ta pm 8 n (fun _ => defaultScales) 9 defaultSuper fun i j =>
      if holds i j then 1 else 0) := by
  obtain ⟨w, hold, operand⟩ := hb.reads
  simp only [slotVcmp, tileFree_ok hd, ha.free, hold, vecTile_ok hd, ha.src, operand, vecRows_ok hr, ha.tag, hb.tag,
    vecCount_ok hn, except_ok_bind, if_neg (Nat.not_lt.mpr hle), hh]
  rfl

theorem slotVsel_ok (ha : Reads s a unscaledTags ta) (hb : Reads s b [ta.tag.toNat] tb) (hc : Reads s c [9] tc)
    (hn : Columns s (elemsPerRow ta.tag.toNat) [ta, tb, tc] n) :
    slotVsel d a b c pm s = .ok (keptElements s x ta pm (elemBits ta.tag.toNat) n 4 ta.tag fun i j =>
      if elemOf 9 (tc.row i) j ≠ 0 then elemOf ta.tag.toNat (ta.row i) j else elemOf ta.tag.toNat (tb.row i) j) := by
  simp only [slotVsel, tileFree_ok hd, ha.free, hb.free, hc.free, vecTile_ok hd, ha.src, hb.src, hc.src, vecRows_ok hr, ha.tag,
    hb.tag, hc.tag, vecCount_ok hn, except_ok_bind]
  rfl

/-- The signed element of a tile's row. -/
def signedElem (t : Tile) (i j : Nat) : Int := signedOf (elemBits t.tag.toNat) (elemOf t.tag.toNat (t.row i) j)

theorem slotVidot_ok {brow : Bool} {k : BitVec 4} (ha : Reads s a [9, 10] ta) (hb : Reads s b [9, 10] tb)
    (hc : Reads s c [8] tc) (hn : Columns s (elemsPerRow ta.tag.toNat) [ta, tb] n)
    (hg : n % 2 ^ (k.toNat + 2) = 0 ∧ n / 2 ^ (k.toNat + 2) ≤ 128) :
    slotVidot d a b c pm brow k s = .ok (keptElements s x ta pm 32 (n / 2 ^ (k.toNat + 2)) 8 8 fun i q => intResult 32 true
      (((List.range (2 ^ (k.toNat + 2))).map (fun j => signedElem ta i (q * 2 ^ (k.toNat + 2) + j) *
        signedElem tb (if brow then 0 else i) (q * 2 ^ (k.toNat + 2) + j))).sum + signedOf 32 (elemOf 8 (tc.row i) q))) := by
  simp only [slotVidot, tileFree_ok hd, ha.free, hb.free, hc.free, vecTile_ok hd, ha.src, hb.src, hc.src, vecRows_ok hr, ha.tag,
    hb.tag, hc.tag, vecCount_ok hn, except_ok_bind, if_pos hg, foldl_add_eq_sum_add]
  rfl

end Codes

/-- Settles O44: the checks of the sources pass, and what follows them puts each instruction's elements on their way; the
shifts by less than the width are a product and a quotient. -/
theorem vectorInteger : Obligations.VectorInteger := by
  intro s d a b c pm bs sat brow cond k x n ta tb tc vb hd hr rows lat old tag w go
  refine ⟨fun ha hb hn => ?integer, fun ha hb hn hle => ?float, fun ha hb hc hn => ?select, fun ha hb hc hn => ?dot⟩
  case integer =>
    have codes (f : Nat → Nat → Nat → Nat) := vecInt_ok (pm := pm) hd hr ha.reads hb.reads hn (f := f) fun _ _ => rfl
    have shl : slotVshl d a b pm bs s = _ := vecInt_ok (pm := pm) hd hr ha.reads hb.reads hn fun i j => by
      rw [Nat.shiftLeft_eq]
    have shr : slotVshr d a b pm bs false s = _ := vecInt_ok (pm := pm) hd hr ha.reads hb.reads hn fun i j => by
      rw [if_neg Bool.false_ne_true, Nat.shiftRight_eq_div_pow]
    refine ⟨exec_of_ok rfl (codes fun w u v => intResult w sat (signedOf w u + signedOf w v)),
      exec_of_ok rfl (codes fun w u v => intResult w sat (signedOf w u * signedOf w v)),
      exec_of_ok rfl (codes fun _ u v => u &&& v), exec_of_ok rfl (codes fun _ u v => u ||| v),
      exec_of_ok rfl (codes fun _ u v => u ^^^ v), exec_of_ok rfl shl, exec_of_ok rfl shr,
      exec_of_ok rfl (codes fun w u v => (BitVec.ofInt w (signedOf w u / 2 ^ min v w)).toNat), fun hle => ?compare⟩
    obtain ⟨int, notWide⟩ := intTag_kind ha.tag_mem
    have wide := (ha.mono (List.subset_append_right wideTags intTags)).reads
    have hb' : ReadsB s b bs (if wideTags.contains ta.tag.toNat then wideTags else [ta.tag.toNat]) vb := by
      rw [notWide]
      exact hb.reads
    exact exec_of_ok rfl (slotVcmp_ok hd hr wide hb' hn hle fun i j => if_pos int)
  case float =>
    obtain ⟨notInt, float⟩ := wideTag_kind ha.tag_mem
    have wide := (ha.mono (List.subset_append_left wideTags intTags)).reads
    have hb' : ReadsB s b bs (if wideTags.contains ta.tag.toNat then wideTags else [ta.tag.toNat]) vb := by
      rw [float]
      exact hb.reads
    exact exec_of_ok rfl (slotVcmp_ok hd hr wide hb' hn hle fun i j => if_neg (Bool.eq_false_iff.mp notInt))
  case select => exact exec_of_ok rfl (slotVsel_ok hd hr ha.reads hb.reads hc.reads hn)
  case dot =>
    intro g code hg hq
    have sums := slotVidot_ok (pm := pm) (brow := brow) hd hr ha.reads hb.reads hc.reads hn ⟨hg, hq⟩
    have lat8 : 4 + lat = 8 + kOf (rowsOf (me s)) := (Nat.add_assoc 4 4 _).symm
    rw [lat8]
    exact exec_of_ok rfl sums

end Sys2Proof.Machine

namespace Sys2Proof.Machine

/-! ## Integer instructions of the scalar units (O3, O4, O5) -/

/-- An instruction whose slot ends in a scalar result puts that result on its way. -/
theorem writes_of_result {i : Instr} {s : State} {lat : Nat} {d : Reg} {v : Word} {x : Except Stop State}
    (hi : exec i s = settle s x) (hx : x = scalarResult s lat d v) : Writes i s lat d v := exec_of_ok hi hx

section Operands

variable {i : Instr} {s : State} {lat : Nat} {d a b c : Reg} {imm : Imm} {v : Word}

theorem writes_of_binary {f : Word → Word → Word} (hr : Readable s [a, b])
    (hi : exec i s = settle s (binary lat f d a b imm s)) (hv : f (sv s a) (sb s b imm) = v) : Writes i s lat d v := by
  obtain ⟨ha, hb⟩ := readable_cons.mp hr
  obtain ⟨hb, -⟩ := readable_cons.mp hb
  refine writes_of_result hi ?_
  rw [binary, readS_ok ha, except_ok_bind, readB_ok imm hb, except_ok_bind, hv]

theorem writes_of_unary {f : Word → Word} (hr : Readable s [a]) (hi : exec i s = settle s (unary f d a s))
    (hv : f (sv s a) = v) : Writes i s 1 d v := by
  refine writes_of_result hi ?_
  rw [unary, readS_ok (readable_cons.mp hr).1, except_ok_bind, hv]

end Operands

/-! ### Words (R161, R163, R165) -/

section Words

variable (x y : Word)

theorem add_eq_ofNat : x + y = BitVec.ofNat 64 (x.toNat + y.toNat) := by simp [BitVec.ofNat_add]

theorem sub_eq_ofInt : x - y = BitVec.ofInt 64 (x.toNat - y.toNat) := by
  rw [sub_eq_add_neg, sub_eq_add_neg, BitVec.ofInt_add, BitVec.ofInt_neg, BitVec.ofInt_natCast, BitVec.ofInt_natCast,
    BitVec.ofNat_toNat, BitVec.ofNat_toNat, BitVec.setWidth_eq, BitVec.setWidth_eq]

theorem mul_eq_ofNat : x * y = BitVec.ofNat 64 (x.toNat * y.toNat) := by simp [BitVec.ofNat_mul]

theorem mulHigh_natCast (m n : Nat) : mulHigh m n = BitVec.ofNat 64 (m * n / 2 ^ 64) := by
  rw [mulHigh, ← BitVec.ofInt_natCast]
  norm_cast

theorem shiftLeft_eq_ofNat (k : Nat) : x <<< k = BitVec.ofNat 64 (x.toNat * 2 ^ k) := by
  refine BitVec.eq_of_toNat_eq ?_
  rw [BitVec.toNat_shiftLeft, BitVec.toNat_ofNat, Nat.shiftLeft_eq]

theorem ushiftRight_eq_ofNat (k : Nat) : x >>> k = BitVec.ofNat 64 (x.toNat / 2 ^ k) := by
  refine BitVec.eq_of_toNat_eq ?_
  rw [BitVec.toNat_ushiftRight, BitVec.toNat_ofNat, Nat.shiftRight_eq_div_pow,
    Nat.mod_eq_of_lt (lt_of_le_of_lt (Nat.div_le_self _ _) x.isLt)]

theorem sshiftRight_eq_ofInt (k : Nat) : x.sshiftRight k = BitVec.ofInt 64 (x.toInt / 2 ^ k) := by
  rw [BitVec.sshiftRight, Int.shiftRight_eq_div_pow]
  norm_cast

/-- A rotation's two parts share no bit, so that their union is their sum. -/
theorem rotateLeft_eq_ofNat {k : Nat} (hk : k < 64) :
    x.rotateLeft k = BitVec.ofNat 64 (x.toNat * 2 ^ k + x.toNat / 2 ^ (64 - k)) := by
  refine BitVec.eq_of_toNat_eq ?_
  have split : x.toNat * 2 ^ k % 2 ^ 64 = (x.toNat % 2 ^ (64 - k)) <<< k := by
    rw [Nat.shiftLeft_eq, ← Nat.mul_mod_mul_right, ← pow_add, Nat.sub_add_cancel hk.le]
  have low : x.toNat / 2 ^ (64 - k) < 2 ^ k := by
    rw [Nat.div_lt_iff_lt_mul (by positivity), ← pow_add, Nat.add_sub_cancel' hk.le]
    exact x.isLt
  have high : (x.toNat % 2 ^ (64 - k)) <<< k + x.toNat / 2 ^ (64 - k) < 2 ^ 64 := by
    rw [Nat.shiftLeft_add_eq_or_of_lt low, ← split]
    exact Nat.or_lt_two_pow (Nat.mod_lt _ (by positivity)) (lt_of_lt_of_le low (Nat.pow_le_pow_right (by decide) hk.le))
  rw [BitVec.rotateLeft_def, Nat.mod_eq_of_lt hk, BitVec.toNat_or, BitVec.toNat_shiftLeft, BitVec.toNat_ushiftRight,
    Nat.shiftLeft_eq, Nat.shiftRight_eq_div_pow, split, ← Nat.shiftLeft_add_eq_or_of_lt low, BitVec.toNat_ofNat,
    Nat.add_mod, split, Nat.mod_eq_of_lt (lt_of_lt_of_le low (Nat.pow_le_pow_right (by decide) hk.le)),
    Nat.mod_eq_of_lt high]

theorem append_low_eq_ofNat (imm : Imm) :
    imm ++ x.extractLsb' 0 32 = BitVec.ofNat 64 (imm.toNat * 2 ^ 32 + x.toNat % 2 ^ 32) := by
  refine BitVec.eq_of_toNat_eq ?_
  rw [BitVec.toNat_append, BitVec.extractLsb'_toNat, Nat.shiftRight_zero, BitVec.toNat_ofNat,
    ← Nat.shiftLeft_add_eq_or_of_lt (Nat.mod_lt _ (by decide)), Nat.shiftLeft_eq]
  have := imm.isLt
  omega

theorem add_signExtend_eq_ofInt (imm : Imm) : x + imm.signExtend 64 = BitVec.ofInt 64 (x.toInt + imm.toInt) := by
  rw [BitVec.ofInt_add, BitVec.ofInt_toInt, BitVec.signExtend]

theorem add_shiftLeft_eq_ofNat (k : Nat) : x + y <<< k = BitVec.ofNat 64 (x.toNat + y.toNat * 2 ^ k) := by
  rw [shiftLeft_eq_ofNat, BitVec.ofNat_add, BitVec.ofNat_toNat, BitVec.setWidth_eq]

/-- The conditions of `cmp` by their numbers (R163). -/
theorem cmpHolds_of_mem {p : BitVec 6 × Bool} (hp : p ∈ [((0 : BitVec 6), decide (x = y)), (1, decide (x ≠ y)),
    (2, decide (x.toInt < y.toInt)), (3, decide (x.toNat < y.toNat)), (4, decide (x.toInt ≤ y.toInt)),
    (5, decide (x.toNat ≤ y.toNat))]) : cmpHolds p.1 x y = p.2 := by
  simp only [List.mem_cons, List.not_mem_nil, or_false] at hp
  obtain rfl | rfl | rfl | rfl | rfl | rfl := hp
  case inr.inl => exact Bool.eq_iff_iff.mpr (by simp [cmpHolds])
  all_goals rfl

end Words

/-- Settles O3: each slot reads its operands and puts the value of its word operation on its way. -/
theorem integerResults : Obligations.IntegerResults := by
  intro d a b c imm s hr x y k
  have ha : Readable s [a] := readable_cons.mpr ⟨(readable_cons.mp hr).1, readable_nil s⟩
  have hk : k < 64 := Nat.mod_lt _ (by decide)
  refine ⟨writes_of_binary hr rfl (add_eq_ofNat x y), writes_of_binary hr rfl (sub_eq_ofInt x y),
    writes_of_binary hr rfl (mul_eq_ofNat x y), writes_of_binary hr rfl rfl,
    writes_of_binary hr rfl (mulHigh_natCast x.toNat y.toNat), writes_of_binary hr rfl rfl, writes_of_binary hr rfl rfl,
    writes_of_binary hr rfl rfl, writes_of_binary hr rfl rfl, writes_of_binary hr rfl (shiftLeft_eq_ofNat x k),
    writes_of_binary hr rfl (ushiftRight_eq_ofNat x k), writes_of_binary hr rfl (sshiftRight_eq_ofInt x k),
    writes_of_binary hr rfl (rotateLeft_eq_ofNat x hk), ?min, ?max, ?minu, ?maxu,
    fun sh => writes_of_binary hr rfl (add_shiftLeft_eq_ofNat x y _),
    fun p hp => writes_of_binary hr rfl (by rw [cmpHolds_of_mem x y hp]), fun hc => ?sel, writes_of_result rfl rfl,
    writes_of_unary ha rfl (append_low_eq_ofNat x imm), writes_of_unary ha rfl (add_signExtend_eq_ofInt x imm),
    writes_of_unary ha rfl rfl⟩
  case sel =>
    obtain ⟨hb, -⟩ := readable_cons.mp (readable_cons.mp hr).2
    refine writes_of_result rfl ?_
    rw [slotSel, readS_ok (readable_cons.mp ha).1, except_ok_bind, readB_ok imm hb, except_ok_bind,
      readS_ok (readable_cons.mp hc).1, except_ok_bind]
  all_goals exact writes_of_binary hr rfl (by simp only [BitVec.slt, BitVec.ult, decide_eq_true_eq]; rfl)


/-! ### Quotients and remainders (R162) -/

section Division

variable (x y : Word)

theorem natAbs_toInt_le : x.toInt.natAbs ≤ 2 ^ 63 := by
  have := BitVec.le_toInt x
  have := BitVec.toInt_lt (x := x)
  omega

theorem toInt_divS_overflow (h : x.toInt = -2 ^ 63 ∧ y.toInt = -1) : (divS x y).toInt = -2 ^ 63 ∧ remS x y = 0 := by
  have hy : y ≠ 0 := by
    rintro rfl
    exact absurd h.2 (by decide)
  rw [divS, remS, if_neg hy, if_neg hy, h.1, h.2]
  decide

/-- But for the one overflow the quotient fits its word. -/
theorem toInt_divS (hy : y ≠ 0) (h : ¬ (x.toInt = -2 ^ 63 ∧ y.toInt = -1)) : (divS x y).toInt = x.toInt.tdiv y.toInt := by
  have hy0 : y.toInt ≠ 0 := fun h0 => hy (BitVec.eq_of_toInt_eq h0)
  have size : (x.toInt.tdiv y.toInt).natAbs = x.toInt.natAbs / y.toInt.natAbs := Int.natAbs_tdiv _ _
  have bound := natAbs_toInt_le x
  rw [divS, if_neg hy]
  suffices fits : -2 ^ 63 ≤ x.toInt.tdiv y.toInt ∧ x.toInt.tdiv y.toInt < 2 ^ 63 from
    BitVec.toInt_ofInt_eq_self (by decide) fits.1 fits.2
  rcases Nat.lt_or_ge y.toInt.natAbs 2 with small | large
  · obtain one | minus : y.toInt = 1 ∨ y.toInt = -1 := by omega
    · rw [one, Int.tdiv_one]
      exact ⟨BitVec.le_toInt x, BitVec.toInt_lt⟩
    · have := BitVec.toInt_lt (x := x)
      have := BitVec.le_toInt x
      rw [minus, Int.tdiv_neg, Int.tdiv_one]
      omega
  · have := Nat.div_le_div_left (a := x.toInt.natAbs) large (by decide)
    omega

theorem toInt_remS (hy : y ≠ 0) : (remS x y).toInt = x.toInt.tmod y.toInt := by
  have hy0 : y.toInt ≠ 0 := fun h0 => hy (BitVec.eq_of_toInt_eq h0)
  have size := Int.natAbs_tmod x.toInt y.toInt
  have less := Nat.mod_lt x.toInt.natAbs (y := y.toInt.natAbs) (by omega)
  have bound := natAbs_toInt_le y
  rw [remS, if_neg hy]
  exact BitVec.toInt_ofInt_eq_self (by decide) (by omega) (by omega)

theorem tmod_nonpos_of_neg {m : Int} (n : Int) (h : m < 0) : m.tmod n ≤ 0 := by
  have := Int.tmod_nonneg n (show 0 ≤ -m by omega)
  rw [Int.neg_tmod] at this
  omega

theorem toNat_divU (hy : y ≠ 0) : (divU x y).toNat = x.toNat / y.toNat := by
  rw [divU, if_neg hy, BitVec.toNat_ofNat, Nat.mod_eq_of_lt (lt_of_le_of_lt (Nat.div_le_self _ _) x.isLt)]

theorem toNat_remU (hy : y ≠ 0) : (remU x y).toNat = x.toNat % y.toNat := by
  rw [remU, if_neg hy, BitVec.toNat_ofNat, Nat.mod_eq_of_lt (lt_of_le_of_lt (Nat.mod_le _ _) x.isLt)]

end Division

/-- Settles O4: the fixed results by definition, and else the quotient and remainder of the operands' values. -/
theorem divisionResults : Obligations.DivisionResults := by
  intro d a b imm s hr x y
  refine ⟨divS x y, remS x y, divU x y, remU x y, writes_of_binary hr rfl rfl, writes_of_binary hr rfl rfl,
    writes_of_binary hr rfl rfl, writes_of_binary hr rfl rfl, fun h0 => ?zero, toInt_divS_overflow x y,
    fun hy h => ?signed, fun hy => ?unsigned⟩
  case zero => exact ⟨if_pos h0, if_pos h0, if_pos h0, if_pos h0⟩
  case signed =>
    have hy0 : y.toInt ≠ 0 := fun h0 => hy (BitVec.eq_of_toInt_eq h0)
    rw [toInt_divS x y hy h, toInt_remS x y hy, Int.natAbs_tmod]
    exact ⟨Int.tdiv_mul_add_tmod _ _, Nat.mod_lt _ (by omega), tmod_nonpos_of_neg _, Int.tmod_nonneg _⟩
  case unsigned =>
    have hy0 : y.toNat ≠ 0 := fun h0 => hy (BitVec.eq_of_toNat_eq h0)
    rw [toNat_divU x y hy, toNat_remU x y hy]
    exact ⟨Nat.div_add_mod' .., Nat.mod_lt _ (Nat.pos_of_ne_zero hy0)⟩

/-! ### Bit counts and bit fields (R161, R164) -/

section Bits

variable (x y : Word)

theorem toNat_countLeading : (countLeading x).toNat = if x = 0 then 64 else 63 - Nat.log2 x.toNat := by
  unfold countLeading
  split
  · rfl
  · rw [BitVec.toNat_ofNat]
    omega

theorem countLeading_spec : (countLeading x).toNat ≤ 64 ∧
    (∀ i, 64 - (countLeading x).toNat ≤ i → x.getLsbD i = false) ∧
    ((countLeading x).toNat < 64 → x.getLsbD (63 - (countLeading x).toNat) = true) := by
  rw [toNat_countLeading]
  split
  · next h0 => simp [h0]
  · next h0 =>
    have hx : x.toNat ≠ 0 := fun h => h0 (BitVec.eq_of_toNat_eq h)
    have top : Nat.log2 x.toNat < 64 := (Nat.log2_lt hx).mpr x.isLt
    refine ⟨by omega, fun i hi => Nat.testBit_lt_two_pow ((Nat.log2_lt hx).mp (by omega)), fun _ => ?_⟩
    rw [show 63 - (63 - Nat.log2 x.toNat) = Nat.log2 x.toNat by omega]
    exact Nat.testBit_log2 hx

theorem countTrailing_spec : (countTrailing x).toNat ≤ 64 ∧
    (∀ i, i < (countTrailing x).toNat → x.getLsbD i = false) ∧
    ((countTrailing x).toNat < 64 → x.getLsbD (countTrailing x).toNat = true) := by
  unfold countTrailing
  cases found : (List.range 64).find? (fun i => x.getLsbD i) with
  | none =>
    refine ⟨by decide, fun i hi => ?_, fun h => absurd h (by decide)⟩
    simpa using List.find?_eq_none.mp found i (List.mem_range.mpr hi)
  | some k =>
    obtain ⟨one, hk, zeros⟩ := List.find?_range_eq_some.mp found
    have hk := List.mem_range.mp hk
    rw [Option.getD_some, BitVec.toNat_ofNat, Nat.mod_eq_of_lt (by omega)]
    exact ⟨hk.le, fun i hi => by simpa using zeros i hi, fun _ => one⟩

theorem length_filter_eq_sum (p : Nat → Bool) (l : List Nat) : (l.filter p).length = (l.map (fun i => (p i).toNat)).sum := by
  induction l with
  | nil => rfl
  | cons i l ih => cases h : p i <;> simp [h, ih, Nat.add_comm]

theorem toNat_countOnes : (countOnes x).toNat = ((List.range 64).map (fun i => (x.getLsbD i).toNat)).sum := by
  have most : ((List.range 64).filter (fun i => x.getLsbD i)).length ≤ 64 := List.length_filter_le _ _
  rw [countOnes, BitVec.toNat_ofNat, Nat.mod_eq_of_lt (by omega), length_filter_eq_sum]

theorem getLsbD_extractField (sgn : Bool) {width lsb i : Nat} (hw : 1 ≤ width) (hi : i < 64) :
    (extractField sgn width lsb x).getLsbD i =
      if i < width then x.getLsbD (lsb + i) else sgn && x.getLsbD (lsb + width - 1) := by
  have bit (n : Nat) : (x.toNat >>> lsb).testBit n = x.getLsbD (lsb + n) := Nat.testBit_shiftRight ..
  cases sgn with
  | false =>
    rw [extractField, if_neg Bool.false_ne_true, BitVec.getLsbD_ofNat, Nat.testBit_mod_two_pow, bit]
    by_cases h : i < width <;> simp [h, hi]
  | true =>
    rw [extractField, if_pos rfl, sextTo64, BitVec.getLsbD_signExtend, BitVec.msb_eq_getLsbD_last, BitVec.getLsbD_ofNat,
      BitVec.getLsbD_ofNat, bit, bit, ← Nat.add_sub_assoc hw]
    by_cases h : i < width <;> simp [h, hi, show width - 1 < width by omega]

theorem getLsbD_insertField {width lsb i : Nat} (hi : i < 64) : (insertField width lsb x y).getLsbD i =
    if lsb ≤ i ∧ i < lsb + width then y.getLsbD (i - lsb) else x.getLsbD i := by
  have mask : (BitVec.ofNat 64 (2 ^ width - 1) <<< lsb).getLsbD i = decide (lsb ≤ i ∧ i < lsb + width) := by
    rw [BitVec.getLsbD_shiftLeft, BitVec.getLsbD_ofNat, Nat.testBit_two_pow_sub_one, Bool.eq_iff_iff]
    simp only [Bool.and_eq_true, decide_eq_true_eq, Bool.not_eq_true', decide_eq_false_iff_not]
    omega
  simp only [insertField, BitVec.getLsbD_or, BitVec.getLsbD_and, BitVec.getLsbD_not, mask, BitVec.getLsbD_shiftLeft]
  by_cases h : lsb ≤ i ∧ i < lsb + width
  · simp [h, hi]
  · simp [h, hi]

end Bits

/-- Settles O5: each slot's word operation, by the bits of its result. -/
theorem bitCountsAndFields : Obligations.BitCountsAndFields := by
  intro d a c sgn width lsb s hr x
  refine ⟨⟨_, writes_of_unary hr rfl rfl, countLeading_spec x⟩, ⟨_, writes_of_unary hr rfl rfl, countTrailing_spec x⟩,
    ⟨_, writes_of_unary hr rfl rfl, toNat_countOnes x⟩, fun hw _ => ⟨⟨_, writes_of_unary hr rfl rfl, fun i hi =>
      getLsbD_extractField x sgn hw hi⟩, fun hc => ⟨_, writes_of_result rfl ?_, fun i hi => getLsbD_insertField x (sv s c) hi⟩⟩⟩
  rw [slotIns, readS_ok (readable_cons.mp hr).1, except_ok_bind, readS_ok (readable_cons.mp hc).1, except_ok_bind]

end Sys2Proof.Machine

namespace Sys2Proof.Machine

/-! ## Floating-point instructions of the scalar units (O6) -/

section Rounding

variable (s : State) (r : Rnd)

/-- The generator state that one rounding in a mode draws; 0 in a mode that draws none (R82, R83). -/
def drawnSeed (mode : Nat) : BitVec 32 := if mode = 5 then stepSeed (me s).seed else 0

/-- The state in which one rounding in a mode has drawn its generator state. -/
def drawnState (mode : Nat) : State := if mode = 5 then withMe s (fun k => { k with seed := drawnSeed s mode }) else s

theorem drawSeeds_one (mode : Nat) : drawSeeds s mode 1 = ([drawnSeed s mode], drawnState s mode) := by
  unfold drawSeeds drawnState drawnSeed
  split <;> rfl

theorem floatResult_eq (lat : Nat) (d : Reg) (v : Val) :
    floatResult s lat d r v = scalarResult (drawnState s (resolveMode (me s) r)) lat d
      (BitVec.ofNat 64 (roundFloat 1 (rmode (resolveMode (me s) r) r (drawnSeed s (resolveMode (me s) r))) v)) := by
  simp only [floatResult, drawSeeds_one, List.headD_cons]

variable {s} {d a b : Reg}

theorem floatBinary_eq (hr : Readable s [a, b]) (f : Val → Val → Val) :
    floatBinary f d a b r s = floatResult s 4 d r (f (fp32Of (sv s a)) (fp32Of (sv s b))) := by
  obtain ⟨ha, hb⟩ := readable_cons.mp hr
  rw [floatBinary, readS_ok ha, except_ok_bind, readS_ok (readable_cons.mp hb).1, except_ok_bind]

theorem floatPick_eq (hr : Readable s [a, b]) (f : Val → Val → Val) : floatPick f d a b s =
    scalarResult s 4 d (BitVec.ofNat 64 (roundFloat 1 rne (f (fp32Of (sv s a)) (fp32Of (sv s b))))) := by
  obtain ⟨ha, hb⟩ := readable_cons.mp hr
  rw [floatPick, readS_ok ha, except_ok_bind, readS_ok (readable_cons.mp hb).1, except_ok_bind]

end Rounding

section Conditions

variable {x y : Val}

/-- A NaN makes the conditions "not equal" and "unordered" hold, and no other (R167). -/
theorem fcmpHolds_of_nan {cnd : BitVec 4} (h : (x.isNan || y.isNan) = true) (hc : cnd.toNat < 6) :
    fcmpHolds cnd x y = true ↔ cnd = 1 ∨ cnd = 4 := by
  have cases : cnd = 0 ∨ cnd = 1 ∨ cnd = 2 ∨ cnd = 3 ∨ cnd = 4 ∨ cnd = 5 := by decide +revert
  obtain rfl | rfl | rfl | rfl | rfl | rfl := cases <;> simp [fcmpHolds, h]

theorem fcmpHolds_of_ordered {cnd : BitVec 4} (h : (x.isNan || y.isNan) = false) :
    (cnd = 4 → fcmpHolds cnd x y = false) ∧ (cnd = 5 → fcmpHolds cnd x y = true) ∧
      (cnd = 0 → fcmpHolds cnd x y = x.eqv y) ∧ (cnd = 1 → fcmpHolds cnd x y = !x.eqv y) ∧
      (cnd = 2 → fcmpHolds cnd x y = (x.lt y && !x.eqv y)) ∧ (cnd = 3 → fcmpHolds cnd x y = (x.lt y || x.eqv y)) := by
  refine ⟨?_, ?_, ?_, ?_, ?_, ?_⟩ <;> rintro rfl <;> simp [fcmpHolds, h]

end Conditions

/-- Settles O6: each rounding draws its generator state and rounds the exact value once; the conditions by their numbers. -/
theorem floatResults : Obligations.FloatResults := by
  intro d a b c r ft fs s hr x y mode w s' R N out
  obtain ⟨ha, hb⟩ := readable_cons.mp hr
  obtain ⟨hb, -⟩ := readable_cons.mp hb
  have rounds {i : Instr} {lat : Nat} {v : Val} {e : Except Stop State} (hi : exec i s = settle s e)
      (he : e = floatResult s lat d r v) : exec i s = out lat (R v) := exec_of_ok hi (he.trans (floatResult_eq s r lat d v))
  refine ⟨rounds rfl (floatBinary_eq r hr _), rounds rfl (floatBinary_eq r hr _), rounds rfl (floatBinary_eq r hr _),
    fun hc => rounds rfl ?fma, exec_of_ok rfl ?fcvt, writes_of_result rfl (floatPick_eq hr _),
    writes_of_result rfl (floatPick_eq hr _), fun cnd => ⟨fcmpHolds cnd x y, writes_of_result rfl ?fcmp, fcmpHolds_of_nan,
    fcmpHolds_of_ordered⟩⟩
  case fma =>
    rw [slotFma, readS_ok ha, except_ok_bind, readS_ok hb, except_ok_bind, readS_ok (readable_cons.mp hc).1, except_ok_bind]
  case fcvt =>
    simp only [slotFcvt, readS_ok ha, except_ok_bind, drawSeeds_one, List.headD_cons]
    rfl
  case fcmp => rw [slotFcmp, readS_ok ha, except_ok_bind, readS_ok hb, except_ok_bind]

end Sys2Proof.Machine

namespace Sys2Proof.Machine

/-! ## What the scalar units leave as it was (O9) -/

/-- A scalar unit's effect holds, or answers a state in which only its destination scalar's value is on its way. -/
def ScalarAnswer (s : State) (d : Reg) (x : Except Stop State) : Prop :=
  x = .error .hold ∨ ∃ t, x = .ok t ∧ Frame s t (fun p => p = (0, d.toNat, 0))

section Answers

variable {s : State} {d : Reg} {f : Word → Except Stop State}

theorem scalarAnswer_result (lat : Nat) (v : Word) : ScalarAnswer s d (scalarResult s lat d v) :=
  .inr ⟨_, rfl, frame_result s lat _ rfl⟩

theorem scalarAnswer_readS (a : Reg) (h : ∀ w, ScalarAnswer s d (f w)) : ScalarAnswer s d (readS s a >>= f) := by
  rcases readS_cases s a with e | e
  · rw [e]
    exact h _
  · rw [e]
    exact .inl rfl

theorem scalarAnswer_readB (b : Reg) (imm : Imm) (h : ∀ w, ScalarAnswer s d (f w)) :
    ScalarAnswer s d (readB s b imm >>= f) := by
  rcases readB_cases s b imm with e | e
  · rw [e]
    exact h _
  · rw [e]
    exact .inl rfl

/-- A result may draw a generator state before it goes on its way (R82). -/
theorem scalarAnswer_drawn (mode n lat : Nat) (v : Word) :
    ScalarAnswer s d (scalarResult (drawSeeds s mode n).2 lat d v) :=
  .inr ⟨_, rfl, frame_trans (frame_drawSeeds s _ mode n) (frame_result _ lat _ rfl) (drawSeeds_cur s mode n)⟩

theorem scalarAnswer_binary (lat : Nat) (g : Word → Word → Word) (a b : Reg) (imm : Imm) :
    ScalarAnswer s d (binary lat g d a b imm s) :=
  scalarAnswer_readS a fun _ => scalarAnswer_readB b imm fun _ => scalarAnswer_result lat _

theorem scalarAnswer_unary (g : Word → Word) (a : Reg) : ScalarAnswer s d (unary g d a s) :=
  scalarAnswer_readS a fun _ => scalarAnswer_result 1 _

theorem scalarAnswer_floatBinary (g : Val → Val → Val) (a b : Reg) (r : Rnd) :
    ScalarAnswer s d (floatBinary g d a b r s) :=
  scalarAnswer_readS a fun _ => scalarAnswer_readS b fun _ => scalarAnswer_drawn _ 1 4 _

theorem scalarAnswer_floatPick (g : Val → Val → Val) (a b : Reg) : ScalarAnswer s d (floatPick g d a b s) :=
  scalarAnswer_readS a fun _ => scalarAnswer_readS b fun _ => scalarAnswer_result 4 _

theorem framed_of_scalarAnswer {i : Instr} {x : Except Stop State} (hi : exec i s = settle s x) (hd : scalarDest i = [d])
    (hx : ScalarAnswer s d x) : ∃ t, exec i s = .next t ∧ Frame s t (fun p => ∃ d ∈ scalarDest i, p = (0, d.toNat, 0)) := by
  simp only [hd, List.mem_singleton, exists_eq_left]
  rcases hx with rfl | ⟨t, rfl, ht⟩
  · exact ⟨s, hi, frame_refl s _⟩
  · exact ⟨t, hi, ht⟩

end Answers

/-- Settles O9: each scalar instruction reads its scalars and answers one result, after at most one generator step. -/
theorem scalarFrame : Obligations.ScalarFrame := by
  intro i s hi
  cases i
  case add | sub | mul | mulh | mulhu | div | divu | rem | remu | and | or | xor | andn | shl | shr | sra | rotl | min | max |
      minu | maxu | cmp | lea => exact framed_of_scalarAnswer rfl rfl (scalarAnswer_binary ..)
  case clz | ctz | popc | ext | lih | addi | mov => exact framed_of_scalarAnswer rfl rfl (scalarAnswer_unary ..)
  case fadd | fsub | fmul => exact framed_of_scalarAnswer rfl rfl (scalarAnswer_floatBinary ..)
  case fmin | fmax => exact framed_of_scalarAnswer rfl rfl (scalarAnswer_floatPick ..)
  case li => exact framed_of_scalarAnswer rfl rfl (scalarAnswer_result ..)
  case sel a b c imm =>
    exact framed_of_scalarAnswer rfl rfl
      (scalarAnswer_readS a fun _ => scalarAnswer_readB b imm fun _ => scalarAnswer_readS c fun _ => scalarAnswer_result ..)
  case ins a c _ _ =>
    exact framed_of_scalarAnswer rfl rfl
      (scalarAnswer_readS a fun _ => scalarAnswer_readS c fun _ => scalarAnswer_result ..)
  case fma a b c _ =>
    exact framed_of_scalarAnswer rfl rfl
      (scalarAnswer_readS a fun _ => scalarAnswer_readS b fun _ => scalarAnswer_readS c fun _ => scalarAnswer_drawn ..)
  case fcmp a b _ =>
    exact framed_of_scalarAnswer rfl rfl
      (scalarAnswer_readS a fun _ => scalarAnswer_readS b fun _ => scalarAnswer_result ..)
  case fcvt a _ _ _ => exact framed_of_scalarAnswer rfl rfl (scalarAnswer_readS a fun _ => scalarAnswer_drawn ..)
  all_goals
    simp [slotsOf] at hi

end Sys2Proof.Machine

namespace Sys2Proof.Machine

/-! ## Return from an exception (O18) -/

/-- An operation after the return of its context: its suspension ends unless its stop is still pending. -/
def restarted (core ctx : Nat) (left : List Nat) (o : Op) : Op :=
  if o.core = core && o.ctx = ctx && !left.contains o.seq then { o with susp := none } else o

theorem restarted_handled {core ctx : Nat} {left : List Nat} {o : Op} (hc : o.core = core) (hx : o.ctx = ctx)
    (hl : o.seq ∉ left) : restarted core ctx left o = { o with susp := none } := by
  simp [restarted, hc, hx, hl]

theorem restarted_other {core ctx : Nat} {left : List Nat} {o : Op} (h : o.core ≠ core ∨ o.ctx ≠ ctx ∨ o.seq ∈ left) :
    restarted core ctx left o = o := by
  rcases h with h | h | h <;> simp [restarted, h]

/-- A context after its return: it runs again from its resume address, or waits again after its `done`. -/
def resumed (s : State) (c : Ctx) : Ctx :=
  let left := c.stops.map (fun t => t.cseq.toNat)
  { c with status := if c.ended then .finishing else .running, record := none, pc := c.resume
           preempt := c.preempt.map (· + s.time), target := some (c.target.getD .plain)
           fromTransfer := if c.target.isSome then c.fromTransfer else (c.record.getD 0).getLsbD 16
           streams := c.streams.map (fun q =>
             (q.1, if left.contains (if q.2.seq < 2 ^ 32 then q.2.seq else 0) then q.2 else { q.2 with susp := false })) }

theorem ctxOf_returnFromTrap (s : State) (core ctx : Nat) :
    ctxOf (returnFromTrap s core ctx) core ctx = resumed s (ctxOf s core ctx) :=
  ctxOf_withCtx s core ctx (resumed s)

theorem returnFromTrap_ops (s : State) (core ctx : Nat) : (returnFromTrap s core ctx).ops =
    s.ops.map (restarted core ctx ((ctxOf s core ctx).stops.map (fun t => t.cseq.toNat))) := rfl

theorem ctxOf_returnFromTrap_other (s : State) (core ctx : Nat) {n k : Nat} (h : (n, k) ≠ (core, ctx)) :
    ctxOf (returnFromTrap s core ctx) n k = ctxOf s n k := ctxOf_setCtx_other _ _ (pair_ne h)

/-- Settles O18: the frozen context gets back its status and resume address, and its handled commands restart. -/
theorem trapReturn : Obligations.TrapReturn := by
  intro s core ctx u c
  have own : ctxOf u core ctx = resumed s c := ctxOf_returnFromTrap s core ctx
  refine ⟨by rw [own, resumed], by rw [own, resumed], by rw [own, resumed], by rw [own, resumed], by rw [own, resumed],
    returnFromTrap_mem s core ctx,
    fun n k => ctxOf_returnFromTrap_other s core ctx, fun o ho hc hx hl => ?_, fun o ho hs => ?_⟩
  · have handled : o.seq ∉ c.stops.map (fun t => t.cseq.toNat) := by simpa using hl
    exact List.mem_map.mpr ⟨o, ho, restarted_handled hc hx handled⟩
  · have pending : o.core ≠ core ∨ o.ctx ≠ ctx ∨ o.seq ∈ c.stops.map (fun t => t.cseq.toNat) := by simpa using hs
    exact List.mem_map.mpr ⟨o, ho, restarted_other pending⟩

end Sys2Proof.Machine

namespace Sys2Proof.Machine

/-! ## Hardware loops (O22) -/

section BackEdge

variable (c : Ctx) (ba : BitVec 56)

/-- A loop counter of a context. -/
def loopCtr (n : Nat) : LoopCtr := Tbl.look LoopCtr.init c.loops n

/-- The loop of a counter is active and ends at a bundle (R174). -/
def EndsAt (n : Nat) : Prop := (loopCtr c n).active = true ∧ (loopCtr c n).stop = ba

/-- What the last pass of a counter's loop writes: count zero, and the active bit clear (R175). -/
def lastPass (n : Nat) : List Write := [.count n 0, .loopSet n (loopCtr c n).start (loopCtr c n).stop false]

variable {c ba} {n m : Nat} {l : List Nat}

theorem backEdge_zero : backEdge c ba 0 = ([], none) := rfl

/-- A back edge examines its highest counter first (R174). -/
theorem backEdge_succ (n : Nat) : backEdge c ba (n + 1) =
    if (loopCtr c n).active && (loopCtr c n).stop == ba then
      if (loopCtr c n).count.toNat ≤ 1 then (lastPass c n ++ (backEdge c ba n).1, (backEdge c ba n).2)
      else ([.count n ((loopCtr c n).count - 1)], some (loopCtr c n).start)
    else backEdge c ba n := rfl

theorem backEdge_over (h : ¬ EndsAt c ba n) : backEdge c ba (n + 1) = backEdge c ba n := by
  rw [backEdge_succ, if_neg]
  simpa [EndsAt] using h

theorem backEdge_last (h : EndsAt c ba n) (hn : (loopCtr c n).count.toNat ≤ 1) :
    backEdge c ba (n + 1) = (lastPass c n ++ (backEdge c ba n).1, (backEdge c ba n).2) := by
  rw [backEdge_succ, if_pos (by simpa [EndsAt] using h), if_pos hn]

theorem backEdge_again (h : EndsAt c ba n) (hn : 1 < (loopCtr c n).count.toNat) :
    backEdge c ba (n + 1) = ([.count n ((loopCtr c n).count - 1)], some (loopCtr c n).start) := by
  rw [backEdge_succ, if_pos (by simpa [EndsAt] using h), if_neg (Nat.not_le.mpr hn)]

/-- The greatest number of a strictly falling list stands at its head. -/
theorem falling_head (hl : l.Pairwise (· > ·)) (hb : ∀ x ∈ l, x < m + 1) (hm : m ∈ l) : ∃ r, l = m :: r ∧ ∀ x ∈ r, x < m := by
  cases l with
  | nil => simp at hm
  | cons x r =>
    obtain ⟨hx, -⟩ := List.pairwise_cons.mp hl
    obtain rfl : x = m := by
      rcases List.mem_cons.mp hm with rfl | hr
      · rfl
      · have := hx m hr
        have := hb x List.mem_cons_self
        omega
    exact ⟨r, rfl, hx⟩

/-- From counter `m - 1` down to `n` only the counters of `l` end at the bundle, each with its last pass: they fall
through, in order, to the counters below `n`. -/
theorem backEdge_falls (hnm : n ≤ m) (hl : l.Pairwise (· > ·))
    (hlast : ∀ x ∈ l, (n ≤ x ∧ x < m) ∧ EndsAt c ba x ∧ (loopCtr c x).count.toNat ≤ 1)
    (hover : ∀ x, n ≤ x → x < m → x ∉ l → ¬ EndsAt c ba x) :
    backEdge c ba m = (l.flatMap (lastPass c) ++ (backEdge c ba n).1, (backEdge c ba n).2) := by
  induction m, hnm using Nat.le_induction generalizing l with
  | base =>
    obtain rfl : l = [] := List.eq_nil_iff_forall_not_mem.mpr fun x hx => by
      obtain ⟨⟨_, _⟩, -⟩ := hlast x hx
      omega
    rfl
  | succ m hnm ih =>
    by_cases hm : m ∈ l
    · obtain ⟨r, rfl, hr⟩ := falling_head hl (fun x hx => (hlast x hx).1.2) hm
      obtain ⟨-, hends, hcount⟩ := hlast m hm
      have below : ∀ x ∈ r, (n ≤ x ∧ x < m) ∧ EndsAt c ba x ∧ (loopCtr c x).count.toNat ≤ 1 := fun x hx =>
        ⟨⟨(hlast x (List.mem_cons_of_mem m hx)).1.1, hr x hx⟩, (hlast x (List.mem_cons_of_mem m hx)).2⟩
      have past : ∀ x, n ≤ x → x < m → x ∉ r → ¬ EndsAt c ba x := fun x hx hxm hxr =>
        hover x hx (by omega) (by simp [hxr, hxm.ne])
      rw [backEdge_last hends hcount, ih hl.of_cons below past, List.flatMap_cons, List.append_assoc]
    · have below : ∀ x ∈ l, (n ≤ x ∧ x < m) ∧ EndsAt c ba x ∧ (loopCtr c x).count.toNat ≤ 1 := fun x hx => by
        obtain ⟨⟨h1, h2⟩, h⟩ := hlast x hx
        have : x ≠ m := fun e => hm (e ▸ hx)
        exact ⟨⟨h1, by omega⟩, h⟩
      rw [backEdge_over (hover m hnm (Nat.lt_succ_self m) hm), ih hl below fun x hx hxm => hover x hx (by omega)]

end BackEdge

/-- Settles O22: the counters that end with their last pass fall through, by induction on the counters below. -/
theorem hardwareLoops : Obligations.HardwareLoops := by
  refine ⟨fun s a n cnt off hr => ?_, fun c ba => ?_⟩
  · intro stop begin_
    have started (x : BitVec 32) : startLoop s n.toNat x stop = begin_ x := by
      unfold startLoop begin_
      split <;> rfl
    refine ⟨exec_of_ok rfl ?_, exec_of_ok (x := slotLoopLv n off s) rfl ?_⟩
    · rw [← started, slotLoop]
      split
      · rfl
      · rw [readS_ok (readable_cons.mp hr).1]
        rfl
    · rw [← started]
      simp only [slotLoopLv, ceilDiv, BitVec.extractLsb'_toNat, Nat.shiftRight_zero]
      rfl
  · intro ctr ends finish again out l hl hlast
    refine ⟨fun hover => ?_, fun k hk hends hcount habove hover => ?_⟩
    · have falls := backEdge_falls (Nat.zero_le 4) hl (fun x hx => ⟨⟨Nat.zero_le x, (hlast x hx).1⟩, (hlast x hx).2⟩)
        fun x _ => hover x
      rw [falls, backEdge_zero, List.append_nil]
      rfl
    · have falls := backEdge_falls (n := k + 1) hk hl (fun x hx => ⟨⟨habove x hx, (hlast x hx).1⟩, (hlast x hx).2⟩)
        fun x => hover x
      rw [falls, backEdge_again hends hcount]
      rfl

end Sys2Proof.Machine

namespace Sys2Proof.Machine

/-! ## What the other control instructions note (O23) -/

/-- Settles O23: each slot's effect is its note; `flag.set.core` reads its target from the low three bits of its scalar. -/
theorem controlNotes : Obligations.ControlNotes := by
  intro s a n m note insn
  refine ⟨rfl, rfl, rfl, rfl, rfl, rfl, rfl, rfl, rfl, fun hr => exec_of_ok rfl ?_⟩
  rw [slotFlagSetCore, readS_ok (readable_cons.mp hr).1, except_ok_bind, BitVec.extractLsb'_toNat]
  rfl

end Sys2Proof.Machine

namespace Sys2Proof.Machine

/-! ## What traces, counts and log records leave of the queues (O25, O53) -/

/-- Commands, requests, packets and the number of the next request are as they were. -/
structure QueuesKept (s t : State) : Prop where
  ops : t.ops = s.ops
  reqs : t.reqs = s.reqs
  packets : t.packets = s.packets
  nextReq : t.nextReq = s.nextReq

section QueuesKept

variable {s t u : State}

theorem QueuesKept.refl (s : State) : QueuesKept s s := ⟨rfl, rfl, rfl, rfl⟩

theorem QueuesKept.trans (h : QueuesKept s t) (g : QueuesKept t u) : QueuesKept s u :=
  ⟨g.ops.trans h.ops, g.reqs.trans h.reqs, g.packets.trans h.packets, g.nextReq.trans h.nextReq⟩

theorem queuesKept_ite {c : Prop} [Decidable c] (ht : QueuesKept s t) (hu : QueuesKept s u) :
    QueuesKept s (if c then t else u) := by
  split
  · exact ht
  · exact hu

theorem queuesKept_withCore (s : State) (n : Nat) (f : CoreSt → CoreSt) : QueuesKept s (withCore s n f) := ⟨rfl, rfl, rfl, rfl⟩

theorem queuesKept_traceEvent (s : State) (core cls ctx sub : Nat) (pay : Word) :
    QueuesKept s (traceEvent s core cls ctx sub pay) := queuesKept_ite (queuesKept_withCore ..) (.refl s)

theorem queuesKept_traceTrigger (s : State) (core source ctx : Nat) : QueuesKept s (traceTrigger s core source ctx) :=
  queuesKept_ite ((queuesKept_withCore ..).trans (queuesKept_withCore ..)) (.refl s)

theorem queuesKept_logRecord (s : State) (lid typ : Nat) (key : Word) (aux seq icnt unit ctx : Nat) (payload : List Byte) :
    QueuesKept s (logRecord s lid typ key aux seq icnt unit ctx payload) := by
  unfold logRecord
  split
  · exact .refl s
  · exact queuesKept_ite (.refl s) (queuesKept_ite ⟨rfl, rfl, rfl, rfl⟩ ⟨rfl, rfl, rfl, rfl⟩)

theorem queuesKept_logAt (s : State) (core ctx typ : Nat) (key : Word) (aux seq : Nat) (payload : List Byte) :
    QueuesKept s (logAt s core ctx typ key aux seq payload) := by
  unfold logAt
  split
  · exact .refl s
  · exact queuesKept_logRecord ..

theorem queuesKept_lateTrace (s : State) (core ctx vc pa tag : Nat) : QueuesKept s (lateTrace s core ctx vc pa tag) :=
  ((queuesKept_traceEvent ..).trans (queuesKept_traceTrigger ..)).trans (queuesKept_logAt ..)

/-- A flag that the executing context's bundle stages, with a change of that context. -/
theorem queuesKept_stageSet (s : State) (f : Ctx → Ctx) (m : BitVec 16) : QueuesKept s (stageSet (withMe s f) m) :=
  ⟨rfl, rfl, rfl, rfl⟩

theorem queuesKept_lateAtIssue (s : State) (vc pa tag : Nat) : QueuesKept s (lateAtIssue s vc pa tag) := by
  have traced := (queuesKept_withCore s s.cur.1 (fun k => { k with latecnt := latePlus k.latecnt })).trans
    (queuesKept_lateTrace (countLate s s.cur.1) s.cur.1 s.cur.2 vc pa tag)
  exact queuesKept_ite (.refl s) (traced.trans (queuesKept_stageSet ..))

end QueuesKept

/-! ## Barriers, pre-emption points, handler return, tolls and remote flags (O25) -/

section Barriers

variable {s : State} {level id : Nat} {x : Nat × Launch × Nat × Task}

theorem awaitBarrier_declared (h : taskOf s s.cur.1 s.cur.2 = some x) (hc : s.cur.2 ≠ 4) (hl : level ≤ declaredLevels x.2.1) :
    awaitBarrier s level id = .ok (withMe s (fun c => { c with waits := c.waits ++ [.barrier level id] })) := by
  obtain ⟨lid, l, n, t⟩ := x
  simp only [awaitBarrier, h]
  exact if_neg (not_or.mpr ⟨hc, Nat.not_lt.mpr hl⟩)

theorem arrive_declared (h : taskOf s s.cur.1 s.cur.2 = some x) (hc : s.cur.2 ≠ 4) (hl : level ≤ declaredLevels x.2.1)
    (ho : barrierOpen s s.cur.1 s.cur.2 (level, id) = true) :
    arrive s level id =
      .ok (withMe (stageClr s 0x100) (fun c => { c with arrivals := c.arrivals ++ [(level, id, reqBefore s)] })) := by
  obtain ⟨lid, l, n, t⟩ := x
  simp only [arrive, h, ho, Bool.not_true]
  exact if_neg (not_or.mpr ⟨hc, Nat.not_lt.mpr hl⟩)

/-- A change of the executing context that keeps its task keeps what `taskOf` gives. -/
theorem taskOf_withMe {f : Ctx → Ctx} (h : (f (me s)).task = (me s).task) :
    taskOf (withMe s f) s.cur.1 s.cur.2 = taskOf s s.cur.1 s.cur.2 := by
  have same : (ctxOf (withMe s f) s.cur.1 s.cur.2).task = (ctxOf s s.cur.1 s.cur.2).task := by
    rw [show ctxOf (withMe s f) s.cur.1 s.cur.2 = f (me s) from me_withMe s f, h]
    rfl
  rw [taskOf, taskOf, same]
  rfl

end Barriers

/-- A packet that is sent at once stands last, whether or not it is late. -/
theorem sendNow_sends (s : State) (id typ dst dstDev pa : Nat) (aux : BitVec 32) (atw : Word) (data : List Byte)
    (slk : BitVec 10) (op : Option (Nat × Nat × Nat)) (tag : Option (BitVec 16)) :
    ∃ p : NetPacket, p.id = id ∧ p.pkt.typ = BitVec.ofNat 8 typ ∧ p.pkt.aux = aux ∧
      QueuesKept (addPacket s p) (sendNow s id typ dst dstDev pa aux atw data slk op tag) ∧
      (s.rlog = none → (sendNow s id typ dst dstDev pa aux atw data slk op tag).mem = s.mem) := by
  refine ⟨_, rfl, rfl, rfl, queuesKept_ite (queuesKept_lateAtIssue ..) (.refl _), fun h => ?_⟩
  unfold sendNow
  split
  · exact (forwards_lateAtIssue (by exact h) _ _ _).mem
  · rfl

/-- The request and the packet that an issue adds to the queues. -/
theorem pushReq_sends (s : State) (kind : ReqKind) (pas : List Nat) (slk : BitVec 10) (hint : CacheHint) (after : List Nat)
    (typ dst dstDev pa : Nat) (aux : BitVec 32) (data : List Byte) :
    let u := pushReq s kind pas slk hint after typ dst dstDev pa aux data
    ∃ r p, (r.kind = kind ∧ r.id = s.nextReq ∧ r.core = s.cur.1 ∧ r.ctx = s.cur.2) ∧
      (p.id = s.nextReq ∧ p.pkt.typ = BitVec.ofNat 8 typ ∧ p.pkt.aux = aux) ∧
      QueuesKept (addPacket { s with reqs := s.reqs ++ [r], nextReq := s.nextReq + 1 } p) u ∧ (s.rlog = none → u.mem = s.mem) := by
  intro u
  obtain ⟨p, hid, htyp, haux, kept, hmem⟩ := sendNow_sends { s with reqs := s.reqs ++ [_], nextReq := s.nextReq + 1 } s.nextReq
    typ dst dstDev pa aux 0 data slk none (fixedTag s.cur.2 kind)
  exact ⟨_, p, ⟨rfl, rfl, rfl, rfl⟩, ⟨hid, htyp, haux⟩, kept, hmem⟩

section FlagWord

variable (m : Byte) (k : BitVec 3)

theorem flagWord_mask : (BitVec.ofNat 32 (m.toNat + 256 * k.toNat)).extractLsb' 0 8 = m := by
  refine BitVec.eq_of_toNat_eq ?_
  simp only [BitVec.extractLsb'_toNat, BitVec.toNat_ofNat, Nat.shiftRight_zero]
  omega

theorem flagWord_ctx : (BitVec.ofNat 32 (m.toNat + 256 * k.toNat)).extractLsb' 8 3 = k := by
  refine BitVec.eq_of_toNat_eq ?_
  simp only [BitVec.extractLsb'_toNat, BitVec.toNat_ofNat, Nat.shiftRight_eq_div_pow]
  omega

end FlagWord

section Slots

variable {s : State} {a : Reg}

theorem slotPrePt_eq (s : State) (off : Imm) :
    let va := relTarget s off
    slotPrePt off s = .ok (if s.cur.2 = 4 then s else
      let s1 := if (livenessAt s s.cur.1 s.cur.2 va).isSome then withMe s (fun c => { c with liveRec := some va }) else s
      if (me s).flags.getLsbD 15 then { s1 with fly := { s1.fly with save := some va } } else s1) := by
  have flags (v : Option Word) : (me (withMe s (fun c => { c with liveRec := v }))).flags = (me s).flags := by rw [me_withMe]
  simp only [slotPrePt]
  split
  · rfl
  · cases livenessAt s s.cur.1 s.cur.2 (relTarget s off) with
    | none => rfl
    | some r => simp only [flags, Option.isSome_some, if_true]

theorem slotRte_handler {k : Nat} (ha : readS s a = .ok (sv s a)) (hc : s.cur.2 = 4) (hk : (sv s a).toNat % 8 = k) (h4 : k < 4)
    (hs : (here s).service = some (.handler k)) (hd : drained s s.cur.1 4 (reqBefore s) = true) :
    slotRte a s = .ok { s with fly := { s.fly with rte := some k, noBackEdge := true } } := by
  rw [slotRte, ha, except_ok_bind, if_neg (not_not.mpr hc), except_ok_bind]
  simp only [BitVec.extractLsb'_toNat, Nat.shiftRight_zero, Nat.reducePow, hk, hs, hd, h4, and_self, if_true]

theorem slotToll_eq (ha : readS s a = .ok (sv s a)) (amount : BitVec 24) :
    let n := if a = 0 then amount.toNat else (sv s a).toNat % 2 ^ 24
    slotToll a amount s = .ok (if n = 0 then cancelToll s s.cur.1 s.cur.2 else withMe s (fun c =>
      { c with tollWant := c.tollWant + n, tollAge := if c.tollWant = 0 then s.time else c.tollAge })) := by
  intro n
  have amounts : slotToll a amount s = (if n = 0 then .ok (cancelToll s s.cur.1 s.cur.2) else .ok (withMe s (fun c =>
      { c with tollWant := c.tollWant + n, tollAge := if c.tollWant = 0 then s.time else c.tollAge }))) := by
    unfold slotToll n
    split
    · rfl
    · rw [ha, except_ok_bind, BitVec.extractLsb'_toNat]
      rfl
  rw [amounts]
  split <;> rfl

end Slots

/-- Settles O25: an arrival, a wait, a record, a return, a toll or a flag packet, each from its slot's own equation. -/
theorem barriersTollsRemoteFlags : Obligations.BarriersTollsRemoteFlags := by
  intro s a scope level id sl m off amount
  refine ⟨?_, exec_of_ok rfl (slotPrePt_eq s off), fun hr => ?_⟩
  · intro x hx hc hl waits s1 arrived
    refine ⟨exec_of_ok rfl (awaitBarrier_declared hx hc hl), fun ho => ?_⟩
    have arrives := arrive_declared (id := id.toNat) hx hc hl ho
    have still : taskOf arrived arrived.cur.1 arrived.cur.2 = some x := (taskOf_withMe (s := s1) rfl).trans hx
    refine ⟨exec_of_ok rfl arrives, exec_of_ok rfl ?_⟩
    rw [slotBar, arrives, except_ok_bind]
    exact awaitBarrier_declared still hc hl
  · have ha := readS_ok (readable_cons.mp hr).1
    refine ⟨fun k hc hk hs h4 hd => exec_of_ok rfl (slotRte_handler ha hc hk hs h4 hd),
      exec_of_ok rfl (slotToll_eq ha amount), ?_⟩
    obtain ⟨r, p, ⟨hkind, hr, hcore, hctx⟩, ⟨hp, htyp, haux⟩, kept, hmem⟩ := pushReq_sends s (.flag (sv s a) m) [] (slackOf s sl)
      ⟨0, false, false⟩ [] 4 (ctxidCore (sv s a)) ((sv s a).extractLsb' 32 10).toNat 0
      (BitVec.ofNat 32 (m.toNat + 256 * ((sv s a).extractLsb' 0 3).toNat)) []
    exact ⟨_, exec_of_ok rfl (by rw [slotFlagSetRmt, ha]; rfl), kept.nextReq, hmem, kept.ops, r, p, kept.reqs, hkind, hr,
      hcore, hctx, kept.packets, hp, htyp, haux ▸ flagWord_mask m _, haux ▸ flagWord_ctx m _⟩

end Sys2Proof.Machine

namespace Sys2Proof.Machine

/-! ## A suspended command while a launch records (O52) -/

/-- A fill of the tagged region at address 0, whose packets have no slack left. -/
def lateFill : Op := { newOp State.reset (.tagFl 5 6 7 ⟨0, 0, false⟩) 5 with slk := 0 }

/-- The fill is outstanding in an address space without ranges, while the launch of its task records to 0x100000. -/
def recordingFill : State :=
  { State.reset with
    rlog := some emptyLog, rlogb := 0x100000, rlogl := 0x100000
    cores := [(0, { CoreSt.init with ctxs := [(0, { Ctx.init with task := some { launch := 0, task := 0 } })] })]
    ops := [lateFill] }

/-- The fill meets a missing range at its first chunk, before which nothing is written. -/
theorem lateFill_stops : findOp recordingFill 0 0 lateFill.seq = some lateFill ∧ memByte recordingFill.mem 0x100040 = 0 ∧
    ∃ f, runChunks opChunk recordingFill lateFill (opChunks lateFill) = .stopped recordingFill lateFill (.suspend f) :=
  ⟨rfl, by decide, _, rfl⟩

/-- As it is suspended the reads of its search are late, and the record of their lateness is the first of the log. -/
theorem lateFill_suspends :
    ∃ t, exec (.commandSuspend 0 0 lateFill.seq) recordingFill = .next t ∧ memByte t.mem 0x100040 = 9 :=
  ⟨_, rfl, by decide +kernel⟩

/-- Refutes O52: a suspension is said to leave memory as the chunks before the fault left it, also while a launch records. The
command that meets the fault has searched for the range; a read of that search without slack is late, and a late packet of a
task of the recording launch is logged in memory. -/
theorem not_engineEventsComplete : ¬ Obligations.EngineEventsComplete := by
  rintro ⟨events, -⟩
  obtain ⟨hfind, hbefore, f, hstops⟩ := lateFill_stops
  obtain ⟨t, ht, hafter⟩ := lateFill_suspends
  obtain ⟨-, -, faults, -⟩ := events recordingFill lateFill hfind
  obtain ⟨-, -, suspends⟩ := faults rfl rfl
  obtain ⟨u, -, hu, -, -, hmem, -⟩ := (suspends recordingFill lateFill ⟨rfl, rfl⟩ hfind).1 f hstops rfl
  obtain rfl : t = u := by simpa using ht.symm.trans hu
  rw [hmem, hbefore] at hafter
  exact absurd hafter (by decide)

end Sys2Proof.Machine

namespace Sys2Proof.Machine

/-! ## Events in which accesses perform while no context waits for one (O53) -/

/-- Every context waits for the same arrivals and does the same. -/
def WaitsKept (s t : State) : Prop :=
  ∀ n k, (ctxOf t n k).arrivals = (ctxOf s n k).arrivals ∧ (ctxOf t n k).status = (ctxOf s n k).status

section Waits

variable {s t u : State}

theorem WaitsKept.refl (s : State) : WaitsKept s s := fun _ _ => ⟨rfl, rfl⟩

theorem WaitsKept.trans (h : WaitsKept s t) (g : WaitsKept t u) : WaitsKept s u :=
  fun n k => ⟨(g n k).1.trans (h n k).1, (g n k).2.trans (h n k).2⟩

theorem waitsKept_of_ctxs (h : ∀ n k, ctxOf t n k = ctxOf s n k) : WaitsKept s t := fun n k => by rw [h]; exact ⟨rfl, rfl⟩

theorem waitsKept_of_cores (h : t.cores = s.cores) : WaitsKept s t :=
  waitsKept_of_ctxs fun n k => by rw [ctxOf, coreOf, h, ctxOf, coreOf]

theorem waitsKept_withCore (s : State) (n : Nat) {f : CoreSt → CoreSt} (h : (f (coreOf s n)).ctxs = (coreOf s n).ctxs) :
    WaitsKept s (withCore s n f) := waitsKept_of_ctxs (traffic_withCore s n f h).ctxs

theorem waitsKept_withCtx (s : State) (core ctx : Nat) {f : Ctx → Ctx}
    (ha : (f (ctxOf s core ctx)).arrivals = (ctxOf s core ctx).arrivals)
    (hs : (f (ctxOf s core ctx)).status = (ctxOf s core ctx).status) : WaitsKept s (withCtx s core ctx f) := by
  intro n k
  by_cases h : (n, k) = (core, ctx)
  · obtain ⟨rfl, rfl⟩ := Prod.mk.inj h
    rw [ctxOf_withCtx]
    exact ⟨ha, hs⟩
  · rw [withCtx, ctxOf_setCtx_other s _ (pair_ne h)]
    exact ⟨rfl, rfl⟩

theorem quiet_of_waitsKept (h : WaitsKept s t) (hq : Quiet s) : Quiet t := fun n k =>
  ⟨(h n k).1.trans (hq n k).1, fun j => (h n k).2 ▸ (hq n k).2 j⟩

theorem settleArrivals_none {core ctx : Nat} (h : (ctxOf s core ctx).arrivals = []) : settleArrivals s core ctx = s := by
  rw [settleArrivals, h]
  rfl

theorem settleReturn_other {core : Nat} (h : ∀ j, (ctxOf s core 4).status ≠ .returning j) : settleReturn s core = s := by
  unfold settleReturn
  split
  · next j hj => exact absurd hj (h j)
  · rfl

theorem settleWaiting_quiet (h : Quiet s) : settleWaiting s = s := by
  rw [settleWaiting, List.foldl_fixed' fun p : Nat × Nat => settleArrivals_none (h p.1 p.2).1]
  exact List.foldl_fixed' (fun n => settleReturn_other (h n 4).2) _

theorem performing_quiet (hq : Quiet s) (h : WaitsKept s t) : performing (.next t) = .next t :=
  congrArg Host.Outcome.next (settleWaiting_quiet (quiet_of_waitsKept h hq))

end Waits

/-! ### Packets and requests by their numbers -/

section Queues

variable {s : State}

theorem findPacket_id {i : Nat} {p : NetPacket} (h : findPacket s i = some p) : p.id = i := by
  simpa using List.find?_some h

theorem findReq_id {i : Nat} {r : Req} (h : findReq s i = some r) : r.id = i := by
  simpa using List.find?_some h

/-- A packet that moves on is found where it stands now. -/
theorem findPacket_movePacket (s : State) (p : NetPacket) (place : NetPoint) (input : Nat) :
    findPacket (movePacket s p place input) p.id = some { p with place := place, input := input, acc := false } := by
  have none : (s.packets.filter (fun q => q.id != p.id)).find? (fun q => q.id == p.id) = none :=
    List.find?_eq_none.mpr fun q hq => by simpa using (List.mem_filter.mp hq).2
  simp [findPacket, movePacket, List.find?_append, none]

theorem findPacket_dropPacket (s : State) (i : Nat) : findPacket (dropPacket s i) i = none :=
  List.find?_eq_none.mpr fun q hq => by simpa using (List.mem_filter.mp hq).2

theorem findReq_removeReq (s : State) (i : Nat) : findReq (removeReq s i) i = none :=
  List.find?_eq_none.mpr fun q hq => by simpa using (List.mem_filter.mp hq).2

/-- A list in which the element of a number is replaced has the new one under that number. -/
theorem find?_replaced {α : Type} {num : α → Nat} {l : List α} {a b : α} (h : l.find? (fun x => num x == num b) = some a) :
    (l.map (fun x => if num x = num b then b else x)).find? (fun x => num x == num b) = some b := by
  induction l with
  | nil => simp at h
  | cons x l ih =>
    by_cases hx : num x = num b
    · simp [hx]
    · have : (num x == num b) = false := by simpa using hx
      rw [List.find?_cons, this] at h
      simpa [hx] using ih h

theorem findReq_updateReq {r q : Req} (h : findReq s q.id = some r) : findReq (updateReq s q) q.id = some q :=
  find?_replaced (num := Req.id) h

end Queues

/-! ### An access that performs at its home -/

section Home

variable {s : State}

theorem traffic_wakePas (s : State) (pas : List Nat) : TrafficOnly s (wakePas s pas) := by
  refine TrafficOnly.foldl (fun s pa => ?_) pas s
  split
  · exact TrafficOnly.foldl (fun s u => traffic_withCore s _ _ rfl) _ s
  · exact .refl s

theorem forwards_wakePas (s : State) (pas : List Nat) : Forwards s (wakePas s pas) := by
  refine Forwards.foldl (fun s pa => ?_) pas s
  split
  · exact Forwards.foldl (fun s u => forwards_withCore s _ _) _ s
  · exact .refl s

theorem noteOrder_unnoted (hl : s.rlog = none) (hp : s.rplay = none) (a : Accessor) (wr : Bool) (pas : List Nat) :
    noteOrder s a wr pas = s := by
  simp only [noteOrder, followOrder, hp, hl]

theorem wakePas_logs (s : State) (pas : List Nat) : (wakePas s pas).rlog = s.rlog ∧ (wakePas s pas).rplay = s.rplay := by
  refine ⟨(forwards_wakePas s pas).rlog, ?_⟩
  induction pas generalizing s with
  | nil => rfl
  | cons a l ih =>
    have one : (wakePas s [a]).rplay = s.rplay := by
      simp only [wakePas, List.foldl_cons, List.foldl_nil]
      split
      · simp only [wakeFor]
        generalize (List.filter _ _ : List Nat) = us
        induction us generalizing s with
        | nil => rfl
        | cons u us ih => exact ih _
      · rfl
    exact (ih _).trans one

/-- Without a log, what an access notes as it performs is no more than the traffic of its lines. -/
theorem reachHome_unlogged (hl : s.rlog = none) (hp : s.rplay = none) (r : Req) (wr : Bool) :
    TrafficOnly s (reachHome s r wr) ∧ Forwards s (reachHome s r wr) := by
  obtain ⟨hl', hp'⟩ := wakePas_logs s r.pas
  rw [reachHome, noteOrder_unnoted (hl'.trans hl) (hp'.trans hp)]
  exact ⟨(traffic_wakePas s r.pas).trans (traffic_touchLines ..), (forwards_wakePas s r.pas).trans (forwards_touchLines ..)⟩

theorem waitsKept_of_traffic {t : State} (h : TrafficOnly s t) : WaitsKept s t := waitsKept_of_ctxs h.ctxs

theorem findReq_of_reqs {t : State} (h : t.reqs = s.reqs) (i : Nat) : findReq t i = findReq s i := by
  rw [findReq, h, findReq]

/-- No byte of a request leaves the device's own reach. -/
theorem outsideChecks_ok {l : List Nat} (h : ∀ a ∈ l, outsideCheck s a = .ok ()) :
    l.foldlM (fun (_ : Unit) a => outsideCheck s a) () = .ok () := by
  induction l with
  | nil => rfl
  | cons a l ih =>
    rw [List.foldlM_cons, h a List.mem_cons_self]
    exact ih fun x hx => h x (List.mem_cons_of_mem a hx)

theorem rerouted_plain {r : Req} (h : r.kind.isAtomic = false) : rerouted s r = none := by
  simp [rerouted, h]

variable {p : NetPacket} {r : Req} {g : Contender} {v : State} {b : List Byte}

/-- A granted request that performs: its packet becomes the response, and memory and the requests are as it leaves them. -/
theorem exec_grant_performs (hq : Quiet s) (hp : findPacket s p.id = some p) (hr : findReq s p.id = some r)
    (hg : grantable s p = some g) (ht : p.pkt.typ ≠ 7) (ho : ∀ a ∈ r.pas, outsideCheck s a = .ok ())
    (hk : r.kind.isAtomic = false) (hperf : performReq s r = some (v, b)) (hw : WaitsKept s v) :
    ∃ u x, exec (.memoryPortGrant (.request p.id)) s = .next u ∧ findPacket u p.id = some x ∧ x.pkt.vc = 1 ∧
      x.pkt.slack = p.pkt.slack ∧ x.data = b ∧ u.mem = v.mem ∧ u.reqs = v.reqs := by
  have granted : grantAt (.request p.id) s = .next (respond (countGrant v p.place 0 g) p b 0) := by
    simp only [grantAt, hp, hg, grantPacket, if_neg ht, hr, grantReq, outsideChecks_ok ho, rerouted_plain hk, hperf]
  refine ⟨respond (countGrant v p.place 0 g) p b 0, _, ?_, findPacket_movePacket .., rfl, rfl, rfl, rfl, rfl⟩
  refine (congrArg performing granted).trans (performing_quiet hq (hw.trans (waitsKept_of_cores rfl)))

theorem performReq_store (hl : s.rlog = none) (hp : s.rplay = none) (hm : s.relocs = []) {cells : List Host.Cell}
    (hk : r.kind = .store cells) : ∃ v, performReq s r = some (v, []) ∧ WaitsKept s v ∧
      v.mem = (physWrite s cells).mem ∧ findReq v r.id = none := by
  obtain ⟨traffic, forwards⟩ := reachHome_unlogged hl hp r true
  refine ⟨removeReq (homeWrite (reachHome s r true) cells) r.id, by simp only [performReq, hk], ?_, ?_, findReq_removeReq ..⟩
  all_goals rw [homeWrite_still (forwards.relocs.trans hm)]
  · exact (waitsKept_of_traffic traffic).trans (waitsKept_of_cores rfl)
  · exact congrArg (memPuts · cells) traffic.mem

theorem performReq_write (hl : s.rlog = none) (hp : s.rplay = none) (hm : s.relocs = []) {q tag a : Nat}
    {cells : List Host.Cell} (hk : r.kind = .write q tag a cells) (hr : findReq s r.id = some r) :
    ∃ v, performReq s r = some (v, []) ∧ WaitsKept s v ∧ v.mem = (physWrite s cells).mem ∧
      findReq v r.id = some { r with performed := true } := by
  obtain ⟨traffic, forwards⟩ := reachHome_unlogged hl hp r true
  refine ⟨updateReq (homeWrite (reachHome s r true) cells) { r with performed := true }, by simp only [performReq, hk], ?_, ?_, ?_⟩
  all_goals rw [homeWrite_still (forwards.relocs.trans hm)]
  · exact (waitsKept_of_traffic traffic).trans (waitsKept_of_cores rfl)
  · exact congrArg (memPuts · cells) traffic.mem
  · exact findReq_updateReq (q := { r with performed := true }) ((findReq_of_reqs traffic.reqs r.id).trans hr)

theorem performReq_read (hl : s.rlog = none) (hp : s.rplay = none) {q tag a : Nat}
    (hk : r.kind = .load q ∨ r.kind = .read q tag a) (hr : findReq s r.id = some r) :
    ∃ v, performReq s r = some (v, r.pas.map (memByte s.mem)) ∧ WaitsKept s v ∧ v.mem = s.mem ∧
      findReq v r.id = some { r with value := r.pas.map (memByte s.mem), performed := true } := by
  obtain ⟨traffic, -⟩ := reachHome_unlogged hl hp r false
  have answers : performReq s r = some (updateReq (reachHome s r false)
      { r with value := r.pas.map (memByte s.mem), performed := true }, r.pas.map (memByte s.mem)) := by
    rcases hk with hk | hk <;> simp only [performReq, hk, traffic.mem]
  exact ⟨_, answers, (waitsKept_of_traffic traffic).trans (waitsKept_of_cores rfl), traffic.mem,
    findReq_updateReq (q := { r with value := _, performed := true }) ((findReq_of_reqs traffic.reqs r.id).trans hr)⟩

end Home

/-! ### A packet that an arbitration point moves on -/

section Router

variable {s : State} {n : NetPoint} {out : Nat} {c : Contender}

theorem exec_routerGrant (hc : choose ((contenders s n out).map NetPacket.contender) (grantsSince s n out) = some c) :
    exec (.routerGrant n out) s = performing (passOn (countGrant s n out c) c.p out) :=
  show execRouterGrant n out s = _ by rw [execRouterGrant, hc]

/-- A granted packet whose way on leaves every context and memory as they were. -/
theorem exec_routerGrant_next {u : State} (hq : Quiet s)
    (hc : choose ((contenders s n out).map NetPacket.contender) (grantsSince s n out) = some c)
    (hp : passOn (countGrant s n out c) c.p out = .next u) (hw : WaitsKept s u) : exec (.routerGrant n out) s = .next u := by
  rw [exec_routerGrant hc, hp, performing_quiet hq hw]

theorem turnGroup_kept (s : State) (p : NetPacket) : (turnGroup s p).mem = s.mem ∧ (turnGroup s p).cores = s.cores := by
  unfold turnGroup
  split <;> exact ⟨rfl, rfl⟩

variable {p : NetPacket}

theorem passOn_buffer {x y i : Nat} (h : nextBuffer s p out = some (x, y, i)) :
    passOn s p out = .next (movePacket (turnGroup s p) p (.router x y) i) := by
  rw [passOn, h]

theorem passOn_rest {x y : Nat} {place : NetPoint} {input : Nat} (h : nextBuffer s p out = none) (hp : p.place = .router x y)
    (hr : restAt s p.pkt = some (place, input)) : passOn s p out = .next (movePacket s p place input) := by
  simp only [passOn, h, hp, arriveAt, hr]

theorem passOn_edge {e : Nat} (hp : p.place = .fabricEdge e) (hr : s.rplay = none) :
    passOn s p out =
      let t := answer s (.packet out (Packet.header p.pkt) (flitsOf p.pkt p.data) p.cause)
      .next (if p.pkt.vc = 1 then dropPacket t p.id else movePacket t p .away 0) := by
  simp [passOn, nextBuffer, hp, leaveBy, hr]

theorem passOn_host {e : Nat} {r : Req} {k : RdmaKind} (hp : p.place = .hostQueue e) (hr : findReq s p.id = some r)
    (ho : ∀ a ∈ r.pas, outsideCheck s a = .ok ()) (hk : rdmaOf s r = some k) (hl : s.rplay = none) :
    passOn s p out = .next (movePacket (sendRdma s (r.pas.headD 0) k (some r.id) none) p .away 0) := by
  simp [passOn, nextBuffer, hp, serveWork, hr, outsideChecks_ok ho, hk, hl]

theorem sendRdma_window {pa : Nat} {w : BitVec 256} (h : windowAt s pa = some w) (kind : RdmaKind) (req : Option Nat)
    (note : Option (Nat × Nat × BitVec 256)) : sendRdma s pa kind req note = { s with outbound := s.outbound ++
      [{ qp := windowQp w, va := windowVa w pa, rkey := windowKey w, kind := kind, req := req, note := note }] } := by
  rw [sendRdma, h]

end Router

/-! ### A decrement of a packet's slack -/

section Slack

theorem queuesKept_withSlice (s : State) (n : Nat) (f : Slice → Slice) : QueuesKept s (withSlice s n f) := ⟨rfl, rfl, rfl, rfl⟩

theorem queuesKept_countLateUnit (s : State) (p : Packet) : QueuesKept s (countLateUnit s p) :=
  queuesKept_ite (((queuesKept_withCore ..).trans (queuesKept_traceEvent ..)).trans (queuesKept_traceTrigger ..))
    (queuesKept_ite (queuesKept_withSlice ..) ⟨rfl, rfl, rfl, rfl⟩)

/-- A change of the context that a packet names is one of the bound context, or one of the saved image among the launches. -/
theorem modifyTarget_some {s t : State} {core ctx : Nat} {cookie : BitVec 64} {f : Ctx → Ctx}
    (h : modifyTarget s core ctx cookie f = some t) : t = withCtx s core ctx f ∨ ∃ l, t = { s with launches := l } := by
  unfold modifyTarget at h
  split at h
  · simp at h
  · split at h
    · exact .inl (Option.some.inj h).symm
    · split at h
      · split at h
        · exact .inr ⟨_, (Option.some.inj h).symm⟩
        · simp at h
      · simp at h

theorem queuesKept_modifyTarget {s t : State} {core ctx : Nat} {cookie : BitVec 64} {f : Ctx → Ctx}
    (h : modifyTarget s core ctx cookie f = some t) : QueuesKept s t := by
  obtain rfl | ⟨l, rfl⟩ := modifyTarget_some h <;> exact ⟨rfl, rfl, rfl, rfl⟩

theorem queuesKept_becomeLate (s : State) (core ctx : Nat) (cookie : BitVec 64) (vc pa tag : Nat) :
    QueuesKept s (becomeLate s core ctx cookie vc pa tag) := by
  have traced := (queuesKept_withCore s core (fun k => { k with latecnt := latePlus k.latecnt })).trans
    (queuesKept_lateTrace _ core ctx vc pa tag)
  refine traced.trans ?_
  unfold becomeLate
  dsimp only
  cases h : modifyTarget (lateTrace (countLate s core) core ctx vc pa tag) core ctx cookie _ with
  | none => exact .refl _
  | some t => exact queuesKept_modifyTarget h

theorem queuesKept_packetLate (s : State) (p : Packet) : QueuesKept s (packetLate s p) :=
  queuesKept_ite (.refl s) (queuesKept_ite (queuesKept_ite (.refl s) (queuesKept_becomeLate ..)) (queuesKept_countLateUnit ..))

theorem decremented_id (now : Nat) (p : NetPacket) : (decremented now p).id = p.id := by
  unfold decremented
  dsimp only
  split <;> rfl

theorem findPacket_takeSlack {s : State} {p : NetPacket} (hp : findPacket s p.id = some p) (ho : p.owed ≠ 0) :
    findPacket (takeSlack s p) p.id = some (decremented s.time p) := by
  have changed : findPacket { s with packets := s.packets.map (fun x => if x.id = p.id then decremented s.time p else x) } p.id =
      some (decremented s.time p) := by
    rw [← decremented_id s.time p] at hp ⊢
    exact find?_replaced (num := NetPacket.id) hp
  rw [takeSlack, if_neg ho]
  dsimp only
  split
  · rw [findPacket, (queuesKept_packetLate _ _).packets]
    exact changed
  · exact changed

theorem decremented_slack {now : Nat} {p : NetPacket} (h : p.pkt.slack ≠ 0) :
    (decremented now p).owed = p.owed - 1 ∧ (decremented now p).pkt.slack = p.pkt.slack - 1 ∧
      (decremented now p).pkt.late = (p.pkt.late || p.pkt.slack == 1) := by
  rw [decremented, if_neg h]
  refine ⟨rfl, rfl, congrArg (p.pkt.late || ·) ?_⟩
  rw [Bool.eq_iff_iff, beq_iff_eq, beq_iff_eq, sub_eq_zero]

end Slack

/-! ### An arrival of a flag packet, a notice or a resolution -/

/-- The state but for memory and the log that a launch records. -/
def unlogged (s : State) : State := { s with mem := [], rlog := none }

section Arrivals

variable {s t : State}

theorem unlogged_logRecord (s : State) (lid typ : Nat) (key : Word) (aux seq icnt unit ctx : Nat) (payload : List Byte) :
    unlogged (logRecord s lid typ key aux seq icnt unit ctx payload) = unlogged s := by
  unfold logRecord
  split
  · rfl
  · split
    · rfl
    · dsimp only
      split <;> rfl

theorem nextRecord_none (h : s.rplay = none) (f : LogRec → Bool) : nextRecord s f = none := by
  simp [nextRecord, h]

theorem unlogged_logArrival (h : s.rplay = none) (p : Packet) (key : Word) (seq : Nat) :
    unlogged (logArrival s p key seq) = unlogged s := by
  simp only [logArrival, followArrival, nextRecord_none h, logAny]
  split
  · rfl
  · exact unlogged_logRecord ..

theorem unlogged_countLogged (s : State) (home : Nat) : unlogged (countLogged s home).2 = unlogged s := by
  unfold countLogged
  split <;> rfl

/-- What a state holds but for memory and the log. -/
theorem eq_of_unlogged {α : Type} (f : State → α) (hf : ∀ v, f (unlogged v) = f v) (h : unlogged t = unlogged s) : f t = f s := by
  rw [← hf t, h, hf s]

theorem arriving_own (hr : s.rplay = none) {p : NetPacket} (hp : findPacket s p.id = some p)
    (hu : p.place = .unit p.pkt.dst.toNat) : arriving s (.own p.id) = some (p.pkt, some p.id) := by
  simp [arriving, hp, hu, arrivalHeld, nextRecord_none hr]

theorem findPacket_absorbPacket (s : State) (i : Nat) : findPacket (absorbPacket s (some i)) i = none :=
  findPacket_dropPacket s i

theorem modifyTarget_bound {core ctx : Nat} {cookie : BitVec 64} (hc : core < Config.numCores) (hx : ctx < 5)
    (ht : (ctxOf s core ctx).task.isSome = true) (hk : cookieOf s core ctx = cookie) (f : Ctx → Ctx) :
    modifyTarget s core ctx cookie f = some (withCtx s core ctx f) := by
  rw [modifyTarget, if_neg (by omega), if_pos (by simp [ht, hk])]

/-- A flag packet of a bound task sets its flags, and is gone. -/
theorem exec_flagPacketArrive {p : NetPacket} (hq : Quiet s) (hr : s.rplay = none) (hp : findPacket s p.id = some p)
    (hu : p.place = .unit p.pkt.dst.toNat) (h4 : p.pkt.typ = 4) {ctx : Nat} (hctx : (p.pkt.aux.extractLsb' 8 3).toNat = ctx)
    (hc : p.pkt.dst.toNat < Config.numCores) (hx : ctx < 5) (ht : (ctxOf s p.pkt.dst.toNat ctx).task.isSome = true)
    (hk : cookieOf s p.pkt.dst.toNat ctx = p.pkt.cookie) :
    ∃ u, exec (.flagPacketArrive (.own p.id)) s = .next u ∧ findPacket u p.id = none ∧ (ctxOf u p.pkt.dst.toNat ctx).flags =
      (ctxOf s p.pkt.dst.toNat ctx).flags ||| (p.pkt.aux.extractLsb' 0 8).setWidth 16 := by
  let logged := logArrival (countLogged s p.pkt.dst.toNat).2 p.pkt (arrivalKey s p.pkt) (countLogged s p.pkt.dst.toNat).1
  let set (c : Ctx) : Ctx := { c with flags := c.flags ||| (p.pkt.aux.extractLsb' 0 8).setWidth 16 }
  have counted := unlogged_countLogged s p.pkt.dst.toNat
  have same : unlogged logged = unlogged s :=
    (unlogged_logArrival ((eq_of_unlogged State.rplay (fun _ => rfl) counted).trans hr) ..).trans counted
  have ctxs (n k : Nat) : ctxOf logged n k = ctxOf s n k := eq_of_unlogged (ctxOf · n k) (fun _ => rfl) same
  have target : modifyTarget logged p.pkt.dst.toNat ctx p.pkt.cookie set = some (withCtx logged p.pkt.dst.toNat ctx set) :=
    modifyTarget_bound hc hx ((ctxs ..).symm ▸ ht)
      ((eq_of_unlogged (cookieOf · p.pkt.dst.toNat ctx) (fun _ => rfl) same).trans hk) set
  have waits : WaitsKept s (absorbPacket (withCtx logged p.pkt.dst.toNat ctx set) (some p.id)) :=
    ((waitsKept_of_ctxs ctxs).trans (waitsKept_withCtx logged _ _ rfl rfl)).trans (waitsKept_of_cores rfl)
  refine ⟨_, ?_, findPacket_absorbPacket (withCtx logged p.pkt.dst.toNat ctx set) p.id, ?_⟩
  · refine .trans ?_ (performing_quiet hq waits)
    show execFlagPacketArrive _ s = _
    simp only [execFlagPacketArrive, arriving_own hr hp hu, h4, ne_eq, not_true_eq_false, if_false, hctx]
    exact congrArg (fun o : Option State => performing (.next (absorbPacket (match o with
      | some s => s
      | none => logEvent logged (.badFlag (arrivalKey s p.pkt))) (some p.id)))) target
  · show (ctxOf (withCtx logged p.pkt.dst.toNat ctx set) p.pkt.dst.toNat ctx).flags = _
    rw [ctxOf_withCtx, ctxs]

end Arrivals

/-! ### The resolution of a row -/

/-- Every core's arrival counters are as they were. -/
structure CtrsKept (s t : State) : Prop where
  ctrs : ∀ n, (coreOf t n).ctrs = (coreOf s n).ctrs

/-- The row that a notice or an arrival names is resolved in its counter (R247, R248). -/
def Resolved (s : State) (atw : Word) : Prop :=
  (Tbl.look Arrival.init (coreOf s (atwCore atw)).ctrs (atwCtr atw)).bitmap.getLsbD (atwRow atw) = true

section Resolution

variable {s t u : State} {atw : Word}

theorem CtrsKept.refl (s : State) : CtrsKept s s := ⟨fun _ => rfl⟩

theorem CtrsKept.trans (h : CtrsKept s t) (g : CtrsKept t u) : CtrsKept s u := ⟨fun n => (g.ctrs n).trans (h.ctrs n)⟩

theorem ctrsKept_of_cores (h : t.cores = s.cores) : CtrsKept s t := ⟨fun n => by rw [coreOf, h, coreOf]⟩

theorem ctrsKept_withCore (s : State) (n : Nat) {f : CoreSt → CoreSt} (h : (f (coreOf s n)).ctrs = (coreOf s n).ctrs) :
    CtrsKept s (withCore s n f) := by
  refine ⟨fun m => ?_⟩
  by_cases hm : m = n
  · rw [hm, coreOf_withCore, h]
  · rw [withCore, coreOf_setCore_other _ _ hm]

theorem ctrsKept_withCtx (s : State) (n k : Nat) (f : Ctx → Ctx) : CtrsKept s (withCtx s n k f) :=
  ⟨fun m => by simpa using congrArg CoreSt.ctrs (coreOf_withCtx s n k f m)⟩

theorem ctrsKept_traceRaw (s : State) (core : Nat) (r : TraceRec) : CtrsKept s (traceRaw s core r) :=
  ctrsKept_withCore s core (by split <;> rfl)

theorem ctrsKept_traceEvent (s : State) (core cls ctx sub : Nat) (pay : Word) :
    CtrsKept s (traceEvent s core cls ctx sub pay) := by
  unfold traceEvent
  split
  · exact ctrsKept_traceRaw ..
  · exact .refl s

theorem ctrsKept_traceTrigger (s : State) (core source ctx : Nat) : CtrsKept s (traceTrigger s core source ctx) := by
  unfold traceTrigger
  dsimp only
  split
  · exact (ctrsKept_traceRaw ..).trans (ctrsKept_withCore _ _ rfl)
  · exact .refl s

theorem ctrsKept_modifyTarget {core ctx : Nat} {cookie : BitVec 64} {f : Ctx → Ctx}
    (h : modifyTarget s core ctx cookie f = some t) : CtrsKept s t := by
  obtain rfl | ⟨l, rfl⟩ := modifyTarget_some h
  · exact ctrsKept_withCtx ..
  · exact ctrsKept_of_cores rfl

theorem ctrsKept_watchNotice (s : State) (atw : Word) (cookie : BitVec 64) : CtrsKept s (watchNotice s atw cookie) := by
  unfold watchNotice
  split
  · exact .refl s
  · next w _ =>
    cases h : modifyTarget s (atwCore atw) w cookie _ with
    | none => exact .refl s
    | some t => exact ctrsKept_modifyTarget h

theorem ctrsKept_absorbPacket (s : State) (i : Nat) : CtrsKept s (absorbPacket s (some i)) := ctrsKept_of_cores rfl

theorem cores_countAdd (s : State) (id : Option Nat) (n : Nat) : (countAdd s id n).cores = s.cores := by
  unfold countAdd
  split
  · rfl
  · split <;> rfl

theorem resolved_of_ctrsKept (h : CtrsKept s t) (hs : Resolved s atw) : Resolved t atw := by
  rw [Resolved, h.ctrs]
  exact hs

theorem atwRow_lt (atw : Word) : atwRow atw < 1024 := (atw.extractLsb' 48 10).isLt

theorem setRow_getLsbD (b : BitVec 1024) {row : Nat} (h : row < 1024) : (b ||| (1#1024 <<< row)).getLsbD row = true := by
  simp [h]

/-- A resolution for a core where its launch runs sets the row, unless it is set already. -/
theorem resolved_resolveRow {cookie : BitVec 64} (hd : atwDevice atw = s.device.toNat)
    (hc : coreRuns s (atwCore atw) cookie = true) (hl : suspendedLaunch s cookie = none) :
    Resolved (resolveRow s atw (atwRow atw) cookie).1 atw := by
  have counter : counterAt s (atwCore atw) (atwCtr atw) cookie =
      Tbl.look Arrival.init (coreOf s (atwCore atw)).ctrs (atwCtr atw) := by rw [counterAt, hl]
  simp only [resolveRow, hd, hc, ne_eq, not_true_eq_false, Bool.not_true, Bool.false_eq_true, or_self, if_false, counter]
  split
  · next already =>
    refine resolved_of_ctrsKept (.trans ?_ (ctrsKept_traceTrigger ..)) already
    exact .trans (t := logEvent s _) (ctrsKept_of_cores rfl) (ctrsKept_traceEvent ..)
  · simp only [putCounter, hl, Resolved, coreOf_withCore, Tbl.look_put_same]
    exact setRow_getLsbD _ (atwRow_lt atw)

theorem coreRuns_congr {core : Nat} {cookie : BitVec 64} (hx : ∀ n k, ctxOf t n k = ctxOf s n k) (hl : t.launches = s.launches) :
    coreRuns t core cookie = coreRuns s core cookie := by
  simp only [coreRuns, cookieOf, savedAt, hx, hl]

theorem suspendedLaunch_congr {cookie : BitVec 64} (hl : t.launches = s.launches) :
    suspendedLaunch t cookie = suspendedLaunch s cookie := by
  rw [suspendedLaunch, hl, suspendedLaunch]

theorem device_traceEvent (s : State) (core cls ctx sub : Nat) (pay : Word) :
    (traceEvent s core cls ctx sub pay).device = s.device := by
  unfold traceEvent
  split <;> rfl

variable {p : NetPacket}

theorem exec_noticeArrive (hr : s.rplay = none) (hp : findPacket s p.id = some p) (hu : p.place = .unit p.pkt.dst.toNat)
    (h5 : p.pkt.typ = 5) (hd : atwDevice p.pkt.atw = s.device.toNat) (hc : coreRuns s (atwCore p.pkt.atw) p.pkt.cookie = true)
    (hl : suspendedLaunch s p.pkt.cookie = none) :
    ∃ u, exec (.noticeArrive (.own p.id)) s = .next u ∧ findPacket u p.id = none ∧ Resolved u p.pkt.atw := by
  let logged := logArrival s p.pkt p.pkt.atw (resolvedAt s p.pkt.atw p.pkt.cookie)
  let traced := traceEvent logged (atwCore p.pkt.atw) 3 7 3 (BitVec.ofNat 64 (p.pkt.aux.toNat + 2 ^ 32 * atwRow p.pkt.atw))
  have same : unlogged logged = unlogged s := unlogged_logArrival hr ..
  have trace : TrafficOnly logged traced := traffic_traceEvent ..
  have ctxs (n k : Nat) : ctxOf traced n k = ctxOf s n k :=
    (trace.ctxs n k).trans (eq_of_unlogged (ctxOf · n k) (fun _ => rfl) same)
  have launches : traced.launches = s.launches := trace.launches.trans (eq_of_unlogged State.launches (fun _ => rfl) same)
  have device : traced.device = s.device :=
    (device_traceEvent ..).trans (eq_of_unlogged State.device (fun _ => rfl) same)
  have row : Resolved (resolveRow traced p.pkt.atw (atwRow p.pkt.atw) p.pkt.cookie).1 p.pkt.atw :=
    resolved_resolveRow (device ▸ hd) ((coreRuns_congr ctxs launches).trans hc) ((suspendedLaunch_congr launches).trans hl)
  refine ⟨_, ?_, findPacket_absorbPacket (if (resolveRow traced p.pkt.atw (atwRow p.pkt.atw) p.pkt.cookie).2 = some true
    then watchNotice (resolveRow traced p.pkt.atw (atwRow p.pkt.atw) p.pkt.cookie).1 p.pkt.atw p.pkt.cookie
    else (resolveRow traced p.pkt.atw (atwRow p.pkt.atw) p.pkt.cookie).1) p.id, ?_⟩
  · show execNoticeArrive _ s = _
    simp only [execNoticeArrive, arriving_own hr hp hu, h5, ne_eq, not_true_eq_false, if_false]
    rfl
  · refine resolved_of_ctrsKept (.trans ?_ (ctrsKept_absorbPacket ..)) row
    split
    · exact ctrsKept_watchNotice ..
    · exact .refl _

theorem exec_acaddArrive (hr : s.rplay = none) (hp : findPacket s p.id = some p) (hu : p.place = .unit p.pkt.dst.toNat)
    (h6 : p.pkt.typ = 6) (hd : atwDevice p.pkt.atw = s.device.toNat) (hc : coreRuns s (atwCore p.pkt.atw) p.pkt.cookie = true)
    (hl : suspendedLaunch s p.pkt.cookie = none) :
    ∃ u, exec (.acaddArrive (.own p.id)) s = .next u ∧ findPacket u p.id = none ∧ Resolved u p.pkt.atw := by
  let logged := logArrival s p.pkt p.pkt.atw (resolvedAt s p.pkt.atw p.pkt.cookie)
  let resolved := resolveRow logged p.pkt.atw (atwRow p.pkt.atw) p.pkt.cookie
  have same : unlogged logged = unlogged s := unlogged_logArrival hr ..
  have row : Resolved resolved.1 p.pkt.atw := resolved_resolveRow ((eq_of_unlogged State.device (fun _ => rfl) same) ▸ hd)
    ((eq_of_unlogged (coreRuns · _ _) (fun _ => rfl) same).trans hc)
    ((eq_of_unlogged (suspendedLaunch · _) (fun _ => rfl) same).trans hl)
  refine ⟨_, ?_, findPacket_absorbPacket (countAdd resolved.1 (some p.id) (if resolved.2 = some true then 1 else 0)) p.id, ?_⟩
  · show execAcaddArrive _ s = _
    simp only [execAcaddArrive, arriving_own hr hp hu, h6, ne_eq, not_true_eq_false, if_false]
    rfl
  · exact resolved_of_ctrsKept ((ctrsKept_of_cores (cores_countAdd ..)).trans (ctrsKept_absorbPacket ..)) row

end Resolution

/-! ### What the end of a request leaves -/

/-- The end of requests and of their commands: no request and no send work is new, queue pairs stay, and no context waits for
other accesses than it did. -/
structure Ends (s t : State) : Prop where
  reqs : t.reqs.Sublist s.reqs
  outbound : t.outbound.Sublist s.outbound
  qps : t.qps = s.qps
  waits : WaitsKept s t

section Ends

variable {s t u : State}

theorem Ends.refl (s : State) : Ends s s := ⟨.refl _, .refl _, rfl, .refl s⟩

theorem Ends.trans (h : Ends s t) (g : Ends t u) : Ends s u :=
  ⟨g.reqs.trans h.reqs, g.outbound.trans h.outbound, g.qps.trans h.qps, h.waits.trans g.waits⟩

theorem Ends.foldl {α : Type} {f : State → α → State} (h : ∀ s x, Ends s (f s x)) (l : List α) (s : State) :
    Ends s (l.foldl f s) := by
  induction l generalizing s with
  | nil => exact .refl s
  | cons x l ih => exact (h s x).trans (ih _)

theorem ends_ite {c : Prop} [Decidable c] (ht : Ends s t) (hu : Ends s u) : Ends s (if c then t else u) := by
  split
  · exact ht
  · exact hu

/-- A change of what neither requests, send work, queue pairs nor cores hold. -/
theorem ends_of_cores (hr : t.reqs = s.reqs) (ho : t.outbound = s.outbound) (hq : t.qps = s.qps) (hc : t.cores = s.cores) :
    Ends s t := ⟨hr ▸ .refl _, ho ▸ .refl _, hq, waitsKept_of_cores hc⟩

theorem ends_withCore (s : State) (n : Nat) {f : CoreSt → CoreSt} (h : (f (coreOf s n)).ctxs = (coreOf s n).ctxs) :
    Ends s (withCore s n f) := ⟨.refl _, .refl _, rfl, waitsKept_withCore s n h⟩

theorem ends_withCtx (s : State) (core ctx : Nat) {f : Ctx → Ctx}
    (ha : (f (ctxOf s core ctx)).arrivals = (ctxOf s core ctx).arrivals)
    (hs : (f (ctxOf s core ctx)).status = (ctxOf s core ctx).status) : Ends s (withCtx s core ctx f) :=
  ⟨.refl _, .refl _, rfl, waitsKept_withCtx s core ctx ha hs⟩

theorem ends_traceRaw (s : State) (core : Nat) (r : TraceRec) : Ends s (traceRaw s core r) :=
  ends_withCore s core (by split <;> rfl)

theorem ends_traceEvent (s : State) (core cls ctx sub : Nat) (pay : Word) : Ends s (traceEvent s core cls ctx sub pay) :=
  ends_ite (ends_traceRaw ..) (.refl s)

theorem ends_traceTrigger (s : State) (core source ctx : Nat) : Ends s (traceTrigger s core source ctx) :=
  ends_ite ((ends_traceRaw ..).trans (ends_withCore _ _ rfl)) (.refl s)

theorem ends_countLateUnit (s : State) (p : Packet) : Ends s (countLateUnit s p) :=
  ends_ite (((ends_withCore s _ rfl).trans (ends_traceEvent ..)).trans (ends_traceTrigger ..))
    (ends_ite (ends_of_cores rfl rfl rfl rfl) (ends_of_cores rfl rfl rfl rfl))

theorem ends_sendUnit (s : State) (p : NetPacket) : Ends s (sendUnit s p) := by
  have added : Ends s (addPacket s p) := ends_of_cores rfl rfl rfl rfl
  exact ends_ite (added.trans (ends_countLateUnit ..)) added

theorem ends_writeOut (note : Option (Nat × Nat × BitVec 256)) (s : State) (cells : List Host.Cell) :
    Ends s (writeOut note s cells) := by
  unfold writeOut
  split
  · exact .refl s
  · refine ends_ite (.refl s) ?_
    exact .trans (t := { s with nextReq := s.nextReq + 1 }) (ends_of_cores rfl rfl rfl rfl) (ends_sendUnit ..)

theorem ends_storeCells (s : State) (cells : List Host.Cell) : Ends s (storeCells s cells) :=
  .trans (t := physWrite s _) (ends_of_cores rfl rfl rfl rfl) (Ends.foldl (ends_writeOut none) _ _)

theorem ends_homeWrite (s : State) (cells : List Host.Cell) : Ends s (homeWrite s cells) := by
  have written : Ends s (physWrite s cells) := ends_of_cores rfl rfl rfl rfl
  unfold homeWrite
  split
  · exact written
  · exact written.trans (ends_storeCells ..)

theorem ends_releaseClaims (s : State) (o : Op) : Ends s (releaseClaims s o) :=
  Ends.foldl (fun s _ => ends_ite (ends_homeWrite s _) (.refl s)) _ s

theorem ends_dropEngineReqs (s : State) (core ctx seq : Nat) : Ends s (dropEngineReqs s core ctx seq) :=
  ⟨List.filter_sublist, .refl _, rfl, waitsKept_of_cores rfl⟩

theorem ends_writeScalarNow (s : State) (core ctx r : Nat) (v : Word) : Ends s (writeScalarNow s core ctx r v) :=
  ends_ite (.refl s) (ends_withCtx s core ctx rfl rfl)

theorem ends_traceToken (s : State) (o : Op) (tok addr : Word) : Ends s (traceToken s o tok addr) := by
  refine ends_ite (ends_traceEvent ..) (ends_ite ?_ (.refl s))
  split
  · exact ends_traceEvent ..
  · exact .refl s

theorem ends_endToken (s : State) (o : Op) (tok addr : Word) : Ends s (endToken s o tok addr) := by
  have released : Ends s (if tok.extractLsb' 62 2 = 0 then s else releaseClaims s o) := ends_ite (.refl s) (ends_releaseClaims s o)
  have dropped := released.trans (ends_dropEngineReqs _ o.core o.ctx o.seq)
  have removed := dropped.trans (u := removeOp (dropEngineReqs _ o.core o.ctx o.seq) o) (ends_of_cores rfl rfl rfl rfl)
  have written := removed.trans (ends_writeScalarNow _ o.core o.ctx o.tok tok)
  exact ends_ite written ((written.trans (ends_traceToken ..)).trans (ends_withCore _ _ rfl))

theorem ends_addStop (s : State) (core ctx : Nat) (t : BitVec 32 → TrapInfo) : Ends s (addStop s core ctx t) :=
  .trans (t := { s with fresh := s.fresh + 1 }) (ends_of_cores rfl rfl rfl rfl) (ends_withCtx _ core ctx rfl rfl)

theorem ends_settleEnd (s : State) (o : Op) (tok : Word) (stop : Option TrapInfo) : Ends s (settleEnd s o tok stop) := by
  unfold settleEnd
  dsimp only
  split
  · exact ends_ite (ends_endToken ..) ((ends_endToken ..).trans (ends_addStop ..))
  · exact ends_endToken ..

theorem ends_endOp (s : State) (o : Op) (tok : Word) (stop : Option TrapInfo) : Ends s (endOp s o tok stop) :=
  ends_ite (ends_of_cores rfl rfl rfl rfl) (ends_settleEnd ..)

theorem ends_dropReloc (s : State) (o : Op) : Ends s (dropReloc s o) := by
  unfold dropReloc
  split
  · exact ends_of_cores rfl rfl rfl rfl
  · exact .refl s

theorem ends_failCommand (s : State) (o : Op) (cause : Nat) (addr : Word) : Ends s (failCommand s o cause addr) :=
  ends_ite (.refl s) (ends_ite ((ends_dropReloc s o).trans (ends_endOp ..)) (ends_endOp ..))

theorem ends_endStream (s : State) (core ctx q : Nat) (st : Stream) (cause : Nat) (addr detail : Word) (index : BitVec 32) :
    Ends s (endStream s core ctx q st cause addr detail index) := by
  unfold endStream streamStop putStream
  exact (ends_addStop ..).trans (ends_withCtx _ core ctx rfl rfl)

theorem ends_failEngine (s : State) (r : Req) (seq cause : Nat) (addr : Word) : Ends s (failEngine s r seq cause addr) := by
  have removed : Ends s (removeReq (dropPacket s r.id) r.id) := ⟨List.filter_sublist, .refl _, rfl, waitsKept_of_cores rfl⟩
  unfold failEngine
  dsimp only
  split
  · exact removed.trans (ends_failCommand ..)
  · split
    · exact removed.trans (ends_endStream ..)
    · exact removed

theorem ends_dropOpReqs (s : State) (r : Req) : Ends s (dropOpReqs s r) :=
  ⟨List.filter_sublist, List.filter_sublist, rfl, waitsKept_of_cores rfl⟩

theorem ends_failDirect (s : State) (r : Req) (cause : Nat) (addr : Word) : Ends s (failDirect s r cause addr) := by
  refine (ends_dropOpReqs s r).trans ?_
  unfold failDirect
  dsimp only
  split
  · exact ends_endOp ..
  · exact ends_ite (.refl _) (ends_addStop ..)

theorem ends_failReq (s : State) (r : Req) (cause : Nat) : Ends s (failReq s r cause) := by
  unfold failReq
  dsimp only
  split
  · exact ends_failEngine ..
  · exact ends_failDirect ..

/-- The command of a direct access that ends: an atomic's with an error token, a load's without one. -/
def endDirect (s : State) (r : Req) : State :=
  match reqOp s r with
  | some o => (match r.kind with | .atomic .. => finishOp (dropOpReqs s r) o (tokenError 0) | _ => removeOp (dropOpReqs s r) o)
  | none => dropOpReqs s r

theorem endAccess_direct {r : Req} (h : r.kind.engineSeq = none) :
    endAccess s r = if r.orphan then endDirect s r else addUnc (endDirect s r) r.core r.ctx (r.pas.headD 0) := by
  simp only [endAccess, h]
  rfl

theorem ends_endDirect (s : State) (r : Req) : Ends (dropOpReqs s r) (endDirect s r) := by
  unfold endDirect
  split
  · split
    · exact ends_endToken ..
    · exact ends_of_cores rfl rfl rfl rfl
  · exact .refl _

theorem ends_addUnc (s : State) (core ctx pa : Nat) : Ends s (addUnc s core ctx pa) := ends_withCtx s core ctx rfl rfl

theorem ends_endAccess (s : State) (r : Req) : Ends s (endAccess s r) := by
  cases h : r.kind.engineSeq with
  | some q =>
    simp only [endAccess, h]
    exact ends_failReq ..
  | none =>
    rw [endAccess_direct h]
    have ended := (ends_dropOpReqs s r).trans (ends_endDirect s r)
    exact ends_ite ended (ended.trans (ends_addUnc ..))

/-- Once the requests of a direct access are dropped, none of its number is outstanding. -/
theorem findReq_of_dropped {r : Req} (h : Ends (dropOpReqs s r) t) : findReq t r.id = none := by
  refine List.find?_eq_none.mpr fun q hq hid => ?_
  have kept := (List.mem_filter.mp (h.reqs.subset hq)).2
  simp only [beq_iff_eq] at hid
  simp [hid] at kept

end Ends

/-! ### Acknowledgements, timeouts and refusals -/

section Answers

variable {s : State} {qp : Nat} {ecn : Bool}

theorem exec_peerAcknowledgement (hn : qp < 1024) {x : Outbound} (hx : s.outbound.find? (fun x => x.qp == qp) = some x) :
    exec (.peerAcknowledgement ⟨qp, ecn⟩) s = performing (.next (acknowledge (notifyMark s qp ecn) x)) := by
  show execPeerAcknowledgement _ s = _
  simp only [execPeerAcknowledgement, if_pos hn, hx]

theorem acknowledge_note {x : Outbound} (h : x.req = none) : acknowledge s x = eraseWork s x := by
  simp [acknowledge, h]

theorem notifyMark_kept (s : State) (qp : Nat) (ecn : Bool) : notifyMark s qp ecn =
    { s with answers := (if ecn then [.congestion qp] else []) ++ s.answers } := by
  cases ecn <;> rfl

/-- The acknowledgement of a command's write: the write has performed, and its packet becomes the response. -/
theorem acknowledge_write {x : Outbound} {p : NetPacket} {r : Req} {q tag a : Nat} {cells : List Host.Cell}
    (hx : x.req = some p.id) (hp : findPacket s p.id = some p) (hr : findReq s p.id = some r) (hm : s.relocs = [])
    (hk : r.kind = .write q tag a cells) :
    acknowledge s x = respond (updateReq (eraseWork s x) { r with value := [0], performed := true }) p [] 0 := by
  have hp' : findPacket (eraseWork s x) p.id = some p := hp
  have hr' : findReq (eraseWork s x) p.id = some r := hr
  have still : mirrorAway (eraseWork s x) cells = eraseWork s x := by
    have hm' : (eraseWork s x).relocs = [] := hm
    rw [mirrorAway, hm']
  simp only [acknowledge, hx, Option.bind_some, hp', answerAway, hr', ne_eq, not_true_eq_false, if_false, awayData, hk,
    performAway, still]

theorem unc_addUnc (s : State) (core ctx pa : Nat) : uncStop pa ∈ (ctxOf (addUnc s core ctx pa) core ctx).unc := by
  rw [addUnc, ctxOf_withCtx]
  exact List.mem_append_right _ List.mem_cons_self

theorem mem_insertStop (t : TrapInfo) (l : List TrapInfo) : t ∈ insertStop t l := by
  induction l with
  | nil => exact List.mem_cons_self
  | cons u l ih =>
    unfold insertStop
    split
    · exact List.mem_cons_self
    · exact List.mem_cons_of_mem u ih

theorem stops_addStop (s : State) (core ctx : Nat) (t : BitVec 32 → TrapInfo) :
    ∃ e, t e ∈ (ctxOf (addStop s core ctx t) core ctx).stops := by
  rw [addStop, ctxOf_withCtx]
  exact ⟨_, mem_insertStop _ _⟩

/-- A direct access that gets no answer in time ends, with an error of its context at its address. -/
theorem timeOut_direct {p : NetPacket} {r : Req} (hr : findReq s p.id = some r) (hk : r.kind.engineSeq = none)
    (ho : r.orphan = false) (hd : p.pkt.dstDev ≠ s.device) (hv : p.pkt.vc = 0) (ht : p.pkt.typ ≠ 7)
    (hs : p.sent + timeoutTicks s ≤ s.time) :
    timeOut s p = addUnc (endDirect s r) r.core r.ctx (r.pas.headD 0) := by
  have due : ¬ (p.pkt.dstDev = s.device ∨ p.pkt.vc = 1 ∨ p.pkt.typ = 7 ∨ s.time < p.sent + timeoutTicks s) := by
    rintro (h | h | h | h)
    · exact hd h
    · exact absurd (hv.symm.trans h) (by decide)
    · exact ht h
    · omega
  rw [timeOut, if_neg due, if_neg (by simp [hv])]
  simp only [hr, endAccess_direct hk, ho, Bool.false_eq_true, if_false]

/-- The end of the send work of a request ends the request. -/
theorem endWork_request {x : Outbound} {r : Req} (end_ : State → Req → State) (hn : x.note = none) (hreq : x.req = some r.id)
    (hr : findReq s r.id = some r) : endWork end_ s x = end_ (eraseWork s x) r := by
  have kept : findReq (eraseWork s x) r.id = some r := hr
  simp only [endWork, hn, hreq, Option.bind_some, kept]

/-- The stop of a context whose direct access is refused (R500). -/
def refusalStop (cause pa : Nat) (e : BitVec 32) : TrapInfo :=
  { cause := cause, addr := BitVec.ofNat 64 pa, detail := 0, index := 0, engine := 2, slot := 2, cseq := 0, estat := e }

theorem failReq_store {r : Req} {cells : List Host.Cell} (hk : r.kind = .store cells) (ho : r.orphan = false) (cause : Nat) :
    failReq s r cause = addStop (dropOpReqs s r) r.core r.ctx (refusalStop cause (r.pas.headD 0)) := by
  simp only [failReq, failDirect, reqOp, hk, ReqKind.engineSeq, ho, Bool.false_eq_true, if_false]
  rfl

/-- A refused store ends, with a stop of its context for the permission at its address. -/
theorem exec_roceNakReceived {k : Nat} {x : Outbound} {r : Req} {cells : List Host.Cell} (hq : Quiet s)
    (hx : s.outbound[k]? = some x) (hn : x.note = none) (hreq : x.req = some r.id) (hr : findReq s r.id = some r)
    (ho : r.orphan = false) (hk : r.kind = .store cells) :
    ∃ u, exec (.roceNakReceived ⟨k, ecn⟩) s = .next u ∧ findReq u r.id = none ∧
      ∃ t ∈ (ctxOf u r.core r.ctx).stops, t.cause = 0x11 ∧ t.addr = BitVec.ofNat 64 (r.pas.headD 0) := by
  have marked : Ends s (notifyMark s x.qp ecn) := by
    rw [notifyMark_kept]
    exact ends_of_cores rfl rfl rfl rfl
  have found : findReq (notifyMark s x.qp ecn) r.id = some r := by
    rw [notifyMark_kept]
    exact hr
  have erased : WaitsKept (notifyMark s x.qp ecn) (eraseWork (notifyMark s x.qp ecn) x) := waitsKept_of_cores rfl
  have ended := endWork_request (fun s r => failReq s r causePerm) hn hreq found
  simp only [failReq_store hk ho] at ended
  have stops := ends_addStop (dropOpReqs (eraseWork (notifyMark s x.qp ecn) x) r) r.core r.ctx
    (refusalStop causePerm (r.pas.headD 0))
  obtain ⟨e, he⟩ := stops_addStop (dropOpReqs (eraseWork (notifyMark s x.qp ecn) x) r) r.core r.ctx
    (refusalStop causePerm (r.pas.headD 0))
  refine ⟨_, ?_, findReq_of_dropped stops, _, he, rfl, rfl⟩
  show execRoceNakReceived _ s = _
  simp only [execRoceNakReceived, hx, ended]
  exact performing_quiet hq (((marked.waits.trans erased).trans (ends_dropOpReqs _ r).waits).trans stops.waits)

end Answers

/-! ### Queue pairs, links and corrected errors -/

section QueuePairs

variable {s : State} {qp : Nat}

/-- The state of a queue pair's entry that its error writes (R490). -/
theorem errorState (e : BitVec 256) :
    (((e &&& ~~~(3#256 <<< 32)) ||| (2#256 <<< 32)).extractLsb' 32 2).toNat = 2 := by
  rw [BitVec.extractLsb'_or, BitVec.extractLsb'_and, show (~~~(3#256 <<< 32)).extractLsb' 32 2 = 0#2 by decide,
    show (2#256 <<< 32).extractLsb' 32 2 = 2#2 by decide]
  simp

theorem ends_endWork (s : State) (x : Outbound) : Ends (eraseWork s x) (endWork endAccess s x) := by
  unfold endWork
  dsimp only
  split
  · exact ends_of_cores rfl rfl rfl rfl
  · split
    · exact ends_endAccess ..
    · exact .refl _

/-- Send work of a queue pair that is ended piece by piece is gone when as many pieces have ended as there were. -/
theorem endWorks_gone (l : List Outbound) (s : State) (hl : ∀ x ∈ l, x.qp = qp)
    (h : (s.outbound.filter (fun x => x.qp == qp)).Subperm l) :
    (l.foldl (endWork endAccess) s).outbound.filter (fun x => x.qp == qp) = [] := by
  induction l generalizing s with
  | nil => exact List.subperm_nil.mp h
  | cons x l ih =>
    refine ih _ (fun y hy => hl y (List.mem_cons_of_mem x hy)) ?_
    have left : ((endWork endAccess s x).outbound.filter (fun x => x.qp == qp)).Sublist
        ((s.outbound.filter (fun x => x.qp == qp)).erase x) := by
      rw [List.erase_filter]
      exact (ends_endWork s x).outbound.filter _
    exact left.subperm.trans (by simpa using h.erase x)

theorem ends_endQueued (s : State) (qp : Nat) :
    (endQueued s qp).qps = s.qps ∧ WaitsKept s (endQueued s qp) ∧ ∀ x ∈ (endQueued s qp).outbound, x.qp ≠ qp := by
  let worked := (s.outbound.filter (fun x => x.qp == qp)).foldl (endWork endAccess) s
  have work : Ends s worked := Ends.foldl (fun s x =>
    .trans (t := eraseWork s x) ⟨.refl _, List.erase_sublist, rfl, waitsKept_of_cores rfl⟩ (ends_endWork s x)) _ s
  have packets : Ends worked (endQueued s qp) := by
    refine Ends.foldl (fun s p => ?_) _ worked
    split
    · exact ends_endAccess ..
    · refine .trans (t := failNote s p) ?_ (ends_of_cores rfl rfl rfl rfl)
      unfold failNote
      split <;> exact ends_of_cores rfl rfl rfl rfl
  have gone := endWorks_gone (s.outbound.filter (fun x => x.qp == qp)) s (fun x hx => by simpa using (List.mem_filter.mp hx).2)
    (List.Subperm.refl _)
  refine ⟨(work.trans packets).qps, (work.trans packets).waits, fun x hx hqp => ?_⟩
  have left : x ∈ worked.outbound.filter (fun x => x.qp == qp) :=
    List.mem_filter.mpr ⟨packets.outbound.subset hx, beq_iff_eq.mpr hqp⟩
  rw [gone] at left
  exact absurd left List.not_mem_nil

theorem exec_qpError (hq : Quiet s) (hn : qp < 1024) (h1 : qpState s qp = 1) :
    ∃ u, exec (.qpError qp) s = .next u ∧ qpState u qp = 2 ∧ ∀ x ∈ u.outbound, x.qp ≠ qp := by
  let marked : State :=
    { s with qps := Tbl.put s.qps qp ((Tbl.look 0 s.qps qp &&& ~~~(3#256 <<< 32)) ||| (2#256 <<< 32)) }
  obtain ⟨hqps, waits, gone⟩ := ends_endQueued marked qp
  refine ⟨logEvent (endQueued marked qp) (.qpFailed qp), ?_, ?_, gone⟩
  · show execQpError qp s = _
    rw [execQpError, if_neg (by simp [hn, h1])]
    exact performing_quiet hq (.trans (t := marked) (waitsKept_of_cores rfl) (waits.trans (waitsKept_of_cores rfl)))
  · show ((Tbl.look 0 (endQueued marked qp).qps qp).extractLsb' 32 2).toNat = 2
    rw [hqps, Tbl.look_put_same, errorState]

theorem count_countCorrected (s : State) (w : ErrorUnit) :
    (((countCorrected s w).corrected.find? (fun e => e.1 == w)).map (·.2)).getD 0 =
      ((s.corrected.find? (fun e => e.1 == w)).map (·.2)).getD 0 + 1 := by
  have none : (s.corrected.filter (fun e => e.1 != w)).find? (fun e => e.1 == w) = none :=
    List.find?_eq_none.mpr fun e he => by simpa using (List.mem_filter.mp he).2
  simp [countCorrected, List.find?_append, none]

end QueuePairs

section Links

variable {s : State} {port : Nat}

/-- Bits of an append agree where those of its high part do. -/
theorem getLsbD_append_agree {v w i : Nat} {x y : BitVec v} {z : BitVec w} (h : w ≤ i → x.getLsbD (i - w) = y.getLsbD (i - w)) :
    (x ++ z).getLsbD i = (y ++ z).getLsbD i := by
  simp only [BitVec.getLsbD_append]
  split
  · rfl
  · next hi => exact h (by simpa using hi)

/-- The destination of a packet stands above the low 144 bits of its header (R464). -/
theorem header_low (p : Packet) (dst : BitVec 16) :
    (Packet.header { p with dst := dst }).extractLsb' 0 144 = (Packet.header p).extractLsb' 0 144 := by
  refine BitVec.eq_of_getLsbD_eq fun i hi => ?_
  simp only [BitVec.getLsbD_extractLsb', hi, decide_true, Bool.true_and, Nat.zero_add, Packet.header]
  iterate 13 refine getLsbD_append_agree fun _ => ?_
  omega

theorem exec_fabricDiscard (hp : port < 48) (hf : (portState s port).failed = false) (hw : s.powered = true) (x : LinkPacket) :
    (malformed x.header = true → exec (.fabricDiscard port x) s = .next (logEvent
      { s with edges := Tbl.put s.edges (port / 24) (Tbl.look 0 s.edges (port / 24) + 1) } (.discarded (port / 24)))) ∧
    (malformed x.header = false → s.bringup = .operational → s.rplay = none → (packetOfHeader x.header).dstDev = s.device →
      (packetOfHeader x.header).srcDev ≠ s.device → x.flits.length = (packetOfHeader x.header).ndata.toNat →
      (packetOfHeader x.header).vc ≠ 1 →
      exec (.fabricDiscard port x) s = .next (enterPacket s port (packetOfHeader x.header) x.flits)) := by
  have usable : ¬ (48 ≤ port ∨ (Tbl.look Port.init s.ports port).failed ∨ !s.powered) := by
    rw [portState] at hf
    simp [hp, hf, hw]
  refine ⟨fun hm => ?_, fun hm hb hr hd hs hl hv => ?_⟩ <;> show execFabricDiscard port x s = _ <;>
    rw [execFabricDiscard, if_neg usable]
  · rw [if_pos hm]
  · rw [if_neg (by simp [hm])]
    dsimp only
    rw [if_neg (by simp [hb, hr, hd, hs, hl]), if_neg fun h => hv h.1]

end Links

/-- Settles O53: each event's state written out, and every context waits for what it waited for. -/
theorem networkEvents : Obligations.NetworkEvents := by
  intro s hq direct
  refine ⟨?home, ?router, ?slack, ?arrivals, ?acknowledgement, ?timeout, ?refusal, ?discard, ?port, ?pair, ?corrected⟩
  case home =>
    intro p r g hp hr hg ht ho hl hrp hm performs value
    have hid : r.id = p.id := findReq_id hr
    have granted {v : State} {b : List Byte} (hk : r.kind.isAtomic = false) (hperf : performReq s r = some (v, b))
        (hw : WaitsKept s v) := exec_grant_performs hq hp hr hg ht ho hk hperf hw
    rw [← hid] at hr
    refine ⟨fun cells hk => ?_, fun q tag a cells hk => ?_, fun q tag a hk => ?_⟩
    · obtain ⟨v, hperf, hw, hmem, hgone⟩ := performReq_store hl hrp hm hk
      obtain ⟨u, x, hu, hx, hvc, hslack, -, hum, hur⟩ := granted (by rw [hk]; rfl) hperf hw
      exact ⟨u, x, hu, hx, hvc, hslack, hum.trans hmem, (findReq_of_reqs hur _).trans hgone⟩
    · obtain ⟨v, hperf, hw, hmem, hdone⟩ := performReq_write hl hrp hm hk hr
      obtain ⟨u, x, hu, hx, hvc, hslack, -, hum, hur⟩ := granted (by rw [hk]; rfl) hperf hw
      exact ⟨u, x, hu, hx, hvc, hslack, hum.trans hmem, (findReq_of_reqs hur _).trans hdone⟩
    · obtain ⟨v, hperf, hw, hmem, hdone⟩ := performReq_read hl hrp hk hr
      obtain ⟨u, x, hu, hx, hvc, hslack, hb, hum, hur⟩ := granted (by rcases hk with hk | hk <;> rw [hk] <;> rfl) hperf hw
      exact ⟨u, x, hu, hx, hvc, hslack, hum.trans hmem, hb, (findReq_of_reqs hur _).trans hdone⟩
  case router =>
    intro n out c hc hr p moves stands
    refine ⟨fun x y i hb => ?_, fun x y place input hb hp hrest => ?_, fun e hp => ?_, fun e r k w hp hreq ho hk hw => ?_⟩
    · obtain ⟨hmem, hcores⟩ := turnGroup_kept (countGrant s n out c) p
      exact ⟨_, exec_routerGrant_next hq hc (passOn_buffer hb) (waitsKept_of_cores hcores), hmem, findPacket_movePacket ..⟩
    · exact ⟨_, exec_routerGrant_next hq hc (passOn_rest hb hp hrest) (waitsKept_of_cores rfl), rfl, findPacket_movePacket ..⟩
    · have left := exec_routerGrant_next hq hc (passOn_edge hp hr) (by split <;> exact waitsKept_of_cores rfl)
      by_cases hv : p.pkt.vc = 1
      · rw [if_pos hv] at left
        exact ⟨_, left, rfl, rfl, by rw [if_pos hv]; exact findPacket_dropPacket ..⟩
      · rw [if_neg hv] at left
        exact ⟨_, left, rfl, rfl, by rw [if_neg hv]; exact findPacket_movePacket ..⟩
    · have sent := sendRdma_window (s := countGrant s n out c) hw k (some r.id) none
      have served := passOn_host (s := countGrant s n out c) (out := out) hp hreq ho hk hr
      rw [sent] at served
      exact ⟨_, exec_routerGrant_next hq hc served (waitsKept_of_cores rfl), rfl, findPacket_movePacket .., rfl⟩
  case slack =>
    intro p hp ho hs
    have takes : exec (.slackDecrement p.id) s = .next (takeSlack s p) := show execSlackDecrement p.id s = _ by
      rw [execSlackDecrement, hp]
    exact ⟨_, _, takes, findPacket_takeSlack hp ho, decremented_slack hs⟩
  case arrivals =>
    intro p hp hu hr ctx core resolves
    exact ⟨fun h4 hc hx ht hk => exec_flagPacketArrive hq hr hp hu h4 rfl hc hx ht hk,
      fun h5 hd hc hl => exec_noticeArrive hr hp hu h5 hd hc hl, fun h6 hd hc hl => exec_acaddArrive hr hp hu h6 hd hc hl⟩
  case acknowledgement =>
    intro qp ecn x hn hx
    refine ⟨fun hreq => ?_, fun p r q tag a cells hreq hp hr hm hk => ?_⟩
    · refine ⟨_, (exec_peerAcknowledgement hn hx).trans (performing_quiet hq ?_), ?_⟩
      all_goals rw [acknowledge_note hreq, notifyMark_kept]
      · exact waitsKept_of_cores rfl
      · exact ⟨rfl, rfl, rfl⟩
    · have hid : r.id = p.id := findReq_id hr
      have done := acknowledge_write (s := { s with answers := (if ecn then [.congestion qp] else []) ++ s.answers })
        hreq hp hr hm hk
      refine ⟨_, (exec_peerAcknowledgement hn hx).trans (performing_quiet hq ?_), ?_⟩
      all_goals rw [notifyMark_kept, done]
      · exact waitsKept_of_cores rfl
      · exact ⟨rfl, findReq_updateReq (q := { r with value := [0], performed := true }) (hid ▸ hr)⟩
  case timeout =>
    rintro p r hp hr ⟨hk, ho⟩ hd hv ht hs
    have ends := (ends_endDirect s r).trans (ends_addUnc _ r.core r.ctx (r.pas.headD 0))
    have hu : exec (.fabricTimeout p.id) s = performing (.next (timeOut s p)) := show execFabricTimeout p.id s = _ by
      rw [execFabricTimeout, hp]
    rw [timeOut_direct hr hk ho hd hv ht hs, performing_quiet hq ((ends_dropOpReqs s r).trans ends).waits] at hu
    exact ⟨_, hu, findReq_of_dropped ends, _, unc_addUnc .., rfl, rfl⟩
  case refusal =>
    rintro k ecn x r cells hx hn hreq hr ⟨-, ho⟩ hk
    exact exec_roceNakReceived hq hx hn hreq hr ho hk
  case discard =>
    intro port h flits cause hp hf hw edge p
    obtain ⟨discards, enters⟩ := exec_fabricDiscard hp hf hw ⟨h, flits, cause⟩
    exact ⟨discards, fun hm hb hr hd hs hl hv => ⟨_, _, enters hm hb hr hd hs hl hv, rfl, rfl, rfl, header_low p _, rfl⟩⟩
  case port =>
    intro port hp hf
    have runs : ¬ (48 ≤ port ∨ (portState s port).failed = true) := by simp [hp, hf]
    exact ⟨show execFlitRetransmit port s = _ by rw [execFlitRetransmit, if_neg runs],
      show execPortFailure port s = _ by rw [execPortFailure, if_neg runs]⟩
  case pair =>
    intro qp hn
    exact ⟨if_pos hn, exec_qpError hq hn⟩
  case corrected =>
    intro w count
    exact ⟨_, performing_quiet hq (waitsKept_of_cores rfl), count_countCorrected s w⟩

end Sys2Proof.Machine

namespace Sys2Proof.Machine

/-! ## Extraction patterns (O31) -/

/-- What an image has when its pattern is valid (R203, R204): one target format, and fields that fit its elements. -/
theorem patternOf_valid {hd : Word} {ents : List (BitVec 32)} (h : (patternOf hd ents).valid = true) :
    ∀ f ∈ (patternOf hd ents).fields, 1 ≤ f.width ∧ f.width ≤ elemBits (patternOf hd ents).tag := by
  unfold patternOf at h ⊢
  dsimp only at h ⊢
  split at h
  case isFalse => exact absurd h (by simp [Pattern.init])
  case isTrue valid =>
    rw [if_pos valid]
    intro f hf
    simp only [Bool.and_eq_true, List.all_eq_true, decide_eq_true_eq, beq_iff_eq] at valid
    obtain ⟨⟨⟨⟨⟨-, bounds⟩, -⟩, target⟩, -⟩, fits⟩ := valid
    have head : ((ents.filterMap fieldOf).head?.map (·.tfmt)).getD 1 = f.tfmt := by
      have := target f hf
      cases fs : (ents.filterMap fieldOf).head? with
      | none => exact absurd hf (List.head?_eq_none_iff.mp fs ▸ List.not_mem_nil)
      | some g =>
        rw [fs] at this
        exact this.symm
    have fit := fits f hf
    unfold fieldFits at fit
    refine ⟨(bounds f hf).2.1, ?_⟩
    simp only [Pattern.tag, head]
    split at fit
    · exact of_decide_eq_true fit
    · simp only [Bool.and_eq_true, beq_iff_eq] at fit
      exact fit.1.le

/-- The sign extension of a field, as numbers. -/
theorem toNat_signExtend_field {w n v : Nat} (hn : w ≤ n) (hv : v < 2 ^ w) :
    ((BitVec.ofNat w v).signExtend n).toNat = if 2 ^ (w - 1) ≤ v then v + 2 ^ n - 2 ^ w else v := by
  have wide : 2 ^ w ≤ 2 ^ n := Nat.pow_le_pow_right (by decide) hn
  rw [BitVec.toNat_signExtend, BitVec.msb_eq_decide, BitVec.toNat_setWidth, BitVec.toNat_ofNat, Nat.mod_eq_of_lt hv,
    Nat.mod_eq_of_lt (by omega)]
  simp only [decide_eq_true_eq]
  split <;> omega

/-- Element `j` of a row packed over zeros is the list's, modulo its width, and zero past the list. -/
theorem elemOf_packRow {tag : Nat} {l : List Nat} {j : Nat} (hj : j < elemsPerRow tag) :
    elemOf tag (packRow (elemBits tag) 0 l) j = l.getD j 0 % 2 ^ elemBits tag := by
  have packed : packRow (elemBits tag) 0 l = BitVec.ofNat 4096 (packedElems (elemBits tag) l) := by
    have vacated (n : Nat) (v : Row) : (((0 : Row) >>> n) <<< n) ||| v = v := by simp
    simp only [packRow, vacated, ite_self]
    rfl
  have room : (j + 1) * elemBits tag ≤ 4096 := (Nat.le_div_iff_mul_le (elemBits_pos tag)).mp (Nat.succ_le_of_lt hj)
  rw [Nat.succ_mul] at room
  refine Nat.eq_of_testBit_eq fun i => ?_
  rw [testBit_elemOf, packed, BitVec.getLsbD_ofNat]
  by_cases hi : i < elemBits tag
  · rw [testBit_packedElems hi, decide_eq_true hi, decide_eq_true (by omega : j * elemBits tag + i < 4096)]
    rfl
  · simp [hi, Nat.testBit_mod_two_pow]

/-- Settles O31: the row packs the pattern's elements, and each fits the width of its element. -/
theorem patternExtraction : Obligations.PatternExtraction := by
  intro hd ents src j p valid hj
  have width := patternOf_valid valid
  rw [Pattern.extract, elemOf_packRow hj, List.getD_eq_getElem?_getD,
    List.getElem?_map, List.getElem?_range hj, Option.map_some, Option.getD_some, Pattern.element]
  cases found : p.fields.find? (fun f => f.lane = j % p.group) with
  | none => exact Nat.zero_mod _
  | some f =>
    obtain ⟨low, high⟩ := width f (List.mem_of_find?_eq_some found)
    have fits : src / 2 ^ (j / p.group * p.period + f.offset) % 2 ^ f.width < 2 ^ f.width :=
      Nat.mod_lt _ (Nat.two_pow_pos _)
    have wide : 2 ^ f.width ≤ 2 ^ elemBits p.tag := Nat.pow_le_pow_right (by decide) high
    simp only [Nat.shiftRight_eq_div_pow]
    by_cases sgn : f.sgn = true
    · rw [if_pos sgn, Nat.mod_eq_of_lt (BitVec.isLt _), toNat_signExtend_field high fits]
      simp only [sgn, true_and]
      rfl
    · rw [if_neg sgn, if_neg (fun h => sgn h.1), Nat.mod_eq_of_lt (fits.trans_le wide)]

end Sys2Proof.Machine

namespace Sys2Proof.Machine

/-! ## Integer atomics (O40) -/

theorem signedOf_eq (w v : Nat) (hw : 0 < w) :
    signedOf w v = if 2 ^ (w - 1) ≤ v % 2 ^ w then ((v % 2 ^ w : Nat) : Int) - 2 ^ w else ((v % 2 ^ w : Nat) : Int) := by
  have double : 2 ^ w = 2 * 2 ^ (w - 1) := by rw [← Nat.pow_succ', Nat.succ_eq_add_one, Nat.sub_add_cancel hw]
  rw [signedOf, BitVec.toInt_eq_toNat_cond, BitVec.toNat_ofNat]
  push_cast
  by_cases h : 2 ^ (w - 1) ≤ v % 2 ^ w
  · rw [if_pos h, if_neg (by omega)]
  · rw [if_neg h, if_pos (by omega)]

theorem signedOf_mod (w v : Nat) : signedOf w (v % 2 ^ w) = signedOf w v := by
  rw [signedOf, signedOf, BitVec.toInt_eq_toNat_bmod, BitVec.toInt_eq_toNat_bmod, BitVec.toNat_ofNat, BitVec.toNat_ofNat,
    Nat.mod_mod]

/-- The atomic of an integer type works in the width of the type, on the low bits of its operands. -/
theorem atomicNew_int {ty : BitVec 2} (h2 : ty ≠ 2) (aop : BitVec 3) (old b c : Nat) :
    atomicNew aop ty old b c = atomicInt aop.toNat (if ty = 1 then 64 else 32) old (b % 2 ^ if ty = 1 then 64 else 32)
      (c % 2 ^ if ty = 1 then 64 else 32) := by
  have width : 8 * atomicBytes ty = if ty = 1 then 64 else 32 := by
    unfold atomicBytes
    split <;> rfl
  rw [atomicNew, if_neg h2, width]

/-- The new value fits the width of the old one and of the operands. -/
theorem atomicInt_lt {aop w old b c : Nat} (hold : old < 2 ^ w) (hb : b < 2 ^ w) : atomicInt aop w old b c < 2 ^ w := by
  unfold atomicInt signedPick
  split
  · exact Nat.mod_lt _ (Nat.two_pow_pos w)
  · split <;> assumption
  · split <;> assumption
  · exact Nat.and_lt_two_pow _ hb
  · exact Nat.or_lt_two_pow hold hb
  · exact Nat.xor_lt_two_pow hold hb
  · exact hb
  · split <;> assumption

/-- Settles O40, operation by operation. -/
theorem atomicNewValue : Obligations.AtomicNewValue := by
  intro ty old b c h2 _ w sgn hold
  have eq : ∀ aop, atomicNew aop ty old b c = atomicInt aop.toNat w old (b % 2 ^ w) (c % 2 ^ w) :=
    fun aop => atomicNew_int h2 aop old b c
  have hw : 0 < w := by dsimp only [w]; split <;> decide
  have signed : ∀ v, signedOf w v = sgn v := fun v => signedOf_eq w v hw
  have hb : b % 2 ^ w < 2 ^ w := Nat.mod_lt _ (Nat.two_pow_pos w)
  have pick : ∀ m, signedPick w m old (b % 2 ^ w) =
      if sgn old < sgn b then (if m then b % 2 ^ w else old) else (if m then old else b % 2 ^ w) := fun m => by
    rw [signedPick, signedOf_mod, signed, signed]
  refine ⟨?_, ?_, ?_, fun i hi => ⟨?_, ?_, ?_⟩, eq 6, eq 7, fun aop => ?_⟩
  · rw [eq]; exact Nat.add_mod_mod ..
  · rw [eq]; exact pick false
  · rw [eq]; exact pick true
  · rw [eq]; change (old &&& b % 2 ^ w).testBit i = _
    rw [Nat.testBit_and, Nat.testBit_mod_two_pow, decide_eq_true hi, Bool.true_and]
  · rw [eq]; change (old ||| b % 2 ^ w).testBit i = _
    rw [Nat.testBit_or, Nat.testBit_mod_two_pow, decide_eq_true hi, Bool.true_and]
  · rw [eq]; change (old ^^^ b % 2 ^ w).testBit i = _
    rw [Nat.testBit_xor, Nat.testBit_mod_two_pow, decide_eq_true hi, Bool.true_and]
  · rw [eq]; exact atomicInt_lt hold hb

end Sys2Proof.Machine

namespace Sys2Proof.Machine

/-! ## Scratchpad loads and stores (O28) -/

/-- A check that passes hands its answer to the rest. -/
theorem bind_of_ok {α β : Type} {x : Except Stop α} {f : α → Except Stop β} {a : α} {r : Except Stop β} (hx : x = .ok a)
    (hf : f a = r) : (x >>= f) = r := by rw [hx, except_ok_bind, hf]

/-- Settles O28: every check passes, and the bytes are those of the scratchpad. -/
theorem scratchpadScalars : Obligations.ScratchpadScalars := by
  intro s d a h sx sz off ra addr n align loc v
  have base := readS_ok (ra a (List.mem_singleton_self a))
  refine ⟨exec_of_ok rfl ?_, fun rd => exec_of_ok rfl ?_⟩
  · exact bind_of_ok base (bind_of_ok rfl (bind_of_ok (aligned_ok 2 2 align) (bind_of_ok (spmLocal_ok 2 2 loc) rfl)))
  · exact bind_of_ok base (bind_of_ok (readS_ok (rd d (List.mem_singleton_self d)))
      (bind_of_ok (aligned_ok 2 2 align) (bind_of_ok (spmLocal_ok 2 2 loc) rfl)))

/-! ## Scratchpad rows and patterns (O30) -/

theorem patternSlot_ok {s : State} {pat : BitVec 3} (valid : (Tbl.look Pattern.init (me s).patterns pat.toNat).valid = true) :
    patternSlot s pat = .ok (Tbl.look Pattern.init (me s).patterns pat.toNat) := if_pos valid

/-- A part of a run of bytes of memory. -/
theorem memBytes_part {m : List Host.Cell} {a n k l : Nat} (h : k + l ≤ n) :
    ((memBytes m a n).drop k).take l = memBytes m (a + k) l := by
  induction n generalizing a k l with
  | zero =>
    obtain ⟨rfl, rfl⟩ : k = 0 ∧ l = 0 := by omega
    rfl
  | succ n ih =>
    cases k with
    | zero =>
      cases l with
      | zero => rfl
      | succ l => exact congrArg (memByte m a :: ·) (ih (a := a + 1) (k := 0) (by omega))
    | succ k => rw [memBytes, List.drop_succ_cons, ih (by omega), Nat.add_right_comm, Nat.add_assoc]

theorem spmSlice_part {s : State} {off n k l : Nat} (h : k + l ≤ n) :
    ((spmSlice s off n).drop k).take l = memBytes s.mem (spmAddr s.cur.1 (off + k)) l := by
  rw [spmSlice, spmRead, memBytes_part h, spmAddr, Nat.add_assoc]
  rfl

/-- A row that a load reads stands within the rows (R206). -/
theorem row_inside {r rows : Nat} (rb : Nat) (hr : r < rows) : r * rb + rb ≤ rows * rb := by
  rw [← Nat.succ_mul]
  exact Nat.mul_le_mul_right rb hr

/-- The scales stand after the rows (R206). -/
theorem rows_le_scaleArea (rows rb : Nat) : rows * rb ≤ scaleArea rows rb := by
  unfold scaleArea ceilDiv
  omega

/-- What `ld.x` writes, from the bytes of the scratchpad (R206). -/
theorem loadWrites_spmSlice (s : State) (p : Pattern) (x rows addr : Nat) (sc : Bool) (old : Tile) :
    loadWrites p x rows sc old (spmSlice s addr (loadSpan p rows sc)) =
      (List.range rows).map (fun r => Write.tileRow x r
          (p.extract (ofBytes (memBytes s.mem (spmAddr s.cur.1 (addr + r * p.rowBytes)) p.rowBytes)))
          (if sc then BitVec.ofNat 128
              (ofBytes (memBytes s.mem (spmAddr s.cur.1 (addr + (scaleArea rows p.rowBytes + 16 * r))) 16))
            else if isScaled p.tag then defaultScales else old.scales r)) ++
        [.tileTag x (BitVec.ofNat 4 p.tag)] ++
        (if sc then [.tileSsc x (BitVec.ofNat 128
            (ofBytes (memBytes s.mem (spmAddr s.cur.1 (addr + (scaleArea rows p.rowBytes + 16 * rows))) 16)))]
          else if isScaled p.tag then [.tileSsc x defaultSuper] else []) := by
  have inRows : ∀ r < rows, r * p.rowBytes + p.rowBytes ≤ loadSpan p rows sc := fun r hr => by
    have row := row_inside p.rowBytes hr
    have area := rows_le_scaleArea rows p.rowBytes
    unfold loadSpan
    split <;> omega
  have inScales : ∀ r ≤ rows, sc = true → scaleArea rows p.rowBytes + 16 * r + 16 ≤ loadSpan p rows sc := fun r hr hsc => by
    rw [loadSpan, if_pos hsc]
    omega
  refine congrArg₂ (· ++ ·) (congrArg (· ++ _) (List.map_congr_left fun r hr => ?row)) ?super
  case row =>
    have hr := List.mem_range.mp hr
    rw [spmSlice_part (inRows r hr)]
    by_cases hsc : sc = true
    · rw [if_pos hsc, if_pos hsc, spmSlice_part (inScales r hr.le hsc)]
    · rw [if_neg hsc, if_neg hsc]
  case super =>
    by_cases hsc : sc = true
    · rw [if_pos hsc, if_pos hsc, spmSlice_part (inScales rows le_rfl hsc)]
    · rw [if_neg hsc, if_neg hsc]

theorem rowBytes_length (r : Row) : (rowBytes r).length = 512 := toBytes_length ..

theorem storeBytes_length (t : Tile) (rows : Nat) (sc : Bool) :
    (storeBytes t rows sc).length = 512 * rows + if sc then 16 * rows + 16 else 0 := by
  have data := flatMap_length (fun r => rowBytes_length (t.row r)) (List.range rows)
  have scales := flatMap_length (fun r => toBytes_length 16 (t.scales r).toNat) (List.range rows)
  rw [List.length_range] at data scales
  unfold storeBytes
  cases sc with
  | false => exact data
  | true =>
    rw [if_pos rfl, if_pos rfl, List.length_append, List.length_append, data, scales, toBytes_length]
    omega

/-- Row `r` of the rows, whatever follows them. -/
theorem rows_take (t : Tile) {rows r : Nat} (hr : r < rows) (l : List Byte) :
    (((List.range rows).flatMap (fun r => rowBytes (t.row r)) ++ l).drop (512 * r)).take 512 = rowBytes (t.row r) := by
  have size := fun r => rowBytes_length (t.row r)
  have before : 512 * r ≤ ((List.range rows).flatMap (fun r => rowBytes (t.row r))).length := by
    rw [flatMap_length size, List.length_range]
    omega
  rw [List.drop_append_of_le_length before, flatMap_drop size, List.drop_eq_getElem_cons (by simpa using hr),
    List.flatMap_cons, List.getElem_range, List.append_assoc, List.take_append_of_le_length (size r).ge,
    List.take_of_length_le (size r).le]

/-- Row `r` of what `st.x` writes (R207). -/
theorem storeBytes_row (t : Tile) {rows r : Nat} (sc : Bool) (hr : r < rows) :
    ((storeBytes t rows sc).drop (512 * r)).take 512 = rowBytes (t.row r) := by
  cases sc with
  | false =>
    rw [← rows_take t hr [], List.append_nil]
    rfl
  | true =>
    rw [storeBytes, if_pos rfl, List.append_assoc]
    exact rows_take t hr _

section Gather

variable {s : State} {p : Pattern} {x start list : Nat} {old : Tile}

theorem gatherWrites_eq (r : Nat) : gatherWrites s p x start list r old =
    if ofBytes (memBytes s.mem (spmAddr s.cur.1 (list + 2 * r)) 2) = 0xFFFF then
      [.tileRow x r 0 (if isScaled p.tag then defaultScales else old.scales r), .tileRcw x r 5]
    else [.tileRow x r (p.extract (ofBytes (memBytes s.mem (spmAddr s.cur.1
        (start + ofBytes (memBytes s.mem (spmAddr s.cur.1 (list + 2 * r)) 2) * p.rowBytes)) p.rowBytes)))
      (if isScaled p.tag then defaultScales else old.scales r)] := by
  unfold gatherWrites gatherIndex spmSlice spmRead
  by_cases pad : ofBytes (memBytes s.mem (spmAddr s.cur.1 (list + 2 * r)) 2) = 0xFFFF
  · simp only [if_pos pad]
  · simp only [if_neg pad]

theorem gatherBounds_ok {l : List Nat} (h : ∀ r ∈ l, ofBytes (memBytes s.mem (spmAddr s.cur.1 (list + 2 * r)) 2) ≠ 0xFFFF →
    Local s (start + ofBytes (memBytes s.mem (spmAddr s.cur.1 (list + 2 * r)) 2) * p.rowBytes) p.rowBytes) :
    gatherBounds s p start list l = .ok () := by
  induction l with
  | nil => rfl
  | cons r l ih =>
    have rest := ih fun q hq => h q (List.mem_cons_of_mem _ hq)
    have row := h r List.mem_cons_self
    unfold gatherBounds gatherIndex spmSlice spmRead
    by_cases pad : ofBytes (memBytes s.mem (spmAddr s.cur.1 (list + 2 * r)) 2) = 0xFFFF
    · simp only [if_pos pad, except_ok_bind, rest]
    · simp only [if_neg pad, spmLocal_ok 2 2 (row pad), except_ok_bind, rest]

end Gather

/-- FIELDS of an image's header (R203). -/
theorem imageFields (hd : Word) : (hd.extractLsb' 8 6).toNat = hd.toNat / 256 % 64 := by
  rw [BitVec.extractLsb'_toNat, Nat.shiftRight_eq_div_pow]

/-- Settles O30: the checks pass one by one, and the bytes of one span are read row by row. -/
theorem scratchpadRows : Obligations.ScratchpadRows := by
  intro s d a h sc pat slot off x ra addr p rows tile rb sb read
  have base := readS_ok (ra a (List.mem_singleton_self a))
  refine ⟨fun hr ht align => ⟨fun valid loc => exec_of_ok rfl ?loads, fun loc =>
    ⟨storeBytes tile rows sc, exec_of_ok rfl ?stores, storeBytes_length tile rows sc, fun r hr => storeBytes_row tile sc hr⟩⟩,
    fun hr ht valid align list loc gathered => exec_of_ok rfl ?gathers, fun align loc => ⟨fun few fields => exec_of_ok rfl ?sets,
    fun many => exec_of_ok rfl ?clears⟩⟩
  case loads =>
    refine bind_of_ok base (bind_of_ok (tileFree_ok ht) (bind_of_ok rfl (bind_of_ok (patternSlot_ok valid)
      (bind_of_ok (tileReg_ok 2 2 ht) (bind_of_ok (rowsCheck_ok 2 2 hr) (bind_of_ok (aligned_ok 2 2 align)
      (bind_of_ok (spmLocal_ok 2 2 loc) ?_)))))))
    exact congrArg (Except.ok <| results s 12 ·) (loadWrites_spmSlice s p x rows addr sc tile)
  case stores =>
    rw [← storeBytes_length tile] at loc
    exact bind_of_ok base (bind_of_ok (tileFree_ok ht) (bind_of_ok (tileReg_ok 2 2 ht) (bind_of_ok (rowsCheck_ok 2 2 hr)
      (bind_of_ok (aligned_ok 2 2 align) (bind_of_ok (spmLocal_ok 2 2 loc) rfl)))))
  case gathers =>
    have rowsAt : (off.setWidth 64 : Word).toNat % 64 = 0 := by
      rw [BitVec.toNat_setWidth_of_le (by decide)]
      exact align
    refine bind_of_ok base (bind_of_ok (tileFree_ok ht) (bind_of_ok (patternSlot_ok valid) (bind_of_ok (tileReg_ok 2 2 ht)
      (bind_of_ok (rowsCheck_ok 2 2 hr) (bind_of_ok (aligned_ok 2 2 list) (bind_of_ok (aligned_ok 2 2 rowsAt)
      (bind_of_ok (spmLocal_ok 2 2 loc) (bind_of_ok (gatherBounds_ok fun r hr => gathered r (List.mem_range.mp hr)) ?_))))))))
    simp only [gatherWrites_eq]
    rfl
  case sets =>
    refine bind_of_ok base (bind_of_ok (aligned_ok 2 2 align) (bind_of_ok (spmLocal_ok 2 2 loc) ?_))
    dsimp only
    rw [imageFields]
    exact (if_pos few).trans (bind_of_ok (spmLocal_ok 2 2 fields) rfl)
  case clears =>
    refine bind_of_ok base (bind_of_ok (aligned_ok 2 2 align) (bind_of_ok (spmLocal_ok 2 2 loc) ?_))
    dsimp only
    rw [imageFields]
    exact if_neg (Nat.not_le.mpr many)

end Sys2Proof.Machine

namespace Sys2Proof.Machine

/-! ## What an issue leaves (R194, R197) -/

theorem spmBounds_ok (engine slot : Nat) {off n : Nat} (h : n = 0 ∨ off + n ≤ Config.spmBytes) :
    spmBounds engine slot off n = .ok () := check_ok (by simpa using h)

/-- Between two states nothing changes that `Issued` speaks of but the operation itself: the operations, the executing context's
scalars, writes and number of its last command, and, but for a replay log, memory. -/
structure Aside (s t : State) : Prop where
  ops : t.ops = s.ops
  cur : t.cur = s.cur
  cseq : (me t).cseq = (me s).cseq
  scalars : (me t).scalars = (me s).scalars
  pend : (me t).pend = (me s).pend
  unlogged : s.rlog = none → t.rlog = none ∧ t.mem = s.mem

section Aside

variable {s t u : State} {o : Op}

theorem Aside.refl (s : State) : Aside s s := ⟨rfl, rfl, rfl, rfl, rfl, fun h => ⟨h, rfl⟩⟩

theorem Aside.trans (h : Aside s t) (g : Aside t u) : Aside s u :=
  ⟨g.ops.trans h.ops, g.cur.trans h.cur, g.cseq.trans h.cseq, g.scalars.trans h.scalars, g.pend.trans h.pend, fun hs =>
    have ht := h.unlogged hs
    ⟨(g.unlogged ht.1).1, (g.unlogged ht.1).2.trans ht.2⟩⟩

theorem Aside.foldl {α : Type} {f : State → α → State} (h : ∀ s x, Aside s (f s x)) (l : List α) (s : State) :
    Aside s (l.foldl f s) := by
  induction l generalizing s with
  | nil => exact .refl s
  | cons x l ih => exact (h s x).trans (ih _)

theorem aside_of_traffic (h : TrafficOnly s t) (log : t.rlog = s.rlog) : Aside s t := by
  have own : me t = me s := by rw [me, h.cur, h.ctxs, me]
  exact ⟨h.ops, h.cur, congrArg _ own, congrArg _ own, congrArg _ own, fun hs => ⟨log.trans hs, h.mem⟩⟩

/-- A change of what the executing context has besides. -/
theorem aside_withMe (s : State) (f : Ctx → Ctx) (hc : (f (me s)).cseq = (me s).cseq)
    (hs : (f (me s)).scalars = (me s).scalars) (hp : (f (me s)).pend = (me s).pend) : Aside s (withMe s f) := by
  have own := me_withMe s f
  exact ⟨rfl, rfl, (congrArg _ own).trans hc, (congrArg _ own).trans hs, (congrArg _ own).trans hp, fun h => ⟨h, rfl⟩⟩

theorem aside_withCore (s : State) (n : Nat) (f : CoreSt → CoreSt) (h : (f (coreOf s n)).ctxs = (coreOf s n).ctxs) :
    Aside s (withCore s n f) := aside_of_traffic (traffic_withCore s n f h) rfl

theorem aside_withHere (s : State) (f : CoreSt → CoreSt) (h : (f (here s)).ctxs = (here s).ctxs) : Aside s (withHere s f) :=
  aside_withCore s s.cur.1 f h

theorem Aside.hasRoom (h : Aside s t) (hr : HasRoom s) : HasRoom t := by
  rwa [HasRoom, outstanding, h.ops, h.cur]

/-- A command of the executing context at its issue: its own instruction and token, the context's next number, and nothing done
yet. -/
structure IssuedAs (s : State) (i : Instr) (tok : Reg) (o : Op) : Prop where
  core : o.core = s.cur.1
  ctx : o.ctx = s.cur.2
  seq : o.seq = ((me s).cseq + 1).toNat
  fresh : o.done = [] ∧ o.started = false ∧ o.susp = none
  instr : o.instr = i
  tok : o.tok = tok.toNat

theorem issuedAs_newOp (s : State) (i : Instr) (tok : Reg) : IssuedAs s i tok (newOp s i tok) :=
  ⟨rfl, rfl, rfl, ⟨rfl, rfl, rfl⟩, rfl, rfl⟩

theorem issueOp_room (hr : HasRoom s) (o : Op) : issueOp s o = .ok (withOp s o) := if_neg (Nat.not_le.mpr hr)

theorem startOp_room (hr : HasRoom s) (o : Op) : startOp s o = .ok (withOp s o) := issueOp_room hr o

/-- A context that has issued one more command (R64, R507). -/
def Ctx.withCommand (c : Ctx) (tok : Nat) : Ctx :=
  { c with cseq := c.cseq + 1, named := if tok = 0 || c.named.contains tok then c.named else c.named ++ [tok] }

theorem me_withOp (s : State) (o : Op) : me (withOp s o) = (me s).withCommand o.tok :=
  (show me (withOp s o) = me (withMe s (Ctx.withCommand · o.tok)) from rfl).trans (me_withMe s _)

theorem me_withCtx_cur {s t : State} (h : t.cur = s.cur) (f : Ctx → Ctx) : me (withCtx t s.cur.1 s.cur.2 f) = f (me t) := by
  rw [← h]
  exact ctxOf_withCtx ..

/-- A command is issued even where its instruction changes other things before and after. -/
theorem issued_of {r : State} {i : Instr} {tok : Reg} (before : Aside s r) (as : IssuedAs s i tok o)
    (after : Aside (withOp r o) u) : Issued s u o where
  ops := after.ops.trans (congrArg (· ++ [o]) before.ops)
  core := as.core
  ctx := as.ctx
  seq := as.seq
  cseq := (after.cseq.trans (congrArg Ctx.cseq (me_withOp r o))).trans (congrArg (· + 1) before.cseq)
  scalars := (after.scalars.trans (congrArg Ctx.scalars (me_withOp r o))).trans before.scalars
  pend := (after.pend.trans (congrArg Ctx.pend (me_withOp r o))).trans before.pend
  mem hs :=
    have hr := before.unlogged hs
    (after.unlogged hr.1).2.trans hr.2
  fresh := as.fresh

theorem starts_of {r : State} {i : Instr} {tok : Reg} {x : Except Stop State} {q : Op → State → Prop}
    (run : exec i s = settle s x) (hx : x = .ok u) (before : Aside s r) (as : IssuedAs s i tok o)
    (after : Aside (withOp r o) u) (hq : q o u) : Starts i s tok q :=
  ⟨u, o, exec_of_ok run hx, issued_of before as after, as.instr, as.tok, hq⟩

/-- A command that only its issue changes the state for. -/
theorem starts_withOp {i : Instr} {tok : Reg} {x : Except Stop State} {q : Op → State → Prop}
    (run : exec i s = settle s x) (hx : x = .ok (withOp s o)) (as : IssuedAs s i tok o) (hq : q o (withOp s o)) :
    Starts i s tok q := starts_of run hx (.refl s) as (.refl _) hq

end Aside

/-! ## Stream registers (O34) -/

theorem aside_cancelFetches (s : State) (core ctx : Nat) (st : Option Stream) : Aside s (cancelFetches s core ctx st) := by
  unfold cancelFetches
  split
  · exact .refl s
  · split
    · exact .refl s
    · exact ⟨rfl, rfl, rfl, rfl, rfl, fun h => ⟨h, rfl⟩⟩

theorem cancelFetches_me (s : State) (core ctx : Nat) (st : Option Stream) : me (cancelFetches s core ctx st) = me s := by
  unfold cancelFetches
  split
  · rfl
  · split <;> rfl

/-- A check that fails stops what follows it. -/
theorem check_stops {β : Type} {c : Bool} {e : Except Stop Unit} {f : Unit → Except Stop β} {x : Stop} (h : c = false)
    (he : e = .error x) : (check c e >>= f) = .error x := by
  rw [check, h, he]
  rfl

/-- Settles O34: each instruction's check passes or fails as its count says. -/
theorem streamInstructions : Obligations.StreamInstructions := by
  intro s t a b q dir win len h off ra n
  have base := readS_ok (ra a (List.mem_singleton_self a))
  have count : streamCount (sv s a) off = n := rfl
  refine ⟨fun room rb ad spm ab l1 l2 buf free idle => ?bind, fun room => ?drain, fun closed => ?closed,
    fun st found inward => ⟨fun low high => exec_of_ok rfl (bind_of_ok base ?adv),
      fun hw low high => exec_of_ok rfl (bind_of_ok base ?rp), fun most => exec_of_ok rfl (bind_of_ok base ?wait),
      fun past => exec_of_trap rfl (bind_of_ok base ?advStop), fun hw past => exec_of_trap rfl (bind_of_ok base ?rpStop),
      fun past => exec_of_trap rfl (bind_of_ok base ?waitStop)⟩⟩
  case bind =>
    refine starts_withOp rfl (bind_of_ok base (bind_of_ok (readS_ok (rb b (List.mem_singleton_self b)))
      (bind_of_ok (opRoom_ok room) (bind_of_ok (aligned_ok 2 2 ad) (bind_of_ok (aligned_ok 2 2 ab)
      (bind_of_ok (spmBounds_ok 2 2 (.inr spm)) (bind_of_ok (check_ok ?_) (startOp_room room _))))))))
      ⟨rfl, rfl, rfl, ⟨rfl, rfl, rfl⟩, rfl, rfl⟩ ⟨rfl, rfl⟩
    simp only [free, idle, decide_true, Bool.not_false, Bool.and_true, Bool.true_and, Bool.and_eq_true, decide_eq_true_eq]
    exact ⟨⟨l1, l2⟩, buf⟩
  case drain =>
    have kept := aside_cancelFetches s s.cur.1 s.cur.2 (Tbl.find (me s).streams q.toNat)
    refine ⟨_, newOp s (.qDrain t q) t, exec_of_ok rfl (bind_of_ok (opRoom_ok room)
      (bind_of_ok (startOp_room (kept.hasRoom room) _) rfl)), ?_, rfl, rfl, ?_, ?_⟩
    · rw [result_ops]
      exact congrArg (· ++ _) kept.ops
    · rw [result_mem]
      exact cancelFetches_mem ..
    · rw [(me_pend_result _ 1 (by exact Nat.succ_ne_zero _)).1, putStream,
        me_withCtx_cur (t := withOp _ _) kept.cur, me_withOp, Ctx.withCommand, cancelFetches_me, pushWrite]
      exact List.mem_append_right _ List.mem_cons_self
  case closed =>
    refine ⟨exec_of_trap rfl (bind_of_ok base ?_), exec_of_trap rfl (bind_of_ok base ?_), exec_of_trap rfl (bind_of_ok base ?_)⟩
    all_goals
      dsimp only
      cases found : Tbl.find (me s).streams q.toNat with
      | none => rfl
      | some st => exact check_stops (by simp [closed st found]) rfl
  case adv =>
    dsimp only
    rw [found]
    exact bind_of_ok (check_ok (by simpa [inward] using ⟨low, high⟩)) rfl
  case rp =>
    dsimp only
    rw [found]
    exact bind_of_ok (check_ok (by simpa [inward, hw] using ⟨low, high⟩)) rfl
  case wait =>
    dsimp only
    rw [found]
    exact bind_of_ok (check_ok (by simpa [inward, count] using most)) rfl
  case advStop =>
    dsimp only
    rw [found]
    refine check_stops ?_ rfl
    rw [inward, count]
    exact decide_eq_false fun ⟨low, high⟩ => past.elim (not_lt.mpr low) (not_lt.mpr high)
  case rpStop =>
    dsimp only
    rw [found]
    refine check_stops ?_ rfl
    rw [inward, hw, count]
    exact decide_eq_false fun ⟨low, high⟩ => past.elim (not_lt.mpr low) (not_lt.mpr high)
  case waitStop =>
    dsimp only
    rw [found]
    refine check_stops ?_ rfl
    rw [inward, count]
    exact decide_eq_false (not_le.mpr past)

end Sys2Proof.Machine

namespace Sys2Proof.Machine

/-! ## Commands of the copy engine and pin windows (O35) -/

theorem startCopy_ok {s : State} (o : Op) {dst src : Word} {ds ss : Bool} {n : Nat} (room : HasRoom s)
    (hd : (if ds then n else 0) = 0 ∨ dst.toNat + (if ds then n else 0) ≤ Config.spmBytes)
    (hs : (if ss then n else 0) = 0 ∨ src.toNat + (if ss then n else 0) ≤ Config.spmBytes) :
    startCopy s o dst src ds ss n = .ok (withOp s { o with a := dst, b := src, nums := [n] }) :=
  bind_of_ok (opRoom_ok room) (bind_of_ok (spmBounds_ok 2 2 hd) (bind_of_ok (spmBounds_ok 2 2 hs) (startOp_room room _)))

theorem rowSize_eq (rsz : BitVec 6) : rowSize rsz = if rsz = 0 then 4096 else 64 * rsz.toNat := by
  rw [rowSize, Nat.mul_comm]

/-! ### Pin windows (R235, R236, R388) -/

@[simp] theorem countLateUnit_pins (s : State) (p : Packet) : (countLateUnit s p).pins = s.pins := by
  unfold countLateUnit traceTrigger traceEvent
  dsimp only
  split_ifs <;> rfl

theorem sendUnit_pins (s : State) (p : NetPacket) : (sendUnit s p).pins = s.pins := by
  unfold sendUnit
  dsimp only
  split
  · exact countLateUnit_pins ..
  · rfl

theorem foldl_pins {α : Type} {f : State → α → State} (h : ∀ s x, (f s x).pins = s.pins) (l : List α) (s : State) :
    (l.foldl f s).pins = s.pins := by
  induction l generalizing s with
  | nil => rfl
  | cons x l ih => exact (ih _).trans (h s x)

theorem sendUnitAccess_pins (s : State) (src : Nat) (wr : Bool) (dst pa len : Nat) :
    (sendUnitAccess s src wr dst pa len).pins = s.pins := sendUnit_pins ..

theorem withLines_pins (s : State) (n : Nat) (f : Slice → Slice) : (withLines s n f).pins = s.pins :=
  foldl_pins (fun s _ => sendUnitAccess_pins s ..) _ _

theorem rehome_pins (s : State) : (rehome s).pins = s.pins := foldl_pins (fun s k => withLines_pins s k _) _ s

theorem forwards_rehome (s : State) : Forwards s (rehome s) :=
  Forwards.foldl (fun s k => (forwards_withSlice s k _).trans (Forwards.foldl (fun s _ => forwards_sendUnitAccess s ..) _ _)) _ s

theorem aside_rehome (s : State) : Aside s (rehome s) := aside_of_traffic (traffic_rehome s) (forwards_rehome s).rlog

/-- The pin windows and the share of the executing context in them change, and the lines find new homes. -/
def repinned (s : State) (pins : Tbl PinWin) (f : BitVec 16 → BitVec 16) : State :=
  rehome (withMe { s with pins := pins } (fun c => { c with pinUsed := f c.pinUsed }))

section Repinned

variable (s : State) (pins : Tbl PinWin) (f : BitVec 16 → BitVec 16)

theorem aside_repinned : Aside s (repinned s pins f) := by
  have put : Aside s { s with pins := pins } := ⟨rfl, rfl, rfl, rfl, rfl, fun h => ⟨h, rfl⟩⟩
  exact (put.trans (aside_withMe { s with pins := pins } (fun c => { c with pinUsed := f c.pinUsed }) rfl rfl rfl)).trans
    (aside_rehome _)

theorem repinned_pins : (repinned s pins f).pins = pins := rehome_pins _

theorem repinned_pinUsed : (me (repinned s pins f)).pinUsed = f (me s).pinUsed := by
  have kept := traffic_rehome (withMe { s with pins := pins } (fun c => { c with pinUsed := f c.pinUsed }))
  rw [repinned, me, kept.cur, kept.ctxs]
  exact congrArg Ctx.pinUsed (me_withMe { s with pins := pins } _)

end Repinned

section Assign

variable {s : State} {n base len : Nat} {mask : BitVec 64}

/-- A window that is free or the context's own, within its cap, becomes the context's (R235). -/
theorem assignPin_assigns (free : (pinAt s n).owner = none ∨ pinMine (pinAt s n) s.cur.1 s.cur.2 (me s) = true)
    (within : (me s).pinUsed.toNat - heldMib (pinAt s n) s.cur.1 s.cur.2 (me s) + mibOf len ≤ (me s).pinCap.toNat) :
    ∃ v : PinWin, (v.owner = some s.cur ∧ v.asid = (me s).asid ∧ v.base = base ∧ v.len = len ∧ v.mask = mask) ∧
      assignPin s n base len mask = some (repinned s (Tbl.put s.pins n v) (fun _ => BitVec.ofNat 16
        ((me s).pinUsed.toNat - heldMib (pinAt s n) s.cur.1 s.cur.2 (me s) + mibOf len))) := by
  refine ⟨_, ⟨rfl, rfl, rfl, rfl, rfl⟩, if_neg ?_⟩
  rcases free with free | own
  · simpa [free] using within
  · simpa [own] using within

/-- Another's window, or one above the cap, stays as it is (R235). -/
theorem assignPin_refuses (h : (pinAt s n).owner ≠ none ∧ pinMine (pinAt s n) s.cur.1 s.cur.2 (me s) = false ∨
    (me s).pinCap.toNat < (me s).pinUsed.toNat - heldMib (pinAt s n) s.cur.1 s.cur.2 (me s) + mibOf len) :
    assignPin s n base len mask = none := by
  refine if_pos ?_
  rcases h with ⟨owned, other⟩ | above
  · simp [Option.isSome_iff_ne_none.mpr owned, other]
  · simp [above]

end Assign

/-- Settles O35: every check passes, and what a command captures stands in its operands. -/
theorem copyEngineIssue : Obligations.CopyEngineIssue := by
  intro s t a b c ds ss clamp scl len rsz cnt sl evp w h readable room x y z n row inside
  obtain ⟨ha, readable⟩ := readable_cons.mp readable
  obtain ⟨hb, readable⟩ := readable_cons.mp readable
  obtain ⟨hc, -⟩ := readable_cons.mp readable
  have ra := readS_ok ha
  have rb := readS_ok hb
  have rc := readS_ok hc
  refine ⟨fun dst src => ?cp, fun ac dst src => ?kvchk, fun aa ab ac list => ⟨fun dst => ?gather, fun src => ?scatter⟩,
    fun aa desc => ?prefetch, ?pins⟩
  case cp =>
    refine starts_withOp (o := { newOp s (.cp t a b c ds ss len h) t with
        slk := slackFor s h (ds && ss), a := x, b := y, nums := [n] })
      rfl (bind_of_ok ra (bind_of_ok rb ?_)) ⟨rfl, rfl, rfl, ⟨rfl, rfl, rfl⟩, rfl, rfl⟩ ⟨rfl, rfl, rfl⟩
    by_cases zero : c = 0
    · have length : n = len.toNat := if_pos zero
      rw [length] at dst src ⊢
      exact (if_pos zero).trans (bind_of_ok rfl (startCopy_ok _ room dst src))
    · have length : n = ((sv s c).extractLsb' 0 32).toNat := by
        rw [BitVec.extractLsb'_toNat, Nat.shiftRight_zero]
        exact if_neg zero
      rw [length] at dst src ⊢
      exact (if_neg zero).trans (bind_of_ok rc (bind_of_ok rfl (startCopy_ok _ room dst src)))
  case kvchk =>
    exact starts_withOp rfl (bind_of_ok ra (bind_of_ok rb (bind_of_ok rc (bind_of_ok (opRoom_ok room)
      (bind_of_ok (aligned_ok 2 2 ac) (startCopy_ok _ room dst src))))))
      ⟨rfl, rfl, rfl, ⟨rfl, rfl, rfl⟩, rfl, rfl⟩ ⟨rfl, rfl, rfl, rfl⟩
  case gather =>
    have rows : rowSize rsz = row := rowSize_eq rsz
    rw [← rows] at dst ⊢
    exact starts_withOp rfl (bind_of_ok ra (bind_of_ok rb (bind_of_ok rc (bind_of_ok (opRoom_ok room)
      (bind_of_ok (aligned_ok 2 2 aa) (bind_of_ok (aligned_ok 2 2 ab) (bind_of_ok (aligned_ok 2 2 ac)
      (bind_of_ok (spmBounds_ok 2 2 list) (bind_of_ok (spmBounds_ok 2 2 dst) (startOp_room room _))))))))))
      ⟨rfl, rfl, rfl, ⟨rfl, rfl, rfl⟩, rfl, rfl⟩ ⟨rfl, rfl, rfl, rfl⟩
  case scatter =>
    have rows : rowSize rsz = row := rowSize_eq rsz
    rw [← rows] at src ⊢
    exact starts_withOp rfl (bind_of_ok ra (bind_of_ok rb (bind_of_ok rc (bind_of_ok (opRoom_ok room)
      (bind_of_ok (aligned_ok 2 2 aa) (bind_of_ok (aligned_ok 2 2 ab) (bind_of_ok (aligned_ok 2 2 ac)
      (bind_of_ok (spmBounds_ok 2 2 list) (bind_of_ok (spmBounds_ok 2 2 src) (startOp_room room _))))))))))
      ⟨rfl, rfl, rfl, ⟨rfl, rfl, rfl⟩, rfl, rfl⟩ ⟨rfl, rfl, rfl, rfl⟩
  case prefetch =>
    exact starts_withOp rfl (bind_of_ok ra (bind_of_ok (opRoom_ok room) (bind_of_ok (aligned_ok 2 2 aa)
      (bind_of_ok (spmBounds_ok 2 2 (.inr desc)) (startOp_room room _)))))
      ⟨rfl, rfl, rfl, ⟨rfl, rfl, rfl⟩, rfl, rfl⟩ rfl
  case pins =>
    intro p mine used
    refine ⟨fun aa => ⟨fun free within => ?assign, fun kept => ?refuse⟩, fun hm => ?release, fun hm => ?other⟩
    case assign =>
      obtain ⟨v, fields, assigned⟩ := assignPin_assigns (base := x.toNat) (mask := z) free within
      refine starts_of (r := repinned s (Tbl.put s.pins w.toNat v) (fun _ => BitVec.ofNat 16 used))
        (o := { newOp s (.pin t a b c w) t with nums := [mibOf y.toNat, 0] }) rfl (bind_of_ok ra (bind_of_ok rb (bind_of_ok rc
        (bind_of_ok (opRoom_ok room) (bind_of_ok (aligned_ok 2 2 aa) ?_))))) (aside_repinned ..)
        ⟨rfl, rfl, rfl, ⟨rfl, rfl, rfl⟩, rfl, rfl⟩ (.refl _) ⟨rfl, ?_, v, ?_, fields⟩
      · dsimp only
        rw [assigned]
        exact startOp_room ((aside_repinned ..).hasRoom room) _
      · rw [me_withOp]
        exact repinned_pinUsed ..
      · exact (congrArg (Tbl.find · w.toNat) (repinned_pins ..)).trans (Tbl.find_put_same ..)
    case refuse =>
      have refused : assignPin s w.toNat x.toNat y.toNat z = none := assignPin_refuses kept
      refine starts_withOp (o := { newOp s (.pin t a b c w) t with nums := [0x15, 1] }) rfl (bind_of_ok ra (bind_of_ok rb
        (bind_of_ok rc (bind_of_ok (opRoom_ok room) (bind_of_ok (aligned_ok 2 2 aa) ?_))))) ⟨rfl, rfl, rfl, ⟨rfl, rfl, rfl⟩, rfl, rfl⟩ ⟨rfl, rfl⟩
      dsimp only
      rw [refused]
      exact startOp_room room _
    case release =>
      have released : releasePin { s with fresh := s.fresh + 1 } s.cur.1 s.cur.2 w.toNat =
        repinned { s with fresh := s.fresh + 1 } (Tbl.put s.pins w.toNat PinWin.init) (· - BitVec.ofNat 16 p.usedMib) := if_pos hm
      have drawn : Aside s { s with fresh := s.fresh + 1 } := ⟨rfl, rfl, rfl, rfl, rfl, fun h => ⟨h, rfl⟩⟩
      have aside := drawn.trans (aside_repinned { s with fresh := s.fresh + 1 } (Tbl.put s.pins w.toNat PinWin.init)
        (· - BitVec.ofNat 16 p.usedMib))
      refine starts_of (o := { newOp s (.unpin t w) t with nums := [(Config.unstatedCount s.fresh).toNat, 0] }) rfl
        (bind_of_ok (opRoom_ok room) ((if_pos hm).trans ?_)) aside
        ⟨rfl, rfl, rfl, ⟨rfl, rfl, rfl⟩, rfl, rfl⟩ (.refl _) ⟨rfl, ?_, ?_⟩
      · rw [released]
        exact startOp_room (aside.hasRoom room) _
      · change (Tbl.look PinWin.init (repinned ..).pins w.toNat).owner = none
        rw [repinned_pins, Tbl.look_put_same]
        rfl
      · rw [me_withOp]
        exact repinned_pinUsed ..
    case other =>
      exact starts_withOp rfl (bind_of_ok (opRoom_ok room) ((if_neg (Bool.eq_false_iff.mp hm)).trans (startOp_room room _)))
        ⟨rfl, rfl, rfl, ⟨rfl, rfl, rfl⟩, rfl, rfl⟩ ⟨rfl, rfl⟩

end Sys2Proof.Machine

namespace Sys2Proof.Machine

/-! ## The tagged region (O33) -/

/-- Core 0 with one unit of tagged region, whose slot 0 is resident. -/
def residentSlot : State :=
  setCore State.reset 0 { CoreSt.init with tu := 1, tags := [(0, { pend := false, asid := 0, vtag := 0, fill := none })] }

/-- What `tag.ev.wb` of slot 0 leaves: the slot is invalid, and its write-back has read nothing yet. -/
def unreadBack : State :=
  match exec (.tagEvWb 5 0 0) residentSlot with
  | .next t => t
  | _ => residentSlot

/-- The chunks that each outstanding operation has performed. -/
def doneChunks (x : Host.Outcome State Fault Refusal) : List (List Nat) :=
  match x with
  | .next t => t.ops.map Op.done
  | _ => []

/-- Refutes O33: a `tag.fl` of a slot whose write-back has not read it yet makes that write-back read it first (R215), so that
the older operation changes, and `Issued` says that every older operation stays as it was. -/
theorem not_taggedRegion : ¬ Obligations.TaggedRegion := by
  intro holds
  have zero : sv unreadBack 0 = 0 := by decide +kernel
  have readable : Readable unreadBack [0] := readable_cons.mpr ⟨by decide +kernel, readable_nil _⟩
  have room : HasRoom unreadBack := show (outstanding unreadBack _ _).length < 32 by decide +kernel
  obtain ⟨-, -, -, commands⟩ := holds unreadBack 0 6 0 0 0 0 false ⟨0, 0, false⟩ 0 readable
  obtain ⟨fill, -⟩ := commands room
  have vacant : Tbl.find (here unreadBack).tags (sv unreadBack 0).toNat = none := by decide +kernel
  obtain ⟨t, o, run, issued, -⟩ := fill readable (by rw [zero]; rfl) (by decide +kernel) fun e found => by
    rw [vacant] at found
    cases found
  have before : unreadBack.ops.map Op.done = [[]] := by decide +kernel
  have after : doneChunks (exec (.tagFl 6 0 0 ⟨0, 0, false⟩) unreadBack) = [[0], []] := by decide +kernel
  rw [run, doneChunks, issued.ops, List.map_append, before] at after
  exact absurd (List.cons.inj after).1 (by decide)

end Sys2Proof.Machine

namespace Sys2Proof.Machine

/-! ## Chains (O50) -/

/-- A valid chain block of one stage, the absolute value of its constant, into an FP32 tile 0. -/
def smallChain : List Byte := toBytes 8 0x100001 ++ toBytes 8 0x0704000000000000

/-- The service context of core 0 with a chain block at offset 0, and an outstanding copy with the number that its next command
takes: numbers have 32 bits, and this one has been taken before. -/
def numberInUse : State :=
  let s := { State.reset with cur := (0, 4), mem := memPuts [] (cellsAt (spmAddr 0 0) smallChain) }
  { s with ops := [newOp s (.cp 5 0 0 0 true true 0 ⟨0, 0, false⟩) 5] }

theorem numberInUse_local : Local numberInUse 0 72 where
  inside := by decide
  awake u hu _ _ := by
    have powered : (here numberInUse).spgAwake = 0xFFF := by decide +kernel
    rw [powered]
    revert u
    decide
  steady := by decide +kernel

theorem numberInUse_chainFree (i : Nat) : chainFree numberInUse i = .ok () := by
  have free (p : Nat) : busyIn (opsBefore numberInUse) numberInUse.cur.1 p = false := rfl
  unfold chainFree
  split
  · rw [free]
    rfl
  · rfl

/-- The instructions of the operations that an answer leaves outstanding. -/
def openInstrs (x : Host.Outcome State Fault Refusal) : List Instr :=
  match x with
  | .next t => t.ops.map Op.instr
  | _ => []

/-- Refutes O50: the chain's clause, unlike that of the compaction network, does not ask that no operation outstanding has the
number the chain takes; where one has it, the chain's generator words are noted for both, and the older operation is lost. -/
theorem not_engineFormatIssue : ¬ Obligations.EngineFormatIssue := by
  intro holds
  have zero : sv numberInUse 0 = 0 := by decide +kernel
  have idle : isPending numberInUse 0 = false := by decide +kernel
  have readable : Readable numberInUse [0, 0, 0] :=
    readable_cons.mpr ⟨idle, readable_cons.mpr ⟨idle, readable_cons.mpr ⟨idle, readable_nil _⟩⟩⟩
  have room : HasRoom numberInUse := show (outstanding numberInUse _ _).length < 32 by decide +kernel
  obtain ⟨chain, -⟩ := holds numberInUse 6 0 0 0 0 false false 0 0 0 0 ⟨0, 0, false⟩ 0 readable room
  rw [zero] at chain
  have block : blockOf (memBytes numberInUse.mem (spmAddr 0 0) 16) = blockOf smallChain := by
    have bytes : memBytes numberInUse.mem (spmAddr 0 0) 16 = smallChain := by decide +kernel
    rw [bytes]
  have rows : rowsOf (me numberInUse) = 64 := by decide +kernel
  have wholeRow : colsOf (me numberInUse) = 0 := by decide +kernel
  have count : vecCount numberInUse 128 [] = .ok 128 :=
    vecCount_ok ⟨(if_pos wholeRow).symm, le_rfl, fun _ h => absurd h List.not_mem_nil⟩
  obtain ⟨t, o, run, ops, instr, -⟩ := chain (blockOf (memBytes numberInUse.mem (spmAddr 0 0) 16)) 0 (by decide)
    numberInUse_local (by decide +kernel) (by decide +kernel) rfl
    (fun i _ => numberInUse_chainFree i) (numberInUse_chainFree _) (by decide +kernel) ⟨by omega, by omega⟩ ⟨_, count⟩
    (by decide +kernel)
  have after : openInstrs (exec (.chain 6 0) numberInUse) = [.chain 6 0, .chain 6 0] := by decide +kernel
  have before : numberInUse.ops.map Op.instr = [.cp 5 0 0 0 true true 0 ⟨0, 0, false⟩] := by decide +kernel
  rw [run, openInstrs, ops, List.map_append, before] at after
  exact absurd (List.cons.inj after).1 (by decide)

end Sys2Proof.Machine

namespace Sys2Proof.Machine

/-! ## Requests and packets of the executing bundle (O32, O37) -/

section Aside

variable {s t u : State}

theorem aside_ite {c : Prop} [Decidable c] (ht : Aside s t) (hu : Aside s u) : Aside s (if c then t else u) := by
  split
  · exact ht
  · exact hu

theorem aside_fly (s : State) (f : Fly) : Aside s { s with fly := f } := ⟨rfl, rfl, rfl, rfl, rfl, fun h => ⟨h, rfl⟩⟩

theorem aside_stageSet (s : State) (m : BitVec 16) : Aside s (stageSet s m) := aside_fly ..

theorem aside_addPacket (s : State) (p : NetPacket) : Aside s (addPacket s p) := ⟨rfl, rfl, rfl, rfl, rfl, fun h => ⟨h, rfl⟩⟩

theorem aside_logAt (s : State) (core ctx typ : Nat) (key : Word) (aux seq : Nat) (l : List Byte) :
    Aside s (logAt s core ctx typ key aux seq l) := by
  have kept (log : Option RLog) (m : List Host.Cell) (h : s.rlog ≠ none) : Aside s { s with rlog := log, mem := m } :=
    ⟨rfl, rfl, rfl, rfl, rfl, fun none => absurd none h⟩
  unfold logAt logRecord
  split
  · exact .refl s
  · split
    · exact .refl s
    · next log =>
      have h : s.rlog ≠ none := by rw [log]; exact Option.some_ne_none _
      exact aside_ite (.refl s) (aside_ite (kept _ _ h) (kept _ _ h))

theorem aside_lateTrace (s : State) (core ctx vc pa tag : Nat) : Aside s (lateTrace s core ctx vc pa tag) :=
  ((aside_of_traffic (traffic_traceEvent ..) (forwards_traceEvent ..).rlog).trans
    (aside_of_traffic (traffic_traceTrigger ..) (forwards_traceTrigger ..).rlog)).trans (aside_logAt ..)

theorem aside_countLate (s : State) (core : Nat) : Aside s (countLate s core) := aside_withCore s core _ rfl

/-- A pending LATE trap and the flags are no scalars and no writes. -/
theorem pendLate_keeps (ctx pa tag : Nat) (c : Ctx) : (pendLate ctx pa tag c).cseq = c.cseq ∧
    (pendLate ctx pa tag c).scalars = c.scalars ∧ (pendLate ctx pa tag c).pend = c.pend := by
  unfold pendLate
  split <;> exact ⟨rfl, rfl, rfl⟩

theorem aside_lateAtIssue (s : State) (vc pa tag : Nat) : Aside s (lateAtIssue s vc pa tag) := by
  have kept := pendLate_keeps (lateTrace (countLate s s.cur.1) s.cur.1 s.cur.2 vc pa tag).cur.2 pa tag
  have traced := (aside_countLate s s.cur.1).trans (aside_lateTrace _ s.cur.1 s.cur.2 vc pa tag)
  unfold lateAtIssue
  dsimp only
  exact aside_ite (.refl s) ((traced.trans (aside_withMe _ _ (kept _).1 (kept _).2.1 (kept _).2.2)).trans (aside_stageSet ..))

/-- A change of any context that keeps its scalars, writes and last number. -/
theorem aside_withCtx (s : State) (n k : Nat) (f : Ctx → Ctx)
    (h : ∀ c, (f c).cseq = c.cseq ∧ (f c).scalars = c.scalars ∧ (f c).pend = c.pend) : Aside s (withCtx s n k f) := by
  by_cases own : n = s.cur.1 ∧ k = s.cur.2
  · obtain ⟨rfl, rfl⟩ := own
    exact aside_withMe s f (h _).1 (h _).2.1 (h _).2.2
  · have other : me (withCtx s n k f) = me s := ctxOf_setCtx_other s _ ((not_and_or.mp own).imp Ne.symm Ne.symm)
    exact ⟨rfl, rfl, congrArg _ other, congrArg _ other, congrArg _ other, fun h => ⟨h, rfl⟩⟩

theorem aside_becomeLate (s : State) (core ctx : Nat) (cookie : BitVec 64) (vc pa tag : Nat) :
    Aside s (becomeLate s core ctx cookie vc pa tag) := by
  refine ((aside_countLate s core).trans (aside_lateTrace _ core ctx vc pa tag)).trans ?_
  unfold becomeLate
  dsimp only
  cases found : modifyTarget (lateTrace (countLate s core) core ctx vc pa tag) core ctx cookie
      (fun c => pendLate ctx pa tag { c with flags := c.flags ||| 0x2000 }) with
  | none => exact .refl _
  | some t =>
    rcases modifyTarget_some found with rfl | ⟨l, rfl⟩
    · exact aside_withCtx _ _ _ _ fun c => pendLate_keeps ctx pa tag { c with flags := c.flags ||| 0x2000 }
    · exact ⟨rfl, rfl, rfl, rfl, rfl, fun h => ⟨h, rfl⟩⟩

theorem aside_packetLate (s : State) (p : Packet) : Aside s (packetLate s p) :=
  aside_ite (.refl s) (aside_ite (aside_ite (.refl s) (aside_becomeLate ..))
    (aside_of_traffic (traffic_countLateUnit s p) (forwards_countLateUnit s p).rlog))

theorem aside_sendPacket (s : State) (p : NetPacket) : Aside s (sendPacket s p) :=
  (aside_addPacket s p).trans (aside_ite (.refl _) (aside_ite (aside_lateAtIssue ..) (aside_packetLate ..)))

/-- Besides, no request comes or goes. -/
structure Unasked (s t : State) : Prop where
  aside : Aside s t
  reqs : t.reqs = s.reqs

theorem Unasked.refl (s : State) : Unasked s s := ⟨.refl s, rfl⟩

theorem Unasked.trans (h : Unasked s t) (g : Unasked t u) : Unasked s u := ⟨h.aside.trans g.aside, g.reqs.trans h.reqs⟩

theorem Unasked.foldl {α : Type} {f : State → α → State} (h : ∀ s x, Unasked s (f s x)) (l : List α) (s : State) :
    Unasked s (l.foldl f s) := by
  induction l generalizing s with
  | nil => exact .refl s
  | cons x l ih => exact (h s x).trans (ih _)

theorem unasked_withCore (s : State) (n : Nat) (f : CoreSt → CoreSt) (h : (f (coreOf s n)).ctxs = (coreOf s n).ctxs) :
    Unasked s (withCore s n f) := ⟨aside_withCore s n f h, rfl⟩

theorem sendPacket_reqs (s : State) (p : NetPacket) : (sendPacket s p).reqs = s.reqs :=
  (queuesKept_ite (.refl (addPacket s p)) (queuesKept_ite (queuesKept_lateAtIssue ..) (queuesKept_packetLate ..))).reqs

theorem unasked_sendFor (core ctx : Nat) (wr : Bool) (len : Nat) (slk : BitVec 10) (touch : Option CacheHint) (s : State)
    (pa : Nat) : Unasked s (sendFor core ctx wr len slk touch s pa) := by
  have numbered : Aside s { s with nextReq := s.nextReq + 1 } := ⟨rfl, rfl, rfl, rfl, rfl, fun h => ⟨h, rfl⟩⟩
  exact ⟨numbered.trans (aside_sendPacket ..), sendPacket_reqs ..⟩

theorem unasked_probeUnit (s : State) (core ctx : Nat) (asid : BitVec 16) (vp : Nat) (slk : BitVec 10) :
    Unasked s (probeUnit s core ctx asid vp slk) := by
  unfold probeUnit
  split
  · exact .refl s
  · exact Unasked.foldl (fun _ _ => unasked_sendFor ..) _ s

theorem unasked_touchEntry (s : State) (core ctx : Nat) (asid : BitVec 16) (vp : Nat) :
    Unasked s (touchEntry s core ctx asid vp) := by
  unfold touchEntry
  exact unasked_withCore _ _ _ (by split <;> rfl)

theorem unasked_installEntry (s : State) (core ctx : Nat) (asid : BitVec 16) (vp : Nat) :
    Unasked s (installEntry s core ctx asid vp) := by
  unfold installEntry
  split
  · exact .refl s
  · split
    · exact .refl s
    · exact unasked_withCore _ _ _ (by dsimp only; split <;> rfl)

/-- The search for the ranges of an access sends packets and fills the table; no request is issued (R369, R371). -/
theorem unasked_useRanges (s : State) (core ctx : Nat) (asid : BitVec 16) (va n : Nat) (slk : BitVec 10) :
    Unasked s (useRanges s core ctx asid va n slk) :=
  (Unasked.foldl (fun _ _ => unasked_probeUnit ..) _ s).trans
    (Unasked.foldl (fun _ _ => (unasked_installEntry ..).trans (unasked_touchEntry ..)) _ _)

/-! ### A request and its packet (R465) -/

/-- A request that the executing context issues. -/
def requestNow (s : State) (kind : ReqKind) (pas : List Nat) (slk : BitVec 10) (hint : CacheHint) (after : List Nat) : Req :=
  { id := s.nextReq, core := s.cur.1, ctx := s.cur.2, kind := kind, asid := (me s).asid, pas := pas,
    cookie := cookieOf s s.cur.1 s.cur.2, slk := slk, after := after, value := [],
    performed := false, orphan := false, hint := hint, icnt := (me s).icount }

/-- What sending a packet at once leaves: the packet stands last. -/
theorem sendNow_packet (s : State) (id typ dst dstDev pa : Nat) (aux : BitVec 32) (atw : Word) (data : List Byte)
    (slk : BitVec 10) (op : Option (Nat × Nat × Nat)) (tag : Option (BitVec 16)) :
    ∃ p : NetPacket, (p.id = id ∧ p.op = op) ∧ (p.pkt.typ = BitVec.ofNat 8 typ ∧ p.pkt.pa = BitVec.ofNat 48 pa ∧
        p.pkt.dst = BitVec.ofNat 16 dst ∧ p.pkt.dstDev = BitVec.ofNat 10 dstDev ∧ p.pkt.atw = atw) ∧
      Aside s (sendNow s id typ dst dstDev pa aux atw data slk op tag) ∧
      QueuesKept (addPacket s p) (sendNow s id typ dst dstDev pa aux atw data slk op tag) :=
  ⟨_, ⟨rfl, rfl⟩, ⟨rfl, rfl, rfl, rfl, rfl⟩, (aside_addPacket s _).trans (aside_ite (aside_lateAtIssue ..) (.refl _)),
    queuesKept_ite (queuesKept_lateAtIssue ..) (.refl _)⟩

/-- What an access to physical bytes leaves: its request and its packet stand last. -/
theorem pushAccess_sends (s : State) (kind : ReqKind) (pas : List Nat) (slk : BitVec 10) (hint : CacheHint) (after : List Nat)
    (typ : Nat) (aux : BitVec 32) (data : List Byte) :
    let u := pushAccess s kind pas slk hint after typ aux data
    Aside s u ∧ u.reqs = s.reqs ++ [requestNow s kind pas slk hint after] ∧
      ∃ p : NetPacket, u.packets = s.packets ++ [p] ∧ p.id = s.nextReq ∧ p.pkt.typ = BitVec.ofNat 8 typ ∧
        p.pkt.pa = BitVec.ofNat 48 (pas.headD 0) := by
  have asked : Aside s { s with reqs := s.reqs ++ [requestNow s kind pas slk hint after], nextReq := s.nextReq + 1 } :=
    ⟨rfl, rfl, rfl, rfl, rfl, fun h => ⟨h, rfl⟩⟩
  obtain ⟨p, ⟨id, -⟩, ⟨htyp, hpa, -⟩, aside, queues⟩ := sendNow_packet
    { s with reqs := s.reqs ++ [requestNow s kind pas slk hint after], nextReq := s.nextReq + 1 } s.nextReq typ
    (endpointOf s (dieOf s.cur.1) (pas.headD 0)) (deviceOf s (pas.headD 0)) (pas.headD 0) aux 0 data slk none
    (fixedTag s.cur.2 kind)
  exact ⟨asked.trans aside, queues.reqs, p, queues.packets, id, htyp, hpa⟩

end Aside

end Sys2Proof.Machine

namespace Sys2Proof.Machine

/-! ## Atomics and fabric commands (O37) -/

section Atomic

variable {s : State} {i : Instr} {t : Reg} {o : Op} {addr : Word} {ty ord : BitVec 2} {pas : List Nat}

/-- A direct write outside every reduction target passes its check (R480). -/
theorem targetCheck_ok (va : Word) (h : ∀ q ∈ pas, inTarget s q = false) : targetCheck s va pas = .ok () :=
  check_ok (by simpa using h)

/-- A release waits for every direct access of its context that has not performed (R240). -/
theorem mustPrecede_release {r : Req} (pas : List Nat) (hr : r ∈ s.reqs) (direct : r.directOf s.cur.1 s.cur.2 = true)
    (open_ : r.performed = false) : r.id ∈ mustPrecede s pas true :=
  List.mem_map_of_mem (List.mem_filter.mpr ⟨hr, by simp [direct, open_]⟩)

theorem aside_noteAccess (s : State) (va : Word) (n : Nat) (wr : Bool) : Aside s (noteAccess s va n wr) := aside_fly ..

theorem aside_scopePacket (s : State) (id : Nat) (scope : BitVec 3) : Aside s (scopePacket s id scope) :=
  ⟨rfl, rfl, rfl, rfl, rfl, fun h => ⟨h, rfl⟩⟩

/-- What an atomic's issue leaves (R195, R240): its operation, its request, and its packet with the SCOPE. -/
structure AtomicIssued (s u : State) (o : Op) (pas : List Nat) (ord : BitVec 2) (scope : BitVec 3) : Prop where
  issued : Issued s u o
  access : ∃ r, u.reqs = s.reqs ++ [r] ∧ r.kind = .atomic o.seq (ord.getLsbD 0) ∧ r.pas = pas ∧ r.performed = false ∧
    (ord.getLsbD 0 = true → .acquire r.id ∈ (me u).waits) ∧
    (∃ p ∈ u.packets, p.id = r.id ∧ p.pkt.typ = 3 ∧ p.pkt.scope = scope) ∧
    (ord.getLsbD 1 = true → ∀ q ∈ s.reqs, q.directOf s.cur.1 s.cur.2 = true → q.performed = false → q.id ∈ r.after)

/-- An acquire holds the next bundle until its access has performed (R240). -/
def awaiting (s : State) (acquire : Bool) (id : Nat) : State :=
  if acquire then withMe s (fun c => { c with waits := c.waits ++ [.acquire id] }) else s

theorem aside_awaiting (s : State) (acquire : Bool) (id : Nat) : Aside s (awaiting s acquire id) :=
  aside_ite (aside_withMe s _ rfl rfl rfl) (.refl s)

theorem awaiting_queues (s : State) (acquire : Bool) (id : Nat) :
    (awaiting s acquire id).reqs = s.reqs ∧ (awaiting s acquire id).packets = s.packets := by
  cases acquire <;> exact ⟨rfl, rfl⟩

theorem awaiting_waits (s : State) (id : Nat) : .acquire id ∈ (me (awaiting s true id)).waits := by
  have own := me_withMe s (fun c => { c with waits := c.waits ++ [.acquire id] })
  exact (congrArg (Wait.acquire id ∈ Ctx.waits ·) own).mpr (List.mem_append_right _ List.mem_cons_self)

theorem mem_scopePacket {id : Nat} {p : NetPacket} (hp : p ∈ s.packets) (hid : p.id = id) (scope : BitVec 3) :
    { p with pkt := { p.pkt with scope := scope } } ∈ (scopePacket s id scope).packets :=
  List.mem_map.mpr ⟨p, hp, if_pos hid⟩

theorem walked_ok {α : Type} {x : Except Stop α} {a : α} (va n : Nat) (slk : BitVec 10) (h : x = .ok a) :
    walked va n slk x = .ok a := by
  rw [h]
  rfl

theorem startAtomic_ok (room : HasRoom s) (as : IssuedAs s i t o) (align : addr.toNat % atomicBytes ty = 0)
    (span : directSpan s addr (atomicBytes ty) [permRd, permWr] = .ok pas) (free : ∀ q ∈ pas, inTarget s q = false)
    (aop : BitVec 3) (h : Hint) (scope : BitVec 3) (noReturn : Bool) :
    ∃ u, startAtomic s o addr ty ord aop h scope noReturn = .ok u ∧
      AtomicIssued s u { o with pas := pas, slk := slackOf s h.sl } pas ord scope := by
  have noted := (aside_noteAccess s addr (atomicBytes ty) false).trans (aside_noteAccess _ addr (atomicBytes ty) true)
  have op := issueOp_room (noted.hasRoom room) { o with pas := pas, slk := slackOf s h.sl }
  have walk := unasked_useRanges (withOp (noteAccess (noteAccess s addr (atomicBytes ty) false) addr (atomicBytes ty) true)
    { o with pas := pas, slk := slackOf s h.sl }) s.cur.1 s.cur.2 (me s).asid addr.toNat (atomicBytes ty) (slackOf s h.sl)
  refine ⟨_, bind_of_ok (aligned_ok 2 2 align) (bind_of_ok (walked_ok _ _ _ span) (bind_of_ok (targetCheck_ok addr free)
    (bind_of_ok op rfl))), ?_⟩
  revert walk
  generalize useRanges _ _ _ _ _ _ _ = w
  intro walk
  obtain ⟨sent, reqs, p, packets, id, typ, -⟩ := pushAccess_sends w (.atomic o.seq (ord.getLsbD 0)) pas (slackOf s h.sl)
    (hintAt s s.cur.1 s.cur.2 (me s).asid addr.toNat h) (mustPrecede w pas (ord.getLsbD 1)) 3
    (BitVec.ofNat 32 (aop.toNat * 4 + ty.toNat + ord.toNat * 64 + if noReturn then 256 else 0))
    (toBytes 8 o.b.toNat ++ toBytes 8 o.c.toNat)
  constructor
  case issued =>
    refine issued_of (i := i) (tok := t) noted ⟨as.core, as.ctx, as.seq, as.fresh, as.instr, as.tok⟩ (walk.aside.trans ?_)
    exact (sent.trans (aside_scopePacket ..)).trans (aside_awaiting _ (ord.getLsbD 0) w.nextReq)
  case access =>
    obtain ⟨reqs', packets'⟩ := awaiting_queues (scopePacket (pushAccess w (.atomic o.seq (ord.getLsbD 0)) pas (slackOf s h.sl)
      (hintAt s s.cur.1 s.cur.2 (me s).asid addr.toNat h) (mustPrecede w pas (ord.getLsbD 1)) 3
      (BitVec.ofNat 32 (aop.toNat * 4 + ty.toNat + ord.toNat * 64 + if noReturn then 256 else 0))
      (toBytes 8 o.b.toNat ++ toBytes 8 o.c.toNat)) w.nextReq scope) (ord.getLsbD 0) w.nextReq
    refine ⟨_, reqs'.trans (reqs.trans (congrArg (· ++ [_]) walk.reqs)), rfl, rfl, rfl, fun acquire => ?_, ?_,
      fun release q hq direct waiting => ?_⟩
    · rw [acquire]
      exact awaiting_waits ..
    · have hp : p ∈ (pushAccess w _ pas _ _ _ 3 _ _).packets := packets ▸ List.mem_append_right _ List.mem_cons_self
      exact ⟨{ p with pkt := { p.pkt with scope := scope } }, packets'.symm ▸ mem_scopePacket hp id scope, id, typ, rfl⟩
    · have cur : w.cur = s.cur := walk.aside.cur
      rw [requestNow, release]
      exact mustPrecede_release pas (walk.reqs ▸ hq) (cur ▸ direct) waiting

end Atomic

/-- An arrival target word's core and device fit their fields of a packet (R242). -/
theorem toNat_atwFields (x : Word) : (BitVec.ofNat 16 (atwCore x)).toNat = atwCore x ∧
    (BitVec.ofNat 10 (atwDevice x)).toNat = atwDevice x := by
  constructor
  · rw [BitVec.toNat_ofNat]
    have high := (x.extractLsb' 9 1).isLt
    have low := (x.extractLsb' 3 6).isLt
    exact Nat.mod_eq_of_lt (show 64 * _ + _ < _ by omega)
  · rw [BitVec.toNat_ofNat]
    exact Nat.mod_eq_of_lt (BitVec.isLt _)

theorem startRows_ok {s : State} (o : Op) {dst src : Word} (atw : Word) {ds ss : Bool} {rows : BitVec 7} (room : HasRoom s)
    (ad : dst.toNat % 64 = 0) (as : src.toNat % 64 = 0)
    (hd : (if ds then 512 * rows.toNat else 0) = 0 ∨ dst.toNat + (if ds then 512 * rows.toNat else 0) ≤ Config.spmBytes)
    (hs : (if ss then 512 * rows.toNat else 0) = 0 ∨ src.toNat + (if ss then 512 * rows.toNat else 0) ≤ Config.spmBytes) :
    startRows s o dst src atw ds ss rows = .ok (withOp s { o with
      a := dst, b := src, c := atw, nums := [rows.toNat, if ds then 1 else 0, if ss then 1 else 0] }) :=
  bind_of_ok (opRoom_ok room) (bind_of_ok (aligned_ok 2 2 ad) (bind_of_ok (aligned_ok 2 2 as)
    (bind_of_ok (spmBounds_ok 2 2 hd) (bind_of_ok (spmBounds_ok 2 2 hs) (startOp_room room _)))))

/-- Settles O37: every check passes, and what an atomic leaves is what its request and packet are. -/
theorem atomicsAndFabricIssue : Obligations.AtomicsAndFabricIssue := by
  intro s t a b c aop scope ty ord disp h ss watch rows sl ctr len cnt pas
  refine ⟨rfl, rfl, fun readable room => ?_⟩
  obtain ⟨ha, readable⟩ := readable_cons.mp readable
  obtain ⟨hb, readable⟩ := readable_cons.mp readable
  obtain ⟨hc, -⟩ := readable_cons.mp readable
  have ra := readS_ok ha
  have rb := readS_ok hb
  have rc := readS_ok hc
  intro x y z n va inside accesses
  refine ⟨fun align span free => ⟨?am, ?red⟩, fun ax ay => ⟨fun src => ?put, fun dst => ?get⟩, fun small part local_ => ?mcast,
    ?acSet, ?acAdd, fun ax => ?kvChk⟩
  case am =>
    have start : ∃ e : Word, slotAm t a b c aop ty scope ord disp h s = startAtomic s { newOp s (.am t a b c aop ty scope ord disp h) t with
        b := y, c := e, data := c.toNat } va ty ord aop h scope false := by
      by_cases swap : aop = 7
      · exact ⟨z, bind_of_ok ra (bind_of_ok rb ((if_pos swap).trans (bind_of_ok rc (bind_of_ok (opRoom_ok room) rfl))))⟩
      · exact ⟨0, bind_of_ok ra (bind_of_ok rb ((if_neg swap).trans (bind_of_ok rfl (bind_of_ok (opRoom_ok room) rfl))))⟩
    obtain ⟨e, start⟩ := start
    obtain ⟨u, run, issued, r, access⟩ := startAtomic_ok (i := .am t a b c aop ty scope ord disp h) (t := t) (ord := ord)
      (o := { newOp s (.am t a b c aop ty scope ord disp h) t with b := y, c := e, data := c.toNat }) room
      ⟨rfl, rfl, rfl, ⟨rfl, rfl, rfl⟩, rfl, rfl⟩ align span free aop h scope false
    exact ⟨u, _, r, exec_of_ok rfl (start.trans run), issued, rfl, rfl, rfl, rfl, access⟩
  case red =>
    obtain ⟨u, run, issued, r, access⟩ := startAtomic_ok (i := .red t a b aop ty scope ord disp h) (t := t) (ord := ord)
      (o := { newOp s (.red t a b aop ty scope ord disp h) t with b := y }) room
      ⟨rfl, rfl, rfl, ⟨rfl, rfl, rfl⟩, rfl, rfl⟩ align span free aop h scope true
    exact ⟨u, _, r, exec_of_ok rfl (bind_of_ok ra (bind_of_ok rb (bind_of_ok (opRoom_ok room) run))), issued, rfl, rfl, rfl, rfl,
      access⟩
  case put =>
    exact starts_withOp rfl (bind_of_ok ra (bind_of_ok rb (bind_of_ok rc (startRows_ok _ _ room ax ay (.inl rfl) src))))
      ⟨rfl, rfl, rfl, ⟨rfl, rfl, rfl⟩, rfl, rfl⟩ ⟨rfl, rfl, rfl⟩
  case get =>
    exact starts_withOp rfl (bind_of_ok ra (bind_of_ok rb (bind_of_ok rc (startRows_ok _ _ room ax ay dst (.inl rfl)))))
      ⟨rfl, rfl, rfl, ⟨rfl, rfl, rfl⟩, rfl, rfl⟩ ⟨rfl, rfl, rfl⟩
  case mcast =>
    have spans : (∀ w : Word, w = x ∨ w = y → (if z = 0 then 0 else len.toNat) = 0 ∨
        w.toNat + (if z = 0 then 0 else len.toNat) ≤ Config.spmBytes) := fun w hw => by
      split
      · exact .inl rfl
      · next zero =>
        obtain ⟨hx, hy⟩ := local_.resolve_left zero
        exact hw.elim (fun h => h ▸ hx) (fun h => h ▸ hy)
    have high : z.extractLsb' 16 48 = 0 := BitVec.eq_of_toNat_eq (by
      rw [BitVec.extractLsb'_toNat, Nat.shiftRight_eq_div_pow, Nat.div_eq_of_lt small]
      rfl)
    exact starts_withOp rfl (bind_of_ok ra (bind_of_ok rb (bind_of_ok rc (bind_of_ok (opRoom_ok room)
      (bind_of_ok (check_ok (decide_eq_true high)) (bind_of_ok (check_ok (decide_eq_true part))
      (bind_of_ok (spmBounds_ok 2 2 (spans x (.inl rfl))) (bind_of_ok (spmBounds_ok 2 2 (spans y (.inr rfl)))
      (startOp_room room _)))))))))
      ⟨rfl, rfl, rfl, ⟨rfl, rfl, rfl⟩, rfl, rfl⟩ ⟨rfl, rfl, rfl⟩
  case acSet =>
    refine starts_of rfl (bind_of_ok ra (bind_of_ok (opRoom_ok room) (bind_of_ok (startOp_room room _) rfl))) (.refl s)
      ⟨rfl, rfl, rfl, ⟨rfl, rfl, rfl⟩, rfl, rfl⟩ (aside_withHere _ _ rfl) ?_
    rw [here_withHere, Tbl.find_put_same, BitVec.setWidth_eq_extractLsb' (by decide)]
  case acAdd =>
    by_cases en : atwEn x = true
    · obtain ⟨p, ⟨id, op⟩, ⟨typ, -, dst, dev, atw⟩, aside, queues⟩ := sendNow_packet
        { withOp s { newOp s (.acAdd t a sl) t with a := x, slk := if atwEn x then slackOf s sl else 0x3FF } with
          nextReq := s.nextReq + 1 } s.nextReq 6 (atwCore x) (atwDevice x) 0 0 x [] (if atwEn x then slackOf s sl else 0x3FF)
        (some (newOp s (.acAdd t a sl) t).key) none
      have numbered : Aside (withOp s { newOp s (.acAdd t a sl) t with a := x, slk := if atwEn x then slackOf s sl else 0x3FF })
        { withOp s { newOp s (.acAdd t a sl) t with a := x, slk := if atwEn x then slackOf s sl else 0x3FF } with
          nextReq := s.nextReq + 1 } := ⟨rfl, rfl, rfl, rfl, rfl, fun h => ⟨h, rfl⟩⟩
      refine starts_of rfl (bind_of_ok ra (bind_of_ok (opRoom_ok room) (bind_of_ok (startOp_room room _) (if_pos en)))) (.refl s)
        ⟨rfl, rfl, rfl, ⟨rfl, rfl, rfl⟩, rfl, rfl⟩ (numbered.trans aside) ⟨rfl, fun _ => ⟨p, queues.packets, typ, ?_, ?_, atw, op⟩⟩
      · rw [dst]
        exact (toNat_atwFields x).1
      · rw [dev]
        exact (toNat_atwFields x).2
    · exact starts_withOp rfl (bind_of_ok ra (bind_of_ok (opRoom_ok room) (bind_of_ok (startOp_room room _) (if_neg en))))
        ⟨rfl, rfl, rfl, ⟨rfl, rfl, rfl⟩, rfl, rfl⟩ ⟨rfl, fun h => absurd h en⟩
  case kvChk =>
    exact starts_withOp rfl (bind_of_ok ra (bind_of_ok rb (bind_of_ok (opRoom_ok room) (bind_of_ok (aligned_ok 2 2 ax)
      (startOp_room room _))))) ⟨rfl, rfl, rfl, ⟨rfl, rfl, rfl⟩, rfl, rfl⟩ ⟨rfl, rfl, rfl⟩

end Sys2Proof.Machine

namespace Sys2Proof.Machine

/-! ## Issue of matrix instructions (O51) -/

/-! ### The engine and its funds (R307, R328) -/

/-- The state in which the engine has taken an instruction: its cost is drawn, and it is busy for the duration. -/
def mtxTaken (s : State) (o : Op) (d cost : Nat) : State :=
  let r := min (me s).tollHave cost
  withHere (withMe (withOp s o) (fun c => { c with tollHave := c.tollHave - r }))
    (fun k => { k with balance := k.balance - (cost - r), units := Tbl.put k.units 4 (s.time + d) })

/-- The engine's busy time, the balance and the reservation stay as they are. -/
structure FundsKept (t u : State) : Prop where
  units : (here u).units = (here t).units
  balance : (here u).balance = (here t).balance
  reserve : (me u).tollHave = (me t).tollHave

section Funds

variable {s t u v : State} {o : Op} {d cost : Nat}

theorem FundsKept.refl (s : State) : FundsKept s s := ⟨rfl, rfl, rfl⟩

theorem FundsKept.trans (h : FundsKept t u) (g : FundsKept u v) : FundsKept t v :=
  ⟨g.units.trans h.units, g.balance.trans h.balance, g.reserve.trans h.reserve⟩

theorem here_withMe (s : State) (f : Ctx → Ctx) :
    here (withMe s f) = { here s with ctxs := Tbl.put (here s).ctxs s.cur.2 (f (me s)) } := coreOf_setCtx ..

theorem me_withHere (s : State) (f : CoreSt → CoreSt) (h : (f (here s)).ctxs = (here s).ctxs) : me (withHere s f) = me s :=
  (traffic_withCore s s.cur.1 f h).ctxs s.cur.1 s.cur.2

theorem fundsKept_withMe (s : State) (f : Ctx → Ctx) (h : (f (me s)).tollHave = (me s).tollHave) :
    FundsKept s (withMe s f) := by
  have own := me_withMe s f
  have core := here_withMe s f
  exact ⟨(congrArg CoreSt.units core).trans rfl, (congrArg CoreSt.balance core).trans rfl, (congrArg Ctx.tollHave own).trans h⟩

theorem fundsKept_withHere (s : State) (f : CoreSt → CoreSt) (hu : (f (here s)).units = (here s).units)
    (hb : (f (here s)).balance = (here s).balance) (hc : (f (here s)).ctxs = (here s).ctxs) : FundsKept s (withHere s f) := by
  have core := here_withHere s f
  exact ⟨(congrArg CoreSt.units core).trans hu, (congrArg CoreSt.balance core).trans hb,
    congrArg Ctx.tollHave (me_withHere s f hc)⟩

theorem fundsKept_withOp (s : State) (o : Op) : FundsKept s (withOp s o) :=
  have counted := fundsKept_withMe s (Ctx.withCommand · o.tok) rfl
  ⟨counted.units, counted.balance, counted.reserve⟩

theorem mtxFunds_ok (h : cost ≤ (me s).tollHave + (here s).balance) : mtxFunds s cost = .ok () := if_neg (Nat.not_lt.mpr h)

theorem priceHold_ok {x : Except Stop Nat} (hx : x = .ok cost) (h : cost ≤ (me s).tollHave + (here s).balance) :
    priceHold s x = .ok () := by
  rw [hx]
  exact mtxFunds_ok h

theorem mtxBusy_ok (h : MtxIdle s) : mtxBusy s = .ok () := if_neg (Nat.not_lt.mpr h.2)

theorem startMtx_ok (room : HasRoom s) (h : cost ≤ (me s).tollHave + (here s).balance) :
    startMtx s o d cost = .ok (mtxTaken s o d cost) := by
  have reserve : (me (withOp s o)).tollHave = (me s).tollHave := (fundsKept_withOp s o).reserve
  refine bind_of_ok (mtxFunds_ok h) (bind_of_ok (startOp_room room o) ?_)
  dsimp only
  rw [reserve]
  rfl

theorem aside_mtxTaken (s : State) (o : Op) (d cost : Nat) : Aside (withOp s o) (mtxTaken s o d cost) := by
  unfold mtxTaken
  dsimp only
  exact (aside_withMe (withOp s o) _ rfl rfl rfl).trans (aside_withHere _ _ rfl)

/-- What the engine's taking of an instruction leaves of its time and of the funds. -/
theorem mtxTaken_funds (s : State) (o : Op) (d cost : Nat) : Tbl.look 0 (here (mtxTaken s o d cost)).units 4 = s.time + d ∧
    (me (mtxTaken s o d cost)).tollHave = (me s).tollHave - min (me s).tollHave cost ∧
    (here (mtxTaken s o d cost)).balance = (here s).balance - (cost - min (me s).tollHave cost) := by
  have issued := fundsKept_withOp s o
  have core := here_withMe (withOp s o) (fun c => { c with tollHave := c.tollHave - min (me s).tollHave cost })
  have own := me_withMe (withOp s o) (fun c => { c with tollHave := c.tollHave - min (me s).tollHave cost })
  unfold mtxTaken
  dsimp only
  refine ⟨?_, ?_, ?_⟩
  · rw [here_withHere, Tbl.look_put_same]
  · rw [me_withHere _ _ rfl, own]
    exact congrArg (· - _) issued.reserve
  · rw [here_withHere, core]
    exact congrArg (· - _) issued.balance

/-- An instruction that the engine takes once its checks have passed. -/
theorem mtxStarts_of {i : Instr} {tok : Reg} {x : Except Stop State} {q : Op → Prop} (run : exec i s = settle s x)
    (hx : cost ≤ (me s).tollHave + (here s).balance → x = .ok u) (as : IssuedAs s i tok o)
    (after : Aside (mtxTaken s o d cost) u) (kept : FundsKept (mtxTaken s o d cost) u) (hq : q o) :
    MtxStarts i s tok d cost q := fun funds => by
  obtain ⟨units, reserve, balance⟩ := mtxTaken_funds s o d cost
  exact starts_of run (hx funds) (.refl s) as ((aside_mtxTaken s o d cost).trans after)
    ⟨hq, (congrArg (Tbl.look 0 · 4) kept.units).trans units, kept.reserve.trans reserve, kept.balance.trans balance⟩

end Funds

/-! ### Operands (R34, R302) -/

theorem mtxTile_ok {s : State} {x : Reg} {p : Nat} (h : TileAt s x p) : mtxTile s x.toNat = .ok p := by
  rw [mtxTile, dif_pos x.isLt, show BitVec.ofNatLT x.toNat x.isLt = x from rfl, tileReg_ok 7 4 h]

/-- The tile after XA (R323). -/
theorem mtxTile_succ_ok {s : State} {x : Reg} {p : Nat} (hx : x.toNat < 63) (h : TileAt s (x + 1) p) :
    mtxTile s (x.toNat + 1) = .ok p := by
  have next : (x + 1).toNat = x.toNat + 1 := by
    rw [BitVec.toNat_add]
    exact Nat.mod_eq_of_lt (by change x.toNat + 1 < 64; omega)
  rw [← next, mtxTile_ok h]

theorem mtxTag_ok {ok : Bool} (tag : Nat) (addr : Word) (h : ok = true) : mtxTag ok tag addr = .ok () := check_ok h

theorem packTags_ok {t : Tile} {l : List Tile} (matrix : (mtxClass t.tag.toNat).isSome = true)
    (same : ∀ u ∈ l, u.tag = t.tag) : packTags (t :: l) = .ok t.tag.toNat := by
  have all : (t :: l).all (fun u => u.tag == t.tag) = true := by
    simp only [List.all_cons, beq_self_eq_true, Bool.true_and, List.all_eq_true, beq_iff_eq]
    exact same
  exact bind_of_ok (mtxTag_ok _ _ (by rw [matrix, all]; rfl)) rfl

theorem packFree_one {s : State} {xa : Reg} {x : Nat} (hx : TileAt s xa x) : packFree s xa false = .ok () :=
  bind_of_ok (tileFree_ok hx) rfl

theorem packFree_two {s : State} {xa : Reg} {x y : Nat} (hx : TileAt s xa x) (next : xa.toNat < 63) (hy : TileAt s (xa + 1) y) :
    packFree s xa true = .ok () :=
  bind_of_ok (tileFree_ok hx) ((if_pos (decide_eq_true next)).trans (tileFree_ok hy))

theorem packSources_one {s : State} {xa : Reg} {x : Nat} (hx : TileAt s xa x) : packSources s xa false = .ok [x] :=
  bind_of_ok (mtxTile_ok hx) rfl

theorem packSources_two {s : State} {xa : Reg} {x y : Nat} (hx : TileAt s xa x) (next : xa.toNat < 63)
    (hy : TileAt s (xa + 1) y) : packSources s xa true = .ok [x, y] :=
  bind_of_ok (mtxTile_ok hx) (bind_of_ok (mtxTile_succ_ok next hy) rfl)

/-- An instruction that only the engine's taking of it changes the state for. -/
theorem mtxStarts_taken {s : State} {i : Instr} {tok : Reg} {o : Op} {d cost : Nat} {x : Except Stop State} {q : Op → Prop}
    (run : exec i s = settle s x)
    (hx : cost ≤ (me s).tollHave + (here s).balance → x = .ok (mtxTaken s o d cost)) (as : IssuedAs s i tok o) (hq : q o) :
    MtxStarts i s tok d cost q := mtxStarts_of run hx as (.refl _) (.refl _) hq

/-! ### Bytes that the engine reads at issue (R306, R329) -/

/-- A part of a local span. -/
theorem Local.part {s : State} {off n k m : Nat} (h : Local s off n) (hk : k + m ≤ n) : Local s (off + k) m where
  inside := by have := h.inside; omega
  awake u hu lo hi := h.awake u hu (by omega) (by omega)
  steady := h.steady

/-- Local bytes are at hand. -/
theorem latched_ok {s : State} {off n : Nat} (h : Local s off n) : latched s off n = .ok none := by
  have checks := spmLocal_ok 7 4 h
  have bounds := spmBounds_ok 7 4 (.inr h.inside)
  unfold spmLocal at checks
  unfold latched
  cases gated : gatedUnit (here s) off n with
  | some u => simp [gated] at checks
  | none =>
    cases torn : carveHit (here s) off n with
    | none => rfl
    | some b => simp [gated, torn, bounds, trapping] at checks

theorem firstOf_none (n : Nat) : firstOf (List.replicate n none) = none := by
  induction n with
  | zero => rfl
  | succ n ih => exact ih

theorem latchedSpans_ok {s : State} {l : List (Nat × Nat)} (h : ∀ p ∈ l, Local s p.1 p.2) : latchedSpans s l = .ok none := by
  have read : l.mapM (fun p => latched s p.1 p.2) = .ok (List.replicate l.length none) :=
    mapM_ok List.length_replicate.symm fun p hp => by
      obtain ⟨hl, hn⟩ := List.of_mem_zip hp
      rw [latched_ok (h p.1 hl), List.eq_of_mem_replicate hn]
  exact bind_of_ok read (congrArg Except.ok (firstOf_none _))

theorem mergePrice_ok {s : State} {off : Word} {n : Nat} (align : off.toNat % 64 = 0)
    (bound : off.toNat + recordLen * n ≤ Config.spmBytes) (loc : Local s off.toNat (recordLen * n)) :
    mergePrice s off n = .ok (8 + ceilDiv (touchCount s s.cur.1 (recordsAt off.toNat n)) 8,
      touchCount s s.cur.1 (recordsAt off.toNat n), none) := by
  refine bind_of_ok (aligned_ok 7 4 align) (bind_of_ok (spmBounds_ok 7 4 (.inr bound))
    (bind_of_ok (latchedSpans_ok fun p hp => ?_) rfl))
  obtain ⟨r, hr, rfl⟩ := List.mem_map.mp hp
  obtain ⟨k, hk, rfl⟩ := List.mem_map.mp hr
  have inside : recordLen * k + 32768 + 17 ≤ recordLen * n := by
    have := Nat.mul_le_mul_left recordLen (Nat.succ_le_of_lt (List.mem_range.mp hk))
    rw [Nat.mul_succ] at this
    unfold recordLen at this ⊢
    omega
  have part := loc.part inside
  rwa [← Nat.add_assoc] at part

theorem firstPtag_ok {s : State} {off : Word} (align : off.toNat % 64 = 0) (bound : off.toNat + recordLen ≤ Config.spmBytes)
    (loc : Local s (off.toNat + 32784) 1) : firstPtag s off = .ok (some (ofBytes (spmSlice s (off.toNat + 32784) 1))) :=
  (if_pos ⟨align, bound⟩).trans (bind_of_ok (latched_ok loc) rfl)

theorem mergeHold_ok {s : State} (h : MergeFree s) : mergeHold s = .ok () := by
  obtain ⟨idle, owner⟩ := h
  refine if_neg ?_
  rcases owner with owner | owner <;> simp [idle, owner]

/-- An `mm.merge` whose records are at hand, and whose kept C has the tag of the first one (R313, R314). -/
theorem mmMerge_starts {s : State} {cd xb t : Reg} {np : BitVec 4} {zc : Bool} {off : BitVec 16} {c : Nat} (idle : MtxIdle s)
    (rb : readS s xb = .ok (sv s xb)) (hc : TileAt s cd c) (hr : RowsOk s) (align : (mtxOffset (sv s xb) off).toNat % 64 = 0)
    (bound : (mtxOffset (sv s xb) off).toNat + recordLen * (np.toNat + 1) ≤ Config.spmBytes)
    (loc : Local s (mtxOffset (sv s xb) off).toNat (recordLen * (np.toNat + 1)))
    {ptag : Nat} (hp : ofBytes (spmSlice s ((mtxOffset (sv s xb) off).toNat + 32784) 1) = ptag)
    (old : zc = false → (tileCapture s c).tag.toNat ∈ [1, 2, 3, 4, 5, 6, 7, 8, 9, 10, 11, 12] ∧
      (ptag = 1 ∨ ptag = 8 → (tileCapture s c).tag.toNat = ptag)) :
    let d := 8 + ceilDiv (touchCount s s.cur.1 (recordsAt (mtxOffset (sv s xb) off).toNat (np.toNat + 1))) 8
    MtxStarts (.mmMerge cd xb t np zc off) s t d (2 * d) (fun o => o.a = mtxOffset (sv s xb) off ∧ o.busy = [(s.cur.1, c)]) := by
  intro d
  have room := idle.1
  have price := mergePrice_ok align bound loc
  have whole : recordLen ≤ recordLen * (np.toNat + 1) := Nat.le_mul_of_pos_right _ (Nat.succ_pos _)
  have priced := congrArg (Except.map (2 * ·.1)) price
  cases zc with
  | true =>
    exact mtxStarts_taken rfl (fun funds => bind_of_ok rb (bind_of_ok (tileFree_ok hc) (bind_of_ok (opRoom_ok room)
      (bind_of_ok (mtxBusy_ok idle) (bind_of_ok (priceHold_ok priced funds) (bind_of_ok (mtxTile_ok hc)
      (bind_of_ok (rowsCheck_ok 7 4 hr) (bind_of_ok (mtxTag_ok _ _ rfl) ((if_pos rfl).trans (bind_of_ok rfl
      (bind_of_ok rfl (bind_of_ok price (startMtx_ok room funds)))))))))))))
      ⟨rfl, rfl, rfl, ⟨rfl, rfl, rfl⟩, rfl, rfl⟩ ⟨rfl, rfl⟩
  | false =>
    obtain ⟨tagged, same⟩ := old rfl
    have someTag : ∀ n ∈ [1, 2, 3, 4, 5, 6, 7, 8, 9, 10, 11, 12], (decide (1 ≤ n) && decide (n ≤ 12)) = true := by decide
    have fits : (!(ptag == 1 || ptag == 8) || (tileCapture s c).tag.toNat == ptag) = true := by
      by_cases formed : ptag = 1 ∨ ptag = 8
      · simp [same formed]
      · obtain ⟨one, eight⟩ := not_or.mp formed
        simp [one, eight]
    have first := firstPtag_ok align (by omega) (loc.part (k := 32784) (m := 1) (by unfold recordLen; omega))
    rw [hp] at first
    exact mtxStarts_taken rfl (fun funds => bind_of_ok rb (bind_of_ok (tileFree_ok hc) (bind_of_ok (opRoom_ok room)
      (bind_of_ok (mtxBusy_ok idle) (bind_of_ok (priceHold_ok priced funds) (bind_of_ok (mtxTile_ok hc)
      (bind_of_ok (rowsCheck_ok 7 4 hr) (bind_of_ok (mtxTag_ok _ _ (someTag _ tagged))
      ((if_neg Bool.false_ne_true).trans (bind_of_ok first (bind_of_ok (mtxTag_ok _ _ fits) (bind_of_ok price (startMtx_ok room funds)))))))))))))
      ⟨rfl, rfl, rfl, ⟨rfl, rfl, rfl⟩, rfl, rfl⟩ ⟨rfl, rfl⟩

/-! ### `mm` and `mm.z` (R300 to R308) -/

/-- `bind_of_ok` for a check that one of two forms makes. -/
theorem ite_bind_of_ok {α β : Type} {c : Prop} [Decidable c] {x y : Except Stop α} {f : α → Except Stop β} {a : α}
    {r : Except Stop β} (hx : (if c then x else y) = .ok a) (hf : f a = r) : (if c then x >>= f else y >>= f) = r := by
  by_cases hc : c
  · rw [if_pos hc] at hx ⊢
    exact bind_of_ok hx hf
  · rw [if_neg hc] at hx ⊢
    exact bind_of_ok hx hf

section Mm

variable {s : State} {f : MmForm} {boff rec : Word} {x c cls : Nat} {h : Option Nat} {st : Option Stream} {a : Tile}
  {bytes : List Byte}

/-- The cost that `mm` waits for is that of its issue (R327). -/
theorem mmPrice_ok (ready : MmReady s f boff rec x c cls h st a bytes) : mmPrice s f boff =
    .ok (mmCost cls f.df (mmLasts s f a (rowsOf (me s)) (mapOfB (tagOfA a) h)) f.ag) := by
  have operand : mmOperandA s f (tileCapture s x) (rowsOf (me s)) = a := ready.source.symm
  refine bind_of_ok (mtxTile_ok ready.tileA) (bind_of_ok (rowsCheck_ok 7 4 ready.rows) (bind_of_ok ready.tags ?_))
  dsimp only
  rw [operand]

/-- A stream that gives its rows is not short of them. -/
theorem mmStream_enough (ready : mmStream s f = .ok st) :
    holdIf (f.bs && shortOfRows s (f.xb.toNat % 8) f.streamRows) = .ok () := by
  refine if_neg (Bool.not_eq_true _ ▸ ?_)
  by_cases stream : f.bs = true
  · rw [mmStream, if_pos stream, streamFor] at ready
    rw [stream, Bool.true_and, shortOfRows]
    cases found : Tbl.find (me s).streams (f.xb.toNat % 8) with
    | none => rfl
    | some q =>
      by_cases short : q.filled < f.streamRows
      · by_cases bad : (q.out || decide (q.len < f.streamRows) || decide (q.total < q.rp + f.streamRows)) = true
        · simp only [Bool.or_eq_true, decide_eq_true_eq] at bad
          simp only [Bool.and_eq_false_iff, Bool.not_eq_false', decide_eq_false_iff_not]
          rcases bad with (out | few) | few
          · exact .inl out
          · exact .inr (by omega)
          · exact .inr (by omega)
        · rw [found] at ready
          dsimp only at ready
          rw [if_neg bad, except_ok_bind, if_pos short] at ready
          cases ready
      · simp [short]
  · simp [stream]

theorem mmHolds_ok (ready : MmReady s f boff rec x c cls h st a bytes)
    (funds : mmCost cls f.df (mmLasts s f a (rowsOf (me s)) (mapOfB (tagOfA a) h)) f.ag ≤ (me s).tollHave + (here s).balance) :
    ∃ b, mmHolds s f = .ok (b, rec) ∧ f.place b = boff := by
  have base : ∃ b, (if f.bs = true then (.ok 0 : Except Stop Word) else readS s f.xb) = .ok b ∧ f.place b = boff := by
    have place := ready.base
    by_cases stream : f.bs = true
    · rw [if_pos stream] at place ⊢
      exact ⟨0, rfl, (BitVec.zero_add _).trans place.symm⟩
    · rw [if_neg stream] at place ⊢
      exact ⟨_, readS_ok (readable_cons.mp place.1).1, place.2.symm⟩
  have record : (if f.df = 1 then readS s f.cd else (.ok 0 : Except Stop Word)) = .ok rec := by
    have record := ready.record
    by_cases outer : f.df = 1
    · rw [if_pos outer] at record ⊢
      rw [record.2, readS_ok (readable_cons.mp record.1).1]
    · rw [if_neg outer] at record ⊢
      rw [record]
  have free : (if f.df = 0 then tileFree s f.cd else (.ok () : Except Stop Unit)) = .ok () := by
    have tile := ready.tileC
    by_cases inner : f.df = 0
    · rw [if_pos inner] at tile ⊢
      exact tileFree_ok tile.1
    · exact if_neg inner
  have buffer : (if f.df = 2 then mergeHold s else (.ok () : Except Stop Unit)) = .ok () := by
    split
    · exact mergeHold_ok (ready.buffer ‹_›)
    · rfl
  obtain ⟨b, read, place⟩ := base
  refine ⟨b, ite_bind_of_ok read (ite_bind_of_ok record (bind_of_ok (tileFree_ok ready.tileA) (ite_bind_of_ok free
    (bind_of_ok (opRoom_ok ready.idle.1) (bind_of_ok (mtxBusy_ok ready.idle) (ite_bind_of_ok buffer
    (bind_of_ok (mmStream_enough ready.stream) (bind_of_ok (priceHold_ok ?_ funds) rfl)))))))), place⟩
  rw [place]
  exact mmPrice_ok ready

/-- The operation that `mm` and `mm.z` are issued as (R304). -/
def mmCommand (s : State) (i : Instr) (t : Reg) (f : MmForm) (boff rec : Word) (x c cls : Nat) (h : Option Nat) (a : Tile)
    (bytes : List Byte) : Op :=
  { newOp s i t with
    a := boff, b := rec, tiles := [(0, a), (1, tileCapture s c)]
    nums := [mmLasts s f a (rowsOf (me s)) (mapOfB (tagOfA a) h), c,
      if f.ag then gatherPads ((tileCapture s x).row 0) (rowsOf (me s)) else 0, cls, 0]
    bytes := bytes, busy := if f.df = 0 then [(s.cur.1, c)] else [] }

/-- What an issued `mm` takes besides the engine: the rows of its stream, and the row merge buffer (R297, R315). -/
def mmTakes (s : State) (f : MmForm) (cls : Nat) (u : State) : State :=
  let v := if f.bs then consume u (f.xb.toNat % 8) f.streamRows else u
  if f.df = 2 then
    withHere v (fun k =>
      { k with merge := if k.merge.owner = some s.cur.2 then k.merge
                        else { owner := some s.cur.2, isInt := decide (3 ≤ cls), words := [] } })
  else v

/-- `consume` changes the context's streams alone. -/
theorem consume_keeps (u : State) (q n : Nat) : Aside u (consume u q n) ∧ FundsKept u (consume u q n) := by
  refine ⟨aside_withMe u _ ?_ ?_ ?_, fundsKept_withMe u _ ?_⟩ <;> split <;> rfl

theorem mmTakes_keeps (s u : State) (f : MmForm) (cls : Nat) :
    Aside u (mmTakes s f cls u) ∧ FundsKept u (mmTakes s f cls u) := by
  have rows : ∀ v, v = (if f.bs then consume u (f.xb.toNat % 8) f.streamRows else u) → Aside u v ∧ FundsKept u v := by
    rintro v rfl
    split
    · exact consume_keeps ..
    · exact ⟨.refl u, .refl u⟩
  obtain ⟨aside, funds⟩ := rows _ rfl
  unfold mmTakes
  dsimp only
  split
  · exact ⟨aside.trans (aside_withHere _ _ rfl), funds.trans (fundsKept_withHere _ _ rfl rfl rfl)⟩
  · exact ⟨aside, funds⟩

/-- The bytes of B that `mm` reads at issue: its stream's rows, or the header of a block-sparse B (R296, R319). -/
def mmInput (s : State) (f : MmForm) (h : Option Nat) : Option Stream → List Byte
  | some q => streamBytes s q f.streamRows
  | none => toBytes (if h.isSome then 192 else 0) (h.getD 0)

theorem MmReady.bytes_eq (ready : MmReady s f boff rec x c cls h st a bytes) : bytes = mmInput s f h st := by
  have input := ready.input
  cases st <;> exact input

theorem startMm_ok (i : Instr) (t : Reg) (ready : MmReady s f boff rec x c cls h st a bytes)
    (funds : mmCost cls f.df (mmLasts s f a (rowsOf (me s)) (mapOfB (tagOfA a) h)) f.ag ≤ (me s).tollHave + (here s).balance) :
    startMm s i t f = .ok (mmTakes s f cls (mtxTaken s (mmCommand s i t f boff rec x c cls h a bytes)
      (mmLasts s f a (rowsOf (me s)) (mapOfB (tagOfA a) h))
      (mmCost cls f.df (mmLasts s f a (rowsOf (me s)) (mapOfB (tagOfA a) h)) f.ag))) := by
  obtain ⟨b, holds, place⟩ := mmHolds_ok ready funds
  have operand : mmOperandA s f (tileCapture s x) (rowsOf (me s)) = a := ready.source.symm
  have tile : (if f.df = 0 then mtxTile s f.cd.toNat else (.ok 0 : Except Stop Nat)) = .ok c := by
    have tile := ready.tileC
    by_cases inner : f.df = 0
    · rw [if_pos inner] at tile ⊢
      exact mtxTile_ok tile.1
    · rw [if_neg inner] at tile ⊢
      rw [tile]
  have apart : (!(f.df == 0 && c == x)) = true := by
    have tile := ready.tileC
    by_cases inner : f.df = 0
    · rw [if_pos inner] at tile
      simp [tile.2]
    · simp [inner]
  have half : (f.ag || (tileCapture s x).tag != 12 || f.kh == 0) = true := by
    simp only [Bool.or_eq_true, bne_iff_ne, beq_iff_eq, or_assoc]
    exact ready.half
  have mapA : (a.tag != 12 || mapFormed (bspMap a) (bspNzb a) (8 * mtxGroups (tagOfA a))) = true := by
    simp only [Bool.or_eq_true, bne_iff_ne]
    exact ready.sparseA
  refine bind_of_ok holds ?_
  dsimp only
  rw [place]
  refine ite_bind_of_ok tile (bind_of_ok (mtxTile_ok ready.tileA) (bind_of_ok (rowsCheck_ok 7 4 ready.rows)
    (bind_of_ok (check_ok half) (bind_of_ok (check_ok apart) (bind_of_ok ready.tags (bind_of_ok ready.oldTag
    (bind_of_ok ready.aligned (bind_of_ok ready.extents (bind_of_ok ready.stream (bind_of_ok ready.still ?_))))))))))
  dsimp only
  rw [operand]
  refine bind_of_ok (check_ok mapA) ?_
  have scalesA : mtxScales (if (none : Option Nat).isNone then badScaleA a f.kh
      (if f.ag then gatherPads ((tileCapture s x).row 0) (rowsOf (me s)) else 0)
      (rowsOf (me s)) (liveGroupsB (tagOfA a) (some (mapOfB (tagOfA a) h))) else none) = .ok () := by
    rw [ready.scalesA]; rfl
  have scalesB : mtxScales (if f.bs && (none : Option Nat).isNone then (denseB f bytes).badScale (liveGroupsA a
      (if f.ag then gatherPads ((tileCapture s x).row 0) (rowsOf (me s)) else 0) (rowsOf (me s))) else none) = .ok () := by
    by_cases stream : f.bs = true
    · rw [stream, ready.scalesB stream]; rfl
    · rw [Bool.eq_false_iff.mpr stream]; rfl
  obtain rfl := ready.bytes_eq
  have issue := startMtx_ok (o := mmCommand s i t f boff rec x c cls h a (mmInput s f h st))
    (d := mmLasts s f a (rowsOf (me s)) (mapOfB (tagOfA a) h)) ready.idle.1 funds
  cases hdr : h with
  | none =>
    subst hdr
    exact bind_of_ok rfl (bind_of_ok scalesA (bind_of_ok ready.steady (bind_of_ok scalesB (bind_of_ok issue rfl))))
  | some v =>
    have formed : headerFormed v boff = .ok () := check_ok (ready.sparseB v hdr)
    subst hdr
    exact bind_of_ok formed (bind_of_ok scalesA (bind_of_ok ready.steady (bind_of_ok scalesB (bind_of_ok issue rfl))))

theorem startMm_starts {i : Instr} {t : Reg} (run : exec i s = settle s (startMm s i t f))
    (ready : MmReady s f boff rec x c cls h st a bytes) :
    let d := mmLasts s f a (rowsOf (me s)) (mapOfB (tagOfA a) h)
    MtxStarts i s t d (mmCost cls f.df d f.ag)
      (fun o => o.a = boff ∧ o.b = rec ∧ o.bytes = bytes ∧ o.busy = if f.df = 0 then [(s.cur.1, c)] else []) :=
  mtxStarts_of run (startMm_ok i t ready) ⟨rfl, rfl, rfl, ⟨rfl, rfl, rfl⟩, rfl, rfl⟩ (mmTakes_keeps s _ f cls).1
    (mmTakes_keeps s _ f cls).2 ⟨rfl, rfl, rfl, rfl⟩

end Mm

/-- Settles O51: under its conditions each instruction passes its checks, and the engine takes it. -/
theorem matrixIssue : Obligations.MatrixIssue := by
  intro s cd xa xb t bs ag bf np kh scb noswap zc wide off qn x y c
  refine ⟨?mm, fun idle => ?_⟩
  case mm =>
    exact fun boff rec cls h st a bytes => ⟨startMm_starts rfl, startMm_starts rfl, startMm_starts rfl, startMm_starts rfl,
      startMm_starts rfl⟩
  intro dst inside tx ty matrix
  have room := idle.1
  refine ⟨fun rb => ?_, fun hc hx apart => ⟨fun dense => ?pack, fun sparse class_ formed => ?unpack⟩,
    fun st found hr merge out fits total space => ?out⟩
  · have rb := readS_ok (rb xb (List.mem_singleton_self xb))
    refine ⟨fun ⟨align, bound⟩ => ?count, fun hx dense ⟨align, bound⟩ => ?bitmap,
      fun hx next hy dense same => ⟨fun ⟨align, bound⟩ => ?bitmapB, fun scales ⟨align, bound⟩ => ?packB⟩,
      fun hc hr ⟨align, bound⟩ loc old => mmMerge_starts idle rb hc hr align bound loc rfl old⟩
    case count =>
      exact mtxStarts_taken rfl (fun funds => bind_of_ok rb (bind_of_ok (opRoom_ok room) (bind_of_ok (mtxBusy_ok idle)
        (bind_of_ok (mtxFunds_ok funds) (bind_of_ok (aligned_ok 7 4 align) (bind_of_ok (spmBounds_ok 7 4 (.inr bound))
        (startMtx_ok room funds))))))) ⟨rfl, rfl, rfl, ⟨rfl, rfl, rfl⟩, rfl, rfl⟩ ⟨rfl, rfl⟩
    case bitmap =>
      exact mtxStarts_taken rfl (fun funds => bind_of_ok rb (bind_of_ok (packFree_one hx) (bind_of_ok (opRoom_ok room)
        (bind_of_ok (mtxBusy_ok idle) (bind_of_ok (mtxFunds_ok funds) (bind_of_ok (packSources_one hx)
        (bind_of_ok (packTags_ok dense (by simp)) (bind_of_ok (aligned_ok 7 4 align)
        (bind_of_ok (spmBounds_ok 7 4 (.inr bound)) (startMtx_ok room funds))))))))))
        ⟨rfl, rfl, rfl, ⟨rfl, rfl, rfl⟩, rfl, rfl⟩ ⟨rfl, rfl⟩
    case bitmapB =>
      exact mtxStarts_taken rfl (fun funds => bind_of_ok rb (bind_of_ok (packFree_two hx next hy) (bind_of_ok (opRoom_ok room)
        (bind_of_ok (mtxBusy_ok idle) (bind_of_ok (mtxFunds_ok funds) (bind_of_ok (packSources_two hx next hy)
        (bind_of_ok (packTags_ok dense (by simpa using same)) (bind_of_ok (aligned_ok 7 4 align)
        (bind_of_ok (spmBounds_ok 7 4 (.inr bound)) (startMtx_ok room funds))))))))))
        ⟨rfl, rfl, rfl, ⟨rfl, rfl, rfl⟩, rfl, rfl⟩ ⟨rfl, rfl⟩
    case packB =>
      have super : (!isScaled tx.tag.toNat || [tx, ty].all (fun u => (List.range 4).all (fun k => u.super k == tx.super 0))) = true := by
        cases scaled : isScaled tx.tag.toNat with
        | false => rfl
        | true =>
          rw [Bool.not_true, Bool.false_or, List.all_eq_true]
          exact fun u hu => List.all_eq_true.mpr fun k hk => beq_iff_eq.mpr (scales scaled u hu k (List.mem_range.mp hk))
      exact mtxStarts_taken rfl (fun funds => bind_of_ok rb (bind_of_ok (packFree_two hx next hy) (bind_of_ok (opRoom_ok room)
        (bind_of_ok (mtxBusy_ok idle) (bind_of_ok (mtxFunds_ok funds) (bind_of_ok (packSources_two hx next hy)
        (bind_of_ok (packTags_ok dense (by simpa using same)) (bind_of_ok (mtxTag_ok _ _ super) (bind_of_ok (aligned_ok 7 4 align)
        (bind_of_ok (spmBounds_ok 7 4 (.inr bound)) (startMtx_ok room funds)))))))))))
        ⟨rfl, rfl, rfl, ⟨rfl, rfl, rfl⟩, rfl, rfl⟩ ⟨rfl, rfl⟩
  case pack =>
    exact mtxStarts_taken rfl (fun funds => bind_of_ok (tileFree_ok hc) (bind_of_ok (tileFree_ok hx) (bind_of_ok (opRoom_ok room)
      (bind_of_ok (mtxBusy_ok idle) (bind_of_ok (mtxFunds_ok funds) (bind_of_ok (mtxTile_ok hc) (bind_of_ok (mtxTile_ok hx)
      (bind_of_ok (check_ok (bne_iff_ne.mpr apart)) (bind_of_ok (packTags_ok dense (by simp))
      (startMtx_ok room funds))))))))))
      ⟨rfl, rfl, rfl, ⟨rfl, rfl, rfl⟩, rfl, rfl⟩ rfl
  case unpack =>
    exact mtxStarts_taken rfl (fun funds => bind_of_ok (tileFree_ok hc) (bind_of_ok (tileFree_ok hx) (bind_of_ok (opRoom_ok room)
      (bind_of_ok (mtxBusy_ok idle) (bind_of_ok (mtxFunds_ok funds) (bind_of_ok (mtxTile_ok hc) (bind_of_ok (mtxTile_ok hx)
      (bind_of_ok (check_ok (bne_iff_ne.mpr apart)) (bind_of_ok (mtxTag_ok _ _ (beq_iff_eq.mpr sparse))
      (bind_of_ok (mtxTag_ok _ _ class_) (bind_of_ok (check_ok formed) (startMtx_ok room funds))))))))))))
      ⟨rfl, rfl, rfl, ⟨rfl, rfl, rfl⟩, rfl, rfl⟩ rfl
  case out =>
    have roomy : shortOfRoom s qn.toNat (rowsOf (me s)) = false := by
      have enough : ¬ st.room < rowsOf (me s) := Nat.not_lt.mpr space
      simp [shortOfRoom, found, enough]
    refine mtxStarts_taken (o := { newOp s (.mmOut qn t) t with nums := [st.seq, max 8 (rowsOf (me s))] }) rfl (fun funds =>
      bind_of_ok (opRoom_ok room) (bind_of_ok (mtxBusy_ok idle) (bind_of_ok (mergeHold_ok merge)
      (bind_of_ok (if_neg (Bool.eq_false_iff.mp roomy)) (bind_of_ok (mtxFunds_ok funds) (bind_of_ok (rowsCheck_ok 7 4 hr) ?_))))))
      ⟨rfl, rfl, rfl, ⟨rfl, rfl, rfl⟩, rfl, rfl⟩ rfl
    rw [found]
    refine (if_neg ?_).trans (bind_of_ok rfl (startMtx_ok room funds))
    simp [out, Nat.not_lt.mpr fits, Nat.not_lt.mpr total]

end Sys2Proof.Machine

namespace Sys2Proof.Machine

/-! ## Loads and stores through ranges (O32) -/

/-! ### The bytes of a direct access (R195, R332) -/

/-- The pieces of a span hold its bytes. -/
theorem sum_pieces_le (fuel va n : Nat) : ((pieces fuel va n).map (·.2)).sum ≤ n := by
  induction fuel generalizing va n with
  | zero => exact Nat.zero_le n
  | succ fuel ih =>
    unfold pieces
    split
    · exact Nat.zero_le n
    · have rest := ih (va + min n (4096 - va % 4096)) (n - min n (4096 - va % 4096))
      simp only [List.map_cons, List.sum_cons]
      omega

/-- A translated span has one address for each of its bytes, at the most. -/
theorem translateSpan_length {s : State} {table : List RtEntry} {asid : BitVec 16} {va n : Nat} {need pas : List Nat}
    (h : translateSpan s table asid va n need = .ok pas) : pas.length ≤ n := by
  have step (l : List (Nat × Nat)) (acc : List Nat) : Ensures (l.foldlM (fun acc p =>
      match translateWith s table asid p.1 need with
      | .ok (pa, _) => (.ok (acc ++ (List.range p.2).map (fun i => pa + i)) : Except TrFault (List Nat))
      | .error e => .error e) acc) (fun r => r.length = acc.length + (l.map (·.2)).sum) := by
    induction l generalizing acc with
    | nil => exact ensures_pure.mpr rfl
    | cons p l ih =>
      refine Ensures.bind (P := fun r => r.length = acc.length + p.2) ?_ fun r hr => (ih r).mono fun q hq => ?_
      · dsimp only
        split
        · exact ensures_ok.mpr (by simp)
        · exact ensures_error
      · rw [hq, hr, List.map_cons, List.sum_cons, Nat.add_assoc]
  have total := step _ [] pas h
  have bound := sum_pieces_le (n / 4096 + 2) va n
  simp only [List.length_nil, Nat.zero_add] at total
  omega

theorem accessSpan_length {s : State} {core ctx : Nat} {asid : BitVec 16} {va n : Nat} {need pas : List Nat}
    (h : accessSpan s core ctx asid va n need = .ok pas) : pas.length ≤ n := by
  unfold accessSpan at h
  split at h
  · split at h <;> cases h
  · cases h
  · exact translateSpan_length h

theorem resolveSpan_length {s : State} {need l pas : List Nat} (h : resolveSpan s need l = .ok pas) : pas.length = l.length := by
  have step (l : List Nat) : Ensures (l.mapM (fun a => resolveExport s a need)) (fun r => r.length = l.length) := by
    induction l with
    | nil => exact ensures_pure.mpr rfl
    | cons a l ih =>
      rw [List.mapM_cons]
      exact ensures_bind fun _ => ih.bind fun r hr => ensures_pure.mpr (congrArg (· + 1) hr)
  exact step l pas h

theorem directSpan_length {s : State} {va : Word} {n : Nat} {need pas : List Nat} (h : directSpan s va n need = .ok pas) :
    pas.length ≤ n := by
  unfold directSpan at h
  cases found : accessSpan s s.cur.1 s.cur.2 (me s).asid va.toNat n need with
  | error e => rw [found] at h; cases h
  | ok l =>
    rw [found] at h
    change (match resolveSpan s need l with | .ok l => _ | .error e => _) = _ at h
    cases resolved : resolveSpan s need l with
    | error e => rw [resolved] at h; cases h
    | ok l' =>
      rw [resolved] at h
      dsimp only at h
      split at h
      · cases h
      · cases h
        rw [resolveSpan_length resolved]
        exact accessSpan_length found

theorem chunksOf_flatten (l : List Nat) : (chunksOf l).flatten = l := by
  induction l with
  | nil => rfl
  | cons a l ih =>
    unfold chunksOf
    split
    · next h => rw [h] at ih; rw [← ih]; rfl
    · next h => rw [h] at ih; rw [← ih]; rfl
    · next h =>
      rw [h] at ih
      split <;> rw [← ih] <;> rfl

theorem placed_snd (va : Nat) (l : List (List Nat)) : (placed va l).map (·.2) = l := by
  induction l generalizing va with
  | nil => rfl
  | cons c l ih => exact congrArg (c :: ·) (ih _)

/-- The addresses of a unit with the data that a store puts there. -/
def storedPart (va : Nat) (b : List Byte) (c : Nat × List Nat) : List (Nat × Byte) :=
  c.2.zip ((b.drop (c.1 - va)).take c.2.length)

/-- The units' data are the bytes stored, in order. -/
theorem storedParts_eq (va : Nat) (b : List Byte) (l : List (List Nat)) (k : Nat) (h : k + l.flatten.length ≤ b.length) :
    ((placed (va + k) l).map (storedPart va b)).flatten = l.flatten.zip (b.drop k) ∧
    ((placed (va + k) l).map (storedPart va b)).map (fun p => p.map (·.1)) = l := by
  induction l generalizing k with
  | nil => exact ⟨rfl, rfl⟩
  | cons c l ih =>
    rw [List.flatten_cons, List.length_append] at h
    obtain ⟨data, units⟩ := ih (k + c.length) (by omega)
    have size : ((b.drop k).take c.length).length = c.length := by
      rw [List.length_take, List.length_drop]
      omega
    have first : storedPart va b (va + k, c) = c.zip ((b.drop k).take c.length) := by
      rw [storedPart, Nat.add_sub_cancel_left]
    rw [← Nat.add_assoc] at data units
    rw [placed, List.map_cons, first]
    constructor
    · rw [List.flatten_cons, data, List.flatten_cons, ← List.drop_drop, ← List.zip_append size.symm, List.take_append_drop]
    · rw [List.map_cons, units, List.map_fst_zip size.ge]

/-! ### One request and one packet for each unit (R194, R332, R465) -/

/-- Requests of the kinds and units listed have been issued, each with its packet; nothing else has changed. -/
structure Sends (typ : Nat) (s u : State) (l : List (ReqKind × List Nat)) : Prop where
  aside : Aside s u
  kept : ∀ p ∈ s.packets, p ∈ u.packets
  asked : ∃ rs, u.reqs = s.reqs ++ rs ∧ rs.map (fun r => (r.kind, r.pas)) = l ∧ ∀ r ∈ rs, r.performed = false ∧
    ∃ p ∈ u.packets, p.id = r.id ∧ p.pkt.typ = BitVec.ofNat 8 typ ∧ p.pkt.pa = BitVec.ofNat 48 (r.pas.headD 0)

section Sends

variable {typ : Nat} {s t u : State} {l m : List (ReqKind × List Nat)}

theorem Sends.refl (typ : Nat) (s : State) : Sends typ s s [] :=
  ⟨.refl s, fun _ hp => hp, [], (List.append_nil _).symm, rfl, fun _ hr => absurd hr (List.not_mem_nil)⟩

theorem Sends.trans (h : Sends typ s t l) (g : Sends typ t u m) : Sends typ s u (l ++ m) := by
  obtain ⟨rs, hrs, hl, first⟩ := h.asked
  obtain ⟨qs, hqs, hm, second⟩ := g.asked
  refine ⟨h.aside.trans g.aside, fun p hp => g.kept p (h.kept p hp), rs ++ qs, ?_, ?_, fun r hr => ?_⟩
  · rw [hqs, hrs, List.append_assoc]
  · rw [List.map_append, hl, hm]
  · rcases List.mem_append.mp hr with hr | hr
    · obtain ⟨waiting, p, hp, found⟩ := first r hr
      exact ⟨waiting, p, g.kept p hp, found⟩
    · exact second r hr

theorem sends_pushAccess (s : State) (kind : ReqKind) (pas : List Nat) (slk : BitVec 10) (hint : CacheHint) (after : List Nat)
    (typ : Nat) (aux : BitVec 32) (data : List Byte) :
    Sends typ s (pushAccess s kind pas slk hint after typ aux data) [(kind, pas)] := by
  obtain ⟨aside, reqs, p, packets, id, htyp, pa⟩ := pushAccess_sends s kind pas slk hint after typ aux data
  refine ⟨aside, fun q hq => packets ▸ List.mem_append_left _ hq, _, reqs, rfl, fun r hr => ?_⟩
  rw [List.mem_singleton.mp hr]
  exact ⟨rfl, p, packets ▸ List.mem_append_right _ List.mem_cons_self, id, htyp, pa⟩

theorem sends_foldl {α : Type} {f : State → α → State} {g : α → ReqKind × List Nat} (h : ∀ t c, Sends typ t (f t c) [g c])
    (l : List α) (s : State) : Sends typ s (l.foldl f s) (l.map g) := by
  induction l generalizing s with
  | nil => exact .refl typ s
  | cons c l ih => exact (h s c).trans (ih _)

/-- The requests that `u` has beyond those of `s`: of the kinds and units listed, none performed, each with its packet. -/
structure Asked (typ : Nat) (s u : State) (l : List (ReqKind × List Nat)) : Prop where
  units : (u.reqs.drop s.reqs.length).map (fun r => (r.kind, r.pas)) = l
  open_ : ∀ r ∈ u.reqs.drop s.reqs.length, r.performed = false
  sent : ∀ r ∈ u.reqs.drop s.reqs.length,
    ∃ p ∈ u.packets, p.id = r.id ∧ p.pkt.typ = BitVec.ofNat 8 typ ∧ p.pkt.pa = BitVec.ofNat 48 (r.pas.headD 0)

theorem Sends.asked_since (h : Sends typ t u l) (before : t.reqs = s.reqs) : Asked typ s u l := by
  obtain ⟨rs, hrs, hl, each⟩ := h.asked
  have new : u.reqs.drop s.reqs.length = rs := by rw [hrs, before, List.drop_left]
  exact ⟨new ▸ hl, new ▸ fun r hr => (each r hr).1, new ▸ fun r hr => (each r hr).2⟩

theorem Asked.pas (h : Asked typ s u l) : (u.reqs.drop s.reqs.length).map (·.pas) = l.map (·.2) := by
  rw [← h.units, List.map_map]
  rfl

theorem Asked.kinds (h : Asked typ s u l) : (u.reqs.drop s.reqs.length).map (·.kind) = l.map (·.1) := by
  rw [← h.units, List.map_map]
  rfl

theorem Asked.kind_mem (h : Asked typ s u l) {r : Req} (hr : r ∈ u.reqs.drop s.reqs.length) : ∃ x ∈ l, x.1 = r.kind :=
  ⟨(r.kind, r.pas), h.units ▸ List.mem_map_of_mem hr, rfl⟩

end Sends

section Direct

variable {s : State} {va : Word} {pas : List Nat} {h : Hint}

theorem unasked_noteAccess (s : State) (va : Word) (n : Nat) (wr : Bool) : Unasked s (noteAccess s va n wr) :=
  ⟨aside_noteAccess .., rfl⟩

/-- A load through a range whose bytes translate (R194, R195). -/
theorem directLoad_ok {o : Op} {i : Instr} {t : Reg} {n : Nat} (room : HasRoom s) (as : IssuedAs s i t o)
    (span : directSpan s va n [permRd] = .ok pas) : ∃ u, directLoad s va n h o = .ok u ∧
      Issued s u { o with pas := pas, slk := slackOf s h.sl } ∧ Asked 1 s u ((chunksOf pas).map (fun c => (.load o.seq, c))) := by
  have noted := aside_noteAccess s va n false
  have op := issueOp_room (noted.hasRoom room) { o with pas := pas, slk := slackOf s h.sl }
  have walk := unasked_useRanges (withOp (noteAccess s va n false) { o with pas := pas, slk := slackOf s h.sl }) s.cur.1 s.cur.2
    (me s).asid va.toNat n (slackOf s h.sl)
  have sends := sends_foldl (g := fun c => (ReqKind.load o.seq, c.2)) (fun t (c : Nat × List Nat) =>
    sends_pushAccess t (.load o.seq) c.2 (slackOf s h.sl) (hintAt s s.cur.1 s.cur.2 (me s).asid c.1 h) (mustPrecede t c.2 false) 1
      (BitVec.ofNat 32 c.2.length) []) (placed va.toNat (chunksOf pas)) (useRanges (withOp (noteAccess s va n false)
        { o with pas := pas, slk := slackOf s h.sl }) s.cur.1 s.cur.2 (me s).asid va.toNat n (slackOf s h.sl))
  refine ⟨_, bind_of_ok (walked_ok _ _ _ span) (bind_of_ok op rfl), issued_of (i := i) (tok := t) noted
    ⟨as.core, as.ctx, as.seq, as.fresh, as.instr, as.tok⟩ (walk.aside.trans sends.aside), ?_⟩
  have units := congrArg (List.map fun c => (ReqKind.load o.seq, c)) (placed_snd va.toNat (chunksOf pas))
  rw [List.map_map] at units
  exact units ▸ sends.asked_since walk.reqs

/-- A store through a range whose bytes translate, outside every reduction target (R194, R195, R480). -/
theorem directStore_ok {b : List Byte} (span : directSpan s va b.length [permWr] = .ok pas)
    (free : ∀ q ∈ pas, inTarget s q = false) : ∃ u, directStore s va b h = .ok u ∧ Aside s u ∧
      Asked 2 s u ((placed va.toNat (chunksOf pas)).map (fun c => (.store (storedPart va.toNat b c), c.2))) := by
  have noted := unasked_noteAccess s va b.length true
  have walk := noted.trans (unasked_useRanges (noteAccess s va b.length true) s.cur.1 s.cur.2 (me s).asid va.toNat b.length
    (slackOf s h.sl))
  have sends := sends_foldl (g := fun c => (ReqKind.store (storedPart va.toNat b c), c.2)) (fun t (c : Nat × List Nat) =>
    sends_pushAccess t (.store (storedPart va.toNat b c)) c.2 (slackOf s h.sl) (hintAt s s.cur.1 s.cur.2 (me s).asid c.1 h)
      (mustPrecede t c.2 false) 2 (BitVec.ofNat 32 c.2.length) ((b.drop (c.1 - va.toNat)).take c.2.length))
    (placed va.toNat (chunksOf pas)) (useRanges (noteAccess s va b.length true) s.cur.1 s.cur.2 (me s).asid va.toNat b.length
      (slackOf s h.sl))
  exact ⟨_, bind_of_ok (walked_ok _ _ _ span) (bind_of_ok (targetCheck_ok va free) rfl), walk.aside.trans sends.aside,
    sends.asked_since walk.reqs⟩

end Direct

/-! ### The return of loaded data (R201, R206) -/

section Tiles

variable {x : Nat} {l : List Write}

/-- A write of tile register `x` changes nothing but that register. -/
theorem applyWrite_ofTile {w : Write} (h : w.OfTile x) (s : State) (core ctx : Nat) :
    applyWrite s core ctx w = withTile s core x (fun t => applyTile x t w) := by
  obtain ⟨low, high, own⟩ := h
  cases w with
  | tileRow | tileRcw | tileTag | tileSsc =>
    rw [← own]
    rfl
  | _ => simp [Write.part] at low high

theorem applyWrites_ofTile (core ctx : Nat) (h : AllOfTile x l) (s : State) :
    tileOf (coreOf (applyWrites s core ctx l) core) x = l.foldl (applyTile x) (tileOf (coreOf s core) x) ∧
      (applyWrites s core ctx l).mem = s.mem := by
  induction l generalizing s with
  | nil => exact ⟨rfl, rfl⟩
  | cons w l ih =>
    obtain ⟨hw, hl⟩ := allOfTile_cons.mp h
    obtain ⟨tile, mem⟩ := ih hl (applyWrite s core ctx w)
    rw [applyWrite_ofTile hw] at tile mem
    rw [applyWrites, applyWrite_ofTile hw, tile, mem, withTile_mem, withTile, coreOf_withCore, List.foldl_cons]
    exact ⟨congrArg (List.foldl (applyTile x) · l) (Tbl.look_put_same ..), rfl⟩

/-- A table whose first entries are written, once the next one is. -/
theorem look_put_last {α : Type} {e v : α} {t : Tbl α} {f : Nat → α} {n r : Nat}
    (h : Tbl.look e t r = if r < n then f r else v) : Tbl.look e (Tbl.put t n (f n)) r = if r < n + 1 then f r else v := by
  rw [Tbl.look_put, h]
  by_cases last : r = n
  · rw [if_pos last, if_pos (by omega), last]
  · rw [if_neg last]
    exact if_congr (by omega) rfl rfl

/-- The first `n` rows of a tile are written, and nothing else of it. -/
structure RowsWritten (n : Nat) (d : Nat → Row) (sc : Nat → BitVec 128) (t u : Tile) : Prop where
  tag : u.tag = t.tag
  word : ∀ r, u.word r = t.word r
  ssc : u.ssc = t.ssc
  row : ∀ r, u.row r = if r < n then d r else t.row r
  scales : ∀ r, u.scales r = if r < n then sc r else t.scales r

theorem rowsWritten_foldl (x n : Nat) (d : Nat → Row) (sc : Nat → BitVec 128) (t : Tile) :
    RowsWritten n d sc t (((List.range n).map (fun r => Write.tileRow x r (d r) (sc r))).foldl (applyTile x) t) := by
  induction n with
  | zero => exact ⟨rfl, fun _ => rfl, rfl, fun _ => rfl, fun _ => rfl⟩
  | succ n ih =>
    rw [List.range_succ, List.map_append, List.foldl_append]
    revert ih
    generalize ((List.range n).map (fun r => Write.tileRow x r (d r) (sc r))).foldl (applyTile x) t = u
    intro ih
    have last : List.foldl (applyTile x) u ([n].map (fun r => Write.tileRow x r (d r) (sc r))) =
        { u with rows := Tbl.put u.rows n (d n), bsc := Tbl.put u.bsc n (sc n) } := if_pos rfl
    rw [last]
    exact ⟨ih.tag, ih.word, ih.ssc, fun r => look_put_last (f := d) (ih.row r), fun r => look_put_last (f := sc) (ih.scales r)⟩

end Tiles

/-- The writes of an asynchronous operation to one tile. -/
theorem commitNow_ofTile {x : Nat} {l : List Write} (s : State) (core ctx : Nat) (h : AllOfTile x l) :
    tileOf (coreOf (commitNow s core ctx l) core) x = l.foldl (applyTile x) (tileOf (coreOf s core) x) ∧
      (commitNow s core ctx l).mem = s.mem := by
  obtain ⟨tile, mem⟩ := applyWrites_ofTile core ctx h (withCtx s core ctx (fun c =>
    { c with pend := c.pend.filter (fun p => !(l.any (fun w => w.part = p.w.part))) }))
  have tiles := congrArg CoreSt.tiles (coreOf_withCtx s core ctx (fun c =>
    { c with pend := c.pend.filter (fun p => !(l.any (fun w => w.part = p.w.part))) }) core)
  refine ⟨tile.trans ?_, mem⟩
  exact congrArg (fun t => List.foldl (applyTile x) (Tbl.look Tile.init t x) l) tiles

theorem allOfTile_loadWrites (p : Pattern) (x rows : Nat) (sc : Bool) (old : Tile) (b : List Byte) :
    AllOfTile x (loadWrites p x rows sc old b) := by
  have rowWrites := allOfTile_map (x := x) (l := List.range rows) (f := fun r => Write.tileRow x r
    (p.extract (ofBytes ((b.drop (r * p.rowBytes)).take p.rowBytes)))
    (if sc then BitVec.ofNat 128 (ofBytes ((b.drop (scaleArea rows p.rowBytes + 16 * r)).take 16))
      else if isScaled p.tag then defaultScales else old.scales r)) fun _ => ofTile_tileRow
  simp only [loadWrites, allOfTile_append, allOfTile_ite, allOfTile_cons, allOfTile_nil, ofTile_tileTag, ofTile_tileSsc]
  simpa using rowWrites

/-- All requests of a load have performed, and their responses have come back. -/
theorem loadReturn_goes {s : State} {o : Op} (some_ : loadReqs s o ≠ []) (all : ∀ r ∈ loadReqs s o, landed s r = true) :
    ¬ (loadReqs s o = [] ∨ (loadReqs s o).any (fun r => !landed s r) = true) := by
  rintro (none | open_)
  · exact some_ none
  · obtain ⟨r, hr, h⟩ := List.any_eq_true.mp open_
    rw [all r hr] at h
    cases h

/-- The state once a load's requests are forgotten (R201). -/
def loadTaken (s : State) (o : Op) : State :=
  { s with reqs := s.reqs.filter (fun r => !(r.core = o.core && r.ctx = o.ctx && r.kind = .load o.seq)) }

/-- The scalar of a load that returns holds the bytes read (R201). -/
theorem scalarReturn {s : State} {o : Op} {d a : Reg} {h : Hint} {sp sx : Bool} {sz : BitVec 2} {off : Imm}
    (found : findOp s o.core o.ctx o.seq = some o) (instr : o.instr = .ld d a h sp sx sz off)
    (goes : ¬ (loadReqs s o = [] ∨ (loadReqs s o).any (fun r => !landed s r) = true)) :
    exec (.loadDataReturn o.core o.ctx o.seq) s = .next (removeOp (writeScalarNow (loadTaken s o) o.core o.ctx o.data
      (loadValue sx ((loadReqs s o).flatMap (·.value)).length ((loadReqs s o).flatMap (·.value)))) o) := by
  change execLoadDataReturn o.core o.ctx o.seq s = _
  unfold execLoadDataReturn
  rw [found]
  dsimp only
  rw [if_neg goes, instr]
  rfl

theorem rowsReturn {s : State} {o : Op} {d a : Reg} {h : Hint} {sp sc : Bool} {pat : BitVec 3} {off : Imm}
    (found : findOp s o.core o.ctx o.seq = some o) (instr : o.instr = .ldX d a h sp sc pat off)
    (goes : ¬ (loadReqs s o = [] ∨ (loadReqs s o).any (fun r => !landed s r) = true)) :
    exec (.loadDataReturn o.core o.ctx o.seq) s = .next (removeOp (commitNow (loadTaken s o) o.core o.ctx
      (loadWrites o.pattern (o.nums.headD 0) o.rows sc (tileOf (coreOf s o.core) (o.nums.headD 0))
        ((loadReqs s o).flatMap (·.value)))) o) := by
  change execLoadDataReturn o.core o.ctx o.seq s = _
  unfold execLoadDataReturn
  rw [found]
  dsimp only
  rw [if_neg goes, instr]
  rfl

/-- The superblock scales that a load writes, if any. -/
theorem foldl_super (x : Nat) (sc scaled : Bool) (a b : BitVec 128) (t : Tile) :
    (if sc then [Write.tileSsc x a] else if scaled then [.tileSsc x b] else []).foldl (applyTile x) t =
      { t with ssc := if sc then a else if scaled then b else t.ssc } := by
  cases sc with
  | true => exact if_pos rfl
  | false =>
    cases scaled with
    | true => exact if_pos rfl
    | false => rfl

theorem foldl_tag (x : Nat) (v : BitVec 4) (t : Tile) : [Write.tileTag x v].foldl (applyTile x) t = { t with tag := v } :=
  if_pos rfl

/-- What the writes of a load leave of its tile (R206). -/
theorem loadWrites_tile (p : Pattern) (x rows : Nat) (sc : Bool) (old : Tile) (b : List Byte) :
    let read : Nat → Nat → Nat := fun o n => ofBytes ((b.drop o).take n)
    let new := (loadWrites p x rows sc old b).foldl (applyTile x) old
    new.tag = BitVec.ofNat 4 p.tag ∧ (∀ r, new.word r = old.word r) ∧
    (∀ r, r < rows → new.row r = p.extract (read (r * p.rowBytes) p.rowBytes) ∧
      new.scales r = if sc then BitVec.ofNat 128 (read (scaleArea rows p.rowBytes + 16 * r) 16)
        else if isScaled p.tag then defaultScales else old.scales r) ∧
    (∀ r, rows ≤ r → new.row r = old.row r ∧ new.scales r = old.scales r) ∧
    new.ssc = if sc then BitVec.ofNat 128 (read (scaleArea rows p.rowBytes + 16 * rows) 16)
      else if isScaled p.tag then defaultSuper else old.ssc := by
  intro read new
  have written := rowsWritten_foldl x rows (fun r => p.extract (read (r * p.rowBytes) p.rowBytes))
    (fun r => if sc then BitVec.ofNat 128 (read (scaleArea rows p.rowBytes + 16 * r) 16)
      else if isScaled p.tag then defaultScales else old.scales r) old
  have parts : new = _ := congrArg (List.foldl (applyTile x) old) rfl
  rw [loadWrites, List.foldl_append, List.foldl_append, foldl_tag, foldl_super] at parts
  rw [parts]
  refine ⟨rfl, written.word, fun r hr => ⟨(written.row r).trans (if_pos hr), (written.scales r).trans (if_pos hr)⟩,
    fun r hr => ⟨(written.row r).trans (if_neg (Nat.not_lt.mpr hr)), (written.scales r).trans (if_neg (Nat.not_lt.mpr hr))⟩, ?_⟩
  exact congrArg (fun v => if sc then _ else if isScaled p.tag then defaultSuper else v) written.ssc

/-- Settles O32: the checks pass and each unit has its request; at the return, the writes are applied one by one. -/
theorem virtualLoadsAndStores : Obligations.VirtualLoadsAndStores := by
  refine ⟨?issue, ?scalar, ?rows⟩
  case issue =>
    intro s d a h sx sc sz pat off x pas ra va p rows sent reads writes
    have base := readS_ok (ra a (List.mem_singleton_self a))
    have sending {u : State} {typ : Nat} {l : List (ReqKind × List Nat)} (asked : Asked typ s u l)
        (small : (BitVec.ofNat 8 typ).toNat = typ) : sent u typ := fun r hr => by
      obtain ⟨q, hq, id, typ, pa⟩ := asked.sent r hr
      exact ⟨q, hq, id, (congrArg BitVec.toNat typ).trans small, pa⟩
    have reading {i : Instr} {o : Op} {n : Nat} (room : HasRoom s) (as : IssuedAs s i 0 o)
        (span : directSpan s va n [permRd] = .ok pas) {f : Except Stop State} (run : exec i s = settle s f)
        (hf : f = directLoad s va n h o) : reads i o.data o.busy := by
      obtain ⟨u, ok, issued, asked⟩ := directLoad_ok (h := h) room as span
      refine ⟨u, _, exec_of_ok run (hf.trans ok), issued, as.instr, rfl, rfl, rfl, sending asked rfl, ?_,
        fun r hr => ⟨?_, asked.open_ r hr⟩⟩
      · rw [asked.pas, List.map_map]
        exact List.map_id _
      · obtain ⟨c, hc, kind⟩ := asked.kind_mem hr
        obtain ⟨q, -, rfl⟩ := List.mem_map.mp hc
        exact kind.symm
    have writing {i : Instr} {b : List Byte} (span : directSpan s va b.length [permWr] = .ok pas)
        (free : ∀ q ∈ pas, inTarget s q = false) {f : Except Stop State} (run : exec i s = settle s f)
        (hf : f = directStore s va b h) : writes i b := by
      obtain ⟨u, ok, aside, asked⟩ := directStore_ok (h := h) span free
      obtain ⟨data, units⟩ := storedParts_eq va.toNat b (chunksOf pas) 0 (by
        rw [chunksOf_flatten, Nat.zero_add]
        exact directSpan_length span)
      rw [chunksOf_flatten] at data
      refine ⟨u, _, exec_of_ok run (hf.trans ok), aside.ops, fun log => (aside.unlogged log).2, aside.scalars, sending asked rfl,
        ?_, ?_, data, units⟩
      · rw [asked.pas, List.map_map]
        exact placed_snd ..
      · rw [asked.kinds, List.map_map, List.map_map]
        rfl
    refine ⟨fun room align span => ?ld, fun rd align span free => ?st, fun hr ht align => ⟨fun room valid span => ?ldX,
      fun span free => ?stX⟩⟩
    case ld =>
      exact reading (o := { newOp s (.ld d a h false sx sz off) 0 with data := d.toNat, nums := [2 ^ sz.toNat] }) room
        ⟨rfl, rfl, rfl, ⟨rfl, rfl, rfl⟩, rfl, rfl⟩ span rfl
        (bind_of_ok base (bind_of_ok (opRoom_ok room) (bind_of_ok (aligned_ok 2 2 align) rfl)))
    case st =>
      have size : (toBytes (2 ^ sz.toNat) (sv s d).toNat).length = 2 ^ sz.toNat := toBytes_length ..
      exact writing (size.symm ▸ span) free rfl (bind_of_ok base (bind_of_ok (readS_ok (rd d (List.mem_singleton_self d)))
        (bind_of_ok (aligned_ok 2 2 align) rfl)))
    case ldX =>
      exact reading (o := { newOp s (.ldX d a h false sc pat off) 0 with pattern := p, nums := [x], busy := [(s.cur.1, x)] }) room
        ⟨rfl, rfl, rfl, ⟨rfl, rfl, rfl⟩, rfl, rfl⟩ span rfl
        (bind_of_ok base (bind_of_ok (tileFree_ok ht) (bind_of_ok (opRoom_ok room) (bind_of_ok (patternSlot_ok valid)
        (bind_of_ok (tileReg_ok 2 2 ht) (bind_of_ok (rowsCheck_ok 2 2 hr) (bind_of_ok (aligned_ok 2 2 align) rfl)))))))
    case stX =>
      exact writing span free rfl (bind_of_ok base (bind_of_ok (tileFree_ok ht) (bind_of_ok (tileReg_ok 2 2 ht)
        (bind_of_ok (rowsCheck_ok 2 2 hr) (bind_of_ok (aligned_ok 2 2 align) rfl)))))
  case scalar =>
    intro s core ctx seq o d a h sp sx sz off found instr data pos some_ all
    obtain ⟨rfl, rfl, rfl⟩ := findOp_key found
    refine ⟨_, scalarReturn found instr (loadReturn_goes some_ all), findOp_of_removed rfl, by simp [loadTaken], ?_⟩
    have number : d.toNat ≠ 0 := fun zero => pos (BitVec.eq_of_toNat_eq zero)
    rw [data]
    exact (if_neg pos).trans (scalars_writeScalarNow_same _ _ _ _ number)
  case rows =>
    intro s core ctx seq x o d a h sp sc pat off found instr num some_ all
    obtain ⟨rfl, rfl, rfl⟩ := findOp_key found
    obtain ⟨tile, mem⟩ := commitNow_ofTile (loadTaken s o) o.core o.ctx (allOfTile_loadWrites o.pattern x o.rows sc
      (tileOf (coreOf s o.core) x) ((loadReqs s o).flatMap (·.value)))
    refine ⟨_, rowsReturn found instr (loadReturn_goes some_ all), findOp_of_removed rfl, ?_⟩
    rw [num]
    refine ⟨mem, ?_⟩
    have written := loadWrites_tile o.pattern x o.rows sc (tileOf (coreOf s o.core) x) ((loadReqs s o).flatMap (·.value))
    exact tile ▸ written

end Sys2Proof.Machine

namespace Sys2Proof.Machine

/-! ## Requests that arrive over RoCEv2 (O54)

A request that is served leaves traffic of the host edge behind: packets to its homes, lines that it touches, units that it
wakes. None of that shows in what the peer is answered or in memory, which hold what the request itself does. -/

/-! ### What the traffic of a host edge leaves -/

/-- The state but for what traffic that no context issues changes: packets and their numbers, cores, slices and the count of
late packets. -/
def withoutTraffic (s : State) : State := { s with packets := [], nextReq := 0, cores := [], slices := [], mgmtLate := 0 }

section Traffic

theorem withoutTraffic_foldl {α : Type} {f : State → α → State} (h : ∀ s x, withoutTraffic (f s x) = withoutTraffic s)
    (l : List α) (s : State) : withoutTraffic (l.foldl f s) = withoutTraffic s := by
  induction l generalizing s with
  | nil => rfl
  | cons x l ih => exact (ih _).trans (h s x)

theorem withoutTraffic_withCore (s : State) (n : Nat) (f : CoreSt → CoreSt) :
    withoutTraffic (withCore s n f) = withoutTraffic s := rfl

theorem withoutTraffic_withSlice (s : State) (n : Nat) (f : Slice → Slice) :
    withoutTraffic (withSlice s n f) = withoutTraffic s := rfl

theorem withoutTraffic_traceEvent (s : State) (core cls ctx sub : Nat) (pay : Word) :
    withoutTraffic (traceEvent s core cls ctx sub pay) = withoutTraffic s := by
  unfold traceEvent
  split <;> rfl

theorem withoutTraffic_traceTrigger (s : State) (core source ctx : Nat) :
    withoutTraffic (traceTrigger s core source ctx) = withoutTraffic s := by
  unfold traceTrigger
  dsimp only
  split <;> rfl

theorem withoutTraffic_countLateUnit (s : State) (p : Packet) :
    withoutTraffic (countLateUnit s p) = withoutTraffic s := by
  unfold countLateUnit
  dsimp only
  split
  · exact (withoutTraffic_traceTrigger ..).trans (withoutTraffic_traceEvent ..)
  · split <;> rfl

theorem withoutTraffic_sendTraffic (s : State) (src typ dst pa : Nat) (aux : BitVec 32) (b : List Byte) :
    withoutTraffic (sendTraffic s src typ dst pa aux b) = withoutTraffic s := by
  unfold sendTraffic sendUnit
  dsimp only
  split
  · exact withoutTraffic_countLateUnit ..
  · rfl

theorem withoutTraffic_cacheAccess (s : State) (pa : Nat) (hint : CacheHint) (wr : Bool) :
    withoutTraffic (cacheAccess s pa hint wr) = withoutTraffic s := by
  unfold cacheAccess
  split
  · rfl
  · exact withoutTraffic_foldl (fun s _ => withoutTraffic_sendTraffic s ..) _ (withSlice s _ _)

theorem withoutTraffic_wakePas (s : State) (pas : List Nat) : withoutTraffic (wakePas s pas) = withoutTraffic s := by
  refine withoutTraffic_foldl (fun s pa => ?_) pas s
  split
  · exact withoutTraffic_foldl (fun s _ => withoutTraffic_withCore s _ _) _ s
  · rfl

/-- The packets of a request to its homes and the lines that it touches (R384, R468). -/
theorem withoutTraffic_inboundReach (s : State) (r : RoceRequest) (typ : Nat) (aux : Option (BitVec 32)) (b : List Byte)
    (l : List (Nat × Nat)) : withoutTraffic (inboundReach s r typ aux b l) = withoutTraffic s :=
  (withoutTraffic_foldl (fun s _ => withoutTraffic_sendTraffic s ..) _ _).trans
    (withoutTraffic_foldl (fun s _ => withoutTraffic_cacheAccess s ..) _ s)

variable {s t : State}

theorem isOutside_of_device (h : t.device = s.device) (a : Nat) : isOutside t a = isOutside s a := by
  unfold isOutside ownExport
  rw [h]

/-- Memory, the device's number, moving ranges and answers are no traffic. -/
theorem kept_of_withoutTraffic (h : withoutTraffic t = withoutTraffic s) :
    t.mem = s.mem ∧ t.device = s.device ∧ t.relocs = s.relocs ∧ t.answers = s.answers :=
  ⟨(congrArg State.mem h :), (congrArg State.device h :), (congrArg State.relocs h :), (congrArg State.answers h :)⟩

/-- A request that reaches its bytes leaves traffic, with the units awake that the bytes lie in (R380, R384). -/
theorem kept_of_reached (s : State) (r : RoceRequest) (pas : List Nat) (typ : Nat) (aux : Option (BitVec 32)) (b : List Byte)
    (l : List (Nat × Nat)) :
    let t := inboundReach (wakePas s pas) r typ aux b l
    t.mem = s.mem ∧ t.device = s.device ∧ t.relocs = s.relocs ∧ t.answers = s.answers :=
  kept_of_withoutTraffic ((withoutTraffic_inboundReach ..).trans (withoutTraffic_wakePas ..))

theorem logInbound_unlogged (h : s.rlog = none) (edge typ : Nat) (pas : List Nat) (b : List Byte) :
    logInbound s edge typ pas b = s := by
  simp only [logInbound, countLogged, logAny, h]

theorem noteInbound_unnoted (hl : s.rlog = none) (hp : s.rplay = none) (edge party : Nat) (wr : Bool) (pas : List Nat) :
    noteInbound s edge party wr pas = s := by
  unfold noteInbound
  split
  · exact noteOrder_unnoted hl hp ..
  · rfl

/-- Without a log, a request that reaches bytes wakes their units and notes nothing. -/
theorem noteInbound_wakePas (hl : s.rlog = none) (hp : s.rplay = none) (edge party : Nat) (wr : Bool) (pas at_ : List Nat) :
    noteInbound (wakePas s pas) edge party wr at_ = wakePas s pas := by
  obtain ⟨hl', hp'⟩ := wakePas_logs s pas
  exact noteInbound_unnoted (hl'.trans hl) (hp'.trans hp) ..

end Traffic

/-! ### Bytes of this device while no range moves -/

section Still

variable {s : State} (hm : s.relocs = [])
include hm

theorem atomicPlace_still (pas : List Nat) : atomicPlace s pas = pas := by
  simp [atomicPlace, hm]

theorem applyAtomic_still (w : AtomicWork) (pas : List Nat) :
    applyAtomic s w pas = (pas.map (memByte s.mem), physWrite s (pas.zip (toBytes pas.length
      (atomicNew w.aop w.ty (ofBytes (pas.map (memByte s.mem))) w.b w.c)))) := by
  have none_old (cells : List Host.Cell) : oldCopies s cells = [] := by simp [oldCopies, hm]
  simp only [applyAtomic, none_old, homeWrite_still hm, List.length_map]
  rfl

theorem writeCells_still {cells : List Host.Cell} (inside : ∀ c ∈ cells, isOutside s c.1 = false) :
    writeCells s cells = physWrite s cells := by
  have out : cells.filter (fun c => isOutside s c.1) = [] := List.filter_eq_nil_iff.mpr fun c hc => by simp [inside c hc]
  have all : cells.filter (fun c => !isOutside s c.1) = cells := List.filter_eq_self.mpr fun c hc => by simp [inside c hc]
  have runs : runsOf [] = [] := rfl
  have still : (physWrite s cells).relocs = [] := hm
  simp only [writeCells, out, all, runs, List.foldl_nil, homeWrite_still hm, still]

end Still

theorem readPas_inside {s : State} {pas : List Nat} (inside : ∀ a ∈ pas, isOutside s a = false) :
    readPas s pas = (pas.map (memByte s.mem), s) := by
  induction pas with
  | nil => rfl
  | cons a l ih =>
    have here : isOutside s a = false := inside a List.mem_cons_self
    simp only [readPas, here, ih fun x hx => inside x (List.mem_cons_of_mem a hx), Bool.false_eq_true, if_false, List.map_cons]

theorem mapped_snd (va : Nat) (pas : List Nat) : (mapped va pas).map (·.2) = pas := by
  simp only [mapped, List.map_map]
  exact List.zipIdx_map_fst 0 pas

/-- The bytes of a write, each with the virtual and the physical address of its place. -/
def mappedCells (va : Nat) (pas : List Nat) (data : List Byte) : List (Nat × Host.Cell) :=
  (mapped va pas).zipWith (fun x b => (x.1, (x.2, b))) data

theorem mappedCells_snd (va : Nat) (pas : List Nat) (data : List Byte) :
    (mappedCells va pas data).map (·.2) = pas.zip data := by
  rw [mappedCells, List.map_zipWith, List.zip, ← mapped_snd va pas, List.zipWith_map_left, mapped_snd]

theorem mem_of_mappedCells {va : Nat} {pas : List Nat} {data : List Byte} {c : Nat × Host.Cell}
    (h : c ∈ mappedCells va pas data) : c.2.1 ∈ pas := by
  have cell := List.mem_map_of_mem (f := (·.2)) h
  rw [mappedCells_snd] at cell
  exact (List.of_mem_zip cell).1

/-! ### Answers and the inbox -/

/-- The congestion notification that goes out besides the answer of a marked packet (R492). -/
def markNote (r : RoceRequest) : List Answer := if r.ecn then [.congestion r.qp] else []

theorem reply_eq (s : State) (r : RoceRequest) (a : Answer) :
    reply s r a = { s with answers := markNote r ++ a :: s.answers } := notifyMark_kept ..

/-- What an answer shows of a request that performed: the answers before it and what stands in memory. -/
theorem answered_of_reply {x : Host.Outcome State Fault Refusal} {s t : State} {r : RoceRequest} {a : Answer}
    {m : List Host.Cell} (run : x = .next (reply t r a)) (answers : t.answers = s.answers) (mem : t.mem = m) :
    ∃ u, (x = .next u ∧ u.answers = markNote r ++ a :: s.answers) ∧ u.mem = m :=
  ⟨_, ⟨run, by rw [reply_eq, answers]⟩, by rw [reply_mem, mem]⟩

theorem refuseInbound_eq (s : State) (r : RoceRequest) (e : MgmtEvent) :
    refuseInbound s r e = { s with answers := markNote r ++ .nakAccess r.qp :: s.answers, mlog := e :: s.mlog } := by
  rw [refuseInbound, reply_eq, logEvent]

section Inbox

variable {s : State} {i : Inbound} {wr : Bool} {pas : List Nat} {f : State → State}

theorem portTaken_of_write (h : portTaken s true pas = false) (wr : Bool) : portTaken s wr pas = false := by
  cases wr with
  | true => exact h
  | false =>
    simp only [portTaken, List.any_eq_false, Bool.true_or, Bool.and_true, Bool.false_or, Bool.and_eq_true, not_and] at h ⊢
    intro p hp place
    exact h p hp place.1

variable (first : ∀ j ∈ s.inbox, j.req.qp ≠ i.req.qp)
include first

theorem not_mem_inbox : i ∉ s.inbox := fun h => first i h rfl

theorem behind_first : behind s i = false := by
  simp only [behind, List.any_eq_false, beq_iff_eq]
  exact fun j hj => first j ((List.takeWhile_sublist _).subset hj)

theorem holdInbound_first : holdInbound s i = { s with inbox := s.inbox ++ [i] } := by
  rw [holdInbound, if_neg (by simpa using not_mem_inbox first)]

theorem serveInbound_taken (h : portTaken s wr pas = true) :
    serveInbound s i wr pas f = .next { s with inbox := s.inbox ++ [i] } := by
  rw [serveInbound, if_pos (by simp [h]), holdInbound_first first]

theorem serveInbound_free (h : portTaken s wr pas = false) : serveInbound s i wr pas f = .next (f s) := by
  have same : servedInbound s i = s := by rw [servedInbound, List.erase_of_not_mem (not_mem_inbox first)]
  rw [serveInbound, if_neg (by simp [h, behind_first first]), same]

end Inbox

/-! ### Requests that are accepted -/

theorem any_eq_false_of {f : Nat → Bool} {l : List Nat} (h : ∀ a ∈ l, f a = false) : l.any f = false :=
  List.any_eq_false.mpr fun a ha => by simp [h a ha]

/-- A request reaches the bytes at its places: no conflicting request stands at their port, they can be read, their targets
answer, and they are this device's own and none of them is a reduction's target. -/
structure Reaches (s : State) (r : RoceRequest) (pas : List Nat) : Prop where
  port : portTaken s true pas = false
  readable : r.unreadable = false
  target : targetFails s pas = false
  free : ∀ a ∈ pas, inTarget s a = false
  inside : ∀ a ∈ pas, isOutside s a = false

section Accepted

variable {s : State} {r : RoceRequest} {pas : List Nat} (up : s.bringup = .operational) (ready : accepts s r.qp = true)

theorem accepts_ready (follows : s.rplay = none) {qp : Nat} (hq : qp < 1024) (ready : qpState s qp = 1) :
    accepts s qp = true := by
  simp [accepts, follows, hq, ready]

include up ready

section First

variable (first : ∀ j ∈ s.inbox, j.req.qp ≠ r.qp)
include first

theorem inboundWrite_waits {data : List Byte} (span : inboundSpan s r data.length [permWr, permRa] = some pas)
    (free : ∀ a ∈ pas, inTarget s a = false) (taken : portTaken s true pas = true) :
    inboundWrite r data s = .next { s with inbox := s.inbox ++ [.write r data] } := by
  simp only [inboundWrite, up, ready, span, any_eq_false_of free, ne_eq, not_true_eq_false, Bool.not_true, Bool.false_eq_true,
    if_false]
  rw [serveInbound_taken first taken]
  simp only [up]

theorem inboundWrite_performs {data : List Byte} (span : inboundSpan s r data.length [permWr, permRa] = some pas)
    (h : Reaches s r pas) :
    inboundWrite r data s = .next (reply (performInbound s r (mappedCells r.va.toNat pas data)) r (.ack r.qp [])) := by
  simp only [inboundWrite, up, ready, span, any_eq_false_of h.free, ne_eq, not_true_eq_false, Bool.not_true, Bool.false_eq_true,
    if_false]
  rw [serveInbound_free first h.port, if_neg (by simp [h.readable, h.target]), mappedCells]

theorem inboundRead_performs {len : Nat} (span : inboundSpan s r len [permRd, permRa] = some pas) (h : Reaches s r pas) :
    inboundRead r len s = .next (reply (inboundReach (wakePas s pas) r 1 none [] (mapped r.va.toNat pas)) r
      (.ack r.qp (pas.map (memByte s.mem)))) := by
  obtain ⟨mem, dev, -⟩ := kept_of_reached s r pas 1 none [] (mapped r.va.toNat pas)
  have bytes := readPas_inside fun a ha => (isOutside_of_device dev a).trans (h.inside a ha)
  simp only [inboundRead, up, ready, span, ne_eq, not_true_eq_false, Bool.not_true, Bool.false_eq_true, if_false]
  rw [serveInbound_free first (portTaken_of_write h.port false), if_neg (by simp [h.readable, h.target]), bytes, mem]

theorem inboundRead_fails {len : Nat} (span : inboundSpan s r len [permRd, permRa] = some pas)
    (port : portTaken s false pas = false) (fails : r.unreadable = true ∨ targetFails s pas = true) :
    inboundRead r len s = .next (refuseInbound s r (.roceFailed r.qp)) := by
  simp only [inboundRead, up, ready, span, ne_eq, not_true_eq_false, Bool.not_true, Bool.false_eq_true, if_false]
  rw [serveInbound_free first port, if_pos (by simpa using fails)]

/-- An atomic at an aligned address performs, unless it waits for room in its port's replay cache. -/
theorem inboundAtomic_performs {op : RoceAtomic} (span : inboundSpan s r 8 [permRd, permWr, permRa, permSa] = some pas)
    (h : Reaches s r pas) (align : r.va.toNat % 8 = 0) (room : atomicWaits s r pas = false) :
    inboundAtomic r op s = .next (reply (performRoceAtomic s r op pas).1 r (.ack r.qp (performRoceAtomic s r op pas).2)) := by
  simp only [inboundAtomic, up, ready, span, align, any_eq_false_of h.free, room, ne_eq, not_true_eq_false, Bool.not_true,
    Bool.false_eq_true, if_false, or_self]
  rw [serveInbound_free first h.port, if_neg (by simp [h.readable, h.target, any_eq_false_of h.inside])]

end First

theorem inboundWrite_refused {data : List Byte} (span : inboundSpan s r data.length [permWr, permRa] = none) :
    inboundWrite r data s = .next (refuseInbound s r (.roceRefused r.qp)) := by
  simp only [inboundWrite, up, ready, span, ne_eq, not_true_eq_false, Bool.not_true, Bool.false_eq_true, if_false]

theorem inboundRead_refused {len : Nat} (span : inboundSpan s r len [permRd, permRa] = none) :
    inboundRead r len s = .next (refuseInbound s r (.roceRefused r.qp)) := by
  simp only [inboundRead, up, ready, span, ne_eq, not_true_eq_false, Bool.not_true, Bool.false_eq_true, if_false]

theorem inboundAtomic_refused {op : RoceAtomic} (span : inboundSpan s r 8 [permRd, permWr, permRa, permSa] = none) :
    inboundAtomic r op s = .next (refuseInbound s r (.roceRefused r.qp)) := by
  simp only [inboundAtomic, up, ready, span, ne_eq, not_true_eq_false, Bool.not_true, Bool.false_eq_true, if_false]

end Accepted

theorem inboundSpan_wrongKey {s : State} {r : RoceRequest} (key : (Tbl.look 0 s.qps r.qp).extractLsb' 64 32 ≠ r.rkey)
    (n : Nat) (need : List Nat) : inboundSpan s r n need = none := if_pos key

theorem atomicWaits_room {s : State} {pas : List Nat} (room : replayFull s (pas.headD 0) = false) (r : RoceRequest) :
    atomicWaits s r pas = false := by
  rw [atomicWaits, room, Bool.false_and]

theorem atomicWaits_held {s : State} {r : RoceRequest} {pas : List Nat} {v : Word}
    (held : heldResult s (pas.headD 0) (peerParty r.qp) r.psn = some v) : atomicWaits s r pas = false := by
  rw [atomicWaits, held, Option.isNone_some, Bool.and_false]

/-! ### Requests that perform -/

section Performs

variable {s : State} {r : RoceRequest} {pas : List Nat}

/-- Without a log and with no range moving, the bytes of a write enter memory and nothing that its peer sees changes. -/
theorem performInbound_still (hp : s.rplay = none) (hl : s.rlog = none) (hm : s.relocs = []) {l : List (Nat × Host.Cell)}
    (inside : ∀ c ∈ l, isOutside s c.2.1 = false) :
    (performInbound s r l).answers = s.answers ∧ (performInbound s r l).mem = (physWrite s (l.map (·.2))).mem := by
  have hl' (at_ : List Nat) : (wakePas s at_).rlog = none := (wakePas_logs s at_).1.trans hl
  have logs (c : List (List Host.Cell)) (at_ : List Nat) : c.foldl (fun s c =>
      logInbound s (hostEdge s r.qp) 2 (c.map (·.1)) (c.map (·.2))) (wakePas s at_) = wakePas s at_ :=
    List.foldl_fixed' (fun _ => logInbound_unlogged (hl' at_) ..) c
  simp only [performInbound, noteInbound_wakePas hl hp, logs]
  obtain ⟨mem, dev, relocs, answers⟩ := kept_of_reached s r ((l.map (·.2)).map (·.1)) 2 none ((l.map (·.2)).map (·.2))
    (l.map (fun x => (x.1, x.2.1)))
  rw [writeCells_still (relocs.trans hm)]
  · exact ⟨answers, congrArg (memPuts · (l.map Prod.snd)) mem⟩
  · intro c hc
    obtain ⟨x, hx, rfl⟩ := List.mem_map.mp hc
    exact (isOutside_of_device dev _).trans (inside x hx)

theorem ofBytes_lt (l : List Byte) : ofBytes l < 256 ^ l.length := by
  induction l with
  | nil => exact Nat.one_pos
  | cons b l ih =>
    have := b.isLt
    rw [ofBytes, List.length_cons, Nat.pow_succ]
    omega

/-- Only the bytes that have a place are placed. -/
theorem zip_toBytes {l : List Nat} {n : Nat} (h : l.length ≤ n) (v : Nat) :
    l.zip (toBytes l.length v) = l.zip (toBytes n v) := by
  induction l generalizing n v with
  | nil => rfl
  | cons a l ih =>
    obtain ⟨n, rfl⟩ := Nat.exists_eq_add_of_le' (Nat.succ_le_of_lt (Nat.lt_of_lt_of_le (Nat.succ_pos _) h))
    exact congrArg (_ :: ·) (ih (Nat.le_of_succ_le_succ h) _)

/-- The new value of an inbound atomic is that of the i64 atomic that stands for it (R238, R492). -/
theorem atomicNew_roceWork (op : RoceAtomic) {old : Nat} (h : old < 2 ^ 64) :
    atomicNew (roceWork op).aop (roceWork op).ty old (roceWork op).b (roceWork op).c =
      (roceAtomicNew op (BitVec.ofNat 64 old)).toNat := by
  have i64 : (roceWork op).ty = 1 := by cases op <;> rfl
  rw [atomicNew_int (by rw [i64]; decide), i64, if_pos rfl]
  cases op with
  | fetchAdd v =>
    change (old + v.toNat % 2 ^ 64) % 2 ^ 64 = _
    rw [roceAtomicNew, BitVec.toNat_add, BitVec.toNat_ofNat, Nat.mod_eq_of_lt h, Nat.mod_eq_of_lt v.isLt]
  | cmpSwap e n =>
    change (if old = e.toNat % 2 ^ 64 then n.toNat % 2 ^ 64 else old) = _
    have same : BitVec.ofNat 64 old = e ↔ old = e.toNat := by
      rw [← BitVec.toNat_inj, BitVec.toNat_ofNat, Nat.mod_eq_of_lt h]
    rw [roceAtomicNew, Nat.mod_eq_of_lt e.isLt, Nat.mod_eq_of_lt n.isLt, apply_ite BitVec.toNat, BitVec.toNat_ofNat,
      Nat.mod_eq_of_lt h]
    simp only [same]

theorem inboundSpan_length {n : Nat} {need : List Nat} (h : inboundSpan s r n need = some pas) : pas.length ≤ n := by
  unfold inboundSpan at h
  dsimp only at h
  split at h
  · cases h
  · split at h
    · cases h
    · next l translated =>
      split at h
      · next l' resolved =>
        cases h
        exact (resolveSpan_length resolved).trans_le (translateSpan_length translated)
      · cases h

theorem withoutTraffic_holdResult (s : State) (pa source tag : Nat) (v : Word) :
    withoutTraffic (holdResult s pa source tag v) = withoutTraffic s := by
  unfold holdResult
  split <;> rfl

variable {op : RoceAtomic}

/-- An atomic that has performed already is answered with the held result and changes nothing (R358). -/
theorem performRoceAtomic_held (hm : s.relocs = []) {v : Word}
    (held : heldResult s (pas.headD 0) (peerParty r.qp) r.psn = some v) :
    performRoceAtomic s r op pas = (s, toBytes 8 v.toNat) := by
  simp only [performRoceAtomic, atomicPlace_still hm, ite_self, held]

/-- An atomic that performs answers the old bytes and leaves the new value (R359, R492). -/
theorem performRoceAtomic_new (hp : s.rplay = none) (hl : s.rlog = none) (hm : s.relocs = []) (size : pas.length ≤ 8)
    (held : heldResult s (pas.headD 0) (peerParty r.qp) r.psn = none) :
    let old := pas.map (memByte s.mem)
    let done := performRoceAtomic s r op pas
    done.2 = old ∧ done.1.answers = s.answers ∧
      done.1.mem = (physWrite s (pas.zip (toBytes 8 (roceAtomicNew op (BitVec.ofNat 64 (ofBytes old))).toNat))).mem := by
  intro old done
  have bound : ofBytes (pas.map (memByte s.mem)) < 2 ^ 64 := by
    refine (ofBytes_lt _).trans_le ?_
    rw [List.length_map]
    exact Nat.pow_le_pow_right (by decide : 256 > 0) size
  have hl' : (wakePas s pas).rlog = none := (wakePas_logs s pas).1.trans hl
  obtain ⟨mem, -, relocs, answers⟩ := kept_of_reached s r pas 3 (some (roceAux op)) (roceOperands op)
    (mapped r.va.toNat pas)
  simp only [done, performRoceAtomic, atomicPlace_still hm, ite_self, held, noteInbound_wakePas hl hp,
    logInbound_unlogged hl', applyAtomic_still (relocs.trans hm), mem, atomicNew_roceWork op bound, zip_toBytes size]
  obtain ⟨memHeld, -, -, answersHeld⟩ := kept_of_withoutTraffic (withoutTraffic_holdResult ..)
  exact ⟨rfl, answersHeld.trans answers, memHeld.trans (congrArg (memPuts · _) mem)⟩

end Performs

/-- Settles O54: each request is accepted and served at once, and what it performs is all that memory and its answer show. -/
theorem inboundRoce : Obligations.InboundRoce := by
  intro s r data len op opcode pas up hp hl hm hq ready first note outcome reached old
  have acc := accepts_ready hp hq ready
  have reaches (h : reached) : Reaches s r pas := by
    obtain ⟨port, readable, target, places⟩ := h
    exact ⟨port, readable, target, fun a ha => (places a ha).1, fun a ha => (places a ha).2⟩
  refine ⟨fun span h => ?write, fun span taken free => inboundWrite_waits up acc first span free taken,
    fun span h => ?read, fun span h align => ⟨fun held room => ?atomic, fun v held => ?again⟩,
    ?unsupported, fun key i hi => ?key, fun span port fails => ?fails⟩
  case write =>
    have performs := inboundWrite_performs up acc first span (reaches h)
    obtain ⟨answers, mem⟩ := performInbound_still (r := r) hp hl hm
      fun c (hc : c ∈ mappedCells r.va.toNat pas data) => (reaches h).inside _ (mem_of_mappedCells hc)
    rw [mappedCells_snd] at mem
    exact answered_of_reply performs answers mem
  case read =>
    obtain ⟨mem, -, -, answers⟩ := kept_of_reached s r pas 1 none [] (mapped r.va.toNat pas)
    exact answered_of_reply (inboundRead_performs up acc first span (reaches h)) answers mem
  case atomic =>
    have performs := inboundAtomic_performs (op := op) up acc first span (reaches h) align (atomicWaits_room room r)
    obtain ⟨bytes, answers, mem⟩ := performRoceAtomic_new (op := op) hp hl hm (inboundSpan_length span) held
    rw [bytes] at performs
    exact answered_of_reply performs answers mem
  case again =>
    have performs := inboundAtomic_performs (op := op) up acc first span (reaches h) align (atomicWaits_held held)
    rw [performRoceAtomic_held hm held] at performs
    exact answered_of_reply performs rfl rfl
  case unsupported =>
    show execRoceUnsupportedOp _ _ s = _
    rw [execRoceUnsupportedOp, if_neg (not_not.mpr up)]
    by_cases h : opcode.extractLsb' 5 3 = 0
    · have answers : ¬ (1024 ≤ r.qp ∨ qpState s r.qp ≠ 1) := by omega
      rw [if_neg (not_not.mpr h), if_pos h, if_neg answers]
      exact congrArg Host.Outcome.next (reply_eq s r (.nakInvalid r.qp))
    · rw [if_pos h, if_neg h]
  case key =>
    have untranslated := inboundSpan_wrongKey key
    refine Eq.trans ?_ (congrArg Host.Outcome.next (refuseInbound_eq s r (.roceRefused r.qp)))
    simp only [List.mem_cons, List.not_mem_nil, or_false] at hi
    obtain rfl | rfl | rfl := hi
    · exact inboundWrite_refused up acc (untranslated ..)
    · exact inboundRead_refused up acc (untranslated ..)
    · exact inboundAtomic_refused up acc (untranslated ..)
  case fails =>
    exact (inboundRead_fails up acc first span port fails).trans (congrArg Host.Outcome.next (refuseInbound_eq ..))

end Sys2Proof.Machine
